-- ==== Sys2Proof/Word.lean ====
section
/-!
DEFINITION. The words of the machine: register words, bytes, lane masks, and the plainest arithmetic on them.
Number notation and byte order: spec 00_scope.md R4; pseudocode slices: R7.
-/

namespace Sys2Proof

/-- A vector register, a gang-uniform register or a latch element (R81, R83): 32 bits. -/
abbrev Word := BitVec 32

/-- A 64-bit value in an even-aligned register pair (R26). -/
abbrev DWord := BitVec 64

/-- One byte of any memory. -/
abbrev Byte := BitVec 8

/-- One bit per lane of a gang; bit l is lane l (R13, R83). -/
abbrev LaneMask := BitVec 32

/-- The lanes of a gang in ascending number (R7, R13). -/
def laneNumbers : List Nat := List.range 32

namespace LaneMask

/-- Lane `l` is in the mask. -/
def has (m : LaneMask) (l : Nat) : Bool := m.getLsbD l

/-- The lanes of a mask, ascending. -/
def lanes (m : LaneMask) : List Nat := laneNumbers.filter (fun l => m.getLsbD l)

/-- The mask of one lane. -/
def one (l : Nat) : LaneMask := 1#32 <<< l

/-- The mask of a list of lanes. -/
def ofList : List Nat → LaneMask
  | [] => 0#32
  | l :: ls => one l ||| ofList ls

end LaneMask

/-- `x[hi:lo]` as a natural number (R4, R7). -/
def bits (x hi lo : Nat) : Nat := (x / 2 ^ lo) % 2 ^ (hi + 1 - lo)

/-- `x[n]` as a truth value. -/
def bit (x n : Nat) : Bool := (x / 2 ^ n) % 2 == 1

/-- SignExt(x, n) of R111: the signed value of the n-bit pattern x. -/
def signExt (x n : Nat) : Int :=
  if x % 2 ^ n ≥ 2 ^ n / 2 ∧ 0 < n then (x % 2 ^ n : Nat) - (2 ^ n : Nat) else ((x % 2 ^ n : Nat) : Int)

/-- `y mod 2^w` of an exact integer, as a natural number (R7: an assignment keeps the value modulo 2^w). -/
def wrap (y : Int) (w : Nat) : Nat := (y % (2 ^ w : Nat)).toNat

/-- A word from an exact integer, modulo 2^32. -/
def wordOf (y : Int) : Word := BitVec.ofNat 32 (wrap y 32)

/-- Concat of a pair's two registers: `lo` is the even register (R26). -/
def pairNat (lo hi : Word) : Nat := hi.toNat * 2 ^ 32 + lo.toNat

/-- The `n` 32-bit words of a value, low word first (R26). -/
def wordsOf : Nat → Nat → List Word
  | 0, _ => []
  | n + 1, x => BitVec.ofNat 32 (x % 2 ^ 32) :: wordsOf n (x / 2 ^ 32)

/-- The value of a list of words, low word first. -/
def natOfWords : List Word → Nat
  | [] => 0
  | w :: ws => w.toNat + 2 ^ 32 * natOfWords ws

/-- The `n` bytes of a value, lowest-addressed first: little-endian (R4). -/
def bytesOf : Nat → Nat → List Byte
  | 0, _ => []
  | n + 1, x => BitVec.ofNat 8 (x % 256) :: bytesOf n (x / 256)

/-- The value of a list of bytes, lowest-addressed first (R4). -/
def natOfBytes : List Byte → Nat
  | [] => 0
  | b :: bs => b.toNat + 256 * natOfBytes bs

/-- The number of one bits of the low `n` bits of `x`. -/
def popCount : Nat → Nat → Nat
  | 0, _ => 0
  | n + 1, x => x % 2 + popCount n (x / 2)

/-- `a div 2^k` rounded up to a multiple. -/
def ceilDiv (a b : Nat) : Nat := (a + b - 1) / b

/-- Element `i` of a list of naturals, 0 past its end. -/
def nth0 (xs : List Nat) (i : Nat) : Nat := xs.getD i 0

/-- Replaces element `i` of a list by `f` of it. -/
def modifyNth {α : Type} (xs : List α) (i : Nat) (f : α → α) : List α :=
  match xs, i with
  | [], _ => []
  | x :: xs, 0 => f x :: xs
  | x :: xs, i + 1 => x :: modifyNth xs i f

end Sys2Proof
end

