-- ==== Sys2Proof/Syntax.lean ====
section
/-!
DEFINITION. Instruction syntax: operand forms, and `Instr`, one constructor per row of spec/opcode_table.json.
The first 170 constructors are lane instructions (R76; a row per mode where the table has one); the others are the
device, engine, host and link events of the table, each with the arguments that say which unit it concerns.
-/

namespace Sys2Proof

/-- Guard and result routing of every instruction word (R53, R54, R55, R63). -/
structure Hdr where
  /-- PRED: 0-14 = p0-p14, 15 = always -/
  pred : BitVec 4
  /-- PNEG -/
  pneg : Bool
  /-- LATE -/
  late : Bool
  /-- LATN -/
  latn : BitVec 3
  /-- NWB -/
  nwb : Bool
  /-- RET: 0 none, 1 A, 2 B, 3 C -/
  ret : BitVec 2
  deriving DecidableEq, Repr

/-- The unguarded header with no latch. -/
def Hdr.plain : Hdr := { pred := 15#4, pneg := false, late := false, latn := 0#3, nwb := false, ret := 0#2 }

/-- Operand codes (R56). -/
inductive Opnd where
  | v (n : Fin 1536)
  | b (n : Fin 8)
  | g (n : Fin 64)
  | vz
  deriving DecidableEq, Repr

/-- Operand B or, in format I, IMM32 (R59). -/
inductive SrcB where
  | reg (o : Opnd)
  | imm (i : BitVec 32)
  deriving DecidableEq, Repr

/-- Element types of MOD class INT (R77). -/
inductive ElTy where
  | i32 | n32 | i64 | n64 | i16x2 | n16x2 | i8x4 | n8x4
  deriving DecidableEq, Repr

/-- Element types of MOD class FLT (R77). -/
inductive FlTy where
  | f32 | f16x2 | bf16x2
  deriving DecidableEq, Repr

/-- Rounding modes (R32). -/
inductive Rnd where
  | rn | rz | rp | rm | ra
  deriving DecidableEq, Repr

/-- Source modifiers (R142). -/
structure Mods where
  na : Bool
  nb : Bool
  nc : Bool
  aa : Bool
  ab : Bool
  ac : Bool
  deriving DecidableEq, Repr

def Mods.none : Mods := { na := false, nb := false, nc := false, aa := false, ab := false, ac := false }

/-- Scope codes (R60). -/
inductive Scope where
  | gang | crew | camp | tract | package | fabric | system
  deriving DecidableEq, Repr

/-- Conditions of cmp (R117). -/
inductive CmpCC where
  | eq | ne | lt | le | gt | ge
  deriving DecidableEq, Repr

/-- Conditions of fcmp (R147). -/
inductive FcmpCC where
  | eq | ne | lt | le | gt | ge | num | nan | equ | neu | ltu | leu | gtu | geu
  deriving DecidableEq, Repr

/-- Predicate combination of cmp and fcmp: OP and PC of R117. -/
inductive Comb where
  | none
  | and (pc : Fin 15)
  | or (pc : Fin 15)
  | xor (pc : Fin 15)
  deriving DecidableEq, Repr

/-- A predicate p0-p14 written or read, or none (code 15). -/
abbrev PredOpt := Option (Fin 15)

/-- Conversion type codes (R129). -/
inductive CvtTy where
  | i32 | n32 | i64 | n64 | i16 | n16 | i8 | n8 | f32 | f16 | bf16 | f8e4 | f8e5 | f6e2 | f6e3 | f4e2
  deriving DecidableEq, Repr

/-- pack and unpack codes 0-12 (R132). -/
inductive PackTy where
  | i32i16 | n32n16 | i16i8 | n16n8 | f32f16 | f32bf16 | f16e4 | f16e5 | bf16e4 | bf16e5 | f16f6e2 | f16f6e3 | f16f4e2
  deriving DecidableEq, Repr

/-- Control operand of prmt (R135). -/
inductive PrmtCtl where
  | const (c : BitVec 20)
  | reg (o : Opnd)
  deriving DecidableEq, Repr

/-- Modes of shfl (R169). -/
inductive ShflMode where
  | pick | rot | slide | swz
  deriving DecidableEq, Repr

/-- The k operand of shfl (R170). -/
inductive ShflK where
  | reg (o : Opnd)
  | const (c : BitVec 5)
  deriving DecidableEq, Repr

/-- Modes of vote (R169). -/
inductive VoteMode where
  | every | some | same | odd
  deriving DecidableEq, Repr

/-- redux and scan operations (R172). -/
inductive RedOp where
  | add | minI | maxI | minN | maxN | and | or | xor | fadd | fmin | fmax
  deriving DecidableEq, Repr

/-- Stream clause: STREAM and MASK (R192). -/
structure Clause where
  stream : Fin 8
  mask : BitVec 8
  deriving DecidableEq, Repr

/-- Barrier levels (R174). -/
inductive BarLevel where
  | gang | crew | camp | tract | fabric
  deriving DecidableEq, Repr

/-- M-format access sizes (R61). -/
inductive Size where
  | n8 | i8 | n16 | i16 | b32 | b64 | b128
  deriving DecidableEq, Repr

/-- The offset of a memory operand: register C, or the signed 11-bit immediate (R61, R221). -/
inductive Off where
  | reg (o : Opnd)
  | imm (i : BitVec 11)
  deriving DecidableEq, Repr

/-- What every M-format instruction carries: base A, offset, stream clause and scope (R58, R192). -/
structure MemArg where
  base : Opnd
  off : Off
  clause : Clause
  scope : Scope
  deriving DecidableEq, Repr

/-- Cache policies of ld.g, st.g, ld.p, st.p (R220, R306). -/
inductive Policy where
  | norm | strm | l2
  deriving DecidableEq, Repr

/-- Atomic operations (R223). -/
inductive AtomOp where
  | add | minI | maxI | minN | maxN | and | or | xor | exch | inc | dec | fadd
  deriving DecidableEq, Repr

/-- Atomic operand width: size codes 4 and 5. -/
inductive AWidth where
  | w32 | w64
  deriving DecidableEq, Repr

/-- PCIe AtomicOps (R385): the widths each takes. -/
inductive HostOp where
  | add (w : AWidth)
  | exch (w : AWidth)
  | cas (s : Size)
  deriving DecidableEq, Repr

/-- atom.f operations (R404): those of R223, or cas. -/
inductive FabOp where
  | rmw (op : AtomOp)
  | cas
  deriving DecidableEq, Repr

/-- Source spaces of copy (R226). -/
inductive CopySrc where
  | g | v | n | s
  deriving DecidableEq, Repr

/-- Stream clause and scope of an E-format memory-class instruction. -/
structure EngArg where
  clause : Clause
  scope : Scope
  deriving DecidableEq, Repr

/-- A branch target of format B: signed line offset and slot (R62). -/
structure Target where
  offset : BitVec 32
  slot : Fin 5
  deriving DecidableEq, Repr

/-- Special registers (R104). -/
inductive SReg where
  | laneid | gangid | crewid | campid | tractid | coreid | mode | cmpl | fpstat
  | scnt (n : Fin 8)
  | regioncnt | frontier | svec | hvec | trapring | hintdrop | preempt | deadline | quantum
  | tcause | tpc | taddr | tdet0 | tdet1
  deriving DecidableEq, Repr

/-- MOD of l2part from 5 up (R316): .clr, and the modes 6 and 7 that return 0xFFFF_FFFF. -/
inductive L2Mode where
  | clr | six | seven
  deriving DecidableEq, Repr

/-- A barrier of the machine (R8, R16, R409): by level and the unit that owns it. -/
inductive BarId where
  | gang (crew gang num : Nat)
  | crew (crew num : Nat)
  | camp (launch camp num : Nat)
  | tract (launch tract num : Nat)
  | fabric (ctx group num : Nat)
  deriving DecidableEq, Repr

/-- How a host request of one lane ends (R386). -/
inductive HostEnd where
  | ok
  | ur
  | ca
  | atsRefused
  | poisoned
  deriving DecidableEq, Repr

/-- How a remote module answers a fabric access (R403, R405): data, or a translation fault with its TDET0. -/
inductive FabEnd where
  | ok (data : Nat)
  | fault (cause tdet0 : Nat)
  deriving DecidableEq, Repr

/-- What a debug READ or WRITE names (R333). -/
inductive DbgItem where
  | v (lane : Nat) (r : Nat)
  | p (lane : Nat) (p : Nat)
  | fpstat (lane : Nat)
  | pc (lane : Nat)
  | mode (lane : Nat)
  | frame (lane depth field : Nat)
  | g (r : Nat)
  deriving DecidableEq, Repr

/-- The VF control registers whose writes R375 guards. -/
inductive VfReg where
  | vfshare | part | s2root | keys
  deriving DecidableEq, Repr

/-- Instructions and events of the K96, in the table's order. -/
inductive Instr where
  | add (h : Hdr) (t : ElTy) (d a : Opnd) (b : SrcB)
  | sub (h : Hdr) (t : ElTy) (d a : Opnd) (b : SrcB)
  | addc (h : Hdr) (t : ElTy) (d a : Opnd) (b : SrcB) (cin cout : PredOpt)
  | subb (h : Hdr) (t : ElTy) (d a : Opnd) (b : SrcB) (cin cout : PredOpt)
  | mul (h : Hdr) (t : ElTy) (d a : Opnd) (b : SrcB)
  | mulh (h : Hdr) (t : ElTy) (d a : Opnd) (b : SrcB)
  | mad (h : Hdr) (t : ElTy) (d a b c : Opnd)
  | madh (h : Hdr) (t : ElTy) (d a b c : Opnd)
  | min (h : Hdr) (t : ElTy) (d a : Opnd) (b : SrcB)
  | max (h : Hdr) (t : ElTy) (d a : Opnd) (b : SrcB)
  | abs (h : Hdr) (t : ElTy) (d a : Opnd)
  | neg (h : Hdr) (t : ElTy) (d a : Opnd)
  | adds (h : Hdr) (t : ElTy) (d a : Opnd) (b : SrcB)
  | subs (h : Hdr) (t : ElTy) (d a : Opnd) (b : SrcB)
  | sad (h : Hdr) (t : ElTy) (d a b c : Opnd)
  | cmp (h : Hdr) (t : ElTy) (d a : Opnd) (b : SrcB) (cc : CmpCC) (op : Comb) (pd : PredOpt)
  | and (h : Hdr) (t : ElTy) (d a : Opnd) (b : SrcB)
  | or (h : Hdr) (t : ElTy) (d a : Opnd) (b : SrcB)
  | xor (h : Hdr) (t : ElTy) (d a : Opnd) (b : SrcB)
  | andn (h : Hdr) (t : ElTy) (d a : Opnd) (b : SrcB)
  | not (h : Hdr) (t : ElTy) (d a : Opnd)
  | lop3 (h : Hdr) (t : ElTy) (d a b c : Opnd) (table : BitVec 8)
  | shl (h : Hdr) (t : ElTy) (d a : Opnd) (b : SrcB)
  | shr (h : Hdr) (t : ElTy) (d a : Opnd) (b : SrcB)
  | sar (h : Hdr) (t : ElTy) (d a : Opnd) (b : SrcB)
  | rot (h : Hdr) (t : ElTy) (d a : Opnd) (b : SrcB)
  | bfx (h : Hdr) (t : ElTy) (d a : Opnd) (b : SrcB)
  | bfi (h : Hdr) (t : ElTy) (d a b c : Opnd)
  | popc (h : Hdr) (t : ElTy) (d a : Opnd)
  | clz (h : Hdr) (t : ElTy) (d a : Opnd)
  | ctz (h : Hdr) (t : ElTy) (d a : Opnd)
  | brev (h : Hdr) (t : ElTy) (d a : Opnd)
  | sel (h : Hdr) (t : ElTy) (d a b c : Opnd)
  | mov (h : Hdr) (t : ElTy) (d a : Opnd)
  | movi (h : Hdr) (t : ElTy) (d : Opnd) (imm : BitVec 32)
  | lea (h : Hdr) (t : ElTy) (d a : Opnd) (b : SrcB) (natural : Bool) (scale : Fin 5)
  | dp4 (h : Hdr) (t : ElTy) (d a b c : Opnd) (xs : Bool)
  | fadd (h : Hdr) (r : Rnd) (d a : Opnd) (b : SrcB) (m : Mods)
  | fsub (h : Hdr) (r : Rnd) (d a : Opnd) (b : SrcB) (m : Mods)
  | fmul (h : Hdr) (r : Rnd) (d a : Opnd) (b : SrcB) (m : Mods)
  | fma (h : Hdr) (r : Rnd) (d a b c : Opnd) (m : Mods)
  | fmin (h : Hdr) (d a : Opnd) (b : SrcB) (m : Mods) (nanp : Bool)
  | fmax (h : Hdr) (d a : Opnd) (b : SrcB) (m : Mods) (nanp : Bool)
  | fcmp (h : Hdr) (t : FlTy) (d a : Opnd) (b : SrcB) (cc : FcmpCC) (op : Comb) (pd : PredOpt)
  | frnd (h : Hdr) (t : FlTy) (r : Rnd) (d a : Opnd) (exact : Bool)
  | fclass (h : Hdr) (t : FlTy) (d a : Opnd) (mask : BitVec 10) (pd : PredOpt)
  | rcp (h : Hdr) (r : Rnd) (d a : Opnd)
  | rsqrt (h : Hdr) (r : Rnd) (d a : Opnd)
  | sqrt (h : Hdr) (r : Rnd) (d a : Opnd)
  | exp2 (h : Hdr) (r : Rnd) (d a : Opnd)
  | log2 (h : Hdr) (r : Rnd) (d a : Opnd)
  | sinpi (h : Hdr) (r : Rnd) (d a : Opnd)
  | cospi (h : Hdr) (r : Rnd) (d a : Opnd)
  | fscale (h : Hdr) (r : Rnd) (d a : Opnd) (b : SrcB)
  | fexp (h : Hdr) (d a : Opnd)
  | hadd2 (h : Hdr) (t : FlTy) (r : Rnd) (d a : Opnd) (b : SrcB) (m : Mods)
  | hmul2 (h : Hdr) (t : FlTy) (r : Rnd) (d a : Opnd) (b : SrcB) (m : Mods)
  | hfma2 (h : Hdr) (t : FlTy) (r : Rnd) (d a b c : Opnd) (m : Mods)
  | hmin2 (h : Hdr) (t : FlTy) (d a : Opnd) (b : SrcB) (m : Mods) (nanp : Bool)
  | hmax2 (h : Hdr) (t : FlTy) (d a : Opnd) (b : SrcB) (m : Mods) (nanp : Bool)
  | fdot2 (h : Hdr) (t : FlTy) (r : Rnd) (d a b c : Opnd) (m : Mods)
  | fdot4 (h : Hdr) (r : Rnd) (d a b c : Opnd) (m : Mods) (fa fb : Bool)
  | cvt (h : Hdr) (dst src : CvtTy) (elem : Fin 8) (sat dflt : Bool) (r : Rnd) (d a : Opnd)
  | pack (h : Hdr) (t : PackTy) (r : Rnd) (d a b : Opnd)
  | unpack (h : Hdr) (t : PackTy) (part : Fin 4) (d a : Opnd)
  | plsplit (h : Hdr) (n : Fin 8) (p : Fin 8) (d a : Opnd)
  | plmerge (h : Hdr) (n : Fin 8) (k : Fin 8) (d a : Opnd)
  | quant (h : Hdr) (nat : Bool) (r : Rnd) (n : Fin 8) (elem : Fin 4) (d a b c : Opnd)
  | dequant (h : Hdr) (nat : Bool) (r : Rnd) (elem : Fin 4) (d a b : Opnd)
  | prmt (h : Hdr) (d a b : Opnd) (ctl : PrmtCtl)
  | bra (h : Hdr) (t : Target)
  | brx (h : Hdr) (a : Opnd) (table : BitVec 16) (count : BitVec 8)
  | call (h : Hdr) (d : Opnd) (t : Target)
  | callImp (h : Hdr) (d : Opnd) (index : BitVec 32)
  | ret (h : Hdr) (a : Opnd)
  | exit (h : Hdr)
  | exitTo (h : Hdr) (a : Opnd)
  | region (h : Hdr)
  | yield (h : Hdr)
  | nop (pred : BitVec 4) (pneg : Bool)
  | trap (h : Hdr) (n : BitVec 16)
  | syscall (h : Hdr) (n : BitVec 16)
  | hcall (h : Hdr) (n : BitVec 16)
  | brk (h : Hdr) (n : BitVec 16)
  | shfl (h : Hdr) (m : ShflMode) (d a : Opnd) (k : ShflK) (grp : Fin 6) (pd : PredOpt)
  | vote (h : Hdr) (m : VoteMode) (d : Opnd) (ps : PredOpt) (psn : Bool) (pd : PredOpt)
  | redux (h : Hdr) (op : RedOp) (d a : Opnd)
  | scan (h : Hdr) (op : RedOp) (excl : Bool) (d a : Opnd)
  | matchq (h : Hdr) (wide : Bool) (d a : Opnd) (pd : PredOpt)
  | barArrive (h : Hdr) (c : Clause) (l : BarLevel) (num : BitVec 6) (pr : PredOpt)
  | barWait (h : Hdr) (c : Clause) (l : BarLevel) (num : BitVec 6) (pr : PredOpt)
  | barSync (h : Hdr) (c : Clause) (l : BarLevel) (num : BitVec 6)
  | wait (h : Hdr) (all : Bool) (n : Fin 4) (d a : Opnd) (c : Clause) (wmask : BitVec 4) (pt : PredOpt)
  | waits (h : Hdr) (stream : Fin 8) (n : BitVec 6)
  | chkb (h : Hdr) (signed : Bool) (s : Size) (a b c : Opnd)
  | chkt (h : Hdr) (a : Opnd) (b : SrcB)
  | chkl (h : Hdr) (a b : Opnd)
  | ldP (h : Hdr) (p : Policy) (s : Size) (d : Opnd) (m : MemArg)
  | stP (h : Hdr) (p : Policy) (s : Size) (b : Opnd) (m : MemArg)
  | ldS (h : Hdr) (s : Size) (d : Opnd) (m : MemArg)
  | stS (h : Hdr) (s : Size) (b : Opnd) (m : MemArg)
  | atomS (h : Hdr) (op : AtomOp) (w : AWidth) (d b : Opnd) (m : MemArg)
  | casS (h : Hdr) (w : AWidth) (d b : Opnd) (pd : PredOpt) (m : MemArg)
  | ldK (h : Hdr) (s : Size) (d : Opnd) (m : MemArg)
  | copy (h : Hdr) (src : CopySrc) (win : Option (Fin 64)) (chan : Fin 8) (a b : Opnd) (e : EngArg)
  | cpwp (h : Hdr) (chan : Fin 8) (d : Opnd)
  | cpcancel (h : Hdr) (chan : Fin 8) (e : EngArg)
  | ldN (h : Hdr) (s : Size) (d : Opnd) (m : MemArg)
  | stN (h : Hdr) (s : Size) (b : Opnd) (m : MemArg)
  | ldV (h : Hdr) (shd : Bool) (s : Size) (d : Opnd) (m : MemArg)
  | stV (h : Hdr) (shd : Bool) (s : Size) (b : Opnd) (m : MemArg)
  | atomV (h : Hdr) (op : AtomOp) (w : AWidth) (d b : Opnd) (m : MemArg)
  | casV (h : Hdr) (w : AWidth) (d b : Opnd) (pd : PredOpt) (m : MemArg)
  | taskPost (h : Hdr) (d a : Opnd) (e : EngArg)
  | taskDec (h : Hdr) (a : Opnd) (e : EngArg)
  | taskStatT (h : Hdr) (d a : Opnd)
  | taskStatW (h : Hdr) (d : Opnd) (win : Fin 64)
  | taskStatQ (h : Hdr) (d : Opnd) (q : Fin 7)
  | emit (h : Hdr) (a : Opnd) (pd : PredOpt) (e : EngArg)
  | pubw (h : Hdr) (win : Fin 64) (e : EngArg)
  | ldG (h : Hdr) (p : Policy) (shd : Bool) (s : Size) (d : Opnd) (m : MemArg)
  | stG (h : Hdr) (p : Policy) (shd : Bool) (s : Size) (b : Opnd) (m : MemArg)
  | atomG (h : Hdr) (op : AtomOp) (w : AWidth) (d b : Opnd) (m : MemArg)
  | casG (h : Hdr) (w : AWidth) (d b : Opnd) (pd : PredOpt) (m : MemArg)
  | redG (h : Hdr) (op : AtomOp) (w : AWidth) (b : Opnd) (m : MemArg)
  | hintL2 (h : Hdr) (b : Opnd) (m : MemArg)
  | hintL1 (h : Hdr) (b : Opnd) (m : MemArg)
  | hintLru (h : Hdr) (b : Opnd) (m : MemArg)
  | cwbL2 (h : Hdr) (b : Opnd) (m : MemArg)
  | cwbMem (h : Hdr) (b : Opnd) (m : MemArg)
  | cinvL1 (h : Hdr) (b : Opnd) (m : MemArg)
  | cinvL2 (h : Hdr) (b : Opnd) (m : MemArg)
  | iinv (h : Hdr) (b : Opnd) (m : MemArg)
  | fbar (h : Hdr) (c : Clause)
  | ldH (h : Hdr) (s : Size) (d : Opnd) (m : MemArg)
  | stH (h : Hdr) (s : Size) (b : Opnd) (m : MemArg)
  | atomH (h : Hdr) (op : HostOp) (d b : Opnd) (pd : PredOpt) (m : MemArg)
  | ldF (h : Hdr) (s : Size) (d : Opnd) (m : MemArg)
  | stF (h : Hdr) (s : Size) (b : Opnd) (m : MemArg)
  | atomF (h : Hdr) (op : FabOp) (w : AWidth) (d b : Opnd) (pd : PredOpt) (m : MemArg)
  | copyFGet (h : Hdr) (chan : Fin 8) (a b : Opnd) (e : EngArg)
  | copyFGetw (h : Hdr) (win : Fin 64) (chan : Fin 8) (a b : Opnd) (e : EngArg)
  | copyFPut (h : Hdr) (chan : Fin 8) (a b : Opnd) (e : EngArg)
  | rdsr (h : Hdr) (d : Opnd) (r : SReg)
  | wrsr (h : Hdr) (r : SReg) (a : Opnd)
  | sret (h : Hdr)
  | hret (h : Hdr)
  | tlbinvVa (h : Hdr) (a b : Opnd)
  | tlbinvCtx (h : Hdr)
  | tlbinvGpa (h : Hdr) (a b : Opnd)
  | tlbinvVf (h : Hdr)
  | ctxsave (h : Hdr) (force : Bool) (d a c : Opnd)
  | ctxload (h : Hdr) (d a c : Opnd)
  | launchRun (h : Hdr) (d a b : Opnd)
  | launchAdm (h : Hdr) (d a : Opnd)
  | frmset (h : Hdr) (d a b : Opnd)
  | l2partSet (h : Hdr) (d a b : Opnd)
  | l2partMask (h : Hdr) (d a : Opnd)
  | l2partOcc (h : Hdr) (d a b : Opnd)
  | l2partHit (h : Hdr) (d a b : Opnd)
  | l2partMiss (h : Hdr) (d a b : Opnd)
  | l2partClr (h : Hdr) (m : L2Mode) (d a b : Opnd)
  | keyopLoad (h : Hdr) (d a b : Opnd)
  | keyopErase (h : Hdr) (d a b : Opnd)
  | keyopAttest (h : Hdr) (d a b : Opnd)
  | halt (h : Hdr) (s : BitVec 8)
  | lanepc (h : Hdr) (a b : Opnd)
  | lanestRel (h : Hdr) (a : Opnd)
  | lanestHold (h : Hdr) (a : Opnd)
  | lanestExit (h : Hdr) (a : Opnd)
  -- events of the device, its engines, the host and the links
  | lineFetch (core gang : Nat)
  | memoryOpComplete (crew op : Nat)
  | barrierPhaseComplete (bar : BarId)
  | waitConditionMet (crew gang lane : Nat)
  | waitTimeout (crew gang lane : Nat)
  | copyBegin (crew chan : Nat)
  | copyDelivery (crew chan bytes : Nat)
  | copyComplete (crew chan : Nat)
  | taskIssue (camp engine : Nat)
  | mmaF (crew entry : Nat)
  | mmaQ (crew entry : Nat)
  | hadam (crew entry : Nat)
  | tileQuant (crew entry : Nat)
  | xpose (crew entry : Nat)
  | acc (crew entry : Nat)
  | fill (crew entry : Nat)
  | stage (crew entry : Nat)
  | stagingAdmit (crew entry w : Nat)
  | stagingArrive (crew entry w : Nat)
  | emitPushHeld (crew op : Nat)
  | crewPlace (launch core : Nat)
  | crewResume (crew core : Nat)
  | gangRetire (crew gang : Nat)
  | successorStart (crew : Nat)
  | quantumExpiry (crew : Nat)
  | deadlineExpiry (crew : Nat)
  | crewSave (crew : Nat)
  | pageRequestSend (vf : Nat)
  | pageResponseSuccess (vf prg : Nat)
  | pageResponseInvalid (vf prg : Nat)
  | pageResponseFailure (vf prg : Nat)
  | hostCompletion (crew op : Nat) (how : HostEnd)
  | hostCompletionTimeout (crew op : Nat)
  | fabricTimeout (crew op : Nat)
  | fabricResponse (crew op : Nat) (how : FabEnd)
  | flitCheckFail (link : Nat)
  | linkDown (link : Nat)
  | linkTrained (link : Nat)
  | trapRingRoom (vf ctx : Nat)
  | bindingComplete (vf ctx index : Nat)
  | graderWalk (tract : Nat)
  | readmit (tract : Nat)
  | release (tract : Nat)
  | launchTake (vf ctx queue : Nat)
  | launchCompletion (launch : Nat)
  | gcmCheckFail (launch va : Nat)
  | admprod (vf value : Nat)
  | lqdb (vf value : Nat)
  | priclr (vf value : Nat)
  | linkctl (link value : Nat)
  | linkstFailedClear (link value : Nat)
  | logctlEn (vf value : Nat)
  | logctlOvfClear (vf value : Nat)
  | logctlAlldirtyClear (vf value : Nat)
  | logctlStop (vf value : Nat)
  | vfControlWrite (vf : Nat) (r : VfReg) (value : Nat)
  | registerWrite (vf offset value : Nat)
  | hostInboundWrite (pa : Nat) (bytes : List (BitVec 8))
  | debugStop (core gang : Nat)
  | debugResume (core gang : Nat)
  | debugRead (core gang : Nat) (item : DbgItem)
  | debugWrite (core gang : Nat) (item : DbgItem) (value : Nat)
  | lockInterfaceRequest (vf : Nat)
  | startInterfaceRequest (vf : Nat)
  | stopInterfaceRequest (vf : Nat)
  | ideStreamFailure (vf : Nat)
  | functionLevelReset (vf : Nat)
  | reset
  | systemInstructionComplete (crew gang lane : Nat)
  | launchCancel (launch : Nat)
  | unitReady (unit : Nat)
  | healthPredictionUpdate (item value : Nat)
  | firmwareImageLoad (image : List (BitVec 8))
  deriving DecidableEq, Repr

end Sys2Proof
end

