-- ==== Sys2Proof/Machine/Flags.lean ====
section
/-!
DEFINITION. FPSTAT's flags (R35, R36) and the saturating integer functions that raise SI (R27).
-/

namespace Sys2Proof.Machine

/-- The six flags of FPSTAT, at their bits (R35): SI, NV, DZ, OF, UF, NX from bit 5 down. -/
abbrev FlagSet := BitVec 6

def flagNX : FlagSet := 1#6
def flagUF : FlagSet := 2#6
def flagOF : FlagSet := 4#6
def flagDZ : FlagSet := 8#6
def flagNV : FlagSet := 16#6
def flagSI : FlagSet := 32#6

/-- A flag, or none. -/
def flagIf (c : Bool) (f : FlagSet) : FlagSet := if c then f else 0#6

/-- Raise (R36): flags are set and never cleared. -/
def raiseFlags (old new : FlagSet) : FlagSet := old ||| new

/-- SatI of R27. -/
def satI (x : Int) (w : Nat) : Int :=
  if x > 2 ^ (w - 1) - 1 then 2 ^ (w - 1) - 1 else if x < -(2 ^ (w - 1)) then -(2 ^ (w - 1)) else x

/-- SatN of R27. -/
def satN (x : Int) (w : Nat) : Int :=
  if x > 2 ^ w - 1 then 2 ^ w - 1 else if x < 0 then 0 else x

/-- The saturating function of a type's signedness, with SI when it changed the value (R27). -/
def satFlag (signed : Bool) (x : Int) (w : Nat) : Int × FlagSet :=
  let y := if signed then satI x w else satN x w
  (y, flagIf (y != x) flagSI)

end Sys2Proof.Machine
end

