-- ==== Sys2Proof/Machine/Numbers.lean ====
section
/-!
DEFINITION. Number formats and exact arithmetic: formats (R28-R31), rounding (R32-R34), NaNs (R38), conversions
(R39-R41), bit planes (R44, R45), and the mill summation orders (R46, R47).
-/

namespace Sys2Proof.Machine

/-- The floating-point formats of R28. -/
inductive Fmt where
  | f32 | f16 | bf16 | f8e5 | f8e4 | f6e2 | f6e3 | f4e2
  deriving DecidableEq, Repr

/-- Width of the exponent field (R28). -/
def Fmt.eBits : Fmt → Nat
  | .f32 => 8 | .f16 => 5 | .bf16 => 8 | .f8e5 => 5 | .f8e4 => 4 | .f6e2 => 2 | .f6e3 => 3 | .f4e2 => 2

/-- Width of the mantissa field (R28). -/
def Fmt.mBits : Fmt → Nat
  | .f32 => 23 | .f16 => 10 | .bf16 => 7 | .f8e5 => 2 | .f8e4 => 3 | .f6e2 => 3 | .f6e3 => 2 | .f4e2 => 1

/-- Exponent bias (R28). -/
def Fmt.bias : Fmt → Int
  | .f32 => 127 | .f16 => 15 | .bf16 => 127 | .f8e5 => 15 | .f8e4 => 7 | .f6e2 => 1 | .f6e3 => 3 | .f4e2 => 1

/-- The format has infinities (R28). -/
def Fmt.hasInf : Fmt → Bool
  | .f32 | .f16 | .bf16 | .f8e5 => true
  | _ => false

/-- A destination that saturates (R33). -/
def Fmt.saturating : Fmt → Bool
  | .f32 | .f16 | .bf16 => false
  | _ => true

/-- Bits of an element. -/
def Fmt.width (F : Fmt) : Nat := 1 + F.eBits + F.mBits

/-- The code of an infinity's exponent and mantissa (R28). -/
def Fmt.infCode (F : Fmt) : Nat := (2 ^ F.eBits - 1) * 2 ^ F.mBits

/-- The code of the largest finite magnitude (R28). -/
def Fmt.maxCode : Fmt → Nat
  | .f8e4 => 0x7E
  | F => if F.hasInf then F.infCode - 1 else 2 ^ (F.eBits + F.mBits) - 1

/-- A decoded element: a NaN with its mantissa, an infinity, or the finite value (-1)^neg · num · 2^exp. -/
inductive Fp where
  | nan (neg : Bool) (mant : Nat)
  | inf (neg : Bool)
  | fin (neg : Bool) (num : Nat) (exp : Int)
  deriving DecidableEq, Repr

/-- The value a code stands for (R28). -/
def Fmt.decode (F : Fmt) (x : Nat) : Fp :=
  let m := x % 2 ^ F.mBits
  let e := x / 2 ^ F.mBits % 2 ^ F.eBits
  let neg := bit x (F.eBits + F.mBits)
  if F.hasInf && e == 2 ^ F.eBits - 1 then (if m = 0 then .inf neg else .nan neg m)
  else if F == .f8e4 && e == 15 && m == 7 then .nan neg m
  else if e = 0 then .fin neg m (1 - F.bias - F.mBits)
  else .fin neg (2 ^ F.mBits + m) (e - F.bias - F.mBits)

/-- A NaN whose top mantissa bit is 0 is signalling; f8e4's one NaN is quiet (R28). -/
def Fp.isSnan (F : Fmt) : Fp → Bool
  | .nan _ m => !bit m (F.mBits - 1)
  | _ => false

def Fp.isNan : Fp → Bool
  | .nan _ _ => true
  | _ => false

def Fp.isInf : Fp → Bool
  | .inf _ => true
  | _ => false

def Fp.isZero : Fp → Bool
  | .fin _ 0 _ => true
  | _ => false

def Fp.neg : Fp → Bool
  | .nan n _ | .inf n | .fin n _ _ => n

/-- The sign bit alone is changed (R143). -/
def Fp.setNeg (n : Bool) : Fp → Fp
  | .nan _ m => .nan n m
  | .inf _ => .inf n
  | .fin _ x e => .fin n x e

/-- The code of a sign and a magnitude code. -/
def Fmt.signed (F : Fmt) (neg : Bool) (mag : Nat) : Nat := neg.toNat * 2 ^ (F.eBits + F.mBits) + mag

def Fmt.inf (F : Fmt) (neg : Bool) : Nat := F.signed neg F.infCode

def Fmt.zero (F : Fmt) (neg : Bool) : Nat := F.signed neg 0

/-- The generated NaN (R38). -/
def Fmt.genNan (F : Fmt) : Nat := F.infCode + 2 ^ (F.mBits - 1)

/-- A NaN of sign and mantissa with its quiet bit set (R38). -/
def Fmt.quietNan (F : Fmt) (neg : Bool) (m : Nat) : Nat :=
  F.signed neg (F.infCode + (if bit m (F.mBits - 1) then m else m + 2 ^ (F.mBits - 1)))

/-- An exact real value: |x| = (num + d) · 2^exp with d = 0, or 0 < d < 1 when `sticky`. -/
structure Ex where
  neg : Bool
  num : Nat
  exp : Int
  sticky : Bool
  deriving DecidableEq, Repr

def Ex.isZero (x : Ex) : Bool := x.num == 0 && !x.sticky

/-- The comparison of a remainder with half a unit. -/
inductive Half where
  | exact | below | tie | above
  deriving DecidableEq, Repr

/-- |x| / 2^k as a whole part and the position of the rest. -/
def Ex.split (x : Ex) (k : Int) : Nat × Half :=
  let s := k - x.exp
  if s ≤ 0 then (x.num * 2 ^ (-s).toNat, if x.sticky then .below else .exact)
  else
    let q := 2 ^ s.toNat
    let r := x.num % q
    let h := q / 2
    (x.num / q,
      if r = 0 ∧ !x.sticky then .exact
      else if r < h then .below
      else if r = h ∧ !x.sticky then .tie
      else .above)

/-- Whether the whole part is raised by one, by rounding mode (R32). -/
def roundUp (rmode : Rnd) (neg : Bool) (n : Nat) (h : Half) : Bool :=
  match rmode, h with
  | _, .exact => false
  | .rn, .below => false
  | .rn, .tie => n % 2 == 1
  | .rn, .above => true
  | .rz, _ => false
  | .rp, _ => !neg
  | .rm, _ => neg
  | .ra, .below => false
  | .ra, _ => true

/-- RoundToMultiple(x, 2^k, rmode): the magnitude's multiple, and whether it differs from x. -/
def roundMultiple (x : Ex) (k : Int) (rmode : Rnd) : Nat × Bool :=
  let (n, h) := x.split k
  (if roundUp rmode x.neg n h then n + 1 else n, h != .exact)

/-- Floor(Log2(|x|)) of a non-zero value. -/
def Ex.log (x : Ex) : Int := (Nat.log2 x.num : Int) + x.exp

/-- RoundFmt of R33. A non-zero value with num = 0 lies below every format's range. -/
def roundFmt (F : Fmt) (rmode : Rnd) (x : Ex) : Nat × FlagSet :=
  if x.isZero then (F.zero x.neg, 0#6)
  else
    let low := 1 - F.bias
    let e := if x.num = 0 then low else max x.log low
    let (n, inexact) := roundMultiple x (e - F.mBits) rmode
    let code := (e - low).toNat * 2 ^ F.mBits + n
    if code > F.maxCode then
      let r :=
        if !F.hasInf || F.saturating then F.maxCode
        else
          match rmode with
          | .rn | .ra => F.infCode
          | .rz => F.maxCode
          | .rp => if x.neg then F.maxCode else F.infCode
          | .rm => if x.neg then F.infCode else F.maxCode
      (F.signed x.neg r, flagOF ||| flagNX)
    else
      (F.signed x.neg code, flagIf inexact flagNX ||| flagIf (inexact && decide (code < 2 ^ F.mBits)) flagUF)

/-- The integer RoundToMultiple(x, 1, rmode), and whether it differs from x. -/
def roundInt (x : Ex) (rmode : Rnd) : Int × Bool :=
  let (n, inexact) := roundMultiple x 0 rmode
  (if x.neg then -(n : Int) else n, inexact)

/-- The exact value of a finite element. -/
def Ex.ofFin (neg : Bool) (num : Nat) (exp : Int) : Ex := { neg := neg, num := num, exp := exp, sticky := false }

def Ex.ofInt (x : Int) : Ex := Ex.ofFin (decide (x < 0)) x.natAbs 0

/-- A finite value as an integer multiple of 2^e. -/
def scaled (neg : Bool) (num : Nat) (exp e : Int) : Int :=
  let m := (num * 2 ^ (exp - e).toNat : Nat)
  if neg then -(m : Int) else m

/-- The sum of finite terms, exactly; `zeroNeg` is the sign of a zero sum. -/
def sumTerms (ts : List (Bool × Nat × Int)) (zeroNeg : Bool) : Ex :=
  let e : Int := (ts.map (fun t => t.2.2)).foldl min 0
  let s : Int := (ts.map (fun t => scaled t.1 t.2.1 t.2.2 e)).foldl (· + ·) 0
  if s = 0 then Ex.ofFin zeroNeg 0 0 else Ex.ofFin (decide (s < 0)) s.natAbs e

/-- The sign of an exact zero sum of two terms (R34). -/
def zeroSign (rmode : Rnd) (n1 n2 : Bool) : Bool := if n1 == n2 then n1 else rmode == .rm

/-- A term of a sum: an element or an exact product of two. -/
inductive Term where
  | nan
  | inf (neg : Bool)
  | fin (neg : Bool) (num : Nat) (exp : Int)
  deriving DecidableEq, Repr

/-- The exact product; nan when it is 0 × ∞ or has a NaN operand. -/
def mulTerm : Fp → Fp → Term
  | .nan _ _, _ | _, .nan _ _ => .nan
  | .inf n, .inf m => .inf (n != m)
  | .inf n, .fin m x _ => if x = 0 then .nan else .inf (n != m)
  | .fin n x _, .inf m => if x = 0 then .nan else .inf (n != m)
  | .fin n x e, .fin m y f => .fin (n != m) (x * y) (e + f)

def Fp.term : Fp → Term
  | .nan _ _ => .nan
  | .inf n => .inf n
  | .fin n x e => .fin n x e

/-- One of two values is zero and the other infinite: the invalid product (R38). -/
def zeroTimesInf (x y : Fp) : Bool := (x.isZero && y.isInf) || (x.isInf && y.isZero)

def Term.infSign : Term → Option Bool
  | .inf n => some n
  | _ => none

def Term.finite : Term → Option (Bool × Nat × Int)
  | .fin n x e => some (n, x, e)
  | _ => none

/-- PropagateNaN: the first NaN, quieted, at level 0; the generated NaN at level 1 (R38, R48). -/
def propagate (F : Fmt) (lvl1 : Bool) (xs : List Fp) : Nat :=
  if lvl1 then F.genNan
  else
    match xs.find? Fp.isNan with
    | some (.nan n m) => F.quietNan n m
    | _ => F.genNan

/-- Any signalling NaN raises NV (R38). -/
def snanFlag (F : Fmt) (xs : List Fp) : FlagSet := flagIf (xs.any (Fp.isSnan F)) flagNV

/-- Src of R143: the level-1 flush of f16, then the absolute and negation modifiers. -/
def srcFp (F : Fmt) (lvl1 absB negB : Bool) (x : Nat) : Fp :=
  let v := F.decode x
  let v := if F == .f16 && lvl1 && x / 2 ^ F.mBits % 2 ^ F.eBits == 0 then Fp.fin v.neg 0 (1 - F.bias - F.mBits) else v
  let v := if absB then v.setNeg false else v
  if negB then v.setNeg (!v.neg) else v

/-- The result of a sum of two terms under R145's order of cases. -/
def sumResult (F : Fmt) (lvl1 : Bool) (rmode : Rnd) (nans : List Fp) (invalid : Bool) (t u : Term) : Nat × FlagSet :=
  let nv := snanFlag F nans
  let opposite := match t.infSign, u.infSign with
    | some a, some b => a != b
    | _, _ => false
  if invalid || opposite then (F.genNan, nv ||| flagNV)
  else if nans.any Fp.isNan then (propagate F lvl1 nans, nv)
  else
    match t, u with
    | .inf n, _ | _, .inf n => (F.inf n, nv)
    | .fin n x e, .fin m y f => roundFmt F rmode (sumTerms [(n, x, e), (m, y, f)] (zeroSign rmode n m))
    | _, _ => (F.genNan, nv)

/-- fadd and hadd2 (R145). -/
def fpAdd (F : Fmt) (lvl1 : Bool) (rmode : Rnd) (x y : Fp) : Nat × FlagSet :=
  sumResult F lvl1 rmode [x, y] false x.term y.term

/-- fsub (R145): a NaN operand keeps its own sign. -/
def fpSub (F : Fmt) (lvl1 : Bool) (rmode : Rnd) (x y : Fp) : Nat × FlagSet :=
  sumResult F lvl1 rmode [x, y] false x.term (y.setNeg (!y.neg)).term

/-- fmul and hmul2 (R145). -/
def fpMul (F : Fmt) (lvl1 : Bool) (rmode : Rnd) (x y : Fp) : Nat × FlagSet :=
  let nv := snanFlag F [x, y]
  if zeroTimesInf x y then (F.genNan, nv ||| flagNV)
  else if x.isNan || y.isNan then (propagate F lvl1 [x, y], nv)
  else
    match mulTerm x y with
    | .inf n => (F.inf n, nv)
    | .fin n p e => roundFmt F rmode (Ex.ofFin n p e)
    | .nan => (F.genNan, nv)

/-- fma and hfma2 (R145): the product is one exact operand of the sum. -/
def fpFma (F : Fmt) (lvl1 : Bool) (rmode : Rnd) (x y z : Fp) : Nat × FlagSet :=
  sumResult F lvl1 rmode [x, y, z] (zeroTimesInf x y) (mulTerm x y) z.term

/-- x < y in value order, of two numbers. -/
def fpLt (x y : Fp) : Bool :=
  match x, y with
  | .nan _ _, _ | _, .nan _ _ => false
  | .inf n, .inf m => n && !m
  | .inf n, .fin _ _ _ => n
  | .fin _ _ _, .inf m => !m
  | .fin n a e, .fin m b f => decide (scaled n a e (min e f) < scaled m b f (min e f))

/-- x = y in value: -0 equals +0 (R147). -/
def fpEq (x y : Fp) : Bool :=
  match x, y with
  | .nan _ _, _ | _, .nan _ _ => false
  | .inf n, .inf m => n == m
  | .inf _, .fin _ _ _ | .fin _ _ _, .inf _ => false
  | .fin n a e, .fin m b f => decide (scaled n a e (min e f) = scaled m b f (min e f))

/-- The code of an element read through Src. -/
def Fmt.code (F : Fmt) : Fp → Nat
  | .nan n m => F.signed n (F.infCode + m)
  | .inf n => F.inf n
  | .fin n x e => (roundFmt F .rz (Ex.ofFin n x e)).1

/-- fmin, fmax, hmin2 and hmax2 (R146). -/
def fpMinMax (F : Fmt) (lvl1 isMax nanp : Bool) (x y : Fp) : Nat × FlagSet :=
  let nv := snanFlag F [x, y]
  if nanp && (x.isNan || y.isNan) then (propagate F lvl1 [x, y], nv)
  else if x.isNan && y.isNan then (propagate F lvl1 [x, y], nv)
  else if x.isNan then (F.code y, nv)
  else if y.isNan then (F.code x, nv)
  else
    let less := fpLt x y || (fpEq x y && x.neg && !y.neg)
    let more := fpLt y x || (fpEq x y && y.neg && !x.neg)
    ((if isMax then (if less then F.code y else F.code x) else (if more then F.code y else F.code x)), nv)

/-- FCond of R147, with the NV it raises. -/
def fpCond (F : Fmt) (cc : FcmpCC) (x y : Fp) : Bool × FlagSet :=
  let un := x.isNan || y.isNan
  let sn := snanFlag F [x, y]
  let lt := fpLt x y
  let gt := fpLt y x
  let eq := fpEq x y
  let loud := sn ||| flagIf un flagNV
  match cc with
  | .eq => (eq, sn)
  | .ne => (!un && !eq, sn)
  | .lt => (lt, loud)
  | .le => (lt || eq, loud)
  | .gt => (gt, loud)
  | .ge => (gt || eq, loud)
  | .num => (!un, sn)
  | .nan => (un, sn)
  | .equ => (un || eq, sn)
  | .neu => (un || !eq, sn)
  | .ltu => (un || lt, sn)
  | .leu => (un || lt || eq, sn)
  | .gtu => (un || gt, sn)
  | .geu => (un || gt || eq, sn)

/-- The class bit of R148. -/
def fpClass (F : Fmt) (x : Fp) : Nat :=
  match x with
  | .nan _ _ => if x.isSnan F then 1 else 2
  | .inf n => if n then 4 else 512
  | .fin n a e =>
    if a = 0 then (if n then 32 else 64)
    else if (Ex.ofFin n a e).log < 1 - F.bias then (if n then 16 else 128)
    else (if n then 8 else 256)

/-- frnd (R149). -/
def fpRound (F : Fmt) (lvl1 : Bool) (rmode : Rnd) (exact : Bool) (x : Fp) : Nat × FlagSet :=
  match x with
  | .nan _ _ => (propagate F lvl1 [x], snanFlag F [x])
  | .inf n => (F.inf n, 0#6)
  | .fin n a e =>
    if a = 0 then (F.zero n, 0#6)
    else
      let (m, inexact) := roundMultiple (Ex.ofFin n a e) 0 rmode
      ((roundFmt F .rz (Ex.ofFin n m 0)).1, flagIf (exact && inexact) flagNX)

/-- fscale (R151). -/
def fpScale (lvl1 : Bool) (rmode : Rnd) (x : Fp) (k : Int) : Nat × FlagSet :=
  match x with
  | .nan _ _ => (propagate .f32 lvl1 [x], snanFlag .f32 [x])
  | .inf n => (Fmt.f32.inf n, 0#6)
  | .fin n a e =>
    if a = 0 then (Fmt.f32.zero n, 0#6)
    else if k > 2 ^ 10 then roundFmt .f32 rmode (Ex.ofFin n a (e + 2 ^ 10))
    else if k < -(2 ^ 10) then roundFmt .f32 rmode (Ex.ofFin n a (e - 2 ^ 10))
    else roundFmt .f32 rmode (Ex.ofFin n a (e + k))

/-- fexp (R152). -/
def fpExp (x : Fp) : Nat × FlagSet :=
  match x with
  | .nan _ _ => (0x80000000, snanFlag .f32 [x])
  | .inf _ => (0x7FFFFFFF, flagNV)
  | .fin n a e => if a = 0 then (0x80000000, flagDZ) else (wrap (Ex.ofFin n a e).log 32, 0#6)

/-- A NaN of one format in another: sign kept, top mantissa bits kept, quieted (R39, R131, R153). -/
def nanInto (dst src : Fmt) (neg : Bool) (m : Nat) : Nat :=
  dst.quietNan neg (m * 2 ^ dst.mBits / 2 ^ src.mBits)

/-- fdot2 and fdot4 (R153): n exact products and an f32 addend, rounded once. -/
def fpDot (fa fb : Fmt) (lvl1 : Bool) (rmode : Rnd) (xs ys : List Fp) (z : Fp) : Nat × FlagSet :=
  let scan := xs.map (fun x => (fa, x)) ++ ys.map (fun y => (fb, y)) ++ [(Fmt.f32, z)]
  let nv := flagIf (scan.any fun p => p.2.isSnan p.1) flagNV
  let prods := (xs.zip ys).map fun p => mulTerm p.1 p.2
  let terms := prods ++ [z.term]
  let signs := terms.filterMap Term.infSign
  let bad := (xs.zip ys).any (fun p => zeroTimesInf p.1 p.2) || (signs.any id && signs.any (!·))
  if bad then (Fmt.f32.genNan, nv ||| flagNV)
  else
    match scan.find? (fun p => p.2.isNan) with
    | some (F, .nan n m) => (if lvl1 then Fmt.f32.genNan else nanInto .f32 F n m, nv)
    | _ =>
      match signs with
      | n :: _ => (Fmt.f32.inf n, nv)
      | [] =>
        let fins := terms.filterMap Term.finite
        let allNegZero := fins.all fun t => t.1 && t.2.1 == 0
        roundFmt .f32 rmode (sumTerms fins (allNegZero || rmode == .rm))

/-- Convert between floating-point formats (R39). -/
def fpConvert (dst src : Fmt) (lvl1 : Bool) (rmode : Rnd) (x : Fp) : Nat × FlagSet :=
  match x with
  | .nan n m =>
    let nv := flagIf (x.isSnan src) flagNV
    match dst with
    | .f32 | .f16 | .bf16 => (if lvl1 then dst.genNan else nanInto dst src n m, nv)
    | .f8e5 => (dst.signed n 0x7E, nv)
    | .f8e4 => (dst.signed n 0x7F, nv)
    | _ => (dst.signed n dst.maxCode, flagNV)
  | .inf n =>
    if dst.hasInf then (dst.inf n, 0#6) else (dst.signed n dst.maxCode, flagOF ||| flagNX)
  | .fin n a e => roundFmt dst rmode (Ex.ofFin n a e)

/-- ConvToInt (R40): the integer and its flags. -/
def fpToInt (x : Fp) (w : Nat) (sg : Bool) (rmode : Rnd) : Int × FlagSet :=
  let lo : Int := if sg then -(2 ^ (w - 1)) else 0
  let hi : Int := if sg then 2 ^ (w - 1) - 1 else 2 ^ w - 1
  match x with
  | .nan _ _ => (0, flagNV)
  | .inf n => (if n then lo else hi, flagNV)
  | .fin n a e =>
    let (y, inexact) := roundInt (Ex.ofFin n a e) rmode
    if y < lo then (lo, flagNV) else if y > hi then (hi, flagNV) else (y, flagIf inexact flagNX)

/-- A quotient of naturals, scaled by 2^exp, with 64 bits and more of precision. -/
def exQuot (neg : Bool) (a b : Nat) (exp : Int) : Ex :=
  let k := 66 + Nat.log2 b
  let n := a * 2 ^ k
  { neg := neg, num := n / b, exp := exp - k, sticky := n % b != 0 }

/-! ## Bit planes (R43-R45) -/

/-- ReconBP (R44). -/
def reconBP (u n k : Nat) : Int :=
  let uk := u / 2 ^ (n - k)
  if k = n then (u : Int) - 2 ^ (n - 1)
  else (uk * 2 ^ (n - k) + 2 ^ (n - k - 1) : Nat) - 2 ^ (n - 1)

/-- The f32 product of an integer and a bf16 scale (R45, R38, R33). -/
def scaleInt (v : Int) (s : Nat) : Nat := (fpMul .f32 false .rn (.fin (decide (v < 0)) v.natAbs 0)
  (match Fmt.bf16.decode s with | .nan n m => .nan n (m * 2 ^ 16) | x => x)).1

/-- DequantBP (R45). -/
def dequantBP (u n k s : Nat) : Nat := scaleInt (reconBP u n k) s

/-! ## Mill sums (R46, R47) -/

def Term.isNan : Term → Bool
  | .nan => true
  | _ => false

/-- ChunkSum of R46: the products of one chunk, as an f32 code with its flags; NV for infinities of both signs, NX for dropped bits
(R280). -/
def chunkSum (ps : List Term) : Nat × FlagSet :=
  let signs := ps.filterMap Term.infSign
  let mixed := signs.any id && signs.any (!·)
  if ps.any Term.isNan || mixed then (Fmt.f32.genNan, flagIf mixed flagNV)
  else
    match signs with
    | n :: _ => (Fmt.f32.inf n, 0#6)
    | [] =>
      let fins := ps.filterMap Term.finite
      let nz := fins.filter fun t => t.2.1 != 0
      match nz with
      | [] => (Fmt.f32.zero (fins.all fun t => t.1), 0#6)
      | t :: ts =>
        let e := (ts.map fun t => (Nat.log2 t.2.1 : Int) + t.2.2).foldl max ((Nat.log2 t.2.1 : Int) + t.2.2)
        let parts := nz.map fun t => (t.1, (Ex.ofFin t.1 t.2.1 t.2.2).split (e - 57))
        let w : Int := (parts.map fun p => if p.1 then -(p.2.1 : Int) else p.2.1).foldl (· + ·) 0
        let dropped := flagIf (parts.any fun p => p.2.2 != .exact) flagNX
        if w = 0 then (Fmt.f32.zero false, dropped)
        else
          let r := roundFmt .f32 .rn (Ex.ofFin (decide (w < 0)) w.natAbs (e - 57))
          (r.1, r.2 ||| dropped)

/-- One step of AccumF (R46): acc + ChunkSum, rounded, as `fadd` of R145 at level 0. -/
def accumF (acc : Nat) (ps : List Term) : Nat × FlagSet :=
  let c := chunkSum ps
  let r := fpAdd .f32 false .rn (Fmt.f32.decode acc) (Fmt.f32.decode c.1)
  (r.1, c.2 ||| r.2)

/-- floor(sqrt(n)) by digits: bit i of the root is tried from the top. -/
def isqrtAux : Nat → Nat → Nat → Nat
  | 0, _, r => r
  | i + 1, n, r => if (r + 2 ^ i) * (r + 2 ^ i) ≤ n then isqrtAux i n (r + 2 ^ i) else isqrtAux i n r

/-- floor(sqrt(n)). -/
def isqrt (n : Nat) : Nat := isqrtAux (Nat.log2 n / 2 + 1) n 0

/-- The exact square root of (num / den) · 2^exp, with 64 bits and more. -/
def exSqrtQuot (num den : Nat) (exp : Int) : Ex :=
  let k := 140 + Nat.log2 den
  let k := if (exp - k) % 2 = 0 then k else k + 1
  let n := num * 2 ^ k
  let q := n / den
  let r := isqrt q
  { neg := false, num := r, exp := (exp - k) / 2, sticky := n % den != 0 || r * r != q }

/-- x / sqrt(32), exactly: the square root of x² / 32 with the sign of x (R47). -/
def divSqrt32 (neg : Bool) (a : Nat) (e : Int) : Ex :=
  if a = 0 then Ex.ofFin neg 0 0 else { exSqrtQuot (a * a) 1 (2 * e - 5) with neg := neg }

/-- One butterfly stage of stride 2^s (R47): elements and the flags of its sums. -/
def hadStage (F : Fmt) (s : Nat) (xs : List Nat) : List (Nat × FlagSet) :=
  (List.range xs.length).map fun i =>
    if i / 2 ^ s % 2 = 0 then
      fpAdd F false .rn (F.decode (nth0 xs i)) (F.decode (nth0 xs (i + 2 ^ s)))
    else fpSub F false .rn (F.decode (nth0 xs (i - 2 ^ s))) (F.decode (nth0 xs i))

/-- The stages s, s+1, ... of a transform. -/
def hadStages (F : Fmt) : Nat → Nat → List Nat → List Nat × FlagSet
  | 0, _, xs => (xs, 0#6)
  | n + 1, s, xs =>
    let ys := hadStage F s xs
    let (zs, f) := hadStages F n (s + 1) (ys.map Prod.fst)
    (zs, (ys.map Prod.snd).foldl (· ||| ·) f)

/-- The scaling of one output of the transform (R47). -/
def hadScale (F : Fmt) (k : Nat) (root : Bool) (x : Nat) : Nat × FlagSet :=
  match F.decode x with
  | .nan n m => (F.quietNan n m, 0#6)
  | .inf n => (F.inf n, 0#6)
  | .fin n a e => roundFmt F .rn (if root then divSqrt32 n a e else Ex.ofFin n a (e - k))

/-- Hadamard of R47 over 2^logn points. -/
def hadamard (F : Fmt) (logn : Nat) (exact : Bool) (xs : List Nat) : List Nat × FlagSet :=
  let (ys, f) := hadStages F logn 0 xs
  let zs := ys.map (hadScale F (logn / 2) (exact && logn == 5))
  (zs.map Prod.fst, (zs.map Prod.snd).foldl (· ||| ·) f)

end Sys2Proof.Machine
end

