-- ==== Sys2Proof/WellFormed.lean ====
section
/-!
DEFINITION. Which terms of `Instr` are instructions: the MOD values (ENC-02), operand codes (ENC-03) and fields
(ENC-04) each description accepts (R56-R61, R77-R79, R110, R128-R139, R141-R148, R156, R169, R174, R179, R183,
R184, R220, R226, R242, R306, R316, R385, R404, R407). `regs` is the `.regs` count that applies (R57).
-/

namespace Sys2Proof

/-- PRED = 15 with PNEG = 1 is reserved (R54). -/
def Hdr.ok (h : Hdr) : Bool := !(h.pred == 15#4 && h.pneg)

/-- A source operand: a vector register lies below `.regs` (R57). -/
def Opnd.srcOk (regs : Nat) : Opnd → Bool
  | .v n => decide (n.val < regs)
  | _ => true

/-- A destination operand: no latch code (R56). -/
def Opnd.dstOk (regs : Nat) : Opnd → Bool
  | .v n => decide (n.val < regs)
  | .b _ => false
  | _ => true

/-- A group of `n` registers that must lie below `.regs` (R138, R139). -/
def Opnd.groupOk (regs n : Nat) : Opnd → Bool
  | .v k => decide (k.val + n ≤ regs)
  | _ => true

def SrcB.ok (regs : Nat) : SrcB → Bool
  | .reg o => o.srcOk regs
  | .imm _ => true

def Off.ok (regs : Nat) : Off → Bool
  | .reg o => o.srcOk regs
  | .imm _ => true

namespace ElTy

def all : ElTy → Bool := fun _ => true
/-- Types 0-3. -/
def scalar : ElTy → Bool
  | .i32 | .n32 | .i64 | .n64 => true
  | _ => false
/-- Types 0-5. -/
def upTo16 : ElTy → Bool
  | .i8x4 | .n8x4 => false
  | _ => true
/-- Types 0, 2, 4, 6. -/
def signed : ElTy → Bool
  | .i32 | .i64 | .i16x2 | .i8x4 => true
  | _ => false
/-- Types 0, 1, 4-7 (sad). -/
def sad : ElTy → Bool
  | .i64 | .n64 => false
  | _ => true
/-- Types 1, 3 (lea). -/
def lea : ElTy → Bool
  | .n32 | .n64 => true
  | _ => false
/-- Types 6, 7 (dp4). -/
def dp4 : ElTy → Bool
  | .i8x4 | .n8x4 => true
  | _ => false

end ElTy

/-- Types 1 and 2 of MOD class FLT: the packed ones. -/
def FlTy.packed : FlTy → Bool
  | .f32 => false
  | _ => true

/-- A modifier of an operand the instruction does not have is reserved; in format I, NB and AB too (R142). -/
def Mods.ok2 (m : Mods) (b : SrcB) : Bool :=
  !m.nc && !m.ac && (match b with | .reg _ => true | .imm _ => !m.nb && !m.ab)

namespace CvtTy

def code : CvtTy → Nat
  | i32 => 0 | n32 => 1 | i64 => 2 | n64 => 3 | i16 => 4 | n16 => 5 | i8 => 6 | n8 => 7 | f32 => 8 | f16 => 9
  | bf16 => 10 | f8e4 => 11 | f8e5 => 12 | f6e2 => 13 | f6e3 => 14 | f4e2 => 15
/-- An integer type: codes 0-7. -/
def isInt (t : CvtTy) : Bool := decide (t.code < 8)
/-- A narrow float: codes 11-15. -/
def narrow (t : CvtTy) : Bool := decide (11 ≤ t.code)
/-- The number of source elements of a register (R129). -/
def elems : CvtTy → Nat
  | i16 | n16 | f16 | bf16 => 2
  | i8 | n8 | f8e4 | f8e5 | f6e2 | f6e3 => 4
  | f4e2 => 8
  | _ => 1

end CvtTy

/-- MOD of cvt: SAT, DFLT and RND (R130). -/
def cvtModOk (dst src : CvtTy) (sat dflt : Bool) (r : Rnd) : Bool :=
  (!sat || (dst.isInt && src.isInt)) &&
  (!dflt || (dst.isInt && !src.isInt && r == .rn)) &&
  (r == .rn || !((dst.isInt && src.isInt) || dst.narrow))

def PackTy.rounds : PackTy → Bool
  | .f32f16 | .f32bf16 => true
  | _ => false

/-- Barrier numbers by level (R174). -/
def BarLevel.count : BarLevel → Nat
  | .gang => 4 | .crew => 16 | .camp => 32 | .tract => 64 | .fabric => 64

/-- Sizes a store accepts (R220). -/
def Size.storeOk : Size → Bool
  | .i8 | .i16 => false
  | _ => true

def MemArg.ok (regs : Nat) (m : MemArg) : Bool := m.base.srcOk regs && m.off.ok regs

/-- red.g accepts operations 0-7 and 9-11 (R306). -/
def AtomOp.redOk : AtomOp → Bool
  | .exch => false
  | _ => true

/-- Operations 9-11 of R223 take size code 4 only. -/
def AtomOp.sizeOk (op : AtomOp) (w : AWidth) : Bool :=
  match op, w with
  | .inc, .w64 | .dec, .w64 | .fadd, .w64 => false
  | _, _ => true

/-- atom.h sizes (R385). -/
def HostOp.ok : HostOp → Bool
  | .cas .b32 | .cas .b64 | .cas .b128 => true
  | .cas _ => false
  | _ => true

def FabOp.ok (op : FabOp) (w : AWidth) : Bool :=
  match op with
  | .rmw a => a.sizeOk w
  | .cas => true

/-- The registers some mode may write (R104). -/
def SReg.writable : SReg → Bool
  | .cmpl | .fpstat | .svec | .hvec | .trapring | .hintdrop | .preempt | .deadline | .quantum => true
  | _ => false

/-- chkt with IMM = 1 carries 16 bits (R184). -/
def chktOk (regs : Nat) : SrcB → Bool
  | .reg o => o.srcOk regs
  | .imm i => decide (i.toNat < 2 ^ 16)

/-- fclass with PD = 15 has MASK zero (R148). -/
def fclassOk (mask : BitVec 10) (pd : PredOpt) : Bool := pd.isSome || mask == 0#10

/-- `i` is an instruction under a `.regs` count of `regs`; every event is well formed. -/
def Instr.wf (regs : Nat) : Instr → Bool
  | .add h _ d a b | .sub h _ d a b | .min h _ d a b | .max h _ d a b | .adds h _ d a b | .subs h _ d a b
  | .shl h _ d a b | .shr h _ d a b | .sar h _ d a b => h.ok && d.dstOk regs && a.srcOk regs && b.ok regs
  | .addc h t d a b _ _ | .subb h t d a b _ _ => h.ok && t.scalar && d.dstOk regs && a.srcOk regs && b.ok regs
  | .mul h t d a b => h.ok && t.upTo16 && d.dstOk regs && a.srcOk regs && b.ok regs
  | .mulh h t d a b | .and h t d a b | .or h t d a b | .xor h t d a b | .andn h t d a b | .rot h t d a b
  | .bfx h t d a b => h.ok && t.scalar && d.dstOk regs && a.srcOk regs && b.ok regs
  | .mad h t d a b c => h.ok && t.upTo16 && d.dstOk regs && a.srcOk regs && b.srcOk regs && c.srcOk regs
  | .madh h t d a b c | .lop3 h t d a b c _ | .bfi h t d a b c =>
    h.ok && t.scalar && d.dstOk regs && a.srcOk regs && b.srcOk regs && c.srcOk regs
  | .abs h t d a => h.ok && t.signed && d.dstOk regs && a.srcOk regs
  | .neg h _ d a => h.ok && d.dstOk regs && a.srcOk regs
  | .sad h t d a b c => h.ok && t.sad && d.dstOk regs && a.srcOk regs && b.srcOk regs && c.srcOk regs
  | .cmp h _ d a b _ _ _ => h.ok && d.dstOk regs && a.srcOk regs && b.ok regs
  | .not h t d a | .popc h t d a | .clz h t d a | .ctz h t d a | .brev h t d a | .mov h t d a =>
    h.ok && t.scalar && d.dstOk regs && a.srcOk regs
  | .sel h _ d a b c => h.ok && d.dstOk regs && a.srcOk regs && b.srcOk regs && c.srcOk regs
  | .movi h _ d _ => h.ok && d.dstOk regs
  | .lea h t d a b _ _ => h.ok && t.lea && d.dstOk regs && a.srcOk regs && b.ok regs
  | .dp4 h t d a b c _ => h.ok && t.dp4 && d.dstOk regs && a.srcOk regs && b.srcOk regs && c.srcOk regs
  | .fadd h _ d a b m | .fsub h _ d a b m | .fmul h _ d a b m | .fmin h d a b m _ | .fmax h d a b m _ =>
    h.ok && d.dstOk regs && a.srcOk regs && b.ok regs && m.ok2 b
  | .fma h _ d a b c _ | .fdot4 h _ d a b c _ _ _ =>
    h.ok && d.dstOk regs && a.srcOk regs && b.srcOk regs && c.srcOk regs
  | .fcmp h _ d a b _ _ _ => h.ok && d.dstOk regs && a.srcOk regs && b.ok regs
  | .frnd h _ _ d a _ => h.ok && d.dstOk regs && a.srcOk regs
  | .fclass h _ d a mask pd => h.ok && d.dstOk regs && a.srcOk regs && fclassOk mask pd
  | .rcp h _ d a | .rsqrt h _ d a | .sqrt h _ d a | .exp2 h _ d a | .log2 h _ d a | .sinpi h _ d a
  | .cospi h _ d a | .fexp h d a => h.ok && d.dstOk regs && a.srcOk regs
  | .fscale h _ d a b => h.ok && d.dstOk regs && a.srcOk regs && b.ok regs
  | .hadd2 h t _ d a b m | .hmul2 h t _ d a b m | .hmin2 h t d a b m _ | .hmax2 h t d a b m _ =>
    h.ok && t.packed && d.dstOk regs && a.srcOk regs && b.ok regs && m.ok2 b
  | .hfma2 h t _ d a b c _ | .fdot2 h t _ d a b c _ =>
    h.ok && t.packed && d.dstOk regs && a.srcOk regs && b.srcOk regs && c.srcOk regs
  | .cvt h dst src e sat dflt r d a =>
    h.ok && cvtModOk dst src sat dflt r && d.dstOk regs && a.srcOk regs && decide (e.val < src.elems) && dst != src
  | .pack h t r d a b => h.ok && d.dstOk regs && a.srcOk regs && b.srcOk regs && (t.rounds || r == .rn)
  | .unpack h t part d a => h.ok && d.dstOk regs && a.srcOk regs && (t == .f16f4e2 || decide (part.val < 2))
  | .plsplit h n p d a => h.ok && d.dstOk regs && a.srcOk regs && a.groupOk regs 8 && decide (p.val ≤ n.val)
  | .plmerge h n k d a => h.ok && d.dstOk regs && a.srcOk regs && decide (k.val ≤ n.val)
  | .quant h _ _ _ _ d a b c => h.ok && d.dstOk regs && a.srcOk regs && b.srcOk regs && c.srcOk regs
  | .dequant h _ _ _ d a b => h.ok && d.dstOk regs && a.srcOk regs && b.srcOk regs
  | .prmt h d a b ctl =>
    h.ok && d.dstOk regs && a.srcOk regs && b.srcOk regs && (match ctl with | .const _ => true | .reg o => o.srcOk regs)
  | .bra h _ | .exit h | .region h | .yield h | .trap h _ | .syscall h _ | .hcall h _ | .brk h _ => h.ok
  | .brx h a _ _ | .ret h a | .exitTo h a => h.ok && a.srcOk regs
  | .call h d _ | .callImp h d _ => h.ok && d.dstOk regs
  | .nop pred pneg => !(pred == 15#4 && pneg)
  | .shfl h _ d a k _ _ =>
    h.ok && d.dstOk regs && a.srcOk regs && (match k with | .reg o => o.srcOk regs | .const _ => true)
  | .vote h _ d _ _ _ => h.ok && d.dstOk regs
  | .redux h _ d a | .scan h _ _ d a | .matchq h _ d a _ => h.ok && d.dstOk regs && a.srcOk regs
  | .barArrive h _ l n _ | .barWait h _ l n _ | .barSync h _ l n => h.ok && decide (n.toNat < l.count)
  | .wait h _ n d a _ wmask _ => h.ok && d.dstOk regs && a.srcOk regs && a.groupOk regs (4 * (n.val + 1)) && decide (wmask.toNat < 2 ^ (n.val + 1))
  | .waits h _ _ => h.ok
  | .chkb h _ _ a b c => h.ok && a.srcOk regs && b.srcOk regs && c.srcOk regs
  | .chkt h a b => h.ok && a.srcOk regs && chktOk regs b
  | .chkl h a b => h.ok && a.srcOk regs && b.srcOk regs
  | .ldP h _ _ d m | .ldS h _ d m | .ldK h _ d m | .ldN h _ d m | .ldV h _ _ d m | .ldG h _ _ _ d m
  | .ldH h _ d m | .ldF h _ d m => h.ok && d.dstOk regs && m.ok regs
  | .stP h _ s b m | .stS h s b m | .stN h s b m | .stV h _ s b m | .stG h _ _ s b m | .stH h s b m
  | .stF h s b m => h.ok && s.storeOk && b.srcOk regs && m.ok regs
  | .atomS h op w d b m | .atomV h op w d b m | .atomG h op w d b m =>
    h.ok && op.sizeOk w && d.dstOk regs && b.srcOk regs && m.ok regs
  | .casS h _ d b _ m | .casV h _ d b _ m | .casG h _ d b _ m => h.ok && d.dstOk regs && b.srcOk regs && m.ok regs
  | .redG h op w b m => h.ok && op.redOk && op.sizeOk w && b.srcOk regs && m.ok regs
  | .hintL2 h b m | .hintL1 h b m | .hintLru h b m | .cwbL2 h b m | .cwbMem h b m | .cinvL1 h b m | .cinvL2 h b m
  | .iinv h b m => h.ok && b.srcOk regs && m.ok regs
  | .atomH h op d b _ m => h.ok && op.ok && d.dstOk regs && b.srcOk regs && m.ok regs
  | .atomF h op w d b _ m => h.ok && op.ok w && d.dstOk regs && b.srcOk regs && m.ok regs
  | .copy h _ _ _ a b _ | .copyFGet h _ a b _ | .copyFGetw h _ _ a b _ | .copyFPut h _ a b _ =>
    h.ok && a.srcOk regs && b.srcOk regs
  | .cpwp h _ d => h.ok && d.dstOk regs
  | .cpcancel h _ _ | .pubw h _ _ | .fbar h _ | .sret h | .hret h | .tlbinvCtx h | .tlbinvVf h | .halt h _ => h.ok
  | .taskPost h d a _ | .taskStatT h d a => h.ok && d.dstOk regs && a.srcOk regs
  | .taskDec h a _ | .emit h a _ _ | .lanestRel h a | .lanestHold h a | .lanestExit h a => h.ok && a.srcOk regs
  | .taskStatW h d _ | .taskStatQ h d _ | .rdsr h d _ => h.ok && d.dstOk regs
  | .wrsr h r a => h.ok && a.srcOk regs && r.writable
  | .tlbinvVa h a b | .tlbinvGpa h a b | .lanepc h a b => h.ok && a.srcOk regs && b.srcOk regs
  | .ctxsave h _ d a c | .ctxload h d a c => h.ok && d.dstOk regs && a.srcOk regs && c.srcOk regs
  | .launchRun h d a b | .frmset h d a b | .l2partSet h d a b | .l2partOcc h d a b | .l2partHit h d a b
  | .l2partMiss h d a b | .keyopLoad h d a b | .keyopErase h d a b | .keyopAttest h d a b =>
    h.ok && d.dstOk regs && a.srcOk regs && b.srcOk regs
  | .launchAdm h d a | .l2partMask h d a => h.ok && d.dstOk regs && a.srcOk regs
  | .l2partClr h m d a b => h.ok && d.dstOk regs && a.srcOk regs && b.srcOk regs && (m != .clr || b == .vz)
  | .lineFetch _ _ | .memoryOpComplete _ _ | .barrierPhaseComplete _ | .waitConditionMet _ _ _ | .waitTimeout _ _ _
  | .copyBegin _ _ | .copyDelivery _ _ _ | .copyComplete _ _ | .taskIssue _ _ | .mmaF _ _ | .mmaQ _ _ | .hadam _ _
  | .tileQuant _ _ | .xpose _ _ | .acc _ _ | .fill _ _ | .stage _ _ | .stagingAdmit _ _ _ | .stagingArrive _ _ _
  | .emitPushHeld _ _ | .crewPlace _ _ | .crewResume _ _ | .gangRetire _ _ | .successorStart _ | .quantumExpiry _
  | .deadlineExpiry _ | .crewSave _ | .pageRequestSend _ | .pageResponseSuccess _ _ | .pageResponseInvalid _ _
  | .pageResponseFailure _ _ | .hostCompletion _ _ _ | .hostCompletionTimeout _ _ | .fabricTimeout _ _
  | .fabricResponse _ _ _ | .flitCheckFail _ | .linkDown _ | .linkTrained _ | .trapRingRoom _ _
  | .bindingComplete _ _ _ | .graderWalk _ | .readmit _ | .release _ | .launchTake _ _ _ | .launchCompletion _
  | .gcmCheckFail _ _ | .admprod _ _ | .lqdb _ _ | .priclr _ _ | .linkctl _ _ | .linkstFailedClear _ _
  | .logctlEn _ _ | .logctlOvfClear _ _ | .logctlAlldirtyClear _ _ | .logctlStop _ _ | .vfControlWrite _ _ _
  | .registerWrite _ _ _ | .hostInboundWrite _ _ | .debugStop _ _ | .debugResume _ _ | .debugRead _ _ _
  | .debugWrite _ _ _ _ | .lockInterfaceRequest _ | .startInterfaceRequest _ | .stopInterfaceRequest _
  | .ideStreamFailure _ | .functionLevelReset _ | .reset | .systemInstructionComplete _ _ _ | .launchCancel _
  | .unitReady _ | .healthPredictionUpdate _ _ | .firmwareImageLoad _ => true

end Sys2Proof
end

