-- ==== Sys2Proof/Machine/Integers.lean ====
section
/-!
DEFINITION. The integer, logic, shift, bit-field, conversion and permutation functions of chapter 05, on operand
values: a natural number below 2^32, or below 2^64 for a pair (R26, R109-R139).
-/

namespace Sys2Proof.Machine

/-- W(T) of R111: bits of an element. -/
def ElTy.w : ElTy → Nat
  | .i32 | .n32 => 32
  | .i64 | .n64 => 64
  | .i16x2 | .n16x2 => 16
  | .i8x4 | .n8x4 => 8

/-- K(T) of R111: elements per operand. -/
def ElTy.k : ElTy → Nat
  | .i32 | .n32 | .i64 | .n64 => 1
  | .i16x2 | .n16x2 => 2
  | .i8x4 | .n8x4 => 4

/-- Sg(T) of R111. -/
def ElTy.sg : ElTy → Bool
  | .i32 | .i64 | .i16x2 | .i8x4 => true
  | _ => false

/-- The operand is an even-aligned pair (R109). -/
def ElTy.wide : ElTy → Bool
  | .i64 | .n64 => true
  | _ => false

/-- Nat(x, i) of R111. -/
def elN (t : ElTy) (x i : Nat) : Nat := x / 2 ^ (ElTy.w t * i) % 2 ^ ElTy.w t

/-- El(x, i) of R111. -/
def el (t : ElTy) (x i : Nat) : Int := if ElTy.sg t then signExt (elN t x i) (ElTy.w t) else elN t x i

/-- The result whose elements of `w` bits are the values given, element 0 first (SetEl of R111). -/
def packEls (w : Nat) : List Int → Nat
  | [] => 0
  | y :: ys => wrap y w + 2 ^ w * packEls w ys

/-- Every element's result (R112). -/
def mapEls (t : ElTy) (f : Nat → Int) : Nat := packEls (ElTy.w t) ((List.range (ElTy.k t)).map f)

/-- IMM32 as operand B of a type (R59). -/
def immValue (t : ElTy) (i : BitVec 32) : Nat :=
  match t with
  | .i64 => wrap (signExt i.toNat 32) 64
  | _ => i.toNat

/-- A function of two elements on every element (R112). -/
def intEw (t : ElTy) (f : Int → Int → Int) (a b : Nat) : Nat := mapEls t fun i => f (el t a i) (el t b i)

/-- adds and subs: each element saturated, SI when any is clipped (R112, R27). -/
def intSat (t : ElTy) (f : Int → Int → Int) (a b : Nat) : Nat × FlagSet :=
  let ys := (List.range (ElTy.k t)).map fun i => satFlag (ElTy.sg t) (f (el t a i) (el t b i)) (ElTy.w t)
  (packEls (ElTy.w t) (ys.map Prod.fst), (ys.map Prod.snd).foldl (· ||| ·) 0#6)

/-- addc: the sum and the carry out (R113). -/
def intAddc (t : ElTy) (a b : Nat) (ci : Bool) : Nat × Bool :=
  let s := elN t a 0 + elN t b 0 + ci.toNat
  (s % 2 ^ ElTy.w t, decide (2 ^ ElTy.w t ≤ s))

/-- subb: the difference and the borrow out (R113). -/
def intSubb (t : ElTy) (a b : Nat) (ci : Bool) : Nat × Bool :=
  let s : Int := (elN t a 0 : Int) - elN t b 0 - ci.toNat
  (wrap s (ElTy.w t), decide (s < 0))

/-- mul (R114). -/
def intMul (t : ElTy) (a b : Nat) : Nat := intEw t (· * ·) a b

/-- mulh: floor division by 2^W (R114). -/
def intMulh (t : ElTy) (a b : Nat) : Nat := intEw t (fun x y => (x * y) / (2 ^ ElTy.w t : Nat)) a b

/-- mad (R114). -/
def intMad (t : ElTy) (a b c : Nat) : Nat := mapEls t fun i => el t a i * el t b i + el t c i

/-- madh (R114). -/
def intMadh (t : ElTy) (a b c : Nat) : Nat :=
  mapEls t fun i => (el t a i * el t b i) / (2 ^ ElTy.w t : Nat) + el t c i

/-- sad (R115). -/
def intSad (t : ElTy) (a b c : Nat) : Nat :=
  ((((List.range (ElTy.k t)).map fun i => (el t a i - el t b i).natAbs).foldl (· + ·) 0) + c % 2 ^ 32) % 2 ^ 32

/-- The natural and the signed type of dp4's two forms. -/
def dp4Other : ElTy → ElTy
  | .i8x4 => .n8x4
  | _ => .i8x4

/-- dp4 (R116). -/
def intDp4 (t : ElTy) (xs : Bool) (a b c : Nat) : Nat :=
  let tb := if xs then dp4Other t else t
  let s : Int := ((List.range 4).map fun i => el t a i * el tb b i).foldl (· + ·) 0
  wrap (s + (c % 2 ^ 32 : Nat)) 32

/-- Cond of R117. -/
def intCond (cc : CmpCC) (x y : Int) : Bool :=
  match cc with
  | .eq => x == y
  | .ne => x != y
  | .lt => decide (x < y)
  | .le => decide (x ≤ y)
  | .gt => decide (x > y)
  | .ge => decide (x ≥ y)

/-- The result and `any` of R117 from the elements' truth values. -/
def cmpResult (w k : Nat) (ts : List Bool) : Nat × Bool :=
  (packEls w (ts.map fun t => if t then (if k = 1 then 1 else (2 ^ w - 1 : Nat)) else 0), ts.any id)

/-- cmp (R117). -/
def intCmp (t : ElTy) (cc : CmpCC) (a b : Nat) : Nat × Bool :=
  cmpResult (ElTy.w t) (ElTy.k t) ((List.range (ElTy.k t)).map fun i => intCond cc (el t a i) (el t b i))

/-- Bitwise functions of W(T) bits (R118). -/
def intAnd (t : ElTy) (a b : Nat) : Nat := (a &&& b) % 2 ^ ElTy.w t
def intOr (t : ElTy) (a b : Nat) : Nat := (a ||| b) % 2 ^ ElTy.w t
def intXor (t : ElTy) (a b : Nat) : Nat := (a ^^^ b) % 2 ^ ElTy.w t
def intNot (t : ElTy) (a : Nat) : Nat := 2 ^ ElTy.w t - 1 - a % 2 ^ ElTy.w t
def intAndn (t : ElTy) (a b : Nat) : Nat := intAnd t a (intNot t b)

/-- A value whose bit j is f j, for j below n. -/
def bitsFrom (n : Nat) (f : Nat → Bool) : Nat :=
  ((List.range n).map fun j => if f j then 2 ^ j else 0).foldl (· + ·) 0

/-- lop3 (R119). -/
def intLop3 (t : ElTy) (a b c : Nat) (table : BitVec 8) : Nat :=
  bitsFrom (ElTy.w t) fun j => bit table.toNat ((bit a j).toNat + 2 * (bit b j).toNat + 4 * (bit c j).toNat)

/-- shl, shr, sar on every element, with one 32-bit count (R120). -/
def intShl (t : ElTy) (a s : Nat) : Nat :=
  mapEls t fun i => if s < ElTy.w t then ((elN t a i * 2 ^ s : Nat) : Int) else 0
def intShr (t : ElTy) (a s : Nat) : Nat :=
  mapEls t fun i => if s < ElTy.w t then ((elN t a i / 2 ^ s : Nat) : Int) else 0
def intSar (t : ElTy) (a s : Nat) : Nat :=
  mapEls t fun i => signExt (elN t a i) (ElTy.w t) / (2 ^ min s (ElTy.w t) : Nat)

/-- rot: rotation left by s mod w (R120). -/
def intRot (t : ElTy) (a s : Nat) : Nat :=
  let w := ElTy.w t
  let r := s % w
  let x := a % 2 ^ w
  (x * 2 ^ r) % 2 ^ w + x / 2 ^ (w - r)

/-- bfx (R121). -/
def intBfx (t : ElTy) (a field : Nat) : Nat :=
  let w := ElTy.w t
  let pos := field % 256
  let len := min (field / 256 % 256) w
  let f := ((el t a 0 / (2 ^ pos : Nat)) % (2 ^ len : Nat)).toNat
  wrap (if ElTy.sg t then signExt f len else f) w

/-- bfi (R122). -/
def intBfi (t : ElTy) (a field c : Nat) : Nat :=
  let w := ElTy.w t
  let pos := field % 256
  let len := min (field / 256 % 256) w
  let m := (2 ^ len - 1) * 2 ^ pos % 2 ^ w
  (c % 2 ^ w &&& (2 ^ w - 1 - m)) ||| ((a % 2 ^ w * 2 ^ pos) &&& m)

/-- popc, clz, ctz, brev (R123). -/
def intPopc (t : ElTy) (a : Nat) : Nat := popCount (ElTy.w t) a
def intClz (t : ElTy) (a : Nat) : Nat :=
  let x := a % 2 ^ ElTy.w t
  if x = 0 then ElTy.w t else ElTy.w t - 1 - Nat.log2 x
def intCtz (t : ElTy) (a : Nat) : Nat := ((List.range (ElTy.w t)).takeWhile fun j => !bit a j).length
def intBrev (t : ElTy) (a : Nat) : Nat := bitsFrom (ElTy.w t) fun j => bit a (ElTy.w t - 1 - j)

/-- sel (R124). -/
def intSel (t : ElTy) (a b c : Nat) : Nat := mapEls t fun i => if elN t c i != 0 then el t a i else el t b i

/-- lea (R126). -/
def intLea (t : ElTy) (a index : Nat) (natural : Bool) (scale : Nat) : Nat :=
  let ix : Int := if natural then ((index % 2 ^ 32 : Nat) : Int) else signExt index 32
  wrap ((elN t a 0 : Int) + ix * (2 ^ scale : Nat)) (ElTy.w t)

/-! ## Conversion (R129-R139) -/

/-- The floating-point format of a cvt type. -/
def CvtTy.fmt : CvtTy → Fmt
  | .f16 => .f16 | .bf16 => .bf16 | .f8e4 => .f8e4 | .f8e5 => .f8e5 | .f6e2 => .f6e2 | .f6e3 => .f6e3
  | .f4e2 => .f4e2 | _ => .f32

/-- The width of an element of a cvt type (R129). -/
def CvtTy.w : CvtTy → Nat
  | .i32 | .n32 => 32
  | .i64 | .n64 => 64
  | .i16 | .n16 => 16
  | .i8 | .n8 => 8
  | t => (CvtTy.fmt t).width

/-- The distance between elements of a source (R129). -/
def CvtTy.pitch : CvtTy → Nat
  | .f6e2 | .f6e3 => 8
  | t => CvtTy.w t

def CvtTy.sg : CvtTy → Bool
  | .i32 | .i64 | .i16 | .i8 => true
  | _ => false

def CvtTy.wide : CvtTy → Bool
  | .i64 | .n64 => true
  | _ => false

/-- The code of source element e (R129). -/
def cvtElem (t : CvtTy) (e x : Nat) : Nat := x / 2 ^ (CvtTy.pitch t * e) % 2 ^ CvtTy.w t

/-- An integer result placed by type: sign- or zero-extended to its register or pair (R129). -/
def placeInt (t : CvtTy) (y : Nat) : Nat :=
  if CvtTy.sg t && !CvtTy.wide t then wrap (signExt y (CvtTy.w t)) 32 else y

/-- The widening and narrowing of a value read from a floating-point element, f16 flushed at level 1 (R131). -/
def cvtSrc (t : CvtTy) (lvl1 : Bool) (y : Nat) : Fp := srcFp (CvtTy.fmt t) lvl1 false false y

/-- cvt (R131). -/
def cvtValue (dst src : CvtTy) (e : Nat) (sat dflt lvl1 : Bool) (rmode : Rnd) (x : Nat) : Nat × FlagSet :=
  let y := cvtElem src e x
  if src.isInt then
    let v : Int := if CvtTy.sg src then signExt y (CvtTy.w src) else y
    if dst.isInt then
      let (z, f) := if sat then satFlag (CvtTy.sg dst) v (CvtTy.w dst) else (v, 0#6)
      (placeInt dst (wrap z (CvtTy.w dst)), f)
    else roundFmt (CvtTy.fmt dst) rmode (Ex.ofInt v)
  else if dst.isInt then
    let r := if dflt then (if lvl1 then Rnd.rz else Rnd.rn) else rmode
    let (z, f) := fpToInt (cvtSrc src lvl1 y) (CvtTy.w dst) (CvtTy.sg dst) r
    (placeInt dst (wrap z (CvtTy.w dst)), f)
  else fpConvert (CvtTy.fmt dst) (CvtTy.fmt src) lvl1 rmode (cvtSrc src lvl1 y)

/-- The wide and narrow element types of a pack code (R132). -/
def PackTy.wideTy : PackTy → CvtTy
  | .i32i16 => .i32 | .n32n16 => .n32 | .i16i8 => .i16 | .n16n8 => .n16 | .f32f16 | .f32bf16 => .f32
  | .f16e4 | .f16e5 | .f16f6e2 | .f16f6e3 | .f16f4e2 => .f16 | .bf16e4 | .bf16e5 => .bf16

def PackTy.narrowTy : PackTy → CvtTy
  | .i32i16 => .i16 | .n32n16 => .n16 | .i16i8 => .i8 | .n16n8 => .n8 | .f32f16 => .f16 | .f32bf16 => .bf16
  | .f16e4 | .bf16e4 => .f8e4 | .f16e5 | .bf16e5 => .f8e5 | .f16f6e2 => .f6e2 | .f16f6e3 => .f6e3 | .f16f4e2 => .f4e2

/-- Narrow of R133: saturation, or rounding, of one element. -/
def packElem (t : PackTy) (lvl1 : Bool) (rmode : Rnd) (y : Nat) : Nat × FlagSet :=
  let wt := PackTy.wideTy t
  let nt := PackTy.narrowTy t
  if wt.isInt then
    let v : Int := if CvtTy.sg wt then signExt y (CvtTy.w wt) else y
    let (z, f) := satFlag (CvtTy.sg nt) v (CvtTy.w nt)
    (wrap z (CvtTy.w nt), f)
  else fpConvert (CvtTy.fmt nt) (CvtTy.fmt wt) lvl1 rmode (cvtSrc wt lvl1 y)

/-- pack (R133): the elements of a, then those of b. -/
def packValue (t : PackTy) (lvl1 : Bool) (rmode : Rnd) (a b : Nat) : Nat × FlagSet :=
  let wt := PackTy.wideTy t
  let nt := PackTy.narrowTy t
  let n := 32 / CvtTy.w wt
  let rs := (List.range (2 * n)).map fun i =>
    packElem t lvl1 rmode (if i < n then cvtElem wt i a else cvtElem wt (i - n) b)
  (packEls (CvtTy.pitch nt) (rs.map fun r => (r.1 : Int)), (rs.map Prod.snd).foldl (· ||| ·) 0#6)

/-- unpack (R134): the wide elements of one part of a. -/
def unpackValue (t : PackTy) (lvl1 : Bool) (part a : Nat) : Nat × FlagSet :=
  let wt := PackTy.wideTy t
  let nt := PackTy.narrowTy t
  let n := 32 / CvtTy.w wt
  let rs := (List.range n).map fun i =>
    let y := cvtElem nt (n * part + i) a
    if nt.isInt then (wrap (if CvtTy.sg nt then signExt y (CvtTy.w nt) else y) (CvtTy.w wt), 0#6)
    else fpConvert (CvtTy.fmt wt) (CvtTy.fmt nt) lvl1 .rn (cvtSrc nt lvl1 y)
  (packEls (CvtTy.w wt) (rs.map fun r => (r.1 : Int)), (rs.map Prod.snd).foldl (· ||| ·) 0#6)

/-- The bit-reversed byte (R135). -/
def bitRev8 (y : Nat) : Nat := bitsFrom 8 fun j => bit y (7 - j)

/-- prmt (R135). -/
def prmtValue (a b ctl : Nat) : Nat :=
  let src := a % 2 ^ 32 + 2 ^ 32 * (b % 2 ^ 32)
  packEls 8 ((List.range 4).map fun i =>
    let f := bits ctl (5 * i + 4) (5 * i)
    let y : Nat := src / 2 ^ (8 * (f % 8)) % 256
    let z : Nat := match f / 8 with
      | 0 => y
      | 1 => if bit y 7 then 255 else 0
      | 2 => 0
      | _ => bitRev8 y
    Int.ofNat z)

/-- quant (R136): byte e of c replaced. -/
def quantValue (nat : Bool) (rmode : Rnd) (n e a b c : Nat) : Nat × FlagSet :=
  let x := Fmt.f32.decode a
  let y := Fmt.f32.decode b
  let lo : Int := if nat then 0 else -(2 ^ (n - 1) : Nat)
  let hi : Int := if nat then (2 ^ n : Nat) - 1 else (2 ^ (n - 1) : Nat) - 1
  let clip := fun (v : Int) (inexact : Bool) =>
    if v < lo then (lo, flagSI ||| flagIf inexact flagNX)
    else if v > hi then (hi, flagSI ||| flagIf inexact flagNX)
    else (v, flagIf inexact flagNX)
  let q : Int × FlagSet :=
    if x.isNan || y.isNan || y.isZero || (x.isInf && y.isInf) then (0, flagNV)
    else
      match x, y with
      | .inf m, _ => (if m != y.neg then lo else hi, flagSI)
      | .fin _ _ _, .inf _ => (0, 0#6)
      | .fin m p f, .fin m' p' f' =>
        let (v, inexact) := roundInt (exQuot (m != m') p p' (f - f')) rmode
        clip v inexact
      | _, _ => (0, flagNV)
  (c - c / 2 ^ (8 * e) % 256 * 2 ^ (8 * e) + wrap q.1 8 * 2 ^ (8 * e), q.2)

/-- dequant (R137). -/
def dequantValue (nat lvl1 : Bool) (rmode : Rnd) (e a b : Nat) : Nat × FlagSet :=
  let y := a / 2 ^ (8 * e) % 256
  let v : Int := if nat then y else signExt y 8
  fpMul .f32 lvl1 rmode (.fin (decide (v < 0)) v.natAbs 0) (Fmt.f32.decode b)

/-- plsplit (R138): word of plane p of the 32 elements in 8 registers. -/
def plsplitValue (n p : Nat) (regs : List Nat) : Nat × FlagSet :=
  let vs := (List.range 32).map fun j => satFlag true (signExt (nth0 regs (j / 4) / 2 ^ (8 * (j % 4)) % 256) 8) n
  (bitsFrom 32 fun j => bit (((vs.getD j (0, 0#6)).1 + (2 ^ (n - 1) : Nat)).toNat) (n - 1 - p),
    (vs.map Prod.snd).foldl (· ||| ·) 0#6)

/-- plmerge (R139): the 8 registers rebuilt from k plane words. -/
def plmergeValue (n k : Nat) (planes : List Nat) : List Nat :=
  let byteOf := fun j =>
    let uk := ((List.range k).map fun p => (bit (nth0 planes p) j).toNat * 2 ^ (k - 1 - p)).foldl (· + ·) 0
    reconBP (uk * 2 ^ (n - k)) n k
  (List.range 8).map fun r => packEls 8 ((List.range 4).map fun i => byteOf (4 * r + i))

/-! ## Combination of gang operations and atomics (R172, R223) -/

/-- A signed or natural minimum or maximum of w-bit values. -/
def minMaxW (w : Nat) (signed isMax : Bool) (x y : Nat) : Nat :=
  let sx : Int := if signed then signExt x w else x
  let sy : Int := if signed then signExt y w else y
  if (if isMax then decide (sy > sx) else decide (sy < sx)) then y else x

/-- The combination of redux and scan (R172). -/
def redCombine (op : RedOp) (lvl1 : Bool) (x y : Nat) : Nat × FlagSet :=
  match op with
  | .add => ((x + y) % 2 ^ 32, 0#6)
  | .minI => (minMaxW 32 true false x y, 0#6)
  | .maxI => (minMaxW 32 true true x y, 0#6)
  | .minN => (minMaxW 32 false false x y, 0#6)
  | .maxN => (minMaxW 32 false true x y, 0#6)
  | .and => (x &&& y, 0#6)
  | .or => (x ||| y, 0#6)
  | .xor => (x ^^^ y, 0#6)
  | .fadd => fpAdd .f32 lvl1 .rn (Fmt.f32.decode x) (Fmt.f32.decode y)
  | .fmin => fpMinMax .f32 lvl1 false false (Fmt.f32.decode x) (Fmt.f32.decode y)
  | .fmax => fpMinMax .f32 lvl1 true false (Fmt.f32.decode x) (Fmt.f32.decode y)

/-- The identity of an operation (R172). -/
def redIdentity : RedOp → Nat
  | .add | .maxN | .or | .xor => 0
  | .minI => 0x7FFFFFFF
  | .maxI => 0x80000000
  | .minN | .and => 0xFFFFFFFF
  | .fadd => 0x80000000
  | .fmin => 0x7F800000
  | .fmax => 0xFF800000

/-- F(old, v) of R223, w bits. -/
def atomValue (op : AtomOp) (w old v : Nat) : Nat :=
  match op with
  | .add => (old + v) % 2 ^ w
  | .minI => minMaxW w true false old v
  | .maxI => minMaxW w true true old v
  | .minN => minMaxW w false false old v
  | .maxN => minMaxW w false true old v
  | .and => old &&& v
  | .or => old ||| v
  | .xor => old ^^^ v
  | .exch => v
  | .inc => if old ≥ v then 0 else old + 1
  | .dec => if old = 0 ∨ old > v then v else old - 1
  | .fadd => (fpAdd .f32 false .rn (Fmt.f32.decode old) (Fmt.f32.decode v)).1

end Sys2Proof.Machine
end

