-- ==== Sys2Proof/Config.lean ====
section
/-!
DEFINITION. The free values: what the spec leaves open and the machine goes on from. Each is an opaque constant
with no body that Lean can evaluate, so a statement holds for every value of it. Each has a log entry.
-/

namespace Sys2Proof.Config

/-- A latch element read after a switch point: "its value is not defined" (R63). By draw number. -/
opaque deadLatch : Nat → BitVec 32

/-- A byte of a cancelled or overlapping copy that may be the old or the copied one (R233, R287): true = copied. -/
opaque copiedByte : Nat → Bool

/-- The unwrapped key of a 96-byte blob sealed for a VF under its TDISP session, or none when the blob fails its
authentication (R389). By VF, session number and blob. -/
opaque unwrapKey : Nat → Nat → List (BitVec 8) → Option Nat

/-- The 512 bytes of an attestation report (R389). By VF, TDISP state, measurement, key identifier and nonce. -/
opaque attestReport : Nat → Nat → Nat → Nat → Nat → List (BitVec 8)

/-- Whether a firmware image carries a valid Ed448 signature over its SHAKE256 digest (R389). -/
opaque firmwareSigned : List (BitVec 8) → Bool

/-- The SHAKE256 measurement of a firmware image (R389). -/
opaque firmwareMeasure : List (BitVec 8) → Nat

/-- What a byte of a sealed line reads as outside its world (R388): by key, physical address and page version. -/
opaque sealedByte : Nat → Nat → Nat → BitVec 8

/-- The correctly rounded value where the model's brackets do not decide it (R42): by function, operand and mode. -/
opaque undecidedRounding : Nat → Nat → Nat → BitVec 32

/-- The flags where the model's brackets do not decide the rounding (R42). -/
opaque undecidedFlags : Nat → Nat → Nat → BitVec 6

/-- A byte that another module delivers for a fabric copy (R407): this module's state does not hold it. By draw number. -/
opaque remoteByte : Nat → BitVec 8

/-- Whether a request that any of several links may carry was on the link that failed (R401: it "may take any link that is up"). By
draw number. -/
opaque onLink : Nat → Bool

/-- Where in its launch's private region a crew of a stage above 0 has its private base, in units of 64 KiB (R216). By draw number. -/
opaque privateSlot : Nat → Nat

/-- Whether the module's seal tables have room for a number of pages in all (R336 code 5: the spec gives no size). -/
opaque sealRoom : Nat → Bool

/-- The rule code in the record of a binding that fails without a broken rule (R366: its admission was refused, or no function
matched). By draw number. -/
opaque unstatedRule : Nat → BitVec 32

end Sys2Proof.Config
end

