-- ==== Sys2Proof/Machine/State.lean ====
section
/-!
DEFINITION. The state of the module, as plain data: lanes, gangs, crews, camps, tracts, functions, contexts, launches,
sealed images, memories, caches, links; the reasons a step stops; the state after reset.
-/

namespace Sys2Proof.Machine

/-- Why a step stops with a fault. -/
inductive Fault where
  /-- `exec` is given a lane instruction while no gang is issuing. Raised by the issue wrapper; `step` never does this.
  Safe: the machine stops where the spec describes nothing. -/
  | noIssuingGang
  /-- An access reached the physical address `pa`, which no tract's HBM holds (R301: "no other PA reaches HBM"). Raised by
  the memory operations. Safe. -/
  | noStorage (pa : Nat)
  deriving DecidableEq, Repr

/-- Why an instruction is refused. -/
inductive Refusal where
  /-- An arm of `exec` with no meaning yet. Safe. -/
  | notModelled (mnemonic : String)
  deriving DecidableEq, Repr

/-- A PC value (R82). -/
abbrev Pc := BitVec 64

/-- Exception flags SI, NV, DZ, OF, UF, NX at bits 5 to 0 (R35). -/
abbrev Flags6 := BitVec 6

/-- The mode of a lane (R95, R106). -/
inductive Mode where
  | user | super | hyper
  deriving DecidableEq, Repr

/-- The run state of a lane (R81). -/
inductive Run where
  | active | held | exited
  deriving DecidableEq, Repr

/-- One trap frame (R81, R96). `rewritten`: `lanepc` has set its TPC (R101). -/
structure Frame where
  tcause : BitVec 32
  tpc : Pc
  taddr : BitVec 64
  tdet0 : BitVec 32
  tdet1 : BitVec 32
  rewritten : Bool
  deriving DecidableEq, Repr

/-- One lane (R81). `pc` is its PC while it is in no frontier entry; `frames` has the top frame first. Registers that are
not listed hold zero. -/
structure Lane where
  regs : List (Nat × BitVec 32)
  preds : BitVec 15
  mode : Mode
  frames : List Frame
  scnt : List Nat
  fpstat : Flags6
  run : Run
  pc : Pc
  deriving DecidableEq, Repr

/-- One frontier entry (R83, R87). `busy`: it stays at an instruction that has issued and not completed. -/
structure Entry where
  pc : Pc
  band : Nat
  prio : Nat
  mask : LaneMask
  busy : Bool
  deriving DecidableEq, Repr

/-- Where one byte of a translated access lies: its PA and GPA, and the leaf's CP, MS and PROT (R292). -/
structure Leaf where
  pa : Nat
  gpa : Nat
  cp : Nat
  ms : Bool
  prot : Bool
  /-- the level of the stage-1 leaf (R293) -/
  lvl : Nat := 3
  deriving DecidableEq, Repr

/-- One byte of a translated access. In the public view of a window (home, entry), `leaf` is what it reaches while CUR is `cur`, and `alt`
what it reaches once CUR has changed. No leaf: it reads as zero, and a store to it is dropped (R298). -/
structure GByte where
  leaf : Option Leaf
  win : Option (Nat × Nat)
  cur : Bool
  alt : Option Leaf
  deriving DecidableEq, Repr

/-- Where one byte is stored. -/
inductive Loc where
  | scratch (uid off : Nat)
  | vault (launch camp off : Nat)
  | konst (handle e : Nat)
  /-- `prot`: through a page with PROT = 1 (R388); `raw`: through one with CP = 2 (R299) -/
  | phys (pa : Nat) (prot raw : Bool)
  | host (a : Nat)
  | nowhere
  deriving DecidableEq, Repr

/-- The address of an access, once resolved at issue. -/
inductive Addr where
  /-- byte offset of the crew's scratchpad (R217) -/
  | scr (e : Nat)
  /-- `.n` offset (R240) -/
  | nbr (e : Nat)
  /-- `.v` offset; `shd`: a shadow access of R245 -/
  | vault (shd : Bool) (e : Nat)
  /-- constant section offset (R218), in the image with this handle -/
  | konst (handle e : Nat)
  /-- a `.g` or `.p` access, or a `.f` access to the module itself, at a VA, byte by byte; `space` is the number of its space -/
  | glob (space va : Nat) (bs : List GByte)
  /-- the same while it waits on a page request; `shd`: a shadow access -/
  | page (space va : Nat) (shd : Bool)
  /-- a `.g` shadow access that lies in no window of the crew: reads zero, stores nothing (R298) -/
  | nowhere
  /-- host bus address (R385) -/
  | host (a : Nat)
  /-- module and VA of a `.f` access (R403) -/
  | fab (module va : Nat)
  deriving DecidableEq, Repr

/-- Cache and fetch maintenance operations of R309 to R312. -/
inductive Maint where
  | hintL2 | hintL1 | hintLru | cwbL2 | cwbMem | cinvL1 | cinvL2 | iinv
  deriving DecidableEq, Repr

/-- What a pending memory-class operation still has to do, with the operands read at issue. -/
inductive OpKind where
  | load (a : Addr) (p : Policy) (z : Size) (d : Opnd)
  | store (a : Addr) (z : Size) (data : Nat)
  | atom (a : Addr) (op : AtomOp) (w : AWidth) (v : Nat) (d : Opnd) (pd : PredOpt)
  | cas (a : Addr) (bytes : Nat) (cmp new : Nat) (d : Opnd) (pd : PredOpt)
  | maint (m : Maint) (va len : Nat)
  | fbar
  | barArrive (level num : Nat) (pr : PredOpt)
  /-- an arrival sent while its crew was saved: its count falls when the crew next runs (R201) -/
  | barSent (level num : Nat) (pr : PredOpt) (phase : Bool)
  /-- `phb`: the phase bit waited past -/
  | barWait (level num : Nat) (phb : Bool)
  /-- `sent`: the arrival has been sent, in the phase whose bit was `phb` -/
  | barSync (level num : Nat) (sent : Bool) (phb : Bool)
  | copy (chan seq : Nat)
  | cpcancel (chan : Nat)
  /-- `off`: the record's offset; `entry`: its table entry, once the landing has received it -/
  | taskPost (off : Nat) (d : Opnd) (entry : Option Nat)
  | taskDec (tid : Nat)
  | emit (record : List (BitVec 32)) (pd : PredOpt) (waiting : Bool)
  | pubw (win : Nat)
  /-- counts a pending `wait` of one lane -/
  | wait
  deriving DecidableEq, Repr

/-- One pending memory-class operation (R198, R199): one per executing lane, or per gang issue for `copy`, `pubw` and
`fbar`. `after`: the operations that must be performed first (R194). `issue`:
its instruction's issue number. `dropped`: its register result is discarded (R160, R334). `looked`: lines that its instruction
has looked up (R303). `mod`: the MOD field of a host instruction, which its records give (R386). `route`: ROUTE of the target module of a
`.f` access at its issue (R402). `got`: the bytes that parts of it have moved, by place, with their values (R205). `hold`: an arrival whose
PHB software has changed in a save area goes only after a phase completes that leaves the bit other than this (R323, R326). -/
structure Op where
  id : Nat
  gang : Nat
  lanes : LaneMask
  stream : Nat
  mask : Nat
  scope : Nat
  pc : Pc
  issue : Nat
  after : List Nat
  dropped : Bool
  looked : List Nat
  mod : Nat
  route : BitVec 64
  got : List (Nat × BitVec 8)
  hold : Option Bool := none
  kind : OpKind
  deriving DecidableEq, Repr

/-- One lane's condition group of a `wait` (R180): the four registers and whether WMASK marks the group. -/
structure Cond where
  w0 : BitVec 32
  w1 : BitVec 32
  va : BitVec 64
  word : Bool
  deriving DecidableEq, Repr

/-- A pending `wait` of one lane (R181). `start`: the tick at which it started, once its masked operations are performed. -/
structure WaitRec where
  lane : Nat
  issue : Nat
  pc : Pc
  op : Nat
  all : Bool
  conds : List Cond
  timeout : BitVec 32
  pt : PredOpt
  start : Option Nat
  done : Option Bool
  deriving DecidableEq, Repr

/-- A stage-2 miss that waits on a page request: the VF and its request, the failing VA, and the `TDET0` of its fault (R293, R295). -/
structure Miss where
  vf : Nat
  prg : Nat
  addr : Nat
  det : Nat
  deriving DecidableEq, Repr

/-- A lane waiting on a page request, with the access it read at issue (R296). `op`: its operation; 0 where the instruction executes
again. `due`: the trap that the lane has still to take, by cause, address and details (R330). -/
structure PageWait where
  lane : Nat
  op : Nat
  miss : Miss
  acc : Nat
  user : Bool
  due : Option (Nat × Nat × Nat × Nat)
  deriving DecidableEq, Repr

/-- One format-range register (R387). -/
structure FormatRange where
  v : Bool
  store : Nat
  nelem : Nat
  fmt : Nat
  pstored : Nat
  pdeliv : Nat
  scaled : Bool
  scale : Nat
  aliasPa : Nat
  deriving DecidableEq, Repr

/-- A system instruction that has started and not completed (R314). -/
inductive SysKind where
  /-- has had its effect, and may complete -/
  | ready
  /-- completes once these accesses, by crew and operation, are performed (R315) -/
  | tlbinv (uses : List (Nat × Nat))
  /-- writes the range when it completes (R387) -/
  | frmset (range : Nat) (value : FormatRange)
  | ctxsave (crew : Nat)
  | ctxload (crew : Nat)
  /-- not a system instruction: the response to a lane's host or fabric access, which may still trap it -/
  | remote (op : Nat)
  deriving DecidableEq, Repr

/-- The pending part of a system instruction for one lane. -/
structure SysWait where
  lane : Nat
  kind : SysKind
  deriving DecidableEq, Repr

/-- One gang (R83). The issuing entry is the head of `frontier` when `chosen` holds. Latch elements, keyed 32·b + lane, are
those written since the last switch point of latches in `latchLive` (R63). `arrived`: sent arrivals of the current phase, keyed
64·level + number (R175). `line`: the gang's own
copy of the line it issues from (R311). `stopReq`: the debugger stops it before its next switch point (R333). `illegal`: lanes whose rewritten PC is no legal target (R101). `counted`: lanes that a
`waits` blocks, with its stream and its count (R183). -/
structure Gang where
  lanes : List Lane
  frontier : List Entry
  chosen : Bool
  paired : Bool
  g : List (Nat × BitVec 32)
  latches : List (Nat × BitVec 32)
  latchLive : BitVec 8
  regioncnt : BitVec 32
  barPhase : BitVec 4
  arrived : List (Nat × LaneMask)
  waits : List WaitRec
  pages : List PageWait
  sys : List SysWait
  parked : LaneMask
  line : Option (Nat × List (BitVec 8))
  /-- the PA of that line (R301, R311) -/
  linePa : Nat := 0
  retired : Bool
  stopReq : Bool
  stopped : Bool
  stoppedAt : LaneMask
  halted : Bool
  fbarPending : Bool
  illegal : LaneMask
  counted : List (Nat × Nat × Nat)
  deriving DecidableEq, Repr

/-- One gang's slice of a copy (R227): the source form, the six descriptor words, and the bytes delivered. `vaddr` of a
restarted slice stands in its words. `homed` and `route`: as its copy began, its module was this one, and ROUTE of its module (R402). -/
structure Slice where
  gang : Nat
  op : Nat
  lanes : LaneMask
  stream : Nat
  scope : Nat
  pc : Pc
  src : Nat
  fab : Bool
  put : Bool
  win : Option Nat
  words : List (BitVec 32)
  done : Nat
  empty : Bool
  homed : Bool := false
  route : BitVec 64 := 0#64
  deriving DecidableEq, Repr

/-- One collective copy of a channel (R228). -/
structure Copy where
  seq : Nat
  slices : List Slice
  formed : Bool
  begun : Bool
  reserve : Bool
  cancelled : Bool
  lost : Bool
  deriving DecidableEq, Repr

/-- One copy channel of a crew (R225): its write-pointer, the slices each gang has contributed, the copies formed, and the
outstanding copies in order. -/
structure Channel where
  wp : BitVec 32
  slices : List Nat
  formed : Nat
  copies : List Copy
  deriving DecidableEq, Repr

/-- Task states (R253). -/
inductive TaskState where
  | none | wait | ready | run | done
  deriving DecidableEq, Repr

/-- Progress of one scratchpad working set: not admitted, admitted with the bytes delivered, or arrived (R263). -/
inductive WsState where
  | unused | waiting | moving (delivered : Nat) | arrived
  deriving DecidableEq, Repr

/-- One entry of a crew's task table (R251, R253), with the landing's copy of the record. `wrapped`: its generations have wrapped, so the entry
has held every one (R251). Of a running task, `moved`: bytes that a `stage` has copied or a mill has written; `seen`: operand bytes that a
mill has read; `out`: the part of its result that a mill has still to write, with its flags (R273). -/
structure Task where
  gen : Nat
  state : TaskState
  status : Nat
  detail : Nat
  under : Bool
  dep : Nat
  record : List (BitVec 8)
  offset : Nat
  lane : Nat
  gang : Nat
  stream : Nat
  op : Nat
  pc : Pc
  ws0 : WsState
  ws1 : WsState
  postedAt : Nat
  readyAt : Nat
  engine : Nat
  wrapped : Bool := false
  moved : Nat := 0
  seen : List (Loc × BitVec 8) := []
  out : Option (List (Nat × BitVec 8) × Flags6) := none
  deriving DecidableEq, Repr

/-- Where a crew is (R10, R211): resident on a core; or saved at a VA, and held by software when `soft` (R322). -/
inductive Place where
  | core (n : Nat)
  | saved (soft : Bool) (va : Nat)
  deriving DecidableEq, Repr

/-- A store or atomic of a lane that has been performed lately: its place among all stores, who issued it, its stream and its scope as
widened so far, and for each byte the value before it and its own (R206, R207). -/
structure Past where
  seq : Nat
  gang : Nat
  lanes : LaneMask
  core : Nat
  stream : Nat
  scope : Nat
  bytes : List (Loc × BitVec 8 × BitVec 8)
  deriving DecidableEq, Repr

/-- One crew (R10, R211): its gangs and its crew slot. `garr`: the gangs that have arrived in the current phase, keyed 64·level +
number (R176). `saveAt`: the VA that `ctxsave` names and the launch that issued it (R322). `noGang`: the slot is held for a successor
(R237). `succSet`: some `exit.to` has set the successor (R161). `alloc`: the scratchpad allocation, which a successor may use in part (R237).
`turn`: the gang that the core issues from (R64). `named`: the crew task as which it runs, of the crew before it (R259). `past`: its lanes'
last stores, newest first (R207). -/
structure Crew where
  uid : Nat
  launch : Nat
  crewid : Nat
  stage : Nat
  entry : Nat
  place : Place
  home : Nat
  lvl : Bool
  regs : Nat
  ngangs : Nat
  gangs : List Gang
  ssize : Nat
  alloc : Nat
  sbase : Nat
  scratch : List Host.Cell
  pbase : Nat
  barPhase : BitVec 16
  garr : List (Nat × BitVec 16)
  channels : List Channel
  tasks : List Task
  ops : List Op
  nextOp : Nat
  past : List Past
  req : Bool
  force : Bool
  deadline : BitVec 32
  count : Nat
  reqAt : Nat
  saveAt : Option (Nat × Nat)
  forced : BitVec 16
  succ : BitVec 32
  succSet : Bool
  succSite : Pc
  noGang : Bool
  fullAtStart : Bool
  slice : Nat
  turn : Option Nat
  named : Option Task := none
  terminating : Bool
  deriving DecidableEq, Repr

/-- One declared publish window (R244, R377), at its home camp. -/
structure Window where
  launch : Nat
  home : Nat
  entry : Nat
  glob : Bool
  size : Nat
  woff : Nat
  back0 : Nat
  back1 : Nat
  cur : Bool
  gen : BitVec 32
  deriving DecidableEq, Repr

/-- A launch's vault window in one camp (R241): its base, and its bytes. -/
structure VaultWin where
  launch : Nat
  camp : Nat
  base : Nat
  size : Nat
  bytes : List Host.Cell
  deriving DecidableEq, Repr

/-- One pipeline queue instance of a launch in a camp (R260): records held and the reserve record. -/
structure Queue where
  launch : Nat
  camp : Nat
  num : Nat
  recs : List (List (BitVec 32))
  reserve : Option (List (BitVec 32))
  deriving DecidableEq, Repr

/-- A camp, tract or fabric barrier's endpoint (R16): phase bit and the crews that have arrived. `fgrp`: of a fabric barrier, the four FGRP
registers of its group as they stood at the first write of one of them in the current phase (R409). -/
structure Endpoint where
  bar : BarId
  phase : Bool
  crews : List Nat
  fgrp : Option (List (BitVec 64)) := none
  deriving DecidableEq, Repr

/-- The context descriptor as read for a launch or an admission (R376). -/
structure CtxDesc where
  s1root : Nat
  pasid : Nat
  cls : Nat
  ctxwt : Nat
  bindbase : Nat
  bindcnt : Nat
  lqbase : Nat
  lqsz : Nat
  deriving DecidableEq, Repr

/-- The special registers and device state of one context (R104). -/
structure Ctx where
  vf : Nat
  ctx : Nat
  cmpl : BitVec 1
  svec : BitVec 64
  hvec : BitVec 64
  ringBase : BitVec 43
  ringSz : BitVec 4
  hintdrop : BitVec 32
  quantum : BitVec 24
  desc : CtxDesc
  lqTaken : List Nat
  lqProd : List Nat
  deriving DecidableEq, Repr

/-- TDISP states (R392). -/
inductive Tdisp where
  | unlocked | locked | run | error
  deriving DecidableEq, Repr

/-- Who waits on a page request (R295): a lane of a gang, a Grader, or an engine. -/
inductive Joiner where
  | lane (crew gang lane : Nat)
  | grader (tract : Nat)
  /-- an engine: `what` is 0 for a copy on channel `n`, 1 for the task of entry `n`, 2 for working set `n mod 2` of entry
  `n div 2`; `addr`: the faulting address of the byte that waits -/
  | engine (crew what n addr : Nat)
  deriving DecidableEq, Repr

/-- A page request of a VF (R295). -/
structure PageReq where
  prg : Nat
  gpa : Nat
  pasid : Nat
  write : Bool
  sent : Bool
  joined : List Joiner
  deriving DecidableEq, Repr

/-- One function: PF is number 0 (R374), with its registers, page-request queue, admission queue and VF control block. -/
structure Func where
  vf : Nat
  ready : Bool
  err : Bool
  tdisp : Tdisp
  prifail : Bool
  quiesced : Bool
  resetting : Bool
  session : Nat
  ctxtbl : BitVec 64
  admq : BitVec 64
  admprod : Nat
  admcons : Nat
  vfshare : BitVec 16
  part : BitVec 64
  s2root : Nat
  keys : BitVec 21
  logbase : BitVec 64
  logEn : Bool
  logOvf : Bool
  logAll : Bool
  logStop : Bool
  logprod : BitVec 32
  logSince : Nat
  priOn : Bool
  priAlloc : Nat
  nextPrg : Nat
  reqs : List PageReq
  deriving DecidableEq, Repr

/-- A translation held by a TLB or walk cache (R297). `holder`: a core number below 512, or 512 + camp for engines, or
576 + tract for a Grader. -/
structure TlbEntry where
  holder : Nat
  vf : Nat
  ctx : Nat
  root : Nat
  vpage : Nat
  gpa : Nat
  pa : Nat
  s1 : Nat
  lvl1 : Nat
  s2 : Nat
  lvl2 : Nat
  deriving DecidableEq, Repr

/-- A line that a protected world has written, under the world's key (R388): PA div 128. While `plain` is none, memory holds what the
world reads, and any other viewer reads its seal; else memory holds the bytes themselves, as others left them, and `plain` the page
version under which the line was sealed, with what the seal covers. -/
structure WorldLine where
  line : Nat
  key : Nat
  plain : Option (Nat × List (BitVec 8))
  deriving DecidableEq, Repr

/-- What a walk reads for: a VF's stage-2 entry of the GPAs from `base`, `size` of them, or a context's stage-1 entry of such VAs (R294). -/
structure WalkKey where
  vf : Nat
  ctx : Option Nat
  base : Nat
  size : Nat
  deriving DecidableEq, Repr

/-- An entry that a walk has read at a PA. A walk cache holds it while `held` (R297). -/
structure WalkEntry where
  key : WalkKey
  pa : Nat
  value : Nat
  held : Bool
  deriving DecidableEq, Repr

/-- One line held in L2 (R302, R303). `line` is PA div 128; `bytes` are the decoded bytes of an alias line (R304); for a
world's dirty line `under` is what the line held before, with its seal (R390). The list that holds these is in recency order, most
recent first. -/
structure L2Line where
  line : Nat
  way : Nat
  cls : Nat
  dirty : Bool
  world : Option Nat
  bytes : List (BitVec 8)
  under : Option (Option WorldLine × List (BitVec 8)) := none
  deriving DecidableEq, Repr

/-- One block of a sealed image (R361, R363): its PC, its priority, its mode, and for a vector entry its `.regs`. -/
structure Block where
  pc : Pc
  prio : Nat
  ventry : Option Nat
  deriving DecidableEq, Repr

/-- A kernel or vector entry of a sealed image with its entry signature (R338, R356). -/
structure Kern where
  pc : Pc
  regs : Nat
  gangs : Nat
  scratch : Nat
  vector : Bool
  mode : Mode
  sig : Nat
  cbar : BitVec 32
  tbar : BitVec 64
  fbar : BitVec 64
  deriving DecidableEq, Repr

/-- A bound of a pointer: a constant, or a register plus a constant (R342). -/
structure Bnd where
  reg : Option Nat
  k : Int
  deriving DecidableEq, Repr

/-- An annotation item (R339). -/
inductive Item where
  | type (r code : Nat)
  | ptr (r obj : Nat) (lo hi : Bnd)
  | rel (a op b : Nat)
  | holds (locks : Nat)
  deriving DecidableEq, Repr

/-- A pointer of the Grader's abstract state: space, object and proven offsets (R342). -/
structure APtr where
  space : Nat
  obj : Nat
  lo : Bnd
  hi : Bnd
  deriving DecidableEq, Repr

/-- What the Grader knows of one register (R342): its type code, a range narrower than the type's, a pointer, the function whose link it
holds (R354), the lock whose word it was loaded from (R353). A pair's state stands in its even register. -/
structure AReg where
  ty : Nat
  rng : Option (Int × Int)
  ptr : Option APtr
  link : Option Nat
  lock : Option Nat
  deriving DecidableEq, Repr

/-- The Grader's abstract state (R342). Registers that are not listed, and lie below `below`, have type `base`; others are dead.
`facts`: (x, y, k) stands for x ≤ y + k. `checked`: a lock with the registers of its `chkl`. `unread`: latches written with NWB and not
yet read (R66). `region`: the block whose region is open. `acq`: a lock and the predicate of its `cas` in the slot before (R352). -/
structure Abs where
  regs : List (Nat × AReg)
  base : Nat
  below : Nat
  facts : List (Nat × Nat × Int)
  held : Nat
  checked : List (Nat × Nat × Nat)
  latches : Nat
  unread : Nat
  region : Option Nat
  acq : Option (Nat × Nat)
  block : Nat
  deriving DecidableEq, Repr

/-- A function of a sealed image, as binding needs it (R355, R366): its name, its entry's annotation, and the meet of its states at
its returns. -/
structure AFunc where
  hash : Nat
  pc : Pc
  items : List Item
  ret : Option Abs
  deriving DecidableEq, Repr

/-- An import (R341): the name, the binding-table index, and the interface's entry and return items. -/
structure Import where
  hash : Nat
  index : Nat
  entry : List Item
  back : List Item
  deriving DecidableEq, Repr

/-- A sealed image (R361): its handle, kernels, blocks, `exit.to` signatures, functions, imports and constant section. `newer`: the
handle that replaces it for launches submitted later, and the producer indices of its context's queues at the replacement (R367).
`objs`: the space and the name of every object, which items number. -/
structure Image where
  handle : Nat
  vf : Nat
  ctx : Nat
  header : Nat
  kerns : List Kern
  blocks : List Block
  exits : List (Pc × Nat)
  funcs : List AFunc
  objs : List (Nat × Nat)
  imports : List Import
  constva : Nat
  constsz : Nat
  newer : Option (Nat × List Nat)
  deriving DecidableEq, Repr

/-- A page entered in the seal tables, or pending admission (R337, R361). `pa` is the page's PA div 65536. -/
structure SealPage where
  handle : Nat
  vf : Nat
  ctx : Nat
  vpage : Nat
  pa : Nat
  code : Bool
  mode : Mode
  pending : Bool
  deriving DecidableEq, Repr

/-- A launch ring record taken from its queue (R377), with what the device keeps of its progress (R379). `decls`: its window
declarations; `begun`: its placement has begun, with its windows assigned; `pledges`: cores that a crew leaves for a stage behind a full
queue, as (core, stage, crew) (R262); `myid`: MYID when it was taken (R402); `latest`: by stage, the cycle and the camp of its last dispatch
(R13); `haltFirst` and `haltAt`: status and `CREWID` of the first crew that ended by `halt`, and its cycle and core (R379). -/
structure Launch where
  id : Nat
  vf : Nat
  ctx : Nat
  tenant : Nat
  queue : Nat
  desc : CtxDesc
  handle : Nat
  coop : Bool
  pipe : Bool
  conf : Bool
  ncrew : Nat
  camps : BitVec 64
  cores : BitVec 8
  regs : Nat
  gangs : Nat
  scratch : Nat
  psize : Nat
  privbase : Nat
  savebase : Nat
  savesz : Nat
  vsize : Nat
  stbl2 : Nat
  stbsp : Nat
  cbar : BitVec 32
  tbar : BitVec 64
  fbar : BitVec 64
  fgroup : Nat
  decls : List Window
  begun : Bool
  qcap : List Nat
  stages : List Nat
  key : Nat
  aclass : Nat
  compl : Nat
  nextCrew : List Nat
  retired : Nat
  halted : Nat
  haltFirst : Option (Nat × Nat)
  haltAt : Nat × Nat := (0, 0)
  status : Nat
  notified : Bool
  world : Bool
  wkey : Nat
  pledges : List (Nat × Nat × Nat)
  myid : Nat := 0
  latest : List (Nat × Nat × Nat) := []
  done : Bool
  deriving DecidableEq, Repr

/-- What lazy binding asks of a Grader (R365, R366): the binding-table index, the caller's image, and the import. -/
structure Binding where
  index : Nat
  handle : Nat
  imp : Nat
  deriving DecidableEq, Repr

/-- A block record with its offset from the header. -/
structure KBlock where
  off : Nat
  line : Nat
  slot : Nat
  ventry : Bool
  mode : Nat
  fentry : Bool
  kentry : Bool
  region : Bool
  prio : Nat
  hash : Nat
  items : List Item
  raw : List Byte
  words : List (List Nat)
  deriving DecidableEq, Repr

/-- An object record (R340). -/
structure KObj where
  hash : Nat
  flags : Nat
  addr : Nat
  size : Nat
  slot : Nat
  top : Nat
  deriving DecidableEq, Repr

/-- A kernel entry (R338). -/
structure KEntry where
  block : Nat
  regs : Nat
  gangs : Nat
  scratch : Nat
  raw : List Byte
  deriving DecidableEq, Repr

/-- An import entry with the words of its interface (R341). -/
structure KImport where
  imp : Import
  raw : List Byte
  words : List (List Nat)
  deriving DecidableEq, Repr

/-- One code line: its slots and its line word (R50, R51). -/
structure KLine where
  bytes : List Byte
  slots : List Nat
  word : Nat
  deriving DecidableEq, Repr

/-- An image as read. -/
structure KImage where
  header : List Byte
  codeva : Nat
  nlines : Nat
  constva : Nat
  constsz : Nat
  blocks : List KBlock
  objs : List KObj
  kerns : List KEntry
  imps : List KImport
  code : List KLine
  consts : List Byte
  deriving DecidableEq, Repr

/-- A grant entry (R335). -/
structure Grant where
  addr : Nat
  flags : Nat
  deriving DecidableEq, Repr

/-- An admission request (R335): the 16 words of its descriptor, its privilege, for a binding what it binds, and for one that the device
has submitted the producer index of its function's ring at that moment. In a Grader's hands: the tick at which it was taken, the handle its
pages are pending under, with the grants and the image that have been read, whether a page request for it has failed (R336), and for a
binding the handle found, or the rule that stopped it. -/
structure AdmReq where
  vf : Nat
  words : List Nat
  priv : Mode
  desc : CtxDesc
  bind : Option Binding
  start : Nat
  pending : Option Nat
  failed : Bool
  result : Option (Option Nat × Nat)
  behind : Nat := 0
  read : Option (List Grant × KImage) := none
  deriving DecidableEq, Repr

/-- A record to be written to a context's ring. -/
structure Record where
  cause : Nat
  sev : Nat
  core : Nat
  gang : Nat
  lanes : LaneMask
  pc : Pc
  addr : Nat
  region : BitVec 32
  scnt : List Nat
  det0 : Nat
  det1 : Nat
  deriving DecidableEq, Repr

/-- What happens when the records of a producer that waits for room have been written (R330): nothing more; the crew is terminated for a
fault of an engine, numbered as in `Joiner.engine`; a task ends faulted; an access ends failed; a copy of a channel stops. -/
inductive Fate where
  | notice
  | die (what n : Nat)
  | fault (e : Nat)
  | failed (op : Nat)
  | stop (chan seq : Nat)
  deriving DecidableEq, Repr

/-- A producer that waits for room in its context's trap ring (R330): a gang at a switch point, or an engine. `recs`: the records that are
due, none where the gang raises them again; `org`: the VF, context and tenant that they tell. -/
structure RingWait where
  vf : Nat
  ctx : Nat
  crew : Nat
  gang : Option Nat
  fate : Fate := .notice
  recs : List Record := []
  org : Nat × Nat × Nat := (0, 0, 0)
  deriving DecidableEq, Repr

/-- One Chiod link (R402). -/
structure Link where
  state : Nat
  failed : Bool
  retries : BitVec 32
  deriving DecidableEq, Repr

/-- One key slot (R388): the key, while loaded. -/
abbrev KeySlots := List (Nat × Nat)

/-- What the outside world or the module's engines do next (R3: the spec fixes no times). An empty agenda lets the gang at
`State.cur` issue. -/
inductive Move where
  /-- the core switches to a gang of a crew -/
  | issue (crew gang : Nat)
  /-- an event of the table happens -/
  | event (i : Instr)
  /-- the host changes its own memory -/
  | hostMemory (a : Nat) (bytes : List (BitVec 8))
  /-- cycles pass (R12) -/
  | elapse (cycles : Nat)
  /-- a TLB or walk cache forgets its entries (R297) -/
  | dropTlb (holder : Nat)
  /-- a walk cache takes the entry of this place among those read, or forgets it (R297) -/
  | holdWalk (n : Nat) (held : Bool)
  /-- a core's L1 or instruction buffer forgets its lines (R299, R301) -/
  | dropL1 (core : Nat)
  /-- the 128-byte line at a PA becomes poisoned or uncorrectable -/
  | poison (line : Nat)
  /-- the host sets a VF's page-request enable and its Outstanding Page Request Allocation (R295) -/
  | priConfig (vf : Nat) (on : Bool) (alloc : Nat)
  /-- one part of a pending access is performed before the others (R205) -/
  | part (crew op piece : Nat)
  /-- a load returns the values from before the last `n` stores performed, none of them scope-matched with it (R207, R208) -/
  | stale (crew op n : Nat)
  /-- a byte of a scratchpad or a vault becomes uncorrectable (R231, R275) -/
  | spoil (x : Loc)
  /-- a running mill reads one of its operand bytes before the others (R273) -/
  | millRead (crew entry : Nat) (x : Loc)
  /-- a running mill writes byte `n` of its result before the others (R273) -/
  | millWrite (crew entry n : Nat)
  /-- a running `stage` moves up to `n` bytes (R273, R287) -/
  | stagePart (crew entry n : Nat)
  /-- the target module has translated a `.f` access: its lane goes on (R403, R405) -/
  | fabTranslated (crew op : Nat)
  deriving DecidableEq, Repr

/-- The module. -/
structure State where
  /-- what happens next (the model's own) -/
  agenda : List Move
  /-- the gang issuing: crew uid and gang number -/
  cur : Option (Nat × Nat)
  /-- cycles since reset; a tick is 8 cycles (R5, R12) -/
  now : Nat
  /-- issue numbers given out; also the counter of the free values (the model's own) -/
  draws : Nat
  /-- an address that an access of this step found no storage at (the model's own; none between steps) -/
  bad : Option Nat
  /-- HBM bytes by PA (R301) -/
  hbm : List Host.Cell
  /-- host memory bytes by bus address (R385) -/
  host : List Host.Cell
  /-- poisoned or uncorrectable lines: PA div 128 (R231, R275) -/
  poisoned : List Nat
  /-- uncorrectable bytes of scratchpads and vaults (R231, R275) -/
  spoiled : List Loc
  /-- stores of lanes performed so far (the model's own) -/
  stores : Nat
  crews : List Crew
  nextUid : Nat
  windows : List Window
  vaults : List VaultWin
  queues : List Queue
  strings : List Endpoint
  ctxs : List Ctx
  funcs : List Func
  launches : List Launch
  nextLaunch : Nat
  tlbs : List TlbEntry
  /-- the last value that a walk has read of each entry (R297) -/
  walks : List WalkEntry
  /-- L1 lines: core and PA div 128, most recent first (R299) -/
  l1 : List (Nat × Nat)
  l2 : List L2Line
  /-- hit and miss counters keyed 16·camp + class (R303) -/
  hits : List (Nat × BitVec 32)
  misses : List (Nat × BitVec 32)
  /-- fill masks keyed 16·tract + class (R302) -/
  masks : List (Nat × BitVec 16)
  /-- instruction buffers: core, PA of the line, its 64 bytes (R301, R311) -/
  ibuf : List (Nat × Nat × List (BitVec 8))
  /-- format-range registers, 0-127 (R387) -/
  ranges : List (Nat × FormatRange)
  images : List Image
  seals : List SealPage
  nextHandle : Nat
  admWait : List (Nat × AdmReq)
  admQueue : List (Nat × AdmReq)
  ringWait : List RingWait
  keySlots : KeySlots
  worldLines : List WorldLine
  /-- page versions keyed by PA div 65536 (R388) -/
  versions : List (Nat × Nat)
  /-- READYMAP: 98 bits (R395) -/
  readymap : BitVec 98
  /-- HEALTH predictions by item (R396) -/
  health : List (Nat × BitVec 32)
  /-- POWER limits by tract (R397) -/
  power : List (Nat × BitVec 16)
  fabid : BitVec 8
  links : List Link
  /-- ROUTE words by module (R402) -/
  routes : List (Nat × BitVec 64)
  /-- FGRP words keyed 4·group + word (R402) -/
  fgrp : List (Nat × BitVec 64)
  /-- fabric arrivals held for a route: barrier and crew (R410) -/
  heldArr : List (BarId × Nat)
  firmware : Nat
  /-- the last value a debug READ returned, and PENDING (R333, R334) -/
  dbgValue : Nat
  dbgPending : Bool
  deriving DecidableEq, Repr

/-- A lane at dispatch (R85). -/
def Lane.fresh (mode : Mode) (pc : Pc) : Lane :=
  { regs := [], preds := 0#15, mode := mode, frames := [], scnt := List.replicate 8 0, fpstat := 0#6, run := .active, pc := pc }

/-- An exited, cleared lane: what stands in place of a lane that does not exist. -/
def Lane.blank : Lane :=
  { regs := [], preds := 0#15, mode := .user, frames := [], scnt := List.replicate 8 0, fpstat := 0#6, run := .exited, pc := 0#64 }

/-- A gang at dispatch (R85, R213). -/
def Gang.fresh (mode : Mode) (pc : Pc) (prio : Nat) (g : List (Nat × BitVec 32)) : Gang :=
  { lanes := List.replicate 32 (Lane.fresh mode pc)
    frontier := [{ pc := pc, band := match mode with | .user => 0 | .super => 1 | .hyper => 2, prio := prio, mask := 0xFFFFFFFF#32, busy := false }]
    chosen := false, paired := false, g := g, latches := [], latchLive := 0#8, regioncnt := 0#32, barPhase := 0#4, arrived := []
    waits := [], pages := [], sys := [], parked := 0#32, line := none, retired := false, stopReq := false, stopped := false, stoppedAt := 0#32
    halted := false, fbarPending := false, illegal := 0#32, counted := [] }

/-- A gang that has retired. -/
def Gang.blank : Gang :=
  { lanes := List.replicate 32 Lane.blank, frontier := [], chosen := false, paired := false, g := [], latches := []
    latchLive := 0#8, regioncnt := 0#32, barPhase := 0#4, arrived := [], waits := [], pages := [], sys := [], parked := 0#32
    line := none, retired := true, stopReq := false, stopped := false, stoppedAt := 0#32, halted := false, fbarPending := false, illegal := 0#32
    counted := [] }

/-- A channel at dispatch (R213). -/
def Channel.fresh : Channel := { wp := 0#32, slices := List.replicate 16 0, formed := 0, copies := [] }

/-- A task-table entry at dispatch (R251). -/
def Task.fresh : Task :=
  { gen := 0, state := .none, status := 0, detail := 0, under := false, dep := 0, record := [], offset := 0, lane := 0, gang := 0
    stream := 0, op := 0, pc := 0#64, ws0 := .unused, ws1 := .unused, postedAt := 0, readyAt := 0, engine := 0 }

/-- A context descriptor of zeros. -/
def CtxDesc.zero : CtxDesc :=
  { s1root := 0, pasid := 0, cls := 0, ctxwt := 0, bindbase := 0, bindcnt := 0, lqbase := 0, lqsz := 0 }

/-- A context's registers at reset (R104, R309, R318, R329). -/
def Ctx.fresh (vf ctx : Nat) : Ctx :=
  { vf := vf, ctx := ctx, cmpl := 0#1, svec := 0#64, hvec := 0#64, ringBase := 0#43, ringSz := 0#4, hintdrop := 0#32
    quantum := 100000#24, desc := CtxDesc.zero, lqTaken := List.replicate 8 0, lqProd := List.replicate 8 0 }

/-- A function's registers at reset (R374, R392, R395). -/
def Func.fresh (vf : Nat) : Func :=
  { vf := vf, ready := false, err := false, tdisp := .unlocked, prifail := false, quiesced := false, resetting := false
    session := 0, ctxtbl := 0#64, admq := 0#64, admprod := 0, admcons := 0, vfshare := 0#16, part := 0#64, s2root := 0
    keys := 0#21, logbase := 0#64, logEn := false, logOvf := false, logAll := false, logStop := false, logprod := 0#32
    logSince := 0, priOn := false, priAlloc := 0, nextPrg := 0, reqs := [] }

/-- A link at reset (R402). -/
def Link.fresh : Link := { state := 0, failed := false, retries := 0#32 }

/-- The module right after reset: no crew, no sealed page, empty memories, every register at its reset value. -/
def State.reset : State :=
  { agenda := [], cur := none, now := 0, draws := 0, bad := none, hbm := [], host := [], poisoned := [], spoiled := [], stores := 0
    crews := [], nextUid := 1, windows := [], vaults := [], queues := [], strings := [], ctxs := [], funcs := (List.range 64).map Func.fresh
    launches := [], nextLaunch := 1, tlbs := [], walks := [], l1 := [], l2 := [], hits := [], misses := [], masks := [], ibuf := [], ranges := []
    images := [], seals := [], nextHandle := 1, admWait := [], admQueue := [], ringWait := [], keySlots := []
    worldLines := [], versions := [], readymap := 0#98, health := [], power := [], fabid := 0#8
    links := List.replicate 18 Link.fresh, routes := [], fgrp := [], heldArr := [], firmware := 0, dbgValue := 0
    dbgPending := false }

end Sys2Proof.Machine
end

