-- ==== Sys2Proof/Machine/Store.lean ====
section
/-!
DEFINITION. Sparse tables in canonical form, byte memories, and the homes of every unit of the state: one reader and one
writer for each.
-/

namespace Sys2Proof.Machine

/-- The entry of a sparse table at a key; a key that is not listed holds the default `d`. -/
def sget {α : Type} (d : α) : List (Nat × α) → Nat → α
  | [], _ => d
  | (k, v) :: t, n => if k = n then v else sget d t n

/-- Removes a key. -/
def sdel {α : Type} : List (Nat × α) → Nat → List (Nat × α)
  | [], _ => []
  | (k, v) :: t, n => if k = n then sdel t n else (k, v) :: sdel t n

/-- Inserts a key into a table with rising keys, replacing an entry of the same key. -/
def sins {α : Type} : List (Nat × α) → Nat → α → List (Nat × α)
  | [], n, x => [(n, x)]
  | (k, v) :: t, n, x =>
    if k = n then (n, x) :: t else if n < k then (n, x) :: (k, v) :: t else (k, v) :: sins t n x

/-- Writes a key; writing the default removes the entry, so equal contents are equal tables. -/
def sput {α : Type} [DecidableEq α] (d : α) (t : List (Nat × α)) (n : Nat) (x : α) : List (Nat × α) :=
  if x = d then sdel t n else sins t n x

/-- Canonical form: keys strictly rising, each above `lo` in the sense `lo ≤ key`, and no entry equal to the default. -/
def canonFrom {α : Type} [DecidableEq α] (d : α) : Nat → List (Nat × α) → Bool
  | _, [] => true
  | lo, (k, v) :: t => decide (lo ≤ k) && decide (v ≠ d) && canonFrom d (k + 1) t

/-- A memory's canonical form: addresses strictly rising and no byte equal to zero, what an unlisted address reads as. -/
def Memory.wf (m : List Host.Cell) : Bool := canonFrom 0#8 0 m

/-- One byte of a memory. -/
def peek (m : List Host.Cell) (a : Nat) : Byte := sget 0#8 m a

/-- Writes one byte. -/
def poke (m : List Host.Cell) (a : Nat) (b : Byte) : List Host.Cell := sput 0#8 m a b

/-- `n` bytes from address `a` upward. -/
def peekN (m : List Host.Cell) (a : Nat) : Nat → List Byte
  | 0 => []
  | n + 1 => peek m a :: peekN m (a + 1) n

/-- Writes bytes from address `a` upward. -/
def pokeN (m : List Host.Cell) (a : Nat) : List Byte → List Host.Cell
  | [] => m
  | b :: bs => pokeN (poke m a b) (a + 1) bs

/-! Lanes, gangs and crews. -/

/-- A lane's register. -/
def Lane.reg (l : Lane) (r : Nat) : Word := sget 0#32 l.regs r

/-- Writes a lane's register. -/
def Lane.setReg (l : Lane) (r : Nat) (w : Word) : Lane := { l with regs := sput 0#32 l.regs r w }

/-- A lane's predicate p0-p14. -/
def Lane.pred (l : Lane) (p : Nat) : Bool := l.preds.getLsbD p

/-- Writes a predicate. -/
def Lane.setPred (l : Lane) (p : Nat) (b : Bool) : Lane :=
  { l with preds := if b then l.preds ||| (1#15 <<< p) else l.preds &&& ~~~(1#15 <<< p) }

/-- A lane's trap depth (R81). -/
def Lane.depth (l : Lane) : Nat := l.frames.length

/-- A lane's stream counter (R198). -/
def Lane.cnt (l : Lane) (st : Nat) : Nat := l.scnt.getD st 0

/-- Adds `up` to a stream counter and takes `down` from it. -/
def Lane.count (l : Lane) (st up down : Nat) : Lane := { l with scnt := modifyNth l.scnt st (fun n => n + up - down) }

/-- Lane `l` of a gang. -/
def Gang.lane (g : Gang) (l : Nat) : Lane := g.lanes.getD l Lane.blank

/-- Changes one lane. -/
def Gang.mapLane (g : Gang) (l : Nat) (f : Lane → Lane) : Gang := { g with lanes := modifyNth g.lanes l f }

/-- Changes the lanes of a mask; `f` also receives the lane number. -/
def mapLanesFrom (m : LaneMask) (f : Nat → Lane → Lane) : Nat → List Lane → List Lane
  | _, [] => []
  | i, l :: ls => (if m.getLsbD i then f i l else l) :: mapLanesFrom m f (i + 1) ls

def Gang.mapLanes (g : Gang) (m : LaneMask) (f : Nat → Lane → Lane) : Gang := { g with lanes := mapLanesFrom m f 0 g.lanes }

/-- The lanes whose run state is `r` (R83: held mask, exited mask). -/
def Gang.inRun (g : Gang) (r : Run) : LaneMask :=
  LaneMask.ofList (laneNumbers.filter (fun l => (g.lane l).run == r))

/-- The active lanes. -/
def Gang.active (g : Gang) : LaneMask := g.inRun .active

/-- The band of a mode (R87). -/
def Mode.band : Mode → Nat
  | .user => 0
  | .super => 1
  | .hyper => 2

/-- The mode with a code (R106). -/
def Mode.ofCode : Nat → Mode
  | 1 => .super
  | 2 => .hyper
  | _ => .user

/-- The lowest-numbered lane of a mask; 0 for an empty one. -/
def lowest (m : LaneMask) : Nat := (laneNumbers.find? (fun l => m.getLsbD l)).getD 0

def Crew.gang (c : Crew) (k : Nat) : Gang := c.gangs.getD k Gang.blank
def Crew.mapGang (c : Crew) (k : Nat) (f : Gang → Gang) : Crew := { c with gangs := modifyNth c.gangs k f }
def Crew.setGang (c : Crew) (k : Nat) (g : Gang) : Crew := c.mapGang k (fun _ => g)

/-- Changes the crew with a uid in a list. -/
def mapCrew (uid : Nat) (f : Crew → Crew) : List Crew → List Crew
  | [] => []
  | c :: cs => if c.uid = uid then f c :: cs else c :: mapCrew uid f cs

namespace State

/-- The crew with a uid. -/
def crew? (s : State) (uid : Nat) : Option Crew := s.crews.find? (fun c => c.uid == uid)
def mapCrew (s : State) (uid : Nat) (f : Crew → Crew) : State := { s with crews := Machine.mapCrew uid f s.crews }
def setCrew (s : State) (c : Crew) : State := s.mapCrew c.uid (fun _ => c)
def gang (s : State) (uid k : Nat) : Gang :=
  match s.crew? uid with
  | some c => c.gang k
  | none => Gang.blank
def mapGang (s : State) (uid k : Nat) (f : Gang → Gang) : State := s.mapCrew uid (fun c => c.mapGang k f)

/-- The crew resident on a core (R211). -/
def resident? (s : State) (core : Nat) : Option Crew := s.crews.find? (fun c => c.place == .core core)

def launch? (s : State) (id : Nat) : Option Launch := s.launches.find? (fun l => l.id == id)
def mapLaunch (s : State) (id : Nat) (f : Launch → Launch) : State :=
  { s with launches := s.launches.map (fun l => if l.id = id then f l else l) }

/-- A context's registers; a context that nothing has touched stands at reset. -/
def ctxAt (s : State) (vf ctx : Nat) : Ctx :=
  (s.ctxs.find? (fun c => c.vf == vf && c.ctx == ctx)).getD (Ctx.fresh vf ctx)
def setCtx (s : State) (c : Ctx) : State :=
  if s.ctxs.any (fun d => d.vf == c.vf && d.ctx == c.ctx) then
    { s with ctxs := s.ctxs.map (fun d => if d.vf = c.vf ∧ d.ctx = c.ctx then c else d) }
  else { s with ctxs := s.ctxs ++ [c] }
def mapCtx (s : State) (vf ctx : Nat) (f : Ctx → Ctx) : State := s.setCtx (f (s.ctxAt vf ctx))

def func (s : State) (vf : Nat) : Func := s.funcs.getD vf (Func.fresh vf)
def mapFunc (s : State) (vf : Nat) (f : Func → Func) : State := { s with funcs := modifyNth s.funcs vf f }

def image? (s : State) (handle : Nat) : Option Image := s.images.find? (fun i => i.handle == handle)

/-- The window with an entry number at a home camp (R244). -/
def window? (s : State) (home entry : Nat) : Option Window := s.windows.find? (fun w => w.home == home && w.entry == entry)
def mapWindow (s : State) (home entry : Nat) (f : Window → Window) : State :=
  { s with windows := s.windows.map (fun w => if w.home = home ∧ w.entry = entry then f w else w) }

def vault? (s : State) (launch camp : Nat) : Option VaultWin := s.vaults.find? (fun v => v.launch == launch && v.camp == camp)
def mapVault (s : State) (launch camp : Nat) (f : VaultWin → VaultWin) : State :=
  { s with vaults := s.vaults.map (fun v => if v.launch = launch ∧ v.camp = camp then f v else v) }

def queue? (s : State) (launch camp num : Nat) : Option Queue :=
  s.queues.find? (fun q => q.launch == launch && q.camp == camp && q.num == num)
def mapQueue (s : State) (launch camp num : Nat) (f : Queue → Queue) : State :=
  { s with queues := s.queues.map (fun q => if q.launch = launch ∧ q.camp = camp ∧ q.num = num then f q else q) }

/-- A barrier's endpoint; phase 0 with no arrival when nothing has touched it (R213, R16). -/
def endpoint (s : State) (b : BarId) : Endpoint :=
  (s.strings.find? (fun e => e.bar == b)).getD { bar := b, phase := false, crews := [] }
def setEndpoint (s : State) (e : Endpoint) : State :=
  if s.strings.any (fun d => d.bar == e.bar) then
    { s with strings := s.strings.map (fun d => if d.bar = e.bar then e else d) }
  else { s with strings := s.strings ++ [e] }

/-- The fill mask M_c of a tract (R302): 0xFFFF at reset for classes 0 to 14, 0 for class 15. -/
def fillMask (s : State) (tract cls : Nat) : BitVec 16 :=
  sget (if cls = 15 then 0#16 else 0xFFFF#16) s.masks (16 * tract + cls)
def setFillMask (s : State) (tract cls : Nat) (m : BitVec 16) : State :=
  { s with masks := sput (if cls = 15 then 0#16 else 0xFFFF#16) s.masks (16 * tract + cls) m }

/-- A format range; one that nothing has written is invalid (R387). -/
def range (s : State) (n : Nat) : FormatRange :=
  sget { v := false, store := 0, nelem := 0, fmt := 0, pstored := 0, pdeliv := 0, scaled := false, scale := 0, aliasPa := 0 }
    s.ranges n

/-- A tract's power limit in watts: reset 400 (R397). -/
def powerLimit (s : State) (tract : Nat) : BitVec 16 := sget 400#16 s.power tract

/-- A health prediction: 0xFFFF_FFFF while there is none (R396). -/
def healthOf (s : State) (item : Nat) : BitVec 32 := sget 0xFFFFFFFF#32 s.health item

/-- The reference-clock tick count (R5, R12). -/
def tick (s : State) : Nat := s.now / 8

/-- Marks an access that found no storage; the first one stands. -/
def noStorage (s : State) (pa : Nat) : State :=
  match s.bad with
  | some _ => s
  | none => { s with bad := some pa }

end State

/-- The core a crew is resident on, module-wide (R14); of a crew that is not resident, the first core of its last camp. -/
def Crew.coreOf (c : Crew) : Nat :=
  match c.place with
  | .core n => n
  | _ => 8 * c.home

/-- The camp a crew is in or was last in (R14). -/
def Crew.camp (c : Crew) : Nat := c.coreOf / 8

/-- The tract a crew is in or was last in. -/
def Crew.tract (c : Crew) : Nat := c.coreOf / 64

def Crew.isResident (c : Crew) : Bool :=
  match c.place with
  | .core _ => true
  | _ => false

/-- A launch in which nothing is declared. -/
def Launch.blank : Launch :=
  { id := 0, vf := 0, ctx := 0, tenant := 0, queue := 0, desc := CtxDesc.zero, handle := 0, coop := false, pipe := false
    conf := false, ncrew := 0, camps := 0#64, cores := 0#8, regs := 0, gangs := 0, scratch := 0, psize := 0, privbase := 0
    savebase := 0, savesz := 0, vsize := 0, stbl2 := 0, stbsp := 0, cbar := 0#32, tbar := 0#64, fbar := 0#64, fgroup := 0, decls := [], begun := false
    qcap := [], stages := [], key := 0, aclass := 0, compl := 0, nextCrew := [], retired := 0, halted := 0, haltFirst := none
    status := 0, notified := false, world := false, wkey := 0, pledges := [], done := false }

/-- The launch of a crew. -/
def State.launchOf (s : State) (c : Crew) : Launch := (s.launch? c.launch).getD Launch.blank

/-- The outcome of a meaning: the next state, or a fault where an access found no storage. -/
def finish (s : State) : Host.Outcome State Fault Refusal :=
  match s.bad with
  | none => .next s
  | some pa => .fault (.noStorage pa)

end Sys2Proof.Machine
end

