-- ==== Sys2Proof/Machine/Mmu.lean ====
section
/-!
DEFINITION. Physical memory, L2 and L1, format-range alias windows, protected lines, and the two-stage translation
(R290 to R305, R387, R388, R394).
-/

namespace Sys2Proof.Machine

/-! Physical storage (R300, R301). -/

/-- The tract that a PA's number falls in. -/
def homeTract (pa : Nat) : Nat := pa / 2 ^ 38

/-- Some tract's HBM holds the PA (R301). -/
def hbmHas (pa : Nat) : Bool := decide (homeTract pa < 8) && decide (pa % 2 ^ 38 < 192 * 10 ^ 9)

/-- The home camp of a PA within its tract: the exclusive or of ten 3-bit groups (R300). -/
def homeCamp (pa : Nat) : Nat := (List.range 10).foldl (fun a i => a ^^^ (pa / 2 ^ (22 + 3 * i) % 8)) 0

/-- The home slice and set of a PA (R300). -/
def homeSlice (pa : Nat) : Nat := bits pa 16 12
def homeSet (pa : Nat) : Nat := bits pa 17 17 * 32 + bits pa 11 7

/-- Tract, camp, slice and set as one number: two lines with equal numbers share a set. -/
def homeOf (line : Nat) : Nat :=
  ((homeTract (128 * line) * 8 + homeCamp (128 * line)) * 32 + homeSlice (128 * line)) * 64 + homeSet (128 * line)

/-- The home camp, module-wide. -/
def homeCampOf (line : Nat) : Nat := homeTract (128 * line) * 8 + homeCamp (128 * line)

/-- Bytes of one element delivered through an alias window (R387). -/
def FormatRange.step (r : FormatRange) : Nat := if r.scaled then 4 else 1

/-- The format range whose alias window holds a PA (R387). -/
def aliasAt (s : State) (pa : Nat) : Option FormatRange :=
  (s.ranges.find? (fun e =>
    e.2.aliasPa != 0 && decide (e.2.aliasPa ≤ pa) && decide (pa < e.2.aliasPa + e.2.nelem * e.2.step))).map (·.2)

/-- The stored planes of element `j`, the first `k` of them, plane 0 highest (R43). -/
def planeBits (m : List Host.Cell) (store nelem j : Nat) : Nat → Nat
  | 0 => 0
  | k + 1 => planeBits m store nelem j k * 2 + (peek m (store + k * nelem / 8 + j / 8)).toNat / 2 ^ (j % 8) % 2

/-- The value delivered for element `j` of a `bpn` range: ReconBP, or DequantBP when SCALED (R44, R45, R387). -/
def aliasElem (m : List Host.Cell) (r : FormatRange) (j : Nat) : Nat :=
  let u := planeBits m r.store r.nelem j r.pdeliv * 2 ^ (r.pstored - r.pdeliv)
  if r.scaled then
    dequantBP u r.pstored r.pdeliv (natOfBytes (peekN m (r.scale + 2 * (j / 128)) 2))
  else wrap (reconBP u r.pstored r.pdeliv) 8

/-- The byte an alias window delivers; an invalid range delivers zero (R387). -/
def aliasByte (m : List Host.Cell) (r : FormatRange) (pa : Nat) : Byte :=
  if r.v then BitVec.ofNat 8 (aliasElem m r ((pa - r.aliasPa) / r.step) / 2 ^ (8 * ((pa - r.aliasPa) % r.step)))
  else 0#8

/-- The seal that stands between a viewer (a world's key, or none) and the byte that memory holds (R388). -/
def sealedFor (s : State) (viewer : Option Nat) (pa : Nat) : Option WorldLine :=
  s.worldLines.find? (fun w => w.line == pa / 128 && (viewer != some w.key || w.plain.isSome))

/-- The page version that a line is sealed under now (R388). -/
def pageVersion (s : State) (pa : Nat) : Nat := sget 0 s.versions (pa / 65536)

/-- A line's sealed bytes: they depend on the key, the PA and the page's version (R388). -/
def sealedBytes (w : WorldLine) (version : Nat) : List Byte :=
  (List.range 128).map fun i => Config.sealedByte w.key (128 * w.line + i) version

/-- The bytes that memory holds for a sealed line pass the check under its key and the version that sealed it (R388, R390). -/
def sealIntact (s : State) (w : WorldLine) : Bool :=
  match w.plain with
  | none => true
  | some (v, _) => peekN s.hbm (128 * w.line) 128 == sealedBytes w v

/-- A read through a world's page under its key meets a line whose seal fails (R390). -/
def sealBroken (s : State) (key : Option Nat) (pa : Nat) : Bool :=
  match sealedFor s key pa with
  | some w => key == some w.key && !sealIntact s w
  | none => false

/-- What a line behind a seal reads as at a PA: its plaintext for its own key, else its sealed bytes, or what others have made of
them. -/
def WorldLine.byteAt (s : State) (w : WorldLine) (viewer : Option Nat) (pa : Nat) : Byte :=
  match w.plain with
  | none => Config.sealedByte w.key pa (pageVersion s pa)
  | some (_, bs) => if viewer = some w.key then (if sealIntact s w then bs.getD (pa % 128) 0#8 else 0#8) else peek s.hbm pa

/-- What one physical byte reads as in HBM for a viewer; behind an alias window, what it delivers now. -/
def readRaw (s : State) (viewer : Option Nat) (pa : Nat) : Byte :=
  match aliasAt s pa with
  | some r => aliasByte s.hbm r pa
  | none =>
    match sealedFor s viewer pa with
    | some w => w.byteAt s viewer pa
    | none => peek s.hbm pa

/-- What one physical byte reads as for a viewer: a world's key, or none. A line of an alias window that L2 holds stays as it was decoded
(R304). -/
def readByte (s : State) (viewer : Option Nat) (pa : Nat) : Byte :=
  match s.l2.find? (fun l => l.line == pa / 128 && !l.bytes.isEmpty) with
  | some l => if (aliasAt s pa).isSome then l.bytes.getD (pa % 128) 0#8 else readRaw s viewer pa
  | none => readRaw s viewer pa

/-- Physical bytes. -/
def readBytes (s : State) (viewer : Option Nat) (pas : List Nat) : List Byte := pas.map (readByte s viewer)

/-- Notes an access to a PA without storage (R301). -/
def touch (s : State) : List Nat → State
  | [] => s
  | pa :: t => if hbmHas pa || (aliasAt s pa).isSome then touch s t else s.noStorage pa

/-- The page's next version (R388). -/
def bumpVersion (s : State) (line : Nat) : State :=
  { s with versions := sput 0 s.versions (128 * line / 65536) (sget 0 s.versions (128 * line / 65536) + 1) }

/-- A dirty line of a world that leaves its way is sealed and written back under the page's next version (R388). -/
def writeBack (s : State) (l : L2Line) : State := if l.dirty && l.world.isSome then bumpVersion s l.line else s

/-- Removes a line from L2, writing it back when dirty. -/
def l2Drop (s : State) (line : Nat) : State :=
  match s.l2.find? (fun l => l.line == line) with
  | some l => { writeBack s l with l2 := s.l2.filter (fun x => x.line != line) }
  | none => s

/-- Gives a line another seal, or none. -/
def resealLine (s : State) (line : Nat) (w : Option WorldLine) : State :=
  { s with worldLines := s.worldLines.filter (fun x => x.line != line) ++ w.toList }

/-- A world's line leaves for HBM: its sealed bytes stand there (R388). -/
def sealLine (s : State) (w : WorldLine) : State :=
  match w.plain with
  | some _ => s
  | none =>
    let s1 := l2Drop s w.line
    let v := pageVersion s1 (128 * w.line)
    { resealLine s1 w.line (some { w with plain := some (v, peekN s.hbm (128 * w.line) 128) }) with
      hbm := pokeN s1.hbm (128 * w.line) (sealedBytes w v) }

/-- Writes one physical byte for a viewer (R388). A world's write makes its line the world's, under its key; another's write finds the
line's bytes sealed. A line whose seal fails is written by no world of its key. -/
def writeByte (s : State) (viewer : Option (Nat × Nat)) (pa : Nat) (b : Byte) : State :=
  if hbmHas pa then
    match sealedFor s (viewer.map (·.2)) pa with
    | none =>
      let s1 := match viewer with
        | some (_, k) =>
          if s.worldLines.any (fun w => w.line == pa / 128) then s
          else resealLine s (pa / 128) (some { line := pa / 128, key := k, plain := none })
        | none => s
      { s1 with hbm := poke s1.hbm pa b }
    | some w =>
      if viewer.map (·.2) = some w.key then
        if sealIntact s w then
          { resealLine s w.line (some { w with plain := none }) with
            hbm := poke (pokeN s.hbm (128 * w.line) ((w.plain.map (·.2)).getD [])) pa b }
        else s
      else
        let s1 := sealLine s w
        let s2 := match viewer with
          | some (_, k) => resealLine s1 w.line (some { line := w.line, key := k, plain := none })
          | none => s1
        { s2 with hbm := poke s2.hbm pa b }
  else s.noStorage pa

/-- Writes bytes at a list of PAs. -/
def writeBytes (s : State) (viewer : Option (Nat × Nat)) : List Nat → List Byte → State
  | pa :: pas, b :: bs => writeBytes (writeByte s viewer pa b) viewer pas bs
  | _, _ => s

/-- PAs `pa` to `pa + n - 1`. -/
def paRange (pa n : Nat) : List Nat := (List.range n).map (pa + ·)

/-! L2 and L1 (R299 to R304). -/

/-- The ways that a fill by a class may take (R302). -/
def effectiveMask (s : State) (line cls : Nat) : BitVec 16 :=
  let t := homeTract (128 * line)
  if cls = 15 then s.fillMask t 15 else s.fillMask t cls &&& ~~~(s.fillMask t 15)

/-- The way a fill takes: the lowest invalid way within the mask, else the least recent way within it (R302). -/
def fillWay (s : State) (line cls : Nat) : Option Nat :=
  let m := effectiveMask s line cls
  let inSet := s.l2.filter (fun l => homeOf l.line == homeOf line)
  let ways := (List.range 16).filter (fun w => m.getLsbD w)
  match ways.find? (fun w => !(inSet.any (fun l => l.way == w))) with
  | some w => some w
  | none => (inSet.reverse.find? (fun l => m.getLsbD l.way)).map (·.way)

/-- Counts a lookup under a class at the line's home camp (R303). -/
def countLookup (s : State) (line cls : Nat) (hit : Bool) : State :=
  let k := 16 * homeCampOf line + cls
  if hit then { s with hits := sput 0#32 s.hits k (sget 0#32 s.hits k + 1#32) }
  else { s with misses := sput 0#32 s.misses k (sget 0#32 s.misses k + 1#32) }

/-- What a line holds, with its seal, before a world's store makes it dirty (R390). -/
def undoOf (s : State) (line : Nat) (dirty : Bool) (world : Option Nat) : Option (Option WorldLine × List Byte) :=
  if dirty && world.isSome then some (s.worldLines.find? (fun w => w.line == line), peekN s.hbm (128 * line) 128) else none

/-- Fills a line into L2 under a class; with an empty effective mask nothing is allocated, and a world's store is sealed to HBM as it
passes (R302, R388). Alias lines are filled decoded (R304). -/
def fillL2 (s : State) (line cls : Nat) (lru dirty : Bool) (world : Option Nat) : State :=
  match fillWay s line cls with
  | none => if dirty && world.isSome then bumpVersion s line else s
  | some w =>
    let victim := s.l2.find? (fun l => homeOf l.line == homeOf line && l.way == w)
    let s1 := match victim with
      | some v => { writeBack s v with l2 := s.l2.filter (fun l => !(l == v)) }
      | none => s
    let dec := match aliasAt s (128 * line) with
      | some r => (paRange (128 * line) 128).map (aliasByte s.hbm r)
      | none => []
    let l : L2Line := { line := line, way := w, cls := cls, dirty := dirty, world := world, bytes := dec, under := undoOf s line dirty world }
    if lru then { s1 with l2 := s1.l2 ++ [l] } else { s1 with l2 := l :: s1.l2 }

/-- One access to a line of L2: a hit makes it most recent, a miss fills it; a lookup is counted under the class `counted` (R302, R303).
A world's line leaves its way, sealed, for an access from outside the world (R388). -/
def accessL2 (s : State) (line cls : Nat) (lru dirty : Bool) (counted : Option Nat) (world : Option Nat) : State :=
  let count := fun (hit : Bool) => match counted with
    | some k => countLookup s line k hit
    | none => s
  match s.l2.find? (fun l => l.line == line) with
  | some l =>
    let s1 := count true
    if l.world.isSome && l.world != world then fillL2 (l2Drop s1 line) line cls lru dirty world
    else { s1 with l2 := { l with dirty := l.dirty || dirty
                                  under := if l.dirty then l.under else undoOf s line dirty l.world } ::
                      s.l2.filter (fun x => x.line != line) }
  | none => fillL2 (count false) line cls lru dirty world

/-- The lines that hold a list of PAs. -/
def linesOf (pas : List Nat) : List Nat := (pas.map (· / 128)).eraseDups

/-- A core's L1 holds the line. -/
def l1Has (s : State) (core line : Nat) : Bool := s.l1.any (fun e => e == (core, line))

/-- Allocates a line in a core's L1, which holds 1,024 lines (R11, R299). -/
def l1Add (s : State) (core line : Nat) : State :=
  { s with l1 := (core, line) :: ((s.l1.filter (fun e => e.1 == core && e != (core, line))).take 1023
      ++ s.l1.filter (fun e => e.1 != core)) }

/-- Removes a line from every L1 of the module (R301). -/
def l1Drop (s : State) (line : Nat) : State := { s with l1 := s.l1.filter (fun e => e.2 != line) }

/-! Translation (R291 to R294). -/

/-- OA: address bits [51:15] (R292). -/
def oa (e : Nat) : Nat := bits e 51 15 * 2 ^ 15

/-- A stage-1 entry that breaks R292 at a level. -/
def malformed1 (e lvl : Nat) : Bool :=
  bits e 63 52 != 0 || bits e 14 11 != 0 || bit e 2 || bit e 15 || (lvl == 1 && !bit e 1) || (lvl == 3 && bit e 1) ||
  (!bit e 1 && bits e 9 8 == 3) || (lvl == 2 && !bit e 1 && bits e 28 15 != 0)

/-- A stage-2 entry that breaks R292 at a level. What a table entry holds in the fields that restrict nothing is ignored. -/
def malformed2 (e lvl : Nat) : Bool :=
  bits e 63 52 != 0 || bits e 14 11 != 0 || bit e 2 || (!bit e 1 && bits e 10 6 != 0) || (lvl == 1 && !bit e 1) ||
  (lvl == 3 && bit e 1) || (!bit e 1 && bit e 15) || (lvl == 2 && !bit e 1 && bits e 27 15 != 0)

/-- TDET0 of causes 0x20 to 0x22 (R293). -/
def tdetOf (acc lvl stg mal nc perm : Nat) : Nat := acc + lvl * 4 + stg * 16 + mal * 32 + nc * 64 + perm * 128

/-- The permissions an access lacks in a leaf: R 1, W 2, X 4, PRIV 8 (R292, R293). -/
def lacking (e acc : Nat) (user : Bool) : Nat :=
  (if (acc == 0 || acc == 2) && !bit e 3 then 1 else 0) + (if (acc == 1 || acc == 2) && !bit e 4 then 2 else 0) +
  (if acc == 3 && !bit e 5 then 4 else 0) + (if user && bit e 6 then 8 else 0)

/-- One 8-byte read by the walker, through L2 under the context's class, unless a walk cache holds the entry (R294, R297). -/
def walkRead (s : State) (k : WalkKey) (cls pa : Nat) : State × Nat :=
  match s.walks.find? fun x => x.held && x.key == k && x.pa == pa with
  | some x => (s, x.value)
  | none =>
    let v := natOfBytes (readBytes s none (paRange pa 8))
    ({ accessL2 (touch s [pa]) (pa / 128) cls false false none none with
       walks := { key := k, pa := pa, value := v, held := false } :: s.walks.filter fun x => !(x.key == k && x.pa == pa) }, v)

/-- The key of a walk's read of the entry that covers an address. -/
def walkKey (vf : Nat) (ctx : Option Nat) (a span : Nat) : WalkKey := { vf := vf, ctx := ctx, base := a / span * span, size := span }

/-- How a stage-2 walk ends: the leaf, its level and the PA; or malformed at a level; or V = 0 at a level. -/
inductive Stage2 where
  | ok (e lvl pa : Nat)
  | mal (lvl : Nat)
  | miss (lvl : Nat)
  deriving DecidableEq, Repr

/-- Stage 2: GPA to PA (R291). For the PF the GPA is the PA. -/
def stage2 (s : State) (vf cls gpa : Nat) : State × Stage2 :=
  if vf = 0 then (s, .ok 0x39 0 gpa) else
  let r1 := walkRead s (walkKey vf none gpa (2 ^ 40)) cls ((s.func vf).s2root + 8 * (gpa / 2 ^ 40 % 4096))
  if !bit r1.2 0 then (r1.1, .miss 1)
  else if malformed2 r1.2 1 then (r1.1, .mal 1)
  else
    let r2 := walkRead r1.1 (walkKey vf none gpa (2 ^ 28)) cls (oa r1.2 + 8 * (gpa / 2 ^ 28 % 4096))
    if !bit r2.2 0 then (r2.1, .miss 2)
    else if malformed2 r2.2 2 then (r2.1, .mal 2)
    else if !bit r2.2 1 then (r2.1, .ok r2.2 2 (oa r2.2 + gpa % 2 ^ 28))
    else
      let r3 := walkRead r2.1 (walkKey vf none gpa (2 ^ 16)) cls (oa r2.2 + 8 * (gpa / 2 ^ 16 % 4096))
      if !bit r3.2 0 then (r3.1, .miss 3)
      else if malformed2 r3.2 3 then (r3.1, .mal 3)
      else (r3.1, .ok r3.2 3 (oa r3.2 + gpa % 2 ^ 16))

/-- How a translation ends: a leaf; a fault with its cause and TDET0; or a stage-2 miss on a 64 KiB GPA page. -/
inductive Xlat where
  | ok (l : Leaf)
  | fault (cause tdet0 : Nat)
  | miss (gpa lvl : Nat)
  deriving DecidableEq, Repr

/-- One step of the stage-1 walk: reads the entry at a GPA through stage 2 (R294). -/
def walkEntry (s : State) (k : WalkKey) (vf cls acc gpa : Nat) : State × (Nat ⊕ Xlat) :=
  match stage2 s vf cls gpa with
  | (s1, .miss lvl) => (s1, .inr (.miss (gpa / 65536) lvl))
  | (s1, .mal lvl) => (s1, .inr (.fault 0x21 (tdetOf acc lvl 1 1 0 0)))
  | (s1, .ok e lvl pa) =>
    if bit e 3 then
      let r := walkRead s1 k cls pa
      (r.1, .inl r.2)
    else (s1, .inr (.fault 0x22 (tdetOf acc lvl 1 0 0 1)))

/-- Installs a translation in a holder's TLB (R297). -/
def tlbAdd (s : State) (t : TlbEntry) : State :=
  { s with tlbs := t :: s.tlbs.filter (fun x => !(x.holder == t.holder && x.vf == t.vf && x.ctx == t.ctx && x.root == t.root && x.vpage == t.vpage)) }

/-- The result of a translation held as a TLB entry, for an access. Stage-1 permissions are tested before stage 2's. -/
def permit (t : TlbEntry) (user : Bool) (acc va : Nat) : Xlat :=
  if lacking t.s1 acc user != 0 then .fault 0x22 (tdetOf acc t.lvl1 0 0 0 (lacking t.s1 acc user))
  else if lacking t.s2 acc false != 0 then .fault 0x22 (tdetOf acc t.lvl2 1 0 0 (lacking t.s2 acc false))
  else .ok { pa := t.pa * 65536 + va % 65536, gpa := t.gpa * 65536 + va % 65536, cp := bits t.s1 9 8, ms := bit t.s1 7,
             prot := bit t.s1 10, lvl := t.lvl1 }

/-- After the stage-1 leaf: its permissions, then stage 2 of the GPA it names, and the TLB entry. -/
def walkLeaf (s : State) (holder vf ctx root cls : Nat) (user : Bool) (acc va e lvl gpa : Nat) : State × Xlat :=
  if lacking e acc user != 0 then (s, .fault 0x22 (tdetOf acc lvl 0 0 0 (lacking e acc user)))
  else
    match stage2 s vf cls gpa with
    | (s1, .miss l2) => (s1, .miss (gpa / 65536) l2)
    | (s1, .mal l2) => (s1, .fault 0x21 (tdetOf acc l2 1 1 0 0))
    | (s1, .ok e2 l2 pa) =>
      let t : TlbEntry :=
        { holder := holder, vf := vf, ctx := ctx, root := root, vpage := va / 65536, gpa := gpa / 65536, pa := pa / 65536, s1 := e,
          lvl1 := lvl, s2 := e2, lvl2 := l2 }
      (tlbAdd s1 t, permit t user acc va)

/-- The two-stage walk (R291 to R294). -/
def walk (s : State) (holder vf ctx root cls : Nat) (user : Bool) (acc va : Nat) : State × Xlat :=
  match walkEntry s (walkKey vf (some ctx) va (2 ^ 42)) vf cls acc (root + 8 * (va / 2 ^ 42 % 8192)) with
  | (s1, .inr x) => (s1, x)
  | (s1, .inl e1) =>
    if !bit e1 0 then (s1, .fault 0x20 (tdetOf acc 1 0 0 0 0))
    else if malformed1 e1 1 then (s1, .fault 0x20 (tdetOf acc 1 0 1 0 0))
    else
      match walkEntry s1 (walkKey vf (some ctx) va (2 ^ 29)) vf cls acc (oa e1 + 8 * (va / 2 ^ 29 % 8192)) with
      | (s2, .inr x) => (s2, x)
      | (s2, .inl e2) =>
        if !bit e2 0 then (s2, .fault 0x20 (tdetOf acc 2 0 0 0 0))
        else if malformed1 e2 2 then (s2, .fault 0x20 (tdetOf acc 2 0 1 0 0))
        else if !bit e2 1 then walkLeaf s2 holder vf ctx root cls user acc va e2 2 (oa e2 + va % 2 ^ 29)
        else
          match walkEntry s2 (walkKey vf (some ctx) va (2 ^ 16)) vf cls acc (oa e2 + 8 * (va / 2 ^ 16 % 8192)) with
          | (s3, .inr x) => (s3, x)
          | (s3, .inl e3) =>
            if !bit e3 0 then (s3, .fault 0x20 (tdetOf acc 3 0 0 0 0))
            else if malformed1 e3 3 then (s3, .fault 0x20 (tdetOf acc 3 0 1 0 0))
            else walkLeaf s3 holder vf ctx root cls user acc va e3 3 (oa e3 + va % 2 ^ 16)

/-- Who translates: the TLB's holder, the context with its stage-1 root and class, whether the access is a user lane's, and the
world it belongs to (R388). -/
structure Who where
  holder : Nat
  vf : Nat
  ctx : Nat
  root : Nat
  cls : Nat
  user : Bool
  world : Option (Nat × Nat)
  /-- a device's or privileged lane's write may reach sealed pages (R362) -/
  mayPatch : Bool
  /-- a stage-2 miss may become a page request (R295) -/
  pri : Bool
  deriving DecidableEq, Repr

/-- The PA stands in a page that is pending admission, or sealed (R337, R362). -/
def pageSealed (s : State) (pa : Nat) (pending : Bool) : Bool :=
  s.seals.any (fun p => p.pa == pa / 65536 && p.pending == pending)

/-- The rules of a translated access beyond its leaf: stores to a format-range alias window (R293), to a page pending admission
(R337) or, from user code, to a sealed page (R362), and accesses to a protected page from outside its world (R388), fault with
cause 0x22. -/
def guardPage (s : State) (w : Who) (acc : Nat) (l : Leaf) : Xlat :=
  if (acc == 1 || acc == 2) && (aliasAt s l.pa).isSome then .fault 0x22 (tdetOf acc l.lvl 0 0 0 2)
  else if (acc == 1 || acc == 2) && (pageSealed s l.pa true || (!w.mayPatch && pageSealed s l.pa false)) then
    .fault 0x22 (tdetOf acc l.lvl 0 0 0 2)
  else if l.prot && w.world.isNone then .fault 0x22 (tdetOf acc l.lvl 0 0 0 (if acc == 1 || acc == 2 then 2 else 1))
  else .ok l

/-- Translates one byte's VA for an access: 0 load, 1 store, 2 atomic, 3 fetch (R290, R293, R297). -/
def translate (s : State) (w : Who) (acc va : Nat) : State × Xlat :=
  if va ≥ 2 ^ 55 then (s, .fault 0x20 (tdetOf acc 0 0 0 1 0))
  else
    let r := match s.tlbs.find? (fun t => t.holder == w.holder && t.vf == w.vf && t.ctx == w.ctx && t.root == w.root && t.vpage == va / 65536) with
      | some t => (s, permit t w.user acc va)
      | none => walk s w.holder w.vf w.ctx w.root w.cls w.user acc va
    match r with
    | (s1, .ok l) => (s1, guardPage s1 w acc l)
    | x => x

/-- Translates `n` bytes from a VA: the PAs and the last leaf, or the first byte that fails and how. -/
def translateN (s : State) (w : Who) (acc va : Nat) : Nat → State × (List Leaf ⊕ (Nat × Xlat))
  | 0 => (s, .inl [])
  | n + 1 =>
    match translate s w acc va with
    | (s1, .ok l) =>
      match translateN s1 w acc (va + 1) n with
      | (s2, .inl ls) => (s2, .inl (l :: ls))
      | r => r
    | (s1, x) => (s1, .inr (va, x))

/-- Logs a VF's write to a GPA page in its dirty log (R394). -/
def logDirty (s : State) (vf gpa : Nat) : State :=
  let f := s.func vf
  if vf = 0 || !f.logEn || f.logAll then s
  else
    let n := 512 * 2 ^ (f.logbase.toNat % 16)
    if f.logSince ≥ n then s.mapFunc vf (fun f => { f with logOvf := true, logAll := true })
    else
      let a := bits f.logbase.toNat 51 12 * 4096 + 8 * (f.logprod.toNat % n)
      let s1 := writeBytes s none (paRange a 8) (bytesOf 8 (gpa / 65536 * 65536))
      s1.mapFunc vf (fun f => { f with logprod := f.logprod + 1#32, logSince := f.logSince + 1 })

/-- The world that an access through a leaf belongs to: only pages with PROT = 1 are a world's (R388). -/
def Who.through (w : Who) (prot : Bool) : Option (Nat × Nat) := if prot then w.world else none

/-- Reads a byte through its leaf: from HBM through a page with CP = 2 (R299). -/
def readLeaf (s : State) (w : Who) (l : Leaf) : Byte :=
  let viewer := (w.through l.prot).map (·.2)
  if l.cp = 2 then readRaw s viewer l.pa else readByte s viewer l.pa

/-- An access through a leaf meets a line of the accessor's world whose seal fails: it gets no data, and the world is to be torn down
(R390). -/
def leafBroken (s : State) (w : Who) (l : Leaf) : Bool := sealBroken s ((w.through l.prot).map (·.2)) l.pa

/-- Reads bytes through their leaves. -/
def readLeaves (s : State) (w : Who) (ls : List Leaf) : List Byte := ls.map (readLeaf s w)

/-- Writes bytes through their leaves. A world's stores go through L2, as its lines may (R388). -/
def writeLeaves (s : State) (w : Who) : List Leaf → List Byte → State
  | l :: ls, b :: bs =>
    let x := w.through l.prot
    let s1 := if x.isSome && l.cp != 2 then accessL2 s (l.pa / 128) 15 false true none (x.map (·.1)) else s
    writeLeaves (writeByte s1 x l.pa b) w ls bs
  | _, _ => s

/-- The device's own write of bytes at a VA of a context: translated byte by byte, logged, with every L1 copy invalidated.
`none` where some byte does not translate; then nothing is written. -/
def deviceWrite (s : State) (w : Who) (va : Nat) (bs : List Byte) : Option State :=
  match translateN s w 1 va bs.length with
  | (s1, .inl ls) =>
    if ls.any (leafBroken s1 w) then none else
    let s2 := (((ls.map fun l => l.gpa / 65536).eraseDups).foldl (fun s p => logDirty s w.vf (p * 65536)) s1)
    let s3 := writeLeaves s2 w ls bs
    some ((linesOf (ls.map (·.pa))).foldl (fun s l => l1Drop s l) s3)
  | _ => none

/-- The device's own read of `n` bytes at a VA of a context. -/
def deviceRead (s : State) (w : Who) (va n : Nat) : Option (List Byte) :=
  match translateN s w 0 va n with
  | (s1, .inl ls) => if ls.any (leafBroken s1 w) then none else some (readLeaves s1 w ls)
  | _ => none

end Sys2Proof.Machine
end

