-- ==== Sys2Proof/Machine/Ops.lean ====
section
/-!
DEFINITION. The named operations of the machine: the block table and legal targets, the frontier, the trap ring, taking a trap
and returning from one (R82 to R103, R329 to R332).
-/

namespace Sys2Proof.Machine

/-! PC values and the block table (R82, R87, R95, R363). -/

/-- The line of a PC value. -/
def pcLine (pc : Pc) : Nat := pc.toNat / 64 * 64

/-- The slot of a PC value. -/
def pcSlot (pc : Pc) : Nat := pc.toNat % 8

/-- The next slot in sequence (R51). -/
def pcNext (pc : Pc) : Pc := if pcSlot pc < 4 then pc + 1#64 else BitVec.ofNat 64 (pcLine pc + 64)

/-- Reserved bits zero and a slot below 5 (R82). -/
def pcValid (pc : Pc) : Bool := decide (pc.toNat < 2 ^ 55) && bits pc.toNat 5 3 == 0 && decide (pcSlot pc < 5)

/-- The target of a format-B branch: signed line offset from the line that holds it, and slot (R62). -/
def pcTarget (pc : Pc) (t : Target) : Pc := BitVec.ofNat 64 (wrap ((pcLine pc : Int) + 64 * t.offset.toInt) 64 + t.slot.val)

/-- The sealed page of a context that holds a VA (R361). -/
def sealAt (s : State) (vf ctx va : Nat) : Option SealPage :=
  s.seals.find? (fun p => p.vf == vf && p.ctx == ctx && p.vpage == va / 65536 && !p.pending)

/-- The image whose sealed code holds a PC. -/
def imageAt (s : State) (vf ctx : Nat) (pc : Pc) : Option Image :=
  match sealAt s vf ctx (pcLine pc) with
  | some p => if p.code then s.image? p.handle else none
  | none => none

/-- The block that begins at a PC (R363). -/
def blockAt (s : State) (vf ctx : Nat) (pc : Pc) : Option Block :=
  match imageAt s vf ctx pc with
  | some i => i.blocks.find? (fun b => b.pc == pc)
  | none => none

/-- The priority of the block that contains a PC (R87); 0 where none does. -/
def prioOf (s : State) (vf ctx : Nat) (pc : Pc) : Nat :=
  match imageAt s vf ctx pc with
  | some i => (i.blocks.foldl (fun (a : Nat × Nat) b =>
      if decide (b.pc.toNat ≤ pc.toNat) && decide (a.1 ≤ b.pc.toNat) then (b.pc.toNat, b.prio) else a) (0, 0)).2
  | none => 0

/-- The priority after moving to a PC: the block's that begins there, otherwise the one held before (R87, R89). -/
def prioEnter (s : State) (vf ctx : Nat) (pc : Pc) (old : Nat) : Nat :=
  match blockAt s vf ctx pc with
  | some b => b.prio
  | none => old

/-- The TGT bit of a slot, as the line stands in memory (R51, R363). -/
def tgtBit (s : State) (vf ctx : Nat) (pc : Pc) : Bool :=
  match sealAt s vf ctx (pcLine pc) with
  | some p => (peek s.hbm (p.pa * 65536 + pcLine pc % 65536 + 60)).getLsbD (pcSlot pc)
  | none => false

/-- A PC lies in sealed code of a mode. -/
def codeOf (s : State) (vf ctx : Nat) (mode : Mode) (pc : Pc) : Bool :=
  pcValid pc && (match sealAt s vf ctx (pcLine pc) with
    | some p => p.code && p.mode == mode
    | none => false)

/-- A legal target for a lane of a mode (R95, R363). -/
def legalTarget (s : State) (vf ctx : Nat) (mode : Mode) (pc : Pc) : Bool :=
  codeOf s vf ctx mode pc && tgtBit s vf ctx pc && (blockAt s vf ctx pc).isSome

/-! The frontier (R87 to R91). -/

/-- Adds a group of lanes: it merges into an entry at its PC, or forms one (R90). A busy entry has not finished its instruction
and takes no part. -/
def addEntry (e : Entry) : List Entry → List Entry
  | [] => if e.mask = 0#32 then [] else [e]
  | x :: xs =>
    if e.mask = 0#32 then x :: xs
    else if x.pc = e.pc ∧ x.band = e.band ∧ x.busy = false ∧ e.busy = false then { x with mask := x.mask ||| e.mask } :: xs
    else x :: addEntry e xs

/-- Adds several groups. -/
def addEntries (es fr : List Entry) : List Entry := es.foldl (fun fr e => addEntry e fr) fr

/-- Removes lanes from every entry; an entry whose last lane leaves is removed (R91). -/
def dropLanes (m : LaneMask) (fr : List Entry) : List Entry :=
  (fr.map (fun e => { e with mask := e.mask &&& ~~~m })).filter (fun e => e.mask != 0#32)

/-- The highest band in the frontier (R99). -/
def topBand (fr : List Entry) : Nat := fr.foldl (fun b e => max b e.band) 0

/-- The first entry has the higher key of two of one band (R87). -/
def Entry.above (a b : Entry) : Bool := decide (b.prio < a.prio) || (a.prio == b.prio && decide (a.pc.toNat < b.pc.toNat))

/-- The entry to issue from: the highest key among the top band's entries that are not blocked (R88, R99). -/
def pickEntry (fr : List Entry) : Option Entry :=
  (fr.filter (fun e => e.band == topBand fr && !e.busy)).foldl
    (fun best e => match best with
      | none => some e
      | some b => if e.above b then some e else some b) none

/-- Puts the entry to issue at the head of the frontier (R88). -/
def chooseEntry (g : Gang) : Option Gang :=
  let headOk := match g.frontier with
    | e :: _ => g.chosen && !e.busy && e.band == topBand g.frontier
    | [] => false
  if headOk then some g
  else match pickEntry g.frontier with
    | some e => some { g with frontier := e :: g.frontier.filter (fun x => !(x == e)), chosen := true, paired := false }
    | none => none

/-- The end of a switch point (R64, R88): the issuing entry gives way to groups, latches die, the gang chooses again. -/
def regroup (g : Gang) (es : List Entry) : Gang :=
  { g with frontier := addEntries es g.frontier.tail, chosen := false, paired := false, latchLive := 0#8, latches := [] }

/-- The end of an instruction that is no switch point: the entry moves to the next slot, merges there unless the instruction
issued as the first of a pair, and keeps issuing (R67, R88, R90). -/
def advance (g : Gang) (e : Entry) (prio : Nat) (pair : Bool) : Gang :=
  let e' := { e with pc := pcNext e.pc, prio := prio }
  let rest := g.frontier.tail
  if pair then { g with frontier := e' :: rest, paired := true }
  else
    let same := rest.filter (fun x => x.pc == e'.pc && x.band == e'.band && !x.busy)
    { g with
      frontier := { e' with mask := same.foldl (fun m x => m ||| x.mask) e'.mask } ::
        rest.filter (fun x => !(x.pc == e'.pc && x.band == e'.band && !x.busy))
      paired := false }

/-- A gang is fully reconverged (R94). -/
def reconverged (g : Gang) : Bool :=
  g.frontier.length == 1 && g.inRun .held == 0#32 &&
    g.lanes.all (fun l => l.run != .active || l.depth == 0)

/-! The trap ring (R329 to R332). -/

/-- Whose ring a record goes to: context, tenant, stage-1 root and class. -/
structure Ring where
  vf : Nat
  ctx : Nat
  tenant : Nat
  root : Nat
  cls : Nat
  holder : Nat
  deriving DecidableEq, Repr

/-- The device as a writer or reader in a context. -/
def Ring.who (r : Ring) : Who :=
  { holder := r.holder, vf := r.vf, ctx := r.ctx, root := r.root, cls := r.cls, user := false, world := none, mayPatch := true
    pri := false }

/-- The fields of a PC value; reserved bits are not stored (R6, R82). -/
def pcFields (v : Nat) : BitVec 64 := BitVec.ofNat 64 (bits v 54 6 * 64 + bits v 2 0)

/-- The 64 bytes of a record (R331). -/
def recordBytes (r : Ring) (tick : Nat) (x : Record) : List Byte :=
  bytesOf 4 (x.cause + x.sev * 2 ^ 8 + r.vf * 2 ^ 16) ++ bytesOf 4 (r.ctx + r.tenant * 2 ^ 16) ++
  bytesOf 4 (x.core + x.gang * 2 ^ 9) ++ bytesOf 4 x.lanes.toNat ++ bytesOf 8 (pcFields x.pc.toNat).toNat ++ bytesOf 8 x.addr ++
  bytesOf 4 x.region.toNat ++ bytesOf 4 0 ++ (x.scnt.map (BitVec.ofNat 8)) ++ bytesOf 4 x.det0 ++ bytesOf 4 x.det1 ++
  bytesOf 8 tick

/-- BASE of a context's ring as a VA; 0 = no ring (R329). -/
def ringBase (c : Ctx) : Nat := c.ringBase.toNat * 4096

/-- Records the ring holds (R329). -/
def ringLen (c : Ctx) : Nat := 64 * 2 ^ c.ringSz.toNat

/-- The records that a ring has room for; none where records are not kept: no ring, or one whose header does not translate (R329, R330). -/
def ringSpace (s : State) (r : Ring) : Option Nat :=
  let c := s.ctxAt r.vf r.ctx
  if ringBase c = 0 then none
  else (deviceRead s r.who (ringBase c) 8).map fun bs =>
    ringLen c - (natOfBytes (bs.take 4) + 2 ^ 32 - natOfBytes (bs.drop 4)) % 2 ^ 32

/-- The ring has room for `n` records, or none is kept (R330). -/
def ringRoom (s : State) (r : Ring) (n : Nat) : Bool :=
  match ringSpace s r with
  | some m => decide (n ≤ m)
  | none => true

/-- Sets FULL in the ring's header (R330). -/
def ringFull (s : State) (r : Ring) : State :=
  let c := s.ctxAt r.vf r.ctx
  match deviceRead s r.who (ringBase c + 8) 4 with
  | some bs => (deviceWrite s r.who (ringBase c + 8) (bytesOf 4 (natOfBytes bs ||| 1))).getD s
  | none => s

/-- Writes the bytes of a record, then advances PROD (R330). With no ring, or one that does not translate, the record is lost. -/
def putRecord (s : State) (r : Ring) (x : List Byte) : State :=
  let c := s.ctxAt r.vf r.ctx
  if ringBase c = 0 then s
  else match deviceRead s r.who (ringBase c) 4 with
    | some bs =>
      let i := natOfBytes bs
      match deviceWrite s r.who (ringBase c + 64 + 64 * (i % ringLen c)) x with
      | some s1 => (deviceWrite s1 r.who (ringBase c) (bytesOf 4 ((i + 1) % 2 ^ 32))).getD s1
      | none => s
    | none => s

/-- Writes one record of a context to its ring. -/
def writeRecord (s : State) (r : Ring) (x : Record) : State := putRecord s r (recordBytes r s.tick x)

def writeRecords (s : State) (r : Ring) (xs : List Record) : State := xs.foldl (fun s x => writeRecord s r x) s

/-- Adds to LOST for records whose producer was terminated while it waited (R330). -/
def ringLost (s : State) (r : Ring) (n : Nat) : State :=
  let c := s.ctxAt r.vf r.ctx
  if n = 0 || ringBase c = 0 then s
  else match deviceRead s r.who (ringBase c + 12) 4 with
    | some bs => (deviceWrite s r.who (ringBase c + 12) (bytesOf 4 ((natOfBytes bs + n) % 2 ^ 32))).getD s
    | none => s

/-- The ring of a crew's context. -/
def Crew.ring (s : State) (c : Crew) : Ring :=
  let l := s.launchOf c
  { vf := l.vf, ctx := l.ctx, tenant := l.tenant, root := l.desc.s1root, cls := l.desc.cls, holder := 512 + c.camp }

/-- A crew's lane as a translator (R291, R292, R388). -/
def Crew.who (s : State) (c : Crew) (mode : Mode) : Who :=
  let l := s.launchOf c
  { holder := c.coreOf, vf := l.vf, ctx := l.ctx, root := l.desc.s1root, cls := l.desc.cls, user := mode == .user
    world := if l.world then some (l.id, l.wkey) else none, mayPatch := mode != .user, pri := true }

/-- The engines of a crew's camp as translators on its behalf (R193). -/
def Crew.engine (s : State) (c : Crew) : Who :=
  { Crew.who s c .user with holder := 512 + c.camp, user := true }

/-- The class under which an access of a crew fills L2: 15 for a line of a protected world (R302, R388). -/
def fillClass (s : State) (c : Crew) (prot : Bool) : Nat := if prot then 15 else (s.launchOf c).desc.cls

/-- The world that a line filled by an access of a crew belongs to (R388). -/
def fillWorld (c : Crew) (prot : Bool) : Option Nat := if prot then some c.launch else none

/-- A record about lanes of a gang, with the counters of the lowest-numbered one (R331). -/
def laneRecord (c : Crew) (k : Nat) (cause sev : Nat) (lanes : LaneMask) (pc : Pc) (addr det0 det1 : Nat) : Record :=
  let g := c.gang k
  { cause := cause, sev := sev, core := c.coreOf, gang := k, lanes := lanes, pc := pc, addr := addr, region := g.regioncnt
    scnt := if lanes = 0#32 then List.replicate 8 0 else (g.lane (lowest lanes)).scnt, det0 := det0, det1 := det1 }

/-- Marks a producer that waits for room and will raise its record again, and sets FULL (R330). -/
def ringStall (s : State) (r : Ring) (crew : Nat) (gang : Option Nat) : State :=
  let w : RingWait := { vf := r.vf, ctx := r.ctx, crew := crew, gang := gang }
  { ringFull s r with ringWait := s.ringWait ++ (if s.ringWait.any (· == w) then [] else [w]) }

/-- The unit that waits for what its record brings about: an engine, numbered as in `Joiner.engine`, or 3 with the number of an operation. -/
def Fate.subject : Fate → Option (Nat × Nat)
  | .notice => none
  | .die what n => some (what, n)
  | .fault e => some (1, e)
  | .failed op => some (3, op)
  | .stop chan _ => some (0, chan)

/-- A unit of a crew stalls until its record is written (R330). -/
def owing (s : State) (crew what n : Nat) : Bool := s.ringWait.any fun w => w.crew == crew && w.fate.subject == some (what, n)

/-- Writes the records of a producer that find room; once all are written `done` follows, else the producer waits with the rest (R330). -/
def giveRecords (s : State) (r : Ring) (crew : Nat) (gang : Option Nat) (fate : Fate) (recs : List Record) (done : State → State) : State :=
  let m := (ringSpace s r).getD recs.length
  let s1 := writeRecords s r (recs.take m)
  if recs.length ≤ m then done s1
  else
    { ringFull s1 r with
      ringWait := s1.ringWait ++
        [{ vf := r.vf, ctx := r.ctx, crew := crew, gang := gang, fate := fate, recs := recs.drop m, org := (r.vf, r.ctx, r.tenant) }] }

/-- The records that a producer discards when it is terminated while it waits (R330). -/
def RingWait.due (w : RingWait) : Nat := max 1 w.recs.length

/-! Taking a trap (R96 to R99) and returning from one (R100). -/

/-- A trap that one lane raises: cause, the PC of the instruction, the return PC, and what the cause defines (R96). -/
structure Trap where
  lane : Nat
  cause : Nat
  pc : Pc
  tpc : Pc
  addr : Nat
  det0 : Nat
  det1 : Nat
  /-- the lane was moved to the PC and may not issue there (R101) -/
  moved : Bool := false
  deriving DecidableEq, Repr

/-- The mode a trap enters: `syscall` supervisor, `hcall` hypervisor, a fault supervisor, or hypervisor from hypervisor mode
(R96, R97). -/
def trapMode (cause : Nat) (m : Mode) : Mode :=
  if cause = 8 then .super else if cause = 9 then .hyper else if m = .hyper then .hyper else .super

/-- The vector of a mode (R96). -/
def vectorOf (c : Ctx) (m : Mode) : Pc := if m = .hyper then c.hvec else c.svec

/-- What becomes of a trap: a frame is pushed and the vector entered, or the lane is held with a record (R96 to R98, R357). -/
inductive TrapEnd where
  | enter (mode : Mode) (vec : Pc) (prio : Nat) (legal : Bool)
  | hold (cause det0 det1 : Nat)
  deriving DecidableEq, Repr

/-- The top frame's TCAUSE; zero at depth 0 (R105). -/
def Lane.tcause (l : Lane) : BitVec 32 :=
  match l.frames with
  | f :: _ => f.tcause
  | [] => 0#32

/-- Decides a trap of one lane. A lane at depth 3 is held with cause 0x03 whether or not the target vector reads zero (log entry 101). -/
def trapEnd (s : State) (c : Crew) (l : Lane) (t : Trap) : TrapEnd :=
  let la := s.launchOf c
  let m := trapMode t.cause l.mode
  let vec := vectorOf (s.ctxAt la.vf la.ctx) m
  if l.depth ≥ 3 then .hold 3 l.tcause.toNat 0
  else if vec = 0#64 then .hold t.cause t.det0 t.det1
  else match blockAt s la.vf la.ctx vec with
    | some b =>
      match b.ventry with
      | some r =>
        if r > c.regs then .hold 4 t.cause r
        else .enter m vec b.prio (legalTarget s la.vf la.ctx m vec)
      | none => .enter m vec b.prio (legalTarget s la.vf la.ctx m vec)
    | none => .enter m vec (prioOf s la.vf la.ctx vec) false

/-- TCAUSE at entry (R107). -/
def tcauseWord (prio depth cause : Nat) (m : Mode) : BitVec 32 :=
  BitVec.ofNat 32 (prio * 2 ^ 16 + depth * 2 ^ 10 + m.band * 2 ^ 8 + cause)

/-- Pushes the frame of a trap onto a lane and gives it the target mode (R96). -/
def Lane.enter (l : Lane) (t : Trap) (prio : Nat) (mode : Mode) : Lane :=
  { l with
    frames := { tcause := tcauseWord prio (l.depth + 1) t.cause l.mode, tpc := pcFields t.tpc.toNat, taddr := BitVec.ofNat 64 t.addr
                tdet0 := BitVec.ofNat 32 t.det0, tdet1 := BitVec.ofNat 32 t.det1, rewritten := t.moved } :: l.frames
    mode := mode }

/-- One lane of a gang takes its trap; the lane has left its entry, of priority `prio` (R96). -/
def trapLane (g : Gang) (t : Trap) (prio : Nat) : TrapEnd → Gang
  | .enter mode vec vp legal =>
    { g.mapLane t.lane (fun l => l.enter t prio mode) with
      frontier := addEntry { pc := vec, band := mode.band, prio := vp, mask := LaneMask.one t.lane, busy := false } g.frontier
      illegal := if legal then g.illegal &&& ~~~(LaneMask.one t.lane) else g.illegal ||| LaneMask.one t.lane }
  | .hold _ _ _ => g.mapLane t.lane (fun l => { l with run := .held, pc := t.pc })

/-- Adds a record to a list: lanes held with one cause share one record, with the details of the first (log entry 12); each lane that
traps at depth 3 has a record of its own (R98). -/
def addRecord (r : Record) : List Record → List Record
  | [] => [r]
  | x :: xs => if x.cause = r.cause ∧ r.cause ≠ 3 then { x with lanes := x.lanes ||| r.lanes } :: xs else x :: addRecord r xs

/-- The record of a lane that a trap holds (R97, R98, R163, R357). -/
def trapRecord (c : Crew) (k : Nat) (t : Trap) : TrapEnd → List Record
  | .enter _ _ _ _ => []
  | .hold cause d0 d1 =>
    [laneRecord c k cause 1 (LaneMask.one t.lane) (if cause = 3 then t.pc else t.tpc) (if cause = 3 || cause = 4 then 0 else t.addr) d0 d1]

/-- The records of the lanes that a trap holds: one for the lanes with one cause, but one for each lane at depth 3 (R97, R98). -/
def trapRecords (c : Crew) (k : Nat) (ends : List (Trap × TrapEnd)) : List Record :=
  (ends.flatMap (fun e => trapRecord c k e.1 e.2)).foldl (fun rs r => addRecord r rs) []

/-- Taking an exception: the one operation by which lanes of a gang trap (R96 to R98). The lanes leave their entries; each pushes a
frame and joins the vector's entry, or is held with a record. `none` when the trap ring has no room for a record; records after the first that
find none keep the gang waiting (R330). -/
def takeTraps (s : State) (c : Crew) (k : Nat) (prio : Nat) (ts : List Trap) : Option State :=
  let g := c.gang k
  let ends := ts.map fun t => (t, trapEnd s c (g.lane t.lane) t)
  let recs := trapRecords c k ends
  let r := c.ring s
  if recs.isEmpty || ringRoom s r 1 then
    let g1 := { g with frontier := dropLanes (LaneMask.ofList (ts.map (·.lane))) g.frontier, chosen := false, paired := false }
    let g2 := ends.foldl (fun g e => trapLane g e.1 prio e.2) g1
    some (giveRecords (s.setCrew (c.setGang k g2)) r c.uid (some k) .notice recs id)
  else none

/-- A return is allowed: the top frame's mode is below the instruction's and its TPC is a legal target for the mode it records, or
still the one the trap itself recorded, in sealed code of that mode (R100, R188). -/
def returnOk (s : State) (vf ctx : Nat) (l : Lane) (by_ : Mode) : Bool :=
  match l.frames with
  | f :: _ =>
    l.mode == by_ &&
      (legalTarget s vf ctx (Mode.ofCode (bits f.tcause.toNat 9 8)) f.tpc ||
        (!f.rewritten && codeOf s vf ctx (Mode.ofCode (bits f.tcause.toNat 9 8)) f.tpc))
  | [] => false

/-- Pops the top frame: the lane takes back its mode (R100). -/
def Lane.leave (l : Lane) : Lane :=
  match l.frames with
  | f :: fs => { l with frames := fs, mode := Mode.ofCode (bits f.tcause.toNat 9 8) }
  | [] => l

/-- The PC that a return goes to (R100). -/
def Lane.backTo (l : Lane) : Pc :=
  match l.frames with
  | f :: _ => f.tpc
  | [] => l.pc

/-- The entry that one returning lane forms, with the priority of the block containing its PC (R100). -/
def returnEntry (s : State) (vf ctx : Nat) (g : Gang) (l : Nat) : Entry :=
  let x := g.lane l
  { pc := x.backTo, band := x.leave.mode.band, prio := prioOf s vf ctx x.backTo, mask := LaneMask.one l, busy := false }

/-- Returning from an exception: the lanes of a mask pop their frames and leave the handler's entry (R100). -/
def returnLanes (s : State) (vf ctx : Nat) (g : Gang) (m : LaneMask) : Gang :=
  let back := m.lanes.map (returnEntry s vf ctx g)
  { g.mapLanes m (fun _ l => l.leave) with frontier := addEntries back (dropLanes m g.frontier) }

end Sys2Proof.Machine
end

