-- ==== Sys2Proof/Machine/Operands.lean ====
section
/-!
DEFINITION. Operand forms: reading sources, writing destinations and latches, guards, and the scoreboard
(R54 to R63, R68, R86).
-/

namespace Sys2Proof.Machine

/-- The operand `n` registers above one: v, b and g operands name consecutive registers (R26, R61). Past the last register it reads as
zero: R139 names no rule for a plane group of `plmerge` that runs so far, and this is the model's choice (log 110). -/
def Opnd.plus (o : Opnd) (n : Nat) : Opnd :=
  match o with
  | .v r => if h : r.val + n < 1536 then .v ⟨r.val + n, h⟩ else .vz
  | .b r => if h : r.val + n < 8 then .b ⟨r.val + n, h⟩ else .vz
  | .g r => if h : r.val + n < 64 then .g ⟨r.val + n, h⟩ else .vz
  | .vz => .vz

/-- A latch element: what was written since the last switch point, else a free value (R63). -/
def latchWord (g : Gang) (draw l b : Nat) : Word :=
  if g.latchLive.getLsbD b then sget 0#32 g.latches (32 * b + l) else Config.deadLatch (draw * 256 + b * 32 + l)

/-- A 32-bit source operand of lane `l` (R56). -/
def readOpnd (g : Gang) (draw l : Nat) : Opnd → Word
  | .v r => (g.lane l).reg r.val
  | .b r => latchWord g draw l r.val
  | .g r => sget 0#32 g.g r.val
  | .vz => 0#32

/-- A source operand of `n` registers, as a number, low word first (R26, R56). -/
def readWide (g : Gang) (draw l : Nat) (o : Opnd) (n : Nat) : Nat :=
  natOfWords ((List.range n).map fun i => readOpnd g draw l (Opnd.plus o i))

/-- The guard of a lane (R54). -/
def guardHolds (h : Hdr) (x : Lane) : Bool := if h.pred = 15#4 then true else x.pred h.pred.toNat != h.pneg

/-- The executing lanes: the lanes of the issuing entry whose guard is true (R54, R155). -/
def execMask (g : Gang) (e : Entry) (h : Hdr) : LaneMask :=
  LaneMask.ofList (e.mask.lanes.filter fun l => guardHolds h (g.lane l))

/-- Writes consecutive v registers of a lane. -/
def writeRegs (x : Lane) (r : Nat) : List Word → Lane
  | [] => x
  | w :: ws => writeRegs (x.setReg r w) (r + 1) ws

/-- Writes consecutive g registers (R86). -/
def writeG (t : List (Nat × Word)) (r : Nat) : List Word → List (Nat × Word)
  | [] => t
  | w :: ws => writeG (sput 0#32 t r w) (r + 1) ws

/-- Writes one lane's result to a destination: v registers; g registers, when the lane is the lowest-numbered executing one;
vz discards it (R56, R86). -/
def writeOpnd (g : Gang) (low l : Nat) (d : Opnd) (ws : List Word) : Gang :=
  match d with
  | .v r => g.mapLane l (fun x => writeRegs x r.val ws)
  | .g r => if l = low then { g with g := writeG g.g r.val ws } else g
  | _ => g

/-- What one lane's instruction gives: the words of its result, predicates written, flags raised. -/
structure LaneOut where
  words : List Word
  preds : List (Nat × Bool)
  flags : Flags6
  deriving DecidableEq, Repr

/-- A result of `n` registers with flags. -/
def LaneOut.val (n x : Nat) (f : Flags6) : LaneOut := { words := wordsOf n x, preds := [], flags := f }

/-- A predicate result. -/
def predOut (p : PredOpt) (b : Bool) : List (Nat × Bool) :=
  match p with
  | some q => [(q.val, b)]
  | none => []

/-- Writes predicates of a lane. -/
def writePreds (x : Lane) : List (Nat × Bool) → Lane
  | [] => x
  | (p, b) :: t => writePreds (x.setPred p b) t

/-- Writes the results of the executing lanes: registers unless NWB, predicates, flags (R36, R54, R63, R86). -/
def writeOuts (g : Gang) (h : Hdr) (low : Nat) (d : Opnd) : List (Nat × LaneOut) → Gang
  | [] => g
  | (l, o) :: t =>
    let g1 := g.mapLane l (fun x => { writePreds x o.preds with fpstat := x.fpstat ||| o.flags })
    let g2 := if h.nwb then g1 else writeOpnd g1 low l d o.words
    writeOuts g2 h low d t

/-- Writes latch LATN: the executing lanes' 32-bit results, zero for the entry's other lanes (R63). -/
def writeLatch (g : Gang) (h : Hdr) (mask : LaneMask) (outs : List (Nat × LaneOut)) : Gang :=
  if h.late then
    { g with
      latches := mask.lanes.foldl (fun t l =>
        sput 0#32 t (32 * h.latn.toNat + l) (((outs.find? (fun o => o.1 == l)).map (fun o => o.2.words.headD 0#32)).getD 0#32))
        g.latches
      latchLive := g.latchLive ||| (1#8 <<< h.latn.toNat) }
  else g

/-! The scoreboard (R68): registers and predicates that a pending operation still has to write. -/

/-- Words of a size (R61). -/
def sizeWords : Size → Nat
  | .b64 => 2
  | .b128 => 4
  | _ => 1

/-- Bytes of a size (R61). -/
def sizeBytes : Size → Nat
  | .n8 | .i8 => 1
  | .n16 | .i16 => 2
  | .b32 => 4
  | .b64 => 8
  | .b128 => 16

def widthWords : AWidth → Nat
  | .w32 => 1
  | .w64 => 2

/-- The registers an operation writes when it completes. -/
def OpKind.dst : OpKind → Opnd × Nat
  | .load _ _ z d => (d, sizeWords z)
  | .atom _ _ w _ d _ => (d, widthWords w)
  | .cas _ n _ _ d _ => (d, n / 4)
  | .taskPost _ d none => (d, 1)
  | _ => (.vz, 0)

/-- The predicate it writes. -/
def OpKind.predDst : OpKind → PredOpt
  | .atom _ _ _ _ _ pd => pd
  | .cas _ _ _ _ _ pd => pd
  | .barArrive _ _ pr => pr
  | .barSent _ _ pr _ => pr
  | .emit _ pd _ => pd
  | _ => none

/-- Two register groups meet. -/
def regsMeet (a : Opnd) (n : Nat) (b : Opnd) (m : Nat) : Bool :=
  match a, b with
  | .v x, .v y => decide (x.val < y.val + m) && decide (y.val < x.val + n)
  | .g x, .g y => decide (x.val < y.val + m) && decide (y.val < x.val + n)
  | _, _ => false

def isG : Opnd → Bool
  | .g _ => true
  | _ => false

/-- An operation of the gang awaits one of the registers or predicates that the lanes use. -/
def awaits (k : Nat) (lanes : LaneMask) (uses : List (Opnd × Nat)) (preds : List Nat) (o : Op) : Bool :=
  o.gang == k && !o.dropped &&
    ((uses.any fun u => (isG u.1 || o.lanes &&& lanes != 0#32) && regsMeet u.1 u.2 o.kind.dst.1 o.kind.dst.2) ||
      (o.lanes &&& lanes != 0#32 && (match o.kind.predDst with
        | some p => preds.any (· == p.val)
        | none => false)))

/-- The predicates of a guard. -/
def guardPreds (h : Hdr) : List Nat := if h.pred = 15#4 then [] else [h.pred.toNat]

/-- The instruction waits on the scoreboard: some register or predicate it uses is awaited (R68). The guard's predicate counts in
every lane of the entry. -/
def scoreboard (c : Crew) (k : Nat) (e : Entry) (h : Hdr) (uses : List (Opnd × Nat)) (preds : List PredOpt) : Bool :=
  c.ops.any (awaits k e.mask uses (guardPreds h ++ preds.flatMap (fun p => (predOut p true).map (·.1))))

/-! The issue of an instruction that is no switch point. -/

/-- The crew, gang number, gang and entry that issue. -/
structure Issue where
  c : Crew
  k : Nat
  g : Gang
  e : Entry
  deriving DecidableEq, Repr

/-- What issues: the gang at `State.cur`, from the head of its frontier. -/
def issuing (s : State) : Option Issue :=
  match s.cur with
  | none => none
  | some (uid, k) =>
    match s.crew? uid with
    | none => none
    | some c =>
      match (c.gang k).frontier with
      | [] => none
      | e :: _ => some { c := c, k := k, g := c.gang k, e := e }

/-- PAIR joins the slot with the one after it (R67). -/
def pairsNext (g : Gang) (e : Entry) : Bool :=
  match g.line with
  | some (va, bs) =>
    !g.paired && va == pcLine e.pc && decide (pcSlot e.pc < 4) && bit (natOfBytes (bs.drop 60)) (5 + pcSlot e.pc)
  | none => false

/-- The priority of the next slot (R87). -/
def nextPrio (s : State) (c : Crew) (e : Entry) : Nat :=
  let l := s.launchOf c
  prioEnter s l.vf l.ctx (pcNext e.pc) e.prio

/-- Issues an instruction that is no switch point: unless the scoreboard holds it, the executing lanes take the results that `F`
computes, and the entry moves to the next slot (R54, R63, R68, R86, R88). -/
def issueWith (s : State) (h : Hdr) (d : Opnd) (uses : List (Opnd × Nat)) (preds : List PredOpt)
    (F : Crew → Gang → Nat → LaneMask → List (Nat × LaneOut)) : Host.Outcome State Fault Refusal :=
  match issuing s with
  | none => .fault .noIssuingGang
  | some i =>
    if scoreboard i.c i.k i.e h uses preds then finish s
    else
      let m := execMask i.g i.e h
      let outs := F i.c i.g s.draws m
      let g1 := writeLatch (writeOuts i.g h (lowest m) d outs) h i.e.mask outs
      let g2 := advance g1 i.e (nextPrio s i.c i.e) (pairsNext i.g i.e)
      finish { s.setCrew (i.c.setGang i.k g2) with draws := s.draws + 1 }

/-- A source operand of one lane, of a number of registers. -/
abbrev Reader := Opnd → Nat → Nat

/-- Issues an instruction whose executing lanes act each on its own operands. -/
def issueLanes (s : State) (h : Hdr) (d : Opnd) (uses : List (Opnd × Nat)) (preds : List PredOpt)
    (f : Bool → Lane → Reader → LaneOut) : Host.Outcome State Fault Refusal :=
  issueWith s h d uses preds fun c g draw m =>
    m.lanes.map fun l => (l, f c.lvl (g.lane l) (readWide g draw l))

end Sys2Proof.Machine
end

