-- ==== Sys2Proof/Machine/Arith.lean ====
section
/-!
DEFINITION. The integer and logic instructions, 0x000 to 0x024 (R109 to R126): one meaning each.
-/

namespace Sys2Proof.Machine

/-- Registers of an operand of a type (R109). -/
def ElTy.words (t : ElTy) : Nat := if Sys2Proof.Machine.ElTy.wide t then 2 else 1

/-- Operand B of `n` registers, or IMM32 in format I (R59). -/
def srcB (rd : Reader) (t : ElTy) (n : Nat) : SrcB → Nat
  | .reg o => rd o n
  | .imm i => immValue t i

/-- A 32-bit operand B: a count, a field or an index (R109, R120). -/
def srcB32 (rd : Reader) : SrcB → Nat
  | .reg o => rd o 1
  | .imm i => i.toNat

/-- The registers operand B names. -/
def useB (n : Nat) : SrcB → List (Opnd × Nat)
  | .reg o => [(o, n)]
  | .imm _ => []

/-- An element-wise instruction of two operands without flags. -/
def int2 (s : State) (h : Hdr) (t : ElTy) (d a : Opnd) (b : SrcB) (f : ElTy → Nat → Nat → Nat) :
    Host.Outcome State Fault Refusal :=
  let n := ElTy.words t
  issueLanes s h d ([(d, n), (a, n)] ++ useB n b) [] fun _ _ rd => LaneOut.val n (f t (rd a n) (srcB rd t n b)) 0#6

/-- An instruction of one operand without flags, with a result of `m` registers. -/
def int1 (s : State) (h : Hdr) (t : ElTy) (m : Nat) (d a : Opnd) (f : ElTy → Nat → Nat) : Host.Outcome State Fault Refusal :=
  let n := ElTy.words t
  issueLanes s h d [(d, m), (a, n)] [] fun _ _ rd => LaneOut.val m (f t (rd a n)) 0#6

/-- An instruction of three operands without flags. -/
def int3 (s : State) (h : Hdr) (t : ElTy) (d a b c : Opnd) (f : ElTy → Nat → Nat → Nat → Nat) :
    Host.Outcome State Fault Refusal :=
  let n := ElTy.words t
  issueLanes s h d [(d, n), (a, n), (b, n), (c, n)] [] fun _ _ rd => LaneOut.val n (f t (rd a n) (rd b n) (rd c n)) 0#6

/-- An instruction whose operand B is a 32-bit count, field or index. -/
def intCount (s : State) (h : Hdr) (t : ElTy) (d a : Opnd) (b : SrcB) (f : ElTy → Nat → Nat → Nat) :
    Host.Outcome State Fault Refusal :=
  let n := ElTy.words t
  issueLanes s h d ([(d, n), (a, n)] ++ useB 1 b) [] fun _ _ rd => LaneOut.val n (f t (rd a n) (srcB32 rd b)) 0#6

/-- A saturating instruction, with SI (R112). -/
def intSat2 (s : State) (h : Hdr) (t : ElTy) (d a : Opnd) (b : SrcB) (f : Int → Int → Int) : Host.Outcome State Fault Refusal :=
  let n := ElTy.words t
  issueLanes s h d ([(d, n), (a, n)] ++ useB n b) [] fun _ _ rd =>
    let r := intSat t f (rd a n) (srcB rd t n b)
    LaneOut.val n r.1 r.2

/-- `addc` and `subb`: the carry in and out of R113. -/
def intCarry (s : State) (h : Hdr) (t : ElTy) (d a : Opnd) (b : SrcB) (cin cout : PredOpt)
    (f : ElTy → Nat → Nat → Bool → Nat × Bool) : Host.Outcome State Fault Refusal :=
  let n := ElTy.words t
  issueLanes s h d ([(d, n), (a, n)] ++ useB n b) [cin, cout] fun _ x rd =>
    let r := f t (rd a n) (srcB rd t n b) (match cin with
      | some p => x.pred p.val
      | none => false)
    { words := wordsOf n r.1, preds := predOut cout r.2, flags := 0#6 }

/-- The predicate that `cmp` and `fcmp` write (R117). -/
def combine (x : Lane) (op : Comb) (any : Bool) : Bool :=
  match op with
  | .none => any
  | .and p => any && x.pred p.val
  | .or p => any || x.pred p.val
  | .xor p => any != x.pred p.val

/-- The predicate that a combination reads. -/
def combPred : Comb → PredOpt
  | .none => none
  | .and p | .or p | .xor p => some p

/-- `add` (R112). -/
def execAdd (h : Hdr) (t : ElTy) (d a : Opnd) (b : SrcB) (s : State) : Host.Outcome State Fault Refusal :=
  int2 s h t d a b (fun t => intEw t (· + ·))

/-- `sub` (R112). -/
def execSub (h : Hdr) (t : ElTy) (d a : Opnd) (b : SrcB) (s : State) : Host.Outcome State Fault Refusal :=
  int2 s h t d a b (fun t => intEw t (· - ·))

/-- `mul` (R114). -/
def execMul (h : Hdr) (t : ElTy) (d a : Opnd) (b : SrcB) (s : State) : Host.Outcome State Fault Refusal :=
  int2 s h t d a b intMul

/-- `mulh` (R114). -/
def execMulh (h : Hdr) (t : ElTy) (d a : Opnd) (b : SrcB) (s : State) : Host.Outcome State Fault Refusal :=
  int2 s h t d a b intMulh

/-- `min` (R112). -/
def execMin (h : Hdr) (t : ElTy) (d a : Opnd) (b : SrcB) (s : State) : Host.Outcome State Fault Refusal :=
  int2 s h t d a b (fun t => intEw t fun x y => if x ≤ y then x else y)

/-- `max` (R112). -/
def execMax (h : Hdr) (t : ElTy) (d a : Opnd) (b : SrcB) (s : State) : Host.Outcome State Fault Refusal :=
  int2 s h t d a b (fun t => intEw t fun x y => if x ≥ y then x else y)

/-- `and` (R118). -/
def execAnd (h : Hdr) (t : ElTy) (d a : Opnd) (b : SrcB) (s : State) : Host.Outcome State Fault Refusal :=
  int2 s h t d a b intAnd

/-- `or` (R118). -/
def execOr (h : Hdr) (t : ElTy) (d a : Opnd) (b : SrcB) (s : State) : Host.Outcome State Fault Refusal :=
  int2 s h t d a b intOr

/-- `xor` (R118). -/
def execXor (h : Hdr) (t : ElTy) (d a : Opnd) (b : SrcB) (s : State) : Host.Outcome State Fault Refusal :=
  int2 s h t d a b intXor

/-- `andn` (R118). -/
def execAndn (h : Hdr) (t : ElTy) (d a : Opnd) (b : SrcB) (s : State) : Host.Outcome State Fault Refusal :=
  int2 s h t d a b intAndn

/-- `addc` (R113). -/
def execAddc (h : Hdr) (t : ElTy) (d a : Opnd) (b : SrcB) (cin cout : PredOpt) (s : State) : Host.Outcome State Fault Refusal :=
  intCarry s h t d a b cin cout intAddc

/-- `subb` (R113). -/
def execSubb (h : Hdr) (t : ElTy) (d a : Opnd) (b : SrcB) (cin cout : PredOpt) (s : State) : Host.Outcome State Fault Refusal :=
  intCarry s h t d a b cin cout intSubb

/-- `mad` (R114). -/
def execMad (h : Hdr) (t : ElTy) (d a b c : Opnd) (s : State) : Host.Outcome State Fault Refusal :=
  int3 s h t d a b c intMad

/-- `madh` (R114). -/
def execMadh (h : Hdr) (t : ElTy) (d a b c : Opnd) (s : State) : Host.Outcome State Fault Refusal :=
  int3 s h t d a b c intMadh

/-- `abs` (R112). -/
def execAbs (h : Hdr) (t : ElTy) (d a : Opnd) (s : State) : Host.Outcome State Fault Refusal :=
  int1 s h t (ElTy.words t) d a fun t x => mapEls t fun i => ((el t x i).natAbs : Int)

/-- `neg` (R112). -/
def execNeg (h : Hdr) (t : ElTy) (d a : Opnd) (s : State) : Host.Outcome State Fault Refusal :=
  int1 s h t (ElTy.words t) d a fun t x => mapEls t fun i => -(el t x i)

/-- `adds` (R112). -/
def execAdds (h : Hdr) (t : ElTy) (d a : Opnd) (b : SrcB) (s : State) : Host.Outcome State Fault Refusal :=
  intSat2 s h t d a b (· + ·)

/-- `subs` (R112). -/
def execSubs (h : Hdr) (t : ElTy) (d a : Opnd) (b : SrcB) (s : State) : Host.Outcome State Fault Refusal :=
  intSat2 s h t d a b (· - ·)

/-- `sad` (R115). -/
def execSad (h : Hdr) (t : ElTy) (d a b c : Opnd) (s : State) : Host.Outcome State Fault Refusal :=
  issueLanes s h d [(d, 1), (a, 1), (b, 1), (c, 1)] [] fun _ _ rd =>
    LaneOut.val 1 (intSad t (rd a 1) (rd b 1) (rd c 1)) 0#6

/-- `cmp` (R117). -/
def execCmp (h : Hdr) (t : ElTy) (d a : Opnd) (b : SrcB) (cc : CmpCC) (op : Comb) (pd : PredOpt) (s : State) : Host.Outcome State Fault Refusal :=
  let n := ElTy.words t
  issueLanes s h d ([(d, n), (a, n)] ++ useB n b) [pd, combPred op] fun _ x rd =>
    let r := intCmp t cc (rd a n) (srcB rd t n b)
    { words := wordsOf n r.1, preds := predOut pd (combine x op r.2), flags := 0#6 }

/-- `not` (R118). -/
def execNot (h : Hdr) (t : ElTy) (d a : Opnd) (s : State) : Host.Outcome State Fault Refusal :=
  int1 s h t (ElTy.words t) d a intNot

/-- `lop3` (R119). -/
def execLop3 (h : Hdr) (t : ElTy) (d a b c : Opnd) (table : BitVec 8) (s : State) : Host.Outcome State Fault Refusal :=
  int3 s h t d a b c fun t x y z => intLop3 t x y z table

/-- `shl` (R120). -/
def execShl (h : Hdr) (t : ElTy) (d a : Opnd) (b : SrcB) (s : State) : Host.Outcome State Fault Refusal :=
  intCount s h t d a b intShl

/-- `shr` (R120). -/
def execShr (h : Hdr) (t : ElTy) (d a : Opnd) (b : SrcB) (s : State) : Host.Outcome State Fault Refusal :=
  intCount s h t d a b intShr

/-- `sar` (R120). -/
def execSar (h : Hdr) (t : ElTy) (d a : Opnd) (b : SrcB) (s : State) : Host.Outcome State Fault Refusal :=
  intCount s h t d a b intSar

/-- `rot` (R120). -/
def execRot (h : Hdr) (t : ElTy) (d a : Opnd) (b : SrcB) (s : State) : Host.Outcome State Fault Refusal :=
  intCount s h t d a b intRot

/-- `bfx` (R121). -/
def execBfx (h : Hdr) (t : ElTy) (d a : Opnd) (b : SrcB) (s : State) : Host.Outcome State Fault Refusal :=
  intCount s h t d a b intBfx

/-- `bfi` (R122). -/
def execBfi (h : Hdr) (t : ElTy) (d a b c : Opnd) (s : State) : Host.Outcome State Fault Refusal :=
  let n := ElTy.words t
  issueLanes s h d [(d, n), (a, n), (b, 1), (c, n)] [] fun _ _ rd => LaneOut.val n (intBfi t (rd a n) (rd b 1) (rd c n)) 0#6

/-- `popc` (R123). -/
def execPopc (h : Hdr) (t : ElTy) (d a : Opnd) (s : State) : Host.Outcome State Fault Refusal :=
  int1 s h t 1 d a intPopc

/-- `clz` (R123). -/
def execClz (h : Hdr) (t : ElTy) (d a : Opnd) (s : State) : Host.Outcome State Fault Refusal :=
  int1 s h t 1 d a intClz

/-- `ctz` (R123). -/
def execCtz (h : Hdr) (t : ElTy) (d a : Opnd) (s : State) : Host.Outcome State Fault Refusal :=
  int1 s h t 1 d a intCtz

/-- `brev` (R123). -/
def execBrev (h : Hdr) (t : ElTy) (d a : Opnd) (s : State) : Host.Outcome State Fault Refusal :=
  int1 s h t (ElTy.words t) d a intBrev

/-- `sel` (R124). -/
def execSel (h : Hdr) (t : ElTy) (d a b c : Opnd) (s : State) : Host.Outcome State Fault Refusal :=
  int3 s h t d a b c intSel

/-- `mov` (R125). -/
def execMov (h : Hdr) (t : ElTy) (d a : Opnd) (s : State) : Host.Outcome State Fault Refusal :=
  int1 s h t (ElTy.words t) d a fun _ x => x

/-- `movi` (R125). -/
def execMovi (h : Hdr) (t : ElTy) (d : Opnd) (imm : BitVec 32) (s : State) : Host.Outcome State Fault Refusal :=
  let n := ElTy.words t
  issueLanes s h d [(d, n)] [] fun _ _ _ => LaneOut.val n (immValue t imm) 0#6

/-- `lea` (R126). -/
def execLea (h : Hdr) (t : ElTy) (d a : Opnd) (b : SrcB) (natural : Bool) (scale : Fin 5) (s : State) : Host.Outcome State Fault Refusal :=
  intCount s h t d a b fun t x y => intLea t x y natural scale.val

/-- `dp4` (R116). -/
def execDp4 (h : Hdr) (t : ElTy) (d a b c : Opnd) (xs : Bool) (s : State) : Host.Outcome State Fault Refusal :=
  issueLanes s h d [(d, 1), (a, 1), (b, 1), (c, 1)] [] fun _ _ rd =>
    LaneOut.val 1 (intDp4 t xs (rd a 1) (rd b 1) (rd c 1)) 0#6

end Sys2Proof.Machine
end

