-- ==== Sys2Proof/Machine/Crew.lean ====
section
/-!
DEFINITION. What happens to a crew as a whole: the completion of its operations, barrier arrivals, its task table, termination and
the freeing of its slot (R175 to R177, R198 to R201, R214, R215, R251 to R257).
-/

namespace Sys2Proof.Machine

/-! Operations (R198 to R200). -/

/-- The operation with an identifier. -/
def Crew.op? (c : Crew) (id : Nat) : Option Op := c.ops.find? fun o => o.id == id

/-- Every operation that must be performed before this one is (R194). -/
def afterDone (c : Crew) (o : Op) : Bool := o.after.all fun i => !(c.ops.any (fun p => p.id == i))

/-- The pending operations that a new one of these lanes, with this predecessor mask, must follow (R194). -/
def edgesOf (c : Crew) (k : Nat) (lanes : LaneMask) (mask : Nat) : List Nat :=
  (c.ops.filter (fun o => o.gang == k && o.lanes &&& lanes != 0#32 && bit mask o.stream)).map (·.id)

/-- The operations that a wait's clause masks are performed. -/
def waitFree (c : Crew) (w : WaitRec) : Bool :=
  match c.ops.find? (fun o => o.id == w.op) with
  | some o => afterDone c o
  | none => true

/-- Waits of a gang whose masked operations are all performed start at this tick (R181). -/
def startWaits (c : Crew) (tick : Nat) (g : Gang) : Gang :=
  { g with waits := g.waits.map fun w =>
      if w.start.isNone && (g.waits.filter (fun v => v.issue == w.issue)).all (waitFree c) then { w with start := some tick }
      else w }

/-- Takes an operation off a crew: it is complete, and the counts of its lanes fall (R198, R199). -/
def Crew.complete (c : Crew) (tick : Nat) (o : Op) : Crew :=
  let c1 := { c with ops := c.ops.filter (fun p => p.id != o.id) }
  let c2 := c1.mapGang o.gang (fun g => g.mapLanes o.lanes fun _ x => x.count o.stream 0 1)
  { c2 with gangs := c2.gangs.map (startWaits c2 tick) }

/-- Completes the operation with an identifier, if it is pending. -/
def Crew.completeId (c : Crew) (tick id : Nat) : Crew :=
  match c.ops.find? (fun o => o.id == id) with
  | some o => c.complete tick o
  | none => c

/-- A crew at its dispatch on a core (R85, R211, R213): scratchpad of zeros, barriers at phase 0, channels at 0. -/
def Crew.fresh (uid launch crewid stage entry core regs ssize pbase : Nat) (lvl : Bool) (gangs : List Gang) : Crew :=
  { uid := uid, launch := launch, crewid := crewid, stage := stage, entry := entry, place := .core core, home := core / 8, lvl := lvl
    regs := regs, ngangs := gangs.length, gangs := gangs, ssize := ssize, alloc := ssize, sbase := 0, scratch := [], pbase := pbase
    barPhase := 0#16, garr := [], channels := List.replicate 8 Channel.fresh, tasks := List.replicate 64 Task.fresh, ops := []
    nextOp := 1, past := [], req := false, force := false, deadline := 20000#32, count := 0, reqAt := 0, saveAt := none, forced := 0#16
    succ := 0#32, succSet := false, succSite := 0#64, noGang := false, fullAtStart := false, slice := 0, turn := none, terminating := false }

/-! Barriers (R174 to R177). -/

/-- The code of a barrier level (R8, R174). -/
def levelCode : BarLevel → Nat
  | .gang => 0
  | .crew => 1
  | .camp => 2
  | .tract => 3
  | .fabric => 5

/-- The barrier that a crew's gang names at a level (R174, R267, R317, R409). -/
def barIdOf (s : State) (c : Crew) (k level num : Nat) : BarId :=
  match level with
  | 0 => .gang c.uid k num
  | 1 => .crew c.uid num
  | 2 => .camp c.launch c.camp num
  | 3 => .tract c.launch c.tract num
  | _ => .fabric (s.launchOf c).ctx (s.launchOf c).fgroup num

/-- The phase bit of a barrier as a gang sees it (R16, R177). -/
def phaseOf (s : State) (c : Crew) (k level num : Nat) : Bool :=
  match level with
  | 0 => (c.gang k).barPhase.getLsbD num
  | 1 => c.barPhase.getLsbD num
  | _ => (s.endpoint (barIdOf s c k level num)).phase

/-- Sent arrivals of a gang's lanes at a barrier in its current phase. -/
def Gang.sentAt (g : Gang) (key : Nat) : LaneMask := sget 0#32 g.arrived key

/-- Some lane has a sent arrival and every active lane has; held and exited lanes are not awaited (R175). -/
def Gang.allSent (g : Gang) (key : Nat) : Bool := g.sentAt key != 0#32 && g.active &&& ~~~(g.sentAt key) == 0#32

/-- Records the gangs that have now arrived; a gang arrives once per phase, at the first moment when it can (R175). -/
def settleGangs (c : Crew) : Crew :=
  let keys := (c.gangs.flatMap fun g => g.arrived.map (·.1)).eraseDups
  { c with garr := keys.foldl (fun t key =>
      sput 0#16 t key ((List.range 16).foldl (fun (m : BitVec 16) k =>
        if (c.gang k).allSent key then m ||| (1#16 <<< k) else m) (sget 0#16 t key))) c.garr }

/-- The gangs of a crew that have not retired. -/
def Crew.liveGangs (c : Crew) : List Nat := (List.range c.ngangs).filter fun k => !(c.gang k).retired

/-- Every unretired gang has arrived, by now or at an earlier moment of the phase (R175, R176). -/
def Crew.arrivedAt (c : Crew) (key : Nat) : Bool :=
  !c.liveGangs.isEmpty && c.liveGangs.all fun k => (sget 0#16 c.garr key).getLsbD k || (c.gang k).allSent key

/-- A link is up (R402). -/
def linkUp (s : State) (k : Nat) : Bool :=
  match s.links[k]? with
  | some l => l.state == 2
  | none => false

/-- By a ROUTE value, some link that is up carries requests (R401). -/
def usable (s : State) (r : BitVec 64) : Bool := r.getLsbD 63 && (List.range 18).any fun k => r.getLsbD k && linkUp s k

/-- A route to a module (R401, R402). -/
def routeUp (s : State) (m : Nat) : Bool := usable s (sget 0#64 s.routes m)

/-- The four FGRP registers of a fabric group (R402). -/
def groupWords (s : State) (g : Nat) : List (BitVec 64) := (List.range 4).map fun k => sget 0#64 s.fgrp (4 * g + k)

/-- A module is a member of a fabric group by its registers (R402). -/
def inGroup (ws : List (BitVec 64)) (m : Nat) : Bool := (ws.getD (m / 64) 0#64).getLsbD (m % 64)

/-- FGRP of a fabric barrier's current phase (R409). -/
def barGroup (s : State) (b : BarId) : List (BitVec 64) :=
  match b, (s.endpoint b).fgrp with
  | _, some ws => ws
  | .fabric _ g _, none => groupWords s g
  | _, none => []

/-- This module can reach every other module of a fabric barrier's group (R401, R410). -/
def groupReachable (s : State) (b : BarId) : Bool :=
  (List.range 256).all fun m => !inGroup (barGroup s b) m || m == s.fabid.toNat || routeUp s m

/-- The crew's arrivals reach the endpoints of its camp, tract and fabric barriers; a fabric arrival that cannot cross a down link is
held (R16, R176, R410). -/
def settleCrew (s : State) (uid : Nat) : State :=
  let s1 := s.mapCrew uid settleGangs
  match s1.crew? uid with
  | none => s1
  | some c =>
    ((c.garr.map (·.1)).filter (fun k => decide (128 ≤ k) && c.arrivedAt k)).foldl (fun s key =>
      let b := barIdOf s c 0 (key / 64) (key % 64)
      let e := s.endpoint b
      if e.crews.contains uid || s.heldArr.any (fun h => h == (b, uid)) then s
      else if key / 64 == 5 && !groupReachable s b then { s with heldArr := s.heldArr ++ [(b, uid)] }
      else s.setEndpoint { e with crews := e.crews ++ [uid] }) s1

/-- Level and number of a barrier operation that still has to send its arrival. -/
def unsent : OpKind → Option (Nat × Nat)
  | .barArrive l n _ => some (l, n)
  | .barSync l n false _ => some (l, n)
  | _ => none

/-- The operations of a crew that stand before one in its list: the older ones, or those of earlier entries of a save area (R326). -/
def Crew.opsBefore (c : Crew) (id : Nat) : List Op := c.ops.takeWhile fun p => p.id != id

/-- A lane's arrival may be sent: its masked operations are performed, no arrival of the lane is outstanding in this phase, and no
earlier arrival of the lane at this barrier waits (R175); a changed PHB has been passed (R326). -/
def maySend (c : Crew) (o : Op) (l n : Nat) : Bool :=
  o.hold.isNone && afterDone c o && (c.gang o.gang).sentAt (64 * l + n) &&& o.lanes == 0#32 &&
    !((c.opsBefore o.id).any fun p => p.gang == o.gang && p.lanes == o.lanes && unsent p.kind == some (l, n))

/-- Sends an arrival: `bar.arrive` then completes with the phase bit in its predicate, `bar.sync` notes the phase it arrived in
(R175, R177). -/
def sendArrival (s : State) (uid : Nat) (o : Op) : State :=
  match s.crew? uid, unsent o.kind with
  | some c, some (l, n) =>
    if maySend c o l n then
      let key := 64 * l + n
      let ph := phaseOf s c o.gang l n
      let c1 := c.mapGang o.gang fun g => { g with arrived := sput 0#32 g.arrived key (g.sentAt key ||| o.lanes) }
      let c2 := match o.kind with
        | .barArrive _ _ pr =>
          if !c.isResident then { c1 with ops := c1.ops.map fun p => if p.id = o.id then { p with kind := .barSent l n pr ph } else p }
          else
          let c3 := if o.dropped then c1
            else c1.mapGang o.gang fun g => g.mapLanes o.lanes fun _ x => writePreds x (predOut pr ph)
          c3.complete s.tick o
        | _ => { c1 with ops := c1.ops.map fun p => if p.id = o.id then { p with kind := .barSync l n true ph } else p }
      settleCrew (s.setCrew c2) uid
    else s
  | _, _ => s

/-- A phase completion that leaves the bit other than the PHB of a held arrival lets it go (R326). -/
def Op.passed (o : Op) (gang : Option Nat) (l n : Nat) (phase : Bool) : Op :=
  if unsent o.kind == some (l, n) && gang.all (· == o.gang) && o.hold == some (!phase) then { o with hold := none } else o

/-- Sends every arrival at a barrier that may now be sent, in order. -/
def sendHeld (s : State) (uid : Nat) (l n : Nat) : State :=
  match s.crew? uid with
  | none => s
  | some c => (c.ops.filter (fun o => unsent o.kind == some (l, n))).foldl (fun s o => sendArrival s uid o) s

/-! The task table (R251 to R254, R257). -/

/-- What a `tid` value names in a crew's own table (R251). -/
inductive TidState where
  | live (e : Nat)
  | complete (e : Nat)
  | stale
  | unposted
  deriving DecidableEq, Repr

def tidState (c : Crew) (tid : Nat) : TidState :=
  match c.tasks[tid % 64]? with
  | none => .unposted
  | some t =>
    if tid / 64 = 0 || (tid / 64 > t.gen && !t.wrapped) then .unposted
    else if tid / 64 ≠ t.gen then .stale
    else if t.state = .none then .complete (tid % 64)
    else .live (tid % 64)

def Crew.task (c : Crew) (e : Nat) : Task := c.tasks.getD e Task.fresh
def Crew.mapTask (c : Crew) (e : Nat) (f : Task → Task) : Crew := { c with tasks := modifyNth c.tasks e f }


/-- A 32-bit field of a task record. -/
def recWord (r : List Byte) (off : Nat) : Nat := natOfBytes ((r.drop off).take 4)

/-- The target of working set `w` of a record: 0 unused, 1 L2, 2 a scratchpad (R250). -/
def wsTarget (r : List Byte) (w : Nat) : Nat := recWord r (0x5C + 16 * w) % 4

/-- Every scratchpad working set has arrived (R253). -/
def Task.arrived (t : Task) : Bool :=
  (wsTarget t.record 0 != 2 || t.ws0 == .arrived) && (wsTarget t.record 1 != 2 || t.ws1 == .arrived)

/-- A task in WAIT with count 0 and its working sets arrived enters READY (R253). -/
def Task.settle (now : Nat) (t : Task) : Task :=
  if t.state = .wait ∧ t.dep = 0 ∧ t.arrived then { t with state := .ready, readyAt := now } else t

/-- One decrement of a task's dependence count (R254). -/
def decTask (now : Nat) (c : Crew) (tid : Nat) : Crew :=
  match tidState c tid with
  | .live e =>
    c.mapTask e fun t =>
      if t.state = .wait ∧ 0 < t.dep then Task.settle now { t with dep := t.dep - 1 } else { t with under := true }
  | .complete e => c.mapTask e fun t => { t with under := true }
  | _ => c

/-- A task enters DONE: its count falls, the entry returns to NONE with its final status, and its successors are decremented, or
terminated in turn (R253). -/
def finishTask (fuel now tick : Nat) (c : Crew) (e status detail : Nat) : Crew :=
  match fuel with
  | 0 => c
  | fuel + 1 =>
    let t := c.task e
    let c1 := c.mapTask e fun t => { t with state := .none, status := status, detail := detail, ws0 := .unused, ws1 := .unused }
    let c2 := c1.completeId tick t.op
    let succ := [recWord t.record 4, recWord t.record 8]
    succ.foldl (fun c s =>
      match tidState c s with
      | .live e' => if status = 0 then decTask now c s else if e' = e then c else finishTask fuel now tick c e' 2 0
      | _ => if status = 0 then decTask now c s else c) c2

/-- A task of the crew ends with a status (R253). -/
def taskDone (s : State) (uid e status detail : Nat) : State :=
  s.mapCrew uid fun c => finishTask 65 s.now s.tick c e status detail

/-! Termination and the end of a crew (R214, R215). -/

/-- CREWID (R13). -/
def crewidWord (c : Crew) : Nat := c.stage * 2 ^ 28 + c.crewid

/-- Operations that go on after termination: loads, stores, atomics and maintenance already issued (R215). -/
def OpKind.goesOn : OpKind → Bool
  | .load .. | .store .. | .atom .. | .cas .. | .maint .. => true
  | _ => false

/-- Steps 2 to 4 of R215 are complete. -/
def Crew.quiet (c : Crew) : Bool := c.ops.isEmpty && c.tasks.all (fun t => t.state != .run)

/-- Removes a crew: its slot is free and its barriers are gone (R214, R215). -/
def dropCrew (s : State) (uid : Nat) : State :=
  { s with
    crews := s.crews.filter (fun c => c.uid != uid)
    cur := match s.cur with
      | some (u, k) => if u = uid then none else some (u, k)
      | none => none }

/-- Frees the slot of a terminating crew when everything it started has ended (R215). -/
def settleEnd (s : State) (uid : Nat) : State :=
  match s.crew? uid with
  | some c => if c.terminating && c.quiet then dropCrew s uid else s
  | none => s

/-- A crew that ends by `halt` is the launch's first: of two in one cycle the one on the lower-numbered core (R379). -/
def haltsFirst (l : Launch) (now core : Nat) : Bool := l.haltFirst.isNone || l.haltAt.1 == now && decide (core < l.haltAt.2)

/-- Terminates a crew (R215): nothing of it issues again, its copies stop, its waiting tasks end as TERMINATED and its running ones
are abandoned, operations already issued complete with their write-backs discarded. -/
def terminate (s : State) (uid : Nat) (status : Option Nat) : State :=
  match s.crew? uid with
  | none => s
  | some c =>
    if c.terminating then s
    else
      let waiting := (s.ringWait.filter fun w => w.crew == uid).foldl (fun n w => n + w.due) 0
      let s0 := ringLost { s with ringWait := s.ringWait.filter fun w => w.crew != uid } (c.ring s) waiting
      let tasks := c.tasks.map fun t =>
        if t.state = .wait ∨ t.state = .ready then { t with state := .none, status := 2 } else t
      let c1 := { c with
        terminating := true, tasks := tasks
        channels := c.channels.map fun ch => { ch with copies := [] }
        ops := (c.ops.filter fun o => o.kind.goesOn).map fun o => { o with dropped := true }
        gangs := c.gangs.map fun g => { g with waits := [], pages := [], sys := [], parked := 0#32, counted := [], frontier := [] } }
      let s1 := s0.setCrew c1
      let s2 := s1.mapLaunch c.launch fun l =>
        match status with
        | some st =>
          { l with retired := l.retired + 1, halted := l.halted + 1
                   haltFirst := if haltsFirst l s.now c.coreOf then some (st, crewidWord c) else l.haltFirst
                   haltAt := if haltsFirst l s.now c.coreOf then (s.now, c.coreOf) else l.haltAt }
        | none => l
      settleEnd s2 uid

/-- The counts of a crew's crew tasks fall once every lane of the crew has exited (R288). -/
def settleExit (s : State) (uid : Nat) : State :=
  match s.crew? uid with
  | none => s
  | some c =>
    if c.gangs.all (fun g => g.lanes.all fun l => l.run == .exited) then
      (c.tasks.filter fun t => t.state != .none && recWord t.record 0 / 2 ^ 24 == 0x40).foldl
        (fun s t => s.mapCrew uid fun c => c.completeId s.tick t.op) s
    else s

end Sys2Proof.Machine
end

