-- ==== Sys2Proof/Machine/Access.lean ====
section
/-!
DEFINITION. Switch points: their issue and their end; issuing counted operations; page requests; binding-table and constant reads
(R64, R192 to R200, R218, R295, R319).
-/

namespace Sys2Proof.Machine

/-! Switch points (R64, R319). -/

/-- A gang halts before its next switch point when a pre-emption is requested and it is fully reconverged, or when the deadline has
expired (R319, R320). -/
def preHalt (c : Crew) (g : Gang) : Bool := (c.req && reconverged g) || c.force

/-- The debugger stops a gang before a switch point, with the record 0x70 (R333). -/
def debugStop (s : State) (i : Issue) : State :=
  if ringRoom s (i.c.ring s) 1 then
    (writeRecord s (i.c.ring s) (laneRecord i.c i.k 0x70 0 i.e.mask i.e.pc 0 0xFFFFFFFF 0)).setCrew
      (i.c.setGang i.k { i.g with stopReq := false, stopped := true, stoppedAt := 0#32 })
  else ringStall s (i.c.ring s) i.c.uid (some i.k)

/-- What keeps a gang from a switch point before anything of it happens: the debugger stops it, or pre-emption halts it (R319, R333). -/
def heldBack (halts : Crew → Gang → Bool) (s : State) (i : Issue) : Option State :=
  if i.g.stopReq then some (debugStop s i)
  else if halts i.c i.g then some (s.setCrew (i.c.setGang i.k { i.g with halted := true }))
  else none

/-- Issues a switch point: a gang that the debugger or pre-emption stops stays before it; the scoreboard may hold it; otherwise `F` acts
on the executing lanes (R64, R68, R319). -/
def issueSwitchWith (halts : Crew → Gang → Bool) (s : State) (h : Hdr) (uses : List (Opnd × Nat)) (preds : List PredOpt)
    (F : Issue → LaneMask → State) : Host.Outcome State Fault Refusal :=
  match issuing s with
  | none => .fault .noIssuingGang
  | some i =>
    match heldBack halts s i with
    | some t => finish t
    | none => if scoreboard i.c i.k i.e h uses preds then finish s else finish (F i (execMask i.g i.e h))

def issueSwitch (s : State) (h : Hdr) (uses : List (Opnd × Nat)) (preds : List PredOpt) (F : Issue → LaneMask → State) :
    Host.Outcome State Fault Refusal := issueSwitchWith preHalt s h uses preds F

/-- The group of lanes that goes on at the next slot (R89). -/
def nextGroup (s : State) (i : Issue) (m : LaneMask) : Entry :=
  { i.e with pc := pcNext i.e.pc, prio := nextPrio s i.c i.e, mask := m, busy := false }

/-- The group of lanes that moves to a PC (R89). -/
def moveGroup (s : State) (i : Issue) (pc : Pc) (m : LaneMask) : Entry :=
  let l := s.launchOf i.c
  { i.e with pc := pc, prio := prioEnter s l.vf l.ctx pc i.e.prio, mask := m, busy := false }

/-- The group of lanes that stays at an instruction that has issued. -/
def stayGroup (i : Issue) (m : LaneMask) : Entry := { i.e with mask := m, busy := true }

/-- Ends a switch point: the gang as it now is, the groups that its issuing entry split into, and the lanes that trap. Where the trap
ring has no room nothing has happened, and the gang waits (R88, R89, R96, R330). -/
def finishSwitch (s0 s : State) (i : Issue) (c : Crew) (groups : List Entry) (ts : List Trap) : State :=
  let c1 := c.mapGang i.k fun g => regroup g groups
  match takeTraps (s.setCrew c1) c1 i.k i.e.prio ts with
  | some t => { t with draws := t.draws + 1 }
  | none => ringStall s0 (i.c.ring s0) i.c.uid (some i.k)

/-- A trap of one lane at the issuing instruction (R96). -/
def faultAt (i : Issue) (l cause addr det0 det1 : Nat) : Trap :=
  { lane := l, cause := cause, pc := i.e.pc, tpc := i.e.pc, addr := addr, det0 := det0, det1 := det1 }

/-- The trap of a transfer to an illegal target (R95, R332). -/
def badTarget (i : Issue) (l : Nat) (pc : Pc) : Trap := faultAt i l 2 0 (pc.toNat % 2 ^ 32) (pc.toNat / 2 ^ 32)

/-- The lanes of a list of traps. -/
def trapMask (ts : List Trap) : LaneMask := LaneMask.ofList (ts.map (·.lane))

/-! Counted operations (R192, R198, R200). -/

def scopeCode : Scope → Nat
  | .gang => 0
  | .crew => 1
  | .camp => 2
  | .tract => 3
  | .package => 4
  | .fabric => 5
  | .system => 6

/-- Some lane's counter of a stream reads 63 (R200). -/
def exhausted (g : Gang) (m : LaneMask) (st : Fin 8) : Bool := m.lanes.any fun l => decide (63 ≤ (g.lane l).cnt st.val)

/-- An earlier store takes the scope of a later operation of its lane that a mask orders after it, where that is wider (R207). -/
def Past.widen (k : Nat) (lanes : LaneMask) (mask scope : Nat) (p : Past) : Past :=
  if p.gang = k ∧ p.lanes &&& lanes ≠ 0#32 ∧ bit mask p.stream then { p with scope := max p.scope scope } else p

/-- Adds a pending operation and counts it in its lanes (R198). -/
def Crew.addOp (c : Crew) (k issue : Nat) (pc : Pc) (lanes : LaneMask) (cl : Clause) (scope : Nat) (kind : OpKind) : Crew :=
  let o : Op := { id := c.nextOp, gang := k, lanes := lanes, stream := cl.stream.val, mask := cl.mask.toNat, scope := scope
                  pc := pc, issue := issue, after := edgesOf c k lanes cl.mask.toNat, dropped := false, looked := [], mod := 0, route := 0#64
                  got := [], kind := kind }
  let c1 := c.mapGang k fun g => g.mapLanes lanes fun _ x => x.count cl.stream.val 1 0
  { c1 with ops := c1.ops ++ [o], nextOp := c1.nextOp + 1, past := c1.past.map (Past.widen k lanes cl.mask.toNat scope) }

/-- Adds one operation per listed lane. -/
def Crew.addOps (c : Crew) (k issue : Nat) (pc : Pc) (cl : Clause) (scope : Nat) (ks : List (Nat × OpKind)) : Crew :=
  ks.foldl (fun c x => c.addOp k issue pc (LaneMask.one x.1) cl scope x.2) c

/-- Issues a counted instruction that cannot trap: unless a counter is exhausted, each executing lane counts the operation that `f`
gives it, and the entry moves on (R198, R200). -/
def issueCounted (s : State) (h : Hdr) (uses : List (Opnd × Nat)) (preds : List PredOpt) (cl : Clause) (scope : Nat)
    (f : State → Issue → Nat → OpKind) : Host.Outcome State Fault Refusal :=
  issueSwitch s h uses preds fun i m =>
    if exhausted i.g m cl.stream then s
    else finishSwitch s s i (i.c.addOps i.k s.draws i.e.pc cl scope (m.lanes.map fun l => (l, f s i l))) [nextGroup s i i.e.mask] []

/-! Entries that stay at an instruction (R296, R314). -/

/-- The lanes that a `waits` blocks: their counters are above its count (R183). -/
def Gang.overCount (g : Gang) : LaneMask :=
  LaneMask.ofList ((g.counted.filter fun x => decide (x.2.2 < (g.lane x.1).cnt x.2.1)).map (·.1))

/-- The lanes of a gang that something still holds at their instruction. -/
def Gang.blocked (g : Gang) : LaneMask :=
  LaneMask.ofList (g.pages.map (·.lane) ++ g.sys.map (·.lane) ++ (g.waits.filter fun w => w.done.isNone).map (·.lane)) ||| g.parked ||| g.overCount

/-- A busy entry that contains some of the lanes and that nothing holds any more: it moves to the next slot, or stands ready to execute
the instruction again. The entry that issues keeps issuing (R88, R90). -/
def freeEntries (s : State) (c : Crew) (k : Nat) (lanes : LaneMask) (again : Bool) : Gang :=
  let g := c.gang k
  let la := s.launchOf c
  let free := g.frontier.filter fun e => e.busy && e.mask &&& lanes != 0#32 && e.mask &&& g.blocked == 0#32
  let moved := free.map fun e =>
    if again then { e with busy := false }
    else { e with pc := pcNext e.pc, prio := prioEnter s la.vf la.ctx (pcNext e.pc) e.prio, busy := false }
  { g with frontier := addEntries moved (g.frontier.filter fun e => !free.contains e) }

/-- A gang whose `waits` has ended moves on (R183). -/
def wakeCounted (s : State) (c : Crew) (k : Nat) : Gang :=
  let g := c.gang k
  if g.counted.isEmpty then g
  else
    let g1 := freeEntries s c k (LaneMask.ofList (g.counted.map (·.1))) false
    { g1 with counted := g1.counted.filter fun x => g1.frontier.any fun e => e.busy && e.mask.getLsbD x.1 }

/-- Lets the entries go on that the lanes of a mask were the last to hold. -/
def goOn (s : State) (uid k : Nat) (lanes : LaneMask) (again : Bool) : State :=
  match s.crew? uid with
  | some c => s.setCrew (c.setGang k (freeEntries s c k lanes again))
  | none => s

/-- A `wait` whose lanes are all done ends: the counts fall, the timeout predicates are written and the lanes move to the next slot
(R181). -/
def finishWaits (s : State) (uid k issue : Nat) : State :=
  match s.crew? uid with
  | none => s
  | some c =>
    let mine := (c.gang k).waits.filter fun w => w.issue == issue
    if !mine.isEmpty && mine.all fun w => w.done.isSome then
      let lanes := LaneMask.ofList (mine.map (·.lane))
      let c1 := mine.foldl (fun c w => c.completeId s.tick w.op) c
      let la := s.launchOf c
      let g1 := { (c1.gang k).mapLanes lanes fun j x =>
          match mine.find? (fun w => w.lane == j) with
          | some w => writePreds x (predOut w.pt (w.done == some true))
          | none => x with
        waits := (c1.gang k).waits.filter fun w => w.issue != issue }
      let stay := g1.frontier.filter fun e => e.busy && mine.any (fun w => w.pc == e.pc) && e.mask &&& lanes != 0#32
      let moved := stay.map fun e =>
        { e with pc := pcNext e.pc, prio := prioEnter s la.vf la.ctx (pcNext e.pc) e.prio, mask := e.mask &&& lanes, busy := false }
      let g2 := { g1 with frontier := addEntries moved (dropLanes (stay.foldl (fun m e => m ||| (e.mask &&& lanes)) 0#32) g1.frontier) }
      s.setCrew (c1.setGang k g2)
    else s

/-! Page requests (R295, R296). -/

/-- Joins a miss to a page request of its VF, the queued one before one that has been sent, or queues one: its group index. `none` where the VF may send none. -/
def requestPage (s : State) (vf pasid gpa : Nat) (write : Bool) (j : Joiner) : Option (State × Nat) :=
  let f := s.func vf
  if !f.priOn || f.prifail then none
  else
    let own := f.reqs.filter fun r => r.gpa == gpa
    match (own.find? fun r => !r.sent).or (own.find? fun r => r.write || !write) with
    | some r =>
      some (s.mapFunc vf fun f => { f with reqs := f.reqs.map fun x =>
        if x.prg = r.prg then { x with joined := x.joined ++ [j], write := x.write || (write && !x.sent) } else x }, r.prg)
    | none =>
      let r : PageReq := { prg := f.nextPrg, gpa := gpa, pasid := pasid, write := write, sent := false, joined := [j] }
      some (s.mapFunc vf fun f => { f with reqs := f.reqs ++ [r], nextPrg := f.nextPrg + 1 }, r.prg)

/-- The byte at which an engine waits on a page request. -/
def Joiner.at (j : Joiner) (addr : Nat) : Joiner :=
  match j with
  | .engine crew what n _ => .engine crew what n addr
  | j => j

/-- An engine waits on a page request for a byte of a crew's work: it goes on when the reply has come (R295). -/
def engineWaits (s : State) (c : Crew) (what n : Nat) : Bool :=
  (s.func (s.launchOf c).vf).reqs.any fun r => r.joined.any fun j => match j with
    | .engine crew a b _ => crew == c.uid && a == what && b == n
    | _ => false

/-- An engine stalls: it waits on a page request, or for room in the trap ring (R295, R330). -/
def engineHeld (s : State) (c : Crew) (what n : Nat) : Bool := engineWaits s c what n || owing s c.uid what n

/-- What a translation gives a lane's access: its leaves; a trap; or a wait on a page request. -/
inductive LaneXlat where
  | ok (ls : List Leaf)
  | trap (cause addr det0 det1 : Nat)
  | page (x : Miss)
  deriving DecidableEq, Repr

/-- Translates a lane's access of `n` bytes; a stage-2 miss joins a page request, or faults where the VF sends none (R293, R295). -/
def laneXlat (s : State) (w : Who) (pasid : Nat) (j : Joiner) (acc va n : Nat) : State × LaneXlat :=
  match translateN s w acc va n with
  | (s1, .inl ls) => (s1, .ok ls)
  | (s1, .inr (a, .fault cause det)) => (s1, .trap cause a det 0)
  | (s1, .inr (a, .miss gpa lvl)) =>
    match if w.pri then requestPage s1 w.vf pasid gpa (acc == 1 || acc == 2) j else none with
    | some (s2, prg) => (s2, .page { vf := w.vf, prg := prg, addr := a, det := tdetOf acc lvl 1 0 0 0 })
    | none => (s1, .trap 0x21 a (tdetOf acc lvl 1 0 0 0) 0)
  | (s1, .inr (a, .ok _)) => (s1, .trap 0x20 a 0 0)

/-! The constant section (R218). -/

/-- Byte `e` of an image's constant section, through its sealed page; zero beyond the section. -/
def konstByte (s : State) (handle e : Nat) : Byte :=
  match s.image? handle with
  | none => 0#8
  | some i =>
    if e ≥ i.constsz then 0#8
    else
      match s.seals.find? (fun p => p.handle == handle && !p.code && p.vpage == (i.constva + e) / 65536) with
      | some p => readByte s none (p.pa * 65536 + (i.constva + e) % 65536)
      | none => 0#8

/-- Bytes of a constant section. -/
def konstBytes (s : State) (handle e n : Nat) : List Byte := (List.range n).map fun j => konstByte s handle (e + j)

/-- The image whose code a gang executes; the launch's own where no sealed code holds the PC. -/
def codeHandle (s : State) (c : Crew) (pc : Pc) : Nat :=
  let l := s.launchOf c
  match imageAt s l.vf l.ctx pc with
  | some i => i.handle
  | none => l.handle

/-! Pre-emption requests (R264, R318, R320). -/

/-- A transfer that had not arrived starts again from its first byte (R264). -/
def WsState.cancel : WsState → WsState
  | .moving _ => .waiting
  | w => w

/-- Staging for the crew is cancelled (R264, R319). -/
def Crew.unstage (c : Crew) : Crew :=
  { c with tasks := c.tasks.map fun t => { t with ws0 := t.ws0.cancel, ws1 := t.ws1.cancel } }

/-- A gang waits at its instruction for room in the trap ring (R330). -/
def waitsRoom (s : State) (c : Crew) (k : Nat) : Bool := s.ringWait.any fun w => w.crew == c.uid && w.gang == some k

/-- The gang needs nothing more before a save: retired, halted or stopped; or blocked at a switch point in a state in which it would
halt there. A system instruction that has started still ends; lanes that wait on a page request keep a gang from halting by itself
(R319, R320, R327, R330). -/
def atRest (s : State) (c : Crew) (k : Nat) : Bool :=
  let g := c.gang k
  g.retired || g.halted || g.stopped ||
    (preHalt c g && g.sys.isEmpty && (c.force || g.pages.isEmpty) &&
      (g.fbarPending || (pickEntry g.frontier).isNone || waitsRoom s c k))

/-- The deadline expires: FORCE is set for the gangs not yet halted, with the record 0x68 (R320). `none` when the ring has no
room. -/
def expire (s : State) (c : Crew) : Option State :=
  let open_ := (List.range 16).filter fun k => decide (k < c.ngangs) && !(atRest s c k)
  let forced : BitVec 16 := open_.foldl (fun m k => m ||| (1#16 <<< k)) 0#16
  if forced = 0#16 then some s
  else if ringRoom s (c.ring s) 1 then
    some (writeRecord (s.setCrew { c with force := true, forced := forced }) (c.ring s)
      { cause := 0x68, sev := 0, core := c.coreOf, gang := 0, lanes := 0#32, pc := 0#64, addr := 0, region := 0#32
        scnt := List.replicate 8 0, det0 := forced.toNat, det1 := c.count })
  else none

/-- Sets REQ on a crew with a deadline count; a deadline of 0 forces at once (R318). -/
def requestPreempt (s : State) (uid : Nat) (count : Option Nat) : State :=
  match s.crew? uid with
  | none => s
  | some c =>
    if c.req then s
    else
      let c1 := Crew.unstage { c with req := true, count := count.getD c.deadline.toNat, reqAt := s.now }
      let s1 := s.setCrew c1
      if c1.count = 0 then (expire s1 c1).getD s1 else s1

end Sys2Proof.Machine
end

