-- ==== Sys2Proof/Machine/Memory.lean ====
section
/-!
DEFINITION. Loads, stores and atomics of every space: where their bytes lie, their issue, and their completion
(R195, R199, R216 to R224, R240, R241, R245, R290, R298, R299, R303, R305).
-/

namespace Sys2Proof.Machine

/-! Offsets and addresses (R61, R221, R290). -/

/-- The signed offset of a memory operand (R221, R290). -/
def memOff (g : Gang) (draw l : Nat) (m : MemArg) (z : Nat) : Int :=
  match m.off with
  | .reg o => signExt (readWide g draw l o 1) 32
  | .imm i => i.toInt * z

/-- A 32-bit offset, aligned down where the space asks for it (R221). -/
def offset32 (g : Gang) (draw l : Nat) (m : MemArg) (z : Nat) (aligned : Bool) : Nat :=
  let e := wrap ((readWide g draw l m.base 1 : Int) + memOff g draw l m z) 32
  if aligned then e / z * z else e

/-- A 64-bit address from the base pair (R290). -/
def address64 (g : Gang) (draw l : Nat) (m : MemArg) (z : Nat) (aligned : Bool) : Nat :=
  let va := wrap ((readWide g draw l m.base 2 : Int) + memOff g draw l m z) 64
  if aligned then va / z * z else va

/-- PrivVA (R216). -/
def privVa (s : State) (c : Crew) (k l e : Nat) : Nat := c.pbase + (32 * k + l) * (s.launchOf c).psize + e % 2 ^ 24

/-- The registers that a memory operand reads. -/
def memUses (m : MemArg) (wide : Bool) : List (Opnd × Nat) :=
  (m.base, if wide then 2 else 1) :: (match m.off with
    | .reg o => [(o, 1)]
    | .imm _ => [])

/-! Storage (R217, R218, R240, R241, R245, R298). -/

/-- Byte `off` of a launch's vault window in a camp; within a publish window, of the published backing (R241, R244). -/
def vaultLoc (s : State) (launch camp off : Nat) : Loc :=
  match s.windows.find? (fun w => w.launch == launch && w.home == camp && !w.glob && decide (w.woff ≤ off) &&
      decide (off < w.woff + 2 * w.size)) with
  | some w =>
    if off < w.woff + w.size then .vault launch camp (off + if w.cur then w.size else 0) else .nowhere
  | none =>
    match s.vault? launch camp with
    | some v => if off < v.size then .vault launch camp off else .nowhere
    | none => .nowhere

/-- Byte `off` of the backing of a `.v` window that is not published (R245). -/
def shadowLoc (w : Window) (off : Nat) : Loc :=
  .vault w.launch w.home (w.woff + off + if w.cur then 0 else w.size)

/-- The window with an entry number in a crew's camp, if the crew holds it (R244). -/
def Crew.window? (s : State) (c : Crew) (entry : Nat) : Option Window :=
  match s.window? c.camp entry with
  | some w => if w.launch = c.launch then some w else none
  | none => none

/-- Byte `i` of a `.v` access (R241, R245). -/
def vLoc (s : State) (c : Crew) (shd : Bool) (e i : Nat) : Loc :=
  if shd then
    if bits e 31 26 != 0 then .nowhere
    else match c.window? s (bits e 25 20) with
      | some w => if !w.glob && decide (bits e 19 0 + i < w.size) then shadowLoc w (bits e 19 0 + i) else .nowhere
      | none => .nowhere
  else if bits e 31 29 != 0 || (!bit e 28 && bits e 27 25 != 0) then .nowhere
  else vaultLoc s c.launch (if bit e 28 then 8 * c.tract + bits e 27 25 else c.camp) (bits e 24 0 + i)

/-- Byte `i` of a `.n` access (R240). -/
def nLoc (s : State) (c : Crew) (e i : Nat) : Loc :=
  if bits e 31 22 != 0 then .nowhere
  else match s.resident? (8 * c.camp + bits e 21 19) with
    | some d => if d.launch = c.launch ∧ bits e 18 0 + i < d.ssize then .scratch d.uid (bits e 18 0 + i) else .nowhere
    | none => .nowhere

/-- The window of a byte's public view has been published since the access was resolved. -/
def GByte.turned (s : State) (b : GByte) : Bool :=
  match b.win with
  | none => false
  | some (home, e) =>
    match s.window? home e with
    | some w => w.cur != b.cur
    | none => false

/-- What a byte of a `.g` access reaches now (R298). -/
def GByte.now (s : State) (b : GByte) : Option Leaf := if b.turned s then b.alt else b.leaf

/-- The byte is reached through a translation: none is missing for the backing that is now published. -/
def GByte.reached (s : State) (b : GByte) : Bool := !b.turned s || b.alt.isSome

/-- A byte outside every view. -/
def GByte.plain (l : Leaf) : GByte := { leaf := some l, win := none, cur := false, alt := none }

/-- The leaves that a `.g` access reaches now (R298). -/
def globNow (s : State) (bs : List GByte) : List Leaf := bs.filterMap (GByte.now s)

/-- Where a byte of a `.g` access is stored. -/
def GByte.loc (s : State) (b : GByte) : Loc :=
  match b.now s with
  | some l => .phys l.pa l.prot (l.cp == 2)
  | none => .nowhere

/-- The storage of the `n` bytes of an access, as it stands now. Empty where nothing is reached yet. -/
def addrLocs (s : State) (c : Crew) (a : Addr) (n : Nat) : List Loc :=
  match a with
  | .scr e => (List.range n).map fun i => if e + i < c.ssize then .scratch c.uid (e + i) else .nowhere
  | .nbr e => (List.range n).map (nLoc s c e)
  | .vault shd e => (List.range n).map (vLoc s c shd e)
  | .konst h e => (List.range n).map fun i => .konst h (e + i)
  | .glob _ _ bs => if bs.all (GByte.reached s) then bs.map (GByte.loc s) else []
  | .page _ _ _ => []
  | .nowhere => List.replicate n .nowhere
  | .host x => (List.range n).map fun i => .host (x + i)
  | .fab _ _ => []

/-- One byte of storage as a viewer (a world's key, or none) reads it. -/
def readLoc (s : State) (viewer : Option Nat) (l : Loc) : Byte :=
  match l with
  | .scratch uid off => match s.crew? uid with
    | some c => peek c.scratch off
    | none => 0#8
  | .vault launch camp off => match s.vault? launch camp with
    | some v => peek v.bytes off
    | none => 0#8
  | .konst h e => konstByte s h e
  | .phys pa prot raw => (if raw then readRaw else readByte) s (if prot then viewer else none) pa
  | .host a => peek s.host a
  | .nowhere => 0#8

/-- Writes one byte of storage; what nothing holds is dropped. -/
def writeLoc (s : State) (world : Option (Nat × Nat)) (l : Loc) (b : Byte) : State :=
  match l with
  | .scratch uid off => s.mapCrew uid fun c => { c with scratch := poke c.scratch off b }
  | .vault launch camp off => s.mapVault launch camp fun v => { v with bytes := poke v.bytes off b }
  | .phys pa prot _ => writeByte s (if prot then world else none) pa b
  | .host a => { s with host := poke s.host a b }
  | .konst _ _ | .nowhere => s

def writeLocs (s : State) (world : Option (Nat × Nat)) : List Loc → List Byte → State
  | l :: ls, b :: bs => writeLocs (writeLoc s world l b) world ls bs
  | _, _ => s

/-! The issue of a memory instruction (R222, R290, R296). -/

/-- What a memory instruction comes to in one lane: an operation; a trap; or an operation that waits on a page request. -/
inductive MemLane where
  | op (k : OpKind)
  /-- an operation whose response may still trap the lane, which waits for it -/
  | remote (k : OpKind)
  | trap (cause addr det0 det1 : Nat)
  | page (x : Miss) (acc : Nat) (k : OpKind)
  deriving DecidableEq, Repr

/-- The lanes of an instruction in ascending order. -/
def memLanes (f : State → Nat → State × MemLane) : State → List Nat → State × List (Nat × MemLane)
  | s, [] => (s, [])
  | s, l :: ls =>
    let r := f s l
    let rest := memLanes f r.1 ls
    (rest.1, (l, r.2) :: rest.2)

/-- The operation of a lane that does not trap. -/
def MemLane.kind? : MemLane → Option OpKind
  | .op k => some k
  | .remote k => some k
  | .page _ _ k => some k
  | .trap _ _ _ _ => none

/-- Only the lowest-numbered executing lane writes a `g` destination (R86). -/
def OpKind.quiet : OpKind → OpKind
  | .load a p z _ => .load a p z .vz
  | .atom a op w v _ pd => .atom a op w v .vz pd
  | .cas a n x y _ pd => .cas a n x y .vz pd
  | .taskPost e _ n => .taskPost e .vz n
  | k => k

/-- The operations of the lanes of an instruction, in ascending order: of a `g` destination, the first that has an operation writes it. A
lane that traps has none, so that the lowest lane without a trap writes it (log entry 102). -/
def lowestWrites (d : Opnd) : List (Nat × OpKind) → List (Nat × OpKind)
  | [] => []
  | x :: xs => x :: if isG d then xs.map fun y => (y.1, y.2.quiet) else xs

/-- The same, where NWB keeps the instruction from writing D (R63). -/
def destOps (h : Hdr) (d : Opnd) (ks : List (Nat × OpKind)) : List (Nat × OpKind) :=
  if h.nwb then ks.map fun y => (y.1, y.2.quiet) else lowestWrites d ks

/-- ROUTE of the module that an operation goes to, as it now is (R402). -/
def OpKind.routeNow (s : State) : OpKind → BitVec 64
  | .load (.fab m _) _ _ _ | .store (.fab m _) _ _ | .atom (.fab m _) _ _ _ _ _ | .cas (.fab m _) _ _ _ _ _ => sget 0#64 s.routes m
  | _ => 0#64

/-- Issues a memory instruction: lanes that fault trap; the others count one operation each; while some lane waits on a page request or
a response, the entry stays at the instruction (R198, R222, R296). -/
def issueMemory (s : State) (h : Hdr) (uses : List (Opnd × Nat)) (preds : List PredOpt) (d : Opnd) (cl : Clause) (scope mod : Nat)
    (f : Issue → State → Nat → State × MemLane) : Host.Outcome State Fault Refusal :=
  issueSwitch s h uses preds fun i m =>
    if exhausted i.g m cl.stream then s
    else
      let r := memLanes (f i) s m.lanes
      let ts := r.2.filterMap fun x => match x.2 with
        | .trap cause ad d0 d1 => some (faultAt i x.1 cause ad d0 d1)
        | _ => none
      let ks := destOps h d (r.2.filterMap fun x => x.2.kind?.map fun k => (x.1, k))
      let c1 := i.c.addOps i.k s.draws i.e.pc cl scope ks
      let c2 := { c1 with ops := c1.ops.map fun (o : Op) =>
                    if o.id < i.c.nextOp then o else { o with mod := mod, route := o.kind.routeNow s } }
      let idOf := fun l => i.c.nextOp + (ks.takeWhile fun x => x.1 != l).length
      let ps : List PageWait := r.2.filterMap fun x => match x.2 with
        | .page y acc _ =>
          some { lane := x.1, op := idOf x.1, miss := y, acc := acc, user := (i.g.lane x.1).mode == .user, due := none }
        | _ => none
      let rs : List SysWait := r.2.filterMap fun x => match x.2 with
        | .remote _ => some { lane := x.1, kind := .remote (idOf x.1) }
        | _ => none
      let stay := i.e.mask &&& ~~~(trapMask ts)
      finishSwitch s r.1 i (c2.mapGang i.k fun g => { g with pages := g.pages ++ ps, sys := g.sys ++ rs })
        [if ps.isEmpty && rs.isEmpty then nextGroup s i stay else stayGroup i stay] ts

/-- The public view of a window of the crew's context that holds a VA (R298). -/
def viewAt (s : State) (c : Crew) (va : Nat) (own : Bool) : Option Window :=
  let la := s.launchOf c
  s.windows.find? fun w =>
    w.glob && decide (w.woff ≤ va) && decide (va < w.woff + w.size) &&
      (if own then w.launch == c.launch && w.home == c.camp
       else match s.launch? w.launch with
        | some l => l.vf == la.vf && l.ctx == la.ctx
        | none => false)

/-- A byte of a public view in the backing with a number. -/
def Window.backing (w : Window) (second : Bool) (va : Nat) : Nat := (if second then w.back1 else w.back0) + (va - w.woff)

/-- Translates a list of VAs byte by byte, of which some reach nothing: the leaves, or the position of the first that fails and how. -/
def xlatBytes (w : Who) (pasid : Nat) (j : Joiner) (acc : Nat) :
    State → Nat → List (Option Nat) → State × (List (Option Leaf) ⊕ (Nat × LaneXlat))
  | s, _, [] => (s, .inl [])
  | s, n, none :: vas =>
    match xlatBytes w pasid j acc s (n + 1) vas with
    | (s2, .inl r) => (s2, .inl (none :: r))
    | x => x
  | s, n, some va :: vas =>
    match laneXlat s w pasid j acc va 1 with
    | (s1, .ok ls) =>
      match xlatBytes w pasid j acc s1 (n + 1) vas with
      | (s2, .inl r) => (s2, .inl (ls.head? :: r))
      | x => x
    | (s1, x) => (s1, .inr (n, x))

/-- Where byte `a` of a `.g` access goes before stage 1: in a public view to the backing that CUR names, and to the other one for a shadow
access or, with `flip`, after the next publish. A shadow access outside every view that its crew holds goes nowhere (R298). -/
def redirect (s : State) (c : Crew) (shd flip : Bool) (a : Nat) : Option Nat :=
  match viewAt s c a shd with
  | some v => some (v.backing ((v.cur != shd) != flip) a)
  | none => if shd then none else some a

/-- The leaf of the backing that a byte reaches once its window is published; none where there is no window, or no translation. No page
request is sent for it. -/
def altLeaf (s : State) (c : Crew) (w : Who) (shd : Bool) (acc a : Nat) : Option Leaf :=
  if (viewAt s c a shd).isNone then none
  else match redirect s c shd true a with
    | some b => match translateN s w acc b 1 with
      | (_, .inl ls) => ls.head?
      | _ => none
    | none => none

/-- A byte of a `.g` access, with its leaf. -/
def globByte (s : State) (c : Crew) (w : Who) (shd : Bool) (acc a : Nat) (leaf : Option Leaf) : GByte :=
  match viewAt s c a shd with
  | some v => { leaf := leaf, win := some (v.home, v.entry), cur := v.cur, alt := altLeaf s c w shd acc a }
  | none => { leaf := leaf, win := none, cur := false, alt := none }

/-- How a `.g` access resolves (R290, R293, R298, R307): its address; a trap; or a page request. -/
inductive GlobX where
  | addr (a : Addr)
  | trap (cause addr det0 det1 : Nat)
  | page (x : Miss)
  deriving DecidableEq, Repr

/-- The first byte of an access that is poisoned (R307). -/
def poisonedAt (s : State) (ls : List (Option Leaf)) : Option Nat :=
  ls.findIdx? fun l => match l with
    | some l => s.poisoned.contains (l.pa / 128)
    | none => false

/-- The same access in another space. -/
def Addr.inSpace (space : Nat) : Addr → Addr
  | .glob _ va bs => .glob space va bs
  | .page _ va shd => .page space va shd
  | a => a

/-- Resolves a `.g` access of `n` bytes at a VA. `shd`: a shadow access. `acc`: 0 load, 1 store, 2 atomic. -/
def globResolve (s : State) (c : Crew) (w : Who) (j : Joiner) (shd : Bool) (acc va n : Nat) : State × GlobX :=
  if va ≥ 2 ^ 55 then (s, .trap 0x20 va (tdetOf acc 0 0 0 1 0) 0)
  else
    let pasid := (s.launchOf c).desc.pasid
    let vas := (List.range n).map (va + ·)
    if shd && vas.all (fun a => (viewAt s c a true).isNone) then (s, .addr .nowhere)
    else
      match xlatBytes w pasid j acc s 0 (vas.map (redirect s c shd false)) with
      | (s1, .inr (k, .page x)) => (s1, .page { x with addr := va + k })
      | (s1, .inr (k, .trap cause _ d0 d1)) => (s1, .trap cause (va + k) d0 d1)
      | (s1, .inr (k, .ok _)) => (s1, .trap 0x20 (va + k) 0 0)
      | (s1, .inl ls) =>
        match (if acc = 1 then none else poisonedAt s1 ls) with
        | some k => (s1, .trap 0x60 (va + k) 0 0)
        | none => (s1, .addr (.glob 4 va ((vas.zip ls).map fun x => globByte s1 c w shd acc x.1 x.2)))

/-- The lane part of a `.g` or `.p` instruction, whose operation is `k` at the address. -/
def globLane (i : Issue) (shd : Bool) (acc n : Nat) (va : Nat → Nat) (k : Nat → Addr → OpKind) (s : State) (l : Nat) :
    State × MemLane :=
  match globResolve s i.c (i.c.who s (i.g.lane l).mode) (.lane i.c.uid i.k l) shd acc (va l) n with
  | (s1, .addr a) => (s1, .op (k l a))
  | (s1, .trap cause ad d0 d1) => (s1, .trap cause ad d0 d1)
  | (s1, .page x) => (s1, .page x acc (k l (.page 4 (va l) shd)))

/-- The lane part of an instruction whose address needs no translation. -/
def plainLane (k : Nat → OpKind) (s : State) (l : Nat) : State × MemLane := (s, .op (k l))

/-! Performing (R195, R199, R209). -/

/-- The address of an operation. -/
def OpKind.addr? : OpKind → Option (Addr × Nat)
  | .load a _ z _ => some (a, sizeBytes z)
  | .store a z _ => some (a, sizeBytes z)
  | .atom a _ w _ _ _ => some (a, 4 * widthWords w)
  | .cas a n _ _ _ _ => some (a, n)
  | _ => none

/-- The space of an address, as a number: a `.g` access has 4, a `.p` access 8, a `.f` access 7 wherever it goes (R195, R403). -/
def Addr.space : Addr → Nat
  | .scr _ => 0
  | .nbr _ => 1
  | .vault _ _ => 2
  | .konst _ _ => 3
  | .glob n _ _ => n
  | .page n _ _ => n
  | .nowhere => 5
  | .host _ => 6
  | .fab _ _ => 7

/-- An operation's address is resolved: it waits on no page request, and a publish has not taken its bytes away. -/
def resolved (s : State) (c : Crew) (k : OpKind) : Bool :=
  match k.addr? with
  | some (.fab _ _, _) => true
  | some (a, n) => (addrLocs s c a n).length == n
  | none => true

/-- Two bytes are one, whatever page leads to them. -/
def Loc.same (a b : Loc) : Bool :=
  match a, b with
  | .phys x _ _, .phys y _ _ => x == y
  | .nowhere, _ => false
  | a, b => a == b

/-- Two operations have a byte in common through one space (R195); through `.f`, of one module (R403). -/
def sharesByte (s : State) (c : Crew) (o p : Op) : Bool :=
  match o.kind.addr?, p.kind.addr? with
  | some (.fab k x, n), some (.fab j y, m) => k == j && decide (x < y + m) && decide (y < x + n)
  | some (a, n), some (b, m) =>
    a.space == b.space && (addrLocs s c a n).any fun l => (addrLocs s c b m).any l.same
  | _, _ => false

/-- An earlier operation of the lane, or of a lower lane of the same instruction, must take effect first on a common byte (R195,
R222). -/
def mustFollow (s : State) (c : Crew) (o p : Op) : Bool :=
  decide (p.id < o.id) && p.gang == o.gang && (p.lanes &&& o.lanes != 0#32 || p.issue == o.issue) && sharesByte s c o p

/-- No byte that the operation reaches stands behind a seal that fails: such an operation gets nothing, and the world is to be torn down
(R390). -/
def sealsHold (s : State) (c : Crew) (k : OpKind) : Bool :=
  match k.addr? with
  | some (a, n) => (addrLocs s c a n).all fun
    | .phys pa true _ => !sealBroken s ((c.who s .user).world.map (·.2)) pa
    | _ => true
  | none => true

/-- The operation may perform now (R194, R195). -/
def opReady (s : State) (c : Crew) (o : Op) : Bool :=
  afterDone c o && resolved s c o.kind && sealsHold s c o.kind && !(c.ops.any (mustFollow s c o))

/-- One line of an access at L1 and L2 (R299, R301, R303). -/
def cacheLine (s : State) (c : Crew) (o : Op) (policy : Policy) (isLoad : Bool) (lf : Leaf) : State :=
  let line := lf.pa / 128
  let core := c.coreOf
  let lookup := fun (s : State) =>
    accessL2 s line (fillClass s c lf.prot) (policy == .strm) (!isLoad)
      (if o.looked.contains line then none else some (s.launchOf c).desc.cls) (fillWorld c lf.prot)
  if lf.cp = 2 then if isLoad then s else l1Drop s line
  else if isLoad then
    if lf.cp = 0 ∧ policy ≠ .l2 then
      if l1Has s core line then l1Add s core line else l1Add (lookup s) core line
    else lookup s
  else
    { lookup s with l1 := s.l1.filter fun e => e.2 != line || e.1 == core }

/-- A memory-side atomic writes back and invalidates every cached copy first (R305). -/
def memorySide (s : State) (lf : Leaf) : State := l1Drop (l2Drop s (lf.pa / 128)) (lf.pa / 128)

/-- One leaf per line of an access. -/
def lineLeaves : List Leaf → List Leaf
  | [] => []
  | l :: ls => l :: (lineLeaves ls).filter fun x => x.pa / 128 != l.pa / 128

/-- What an access does to the caches, and the dirty log of what it writes (R299, R303, R305, R394). -/
def cacheAccess (s : State) (c : Crew) (o : Op) : State :=
  match o.kind.addr? with
  | some (.glob _ _ bs, _) =>
    let lfs := lineLeaves (globNow s bs)
    let lines := lfs.map fun l => l.pa / 128
    let isLoad := match o.kind with
      | .load _ _ _ _ => true
      | _ => false
    let policy := match o.kind with
      | .load _ p _ _ => p
      | _ => .norm
    let isAtom := match o.kind with
      | .atom _ _ _ _ _ _ | .cas _ _ _ _ _ _ => true
      | _ => false
    let s0 := if isLoad then s
      else ((lfs.map fun l => l.gpa / 65536).eraseDups).foldl (fun s p => logDirty s (s.launchOf c).vf (p * 65536)) s
    let s1 := lfs.foldl (fun s lf =>
      if isAtom && lf.ms then memorySide s lf else cacheLine s c o policy isLoad lf) (touch s0 (lfs.map (·.pa)))
    s1.mapCrew c.uid fun c => { c with ops := c.ops.map fun p =>
      if p.issue = o.issue ∧ p.gang = o.gang then { p with looked := p.looked ++ lines } else p }
  | _ => s

/-- A loaded value as registers (R61). -/
def extendLoad (z : Size) (x : Nat) : List Word :=
  match z with
  | .i8 => wordsOf 1 (wrap (signExt x 8) 32)
  | .i16 => wordsOf 1 (wrap (signExt x 16) 32)
  | z => wordsOf (sizeWords z) x

/-- What performing an operation gives its lane. -/
structure OpResult where
  st : State
  words : List Word
  preds : List (Nat × Bool)
  deriving DecidableEq, Repr

/-- The effect of a load, store or atomic on the bytes it reaches (R209, R222 to R224). -/
def effect (s : State) (world : Option (Nat × Nat)) (locs : List Loc) : OpKind → OpResult
  | .load _ _ z _ =>
    { st := s, words := extendLoad z (natOfBytes (locs.map (readLoc s (world.map (·.2))))), preds := [] }
  | .store _ z data => { st := writeLocs s world locs (bytesOf (sizeBytes z) data), words := [], preds := [] }
  | .atom _ op w v _ pd =>
    let n := widthWords w
    let old := natOfBytes (locs.map (readLoc s (world.map (·.2))))
    { st := writeLocs s world locs (bytesOf (4 * n) (atomValue op (32 * n) old v)), words := wordsOf n old, preds := predOut pd true }
  | .cas _ n cmp new _ pd =>
    let old := natOfBytes (locs.map (readLoc s (world.map (·.2))))
    { st := if old = cmp then writeLocs s world locs (bytesOf n new) else s, words := wordsOf (n / 4) old
      preds := predOut pd (old == cmp) }
  | _ => { st := s, words := [], preds := [] }

/-! Parts, and values that scope keeps from an observer (R205 to R208). -/

/-- The places of the bytes of each part of an access of `n` bytes at an address: one part where the address is aligned to the size, two
of 8 bytes for an access of 16, otherwise one for each byte (R205). -/
def parts (at_ n : Nat) : List (List Nat) :=
  let bytes := (List.range n).map fun i => [i]
  if n = 16 then if at_ % 8 = 0 then [List.range 8, (List.range 8).map (8 + ·)] else bytes
  else if at_ % n = 0 then [List.range n]
  else bytes

/-- The address of an access as a number. -/
def Addr.number : Addr → Nat
  | .scr e | .nbr e | .vault _ e | .konst _ e | .host e => e
  | .glob _ va _ | .page _ va _ | .fab _ va => va
  | .nowhere => 0

/-- The access may reach a window, which no access sees half published (R204). -/
def windowed (s : State) (c : Crew) : Addr → Bool
  | .glob _ _ bs => bs.any fun b => b.win.isSome
  | .vault shd _ => shd || s.windows.any fun w => w.launch == c.launch && !w.glob
  | _ => false

/-- What is left to do of a load or store of which parts have been performed. -/
def effectRest (s : State) (world : Option (Nat × Nat)) (locs : List Loc) (got : List (Nat × Byte)) : OpKind → OpResult
  | .load _ _ z _ =>
    { st := s, preds := []
      words := extendLoad z (natOfBytes ((List.range locs.length).map fun j => match got.find? fun x => x.1 == j with
        | some x => x.2
        | none => readLoc s (world.map (·.2)) (locs.getD j .nowhere))) }
  | .store _ z data =>
    { st := writeLocs s world ((List.range locs.length).map fun j =>
        if got.any fun x => x.1 == j then .nowhere else locs.getD j .nowhere) (bytesOf (sizeBytes z) data)
      words := [], preds := [] }
  | k => effect s world locs k

/-- The scope of an operation for scope matching: its own, or that of a later operation which a mask orders after it, where that is wider
(R207). -/
def wideScope (c : Crew) (o : Op) : Nat := c.ops.foldl (fun n p => if p.after.contains o.id then max n p.scope else n) o.scope

/-- Notes the bytes of a store or atomic that has been performed; the module keeps the last 16 of each crew (R206, R210). -/
def notePast (s t : State) (c : Crew) (o : Op) (locs : List Loc) : State :=
  let bytes := locs.filterMap fun l => match l with
    | .scratch _ _ | .vault _ _ _ | .phys _ false _ => some (l, readLoc s none l, readLoc t none l)
    | _ => none
  let p : Past := { seq := t.stores, gang := o.gang, lanes := o.lanes, core := c.coreOf, stream := o.stream, scope := wideScope c o
                    bytes := bytes }
  { t.mapCrew c.uid fun c => { c with past := (p :: c.past).take 16 } with stores := t.stores + 1 }

/-- Gives an operation's results to its lane: nothing where they are discarded or the lane has exited (R160, R215, R334). -/
def writeBackOp (c : Crew) (o : Op) (words : List Word) (preds : List (Nat × Bool)) : Crew :=
  let l := lowest o.lanes
  if o.dropped || ((c.gang o.gang).lane l).run == .exited then c
  else c.mapGang o.gang fun g => (writeOpnd g l l o.kind.dst.1 words).mapLane l fun x => writePreds x preds

/-- Ends an operation of a crew: its results are written and its counts fall (R199). -/
def endOp (s : State) (uid : Nat) (o : Op) (words : List Word) (preds : List (Nat × Bool)) : State :=
  settleEnd (s.mapCrew uid fun c => (writeBackOp c o words preds).complete s.tick o) uid

/-- A load or an atomic, which returns what it reads. -/
def OpKind.reads : OpKind → Bool
  | .load _ _ _ _ | .atom _ _ _ _ _ _ | .cas _ _ _ _ _ _ => true
  | _ => false

/-- A store or an atomic, whose effect at its target a failure may leave unknown. -/
def OpKind.writes : OpKind → Bool
  | .load _ _ _ _ => false
  | _ => true

/-- Performs a load, store or atomic that is ready: what is left of it, where parts have been performed. -/
def performOp (s : State) (c : Crew) (o : Op) : State :=
  match o.kind.addr? with
  | some (a, n) =>
    let world := (c.who s .user).world
    let s1 := cacheAccess s c o
    let locs := addrLocs s c a n
    let r := if o.got.isEmpty then effect s1 world locs o.kind else effectRest s1 world locs o.got o.kind
    endOp (if o.kind.writes then notePast s1 r.st c o locs else r.st) c.uid o r.words r.preds
  | none => s

/-- An operation that has its storage in this module and waits for no answer. -/
def OpKind.here (k : OpKind) : Bool :=
  match k.addr? with
  | some (.host _, _) | some (.fab _ _, _) | none => false
  | some _ => true

/-- Performs one part of a pending load or store (R205). -/
def performPart (s : State) (uid op piece : Nat) : State :=
  match s.crew? uid with
  | none => s
  | some c => match c.op? op with
    | none => s
    | some o => match o.kind.addr? with
      | none => s
      | some (a, n) =>
        if !c.isResident || !o.kind.here || windowed s c a || !opReady s c o then s
        else
          let js := ((parts a.number n).getD piece []).filter fun j => !(o.got.any fun x => x.1 == j)
          let world := (c.who s .user).world
          let s1 := cacheAccess s c o
          let locs := addrLocs s c a n
          let took := fun (t : State) (bs : List Byte) => t.mapCrew uid fun c =>
            { c with ops := c.ops.map fun x => if x.id = op then { x with got := x.got ++ js.zip bs } else x }
          match o.kind with
          | .load _ _ _ _ => took s1 (js.map fun j => readLoc s1 (world.map (·.2)) (locs.getD j .nowhere))
          | .store _ z data =>
            let bs := js.map fun j => (bytesOf (sizeBytes z) data).getD j 0#8
            let mine := js.map fun j => locs.getD j .nowhere
            took (notePast s1 (writeLocs s1 world mine bs) c o mine) bs
          | _ => s

/-- The scope unit of a scope, of a lane of a gang of a crew on a core, contains a lane of another (R193). -/
def unitHas (scope uid gang core uid2 gang2 core2 : Nat) : Bool :=
  match scope with
  | 0 => uid == uid2 && gang == gang2
  | 1 => uid == uid2
  | 2 => core / 8 == core2 / 8
  | 3 => core / 64 == core2 / 64
  | _ => true

/-- A load and an earlier store of another lane are scope-matched (R207). -/
def scopeMatched (c : Crew) (o : Op) (d : Crew) (p : Past) : Bool :=
  unitHas (wideScope c o) c.uid o.gang c.coreOf d.uid p.gang p.core && unitHas p.scope d.uid p.gang p.core c.uid o.gang c.coreOf

/-- The value that a byte of a load had before the stores of a list; `none` where the newest of them is not what stands there now. -/
def pastByte (s : State) (ps : List Past) (l : Loc) : Option Byte :=
  let mine := ps.filterMap fun p => (p.bytes.find? fun x => l.same x.1).map fun x => (p.seq, x.2)
  match mine with
  | [] => some (readLoc s none l)
  | x :: xs =>
    let newest := xs.foldl (fun a b => if a.1 < b.1 then b else a) x
    let oldest := xs.foldl (fun a b => if b.1 < a.1 then b else a) x
    if newest.2.2 = readLoc s none l then some oldest.2.1 else none

/-- A load returns the values from before the last `n` stores performed, where none of those on its bytes is its lane's own or
scope-matched with it (R206 to R208). -/
def performStale (s : State) (uid op n : Nat) : State :=
  match s.crew? uid with
  | none => s
  | some c => match c.op? op with
    | none => s
    | some o => match o.kind with
      | .load a _ z _ =>
        let locs := addrLocs s c a (sizeBytes z)
        let late := s.crews.flatMap fun d => (d.past.filter fun p => decide (s.stores ≤ p.seq + n) &&
          p.bytes.any fun x => locs.any fun l => l.same x.1).map fun p => (d, p)
        let own := fun (x : Crew × Past) => x.1.uid == uid && x.2.gang == o.gang && x.2.lanes &&& o.lanes != 0#32
        let bs := locs.map (pastByte s (late.map (·.2)))
        if c.isResident && o.kind.here && o.got.isEmpty && opReady s c o && !late.isEmpty && bs.all Option.isSome &&
            late.all (fun x => !own x && !scopeMatched c o x.1 x.2) then
          endOp (cacheAccess s c o) uid o (extendLoad z (natOfBytes (bs.map fun b => b.getD 0#8))) []
        else s
      | _ => s

end Sys2Proof.Machine
end

