-- ==== Sys2Proof/Machine/Global.lean ====
section
/-!
DEFINITION. Memory and maintenance instructions of the tract: `.g` loads, stores and atomics, `hint`, `cwb`, `cinv`, `iinv`, `fbar`
(R290, R298, R305 to R312).
-/

namespace Sys2Proof.Machine

/-- `ld.g` (R290, R298, R307). -/
def execLdG (h : Hdr) (p : Policy) (shd : Bool) (z : Size) (d : Opnd) (m : MemArg) (s : State) : Host.Outcome State Fault Refusal :=
  issueMemory s h ((d, sizeWords z) :: memUses m true) [] d m.clause (scopeCode m.scope) 0 fun i =>
    globLane i shd 0 (sizeBytes z) (fun l => address64 i.g s.draws l m (sizeBytes z) false) fun _ a => .load a p z d

/-- `st.g` (R290, R298, R307). The policy changes only timing. -/
def execStG (h : Hdr) (_p : Policy) (shd : Bool) (z : Size) (b : Opnd) (m : MemArg) (s : State) : Host.Outcome State Fault Refusal :=
  issueMemory s h ((b, sizeWords z) :: memUses m true) [] .vz m.clause (scopeCode m.scope) 0 fun i =>
    globLane i shd 1 (sizeBytes z) (fun l => address64 i.g s.draws l m (sizeBytes z) false)
      fun l a => .store a z (readWide i.g s.draws l b (sizeWords z))

/-- An atomic on the aligned VA (R308). -/
def atomGlob (s : State) (h : Hdr) (op : AtomOp) (w : AWidth) (d b : Opnd) (m : MemArg) : Host.Outcome State Fault Refusal :=
  let n := widthWords w
  issueMemory s h ([(d, n), (b, n)] ++ memUses m true) [] d m.clause (scopeCode m.scope) 0 fun i =>
    globLane i false 2 (4 * n) (fun l => address64 i.g s.draws l m (4 * n) true)
      fun l a => .atom a op w (readWide i.g s.draws l b n) d none

/-- `atom.g` (R223, R308). -/
def execAtomG (h : Hdr) (op : AtomOp) (w : AWidth) (d b : Opnd) (m : MemArg) (s : State) : Host.Outcome State Fault Refusal :=
  atomGlob s h op w d b m

/-- `red.g` (R308): `atom.g` whose old value is discarded. -/
def execRedG (h : Hdr) (op : AtomOp) (w : AWidth) (b : Opnd) (m : MemArg) (s : State) : Host.Outcome State Fault Refusal :=
  atomGlob s h op w .vz b m

/-- `cas.g` (R224, R308). -/
def execCasG (h : Hdr) (w : AWidth) (d b : Opnd) (pd : PredOpt) (m : MemArg) (s : State) : Host.Outcome State Fault Refusal :=
  let n := widthWords w
  issueMemory s h ([(d, n), (b, 2 * n)] ++ memUses m true) [pd] d m.clause (scopeCode m.scope) 0 fun i =>
    globLane i false 2 (4 * n) (fun l => address64 i.g s.draws l m (4 * n) true)
      fun l a => .cas a (4 * n) (readWide i.g s.draws l b n) (readWide i.g s.draws l (Opnd.plus b n) n) d pd

/-- A maintenance instruction over [va, va + length); a length above 2^30 acts as 2^30 (R306). -/
def maintain (s : State) (h : Hdr) (k : Maint) (b : Opnd) (m : MemArg) : Host.Outcome State Fault Refusal :=
  issueCounted s h ((b, 1) :: memUses m true) [] m.clause (scopeCode m.scope) fun s i l =>
    .maint k (address64 i.g s.draws l m 1 false) (min (readWide i.g s.draws l b 1) (2 ^ 30))

/-- `hint.l2` (R309). -/
def execHintL2 (h : Hdr) (b : Opnd) (m : MemArg) (s : State) : Host.Outcome State Fault Refusal := maintain s h .hintL2 b m

/-- `hint.l1` (R309). -/
def execHintL1 (h : Hdr) (b : Opnd) (m : MemArg) (s : State) : Host.Outcome State Fault Refusal := maintain s h .hintL1 b m

/-- `hint.lru` (R309). -/
def execHintLru (h : Hdr) (b : Opnd) (m : MemArg) (s : State) : Host.Outcome State Fault Refusal := maintain s h .hintLru b m

/-- `cwb.l2` (R310). -/
def execCwbL2 (h : Hdr) (b : Opnd) (m : MemArg) (s : State) : Host.Outcome State Fault Refusal := maintain s h .cwbL2 b m

/-- `cwb.mem` (R310). -/
def execCwbMem (h : Hdr) (b : Opnd) (m : MemArg) (s : State) : Host.Outcome State Fault Refusal := maintain s h .cwbMem b m

/-- `cinv.l1` (R310). -/
def execCinvL1 (h : Hdr) (b : Opnd) (m : MemArg) (s : State) : Host.Outcome State Fault Refusal := maintain s h .cinvL1 b m

/-- `cinv.l2` (R310). -/
def execCinvL2 (h : Hdr) (b : Opnd) (m : MemArg) (s : State) : Host.Outcome State Fault Refusal := maintain s h .cinvL2 b m

/-- `iinv` (R311). -/
def execIinv (h : Hdr) (b : Opnd) (m : MemArg) (s : State) : Host.Outcome State Fault Refusal := maintain s h .iinv b m

/-- `fbar` (R312): one operation of the executing lanes. The gang discards the line it fetched, and issues nothing until the `fbar` completes. -/
def execFbar (h : Hdr) (cl : Clause) (s : State) : Host.Outcome State Fault Refusal :=
  issueSwitch s h [] [] fun i m =>
    if exhausted i.g m cl.stream then s
    else if m = 0#32 then finishSwitch s s i i.c [nextGroup s i i.e.mask] []
    else finishSwitch s s i ((i.c.addOp i.k s.draws i.e.pc m cl 0 .fbar).mapGang i.k fun g => { g with line := none, fbarPending := true })
      [nextGroup s i i.e.mask] []

/-! Completion of the maintenance operations (R309 to R312). -/

/-- The lines that meet a range, page by page, that translate for the issuer: the PA lines, and the number of pages dropped. Pages of
a world that is not the issuer's are dropped. -/
def rangeLines (s : State) (c : Crew) (mode : Mode) (va len : Nat) : State × List Nat × Nat :=
  if len = 0 then (s, [], 0)
  else
    let first := va / 65536
    let count := (va + len - 1) / 65536 - first + 1
    (List.range count).foldl (fun acc k =>
      let page := first + k
      let lo := max va (page * 65536)
      let hi := min (va + len) (page * 65536 + 65536)
      match translate acc.1 (c.who s mode) 0 (page * 65536) with
      | (s1, .ok lf) =>
        let base := lf.pa / 65536 * 65536
        let l0 := (base + lo % 65536) / 128
        let l1 := (base + (hi - 1) % 65536) / 128
        (s1, acc.2.1 ++ (List.range (l1 - l0 + 1)).map (l0 + ·), acc.2.2)
      | (s1, _) => (s1, acc.2.1, acc.2.2 + 1)) (s, [], 0)

/-- Adds to `HINTDROP`, which sticks at its top (R309). -/
def hintDrop (s : State) (vf ctx n : Nat) : State :=
  if n = 0 then s
  else s.mapCtx vf ctx fun x => { x with hintdrop := BitVec.ofNat 32 (min (x.hintdrop.toNat + n) (2 ^ 32 - 1)) }

/-- Writes a dirty line of L2 back to HBM; the line stays valid (R310). -/
def cleanLine (s : State) (line : Nat) : State :=
  match s.l2.find? (fun l => l.line == line) with
  | some l => { writeBack s l with l2 := s.l2.map fun x => if x.line = line then { x with dirty := false, under := none } else x }
  | none => s

/-- A line becomes the least recent of its set where it is present (R309). -/
def leastRecent (s : State) (line : Nat) : State :=
  match s.l2.find? (fun l => l.line == line) with
  | some l => { s with l2 := (s.l2.filter fun x => x.line != line) ++ [l] }
  | none => s

/-- The cores whose instruction buffers an `iinv` of a scope clears (R311). -/
def iinvCores (c : Crew) (scope core : Nat) : Bool :=
  if scope ≤ 1 then core == c.coreOf
  else if scope = 2 then core / 8 == c.camp
  else if scope = 3 then core / 64 == c.tract
  else true

/-- Removes a 64-byte-line range from instruction buffers (R311). -/
def dropInstr (s : State) (c : Crew) (scope : Nat) (lines : List Nat) : State :=
  { s with ibuf := s.ibuf.filter fun e => !(iinvCores c scope e.1 && lines.contains (e.2.1 / 128)) }

/-- A gang within the scope still issues from its own copy of a removed line (R311). -/
def stillIssuing (s : State) (c : Crew) (scope : Nat) (lines : List Nat) : Bool :=
  s.crews.any fun d =>
    d.isResident && iinvCores c scope d.coreOf &&
      d.gangs.any fun g => !g.retired && (match g.line with
        | some (lva, _) => lines.contains (g.linePa / 128) && g.chosen && g.frontier.head?.any fun e => pcLine e.pc == lva
        | none => false)

/-- Gangs within an `iinv`'s scope that are not issuing from a removed line lose their copy of it. -/
def dropCopies (s : State) (c : Crew) (scope : Nat) (lines : List Nat) : State :=
  { s with crews := s.crews.map fun d =>
      if d.isResident && iinvCores c scope d.coreOf then
        { d with gangs := d.gangs.map fun g => if lines.contains (g.linePa / 128) then { g with line := none } else g }
      else d }

/-- What a maintenance operation does when it completes; `none` while an `iinv` waits for gangs to leave a line (R309 to R311). -/
def performMaint (s : State) (c : Crew) (o : Op) (k : Maint) (va len : Nat) : Option State :=
  let la := s.launchOf c
  let mode := ((c.gang o.gang).lane (lowest o.lanes)).mode
  let r := rangeLines s c mode va len
  let s1 := r.1
  let lines := r.2.1
  let cls := la.desc.cls
  match k with
  | .hintL2 => some (hintDrop (lines.foldl (fun s l => accessL2 s l cls false false none none) s1) la.vf la.ctx r.2.2)
  | .hintL1 => some (hintDrop (lines.foldl (fun s l => l1Add (accessL2 s l cls false false none none) c.coreOf l) s1)
      la.vf la.ctx r.2.2)
  | .hintLru => some (hintDrop (lines.foldl leastRecent s1) la.vf la.ctx r.2.2)
  | .cwbL2 => some s1
  | .cwbMem => some (lines.foldl cleanLine s1)
  | .cinvL1 => some { s1 with l1 := s1.l1.filter fun e => !(e.1 == c.coreOf && lines.contains e.2) }
  | .cinvL2 => some (lines.foldl (fun s l => l1Drop (l2Drop s l) l) s1)
  | .iinv =>
    if stillIssuing s c o.scope lines then none
    else some (dropCopies (dropInstr s1 c o.scope lines) c o.scope lines)

/-- `fbar` completes: the gang fetches anew (R312). -/
def performFbar (s : State) (uid : Nat) (o : Op) : State :=
  s.mapCrew uid fun c => c.mapGang o.gang fun g => { g with line := none, fbarPending := false }

end Sys2Proof.Machine
end

