-- ==== Sys2Proof/Machine/Copy.lean ====
section
/-!
DEFINITION. Collective copies and the flumes: `copy`, `copy.f`, `cpwp`, `cpcancel`; the forming, beginning, delivery and completion of
copies; copy faults; publishing a window (R225 to R233, R246, R265, R407, R408).
-/

namespace Sys2Proof.Machine

/-! Descriptors (R227, R407). -/

def Slice.word (x : Slice) (i : Nat) : Nat := (x.words.getD i 0#32).toNat

/-- Row bytes, rows and pitch. -/
def Slice.rb (x : Slice) : Nat := bits (x.word 3) 16 0
def Slice.nr (x : Slice) : Nat := bits (x.word 4) 16 0
def Slice.sp (x : Slice) : Nat := x.word 5

/-- Bytes that a slice moves. -/
def Slice.len (x : Slice) : Nat := x.rb * x.nr

/-- The descriptor keeps to its fields (R227, R407). -/
def Slice.fieldsOk (x : Slice) : Bool :=
  bits (x.word 3) 31 17 == 0 && decide (x.rb ≤ 65536) && bits (x.word 4) 31 17 == 0 && decide (x.nr ≤ 65536) &&
    (if x.fab then !bit (x.word 1) 23
     else match x.src with
      | 0 => bits (x.word 1) 31 23 == 0
      | 1 => bits (x.word 1) 31 4 == 0
      | 2 => bits (x.word 1) 31 3 == 0
      | _ => x.word 1 == 0)

/-- The address that strides by the pitch: the source of a copy or a get, the destination of a put. For `.g` and `.f` the VA. -/
def Slice.base (x : Slice) : Nat :=
  if x.fab || x.src == 0 then x.word 0 + bits (x.word 1) 22 0 * 2 ^ 32 else x.word 0

/-- The module of a fabric slice. -/
def Slice.module (x : Slice) : Nat := bits (x.word 1) 31 24

/-- Byte `j` on the strided side. -/
def Slice.far (x : Slice) (j : Nat) : Nat := x.base + j / x.rb * x.sp + j % x.rb

/-- Byte `j` on the packed side: scratchpad or window offset. -/
def Slice.near (x : Slice) (j : Nat) : Nat := x.word 2 + j

/-! Slices and the forming of copies (R225, R228). -/

def Crew.channel (c : Crew) (n : Nat) : Channel := c.channels.getD n Channel.fresh
def Crew.mapChannel (c : Crew) (n : Nat) (f : Channel → Channel) : Crew := { c with channels := modifyNth c.channels n f }

/-- Outstanding copies of a channel: those that have not completed; a cancelled one has (R225, R233). -/
def Channel.outstanding (ch : Channel) : Nat := (ch.copies.filter fun x => !x.cancelled).length

/-- Every unretired gang has contributed its slice of a copy. -/
def allContributed (c : Crew) (ch : Channel) (seq : Nat) : Bool := c.liveGangs.all fun k => decide (seq < ch.slices.getD k 0)

/-- Copies whose slices are all there form; a cancelled copy that waits for no more slices is forgotten (R228, R233). -/
def formChannel (c : Crew) (ch : Channel) : Channel :=
  let cs := ch.copies.map fun x => if allContributed c ch x.seq then { x with formed := true } else x
  { ch with
    formed := cs.foldl (fun n x => if x.formed then max n (x.seq + 1) else n) ch.formed
    copies := cs.filter fun x => !(x.cancelled && x.formed) }

def formCopies (c : Crew) : Crew := { c with channels := c.channels.map (formChannel c) }

/-- A `copy` of a gang can issue: it joins a copy that exists, or makes one that is not the 17th outstanding (R225). -/
def channelRoom (ch : Channel) (k : Nat) : Bool :=
  ch.copies.any (fun x => x.seq == ch.slices.getD k 0) || decide (ch.outstanding < 16)

/-- Contributes a gang's next slice on a channel; a slice of a cancelled copy completes at once (R228, R233). -/
def contribute (c : Crew) (n : Nat) (x : Slice) : Crew :=
  let ch := c.channel n
  let seq := ch.slices.getD x.gang 0
  let cs := if ch.copies.any (fun y => y.seq == seq) then
      ch.copies.map fun y => if y.seq = seq ∧ !y.cancelled then { y with slices := y.slices ++ [x] } else y
    else ch.copies ++ [{ seq := seq, slices := [x], formed := false, begun := false, reserve := false, cancelled := false, lost := false }]
  formCopies (c.mapChannel n fun ch => { ch with copies := cs, slices := modifyNth ch.slices x.gang (· + 1) })

/-- The copy that a gang's next slice joins has been cancelled. -/
def joinsCancelled (ch : Channel) (k : Nat) : Bool := ch.copies.any fun x => x.seq == ch.slices.getD k 0 && x.cancelled

/-- Issues a collective copy (R226, R228, R407): the lowest executing lane's registers describe the gang's slice, which every executing
lane counts. -/
def issueCopy (s : State) (h : Hdr) (chan : Fin 8) (a b : Opnd) (e : EngArg) (src : Nat) (fab put : Bool) (win : Option Nat) :
    Host.Outcome State Fault Refusal :=
  issueSwitch s h [(a, 4), (b, 2)] [] fun i m =>
    let ch := i.c.channel chan.val
    if m = 0#32 then finishSwitch s s i i.c [nextGroup s i i.e.mask] []
    else if exhausted i.g m e.clause.stream || !channelRoom ch i.k then s
    else
      let l := lowest m
      let words := (List.range 4).map (fun j => readOpnd i.g s.draws l (Opnd.plus a j)) ++
        (List.range 2).map fun j => readOpnd i.g s.draws l (Opnd.plus b j)
      let x : Slice :=
        { gang := i.k, op := i.c.nextOp, lanes := m, stream := e.clause.stream.val, scope := scopeCode e.scope, pc := i.e.pc, src := src
          fab := fab, put := put, win := win, words := words, done := 0, empty := false }
      let c1 := if joinsCancelled ch i.k then i.c
        else i.c.addOp i.k s.draws i.e.pc m e.clause (scopeCode e.scope) (.copy chan.val (ch.slices.getD i.k 0))
      finishSwitch s s i (contribute c1 chan.val x) [nextGroup s i i.e.mask] []

def copySrcCode : CopySrc → Nat
  | .g => 0
  | .v => 1
  | .n => 2
  | .s => 3

/-- `copy` (R226 to R228). -/
def execCopy (h : Hdr) (src : CopySrc) (win : Option (Fin 64)) (chan : Fin 8) (a b : Opnd) (e : EngArg) (s : State) :
    Host.Outcome State Fault Refusal := issueCopy s h chan a b e (copySrcCode src) false false (win.map (·.val))

/-- `copy.f.get` (R407). -/
def execCopyFGet (h : Hdr) (chan : Fin 8) (a b : Opnd) (e : EngArg) (s : State) : Host.Outcome State Fault Refusal :=
  issueCopy s h chan a b e 0 true false none

/-- `copy.f.getw` (R407). -/
def execCopyFGetw (h : Hdr) (win : Fin 64) (chan : Fin 8) (a b : Opnd) (e : EngArg) (s : State) :
    Host.Outcome State Fault Refusal := issueCopy s h chan a b e 0 true false (some win.val)

/-- `copy.f.put` (R407). -/
def execCopyFPut (h : Hdr) (chan : Fin 8) (a b : Opnd) (e : EngArg) (s : State) : Host.Outcome State Fault Refusal :=
  issueCopy s h chan a b e 0 true true none

/-- `cpwp` (R232). -/
def execCpwp (h : Hdr) (chan : Fin 8) (d : Opnd) (s : State) : Host.Outcome State Fault Refusal :=
  issueSwitch s h [(d, 1)] [] fun i m =>
    let outs := m.lanes.map fun l => (l, ({ words := [(i.c.channel chan.val).wp], preds := [], flags := 0#6 } : LaneOut))
    finishSwitch s s i (i.c.setGang i.k (writeOuts i.g h (lowest m) d outs)) [nextGroup s i i.e.mask] []

/-- `cpcancel` (R233). -/
def execCpcancel (h : Hdr) (chan : Fin 8) (e : EngArg) (s : State) : Host.Outcome State Fault Refusal :=
  issueCounted s h [] [] e.clause (scopeCode e.scope) fun _ _ _ => .cpcancel chan.val

/-! Publishing (R246). -/

/-- Publishes a window: CUR changes over, GEN advances (R246). -/
def publish (s : State) (home entry : Nat) : State :=
  s.mapWindow home entry fun w => { w with cur := !w.cur, gen := w.gen + 1#32 }

/-- A slice goes into the shadow of a window of its crew's camp. -/
def Slice.intoWindow (x : Slice) (entry : Nat) : Bool := x.win == some entry && !x.put

/-- A slice still has bytes to write into the shadow of a window. -/
def Slice.writesWindow (x : Slice) (entry : Nat) : Bool := x.intoWindow entry && decide (x.done < x.len)

/-- A running task has written some of its result and not all of it (R273). -/
def Task.midway (t : Task) : Bool := t.state == .run && decide (0 < t.moved) && (match t.out with
  | some x => !x.1.isEmpty
  | none => true)

/-- A record's destination descriptor names a window (R249). -/
def destWindow (r : List Byte) : Option Nat :=
  if bits (recWord r 0x44) 31 28 = 4 then some (bits (recWord r 0x48) 5 0) else none

/-- An engine that writes a window's shadow has not completed: a publish waits for it, and its own goes first (R246). -/
def windowBusy (s : State) (launch camp entry : Nat) : Bool :=
  s.crews.any fun c => c.launch == launch && c.isResident && c.camp == camp &&
    (c.channels.any (fun ch => ch.copies.any fun x => x.begun && !x.cancelled && x.slices.any fun y => y.intoWindow entry) ||
      c.tasks.any fun t => t.state == .run && destWindow t.record == some entry)

/-- Engine writes to a window's shadow are in flight. An engine that has written all of its own waits for these before its publish (R246). -/
def windowWrites (s : State) (launch camp entry : Nat) : Bool :=
  s.crews.any fun c => c.launch == launch && c.isResident && c.camp == camp &&
    (c.channels.any (fun ch => ch.copies.any fun x => x.begun && !x.cancelled && x.slices.any fun y => y.writesWindow entry) ||
      c.tasks.any fun t => t.midway && destWindow t.record == some entry)

/-! Command entries (R265). -/

/-- Flume entries of a camp in use: copies that have begun, kind-0x08 tasks and staging transfers that run. -/
def flumeUse (s : State) (camp flume : Nat) : Nat :=
  (s.crews.filter fun c => c.isResident && c.camp == camp).foldl (fun n c =>
    n + ((List.range 8).filter fun ch => ch % 2 == flume).foldl (fun n ch =>
        n + ((c.channel ch).copies.filter fun x => x.begun && !x.cancelled && !x.reserve).length) 0
      + ((List.range 64).filter fun e =>
          (c.task e).state == .run && (c.task e).engine == 4 + flume).length
      + ((List.range 64).filter fun e => e % 2 == flume && (match (c.task e).ws0 with
          | .moving _ => true
          | _ => false)).length
      + ((List.range 64).filter fun e => e % 2 == flume && (match (c.task e).ws1 with
          | .moving _ => true
          | _ => false)).length) 0

/-- Entries of each flume of a camp that pipelined launches placed there reserve (R265). -/
def flumeReserved (s : State) (camp : Nat) : Nat :=
  (s.vaults.filter fun v => v.camp == camp).foldl (fun n v => match s.launch? v.launch with
    | some l => if l.pipe then n + l.stages.length else n
    | none => n) 0

/-- A shared entry of a flume is free. -/
def sharedFree (s : State) (camp flume : Nat) : Bool := decide (flumeUse s camp flume + flumeReserved s camp < 64)

/-- The reserve entry of a crew's stage is free, and its copies may take it. -/
def reserveFree (s : State) (c : Crew) (flume : Nat) : Bool :=
  (s.launchOf c).pipe && c.fullAtStart &&
    !(s.crews.any fun d => d.isResident && d.camp == c.camp && d.launch == c.launch && d.stage == c.stage &&
      (List.range 8).any fun ch => ch % 2 == flume && (d.channel ch).copies.any fun x => x.begun && x.reserve && !x.cancelled)

/-! Copy faults (R231). -/

/-- A copy fault of a slice: sub-cause and faulting address. -/
structure CopyFault where
  sub : Nat
  addr : Nat
  deriving DecidableEq, Repr

/-- Size of what a slice's packed side lies in, or none where the crew does not hold the window. -/
def nearBound (s : State) (c : Crew) (x : Slice) : Option Nat :=
  match x.win with
  | some w => (c.window? s w).map (·.size)
  | none => some c.ssize

/-- Size of the source space of a slice; none for `.g` and `.f`. -/
def farBound (s : State) (c : Crew) (x : Slice) : Option Nat :=
  if x.fab then none
  else match x.src with
    | 1 => some (match s.vault? c.launch (if bit (x.word 1) 3 then 8 * c.tract + bits (x.word 1) 2 0 else c.camp) with
      | some v => v.size
      | none => 0)
    | 2 => some (match s.resident? (8 * c.camp + bits (x.word 1) 2 0) with
      | some d => if d.launch = c.launch then d.ssize else 0
      | none => 0)
    | 3 => some c.ssize
    | _ => none

/-- The fault of byte `j` of a slice where it lies outside its bounds; the destination is looked at first (log entry 104). -/
def boundFault (nearB : Nat) (farB : Option Nat) (x : Slice) (j : Nat) : Option CopyFault :=
  if x.near j ≥ nearB then some { sub := if x.put then 3 else 2, addr := x.near j }
  else match farB with
    | some b => if x.far j ≥ b then some { sub := 3, addr := x.far j } else none
    | none => none

/-- The rows of a slice at which a bound can first fail: the first byte of the packed side that passes its bound, and of each row the
first byte that passes the source's. -/
def firstBoundFault (s : State) (c : Crew) (x : Slice) : Option CopyFault :=
  match nearBound s c x with
  | none => some { sub := 2, addr := x.near 0 }
  | some nb =>
    if x.len = 0 then none
    else
      let fb := farBound s c x
      let cand := (if x.near 0 ≥ nb then [0] else [nb - x.near 0]) ++ (match fb with
        | none => []
        | some b => (List.range x.nr).filterMap fun r =>
            let at_ := x.base + r * x.sp
            if at_ ≥ b then some (r * x.rb) else if at_ + x.rb > b then some (r * x.rb + (b - at_)) else none)
      let js := cand.filter fun j => decide (j < x.len)
      match js with
      | [] => none
      | j :: t => boundFault nb fb x (t.foldl min j)

/-- The fault that the flume finds in a slice when its copy begins: of its descriptor or of a bound; translation, permission and
uncorrectable data are found as its bytes are moved (log entry 105). -/
def beginFault (s : State) (c : Crew) (x : Slice) : Option CopyFault :=
  if !x.fieldsOk then some { sub := 1, addr := 0 } else firstBoundFault s c x

/-- The record of a copy fault (R231). -/
def faultRecord (c : Crew) (chan : Nat) (x : Slice) (f : CopyFault) : Record :=
  laneRecord c x.gang 0x28 2 x.lanes x.pc f.addr ((chan * 16 + x.gang) * 2 ^ 16 + f.sub) x.done

/-- A copy fault: one record, then the crew is terminated, once the ring has room (R215, R231, R330). -/
def raiseCopyFault (s : State) (c : Crew) (chan : Nat) (x : Slice) (f : CopyFault) : State :=
  giveRecords s (c.ring s) c.uid none (.die 0 chan) [faultRecord c chan x f] fun s => terminate s c.uid none

/-! Beginning (R231, R265). -/

/-- The operations of a slice's lanes that must be performed first have been (R202). -/
def sliceReady (c : Crew) (x : Slice) : Bool :=
  match c.ops.find? (fun o => o.id == x.op) with
  | some o => afterDone c o
  | none => true

/-- The next copy of a channel to begin: the first that has formed and not begun. -/
def nextToBegin (ch : Channel) : Option Copy := ch.copies.find? fun x => x.formed && !x.begun && !x.cancelled

def Channel.mapCopy (ch : Channel) (seq : Nat) (f : Copy → Copy) : Channel :=
  { ch with copies := ch.copies.map fun x => if x.seq = seq then f x else x }

/-- Slices in gang order (R229). -/
def Copy.ordered (x : Copy) : List Slice := (List.range 16).flatMap fun k => x.slices.filter fun y => y.gang == k

/-- A fabric slice as its copy begins, with its module's ROUTE (R402). -/
def Slice.begin_ (s : State) (x : Slice) : Slice :=
  if x.fab then { x with homed := x.module == s.fabid.toNat, route := sget 0#64 s.routes x.module } else x

/-- A formed copy takes a command entry and begins; a fault that its slices show terminates the crew (R231, R265). -/
def execCopyBegin (uid chan : Nat) (s : State) : Host.Outcome State Fault Refusal :=
  match s.crew? uid with
  | none => finish s
  | some c =>
    match nextToBegin (c.channel chan) with
    | none => finish s
    | some x =>
      let shared := sharedFree s c.camp (chan % 2)
      if !c.isResident || !(x.slices.all (sliceReady c)) || !(shared || reserveFree s c (chan % 2)) || owing s uid 0 chan then
        finish s
      else
        match x.ordered.findSome? (fun y => (beginFault s c y).map fun f => (y, f)) with
        | some (y, f) => finish (raiseCopyFault s c chan y f)
        | none =>
          finish (s.setCrew (c.mapChannel chan fun ch => ch.mapCopy x.seq fun x =>
            { x with begun := true, reserve := !shared, slices := x.slices.map (·.begin_ s) }))

/-! Delivery (R229, R230). -/

/-- What reading or writing one byte of a copy comes to. -/
inductive CopyByte where
  | ok (s : State) (b : Byte)
  | fault (s : State) (f : CopyFault)
  | wait (s : State)
  deriving DecidableEq, Repr

/-- The sub-cause of a translation that gave up (R231); in a fabric copy every one has 4 (R408). -/
def copySub (fab : Bool) (cause : Nat) : Nat := if cause = 0x22 ∧ fab = false then 5 else 4

/-- Where a VA that an engine reads or stores to lies: in a public view in the backing that CUR names (R298). -/
def publicVa (s : State) (c : Crew) (va : Nat) : Nat :=
  match viewAt s c va false with
  | some v => v.backing v.cur va
  | none => va

/-- An engine as a translator on a crew's behalf; for a fabric access outside every world (R403). -/
def engineWho (s : State) (c : Crew) (fab : Bool) : Who := if fab then { c.engine s with world := none } else c.engine s

/-- Translates one byte for an engine on a crew's behalf. Where `pri` holds, a stage-2 miss waits on a page request (R295); a fabric copy's
bytes in this module send none (R403). -/
def engineXlat (s : State) (c : Crew) (j : Joiner) (pri : Bool) (acc va : Nat) : State × LaneXlat :=
  let w := engineWho s c !pri
  if pri then laneXlat s w (s.launchOf c).desc.pasid j acc va 1
  else match translateN s w acc va 1 with
    | (s1, .inl ls) => (s1, .ok ls)
    | (s1, .inr (a, .fault cause d)) => (s1, .trap cause a d 0)
    | (s1, .inr (a, _)) => (s1, .trap 0x21 a 0 0)

/-- An engine's access to a line through its leaf: at L2, unless the page has CP = 2 (R299, R301). -/
def engineLine (s : State) (c : Crew) (lf : Leaf) (dirty : Bool) : State :=
  if lf.cp = 2 then s else accessL2 s (lf.pa / 128) (fillClass s c lf.prot) false dirty none (fillWorld c lf.prot)

/-- Reads a `.g` byte for an engine, through a public view where one holds it (R298). -/
def engineRead (s : State) (c : Crew) (j : Joiner) (pri : Bool) (va errAddr : Nat) : CopyByte :=
  match engineXlat s c (j.at errAddr) pri 0 (publicVa s c va) with
  | (s1, .ok (lf :: _)) =>
    if s1.poisoned.contains (lf.pa / 128) then .fault s1 { sub := 6, addr := errAddr }
    else
      let s2 := engineLine (touch s1 [lf.pa]) c lf false
      if leafBroken s2 (engineWho s c !pri) lf then .wait s2 else .ok s2 (readLeaf s2 (engineWho s c !pri) lf)
  | (s1, .page _) => .wait s1
  | (s1, .trap cause _ _ _) => .fault s1 { sub := copySub (!pri) cause, addr := errAddr }
  | (s1, .ok []) => .wait s1

/-- Writes a `.g` byte for an engine. -/
def engineWrite (s : State) (c : Crew) (j : Joiner) (pri : Bool) (va errAddr : Nat) (b : Byte) : CopyByte :=
  match engineXlat s c (j.at errAddr) pri 1 va with
  | (s1, .ok (lf :: _)) =>
    let s2 := logDirty (touch s1 [lf.pa]) (s.launchOf c).vf lf.gpa
    let s3 := engineLine s2 c lf true
    if leafBroken s3 (engineWho s c !pri) lf then .wait s3
    else .ok (l1Drop (writeByte s3 ((engineWho s c !pri).through lf.prot) lf.pa b) (lf.pa / 128)) b
  | (s1, .page _) => .wait s1
  | (s1, .trap cause _ _ _) => .fault s1 { sub := copySub (!pri) cause, addr := errAddr }
  | (s1, .ok []) => .wait s1

/-- Writes byte `off` of a window's shadow, as it now is (R245, R298). -/
def shadowWrite (s : State) (c : Crew) (j : Joiner) (entry off : Nat) (b : Byte) : CopyByte :=
  match c.window? s entry with
  | none => .fault s { sub := 2, addr := off }
  | some w =>
    if w.glob then engineWrite s c j true (w.backing (!w.cur) (w.woff + off)) off b
    else .ok (writeLoc s none (shadowLoc w off) b) b

/-- Concat(module, va) of the strided side of a fabric slice (R406, R408). -/
def Slice.farWord (x : Slice) (j : Nat) : Nat := x.module * 2 ^ 56 + x.far j

/-- Reads a byte of a scratchpad or a vault for an engine (R231, R275). -/
def onChip (s : State) (world : Option Nat) (at_ : Loc) (errAddr : Nat) : CopyByte :=
  if s.spoiled.contains at_ then .fault s { sub := 6, addr := errAddr } else .ok s (readLoc s world at_)

/-- Reads byte `j` of a slice's source. -/
def readSlice (s : State) (c : Crew) (chan : Nat) (x : Slice) (j : Nat) : CopyByte :=
  let world := (c.engine s).world.map (·.2)
  let src := fun at_ => onChip s world at_ (x.far j)
  if x.put then onChip s world (.scratch c.uid (x.near j)) (x.near j)
  else if x.fab then
    if x.homed then engineRead s c (.engine c.uid 0 chan 0) false (x.far j) (x.farWord j)
    else .ok { s with draws := s.draws + 1 } (Config.remoteByte s.draws)
  else match x.src with
    | 0 => engineRead s c (.engine c.uid 0 chan 0) true (x.far j) (x.far j)
    | 1 => src (vaultLoc s c.launch (if bit (x.word 1) 3 then 8 * c.tract + bits (x.word 1) 2 0 else c.camp) (x.far j))
    | 2 => src (nLoc s c (bits (x.word 1) 2 0 * 2 ^ 19 + x.far j) 0)
    | _ => src (.scratch c.uid (x.far j))

/-- Writes byte `j` of a slice's destination. -/
def writeSlice (s : State) (c : Crew) (chan : Nat) (x : Slice) (j : Nat) (b : Byte) : CopyByte :=
  if x.put then
    if x.homed then engineWrite s c (.engine c.uid 0 chan 0) false (publicVa s c (x.far j)) (x.farWord j) b else .ok s b
  else match x.win with
    | some w => shadowWrite s c (.engine c.uid 0 chan 0) w (x.near j) b
    | none => .ok (writeLoc s none (.scratch c.uid (x.near j)) b) b

/-- Moves byte `j` of a slice, within its bounds; a fabric VA has 55 bits (R231, R403, R408). -/
def moveByte (s : State) (c : Crew) (chan : Nat) (x : Slice) (j : Nat) : CopyByte :=
  match (nearBound s c x).bind fun nb => boundFault nb (farBound s c x) x j with
  | some f => .fault s f
  | none =>
    if x.fab && decide (x.far j ≥ 2 ^ 55) then .fault s { sub := 4, addr := x.farWord j }
    else match readSlice s c chan x j with
      | .ok s1 b => writeSlice s1 c chan x j b
      | r => r

/-! Cancelling (R233) and link failure (R408). -/

/-- A stopped slice leaves each destination byte it had not delivered at its earlier value or at the copied one: a free choice (R233). -/
def spill (uid chan : Nat) (x : Slice) : Nat → State → State
  | 0, s => s
  | n + 1, s =>
    match s.crew? uid with
    | none => s
    | some c =>
      let s1 := { s with draws := s.draws + 1 }
      let s2 := if Config.copiedByte s.draws then
          match moveByte s1 c chan x (x.len - (n + 1)) with
          | .ok t _ => t
          | _ => s1
        else s1
      spill uid chan x n s2

/-- Stops a copy: its bytes may spill, its windows are not published, its counts fall; slices still to come join it and move nothing. -/
def stopCopy (s : State) (uid chan : Nat) (x : Copy) : State :=
  let s1 := if x.begun then x.ordered.foldl (fun s y => spill uid chan y (y.len - y.done) s) s else s
  s1.mapCrew uid fun c =>
    let c1 := x.slices.foldl (fun c y => c.completeId s.tick y.op) c
    formCopies (c1.mapChannel chan fun ch => ch.mapCopy x.seq fun y => { y with cancelled := true })

/-- Cancels every copy of a channel that has not completed (R233). -/
def cancelChannel (s : State) (uid chan : Nat) : State :=
  match s.crew? uid with
  | none => s
  | some c => ((c.channel chan).copies.filter fun x => !x.cancelled).foldl (fun s x => stopCopy s uid chan x) s

/-- The record of a fabric failure (R406, R408). -/
def fabricRecord (c : Crew) (gang : Nat) (lanes : LaneMask) (pc : Pc) (module va link reason : Nat) (unk : Bool) (bytes : Nat) : Record :=
  laneRecord c gang 0x58 1 lanes pc (module * 2 ^ 56 + va) (link + module * 2 ^ 8 + reason * 2 ^ 16) (unk.toNat * 2 ^ 31 + bytes)

/-- A fabric copy meets a link failure: it stops, with one record for each slice that loses bytes, once the ring has room. What a put has
sent and not seen acknowledged is unknown; with no route nothing was sent (R330, R406, R408). -/
def failCopy (s : State) (c : Crew) (chan : Nat) (x : Copy) (link reason : Nat) : State :=
  let lose := x.ordered.filter fun y => decide (y.done < y.len)
  let recs := lose.map fun y => fabricRecord c y.gang y.lanes y.pc y.module (y.far y.done) link reason (y.put && reason != 0) y.done
  giveRecords s (c.ring s) c.uid none (.stop chan x.seq) recs fun s => stopCopy s c.uid chan x

/-! The order of delivery (R229). -/

/-- The next byte of a channel: the copy and slice that it belongs to, once every earlier copy has delivered its bytes (R229). -/
def nextSlice (ch : Channel) : Option (Copy × Slice) :=
  match ch.copies.find? (fun x => !x.cancelled && !(x.begun && x.slices.all fun y => decide (y.len ≤ y.done))) with
  | some x => if x.begun then (x.ordered.find? fun y => decide (y.done < y.len)).map fun y => (x, y) else none
  | none => none

/-- Counts one byte of a slice as delivered: the write-pointer advances (R229). -/
def countByte (c : Crew) (chan seq : Nat) (op : Nat) : Crew :=
  c.mapChannel chan fun ch =>
    { (ch.mapCopy seq fun x => { x with slices := x.slices.map fun y => if y.op = op then { y with done := y.done + 1 } else y }) with
      wp := ch.wp + 1#32 }

/-- Delivers up to `n` bytes of a channel, in the order of R229. -/
def deliver (uid chan : Nat) : Nat → State → State
  | 0, s => s
  | n + 1, s =>
    match s.crew? uid with
    | none => s
    | some c =>
      if c.terminating || !c.isResident || engineHeld s c 0 chan then s
      else match nextSlice (c.channel chan) with
        | none => s
        | some (x, y) =>
          if y.fab && !y.homed && !(usable s y.route) then failCopy s c chan x 0xFF 0
          else match moveByte s c chan y y.done with
            | .ok s1 _ => deliver uid chan n (s1.mapCrew uid fun c => countByte c chan x.seq y.op)
            | .wait s1 => s1
            | .fault s1 f => raiseCopyFault s1 c chan y f

/-- A flume delivers bytes of a channel's copies (R229). -/
def execCopyDelivery (uid chan bytes : Nat) (s : State) : Host.Outcome State Fault Refusal := finish (deliver uid chan bytes s)

/-! Completion (R230). -/

/-- The windows that a copy's slices name, once each. -/
def Copy.windows (x : Copy) : List Nat := (x.slices.filterMap (·.win)).eraseDups

/-- A copy ends: its operations complete, and it leaves its channel. -/
def endCopy (s : State) (uid chan : Nat) (x : Copy) : State :=
  s.mapCrew uid fun c =>
    let c1 := c.mapChannel chan fun ch => { ch with copies := ch.copies.filter fun y => y.seq != x.seq }
    x.slices.foldl (fun c y => c.completeId s.tick y.op) c1

/-- The copy of a channel that may complete: the oldest, with every byte delivered, and no engine write to its windows in flight. -/
def completable (s : State) (c : Crew) (chan : Nat) : Option Copy :=
  match (c.channel chan).copies.find? fun x => !x.cancelled with
  | some x =>
    if x.begun && x.slices.all (fun y => decide (y.len ≤ y.done)) && x.windows.all (fun w => !windowWrites s c.launch c.camp w) then some x
    else none
  | none => none

/-- A copy completes: its windows are published and its counts fall (R230). -/
def execCopyComplete (uid chan : Nat) (s : State) : Host.Outcome State Fault Refusal :=
  match s.crew? uid with
  | none => finish s
  | some c =>
    match completable s c chan with
    | none => finish s
    | some x => finish (endCopy (x.windows.foldl (fun s w => publish s c.camp w) s) uid chan x)

end Sys2Proof.Machine
end

