-- ==== Sys2Proof/Machine/Control.lean ====
section
/-!
DEFINITION. Control flow, traps raised by instruction, regions, and the run-time checks (R155 to R167, R184, R185).
-/

namespace Sys2Proof.Machine

/-- Lanes take the link of a call at a PC: the next slot's (R157). -/
def writeLink (g : Gang) (m : LaneMask) (d : Opnd) (pc : Pc) : Gang :=
  m.lanes.foldl (fun g l => writeOpnd g (lowest m) l d (wordsOf 2 (pcNext pc).toNat)) g

/-- The traps of the lanes of a transfer whose target is not legal (R95). -/
def badTargets (s : State) (i : Issue) (m : LaneMask) (target : Nat → Option Pc) : List Trap :=
  let la := s.launchOf i.c
  let mode := (i.g.lane (lowest m)).mode
  m.lanes.filterMap fun l => match target l with
    | some pc => if legalTarget s la.vf la.ctx mode pc then none else some (badTarget i l pc)
    | none => none

/-- A transfer of the executing lanes, each to a PC of its own, with a link where the instruction writes one. A lane whose target is
not legal raises cause 0x02 and writes no link (R89, R95, R157). -/
def transfer (s : State) (i : Issue) (m : LaneMask) (link : Option Opnd) (nwb : Bool) (target : Nat → Option Pc) : State :=
  let ts := badTargets s i m target
  let go := m &&& ~~~(trapMask ts)
  let g1 := match link with
    | some d => if nwb then i.g
      else writeLink i.g go d i.e.pc
    | none => i.g
  let stay := LaneMask.ofList (go.lanes.filter fun l => (target l).isNone)
  let groups := go.lanes.filterMap fun l => (target l).map fun pc => moveGroup s i pc (LaneMask.one l)
  finishSwitch s s i (i.c.setGang i.k g1) (groups ++ [nextGroup s i ((i.e.mask &&& ~~~m) ||| stay)]) ts

/-- A branch that no lane takes is no switch (R64). -/
def notTaken (s : State) (i : Issue) : State :=
  { s.setCrew (i.c.setGang i.k (advance i.g i.e (nextPrio s i.c i.e) (pairsNext i.g i.e))) with draws := s.draws + 1 }

/-- `bra` (R157). -/
def execBra (h : Hdr) (t : Target) (s : State) : Host.Outcome State Fault Refusal :=
  issueSwitch s h [] [] fun i m =>
    if m = 0#32 then notTaken s i else transfer s i m none false fun _ => some (pcTarget i.e.pc t)

/-- Where `brx` sends a lane: an index below the table's length names the PC value there; another names none (R158). -/
def brxTarget (s : State) (i : Issue) (a : Opnd) (table : BitVec 16) (count : BitVec 8) (l : Nat) : Option Pc :=
  let n := readWide i.g s.draws l a 1
  if n < count.toNat + 1 then
    some (BitVec.ofNat 64 (natOfBytes (konstBytes s (codeHandle s i.c i.e.pc) (8 * table.toNat + 8 * n) 8)))
  else none

/-- `brx` (R158). -/
def execBrx (h : Hdr) (a : Opnd) (table : BitVec 16) (count : BitVec 8) (s : State) : Host.Outcome State Fault Refusal :=
  issueSwitch s h [(a, 1)] [] fun i m =>
    let target := brxTarget s i a table count
    if m.lanes.all (fun l => (target l).isNone) then notTaken s i else transfer s i m none false target

/-- `call` (R157). -/
def execCall (h : Hdr) (d : Opnd) (t : Target) (s : State) : Host.Outcome State Fault Refusal :=
  issueSwitch s h [(d, 2)] [] fun i m => transfer s i m (some d) h.nwb fun _ => some (pcTarget i.e.pc t)

/-- `ret` (R159). -/
def execRet (h : Hdr) (a : Opnd) (s : State) : Host.Outcome State Fault Refusal :=
  issueSwitch s h [(a, 2)] [] fun i m => transfer s i m none false fun l => some (BitVec.ofNat 64 (readWide i.g s.draws l a 2))

/-- The VA of the binding-table entry that an import of the executing image names (R341, R364). -/
def bindingVa (s : State) (c : Crew) (pc : Pc) (index : Nat) : Option (Nat × Nat) :=
  match s.image? (codeHandle s c pc) with
  | some im => (im.imports[index]?).map fun x => (x.index, (s.launchOf c).desc.bindbase + 64 * x.index)
  | none => none

/-- Every executing lane raises one trap. -/
def allTrap (s : State) (i : Issue) (m : LaneMask) (f : Nat → Trap) : State :=
  finishSwitch s s i i.c [nextGroup s i (i.e.mask &&& ~~~m)] (m.lanes.map f)

/-- The executing lanes park at the instruction (R365). -/
def park (s0 s : State) (i : Issue) (m : LaneMask) : State :=
  finishSwitch s0 s i (i.c.mapGang i.k fun g => { g with parked := g.parked ||| m })
    [stayGroup i m, nextGroup s i (i.e.mask &&& ~~~m)] []

/-- The executing lanes wait on a page request and then execute the instruction again (R296). -/
def awaitPage (s0 s : State) (i : Issue) (m : LaneMask) (acc : Nat) (x : Miss) : State :=
  finishSwitch s0 s i (i.c.mapGang i.k fun g =>
      { g with pages := g.pages ++ m.lanes.map fun l =>
          { lane := l, op := 0, miss := x, acc := acc, user := (g.lane l).mode == .user, due := none } })
    [stayGroup i m, nextGroup s i (i.e.mask &&& ~~~m)] []

/-- The unbound case: STATE goes from 0 to 1, the record 0x40 is written, an admission starts, the lanes park (R365). -/
def bindStart (s : State) (i : Issue) (m : LaneMask) (w : Who) (imp index va : Nat) : State :=
  let la := s.launchOf i.c
  let r := i.c.ring s
  if ringRoom s r 1 then
    match deviceWrite s w va (bytesOf 4 1) with
    | some s1 =>
      let s2 := writeRecord s1 r (laneRecord i.c i.k 0x40 0 m i.e.pc 0 index 0)
      let req : AdmReq :=
        { vf := la.vf, words := [0, la.ctx + la.tenant * 2 ^ 16], priv := if la.vf = 0 then .hyper else .super, desc := la.desc
          bind := some { index := index, handle := codeHandle s i.c i.e.pc, imp := imp }, start := 0, pending := none, failed := false
          result := none, behind := (s.func la.vf).admprod }
      park s { s2 with admQueue := s2.admQueue ++ [(i.c.tract, req)] } i m
    | none => allTrap s i m fun l => faultAt i l 0x22 va (tdetOf 1 3 0 0 0 2) 0
  else ringStall s r i.c.uid (some i.k)

/-- `call.imp` (R157, R365): bound, the call goes to TARGET; unbound or admitting, the lanes park; failed, cause 0x02 with target 0.
An entry that does not translate raises the fault of a load. -/
def execCallImp (h : Hdr) (d : Opnd) (index : BitVec 32) (s : State) : Host.Outcome State Fault Refusal :=
  issueSwitch s h [(d, 2)] [] fun i m =>
    if m = 0#32 then finishSwitch s s i i.c [nextGroup s i i.e.mask] []
    else
      match bindingVa s i.c i.e.pc index.toNat with
      | none => allTrap s i m fun l => badTarget i l 0#64
      | some (n, va) =>
        let l0 := lowest m
        let w := i.c.who s (i.g.lane l0).mode
        match laneXlat s w (s.launchOf i.c).desc.pasid (.lane i.c.uid i.k l0) 0 va 64 with
        | (_, .trap cause a d0 d1) => allTrap s i m fun l => faultAt i l cause a d0 d1
        | (s1, .page x) => awaitPage s s1 i m 0 x
        | (s1, .ok ls) =>
          let bs := readLeaves s1 w ls
          match natOfBytes (bs.take 4) % 4 with
          | 0 => bindStart s1 i m w index.toNat n va
          | 1 => park s s1 i m
          | 2 => transfer s1 i m (some d) h.nwb fun _ => some (BitVec.ofNat 64 (natOfBytes ((bs.drop 16).take 8)))
          | _ => allTrap s1 i m fun l => badTarget i l 0#64

/-- Lanes exit: run state exited, frames discarded (R103, R160). -/
def exitLanes (g : Gang) (m : LaneMask) : Gang := g.mapLanes m fun _ x => { x with run := .exited, frames := [] }

/-- What follows lanes leaving: crew tasks whose crew has exited (R288), and barriers that no longer wait for them (R175). -/
def settle (s : State) (uid : Nat) : State := settleCrew (settleExit s uid) uid

/-- `exit` (R160). -/
def execExit (h : Hdr) (s : State) : Host.Outcome State Fault Refusal :=
  issueSwitch s h [] [] fun i m =>
    settle (finishSwitch s s i (i.c.mapGang i.k fun g => exitLanes g m) [nextGroup s i (i.e.mask &&& ~~~m)] []) i.c.uid

/-- `exit.to` (R161): as `exit`, and the crew's successor is the lowest executing lane's `tid`. -/
def execExitTo (h : Hdr) (a : Opnd) (s : State) : Host.Outcome State Fault Refusal :=
  issueSwitch s h [(a, 1)] [] fun i m =>
    let c1 := if m = 0#32 then i.c
      else { i.c with succ := BitVec.ofNat 32 (readWide i.g s.draws (lowest m) a 1), succSet := true, succSite := i.e.pc }
    settle (finishSwitch s s i (c1.mapGang i.k fun g => exitLanes g m) [nextGroup s i (i.e.mask &&& ~~~m)] []) i.c.uid

/-- `region` (R165). -/
def execRegion (h : Hdr) (s : State) : Host.Outcome State Fault Refusal :=
  issueSwitch s h [] [] fun i m =>
    finishSwitch s s i (i.c.mapGang i.k fun g => { g with regioncnt := g.regioncnt + if m = 0#32 then 0#32 else 1#32 })
      [nextGroup s i i.e.mask] []

/-- After `yield`, the gang halts for a pending pre-emption when it is fully reconverged (R162). -/
def yieldHalt (s : State) (uid k : Nat) : State :=
  s.mapCrew uid fun c => c.mapGang k fun g => if c.req && reconverged g then { g with halted := true } else g

/-- `yield` (R162). -/
def execYield (h : Hdr) (s : State) : Host.Outcome State Fault Refusal :=
  issueSwitchWith (fun c _ => c.force) s h [] [] fun i _ =>
    yieldHalt (finishSwitch s s i i.c [nextGroup s i i.e.mask] []) i.c.uid i.k

/-- `nop` (R69). -/
def execNop (pred : BitVec 4) (pneg : Bool) (s : State) : Host.Outcome State Fault Refusal :=
  issueWith s { Hdr.plain with pred := pred, pneg := pneg } .vz [] [] fun _ _ _ _ => []

/-- An instruction that its executing lanes trap at, with the return PC it records (R163). -/
def trapInstr (s : State) (h : Hdr) (cause : Nat) (next : Bool) (n : BitVec 16) : Host.Outcome State Fault Refusal :=
  issueSwitch s h [] [] fun i m =>
    allTrap s i m fun l => { faultAt i l cause 0 n.toNat 0 with tpc := if next then pcNext i.e.pc else i.e.pc }

/-- `trap` (R163). -/
def execTrap (h : Hdr) (n : BitVec 16) (s : State) : Host.Outcome State Fault Refusal := trapInstr s h 0x30 false n

/-- `syscall` (R96, R163). -/
def execSyscall (h : Hdr) (n : BitVec 16) (s : State) : Host.Outcome State Fault Refusal := trapInstr s h 8 true n

/-- `hcall` (R96, R163). -/
def execHcall (h : Hdr) (n : BitVec 16) (s : State) : Host.Outcome State Fault Refusal := trapInstr s h 9 true n

/-- `brk` (R164): the gang stops, with a record; its executing lanes stand at the `brk` until they are resumed. -/
def execBrk (h : Hdr) (n : BitVec 16) (s : State) : Host.Outcome State Fault Refusal :=
  issueSwitch s h [] [] fun i m =>
    if m = 0#32 then finishSwitch s s i i.c [nextGroup s i i.e.mask] []
    else if ringRoom s (i.c.ring s) 1 then
      let s1 := writeRecord s (i.c.ring s) (laneRecord i.c i.k 0x70 0 m i.e.pc 0 n.toNat 0)
      finishSwitch s s1 i (i.c.mapGang i.k fun g => { g with stopped := true, stoppedAt := m })
        [{ i.e with mask := m }, nextGroup s i (i.e.mask &&& ~~~m)] []
    else ringStall s (i.c.ring s) i.c.uid (some i.k)

/-! Run-time checks (R184, R185). -/

/-- Executing lanes that fail a check raise its cause, with `TDET0` and `TDET1`; the others go on (R185). -/
def checkLanes (s : State) (h : Hdr) (cause : Nat) (uses : List (Opnd × Nat)) (f : Reader → Option (Nat × Nat)) :
    Host.Outcome State Fault Refusal :=
  issueSwitch s h uses [] fun i m =>
    let ts := m.lanes.filterMap fun l => (f (readWide i.g s.draws l)).map fun d => faultAt i l cause 0 d.1 d.2
    finishSwitch s s i i.c [nextGroup s i (i.e.mask &&& ~~~(trapMask ts))] ts

/-- `chkb` (R185): lo ≤ a and a + size ≤ hi. -/
def execChkb (h : Hdr) (signed : Bool) (z : Size) (a b c : Opnd) (s : State) : Host.Outcome State Fault Refusal :=
  checkLanes s h 0x10 [(a, 1), (b, 1), (c, 1)] fun rd =>
    let v := fun o : Opnd => if signed then signExt (rd o 1) 32 else (rd o 1 : Int)
    if v b ≤ v a ∧ v a + sizeBytes z ≤ v c then none else some (rd a 1, rd c 1)

/-- `chkt` (R185). -/
def execChkt (h : Hdr) (a : Opnd) (b : SrcB) (s : State) : Host.Outcome State Fault Refusal :=
  let use := match b with
    | .reg o => [(o, 1)]
    | .imm _ => []
  checkLanes s h 0x11 ((a, 1) :: use) fun rd =>
    let e := match b with
      | .reg o => rd o 1
      | .imm i => i.toNat
    if rd a 1 = e then none else some (rd a 1, e)

/-- `chkl` (R185). -/
def execChkl (h : Hdr) (a b : Opnd) (s : State) : Host.Outcome State Fault Refusal :=
  checkLanes s h 0x12 [(a, 1), (b, 1)] fun rd => if rd a 1 = rd b 1 ∧ rd b 1 ≠ 0 then none else some (rd a 1, rd b 1)

end Sys2Proof.Machine
end

