-- ==== Sys2Proof/Machine/Special.lean ====
section
/-!
DEFINITION. Special registers, returns, and the instructions by which a handler changes sibling lanes (R100 to R108, R186 to R191).
-/

namespace Sys2Proof.Machine

/-- A 32-bit word of number fields. -/
def word32 (n : Nat) : BitVec 32 := BitVec.ofNat 32 n

/-- The top frame of a lane; zero fields at depth 0 (R105). -/
def Lane.top (l : Lane) : Frame :=
  match l.frames with
  | f :: _ => f
  | [] => { tcause := 0#32, tpc := 0#64, taddr := 0#64, tdet0 := 0#32, tdet1 := 0#32, rewritten := false }

/-- TRAPRING (R329). -/
def trapringWord (c : Ctx) : Nat := c.ringBase.toNat * 2 ^ 12 + c.ringSz.toNat

/-- PREEMPT (R318). -/
def preemptWord (c : Crew) : Nat := c.req.toNat + 2 * c.force.toNat

/-- FRONTIER (R108). -/
def frontierWord (g : Gang) (e : Entry) : Nat := e.prio * 2 ^ 16 + e.band * 2 ^ 14 + g.frontier.length

/-- MODE (R106). -/
def modeWord (l : Lane) : Nat := l.depth * 4 + l.mode.band

/-- Registers of a special register: 2 for a 64-bit one (R104). -/
def sregWords : SReg → Nat
  | .svec | .hvec | .trapring | .tpc | .taddr => 2
  | _ => 1

/-- The value of a special register as a lane sees it (R104 to R108). -/
def sregValue (s : State) (i : Issue) (l : Nat) (r : SReg) : Nat :=
  let x := i.g.lane l
  let la := s.launchOf i.c
  let cx := s.ctxAt la.vf la.ctx
  match r with
  | .laneid => l
  | .gangid => i.k
  | .crewid => crewidWord i.c
  | .campid => i.c.camp % 8
  | .tractid => i.c.tract
  | .coreid => i.c.coreOf % 8
  | .mode => modeWord x
  | .cmpl => i.c.lvl.toNat
  | .fpstat => x.fpstat.toNat
  | .scnt n => x.cnt n.val
  | .regioncnt => i.g.regioncnt.toNat
  | .frontier => frontierWord i.g i.e
  | .svec => cx.svec.toNat
  | .hvec => cx.hvec.toNat
  | .trapring => trapringWord cx
  | .hintdrop => cx.hintdrop.toNat
  | .preempt => preemptWord i.c
  | .deadline => i.c.deadline.toNat
  | .quantum => cx.quantum.toNat
  | .tcause => x.top.tcause.toNat
  | .tpc => x.top.tpc.toNat
  | .taddr => x.top.taddr.toNat
  | .tdet0 => x.top.tdet0.toNat
  | .tdet1 => x.top.tdet1.toNat

/-- Ends a switch point that writes registers of its executing lanes and cannot trap. -/
def switchWrite (s : State) (i : Issue) (h : Hdr) (d : Opnd) (m : LaneMask) (f : Nat → List Word) : State :=
  let outs := m.lanes.map fun l => (l, ({ words := f l, preds := [], flags := 0#6 } : LaneOut))
  finishSwitch s s i (i.c.setGang i.k (writeOuts i.g h (lowest m) d outs)) [nextGroup s i i.e.mask] []

/-- `rdsr` (R187). -/
def execRdsr (h : Hdr) (d : Opnd) (r : SReg) (s : State) : Host.Outcome State Fault Refusal :=
  issueSwitch s h [(d, sregWords r)] [] fun i m => switchWrite s i h d m fun l => wordsOf (sregWords r) (sregValue s i l r)

/-- QUANTUM stores the nearer limit (R318). -/
def quantumOf (v : Nat) : BitVec 24 := BitVec.ofNat 24 (min (max (v % 2 ^ 24) 5000) 10000000)

/-- A write of one value to a special register that is not per lane (R49, R187, R318, R329). Registers with no write column keep
their value. -/
def writeSreg (s : State) (c : Crew) (r : SReg) (v : Nat) : State :=
  let la := s.launchOf c
  match r with
  | .cmpl => (s.setCrew { c with lvl := bit v 0 }).mapCtx la.vf la.ctx fun x => { x with cmpl := BitVec.ofNat 1 v }
  | .svec => s.mapCtx la.vf la.ctx fun x => { x with svec := pcFields v }
  | .hvec => s.mapCtx la.vf la.ctx fun x => { x with hvec := pcFields v }
  | .trapring => s.mapCtx la.vf la.ctx fun x =>
      { x with ringBase := BitVec.ofNat 43 (v / 2 ^ 12), ringSz := BitVec.ofNat 4 (min (v % 16) 10) }
  | .hintdrop => s.mapCtx la.vf la.ctx fun x => { x with hintdrop := word32 v }
  | .preempt => if bit v 0 then requestPreempt s c.uid none else s
  | .deadline => s.setCrew { c with deadline := word32 v }
  | .quantum => s.mapCtx la.vf la.ctx fun x => { x with quantum := quantumOf v }
  | _ => s

/-- `wrsr` (R187): `FPSTAT` from each executing lane; any other register from the lowest-numbered one. -/
def execWrsr (h : Hdr) (r : SReg) (a : Opnd) (s : State) : Host.Outcome State Fault Refusal :=
  issueSwitch s h [(a, sregWords r)] [] fun i m =>
    match r with
    | .fpstat =>
      finishSwitch s s i (i.c.mapGang i.k fun g =>
        g.mapLanes m fun l x => { x with fpstat := BitVec.ofNat 6 (readWide i.g s.draws l a 1) }) [nextGroup s i i.e.mask] []
    | r =>
      let s1 := finishSwitch s s i i.c [nextGroup s i i.e.mask] []
      if m = 0#32 then s1
      else match s1.crew? i.c.uid with
        | some c => writeSreg s1 c r (readWide i.g s.draws (lowest m) a (sregWords r))
        | none => s1

/-! Returns (R100, R188). -/

/-- `sret` and `hret`: lanes whose top frame allows it return; the others raise cause 0x02, with the target that failed. -/
def returnInstr (s : State) (h : Hdr) (mode : Mode) : Host.Outcome State Fault Refusal :=
  issueSwitch s h [] [] fun i m =>
    let la := s.launchOf i.c
    let bad := m.lanes.filter fun l => !(returnOk s la.vf la.ctx (i.g.lane l) mode)
    let ts := bad.map fun l =>
      let x := i.g.lane l
      if x.depth = 0 ∨ x.mode ≠ mode then faultAt i l 2 0 0 0 else badTarget i l x.top.tpc
    let go := m &&& ~~~(trapMask ts)
    let back := go.lanes.map (returnEntry s la.vf la.ctx i.g)
    finishSwitch s s i (i.c.mapGang i.k fun g => g.mapLanes go fun _ x => x.leave)
      (back ++ [nextGroup s i (i.e.mask &&& ~~~m)]) ts

/-- `sret` (R100, R188). -/
def execSret (h : Hdr) (s : State) : Host.Outcome State Fault Refusal := returnInstr s h .super

/-- `hret` (R100, R188). -/
def execHret (h : Hdr) (s : State) : Host.Outcome State Fault Refusal := returnInstr s h .hyper

/-- `halt` (R191): terminates the crew when some lane executes it. -/
def execHalt (h : Hdr) (st : BitVec 8) (s : State) : Host.Outcome State Fault Refusal :=
  issueSwitch s h [] [] fun i m =>
    let s1 := finishSwitch s s i i.c [nextGroup s i i.e.mask] []
    if m = 0#32 then s1 else terminate s1 i.c.uid (some st.toNat)

/-! `lanepc` and `lanest` (R101, R102, R189, R190). -/

/-- The PC of a lane: its entry's, or the one it keeps while it is in none. -/
def Gang.pcOf (g : Gang) (l : Nat) : Pc :=
  match g.frontier.find? (fun e => e.mask.getLsbD l) with
  | some e => e.pc
  | none => (g.lane l).pc

/-- A lane leaves its entry, and whatever its entry waited for on its behalf. -/
def Gang.pull (g : Gang) (l : Nat) : Gang :=
  { g with frontier := dropLanes (LaneMask.one l) g.frontier, pages := g.pages.filter (fun p => p.lane != l || p.op != 0)
           parked := g.parked &&& ~~~(LaneMask.one l), counted := g.counted.filter (fun x => x.1 != l), chosen := false }

/-- Marks whether a lane stands at an illegal target (R101). -/
def Gang.markTarget (g : Gang) (l : Nat) (legal : Bool) : Gang :=
  { g with illegal := if legal then g.illegal &&& ~~~(LaneMask.one l) else g.illegal ||| LaneMask.one l }

/-- A lane enters the frontier at a PC (R90, R101, R102). -/
def Gang.join (s : State) (vf ctx : Nat) (g : Gang) (l : Nat) (pc : Pc) : Gang :=
  let x := g.lane l
  { g with frontier := addEntry { pc := pc, band := x.mode.band, prio := prioOf s vf ctx pc, mask := LaneMask.one l, busy := false }
             g.frontier
           chosen := false }

/-- `lanepc` on one target: a trapped lane's top `TPC`; otherwise its PC (R101). -/
def lanepcOn (s : State) (vf ctx : Nat) (g : Gang) (l : Nat) (pc : Pc) : Gang :=
  let x := g.lane l
  match x.frames with
  | f :: fs => g.mapLane l fun x => { x with frames := { f with tpc := pcFields pc.toNat, rewritten := true } :: fs }
  | [] =>
    let g1 := g.markTarget l (legalTarget s vf ctx x.mode pc)
    match x.run with
    | .active => (g1.pull l).join s vf ctx l pc
    | _ => g1.mapLane l fun x => { x with pc := pc }

/-- What `lanest` does to one target (R102, R103). -/
inductive LaneAct where
  | rel | hold | exit
  deriving DecidableEq, Repr

def lanestOn (s : State) (vf ctx : Nat) (act : LaneAct) (g : Gang) (l : Nat) : Gang :=
  let x := g.lane l
  match act, x.run with
  | .rel, .held => (g.mapLane l fun x => { x with run := .active }).join s vf ctx l x.pc
  | .hold, .active => (g.mapLane l fun x => { x with run := .held, pc := g.pcOf l }).pull l
  | .exit, .active => (exitLanes g (LaneMask.one l)).pull l
  | .exit, .held => exitLanes g (LaneMask.one l)
  | _, _ => g

/-- The pairs of acting lane and target: the lowest-numbered executing lane that names a target acts on it, where the target's mode
does not rank above its own (R189, R190). -/
def targets (g : Gang) (draw : Nat) (m : LaneMask) (a : Opnd) : List (Nat × Nat) :=
  let named := m.lanes.map fun l => (l, readWide g draw l a 1)
  (laneNumbers.filterMap fun t => (named.find? (fun x => x.2 == t)).map fun x => (x.1, t)).filter fun x =>
    decide ((g.lane x.2).mode.band ≤ (g.lane x.1).mode.band) && (g.lane x.2).run != .exited

/-- `lanepc` (R101, R189). -/
def execLanepc (h : Hdr) (a b : Opnd) (s : State) : Host.Outcome State Fault Refusal :=
  issueSwitch s h [(a, 1), (b, 2)] [] fun i m =>
    let la := s.launchOf i.c
    let ps := targets i.g s.draws m a
    let g1 := regroup i.g [nextGroup s i i.e.mask]
    let g2 := ps.foldl (fun g x => lanepcOn s la.vf la.ctx g x.2 (BitVec.ofNat 64 (readWide i.g s.draws x.1 b 2))) g1
    { s.setCrew (i.c.setGang i.k g2) with draws := s.draws + 1 }

/-- `lanest` of one kind (R102, R103, R189). -/
def lanestInstr (s : State) (h : Hdr) (act : LaneAct) (a : Opnd) : Host.Outcome State Fault Refusal :=
  issueSwitch s h [(a, 1)] [] fun i m =>
    let la := s.launchOf i.c
    let ps := targets i.g s.draws m a
    let g1 := regroup i.g [nextGroup s i i.e.mask]
    let g2 := ps.foldl (fun g x => lanestOn s la.vf la.ctx act g x.2) g1
    settle { s.setCrew (i.c.setGang i.k g2) with draws := s.draws + 1 } i.c.uid

/-- `lanest.rel` (R102). -/
def execLanestRel (h : Hdr) (a : Opnd) (s : State) : Host.Outcome State Fault Refusal := lanestInstr s h .rel a

/-- `lanest.hold` (R102). -/
def execLanestHold (h : Hdr) (a : Opnd) (s : State) : Host.Outcome State Fault Refusal := lanestInstr s h .hold a

/-- `lanest.exit` (R103). -/
def execLanestExit (h : Hdr) (a : Opnd) (s : State) : Host.Outcome State Fault Refusal := lanestInstr s h .exit a

end Sys2Proof.Machine
end

