-- ==== Sys2Proof/Machine/Tasks.lean ====
section
/-!
DEFINITION. The landing: task records and their refusal, `task.post`, `task.dec`, `task.stat`, the issue of tasks to mills and flumes,
working-set staging, `emit` and its queues, `pubw` (R246 to R265, R288, R289).
-/

namespace Sys2Proof.Machine

/-! Records and descriptors (R248 to R250, R277 to R279). -/

/-- An operand or destination descriptor (R249). -/
structure Desc where
  off : Nat
  space : Nat
  planes : Nat
  fmt : Nat
  pitch : Nat
  loc : Nat
  len : Nat
  deriving DecidableEq, Repr

/-- Descriptor 0 to 2 for OPND0 to OPND2, 3 for DEST. -/
def recDesc (r : List Byte) (i : Nat) : Desc :=
  let b := 0x10 + 16 * i
  let w := recWord r (b + 4)
  { off := recWord r b, space := bits w 31 28, planes := bits w 27 24, fmt := bits w 23 20, pitch := bits w 19 0
    loc := recWord r (b + 8), len := recWord r (b + 12) }

/-- A working-set descriptor (R250). -/
structure WorkSet where
  src : Nat
  len : Nat
  soff : Nat
  need : Nat
  core : Nat
  ssp : Nat
  tgt : Nat
  deriving DecidableEq, Repr

def recWset (r : List Byte) (w : Nat) : WorkSet :=
  let b := 0x50 + 16 * w
  let x := recWord r (b + 12)
  { src := recWord r b + 2 ^ 32 * recWord r (b + 4), len := recWord r (b + 8), soff := bits x 31 16, need := bits x 15 8
    core := bits x 6 4, ssp := bits x 3 2, tgt := bits x 1 0 }

def recKind (r : List Byte) : Nat := recWord r 0 / 2 ^ 24
def recFlags (r : List Byte) : Nat := bits (recWord r 0) 23 16
/-- PARAM word `i`. -/
def recParam (r : List Byte) (i : Nat) : Nat := recWord r (0x70 + 4 * i)

/-- The FLAGS bits that a kind gives a meaning; none for an unassigned kind (R248, R277). -/
def flagsOf (kind : Nat) : Option Nat :=
  match kind with
  | 1 => some 0x81
  | 2 => some 0x87
  | 3 => some 0x87
  | 4 => some 0x80
  | 5 => some 0x80
  | 6 => some 0x81
  | 7 => some 0x80
  | 8 => some 0x80
  | 0x40 => some 0
  | _ => none

/-- PARAM keeps its reserved bytes zero (R248, R278). -/
def paramOk (r : List Byte) : Bool :=
  let z := fun i => recParam r i == 0
  match recKind r with
  | 2 => decide (recParam r 2 < 16) && z 3
  | 4 | 7 | 8 => z 2 && z 3
  | 0x40 => decide (recParam r 0 < 2 ^ 16) && z 1 && z 2 && z 3
  | _ => z 1 && z 2 && z 3

/-- The LOC bits of a space (R249); none for a reserved space. -/
def locBits (space : Nat) : Option Nat :=
  match space with
  | 1 => some 3
  | 2 => some 4
  | 3 => some 4
  | 4 => some 6
  | 6 => some 23
  | _ => none

/-- A descriptor in use keeps to its fields (R249). -/
def Desc.fieldsOk (d : Desc) : Bool :=
  d.space == 0 ||
    (match locBits d.space with
      | some n => decide (d.loc < 2 ^ n)
      | none => false) && decide (d.fmt ≤ 11) && (d.fmt == 8 || d.planes == 0)

/-- A working set in use keeps to its fields (R250). -/
def wsetOk (r : List Byte) (w : Nat) : Bool :=
  let x := recWset r w
  x.tgt == 0 ||
    decide (x.tgt < 3) && decide (x.ssp < 2) && !bit (recWord r (0x5C + 16 * w)) 7 && decide (1 ≤ x.len) && decide (x.len ≤ 2 ^ 24) &&
      decide (x.src < if x.ssp = 0 then 2 ^ 55 else 2 ^ 36) && (x.tgt == 2 || x.soff == 0)

/-- Detail code 1 (R252, R277): an unassigned kind, or a reserved field that is not zero. -/
def reservedSet (r : List Byte) : Bool :=
  (match flagsOf (recKind r) with
    | some m => recFlags r &&& m != recFlags r
    | none => true) || (recKind r == 3 && recFlags r % 4 == 3) || bits (recWord r 0) 15 8 != 0 || recWord r 12 != 0 || !paramOk r ||
    (List.range 4).any (fun i => !(recDesc r i).fieldsOk) || (List.range 2).any fun w => !wsetOk r w

/-- Bits of an element of a format code (R26, R28, R249). -/
def fmtBits (fmt : Nat) : Nat := ([8, 8, 8, 8, 16, 16, 32, 32, 0, 6, 6, 4] : List Nat).getD fmt 0

/-- Bytes of an element of a format of 1, 2 or 4 bytes; 0 for the others. -/
def fmtBytes (fmt : Nat) : Nat := ([1, 1, 1, 1, 2, 2, 4, 4] : List Nat).getD fmt 0

/-- The format range that a crew's tasks name (R249, R387). -/
def rangeOf (s : State) (c : Crew) (loc : Nat) : FormatRange := s.range (16 * c.tract + loc % 16)

/-- Bytes of a range's raw storage (R387). -/
def FormatRange.bytes (f : FormatRange) : Nat :=
  if f.v then (if f.fmt = 8 then f.pstored * f.nelem / 8 else f.nelem * fmtBits f.fmt / 8) else 0

/-- The camp that a vault descriptor names (R241, R249). -/
def locCamp (c : Crew) (loc : Nat) : Option Nat :=
  if bit loc 3 then some (8 * c.tract + loc % 8) else if loc % 8 = 0 then some c.camp else none

/-- Bytes of a launch's vault window in the camp a descriptor names; 0 where it has none. -/
def vaultSize (s : State) (c : Crew) (loc : Nat) : Nat :=
  match locCamp c loc with
  | some camp => match s.vault? c.launch camp with
    | some v => v.size
    | none => 0
  | none => 0

/-- A descriptor's range passes what it names, as far as the post checks it (R252, R270). -/
def rangePasses (s : State) (c : Crew) (kind : Nat) (d : Desc) : Bool :=
  let hi := d.off + d.len
  match d.space with
  | 1 => d.loc == c.coreOf % 8 && decide (c.ssize < hi)
  | 2 => decide (vaultSize s c d.loc < hi)
  | 3 =>
    let f := rangeOf s c d.loc
    if kind = 8 then decide (f.bytes < hi) else f.v && decide (f.nelem < hi)
  | 4 => match c.window? s d.loc with
    | some w => decide (w.size < hi)
    | none => true
  | _ => false

/-- A working set's range passes what it names (R252, R259). -/
def wsetPasses (s : State) (c : Crew) (kind : Nat) (x : WorkSet) : Bool :=
  x.tgt != 0 &&
    ((x.tgt == 2 && kind == 0x40) ||
      (x.ssp == 1 && decide ((rangeOf s c (x.src / 2 ^ 32)).bytes < x.src % 2 ^ 32 + x.len)) ||
      (x.tgt == 2 && x.core == c.coreOf % 8 && decide (c.ssize < 64 * x.soff + x.len)))

/-- A successor field names neither nothing nor a live task (R252). -/
def succBad (c : Crew) (tid : Nat) : Bool :=
  tid != 0 && (match tidState c tid with
    | .live _ => false
    | _ => true)

/-- A matrix of `nr` rows of `nc` elements fits its descriptor (R270, R271). In a format range everything counts elements. -/
def shapeFits (s : State) (c : Crew) (d : Desc) (nr nc : Nat) : Bool :=
  let rb := if d.space = 3 then nc else nc * fmtBytes d.fmt
  d.space != 0 && (d.space != 3 || (rangeOf s c d.loc).fmt == d.fmt) &&
    (decide (nr ≤ 1) || decide (rb ≤ d.pitch)) && decide ((nr - 1) * d.pitch + rb ≤ d.len)

/-- Two ranges of one space and location overlap. -/
def Desc.overlaps (a b : Desc) : Bool :=
  a.space == b.space && a.space != 0 && a.loc == b.loc && decide (a.off < b.off + b.len) && decide (b.off < a.off + a.len)

/-- The operand whose descriptor the destination may equal (R272). -/
def inPlace (kind : Nat) : Option Nat :=
  match kind with
  | 1 => some 2
  | 3 => some 0
  | 6 => some 1
  | _ => none

/-- The conditions of every mill kind (R279). -/
def millBad (s : State) (c : Crew) (r : List Byte) : Bool :=
  let d := recDesc r 3
  !(d.space == 1 || d.space == 4) ||
    (List.range 3).any fun i =>
      let o := recDesc r i
      o.space == 4 || o.space == 6 ||
        (o.space == 3 && (!(rangeOf s c o.loc).v || (o.fmt != 8 && (rangeOf s c o.loc).fmt != o.fmt))) ||
        (o.overlaps d && !(inPlace (recKind r) == some i && o == d))

def kOk (r : List Byte) : Bool := decide (128 ≤ recParam r 0) && decide (recParam r 0 ≤ 65536) && recParam r 0 % 128 == 0
def recRows (r : List Byte) : Nat := recParam r 0 % 2 ^ 16
def recCols (r : List Byte) : Nat := recParam r 0 / 2 ^ 16
def tileOk (r : List Byte) : Bool :=
  decide (1 ≤ recRows r) && decide (recRows r ≤ 256) && decide (1 ≤ recCols r) && decide (recCols r ≤ 4096)

/-- Weight scales of an `mma.q` are needed and lie where they may (R279, R281). -/
def wscaleOk (s : State) (c : Crew) (r : List Byte) : Bool :=
  let w := recDesc r 1
  if w.space = 3 then (rangeOf s c w.loc).scale != 0
  else decide (w.off ≤ recParam r 1) && decide (recParam r 1 + recParam r 0 ≤ w.off + w.len)

/-- An `mma.q` record fits (R271, R279, R281). -/
def mmaQOk (s : State) (c : Crew) (r : List Byte) : Bool :=
  let a := recDesc r 0
  let w := recDesc r 1
  let x := recDesc r 2
  let d := recDesc r 3
  let k := recParam r 0
  let nb := recParam r 2 % 16
  let dq := bit (recFlags r) 0
  let rs := bit (recFlags r) 1
  let ws := bit (recFlags r) 2
  let f := rangeOf s c w.loc
  let weights :=
    if w.space = 3 then f.fmt == 8 && nb == 0 && decide (w.planes ≤ f.pstored) && w.off % 128 == 0 && w.pitch % 128 == 0 &&
      decide (63 * w.pitch + k ≤ w.len)
    else w.space != 0 && decide (1 ≤ nb) && decide (nb ≤ 8) && decide (w.planes ≤ nb) && w.pitch % 16 == 0 &&
      decide (64 * k ≤ 8 * w.pitch) && decide (w.planes * w.pitch ≤ w.len)
  kOk r && a.fmt == 0 && w.fmt == 8 && w.planes != 0 && weights && (dq || !(rs || ws)) &&
    (if rs then x.space != 0 && x.fmt == 4 && x.pitch == 0 && decide (128 ≤ x.len) else x.space == 0) &&
    (!ws || wscaleOk s c r) && d.fmt == (if dq then 6 else 7) && shapeFits s c a 64 k && shapeFits s c d 64 64

/-- The kind's own conditions hold (R279). -/
def kindOk (s : State) (c : Crew) (r : List Byte) : Bool :=
  let a := recDesc r 0
  let b := recDesc r 1
  let x := recDesc r 2
  let d := recDesc r 3
  let k := recParam r 0
  let nr := recRows r
  let nc := recCols r
  let fl := recFlags r
  match recKind r with
  | 1 =>
    kOk r && (a.fmt == 2 || a.fmt == 3 || a.fmt == 4) && (b.fmt == 2 || b.fmt == 3 || b.fmt == 4) && (a.fmt == 4) == (b.fmt == 4) &&
      (if bit fl 0 then x.fmt == 6 && shapeFits s c x 64 64 else x.space == 0) && d.fmt == 6 && shapeFits s c a 64 k &&
      shapeFits s c b 64 k && shapeFits s c d 64 64
  | 2 => mmaQOk s c r
  | 3 =>
    tileOk r && (a.fmt == 6 || a.fmt == 4) && d.fmt == a.fmt && nc % (16 * 2 ^ (fl % 4)) == 0 && (!bit fl 2 || fl % 4 == 1) &&
      shapeFits s c a nr nc && shapeFits s c d nr nc
  | 4 =>
    let so := recParam r 1
    tileOk r && a.fmt == 6 && d.fmt == 0 && decide (so + 2 * nr ≤ d.len) &&
      (List.range nr).all (fun i => decide (i * d.pitch + nc ≤ so) || decide (so + 2 * nr ≤ i * d.pitch)) &&
      shapeFits s c a nr nc && shapeFits s c d nr nc
  | 5 => tileOk r && fmtBytes a.fmt != 0 && d.fmt == a.fmt && shapeFits s c a nr nc && shapeFits s c d nc nr
  | 6 =>
    tileOk r && (a.fmt == 6 || a.fmt == 7) && b.fmt == a.fmt && d.fmt == a.fmt && !(bit fl 0 && a.fmt == 6) &&
      shapeFits s c a nr nc && shapeFits s c b nr nc && shapeFits s c d nr nc
  | 7 =>
    tileOk r && fmtBytes d.fmt != 0 && a.space == 0 && b.space == 0 && x.space == 0 && shapeFits s c d nr nc
  | 8 =>
    let rb := recParam r 0
    let n := recParam r 1
    decide (1 ≤ rb) && decide (rb ≤ 65536) && decide (1 ≤ n) && decide (n ≤ 65536) &&
      (a.space == 1 || a.space == 2 || a.space == 3 || a.space == 6) && (d.space == 1 || d.space == 4) &&
      (decide (n ≤ 1) || decide (rb ≤ d.pitch)) && b.space == 0 && x.space == 0
  | _ => true

/-- Detail code 6 (R279). -/
def kindBad (s : State) (c : Crew) (r : List Byte) : Bool :=
  (decide (1 ≤ recKind r) && decide (recKind r ≤ 7) && millBad s c r) || !kindOk s c r

/-- A crew task's entry index names a kernel of the launch's image (R252). -/
def kernelAt (s : State) (c : Crew) (n : Nat) : Option Kern :=
  match s.image? (s.launchOf c).handle with
  | some i => match i.kerns[n]? with
    | some k => if k.vector then none else some k
    | none => none
  | none => none

/-- The detail code with which the landing refuses a record it has read; 0 accepts it (R252). -/
def refusal (s : State) (c : Crew) (r : List Byte) : Nat :=
  let k := recKind r
  if reservedSet r then 1
  else if (List.range 4).any (fun i => rangePasses s c k (recDesc r i)) || (List.range 2).any (fun w => wsetPasses s c k (recWset r w))
    then 3
  else if succBad c (recWord r 4) || succBad c (recWord r 8) then 4
  else if k = 0x40 then (if (kernelAt s c (recParam r 0)).isNone then 5 else 0)
  else if kindBad s c r then 6 else 0

/-! `task.post` (R252, R289). -/

/-- A post that the landing has not received. -/
def unreceived (o : Op) : Bool :=
  match o.kind with
  | .taskPost _ _ none => true
  | _ => false

/-- Entries of a crew's table that no task and no coming post takes. -/
def Crew.freeTasks (c : Crew) : Nat :=
  (c.tasks.filter fun t => t.state == .none).length - (c.ops.filter unreceived).length

/-- Landing slots of a camp in use (R251, R252); the crew task as which a successor runs keeps its own (R259). -/
def landingUse (s : State) (camp : Nat) : Nat :=
  (s.crews.filter fun c => c.isResident && c.camp == camp).foldl (fun n c => n + (64 - c.freeTasks) + c.named.isSome.toNat) 0

/-- Issues one posting operation per executing lane, once the table and the camp have room for all (R252). -/
def execTaskPost (h : Hdr) (d a : Opnd) (e : EngArg) (s : State) : Host.Outcome State Fault Refusal :=
  issueSwitch s h [(a, 1), (d, 1)] [] fun i m =>
    let n := m.lanes.length
    if exhausted i.g m e.clause.stream || decide (i.c.freeTasks < n) || decide (1024 < landingUse s i.c.camp + n) then s
    else
      let ks := destOps h d (m.lanes.map fun l => (l, OpKind.taskPost (readWide i.g s.draws l a 1 / 128 * 128) d none))
      finishSwitch s s i (i.c.addOps i.k s.draws i.e.pc e.clause (scopeCode e.scope) ks) [nextGroup s i i.e.mask] []

/-- The lowest free entry of a task table (R289). -/
def Crew.lowestTask (c : Crew) : Nat := ((List.range 64).find? fun e => (c.task e).state == .none).getD 0

/-- The next generation of an entry (R251). -/
def nextGen (g : Nat) : Nat := if g + 1 = 2 ^ 26 then 1 else g + 1

/-- The landing may receive a post: its masked operations are performed, and every earlier post of its lane, and every lower lane's of
its issue, has been received (R252, R289). -/
def mayReceive (c : Crew) (o : Op) : Bool :=
  afterDone c o && !(c.ops.any fun p =>
    unreceived p && decide (p.id < o.id) && p.gang == o.gang && (p.lanes == o.lanes || p.issue == o.issue))

/-- A task as its record gives it (R248). -/
def newTask (s : State) (t : Task) (o : Op) (off : Nat) (r : List Byte) : Task :=
  { gen := nextGen t.gen, wrapped := t.wrapped || t.gen + 1 == 2 ^ 26, state := .wait, status := 0, detail := 0, under := false, dep := recWord r 0 % 256
    record := r.take 12 ++ bytesOf 4 o.stream ++ r.drop 16, offset := off, lane := lowest o.lanes, gang := o.gang, stream := o.stream
    op := o.id, pc := o.pc
    ws0 := if wsTarget r 0 = 0 then .unused else .waiting
    ws1 := if wsTarget r 1 = 0 then .unused else .waiting
    postedAt := 32 * o.issue + lowest o.lanes, readyAt := s.now, engine := 0 }

/-- The landing receives a post: the task takes the lowest free entry, its `tid` goes to the lane, and it waits or is refused
(R252, R288, R289). -/
def receivePost (s : State) (c : Crew) (o : Op) (off : Nat) (d : Opnd) : State :=
  let e := c.lowestTask
  let inside := decide (off + 128 ≤ c.ssize)
  let r := if inside then peekN c.scratch off 128 else List.replicate 128 0#8
  let code := if inside then refusal s c r else 2
  let t := newTask s (c.task e) o off r
  let c1 := writeBackOp c o [BitVec.ofNat 32 (t.gen * 64 + e)] []
  let c2 := { c1.mapTask e fun _ => t with
    ops := c1.ops.map fun p => if p.id = o.id then { p with kind := .taskPost off d (some e) } else p }
  let s1 := s.setCrew c2
  if code ≠ 0 then taskDone s1 c.uid e 1 code
  else settleExit (s1.mapCrew c.uid fun c => c.mapTask e (Task.settle s.now)) c.uid

/-! `task.dec` and `task.stat` (R254, R255). -/

/-- `task.dec` (R254). -/
def execTaskDec (h : Hdr) (a : Opnd) (e : EngArg) (s : State) : Host.Outcome State Fault Refusal :=
  issueCounted s h [(a, 1)] [] e.clause (scopeCode e.scope) fun s i l => .taskDec (readWide i.g s.draws l a 1)

/-- The code of a task state (R253). -/
def TaskState.code : TaskState → Nat
  | .none => 0
  | .wait => 1
  | .ready => 2
  | .run => 3
  | .done => 4

/-- What `task.stat.t` reads (R255). -/
def statWord (c : Crew) (tid : Nat) : Nat :=
  let word := fun (t : Task) (st dep : Nat) => dep * 2 ^ 16 + t.under.toNat * 2 ^ 12 + t.detail * 2 ^ 8 + t.status * 16 + st
  match tidState c tid with
  | .live e => word (c.task e) (c.task e).state.code (c.task e).dep
  | .complete e => word (c.task e) 4 0
  | .stale => 0xF4
  | .unposted => 0xF0

/-- `task.stat.t` (R255). -/
def execTaskStatT (h : Hdr) (d a : Opnd) (s : State) : Host.Outcome State Fault Refusal :=
  issueSwitch s h [(d, 1), (a, 1)] [] fun i m =>
    switchWrite s i h d m fun l => wordsOf 1 (statWord i.c (readWide i.g s.draws l a 1))

/-- `task.stat.w` (R255). -/
def execTaskStatW (h : Hdr) (d : Opnd) (win : Fin 64) (s : State) : Host.Outcome State Fault Refusal :=
  issueSwitch s h [(d, 1)] [] fun i m =>
    switchWrite s i h d m fun _ => [match i.c.window? s win.val with
      | some w => w.gen
      | none => 0#32]

/-- Records that a queue holds, the reserve included (R255, R261). -/
def Queue.held (q : Queue) : Nat := q.recs.length + q.reserve.isSome.toNat

/-- What `task.stat.q` reads (R255). -/
def queueWord (s : State) (c : Crew) (n : Nat) : Nat :=
  match (s.launchOf c).qcap[n]? with
  | none => 0
  | some cap => cap * 2 ^ 16 + (match s.queue? c.launch c.camp n with
    | some q => q.held
    | none => 0)

/-- `task.stat.q` (R255). -/
def execTaskStatQ (h : Hdr) (d : Opnd) (q : Fin 7) (s : State) : Host.Outcome State Fault Refusal :=
  issueSwitch s h [(d, 1)] [] fun i m => switchWrite s i h d m fun _ => wordsOf 1 (queueWord s i.c q.val)

/-! `emit` (R261). -/

/-- `emit` (R261): each executing lane pushes its sixteen registers. -/
def execEmit (h : Hdr) (a : Opnd) (pd : PredOpt) (e : EngArg) (s : State) : Host.Outcome State Fault Refusal :=
  issueCounted s h [(a, 16)] [pd] e.clause (scopeCode e.scope) fun s i l =>
    .emit ((List.range 16).map fun j => readOpnd i.g s.draws l (Opnd.plus a j)) pd false

/-- The capacity of the queue that follows a crew's stage; none where none follows. -/
def queueAfter (s : State) (c : Crew) : Option Nat :=
  if (s.launchOf c).pipe then (s.launchOf c).qcap[c.stage]? else none

/-- A push waits no longer for anything but room: its masked operations are performed and no earlier push of its lane, or of a lower lane
of its issue, is pending. -/
def pushReady (c : Crew) (o : Op) : Bool :=
  (match o.kind with
    | .emit _ _ _ => true
    | _ => false) && afterDone c o &&
    !(c.ops.any fun p => decide (p.id < o.id) && p.gang == o.gang && (p.lanes == o.lanes || p.issue == o.issue) && (match p.kind with
      | .emit _ _ _ => true
      | _ => false))

/-- The oldest waiting push of a camp into the queue that follows a stage: crew and operation (R261, R262). -/
def oldestPush (s : State) (launch camp stage : Nat) : Option (Nat × Nat) :=
  let all := (s.crews.filter fun c => c.launch == launch && c.isResident && c.camp == camp && c.stage == stage && !c.terminating).flatMap
    fun c => (c.ops.filter (pushReady c)).map fun o => (o.issue, c.uid, o.id)
  (all.foldl (fun best x => match best with
    | none => some x
    | some b => if x.1 < b.1 ∨ (x.1 = b.1 ∧ x.2.2 < b.2.2) then some x else some b) none).map (·.2)

/-- A push is held by its queue, or takes the reserve record when it is the oldest that waits; with no queue after the stage its record is
discarded (R261). -/
def pushRecord (s : State) (c : Crew) (o : Op) : State :=
  match o.kind with
  | .emit r pd _ =>
    if !pushReady c o then s
    else match queueAfter s c with
      | none => endOp s c.uid o [] (predOut pd false)
      | some cap =>
        match s.queue? c.launch c.camp c.stage with
        | none => s
        | some q =>
          if q.recs.length < cap then
            endOp (s.mapQueue c.launch c.camp c.stage fun q => { q with recs := q.recs ++ [r] }) c.uid o [] (predOut pd true)
          else if q.reserve.isNone && oldestPush s c.launch c.camp c.stage == some (c.uid, o.id) then
            endOp (s.mapQueue c.launch c.camp c.stage fun q => { q with reserve := some r }) c.uid o [] (predOut pd true)
          else s
  | _ => s

/-- The push of a pending `emit` is held (R261). -/
def execEmitPushHeld (uid op : Nat) (s : State) : Host.Outcome State Fault Refusal :=
  match s.crew? uid with
  | none => finish s
  | some c => match c.op? op with
    | some o => finish (if c.isResident then pushRecord s c o else s)
    | none => finish s

/-! `pubw` (R246, R247). -/

/-- `pubw` (R247): the lanes of one issue count one operation. -/
def execPubw (h : Hdr) (win : Fin 64) (e : EngArg) (s : State) : Host.Outcome State Fault Refusal :=
  issueSwitch s h [] [] fun i m =>
    if m = 0#32 then finishSwitch s s i i.c [nextGroup s i i.e.mask] []
    else if exhausted i.g m e.clause.stream then s
    else finishSwitch s s i (i.c.addOp i.k s.draws i.e.pc m e.clause (scopeCode e.scope) (.pubw win.val)) [nextGroup s i i.e.mask] []

/-- A `pubw` performs: it waits while an engine writes the window's shadow; of a window the crew does not hold it leaves a record
(R246, R247). -/
def performPubw (s : State) (c : Crew) (o : Op) (win : Nat) : State :=
  if !afterDone c o then s
  else match c.window? s win with
    | some w =>
      if windowBusy s c.launch c.camp win then s else endOp (publish s w.home w.entry) c.uid o [] []
    | none =>
      if owing s c.uid 3 o.id then s
      else giveRecords s (c.ring s) c.uid none (.failed o.id) [laneRecord c o.gang 0x78 0 o.lanes o.pc 0 3 0] fun s => endOp s c.uid o [] []

/-! Issue of tasks (R256, R270). -/

/-- The resident crew of a launch on a core of a camp. -/
def crewOn (s : State) (launch camp core : Nat) : Option Crew :=
  match s.resident? (8 * camp + core) with
  | some d => if d.launch = launch then some d else none
  | none => none

/-- Some scratchpad that a task names belongs to a core without a resident crew of its launch: the task is passed over (R256). -/
def passedOver (s : State) (c : Crew) (t : Task) : Bool :=
  (List.range 4).any fun i =>
    let d := recDesc t.record i
    d.space == 1 && (crewOn s c.launch c.camp (d.loc % 8)).isNone

/-- A range in another core's allocation passes it (R270). -/
def otherPasses (s : State) (c : Crew) (t : Task) : Bool :=
  (List.range 4).any fun i =>
    let d := recDesc t.record i
    d.space == 1 && (match crewOn s c.launch c.camp (d.loc % 8) with
      | some x => decide (x.ssize < d.off + d.len)
      | none => false)

/-- The READY tasks of a camp for mills, or for flumes: class, arrival in READY, post, crew and entry. -/
def readyTasks (s : State) (camp : Nat) (flume : Bool) : List (Nat × Nat × Nat × Nat × Nat) :=
  (s.crews.filter fun c => c.isResident && c.camp == camp && !c.terminating).flatMap fun c =>
    ((List.range 64).filter fun e =>
        let t := c.task e
        t.state == .ready && (if flume then recKind t.record == 8 else decide (recKind t.record ≤ 7)) && !passedOver s c t).map fun e =>
      ((s.launchOf c).aclass, (c.task e).readyAt, (c.task e).postedAt, c.uid, e)

/-- The first task goes before the second: the higher class, then the earlier arrival in READY, then the earlier post (R256). -/
def taskFirst (a b : Nat × Nat × Nat × Nat × Nat) : Bool :=
  decide (b.1 < a.1) || (a.1 == b.1 && (decide (a.2.1 < b.2.1) || (a.2.1 == b.2.1 && decide (a.2.2.1 < b.2.2.1))))

/-- The task that a camp issues next, with its crew. -/
def nextTask (s : State) (camp : Nat) (flume : Bool) : Option (Nat × Nat) :=
  ((readyTasks s camp flume).foldl (fun best x => match best with
    | none => some x
    | some b => if taskFirst x b then some x else some b) none).map (·.2.2.2)

/-- A mill of a camp is free (R268). -/
def millFree (s : State) (camp mill : Nat) : Bool :=
  !(s.crews.any fun c => c.camp == camp && c.tasks.any fun t => t.state == .run && decide (recKind t.record ≤ 7) && t.engine == mill)

/-- The landing issues the next READY task to a free mill (engines 0 to 3) or flume entry (4 and 5); what depends on other cores is checked
now (R256, R265, R270, R279). -/
def execTaskIssue (camp engine : Nat) (s : State) : Host.Outcome State Fault Refusal :=
  if engine ≥ 6 || !(if engine < 4 then millFree s camp engine else sharedFree s camp (engine - 4)) then finish s
  else
    match nextTask s camp (decide (4 ≤ engine)) with
    | none => finish s
    | some (uid, e) =>
      match s.crew? uid with
      | none => finish s
      | some c =>
        if otherPasses s c (c.task e) then finish (taskDone s uid e 1 3)
        else if kindBad s c (c.task e).record then finish (taskDone s uid e 1 6)
        else finish (s.setCrew (c.mapTask e fun t => { t with state := .run, engine := engine }))

/-! Working-set staging (R263, R264). -/

def Task.ws (t : Task) (w : Nat) : WsState := if w = 0 then t.ws0 else t.ws1
def Task.setWs (t : Task) (w : Nat) (x : WsState) : Task := if w = 0 then { t with ws0 := x } else { t with ws1 := x }

def WsState.moves : WsState → Bool
  | .moving _ => true
  | _ => false

/-- One working set's transfer goes before another (R264): those with a NEED first, the smallest first, then the earliest post. As (NEED, post,
working set). -/
def stagingFirst (a b : Nat × Nat × Nat) : Bool :=
  let rank := fun (n : Nat) => if n = 0 then 2 ^ 32 else n
  decide (rank a.1 < rank b.1) || (rank a.1 == rank b.1 && (decide (a.2.1 < b.2.1) || (a.2.1 == b.2.1 && decide (a.2.2 < b.2.2))))

/-- The task is one that the landing would issue next, or a crew task whose poster's lanes have all exited: its staging counts as demand
(R264). -/
def headTask (s : State) (c : Crew) (e : Nat) : Bool :=
  let t := c.task e
  if recKind t.record = 0x40 then c.gangs.all fun g => g.lanes.all fun l => l.run == .exited
  else nextTask s c.camp (recKind t.record == 8) == some (c.uid, e)

/-- Bytes of a launch's admitted transfers of a target in a camp (R263). -/
def stagingCharge (s : State) (launch camp tgt : Nat) : Nat :=
  (s.crews.filter fun c => c.launch == launch && c.isResident && c.camp == camp).foldl (fun n c =>
    c.tasks.foldl (fun n t => (List.range 2).foldl (fun n w =>
      if (t.ws w).moves && wsTarget t.record w == tgt then n + (recWset t.record w).len else n) n) n) 0

/-- The scratchpad transfer of a camp that has waited longest: post, working set, crew and entry. -/
def oldestStaging (s : State) (camp : Nat) : Option (Nat × Nat × Nat × Nat) :=
  ((s.crews.filter fun c => c.isResident && c.camp == camp && !c.terminating && !c.req).flatMap fun c =>
    (List.range 64).flatMap fun e => ((List.range 2).filter fun w =>
        (c.task e).state == .wait && (c.task e).ws w == .waiting && wsTarget (c.task e).record w == 2).map fun w =>
      ((c.task e).postedAt, w, c.uid, e)).foldl (fun best x => match best with
    | none => some x
    | some b => if x.1 < b.1 ∨ (x.1 = b.1 ∧ x.2.1 < b.2.1) then some x else some b) none

/-- The landing admits a working set's transfer (R263, R265): into L2 within STBL2, or never; into a scratchpad within STBSP, or when it
is the oldest that waits, and while a crew of the launch is resident on the target core. -/
def execStagingAdmit (uid e w : Nat) (s : State) : Host.Outcome State Fault Refusal :=
  match s.crew? uid with
  | none => finish s
  | some c =>
    let t := c.task e
    let x := recWset t.record w
    let la := s.launchOf c
    let set := fun v => finish (s.setCrew (c.mapTask e fun t => t.setWs w v))
    if !c.isResident || c.terminating || c.req || w ≥ 2 || t.state == .none || t.ws w != .waiting || !(sharedFree s c.camp (e % 2)) then
      finish s
    else if x.tgt = 1 then
      if stagingCharge s c.launch c.camp 1 + x.len ≤ la.stbl2 then set (.moving 0) else set .unused
    else if t.state == .wait && (crewOn s c.launch c.camp x.core).isSome &&
        (decide (stagingCharge s c.launch c.camp 2 + x.len ≤ la.stbsp) ||
          (oldestStaging s c.camp).map (·.2.2) == some (uid, e) && (oldestStaging s c.camp).map (·.2.1) == some w) then set (.moving 0)
    else finish s

/-- The record of a staging fault (R263). -/
def stagingRecord (c : Crew) (e w : Nat) (f : CopyFault) (bytes : Nat) : Record :=
  let t := c.task e
  laneRecord c t.gang 0x28 2 (LaneMask.one t.lane) t.pc f.addr ((0xC000 + 2 * e + w) * 2 ^ 16 + f.sub) bytes

/-- A staging fault terminates the posting crew, once the ring has room for its record (R263, R330). -/
def stagingFault (s : State) (c : Crew) (e w : Nat) (f : CopyFault) (bytes : Nat) : State :=
  giveRecords s (c.ring s) c.uid none (.die 2 (2 * e + w)) [stagingRecord c e w f bytes] fun s => terminate s c.uid none

/-- Byte `j` of a working set, for the landing. -/
def stagingByte (s : State) (c : Crew) (e w : Nat) (x : WorkSet) (j : Nat) : CopyByte :=
  if x.ssp = 0 then engineRead s c (.engine c.uid 2 (2 * e + w) 0) true (x.src + j) (x.src + j)
  else
    let f := rangeOf s c (x.src / 2 ^ 32)
    let o := x.src % 2 ^ 32 + j
    if s.poisoned.contains ((f.store + o) / 128) then .fault s { sub := 6, addr := o }
    else .ok (touch s [f.store + o]) (readByte s ((c.engine s).world.map (·.2)) (f.store + o))

/-- Delivers the bytes of a scratchpad working set, `n` of them still to come; when the last has arrived the task may become READY. A fault
terminates the posting crew (R263). -/
def stageBytes (uid e w : Nat) : Nat → State → State
  | 0, s => s.mapCrew uid fun c => c.mapTask e fun t => Task.settle s.now (t.setWs w .arrived)
  | n + 1, s =>
    match s.crew? uid with
    | none => s
    | some c =>
      let x := recWset (c.task e).record w
      let j := x.len - (n + 1)
      let fail := fun (s : State) (f : CopyFault) => stagingFault (s.mapCrew uid fun c => c.mapTask e fun t => t.setWs w (.moving j)) c e w f j
      match crewOn s c.launch c.camp x.core with
      | none => s.mapCrew uid fun c => c.mapTask e fun t => t.setWs w .waiting
      | some d =>
        if d.ssize ≤ 64 * x.soff + j then
          fail s { sub := 2, addr := if x.ssp = 0 then x.src + j else x.src % 2 ^ 32 + j }
        else
          match stagingByte s c e w x j with
          | .ok s1 b => stageBytes uid e w n (writeLoc s1 none (.scratch d.uid (64 * x.soff + j)) b)
          | .wait s1 => s1.mapCrew uid fun c => c.mapTask e fun t => t.setWs w (.moving j)
          | .fault s1 f => fail s1 f

/-- The lines of an L2 working set; sources that do not translate, or are protected, are dropped and counted (R263). -/
def stageL2 (s : State) (c : Crew) (x : WorkSet) : State :=
  let la := s.launchOf c
  if x.ssp = 1 then
    let f := rangeOf s c (x.src / 2 ^ 32)
    (linesOf (paRange (f.store + x.src % 2 ^ 32) x.len)).foldl (fun s l => accessL2 s l la.desc.cls false false none none) s
  else
    let first := x.src / 65536
    (List.range ((x.src + x.len - 1) / 65536 - first + 1)).foldl (fun s k =>
      let page := (first + k) * 65536
      match translate s (c.engine s) 0 page with
      | (s1, .ok lf) =>
        if lf.prot then hintDrop s1 la.vf la.ctx 1
        else
          let lo := max x.src page
          let n := min (x.src + x.len) (page + 65536) - lo
          (linesOf (paRange (lf.pa / 65536 * 65536 + lo % 65536) n)).foldl
            (fun s l => accessL2 s l la.desc.cls false false none none) s1
      | (s1, _) => hintDrop s1 la.vf la.ctx 1) s

/-- Another transfer admitted in the camp, which nothing holds, goes first (R264). -/
def stagingYields (s : State) (c : Crew) (e w : Nat) : Bool :=
  let mine := ((recWset (c.task e).record w).need, (c.task e).postedAt, w)
  !headTask s c e && (s.crews.filter fun d => d.isResident && d.camp == c.camp && !d.terminating).any fun d =>
    (List.range 64).any fun f => (List.range 2).any fun v =>
      ((d.task f).ws v).moves && !engineHeld s d 2 (2 * f + v) && !(d.uid == c.uid && f == e && v == w) &&
        stagingFirst ((recWset (d.task f).record v).need, (d.task f).postedAt, v) mine

/-- An admitted transfer arrives (R263). -/
def execStagingArrive (uid e w : Nat) (s : State) : Host.Outcome State Fault Refusal :=
  match s.crew? uid with
  | none => finish s
  | some c =>
    let x := recWset (c.task e).record w
    match (c.task e).ws w with
    | .moving j =>
      if !c.isResident || c.terminating || engineHeld s c 2 (2 * e + w) || stagingYields s c e w then finish s
      else if x.tgt = 1 then finish ((stageL2 s c x).mapCrew uid fun c => c.mapTask e fun t => t.setWs w .arrived)
      else finish (stageBytes uid e w (x.len - j) s)
    | _ => finish s

end Sys2Proof.Machine
end

