-- ==== Sys2Proof/Machine/Mills.lean ====
section
/-!
DEFINITION. The mills and the `stage` kind: what each tile task reads, computes and writes, its exception word, its faults, its publish
and its completion (R46, R47, R268 to R287).
-/

namespace Sys2Proof.Machine

/-! Operands (R26, R29, R270, R271). -/

/-- The format with a code (R249). -/
def fmtOf (code : Nat) : Fmt :=
  match code with
  | 2 => .f8e4
  | 3 => .f8e5
  | 4 => .bf16
  | 5 => .f16
  | _ => .f32

/-- Byte `o` of the space and location of a descriptor. -/
def tileByte (s : State) (c : Crew) (d : Desc) (o : Nat) : Byte :=
  match d.space with
  | 1 => match crewOn s c.launch c.camp (d.loc % 8) with
    | some x => if o < x.ssize then peek x.scratch o else 0#8
    | none => 0#8
  | 2 => match locCamp c d.loc with
    | some camp => readLoc s none (vaultLoc s c.launch camp o)
    | none => 0#8
  | 3 => readByte s ((c.engine s).world.map (·.2)) ((rangeOf s c d.loc).store + o)
  | _ => 0#8

/-- Bytes of a space and location. -/
def tileBytes (s : State) (c : Crew) (d : Desc) (o n : Nat) : List Byte := (List.range n).map fun i => tileByte s c d (o + i)

/-- The first byte of element (r, k) of an operand; in a format range OFF and PITCH count elements (R271). -/
def elemAt (d : Desc) (r k : Nat) : Nat :=
  if d.space = 3 then (d.off + r * d.pitch + k) * fmtBytes d.fmt else d.off + r * d.pitch + k * fmtBytes d.fmt

/-- Element (r, k). -/
def tileElem (s : State) (c : Crew) (d : Desc) (r k : Nat) : Nat := natOfBytes (tileBytes s c d (elemAt d r k) (fmtBytes d.fmt))

/-- A row of elements. -/
def tileRow (s : State) (c : Crew) (d : Desc) (nc r : Nat) : List Nat := (List.range nc).map (tileElem s c d r)

/-- A row of floating-point elements. -/
def tileFps (s : State) (c : Crew) (d : Desc) (nc r : Nat) : List Fp := (tileRow s c d nc r).map (fmtOf d.fmt).decode

/-! Poison (R275). -/

/-- The storage byte at an offset of a format range is poisoned or uncorrectable. -/
def rangePoison (s : State) (c : Crew) (d : Desc) (o : Nat) : Bool := s.poisoned.contains (((rangeOf s c d.loc).store + o) / 128)

/-- Byte `o` of the space and location of a descriptor is poisoned or uncorrectable. -/
def tileBad (s : State) (c : Crew) (d : Desc) (o : Nat) : Bool :=
  match d.space with
  | 1 => (crewOn s c.launch c.camp (d.loc % 8)).any fun x => s.spoiled.contains (.scratch x.uid o)
  | 2 => (locCamp c d.loc).any fun camp => s.spoiled.contains (vaultLoc s c.launch camp o)
  | 3 => rangePoison s c d o
  | _ => false

/-- The first poisoned element of an operand, by row: its row, and its offset or, in a format range, its element index. -/
def tilePoison (s : State) (c : Crew) (d : Desc) (nr nc : Nat) : Option (Nat × Nat) :=
  if s.poisoned.isEmpty && s.spoiled.isEmpty then none
  else (List.range nr).findSome? fun r => ((List.range nc).find? fun k =>
    (List.range (fmtBytes d.fmt)).any fun b => tileBad s c d (elemAt d r k + b)).map fun k =>
      (r, if d.space = 3 then d.off + r * d.pitch + k
        else elemAt d r k + ((List.range (fmtBytes d.fmt)).findIdx fun b => tileBad s c d (elemAt d r k + b)))

/-- The number of the element of a bit-plane tensor at row n and column k (R271). -/
def planeIndex (d : Desc) (kk n k : Nat) : Nat := if d.space = 3 then d.off + n * d.pitch + k else n * kk + k

/-- The byte that holds plane `p` of element `j` of a bit-plane tensor (R43, R271). -/
def planeByte (s : State) (c : Crew) (d : Desc) (p j : Nat) : Nat :=
  if d.space = 3 then p * (rangeOf s c d.loc).nelem / 8 + j / 8 else d.off + p * d.pitch + j / 8

/-- The bytes that hold a weight and, with `ws`, its scale, in a scratchpad or a vault (R271, R281). -/
def weightBytes (s : State) (c : Crew) (d : Desc) (kk wsoff : Nat) (ws : Bool) (n k : Nat) : List Nat :=
  let j := planeIndex d kk n k
  let scale := wsoff + 2 * (j / 128)
  (List.range d.planes).map (fun p => planeByte s c d p j) ++ (if ws then [scale, scale + 1] else [])

/-- The first poisoned element of the weights: its row, and its element index or, outside format ranges, the offset of the byte (R275). -/
def weightPoison (s : State) (c : Crew) (d : Desc) (kk wsoff : Nat) (ws : Bool) : Option (Nat × Nat) :=
  if s.poisoned.isEmpty && s.spoiled.isEmpty then none
  else (List.range 64).findSome? fun n => (List.range kk).findSome? fun k =>
    if d.space = 3 then
      if (List.range d.planes).any (fun p => rangePoison s c d (planeByte s c d p (planeIndex d kk n k))) ||
          (ws && s.poisoned.contains (((rangeOf s c d.loc).scale + 2 * (planeIndex d kk n k / 128)) / 128)) then
        some (n, planeIndex d kk n k)
      else none
    else ((weightBytes s c d kk wsoff ws n k).find? (tileBad s c d)).map fun o => (n, o)

/-! The results (R280 to R286). -/

/-- What a tile task gives: the destination bytes, in groups by row of work, and its exception flags. -/
structure MillOut where
  rows : List (List (Nat × Byte))
  flags : FlagSet
  deriving DecidableEq, Repr

/-- The destination bytes of element (r, k). -/
def destElem (d : Desc) (r k v : Nat) : List (Nat × Byte) :=
  let n := fmtBytes d.fmt
  ((List.range n).map fun i => d.off + r * d.pitch + k * n + i).zip (bytesOf n v)

/-- The destination bytes of a row of elements. -/
def destRow (d : Desc) (r : Nat) (vs : List Nat) : List (Nat × Byte) :=
  ((List.range vs.length).zip vs).flatMap fun x => destElem d r x.1 x.2

def orFlags (fs : List FlagSet) : FlagSet := fs.foldl (· ||| ·) 0#6

/-- One cell of `mma.f`: the chunks in ascending k (R280). -/
def mmaChunks : Nat → Nat × FlagSet → List Fp → List Fp → Nat × FlagSet
  | 0, acc, _, _ => acc
  | n + 1, acc, as, bs =>
    let ps := (as.take 32).zip (bs.take 32)
    let nv := flagIf (ps.any fun p => zeroTimesInf p.1 p.2) flagNV
    let r := accumF acc.1 (ps.map fun p => mulTerm p.1 p.2)
    mmaChunks n (r.1, acc.2 ||| nv ||| r.2) (as.drop 32) (bs.drop 32)

/-- `mma.f` (R280). -/
def mmaFOut (s : State) (c : Crew) (r : List Byte) : MillOut :=
  let da := recDesc r 0
  let db := recDesc r 1
  let dc := recDesc r 2
  let k := recParam r 0
  let as := (List.range 64).map (tileFps s c da k)
  let bs := (List.range 64).map (tileFps s c db k)
  let snan := flagIf (as.any (fun x => x.any (Fp.isSnan (fmtOf da.fmt))) || bs.any fun x => x.any (Fp.isSnan (fmtOf db.fmt))) flagNV
  let cells := ((List.range 64).zip as).map fun x => ((List.range 64).zip bs).map fun y =>
    mmaChunks (k / 32) (if bit (recFlags r) 0 then tileElem s c dc x.1 y.1 else 0x80000000, 0#6) x.2 y.2
  { rows := ((List.range 64).zip cells).map fun x => destRow (recDesc r 3) x.1 (x.2.map (·.1))
    flags := snan ||| orFlags (cells.map fun x => orFlags (x.map (·.2))) }

/-- The planes of element `j`, plane 0 highest (R43). -/
def weightBits (s : State) (c : Crew) (d : Desc) (j : Nat) : Nat → Nat
  | 0 => 0
  | p + 1 => weightBits s c d j p * 2 + (tileByte s c d (planeByte s c d p j)).toNat / 2 ^ (j % 8) % 2

/-- W(n, k) of R271. -/
def weight (s : State) (c : Crew) (r : List Byte) (n k : Nat) : Int :=
  let d := recDesc r 1
  let nb := if d.space = 3 then (rangeOf s c d.loc).pstored else recParam r 2 % 16
  reconBP (weightBits s c d (planeIndex d (recParam r 0) n k) d.planes * 2 ^ (nb - d.planes)) nb d.planes

/-- A bf16 code as an f32 value: the same number, infinity or NaN. -/
def bf16Value (x : Nat) : Fp :=
  match Fmt.bf16.decode x with
  | .nan n m => .nan n (m * 2 ^ 16)
  | v => v

/-- WScale(n, b) of R281. -/
def weightScale (s : State) (c : Crew) (r : List Byte) (n b : Nat) : Fp :=
  let d := recDesc r 1
  let k := recParam r 0
  if d.space = 3 then
    let f := rangeOf s c d.loc
    bf16Value (natOfBytes (readBytes s ((c.engine s).world.map (·.2)) (paRange (f.scale + 2 * ((d.off + n * d.pitch + 128 * b) / 128)) 2)))
  else bf16Value (natOfBytes (tileBytes s c d (recParam r 1 + 2 * ((n * k + 128 * b) / 128)) 2))

/-- RScale(i) of R281. -/
def rowScale (s : State) (c : Crew) (r : List Byte) (i : Nat) : Fp :=
  let d := recDesc r 2
  bf16Value (natOfBytes (tileBytes s c d (if d.space = 3 then 2 * d.off + 2 * i else d.off + 2 * i) 2))

/-- A signed sum of products. -/
def dotInt (as bs : List Int) : Int := (as.zip bs).foldl (fun t p => t + p.1 * p.2) 0

/-- The blocks of one cell of `mma.q` with DQ = 1 (R281); `sc` gives the scale of block `b`, where WS = 1. -/
def mmaBlocks (ws : Bool) (sc : Nat → Fp) : Nat → Nat → Nat × FlagSet → List Int → List Int → Nat × FlagSet
  | 0, _, acc, _, _ => acc
  | n + 1, b, acc, as, ws' =>
    let sb := dotInt (as.take 128) (ws'.take 128)
    let v : Fp := .fin (decide (sb < 0)) sb.natAbs 0
    let t := if ws then fpMul .f32 false .rn v (sc b) else (Fmt.f32.code v, 0#6)
    let r := fpAdd .f32 false .rn (Fmt.f32.decode acc.1) (Fmt.f32.decode t.1)
    mmaBlocks ws sc n (b + 1) (r.1, acc.2 ||| t.2 ||| r.2) (as.drop 128) (ws'.drop 128)

/-- One cell of `mma.q` (R281). -/
def mmaQCell (s : State) (c : Crew) (r : List Byte) (i n : Nat) (as ws : List Int) : Nat × FlagSet :=
  let fl := recFlags r
  if !bit fl 0 then (wrap (dotInt as ws) 32, 0#6)
  else
    let acc := mmaBlocks (bit fl 2) (weightScale s c r n) (recParam r 0 / 128) 0 (0x80000000, 0#6) as ws
    if bit fl 1 then
      let x := fpMul .f32 false .rn (Fmt.f32.decode acc.1) (rowScale s c r i)
      (x.1, acc.2 ||| x.2)
    else acc

/-- `mma.q` (R281). -/
def mmaQOut (s : State) (c : Crew) (r : List Byte) : MillOut :=
  let k := recParam r 0
  let as := (List.range 64).map fun i => (tileRow s c (recDesc r 0) k i).map fun x => signExt x 8
  let ws := (List.range 64).map fun n => (List.range k).map (weight s c r n)
  let cells := ((List.range 64).zip as).map fun x => ((List.range 64).zip ws).map fun y => mmaQCell s c r x.1 y.1 x.2 y.2
  { rows := ((List.range 64).zip cells).map fun x => destRow (recDesc r 3) x.1 (x.2.map (·.1))
    flags := orFlags (cells.map fun x => orFlags (x.map (·.2))) }

/-- The groups of a row under the transform (R282). -/
def hadGroups (F : Fmt) (logn : Nat) (exact : Bool) : Nat → List Nat → List Nat × FlagSet
  | 0, _ => ([], 0#6)
  | n + 1, xs =>
    let y := hadamard F logn exact (xs.take (2 ^ logn))
    let z := hadGroups F logn exact n (xs.drop (2 ^ logn))
    (y.1 ++ z.1, y.2 ||| z.2)

/-- `hadam` (R282). -/
def hadamOut (s : State) (c : Crew) (r : List Byte) : MillOut :=
  let logn := 4 + recFlags r % 4
  let nc := recCols r
  let rows := (List.range (recRows r)).map fun i =>
    (i, hadGroups (fmtOf (recDesc r 0).fmt) logn (bit (recFlags r) 2) (nc / 2 ^ logn) (tileRow s c (recDesc r 0) nc i))
  { rows := rows.map fun x => destRow (recDesc r 3) x.1 x.2.1, flags := orFlags (rows.map fun x => x.2.2) }

/-- |x| of a finite f32 element in units of 2^-149; none for a NaN or an infinity. -/
def quantMag : Fp → Option Nat
  | .fin _ n e => some (n * 2 ^ (e + 149).toNat)
  | _ => none

/-- One element of `quant` under scale `sc` (R283). -/
def quantCell (sc : Fp) (x : Fp) : Nat × FlagSet :=
  match x, sc with
  | .nan _ _, _ => (0, flagNV)
  | .inf n, _ => (if n then 0x81 else 0x7F, flagOF)
  | .fin n a e, .fin _ b f =>
    if b = 0 then (0, 0#6)
    else
      let r := roundInt (exQuot n a b (e - f)) .rn
      let q := max (-127) (min 127 r.1)
      (wrap q 8, flagIf r.2 flagNX ||| flagIf (q != r.1) flagSI)
  | .fin _ _ _, _ => (0, 0#6)

/-- One row of `quant`: the scale, the elements and the flags (R283). -/
def quantRow (xs : List Fp) : Nat × List Nat × FlagSet :=
  let m := (xs.filterMap quantMag).foldl max 0
  let sc := roundFmt .bf16 .rn (exQuot false m 127 (-149))
  let qs := xs.map (quantCell (Fmt.bf16.decode sc.1))
  (sc.1, qs.map (·.1), sc.2 ||| orFlags (qs.map (·.2)))

/-- `quant` (R283). -/
def quantOut (s : State) (c : Crew) (r : List Byte) : MillOut :=
  let d := recDesc r 3
  let rows := (List.range (recRows r)).map fun i => (i, quantRow (tileFps s c (recDesc r 0) (recCols r) i))
  { rows := rows.map fun x =>
      destRow d x.1 x.2.2.1 ++ [d.off + recParam r 1 + 2 * x.1, d.off + recParam r 1 + 2 * x.1 + 1].zip (bytesOf 2 x.2.1)
    flags := orFlags (rows.map fun x => x.2.2.2) }

/-- `xpose` (R284). -/
def xposeOut (s : State) (c : Crew) (r : List Byte) : MillOut :=
  { rows := (List.range (recRows r)).map fun i =>
      ((List.range (recCols r)).zip (tileRow s c (recDesc r 0) (recCols r) i)).flatMap fun x => destElem (recDesc r 3) x.1 i x.2
    flags := 0#6 }

/-- One element of `acc` (R285). -/
def accCell (fmt : Nat) (sat : Bool) (x y : Nat) : Nat × FlagSet :=
  if fmt = 6 then fpAdd .f32 false .rn (Fmt.f32.decode x) (Fmt.f32.decode y)
  else if sat then
    let v := satFlag true (signExt x 32 + signExt y 32) 32
    (wrap v.1 32, v.2)
  else ((x + y) % 2 ^ 32, 0#6)

/-- `acc` (R285). -/
def accOut (s : State) (c : Crew) (r : List Byte) : MillOut :=
  let rows := (List.range (recRows r)).map fun i =>
    (i, ((tileRow s c (recDesc r 0) (recCols r) i).zip (tileRow s c (recDesc r 1) (recCols r) i)).map fun p =>
      accCell (recDesc r 3).fmt (bit (recFlags r) 0) p.1 p.2)
  { rows := rows.map fun x => destRow (recDesc r 3) x.1 (x.2.map (·.1)), flags := orFlags (rows.map fun x => orFlags (x.2.map (·.2))) }

/-- `fill` (R286). -/
def fillOut (r : List Byte) : MillOut :=
  { rows := (List.range (recRows r)).map fun i => destRow (recDesc r 3) i (List.replicate (recCols r) (recParam r 1)), flags := 0#6 }

/-- The first poisoned byte of an mill task's operands: the operand, its element index, and the rows of work done before it (R275). -/
def millPoison (s : State) (c : Crew) (r : List Byte) : Option (Nat × Nat × Nat) :=
  let k := recParam r 0
  let nr := recRows r
  let nc := recCols r
  let p := fun (i nr nc : Nat) (work : Bool) => (tilePoison s c (recDesc r i) nr nc).map fun x => (i, x.2, if work then x.1 else 0)
  match recKind r with
  | 1 => [p 0 64 k false, p 1 64 k false, if bit (recFlags r) 0 then p 2 64 64 false else none].findSome? id
  | 2 =>
    [p 0 64 k false, (weightPoison s c (recDesc r 1) k (recParam r 1) (bit (recFlags r) 2)).map fun x => (1, x.2, 0),
      if bit (recFlags r) 1 then p 2 1 64 false else none].findSome? id
  | 3 | 4 | 5 => p 0 nr nc true
  | 6 =>
    match p 0 nr nc true, p 1 nr nc true with
    | some x, some y => some (if y.2.2 < x.2.2 then y else x)
    | some x, none => some x
    | none, y => y
  | _ => none

/-- The result of a mill task. -/
def millOut (s : State) (c : Crew) (r : List Byte) : MillOut :=
  match recKind r with
  | 1 => mmaFOut s c r
  | 2 => mmaQOut s c r
  | 3 => hadamOut s c r
  | 4 => quantOut s c r
  | 5 => xposeOut s c r
  | 6 => accOut s c r
  | _ => fillOut r

/-! Writing, publishing and completing (R272 to R275). -/

/-- Writes one destination byte (R270, R272). -/
def writeDest (s : State) (c : Crew) (e : Nat) (d : Desc) (o : Nat) (b : Byte) : CopyByte :=
  if d.space = 4 then shadowWrite s c (.engine c.uid 1 e 0) d.loc o b
  else match crewOn s c.launch c.camp (d.loc % 8) with
    | some x => .ok (if o < x.ssize then writeLoc s none (.scratch x.uid o) b else s) b
    | none => .ok s b

/-- Writes destination bytes; what does not translate has been checked before. -/
def writeDests (s : State) (c : Crew) (e : Nat) (d : Desc) : List (Nat × Byte) → State
  | [] => s
  | x :: xs => match writeDest s c e d x.1 x.2 with
    | .ok s1 _ => writeDests s1 c e d xs
    | _ => writeDests s c e d xs

/-- Bytes of a task that stops before it completes: each written or not, a free choice (R257, R275). -/
def spillDests (s : State) (c : Crew) (e : Nat) (d : Desc) : List (Nat × Byte) → State
  | [] => s
  | x :: xs =>
    let s1 := { s with draws := s.draws + 1 }
    if Config.copiedByte s.draws then spillDests (writeDests s1 c e d [x]) c e d xs else spillDests s1 c e d xs

/-- How the backing of a `.g` window destination translates: every byte does; or the first that waits on a page request, or fails with its
cause, by position and offset. -/
inductive BackingX where
  | ok
  | wait (s : State) (n off : Nat)
  | fault (n off cause : Nat)
  deriving DecidableEq, Repr

def backingXlat (s : State) (c : Crew) (e : Nat) (w : Window) (n : Nat) : List (Nat × Byte) → BackingX
  | [] => .ok
  | x :: xs =>
    match engineXlat s c (.engine c.uid 1 e x.1) true 1 (w.backing (!w.cur) (w.woff + x.1)) with
    | (s1, .ok _) => backingXlat s1 c e w (n + 1) xs
    | (s1, .page _) => .wait s1 n x.1
    | (_, .trap cause _ _ _) => .fault n x.1 cause

def destXlat (s : State) (c : Crew) (e : Nat) (d : Desc) (bs : List (Nat × Byte)) : BackingX :=
  if d.space = 4 then
    match c.window? s d.loc with
    | some w => if w.glob then backingXlat s c e w 0 bs else .ok
    | none => .ok
  else .ok

/-- The exception word (R274). -/
def writeXw (s : State) (c : Crew) (t : Task) (fl : FlagSet) : State :=
  if bit (recFlags t.record) 7 then
    writeLocs s none ((List.range 4).map fun i => if t.offset + 12 + i < c.ssize then .scratch c.uid (t.offset + 12 + i) else .nowhere)
      (bytesOf 4 fl.toNat)
  else s

/-- The window that a task publishes cannot be published yet: another engine's write to it is in flight (R246). -/
def publishWaits (s : State) (c : Crew) (d : Desc) : Bool := d.space == 4 && windowWrites s c.launch c.camp d.loc

/-- A task completes with OK: exception word, publish, DONE (R246, R253, R273, R274). -/
def completeTask (s : State) (c : Crew) (e : Nat) (fl : FlagSet) : State :=
  let t := c.task e
  let d := recDesc t.record 3
  let s1 := writeXw s c t fl
  taskDone (if d.space = 4 then publish s1 c.camp d.loc else s1) c.uid e 0 0

/-- A faulted mill task (R275): some of `bs` written, one record, and DONE with FAULTED once the ring has room (R330). -/
def faultTask (s : State) (c : Crew) (e cause opnd addr : Nat) (bs : List (Nat × Byte)) : State :=
  let t := c.task e
  let s1 := spillDests s c e (recDesc t.record 3) bs
  let r := laneRecord c t.gang cause 1 (LaneMask.one t.lane) t.pc addr ((t.gen * 64 + e) % 2 ^ 26) opnd
  giveRecords s1 (c.ring s1) c.uid none (.fault e) [r] fun s => taskDone s c.uid e 3 0

/-- A running task of a terminated crew is abandoned (R257). -/
def abandonTask (s : State) (c : Crew) (e : Nat) (bs : List (Nat × Byte)) : State :=
  let s1 := spillDests s c e (recDesc (c.task e).record 3) bs
  settleEnd (s1.mapCrew c.uid fun c => c.mapTask e fun t => { t with state := .none, status := 2 }) c.uid

/-- The state as a mill has read it: operand bytes that it read earlier have the values of then (R273). -/
def withSeen (s : State) (t : Task) : State :=
  t.seen.foldl (fun s x => match x.1 with
    | .phys pa _ _ => { s with hbm := poke s.hbm pa x.2 }
    | l => writeLoc s none l x.2) s

/-- A running mill reads one of its operand bytes, before the others (R273). -/
def millRead (s : State) (uid e : Nat) (x : Loc) : State :=
  match s.crew? uid with
  | none => s
  | some c =>
    let t := c.task e
    if t.state != .run || t.out.isSome || t.seen.any (fun y => y.1.same x) then s
    else s.mapCrew uid fun c => c.mapTask e fun t => { t with seen := t.seen ++ [(x, readLoc s ((c.engine s).world.map (·.2)) x)] }

/-- What a running mill has still to write, with its flags. -/
def millRest (s : State) (c : Crew) (e : Nat) : List (Nat × Byte) × FlagSet :=
  match (c.task e).out with
  | some x => x
  | none =>
    let out := millOut (withSeen s (c.task e)) c (c.task e).record
    (out.rows.flatten, out.flags)

/-- What a running mill meets before it writes: it waits; or its operands are poisoned, or a backing does not translate, and it ends
faulted (R275); or nothing. -/
def millHolds (s : State) (c : Crew) (e : Nat) : Option State :=
  let t := c.task e
  let rest := (millRest s c e).1
  match if t.out.isSome then none else millPoison s c t.record with
  | some (i, addr, rows) => some (faultTask s c e 0x60 i addr ((millOut (withSeen s t) c t.record).rows.take rows).flatten)
  | none =>
    match destXlat s c e (recDesc t.record 3) rest with
    | .wait s1 _ _ => some s1
    | .fault n off cause => some (faultTask s c e cause 4 off (rest.take n))
    | .ok => none

/-- A mill runs a task to its end: it writes what it has not written, and the task completes when its window can be published. -/
def runMill (s : State) (c : Crew) (e : Nat) : State :=
  let rest := millRest s c e
  let d := recDesc (c.task e).record 3
  if c.terminating then abandonTask s c e rest.1
  else if engineHeld s c 1 e then s
  else match millHolds s c e with
    | some t => t
    | none =>
      let s1 := writeDests s c e d rest.1
      if publishWaits s c d then s1.mapCrew c.uid fun c => c.mapTask e fun t => { t with out := some ([], rest.2) }
      else completeTask s1 c e rest.2

/-- A running mill writes one byte of its result before the others (R273). -/
def millWrite (s : State) (uid e n : Nat) : State :=
  match s.crew? uid with
  | none => s
  | some c =>
    if (c.task e).state != .run || decide (7 < recKind (c.task e).record) || c.terminating || engineHeld s c 1 e then s
    else match millHolds s c e with
      | some t => t
      | none =>
        let rest := millRest s c e
        match rest.1[n]? with
        | none => s
        | some x => (writeDests s c e (recDesc (c.task e).record 3) [x]).mapCrew uid fun c => c.mapTask e fun t =>
            { t with out := some (rest.1.eraseIdx n, rest.2), moved := t.moved + 1 }

/-- A mill's task of a kind completes. -/
def millEvent (kind uid e : Nat) (s : State) : Host.Outcome State Fault Refusal :=
  match s.crew? uid with
  | none => finish s
  | some c =>
    if (c.task e).state == .run && recKind (c.task e).record == kind then finish (runMill s c e) else finish s

/-- `mma.f` (R280). -/
def execMmaF (uid e : Nat) (s : State) : Host.Outcome State Fault Refusal := millEvent 1 uid e s

/-- `mma.q` (R281). -/
def execMmaQ (uid e : Nat) (s : State) : Host.Outcome State Fault Refusal := millEvent 2 uid e s

/-- `hadam` (R282). -/
def execHadam (uid e : Nat) (s : State) : Host.Outcome State Fault Refusal := millEvent 3 uid e s

/-- `quant` of a mill (R283). -/
def execTileQuant (uid e : Nat) (s : State) : Host.Outcome State Fault Refusal := millEvent 4 uid e s

/-- `xpose` (R284). -/
def execXpose (uid e : Nat) (s : State) : Host.Outcome State Fault Refusal := millEvent 5 uid e s

/-- `acc` (R285). -/
def execAcc (uid e : Nat) (s : State) : Host.Outcome State Fault Refusal := millEvent 6 uid e s

/-- `fill` (R286). -/
def execFill (uid e : Nat) (s : State) : Host.Outcome State Fault Refusal := millEvent 7 uid e s

/-! `stage` (R276, R287). -/

/-- Source and destination offsets of byte `j`. -/
def stageFrom (r : List Byte) (j : Nat) : Nat := (recDesc r 0).off + j / recParam r 0 * (recDesc r 0).pitch + j % recParam r 0
def stageTo (r : List Byte) (j : Nat) : Nat := (recDesc r 3).off + j / recParam r 0 * (recDesc r 3).pitch + j % recParam r 0

/-- Reads a source byte (R287); in `.g`, LOC holds VA[54:32]. -/
def stageRead (s : State) (c : Crew) (e : Nat) (d : Desc) (o : Nat) : CopyByte :=
  match d.space with
  | 6 => engineRead s c (.engine c.uid 1 e 0) true (o + d.loc * 2 ^ 32) (o + d.loc * 2 ^ 32)
  | 3 =>
    if rangePoison s c d o then .fault s { sub := 6, addr := o }
    else .ok (touch s [(rangeOf s c d.loc).store + o]) (tileByte s c d o)
  | _ => if tileBad s c d o then .fault s { sub := 6, addr := o } else .ok s (tileByte s c d o)

/-- The crew of a faulted `stage` is terminated; the task has ended with it (R215, R276). -/
def stageDies (s : State) (uid e : Nat) : State :=
  terminate (s.mapCrew uid fun c => c.mapTask e fun t => { t with state := .none, status := 3 }) uid none

/-- A fault of a `stage` terminates its crew, once the ring has room for the record (R276, R330). -/
def stageFault (s : State) (c : Crew) (e : Nat) (f : CopyFault) (bytes : Nat) : State :=
  let t := c.task e
  let r := laneRecord c t.gang 0x28 2 (LaneMask.one t.lane) t.pc f.addr ((0x8000 + e) * 2 ^ 16 + f.sub) bytes
  giveRecords s (c.ring s) c.uid none (.die 1 e) [r] fun s => stageDies s c.uid e

/-- A byte of an overlapping range is the old or the copied one; otherwise it is copied (R287). -/
def stageByte (s : State) (c : Crew) (e : Nat) (r : List Byte) (j : Nat) (b : Byte) : CopyByte :=
  let d := recDesc r 3
  if (recDesc r 0).overlaps d then
    let s1 := { s with draws := s.draws + 1 }
    if Config.copiedByte s.draws then writeDest s1 c e d (stageTo r j) b else .ok s1 b
  else writeDest s c e d (stageTo r j) b

/-- Bytes that a `stage` moves. -/
def stageTotal (r : List Byte) : Nat := recParam r 0 * recParam r 1

/-- Moves byte `j` of a `stage`, and counts it (R276, R287). -/
def stageMove (s : State) (c : Crew) (e j : Nat) : CopyByte :=
  let r := (c.task e).record
  let src := recDesc r 0
  let d := recDesc r 3
  if d.off + d.len ≤ stageTo r j then .fault s { sub := 2, addr := stageTo r j }
  else if src.off + src.len ≤ stageFrom r j then
    .fault s { sub := 3, addr := stageFrom r j + if src.space = 6 then src.loc * 2 ^ 32 else 0 }
  else match stageRead s c e src (stageFrom r j) with
    | .ok s1 b =>
      match stageByte s1 c e r j b with
      | .ok s2 b => .ok (s2.mapCrew c.uid fun c => c.mapTask e fun t =>
          { t with moved := j + 1, out := if j + 1 = stageTotal r then some ([], 0#6) else none }) b
      | x => x
    | x => x

/-- A `stage` moves up to `n` bytes, from the first that it has not moved. -/
def stageRun (uid e : Nat) : Nat → State → State
  | 0, s => s
  | n + 1, s =>
    match s.crew? uid with
    | none => s
    | some c =>
      let j := (c.task e).moved
      if engineHeld s c 1 e || decide (stageTotal (c.task e).record ≤ j) then s
      else match stageMove s c e j with
        | .ok s1 _ => stageRun uid e n s1
        | .wait s1 => s1
        | .fault s1 f => stageFault s1 c e f j

/-- A `stage` that has moved every byte completes when its window can be published (R246, R273). -/
def stageEnds (s : State) (uid e : Nat) : State :=
  match s.crew? uid with
  | none => s
  | some c =>
    let t := c.task e
    if t.state != .run || c.terminating || decide (t.moved < stageTotal t.record) || publishWaits s c (recDesc t.record 3) then s
    else completeTask s c e 0#6

/-- A running `stage` moves some of its bytes (R273). -/
def stagePart (s : State) (uid e n : Nat) : State :=
  match s.crew? uid with
  | none => s
  | some c => if (c.task e).state == .run && recKind (c.task e).record == 8 && !c.terminating then stageRun uid e n s else s

/-- The bytes that an abandoned `stage` has not moved: each is written or not, a free choice. -/
def stageSpill (s : State) (c : Crew) (e : Nat) : List (Nat × Byte) :=
  let r := (c.task e).record
  ((List.range (stageTotal r)).drop (c.task e).moved).filterMap fun j =>
    if stageTo r j < (recDesc r 3).off + (recDesc r 3).len then
      match stageRead s c e (recDesc r 0) (stageFrom r j) with
      | .ok _ b => some (stageTo r j, b)
      | _ => none
    else none

/-- `stage` (R287). -/
def execStage (uid e : Nat) (s : State) : Host.Outcome State Fault Refusal :=
  match s.crew? uid with
  | none => finish s
  | some c =>
    let r := (c.task e).record
    if (c.task e).state == .run && recKind r == 8 then
      if c.terminating then finish (abandonTask s c e (stageSpill s c e))
      else finish (stageEnds (stageRun uid e (stageTotal r) s) uid e)
    else finish s

end Sys2Proof.Machine
end

