-- ==== Sys2Proof/Machine/Complete.lean ====
section
/-!
DEFINITION. The performing of memory-class operations that nothing outside the module answers, and the completion of barrier phases
(R174 to R177, R194, R199, R238, R267, R317, R409).
-/

namespace Sys2Proof.Machine

/-- A request that another module or the host answers: it stays until its response event (R386, R405). A fabric access uses ROUTE as it was
when it began (R402). -/
def Op.remote (s : State) (o : Op) : Bool :=
  match o.kind with
  | .load (.host _) _ _ _ | .atom (.host _) _ _ _ _ _ | .cas (.host _) _ _ _ _ _ => true
  | .load (.fab _ _) _ _ _ | .store (.fab _ _) _ _ | .atom (.fab _ _) _ _ _ _ _ | .cas (.fab _ _) _ _ _ _ _ => usable s o.route
  | _ => false

/-- The crew's barrier phase differs from the bit an operation waits past (R177). -/
def pastPhase (s : State) (c : Crew) (o : Op) (level num : Nat) (bit : Bool) : Bool := phaseOf s c o.gang level num != bit

/-- Performs one pending operation, where it may perform (R194, R199). -/
def performAny (s : State) (c : Crew) (o : Op) : State :=
  match o.kind with
  | .load _ _ _ _ | .store _ _ _ | .atom _ _ _ _ _ _ | .cas _ _ _ _ _ _ => if opReady s c o then performOp s c o else s
  | .maint k va len =>
    if afterDone c o then
      match performMaint s c o k va len with
      | some s1 => endOp s1 c.uid o [] []
      | none => s
    else s
  | .fbar => if afterDone c o then endOp (performFbar s c.uid o) c.uid o [] [] else s
  | .barArrive _ _ _ | .barSync _ _ false _ => sendArrival s c.uid o
  | .barSent _ _ pr ph => endOp s c.uid o [] (predOut pr ph)
  | .barSync l n true ph => if pastPhase s c o l n ph then endOp s c.uid o [] [] else s
  | .barWait l n ph => if afterDone c o && pastPhase s c o l n ph then endOp s c.uid o [] [] else s
  | .copy _ _ => s
  | .cpcancel chan => if afterDone c o then endOp (cancelChannel s c.uid chan) c.uid o [] [] else s
  | .taskPost off d none => if mayReceive c o then receivePost s c o off d else s
  | .taskPost _ _ (some _) => s
  | .taskDec tid => if afterDone c o then endOp (s.setCrew (decTask s.now c tid)) c.uid o [] [] else s
  | .emit _ _ _ => pushRecord s c o
  | .pubw w => performPubw s c o w
  | .wait => s

/-! Remote requests that fail (R386, R406), and late traps (R65, R296). -/

/-- The entry of a gang that holds a lane. -/
def entryOf (g : Gang) (l : Nat) : Option Entry := g.frontier.find? fun e => e.mask.getLsbD l

/-- Lanes of one entry that waited at their instruction trap there; the rest of the entry goes on when nothing else holds it. Their
operations have not executed and are not counted (R65). `none` while the trap ring has no room. -/
def lateTraps (s : State) (uid k : Nat) (ops : List Nat) (ts : List Trap) : Option State :=
  match s.crew? uid with
  | none => some s
  | some c =>
    let ls := LaneMask.ofList (ts.map (·.lane))
    let e := entryOf (c.gang k) (lowest ls)
    let mask := match e with
      | some e => e.mask
      | none => ls
    let prio := match e with
      | some e => e.prio
      | none => 0
    let c1 := (ops.foldl (fun c op => c.completeId s.tick op) c).mapGang k fun g =>
      { g with pages := g.pages.filter fun p => !ls.getLsbD p.lane, sys := g.sys.filter fun w => !ls.getLsbD w.lane
               waits := g.waits.filter fun w => !ls.getLsbD w.lane || w.done.isSome }
    let waited := (((c.gang k).waits.filter fun w => ls.getLsbD w.lane).map (·.issue)).eraseDups
    (takeTraps (s.setCrew c1) c1 k prio ts).map fun s1 =>
      goOn (waited.foldl (fun s n => finishWaits s uid k n) s1) uid k mask false

/-- One lane that waits at its instruction traps there; where the trap ring has no room it keeps the trap, and waits (R330). -/
def lateTrap (s : State) (c : Crew) (k op : Nat) (t : Trap) : State :=
  (lateTraps s c.uid k [op] [t]).getD (ringStall (s.mapGang c.uid k fun g => { g with pages := g.pages ++
    [{ lane := t.lane, op := op, miss := { vf := 0, prg := 0, addr := t.addr, det := t.det0 }, acc := 0, user := false
       due := some (t.cause, t.addr, t.det0, t.det1) }] }) (c.ring s) c.uid (some k))

/-- The lane of a remote request that still waits for it goes on to its next slot, once nothing of its entry waits. -/
def remoteDone (s : State) (uid : Nat) (o : Op) : State :=
  match s.crew? uid with
  | none => s
  | some c =>
    if (c.gang o.gang).sys.any fun w => w.kind == .remote o.id then
      goOn (s.setCrew (c.mapGang o.gang fun g => { g with sys := g.sys.filter fun w => w.kind != .remote o.id })) uid o.gang
        (LaneMask.one (lowest o.lanes)) false
    else s

/-- The register result and predicates of a failed access (R386, R406): every word of a load's D is all ones; an atomic's D is unchanged,
and its predicate false. -/
def failedWords : OpKind → List Word
  | .load _ _ z _ => List.replicate (sizeWords z) 0xFFFFFFFF#32
  | _ => []

def failedPreds : OpKind → List (Nat × Bool)
  | .atom _ _ _ _ _ pd => predOut pd false
  | .cas _ _ _ _ _ pd => predOut pd false
  | _ => []

/-- The failed result of a request, whose lane continues at the next slot. -/
def endFailed (s : State) (uid : Nat) (o : Op) : State :=
  remoteDone (endOp s uid o (failedWords o.kind) (failedPreds o.kind)) uid o

/-- A request ends failed, once the ring has room for its record (R330, R386, R406). In a terminated crew it only completes (R215). -/
def failOp (s : State) (c : Crew) (o : Op) (r : Record) : State :=
  if c.terminating then endOp s c.uid o [] []
  else giveRecords s (c.ring s) c.uid none (.failed o.id) [r] fun s => endFailed s c.uid o

/-- The module and VA of a fabric request. -/
def OpKind.fab? (k : OpKind) : Option (Nat × Nat) :=
  match k.addr? with
  | some (.fab m va, _) => some (m, va)
  | _ => none

/-- A fabric access ends failed, with its reason and the link it was lost on (R406). -/
def failFabric (s : State) (c : Crew) (o : Op) (link reason : Nat) (sent : Bool) : State :=
  match o.kind.fab? with
  | some (m, va) => failOp s c o (fabricRecord c o.gang o.lanes o.pc m va link reason (sent && o.kind.writes) 0)
  | none => s

/-- `MEMORY_OP_COMPLETE`: a pending operation performs and completes (R194, R199, R200). A fabric access that no route can carry fails
(R406). -/
def execMemoryOpComplete (uid op : Nat) (s : State) : Host.Outcome State Fault Refusal :=
  match s.crew? uid with
  | none => finish s
  | some c => match c.op? op with
    | none => finish s
    | some o =>
      if !c.isResident || o.remote s || owing s uid 3 op then finish s
      else match o.kind.fab? with
        | some _ => finish (if afterDone c o then failFabric s c o 0xFF 0 false else s)
        | none => finish (performAny s c o)

/-! Barrier phases (R175 to R177). -/

/-- The camps that a launch may use (R377, R379); the PF may use every camp. -/
def allowedCamps (s : State) (l : Launch) : BitVec 64 := if l.vf = 0 then l.camps else l.camps &&& (s.func l.vf).part

def campList (m : BitVec 64) : List Nat := (List.range 64).filter fun k => m.getLsbD k

/-- Crews of stage 0 that have not been dispatched. -/
def Launch.undispatched (l : Launch) : Nat := l.ncrew - l.nextCrew.headD 0

/-- Crews that count at camp, tract and fabric barriers: a terminated one, and a slot held for a successor, count as retired. -/
def barrierCrew (c : Crew) : Bool := !c.terminating && !c.noGang

/-- The member crews of a barrier (R174, R176, R267, R317, R409). -/
def members (s : State) (b : BarId) : List Crew :=
  s.crews.filter fun c => barrierCrew c && (match b with
    | .gang u _ _ | .crew u _ => c.uid == u
    | .camp l camp _ => c.launch == l && c.camp == camp
    | .tract l tract _ => c.launch == l && c.tract == tract
    | .fabric ctx group n =>
      let la := s.launchOf c
      la.ctx == ctx && la.fgroup == group && la.fbar.getLsbD n && inGroup (barGroup s b) la.myid)

/-- A crew of the launch that has not been dispatched holds the barrier open (R176). -/
def heldOpen (s : State) (b : BarId) : Bool :=
  match b with
  | .gang _ _ _ | .crew _ _ => false
  | .camp l camp _ => match s.launch? l with
    | some la => decide (0 < la.undispatched) && (campList (allowedCamps s la)).all (· == camp)
    | none => false
  | .tract l tract _ => match s.launch? l with
    | some la => decide (0 < la.undispatched) && (campList (allowedCamps s la)).all fun k => k / 8 == tract
    | none => false
  | .fabric ctx group n =>
    let ls := s.launches.filter fun la =>
      la.ctx == ctx && la.fgroup == group && la.fbar.getLsbD n && inGroup (barGroup s b) la.myid
    ls.isEmpty || ls.any fun la => !la.done && decide (0 < la.undispatched)

/-- Level and number of a barrier. -/
def barLevel : BarId → Nat
  | .gang _ _ _ => 0
  | .crew _ _ => 1
  | .camp _ _ _ => 2
  | .tract _ _ _ => 3
  | .fabric _ _ _ => 5

def barNum : BarId → Nat
  | .gang _ _ n | .crew _ n | .camp _ _ n | .tract _ _ n | .fabric _ _ n => n

/-- The launch declares the barrier (R176, R178). -/
def declared (s : State) (b : BarId) : Bool :=
  match b with
  | .camp l _ n => match s.launch? l with
    | some la => la.cbar.getLsbD n
    | none => false
  | .tract l _ n => match s.launch? l with
    | some la => la.tbar.getLsbD n
    | none => false
  | _ => true

/-- A barrier's phase completes now (R176, R409); a saved crew's own barriers are in its save area (R238). For a fabric barrier this module's crews have arrived and none of its arrivals is held;
the event stands for the other modules; crews of launches that have completed count as retired. -/
def phaseReady (s : State) (b : BarId) : Bool :=
  let ms := members s b
  match b with
  | .gang _ k n => ms.any fun c => c.isResident && ((sget 0#16 c.garr n).getLsbD k || (c.gang k).allSent n)
  | .crew _ n => ms.any fun c => c.isResident && c.arrivedAt (64 + n)
  | _ =>
    declared s b && (barLevel b == 5 || !ms.isEmpty) && !heldOpen s b && !(s.heldArr.any fun h => h.1 == b) &&
      ms.all fun c => (s.endpoint b).crews.contains c.uid ||
        (c.arrivedAt (64 * barLevel b + barNum b) && (barLevel b != 5 || groupReachable s b))

/-- Flips the phase bit and takes the arrivals away (R176). -/
def flipPhase (s : State) (b : BarId) : State :=
  match b with
  | .gang u k n =>
    (s.mapGang u k fun g => { g with barPhase := g.barPhase ^^^ (1#4 <<< n), arrived := sput 0#32 g.arrived n 0#32 }).mapCrew u fun c =>
      { c with garr := sput 0#16 c.garr n (sget 0#16 c.garr n &&& ~~~(1#16 <<< k)) }
  | .crew u n => s.mapCrew u fun c =>
      { c with barPhase := c.barPhase ^^^ (1#16 <<< n), garr := sput 0#16 c.garr (64 + n) 0#16
               gangs := c.gangs.map fun g => { g with arrived := sput 0#32 g.arrived (64 + n) 0#32 } }
  | b =>
    let e := s.endpoint b
    let key := 64 * barLevel b + barNum b
    let s1 := s.setEndpoint { e with phase := !e.phase, crews := [], fgrp := none }
    (members s b).foldl (fun s c => s.mapCrew c.uid fun c =>
      { c with garr := sput 0#16 c.garr key 0#16, gangs := c.gangs.map fun g => { g with arrived := sput 0#32 g.arrived key 0#32 } }) s1

/-- A barrier operation of a gang that a flip of the barrier completes: a `bar.sync` that has arrived, or a `bar.wait` whose masked
operations are performed and that waits past the bit the barrier showed (R177). -/
def endsAtFlip (c : Crew) (level num : Nat) (gang : Option Nat) (old : Bool) (o : Op) : Bool :=
  (match gang with
    | some k => o.gang == k
    | none => true) &&
  (match o.kind with
    | .barSync l n true _ => l == level && n == num
    | .barWait l n ph => l == level && n == num && ph == old && afterDone c o
    | _ => false)

/-- Completes the operations that a flip ends. -/
def endWaiters (s : State) (uid level num : Nat) (gang : Option Nat) (old : Bool) : State :=
  match s.crew? uid with
  | none => s
  | some c =>
    if c.isResident then (c.ops.filter (endsAtFlip c level num gang old)).foldl (fun s o => endOp s uid o [] []) s else s

/-- A phase completes: the bit flips, waiting operations complete, and arrivals held for the next phase are sent (R175 to R177). -/
def execBarrierPhaseComplete (b : BarId) (s : State) : Host.Outcome State Fault Refusal :=
  if !phaseReady s b then finish s
  else
    let ms := members s b
    let gang := match b with
      | .gang _ k _ => some k
      | _ => none
    let old := match ms with
      | c :: _ => phaseOf s c (gang.getD 0) (barLevel b) (barNum b)
      | [] => false
    let s1 := flipPhase s b
    let s2 := ms.foldl (fun s c => endWaiters s c.uid (barLevel b) (barNum b) gang old) s1
    let s3 := ms.foldl (fun s c => s.mapCrew c.uid fun c =>
      { c with ops := c.ops.map fun o => o.passed gang (barLevel b) (barNum b) (!old) }) s2
    finish (ms.foldl (fun s c => sendHeld s c.uid (barLevel b) (barNum b)) s3)

end Sys2Proof.Machine
end

