-- ==== Sys2Proof/Machine/Convert.lean ====
section
/-!
DEFINITION. Conversions, bit planes and byte permutation, 0x100 to 0x107 (R129 to R139), and the gang operations, 0x180 to 0x184
(R168 to R173): one meaning each.
-/

namespace Sys2Proof.Machine

/-- A value and its flags as a result of one register. -/
def outVal (r : Nat × Flags6) : LaneOut := LaneOut.val 1 r.1 r.2

/-- `cvt` (R131). -/
def execCvt (h : Hdr) (dst src : CvtTy) (elem : Fin 8) (sat dflt : Bool) (r : Rnd) (d a : Opnd) (s : State) : Host.Outcome State Fault Refusal :=
  let n := if CvtTy.wide dst then 2 else 1
  let m := if CvtTy.wide src then 2 else 1
  issueLanes s h d [(d, n), (a, m)] [] fun lvl1 _ rd =>
    let v := cvtValue dst src elem.val sat dflt lvl1 r (rd a m)
    LaneOut.val n v.1 v.2

/-- `pack` (R133). -/
def execPack (h : Hdr) (t : PackTy) (r : Rnd) (d a b : Opnd) (s : State) : Host.Outcome State Fault Refusal :=
  issueLanes s h d [(d, 1), (a, 1), (b, 1)] [] fun lvl1 _ rd => outVal (packValue t lvl1 r (rd a 1) (rd b 1))

/-- `unpack` (R134). -/
def execUnpack (h : Hdr) (t : PackTy) (part : Fin 4) (d a : Opnd) (s : State) : Host.Outcome State Fault Refusal :=
  issueLanes s h d [(d, 1), (a, 1)] [] fun lvl1 _ rd => outVal (unpackValue t lvl1 part.val (rd a 1))

/-- `plsplit` (R138). -/
def execPlsplit (h : Hdr) (n : Fin 8) (p : Fin 8) (d a : Opnd) (s : State) : Host.Outcome State Fault Refusal :=
  issueLanes s h d [(d, 1), (a, 8)] [] fun _ _ rd =>
    outVal (plsplitValue (n.val + 1) p.val ((List.range 8).map fun i => rd (Opnd.plus a i) 1))

/-- `plmerge` (R139). -/
def execPlmerge (h : Hdr) (n : Fin 8) (k : Fin 8) (d a : Opnd) (s : State) : Host.Outcome State Fault Refusal :=
  issueLanes s h d [(d, 8), (a, k.val + 1)] [] fun _ _ rd =>
    { words := (plmergeValue (n.val + 1) (k.val + 1) ((List.range (k.val + 1)).map fun i => rd (Opnd.plus a i) 1)).map (BitVec.ofNat 32)
      preds := [], flags := 0#6 }

/-- `quant` (R136). -/
def execQuant (h : Hdr) (nat : Bool) (r : Rnd) (n : Fin 8) (elem : Fin 4) (d a b c : Opnd) (s : State) : Host.Outcome State Fault Refusal :=
  issueLanes s h d [(d, 1), (a, 1), (b, 1), (c, 1)] [] fun _ _ rd =>
    outVal (quantValue nat r (n.val + 1) elem.val (rd a 1) (rd b 1) (rd c 1))

/-- `dequant` (R137). -/
def execDequant (h : Hdr) (nat : Bool) (r : Rnd) (elem : Fin 4) (d a b : Opnd) (s : State) : Host.Outcome State Fault Refusal :=
  issueLanes s h d [(d, 1), (a, 1), (b, 1)] [] fun lvl1 _ rd => outVal (dequantValue nat lvl1 r elem.val (rd a 1) (rd b 1))

/-- `prmt` (R135). -/
def execPrmt (h : Hdr) (d a b : Opnd) (ctl : PrmtCtl) (s : State) : Host.Outcome State Fault Refusal :=
  let use := match ctl with
    | .reg o => [(o, 1)]
    | .const _ => []
  issueLanes s h d ([(d, 1), (a, 1), (b, 1)] ++ use) [] fun _ _ rd =>
    let k := match ctl with
      | .reg o => rd o 1
      | .const c => c.toNat
    outVal (prmtValue (rd a 1) (rd b 1) k, 0#6)

/-- Every participant's result of a gang operation, from the list of participants (R168). -/
def gangOp (s : State) (h : Hdr) (d : Opnd) (uses : List (Opnd × Nat)) (preds : List PredOpt)
    (f : Bool → List Nat → (Nat → Lane) → (Nat → Reader) → Nat → LaneOut) : Host.Outcome State Fault Refusal :=
  issueWith s h d uses preds fun c g draw m =>
    m.lanes.map fun l => (l, f c.lvl m.lanes g.lane (readWide g draw) l)

/-- The source lane of `shfl` and whether it lies in the group (R170); `w` lanes form a group. -/
def shflSource (m : ShflMode) (w : Nat) (l : Nat) (k : Int) : Nat × Bool :=
  let j := l % w
  let base := l - j
  match m with
  | .pick => (base + (k % (w : Int)).toNat, true)
  | .rot => (base + (((j : Int) + k) % (w : Int)).toNat, true)
  | .slide => (((l : Int) + k).toNat, decide (0 ≤ (j : Int) + k) && decide ((j : Int) + k < w))
  | .swz => (l ^^^ (k % (w : Int)).toNat, true)

/-- The number of true values. -/
def countTrue (bs : List Bool) : Nat := (bs.filter id).length

/-- The predicate result of `vote` (R171). -/
def voteResult (m : VoteMode) (bs : List Bool) : Bool :=
  match m with
  | .every => bs.all id
  | .some => bs.any id
  | .same => bs.all id || !bs.any id
  | .odd => countTrue bs % 2 == 1

/-- A NaN result of a floating-point combination is the generated NaN at level 1 (R38, R48, R172). -/
def redResult (op : RedOp) (lvl1 : Bool) (x : Nat) : Nat :=
  match op with
  | .fadd | .fmin | .fmax => if lvl1 && (Fmt.f32.decode x).isNan then Fmt.f32.genNan else x
  | _ => x

/-- The left-to-right combination of values with the flags of every step (R172). -/
def combineAll (op : RedOp) (lvl1 : Bool) : List Nat → Nat × Flags6
  | [] => (redIdentity op, 0#6)
  | x :: xs =>
    let r := xs.foldl (fun a y => let r := redCombine op lvl1 a.1 y; (r.1, a.2 ||| r.2)) (x, 0#6)
    (redResult op lvl1 r.1, r.2)

/-- `shfl` (R170). Where LATE is set, a participant that receives nothing gives the latch the old value of d: the model's choice (log 108). -/
def execShfl (h : Hdr) (m : ShflMode) (d a : Opnd) (k : ShflK) (grp : Fin 6) (pd : PredOpt) (s : State) : Host.Outcome State Fault Refusal :=
  let use := match k with
    | .reg o => [(o, 1)]
    | .const _ => []
  gangOp s h d ([(d, 1), (a, 1)] ++ use) [pd] fun _ ls _ rd l =>
    let kv : Int := match k with
      | .reg o => signExt (rd l o 1) 32
      | .const c => c.toInt
    let r := shflSource m (2 ^ grp.val) l kv
    let ok := r.2 && ls.contains r.1
    { words := if ok then wordsOf 1 (rd r.1 a 1) else wordsOf 1 (rd l d 1), preds := predOut pd ok, flags := 0#6 }

/-- `vote` (R171). -/
def execVote (h : Hdr) (m : VoteMode) (d : Opnd) (ps : PredOpt) (psn : Bool) (pd : PredOpt) (s : State) : Host.Outcome State Fault Refusal :=
  gangOp s h d [(d, 1)] [ps, pd] fun _ ls lane _ _ =>
    let val := fun l => (match ps with
      | some p => (lane l).pred p.val
      | none => true) != psn
    { words := [LaneMask.ofList (ls.filter val)], preds := predOut pd (voteResult m (ls.map val)), flags := 0#6 }

/-- `redux` (R172). -/
def execRedux (h : Hdr) (op : RedOp) (d a : Opnd) (s : State) : Host.Outcome State Fault Refusal :=
  gangOp s h d [(d, 1), (a, 1)] [] fun lvl1 ls _ rd _ => outVal (combineAll op lvl1 (ls.map fun l => rd l a 1))

/-- `scan` (R172). The flags of the exclusive form are those of the whole inclusive chain: the model's choice (log 107). -/
def execScan (h : Hdr) (op : RedOp) (excl : Bool) (d a : Opnd) (s : State) : Host.Outcome State Fault Refusal :=
  gangOp s h d [(d, 1), (a, 1)] [] fun lvl1 ls _ rd l =>
    let upTo := ls.filter fun j => if excl then decide (j < l) else decide (j ≤ l)
    let all := combineAll op lvl1 (ls.map fun j => rd j a 1)
    LaneOut.val 1 (combineAll op lvl1 (upTo.map fun j => rd j a 1)).1 all.2

/-- `match` (R173). -/
def execMatchq (h : Hdr) (wide : Bool) (d a : Opnd) (pd : PredOpt) (s : State) : Host.Outcome State Fault Refusal :=
  let n := if wide then 2 else 1
  gangOp s h d [(d, 1), (a, n)] [pd] fun _ ls _ rd l =>
    { words := [LaneMask.ofList (ls.filter fun j => rd j a n == rd l a n)]
      preds := predOut pd (ls.all fun j => rd j a n == rd l a n), flags := 0#6 }

end Sys2Proof.Machine
end

