-- ==== Sys2Proof/Machine/Remote.lean ====
section
/-!
DEFINITION. Host and fabric accesses: `ld.h`, `st.h`, `atom.h`, `ld.f`, `st.f`, `atom.f`, the ends that the host and other modules give
them, and the Chiod links (R385, R386, R401 to R406, R408, R410).
-/

namespace Sys2Proof.Machine

/-! Host accesses (R385, R386). -/

/-- The MOD field of a memory instruction (R61). -/
def modField (m : MemArg) (low : Nat) : Nat :=
  match m.off with
  | .imm _ => 32 + low
  | .reg _ => low

/-- `ld.h` (R385). -/
def execLdH (h : Hdr) (z : Size) (d : Opnd) (m : MemArg) (s : State) : Host.Outcome State Fault Refusal :=
  issueMemory s h ((d, sizeWords z) :: memUses m true) [] d m.clause (scopeCode m.scope) (modField m 0) fun i s l =>
    (s, .remote (.load (.host (address64 i.g s.draws l m (sizeBytes z) true)) .norm z d))

/-- `st.h` (R385): a posted request. -/
def execStH (h : Hdr) (z : Size) (b : Opnd) (m : MemArg) (s : State) : Host.Outcome State Fault Refusal :=
  issueMemory s h ((b, sizeWords z) :: memUses m true) [] .vz m.clause (scopeCode m.scope) (modField m 0) fun i s l =>
    (s, .op (.store (.host (address64 i.g s.draws l m (sizeBytes z) true)) z (readWide i.g s.draws l b (sizeWords z))))

/-- `atom.h` (R385). -/
def execAtomH (h : Hdr) (op : HostOp) (d b : Opnd) (pd : PredOpt) (m : MemArg) (s : State) : Host.Outcome State Fault Refusal :=
  let n := match op with
    | .add w | .exch w => widthWords w
    | .cas z => sizeWords z
  let nb := match op with
    | .cas _ => 2 * n
    | _ => n
  let code := match op with
    | .add _ => 0
    | .exch _ => 1
    | .cas _ => 2
  issueMemory s h ([(d, n), (b, nb)] ++ memUses m true) [pd] d m.clause (scopeCode m.scope) (modField m code) fun i s l =>
    let a := Addr.host (address64 i.g s.draws l m (4 * n) true)
    let v := readWide i.g s.draws l b n
    (s, .remote (match op with
      | .add w => .atom a .add w v d pd
      | .exch w => .atom a .exch w v d pd
      | .cas _ => .cas a (4 * n) v (readWide i.g s.draws l (Opnd.plus b n) n) d pd))

/-- The host bus address of a request. -/
def OpKind.host? (k : OpKind) : Option (Nat × Nat) :=
  match k.addr? with
  | some (.host a, n) => some (a, n)
  | _ => none

/-- A notice of causes 0x50 and 0x51 (R386). -/
def hostRecord (c : Crew) (o : Op) (cause addr det0 : Nat) : Record := laneRecord c o.gang cause 0 o.lanes o.pc addr det0 o.mod

/-- A host atomic that succeeds gives its predicate true (R386). -/
def hostPreds : OpKind → List (Nat × Bool)
  | .atom _ _ _ _ _ pd | .cas _ _ _ _ _ pd => predOut pd true
  | _ => []

/-- A host request succeeds: its effect at the completer, its result, and its lane goes on. -/
def hostOk (s : State) (c : Crew) (o : Op) (addr n : Nat) : State :=
  let r := effect s none (addrLocs s c (.host addr) n) o.kind
  remoteDone (endOp r.st c.uid o r.words (hostPreds o.kind)) c.uid o

/-- A host request fails: a store is dropped and leaves no record; a load or an atomic leaves one (R386). -/
def hostFail (s : State) (c : Crew) (o : Op) (addr : Nat) (atomCause det0 : Nat) : State :=
  match o.kind with
  | .store _ _ _ => endOp s c.uid o [] []
  | .load _ _ _ _ => failOp s c o (hostRecord c o 0x51 addr det0)
  | _ => failOp s c o (hostRecord c o atomCause addr det0)

/-- Poisoned data reach a host load or atomic: its lane traps with cause 0x60 (R97, R386). -/
def hostPoison (s : State) (c : Crew) (o : Op) (addr : Nat) : State :=
  lateTrap s c o.gang o.id { lane := lowest o.lanes, cause := 0x60, pc := o.pc, tpc := o.pc, addr := addr, det0 := 0, det1 := 0 }

/-- A request that has ended but for its record, or its lane's trap, which wait for room (R330). -/
def ended (s : State) (c : Crew) (o : Op) : Bool := owing s c.uid 3 o.id || (c.gang o.gang).pages.any fun p => p.op == o.id

/-- A host request that has been sent ends (R386). In a terminated crew it only completes (R215). -/
def hostEnd (uid op : Nat) (s : State) (f : Crew → Op → Nat → Nat → State) : Host.Outcome State Fault Refusal :=
  match s.crew? uid with
  | none => finish s
  | some c => match c.op? op with
    | none => finish s
    | some o => match o.kind.host? with
      | none => finish s
      | some (addr, n) =>
        if !c.isResident || !opReady s c o || ended s c o then finish s
        else if c.terminating && !o.kind.writes then finish (endOp s uid o [] [])
        else finish (f c o addr n)

/-- `HOST_COMPLETION` (R386). -/
def execHostCompletion (uid op : Nat) (how : HostEnd) (s : State) : Host.Outcome State Fault Refusal :=
  hostEnd uid op s fun c o addr n =>
    match how with
    | .ok => hostOk s c o addr n
    | .ur => hostFail s c o addr 0x50 1
    | .ca => hostFail s c o addr 0x50 2
    | .atsRefused => hostFail s c o addr 0x51 3
    | .poisoned => match o.kind with
      | .store _ _ _ => endOp s uid o [] []
      | _ => hostPoison s c o addr

/-- `HOST_COMPLETION_TIMEOUT` (R386). -/
def execHostCompletionTimeout (uid op : Nat) (s : State) : Host.Outcome State Fault Refusal :=
  hostEnd uid op s fun c o addr _ => hostFail s c o addr 0x51 0

/-! Fabric accesses (R403 to R406). -/

/-- The module and the 56-bit VA of a `.f` access (R403). -/
def fabAddress (g : Gang) (draw l : Nat) (m : MemArg) (z : Nat) (aligned : Bool) : Nat × Nat :=
  let base := readWide g draw l m.base 2
  let va := wrap ((base % 2 ^ 56 : Nat) + memOff g draw l m z) 56
  (base / 2 ^ 56, if aligned then va / z * z else va)

/-- Concat(module, va) (R403). -/
def fabWord (x : Nat × Nat) : Nat := x.1 * 2 ^ 56 + x.2

/-- The lane part of a `.f` instruction. A module's access to itself takes the MMU of its own context, outside every world, and never a page
request; another module's answer is awaited (R402, R403). -/
def fabLane (i : Issue) (acc n : Nat) (at_ : Nat → Nat × Nat) (k : Nat → Addr → OpKind) (s : State) (l : Nat) : State × MemLane :=
  let x := at_ l
  if x.2 ≥ 2 ^ 55 then (s, .trap 0x20 (fabWord x) (tdetOf acc 0 0 0 1 0) 0)
  else if x.1 = s.fabid.toNat then
    let w : Who := { i.c.who s (i.g.lane l).mode with world := none, pri := false }
    match globResolve s i.c w (.lane i.c.uid i.k l) false acc x.2 n with
    | (s1, .addr a) => (s1, .op (k l (a.inSpace 7)))
    | (s1, .trap cause ad d0 d1) => (s1, .trap cause (fabWord (x.1, ad)) d0 d1)
    | (s1, .page _) => (s1, .trap 0x21 (fabWord x) (tdetOf acc 0 1 0 0 0) 0)
  else (s, .remote (k l (.fab x.1 x.2)))

/-- `ld.f` (R404, R405). -/
def execLdF (h : Hdr) (z : Size) (d : Opnd) (m : MemArg) (s : State) : Host.Outcome State Fault Refusal :=
  issueMemory s h ((d, sizeWords z) :: memUses m true) [] d m.clause (scopeCode m.scope) (modField m 0) fun i =>
    fabLane i 0 (sizeBytes z) (fun l => fabAddress i.g s.draws l m (sizeBytes z) false) fun _ a => .load a .l2 z d

/-- `st.f` (R404, R405). -/
def execStF (h : Hdr) (z : Size) (b : Opnd) (m : MemArg) (s : State) : Host.Outcome State Fault Refusal :=
  issueMemory s h ((b, sizeWords z) :: memUses m true) [] .vz m.clause (scopeCode m.scope) (modField m 0) fun i =>
    fabLane i 1 (sizeBytes z) (fun l => fabAddress i.g s.draws l m (sizeBytes z) false)
      fun l a => .store a z (readWide i.g s.draws l b (sizeWords z))

/-- `atom.f` (R404, R405). -/
def execAtomF (h : Hdr) (op : FabOp) (w : AWidth) (d b : Opnd) (pd : PredOpt) (m : MemArg) (s : State) : Host.Outcome State Fault Refusal :=
  let n := widthWords w
  let nb := match op with
    | .rmw _ => n
    | .cas => 2 * n
  issueMemory s h ([(d, n), (b, nb)] ++ memUses m true) [pd] d m.clause (scopeCode m.scope) (modField m 0) fun i =>
    fabLane i 2 (4 * n) (fun l => fabAddress i.g s.draws l m (4 * n) true) fun l a =>
      match op with
      | .rmw o => .atom a o w (readWide i.g s.draws l b n) d pd
      | .cas => .cas a (4 * n) (readWide i.g s.draws l b n) (readWide i.g s.draws l (Opnd.plus b n) n) d pd

/-- The registers and predicates that another module's answer gives (R405). -/
def fabWords (data : Nat) : OpKind → List Word
  | .load _ _ z _ => extendLoad z data
  | .atom _ _ w _ _ _ => wordsOf (widthWords w) data
  | .cas _ n _ _ _ _ => wordsOf (n / 4) data
  | _ => []

def fabPreds (data : Nat) : OpKind → List (Nat × Bool)
  | .atom _ _ _ _ _ pd => predOut pd true
  | .cas _ n cmp _ _ pd => predOut pd (data % 2 ^ (8 * n) == cmp)
  | _ => []

/-- A fabric request of a resident crew that has not ended; one that no link of its ROUTE can carry fails with no route once it is due (R401,
R406). -/
def fabEnd (uid op : Nat) (s : State) (f : Crew → Op → Nat → Nat → State) : Host.Outcome State Fault Refusal :=
  match s.crew? uid with
  | none => finish s
  | some c => match c.op? op with
    | none => finish s
    | some o => match o.kind.fab? with
      | none => finish s
      | some (m, va) =>
        if !c.isResident || ended s c o then finish s
        else if usable s o.route then finish (f c o m va)
        else finish (if opReady s c o then failFabric s c o 0xFF 0 false else s)

/-- Another module's translation of an access fails: the lane, which still waits at the instruction, traps there (R403, R405). In a
terminated crew the access only completes (R215). -/
def fabFault (s : State) (c : Crew) (o : Op) (addr cause d0 : Nat) : State :=
  if c.terminating then endOp s c.uid o [] []
  else if (c.gang o.gang).sys.any (fun w => w.kind == .remote o.id) && (cause == 0x20 || cause == 0x21 || cause == 0x22) then
    lateTrap s c o.gang o.id { lane := lowest o.lanes, cause := cause, pc := o.pc, tpc := o.pc, addr := addr, det0 := d0, det1 := 0 }
  else s

/-- The copy in flight that has a slice with an operation, with its channel and the slice. -/
def sliceCopy (c : Crew) (op : Nat) : Option (Nat × Copy × Slice) :=
  (List.range 8).findSome? fun chan => (c.channel chan).copies.findSome? fun x =>
    if x.begun && !x.cancelled then
      (x.slices.find? fun y => y.op == op && y.fab && !y.homed && decide (y.done < y.len)).map fun y => (chan, x, y)
    else none

/-- `FABRIC_RESPONSE` (R403, R405). Of a slice of a fabric copy only a translation fault of its next byte is told: what the module's bytes
hold is free, byte by byte (R408). -/
def execFabricResponse (uid op : Nat) (how : FabEnd) (s : State) : Host.Outcome State Fault Refusal :=
  match (s.crew? uid).bind fun c => (sliceCopy c op).map fun x => (c, x) with
  | some (c, chan, _, y) =>
    match how with
    | .ok _ => finish s
    | .fault _ _ =>
      finish (if c.isResident && !c.terminating && !owing s uid 0 chan && usable s y.route then
          raiseCopyFault s c chan y { sub := 4, addr := y.farWord y.done }
        else s)
  | none => fabEnd uid op s fun c o m va =>
    match how with
    | .ok data =>
      if opReady s c o then remoteDone (endOp s uid o (fabWords data o.kind) (fabPreds data o.kind)) uid o else s
    | .fault cause d0 => fabFault s c o (fabWord (m, va)) cause d0

/-- `FABRIC_TIMEOUT`: a request has had no response within 10 ms (R406, R408). -/
def execFabricTimeout (uid op : Nat) (s : State) : Host.Outcome State Fault Refusal :=
  match (s.crew? uid).bind fun c => (sliceCopy c op).map fun x => (c, x) with
  | some (c, chan, x, y) =>
    finish (if c.isResident && !c.terminating && !owing s uid 0 chan then
        if usable s y.route then failCopy s c chan x 0xFF 2 else failCopy s c chan x 0xFF 0
      else s)
  | none => fabEnd uid op s fun c o _ _ => if opReady s c o then failFabric s c o 0xFF 2 true else s

/-! Links (R401, R402, R410). -/

def mapLink (s : State) (k : Nat) (f : Link → Link) : State := { s with links := modifyNth s.links k f }

/-- A flit fails its check, or is dropped, and is sent again (R391, R401). -/
def execFlitCheckFail (link : Nat) (s : State) : Host.Outcome State Fault Refusal :=
  finish (if linkUp s link then mapLink s link fun l => { l with retries := l.retries + 1#32 } else s)

/-- A request with a ROUTE value was on the link that has gone down: surely where no other link of its route is up, else by a free choice
(R401). -/
def wasOn (s : State) (r : BitVec 64) (link : Nat) : State × Bool :=
  if !(r.getLsbD 63 && r.getLsbD link) then (s, false)
  else if usable s r then ({ s with draws := s.draws + 1 }, Config.onLink s.draws) else (s, true)

/-- The stores and atomics sent on a link that has gone down end failed, with outcome unknown; loads are sent again (R401, R406). -/
def dropRequests (uid link : Nat) : List Op → State → State
  | [], s => s
  | o :: os, s =>
    match s.crew? uid, o.kind.fab? with
    | some c, some _ =>
      if o.kind.writes && opReady s c o && !ended s c o then
        match wasOn s o.route link with
        | (s1, true) => dropRequests uid link os (failFabric s1 c o link 1 true)
        | (s1, false) => dropRequests uid link os s1
      else dropRequests uid link os s
    | _, _ => dropRequests uid link os s

/-- Some of a copy's unfinished puts was on the link that has gone down (R401). -/
def putsOn (link : Nat) : List Slice → State → State × Bool
  | [], s => (s, false)
  | y :: ys, s =>
    if y.put && !y.homed && decide (y.done < y.len) then
      match wasOn s y.route link with
      | (s1, true) => (s1, true)
      | (s1, false) => putsOn link ys s1
    else putsOn link ys s

/-- The puts of a crew in flight on a link that has gone down stop (R401, R408). -/
def dropPuts (uid link : Nat) : List (Nat × Copy) → State → State
  | [], s => s
  | (chan, x) :: xs, s =>
    match s.crew? uid, putsOn link x.slices s with
    | some c, (s1, true) => dropPuts uid link xs (if owing s uid 0 chan then s else failCopy s1 c chan x link 1)
    | _, (s1, _) => dropPuts uid link xs s1

/-- Copies in flight of a crew. -/
def flying (c : Crew) : List (Nat × Copy) :=
  (List.range 8).flatMap fun chan => ((c.channel chan).copies.filter fun x => x.begun && !x.cancelled).map fun x => (chan, x)

/-- A link goes down after 8 failed sends of one flit (R401, R402). -/
def execLinkDown (link : Nat) (s : State) : Host.Outcome State Fault Refusal :=
  if !linkUp s link then finish s
  else
    let s1 := mapLink s link fun l => { l with state := 0, failed := true }
    let live := s1.crews.filter fun c => c.isResident && !c.terminating
    finish (live.foldl (fun s c => dropPuts c.uid link (flying c) (dropRequests c.uid link c.ops s)) s1)

/-- Fabric arrivals that a route can carry again are sent (R410). -/
def resendHeld (s : State) : State :=
  let go := s.heldArr.filter fun h => match h.1 with
    | .fabric c g n => groupReachable s (.fabric c g n)
    | _ => true
  go.foldl (fun s h =>
    let e := s.endpoint h.1
    s.setEndpoint { e with crews := e.crews ++ [h.2] }) { s with heldArr := s.heldArr.filter fun h => !go.contains h }

/-- A link completes training and comes up (R402, R410). -/
def execLinkTrained (link : Nat) (s : State) : Host.Outcome State Fault Refusal :=
  match s.links[link]? with
  | some l => finish (if l.state = 1 then resendHeld (mapLink s link fun l => { l with state := 2 }) else s)
  | none => finish s

/-- A write of LINKCTL: bit 0 starts training a down link (R402). -/
def execLinkctl (link value : Nat) (s : State) : Host.Outcome State Fault Refusal :=
  match s.links[link]? with
  | some l => finish (if bit value 0 && l.state == 0 then mapLink s link fun l => { l with state := 1 } else s)
  | none => finish s

/-- A write of LINKST: bit 2 clears FAILED (R402). -/
def execLinkstFailedClear (link value : Nat) (s : State) : Host.Outcome State Fault Refusal :=
  finish (if bit value 2 then mapLink s link fun l => { l with failed := false } else s)

end Sys2Proof.Machine
end

