-- ==== Sys2Proof/Machine/System.lean ====
section
/-!
DEFINITION. The tract's system instructions that act on translations, L2 partitions, format ranges, key slots and queues (R314 to R316,
R376, R382, R387, R389), and the tearing down of a world (R390).
-/

namespace Sys2Proof.Machine

/-! Issue (R314). -/

/-- What one lane's system instruction does: the state, its status, and what it still waits for. -/
structure SysOut where
  state : State
  status : Option Nat
  wait : SysKind

/-- The executing lanes of a system instruction act in lane order. -/
def sysLanes (f : State → Nat → SysOut) : State → List Nat → State × List (Nat × LaneOut) × List SysWait
  | s, [] => (s, [], [])
  | s, l :: ls =>
    let o := f s l
    let r := sysLanes f o.state ls
    let out : LaneOut := { words := match o.status with
                             | some v => [word32 v]
                             | none => []
                           preds := [], flags := 0#6 }
    (r.1, (l, out) :: r.2.1, { lane := l, kind := o.wait } :: r.2.2)

/-- Issues a system instruction: its lanes act, write their status, and their entry stays until each has completed (R314). A crew that
its own instruction terminates goes no further. -/
def issueSys (s : State) (h : Hdr) (d : Opnd) (uses : List (Opnd × Nat)) (f : Issue → State → Nat → SysOut) :
    Host.Outcome State Fault Refusal :=
  issueSwitch s h ((d, 1) :: uses) [] fun i m =>
    let r := sysLanes (f i) s m.lanes
    match r.1.crew? i.c.uid with
    | none => { r.1 with draws := r.1.draws + 1 }
    | some c =>
      if c.terminating then { r.1 with draws := r.1.draws + 1 }
      else
        let g := writeOuts (c.gang i.k) h (lowest m) d r.2.1
        finishSwitch s r.1 i (c.setGang i.k { g with sys := g.sys ++ r.2.2 })
          [if m = 0#32 then nextGroup s i i.e.mask else stayGroup i i.e.mask] []

/-! Memory that a system instruction reads or writes on behalf of its lane, at its issue. -/

/-- The bytes at a `.g` VA of a lane: where they lie; none where some page does not translate. No page request is sent. -/
def laneLeaves (s : State) (c : Crew) (w : Who) (acc va n : Nat) : Option (State × List Leaf) :=
  match globResolve s c { w with pri := false } (.grader 0) false acc va n with
  | (s1, .addr (.glob _ _ bs)) => if (globNow s1 bs).any (leafBroken s1 w) then none else some (s1, globNow s1 bs)
  | _ => none

/-- Reads `n` bytes at a `.g` VA. -/
def laneRead (s : State) (c : Crew) (w : Who) (va n : Nat) : Option (List Byte) :=
  (laneLeaves s c w 0 va n).map fun r => readLeaves r.1 w r.2

/-- Writes bytes at a `.g` VA, with their pages logged. -/
def laneWrite (s : State) (c : Crew) (w : Who) (va : Nat) (bs : List Byte) : Option State :=
  (laneLeaves s c w 1 va bs.length).map fun r =>
    let s1 := ((r.2.map fun l => l.gpa / 65536).eraseDups).foldl (fun s p => logDirty s w.vf (p * 65536)) r.1
    (linesOf (r.2.map (·.pa))).foldl (fun s l => l1Drop s l) (writeLeaves s1 w r.2 bs)

/-! `tlbinv` (R315). -/

/-- Which translations a `tlbinv` removes. -/
inductive TlbSel where
  | va (vf ctx a len : Nat)
  | ctx (vf ctx : Nat)
  | gpa (vf a len : Nat)
  | vf (vf : Nat)
  deriving DecidableEq, Repr

/-- The 64 KiB page meets [a, a + len). -/
def pageMeets (page a len : Nat) : Bool := decide (0 < len) && decide (page * 65536 < a + len) && decide (a < (page + 1) * 65536)

/-- A translation of a context, from a VA page to a GPA page, is selected. -/
def TlbSel.takes (x : TlbSel) (vf ctx vpage gpage : Nat) : Bool :=
  match x with
  | .va v c a len => v == vf && c == ctx && pageMeets vpage a len
  | .ctx v c => v == vf && c == ctx
  | .gpa v a len => v == vf && pageMeets gpage a len
  | .vf v => v == vf

/-- An entry that a walk has read is selected: a stage-1 entry by VA or context, a stage-2 entry by GPA, either by VF. -/
def TlbSel.takesEntry (x : TlbSel) (k : WalkKey) : Bool :=
  let meets := fun a len => decide (0 < len) && decide (k.base < a + len) && decide (a < k.base + k.size)
  match x with
  | .va v c a len => v == k.vf && k.ctx == some c && meets a len
  | .ctx v c => v == k.vf && k.ctx == some c
  | .gpa v a len => v == k.vf && k.ctx.isNone && meets a len
  | .vf v => v == k.vf

/-- A byte of an access at a VA used a translation that is selected. A byte of a public view was translated at a VA of its backing, which
any `tlbinv` by VA in the context is taken to cover. -/
def usesLeaf (x : TlbSel) (la : Launch) (va : Nat) (b : GByte) : Bool :=
  (b.leaf.toList ++ b.alt.toList).any (fun lf => x.takes la.vf la.ctx (va / 65536) (lf.gpa / 65536)) ||
    (b.win.isSome && (match x with
      | .va v c _ _ => v == la.vf && c == la.ctx
      | _ => false))

/-- A pending access used a translation that is selected. -/
def usesTlb (x : TlbSel) (la : Launch) (o : Op) : Bool :=
  match o.kind.addr? with
  | some (.glob _ va bs, _) => (bs.zip (List.range bs.length)).any fun y => usesLeaf x la (va + y.2) y.1
  | _ => false

/-- The pending accesses that used a selected translation, by crew and operation. -/
def tlbUses (s : State) (x : TlbSel) : List (Nat × Nat) :=
  s.crews.flatMap fun c => (c.ops.filter (usesTlb x (s.launchOf c))).map fun o => (c.uid, o.id)

/-- Removes the selected entries from every TLB and walk cache of the module. -/
def tlbDrop (s : State) (x : TlbSel) : State :=
  { s with tlbs := s.tlbs.filter (fun t => !x.takes t.vf t.ctx t.vpage t.gpa), walks := s.walks.filter fun e => !x.takesEntry e.key }

/-- `tlbinv` of one mode. -/
def tlbinvInstr (s : State) (h : Hdr) (uses : List (Opnd × Nat)) (sel : Launch → Issue → Nat → TlbSel) :
    Host.Outcome State Fault Refusal :=
  issueSys s h .vz uses fun i s l =>
    let x := sel (s.launchOf i.c) i l
    { state := tlbDrop s x, status := none, wait := .tlbinv (tlbUses s x) }

/-- `tlbinv.va` (R315). -/
def execTlbinvVa (h : Hdr) (a b : Opnd) (s : State) : Host.Outcome State Fault Refusal :=
  tlbinvInstr s h [(a, 2), (b, 1)] fun la i l => .va la.vf la.ctx (readWide i.g s.draws l a 2) (readWide i.g s.draws l b 1)

/-- `tlbinv.ctx` (R315). -/
def execTlbinvCtx (h : Hdr) (s : State) : Host.Outcome State Fault Refusal := tlbinvInstr s h [] fun la _ _ => .ctx la.vf la.ctx

/-- `tlbinv.gpa` (R315). -/
def execTlbinvGpa (h : Hdr) (a b : Opnd) (s : State) : Host.Outcome State Fault Refusal :=
  tlbinvInstr s h [(a, 2), (b, 1)] fun la i l => .gpa la.vf (readWide i.g s.draws l a 2) (readWide i.g s.draws l b 1)

/-- `tlbinv.vf` (R315). -/
def execTlbinvVf (h : Hdr) (s : State) : Host.Outcome State Fault Refusal := tlbinvInstr s h [] fun la _ _ => .vf la.vf

/-! `l2part` (R302, R303, R316). -/

/-- Every refused `l2part` returns this. -/
def partBad : Nat := 0xFFFFFFFF

/-- The lane may name the class: a supervisor its own context's, a hypervisor any of 0 to 15; `set` of class 15 is not for supervisors. -/
def mayName (s : State) (i : Issue) (l cls : Nat) (set : Bool) : Bool :=
  decide (cls ≤ 15) && ((i.g.lane l).mode == .hyper || (cls == (s.launchOf i.c).desc.cls && !(set && cls == 15)))

/-- A new M_15 takes ways from the worlds: their lines in those ways are sealed and written back, or dropped when clean. -/
def leaveWays (s : State) (tract : Nat) (gone : BitVec 16) : State :=
  let out := s.l2.filter fun x => homeTract (128 * x.line) == tract && x.world.isSome && gone.getLsbD x.way
  { out.foldl writeBack s with l2 := s.l2.filter fun x => !out.contains x }

/-- `l2part` of one mode: `f` acts where the lane may name the class. -/
def l2partInstr (s : State) (h : Hdr) (d a b : Opnd) (set : Bool) (f : State → Issue → Nat → Nat → State × Nat) :
    Host.Outcome State Fault Refusal :=
  issueSys s h d [(a, 1), (b, 1)] fun i s0 l =>
    let cls := readWide i.g s.draws l a 1
    if mayName s0 i l cls set then
      let r := f s0 i cls (readWide i.g s.draws l b 1)
      { state := r.1, status := some r.2, wait := .ready }
    else { state := s0, status := some partBad, wait := .ready }

/-- `l2part.set` (R316). -/
def execL2partSet (h : Hdr) (d a b : Opnd) (s : State) : Host.Outcome State Fault Refusal :=
  l2partInstr s h d a b true fun s i cls v =>
    let t := i.c.tract
    let old := s.fillMask t cls
    let new := BitVec.ofNat 16 v
    let s1 := if cls = 15 then leaveWays s t (old &&& ~~~new) else s
    (s1.setFillMask t cls new, old.toNat)

/-- `l2part.mask` (R316). -/
def execL2partMask (h : Hdr) (d a : Opnd) (s : State) : Host.Outcome State Fault Refusal :=
  l2partInstr s h d a .vz false fun s i cls _ => (s, (s.fillMask i.c.tract cls).toNat)

/-- The camp of the issuing tract that an operand names. -/
def partCamp (i : Issue) (v : Nat) : Nat := 8 * i.c.tract + bits v 8 6

/-- Valid lines of a class in a camp, in one slice or in all (R303). -/
def occupancy (s : State) (camp cls : Nat) (slice : Option Nat) : Nat :=
  (s.l2.filter fun x => homeCampOf x.line == camp && x.cls == cls && (match slice with
    | some n => homeSlice (128 * x.line) == n
    | none => true)).length

/-- `l2part.occ` (R316). -/
def execL2partOcc (h : Hdr) (d a b : Opnd) (s : State) : Host.Outcome State Fault Refusal :=
  l2partInstr s h d a b false fun s i cls v =>
    (s, occupancy s (partCamp i v) cls (if bit v 5 then none else some (bits v 4 0)))

/-- `l2part.hit` (R316). -/
def execL2partHit (h : Hdr) (d a b : Opnd) (s : State) : Host.Outcome State Fault Refusal :=
  l2partInstr s h d a b false fun s i cls v => (s, (sget 0#32 s.hits (16 * partCamp i v + cls)).toNat)

/-- `l2part.miss` (R316). -/
def execL2partMiss (h : Hdr) (d a b : Opnd) (s : State) : Host.Outcome State Fault Refusal :=
  l2partInstr s h d a b false fun s i cls v => (s, (sget 0#32 s.misses (16 * partCamp i v + cls)).toNat)

/-- The counters of a class are zero in every camp of a tract. -/
def clearCounts (s : State) (tract cls : Nat) : State :=
  (List.range 8).foldl (fun s k =>
    { s with hits := sput 0#32 s.hits (16 * (8 * tract + k) + cls) 0#32
             misses := sput 0#32 s.misses (16 * (8 * tract + k) + cls) 0#32 }) s

/-- `l2part.clr`, and modes 6 and 7, which change nothing (R316). -/
def execL2partClr (h : Hdr) (m : L2Mode) (d a b : Opnd) (s : State) : Host.Outcome State Fault Refusal :=
  l2partInstr s h d a b false fun s i cls _ =>
    match m with
    | .clr => (clearCounts s i.c.tract cls, 0)
    | _ => (s, partBad)

/-! `frmset` (R387). -/

/-- The fields of a descriptor. -/
def rangeFields (bs : List Byte) : FormatRange :=
  let w := natOfBytes ((bs.drop 12).take 4)
  { v := bit w 17, store := natOfBytes (bs.take 8), nelem := natOfBytes ((bs.drop 8).take 4), fmt := bits w 3 0
    pstored := bits w 11 8, pdeliv := bits w 15 12, scaled := bit w 16, scale := natOfBytes ((bs.drop 16).take 8)
    aliasPa := natOfBytes ((bs.drop 24).take 8) }

/-- A descriptor with V = 1 that breaks the table, for a range of a tract. -/
def rangeBad (tract : Nat) (bs : List Byte) : Bool :=
  let w := natOfBytes ((bs.drop 12).take 4)
  let f := rangeFields bs
  bits f.store 11 0 != 0 || bits f.store 63 52 != 0 || homeTract f.store != tract || !hbmHas f.store || f.nelem % 128 != 0 ||
  bits w 7 4 != 0 || bits w 31 18 != 0 || bit f.scale 0 || bits f.scale 63 52 != 0 || bits f.aliasPa 15 0 != 0 ||
  bits f.aliasPa 63 52 != 0 || decide (11 < f.fmt) ||
  (if f.fmt = 8 then decide (f.pstored < 1) || decide (8 < f.pstored) || decide (f.pdeliv < 1) || decide (f.pstored < f.pdeliv)
   else f.pstored != 0 || f.pdeliv != 0 || f.aliasPa != 0)

/-- A task of the crew that runs and reads a format range of its tract. -/
def readsRange (c : Crew) (n : Nat) : Bool :=
  c.tract == n / 16 && c.tasks.any fun t =>
    t.state == .run && (List.range 4).any fun j =>
      (recDesc t.record j).space == 3 && (recDesc t.record j).loc % 16 == n % 16

/-- `frmset` (R387): the range takes its new setting when the instruction completes. -/
def execFrmset (h : Hdr) (d a b : Opnd) (s : State) : Host.Outcome State Fault Refusal :=
  issueSys s h d [(a, 2), (b, 1)] fun i s0 l =>
    let n := readWide i.g s.draws l b 1
    if 127 < n then { state := s0, status := some 2, wait := .ready }
    else match laneRead s0 i.c (i.c.who s0 (i.g.lane l).mode) (readWide i.g s.draws l a 2) 32 with
      | none => { state := s0, status := some 3, wait := .ready }
      | some bs =>
        if !(rangeFields bs).v then { state := s0, status := some 0, wait := .frmset n { s0.range n with v := false } }
        else if rangeBad (n / 16) bs then { state := s0, status := some 1, wait := .ready }
        else { state := s0, status := some 0, wait := .frmset n (rangeFields bs) }

/-! Worlds and `keyop` (R388 to R390). -/

/-- The first key slot and the slots owned, of a VF's KEYS (R374). -/
def ownsSlot (s : State) (vf slot : Nat) : Bool :=
  let k := (s.func vf).keys.toNat
  decide (vf ≠ 0) && decide (bits k 9 0 ≤ slot) && decide (slot < bits k 9 0 + bits k 20 16)

/-- The VF that a lane's `keyop` acts for: its own, where it owns the slot; for a hypervisor lane, which may name any of the 1,024 slots,
the slot's owner, or where no VF owns it the lane's own function. -/
def keyVf (s : State) (vf : Nat) (mode : Mode) (slot : Nat) : Option Nat :=
  if mode = .hyper then if slot < 1024 then some (((List.range 64).find? fun v => ownsSlot s v slot).getD vf) else none
  else if ownsSlot s vf slot then some vf else none

/-- A world is torn down: its crews are terminated, and its launch ends with status 4 (R390). -/
def tearDown (s : State) (launch : Nat) : State :=
  let us := (s.crews.filter fun c => c.launch == launch).map (·.uid)
  (us.foldl (fun s u => terminate s u none) s).mapLaunch launch fun l => if l.status = 0 then { l with status := 4 } else l

/-- The worlds that use a key slot (R388: bits [9:0] of the handle). -/
def worldsOn (s : State) (slot : Nat) : List Nat :=
  (s.launches.filter fun l => l.world && !l.done && l.key % 1024 == slot).map (·.id)

/-- `keyop` of one mode: `f` gives the state and the status where the lane's VF owns the slot. -/
def keyopInstr (s : State) (h : Hdr) (d a b : Opnd) (f : State → Crew → Who → (vf slot va : Nat) → State × Nat) :
    Host.Outcome State Fault Refusal :=
  issueSys s h d [(a, 2), (b, 1)] fun i s0 l =>
    let slot := readWide i.g s.draws l b 1
    let mode := (i.g.lane l).mode
    match keyVf s0 (s0.launchOf i.c).vf mode slot with
    | none => { state := s0, status := some 1, wait := .ready }
    | some vf =>
      let r := f s0 i.c (i.c.who s0 mode) vf slot (readWide i.g s.draws l a 2)
      { state := r.1, status := some r.2, wait := .ready }

/-- `keyop.load` (R389). -/
def execKeyopLoad (h : Hdr) (d a b : Opnd) (s : State) : Host.Outcome State Fault Refusal :=
  keyopInstr s h d a b fun s c w vf slot va =>
    if (s.func vf).tdisp ≠ .run then (s, 4)
    else match laneRead s c w va 96 with
      | none => (s, 3)
      | some blob =>
        match Config.unwrapKey vf (s.func vf).session blob with
        | none => (s, 2)
        | some key => ({ s with keySlots := (slot, key) :: s.keySlots.filter fun e => e.1 != slot }, 0)

/-- `keyop.erase` (R389): a world that uses the slot is torn down. -/
def execKeyopErase (h : Hdr) (d a b : Opnd) (s : State) : Host.Outcome State Fault Refusal :=
  keyopInstr s h d a b fun s _ _ _ slot _ =>
    ((worldsOn s slot).foldl tearDown { s with keySlots := s.keySlots.filter fun e => e.1 != slot }, 0)

def Tdisp.code : Tdisp → Nat
  | .unlocked => 0
  | .locked => 1
  | .run => 2
  | .error => 3

/-- `keyop.attest` (R389): the nonce is read from VA first, then the report is written there. -/
def execKeyopAttest (h : Hdr) (d a b : Opnd) (s : State) : Host.Outcome State Fault Refusal :=
  keyopInstr s h d a b fun s c w vf slot va =>
    if (s.func vf).tdisp ≠ .run then (s, 4)
    else match laneRead s c w va 64 with
      | none => (s, 3)
      | some nonce =>
        let r := Config.attestReport vf (s.func vf).tdisp.code s.firmware (sget 0 s.keySlots slot) (natOfBytes nonce)
        match laneWrite s c w va ((List.range 512).map fun j => r.getD j 0#8) with
        | none => (s, 3)
        | some s1 => (s1, 0)

/-! Context descriptors, and submission from device code (R376, R382). -/

/-- The context descriptor of a context, from the function's table in host memory; none where the table has no such entry (R376). -/
def readDesc (s : State) (vf ctx : Nat) : Option CtxDesc :=
  let t := (s.func vf).ctxtbl.toNat
  if ctx ≤ t % 4096 then
    let a := t / 4096 * 4096 + 64 * ctx
    let q := fun off n => natOfBytes (peekN s.host (a + off) n)
    some { s1root := bits (q 0 8) 51 16 * 65536, pasid := bits (q 8 4) 19 0, cls := bits (q 8 4) 27 24, ctxwt := q 12 2
           bindbase := q 16 8, bindcnt := q 24 4, lqbase := q 32 8 / 4096 * 4096, lqsz := min (q 32 8 % 16) 12 }
  else none

/-- Where record `n` of launch ring `q` lies in host memory (R376, R380). -/
def ringSlot (x : CtxDesc) (q n : Nat) : Nat := x.lqbase + q * 256 * 2 ^ x.lqsz + 256 * (n % 2 ^ x.lqsz)

/-- Records of a launch ring not yet taken. -/
def ringUsed (x : Ctx) (q : Nat) : Nat := (x.lqProd.getD q 0 + 2 ^ 32 - x.lqTaken.getD q 0) % 2 ^ 32

/-- `launch.run` (R382): the record goes to the queue's ring at its producer index. -/
def execLaunchRun (h : Hdr) (d a b : Opnd) (s : State) : Host.Outcome State Fault Refusal :=
  issueSys s h d [(a, 2), (b, 1)] fun i s0 l =>
    let la := s0.launchOf i.c
    let q := readWide i.g s.draws l b 1 % 8
    match laneRead s0 i.c (i.c.who s0 (i.g.lane l).mode) (readWide i.g s.draws l a 2) 256 with
    | none => { state := s0, status := some 2, wait := .ready }
    | some r =>
      let ids := natOfBytes ((r.drop 0xA4).take 4)
      if bits ids 5 0 ≠ la.vf ∨ bits ids 31 16 ≠ la.ctx then { state := s0, status := some 3, wait := .ready }
      else
        let desc := (readDesc s0 la.vf la.ctx).getD la.desc
        let x := s0.ctxAt la.vf la.ctx
        if 2 ^ desc.lqsz ≤ ringUsed x q then { state := s0, status := some 1, wait := .ready }
        else
          let s1 := { s0 with host := pokeN s0.host (ringSlot desc q (x.lqProd.getD q 0)) r }
          { state := s1.setCtx { x with desc := desc, lqProd := modifyNth x.lqProd q fun n => (n + 1) % 2 ^ 32 }
            status := some 0, wait := .ready }

/-- Requests of a function that no Grader has taken (R335). -/
def requestsOf (s : State) (vf : Nat) : Nat :=
  (s.admQueue.filter fun e => e.2.vf == vf).length + ((s.func vf).admprod + 2 ^ 32 - (s.func vf).admcons) % 2 ^ 32

/-- The words of a 64-byte request. -/
def requestWords (bs : List Byte) : List Nat := (List.range 16).map fun j => natOfBytes ((bs.drop (4 * j)).take 4)

/-- `launch.adm` (R382): the request joins the admission queue of the issuer's tract. -/
def execLaunchAdm (h : Hdr) (d a : Opnd) (s : State) : Host.Outcome State Fault Refusal :=
  issueSys s h d [(a, 2)] fun i s0 l =>
    let la := s0.launchOf i.c
    let mode := (i.g.lane l).mode
    match laneRead s0 i.c (i.c.who s0 mode) (readWide i.g s.draws l a 2) 64 with
    | none => { state := s0, status := some 2, wait := .ready }
    | some r =>
      if natOfBytes ((r.drop 4).take 2) ≠ la.ctx then { state := s0, status := some 3, wait := .ready }
      else if 16 * 2 ^ ((s0.func la.vf).admq.toNat % 16) ≤ requestsOf s0 la.vf then { state := s0, status := some 1, wait := .ready }
      else
        let req : AdmReq := { vf := la.vf, words := requestWords r, priv := if mode = .hyper then .hyper else .super
                              desc := (readDesc s0 la.vf la.ctx).getD la.desc, bind := none, start := 0
                              pending := none, failed := false, result := none, behind := (s0.func la.vf).admprod }
        { state := { s0 with admQueue := s0.admQueue ++ [(i.c.tract, req)] }, status := some 0, wait := .ready }

end Sys2Proof.Machine
end

