-- ==== Sys2Proof/Machine/Save.lean ====
section
/-!
DEFINITION. The crew save area: when a crew may be saved, what is written and where, and `ctxsave` (R200, R201, R234, R235, R258, R318 to
R322, R324 to R326, R378, R400).
-/

namespace Sys2Proof.Machine

/-! When a crew may be saved (R201, R234, R258, R270, R321). -/

/-- A copy stopped by a save is carried: one still forming; or a formed one from `.g`, or by a fabric get, into the scratchpad, with bytes
left to deliver (R234, R400, R408). -/
def carriedCopy (x : Copy) : Bool :=
  !x.formed || (x.slices.all (fun y => !y.put && y.win.isNone && (y.fab || y.src == 0)) && x.slices.any fun y => decide (y.done < y.len))

/-- An operation that does not keep a save from completing: it is carried, or withdrawn (R201). -/
def carriedOp (c : Crew) (o : Op) : Bool :=
  match o.kind with
  | .copy chan seq => (c.channel chan).copies.any fun x => x.seq == seq && carriedCopy x
  | .taskPost _ _ (some e) => (c.task e).state == .wait || (c.task e).state == .ready
  | .barWait _ _ _ | .barSync _ _ true _ | .barSent _ _ _ _ => true
  | .barArrive l n _ | .barSync l n false _ => !maySend c o l n
  | .wait | .emit _ _ _ => true
  | _ => (c.gang o.gang).pages.any fun p => p.op == o.id

/-- A running task of the camp touches the allocation of a crew (R270). -/
def taskTouches (s : State) (c : Crew) : Bool :=
  s.crews.any fun d => d.launch == c.launch && d.isResident && d.camp == c.camp && d.tasks.any fun t =>
    t.state == .run && (List.range 4).any fun j => (recDesc t.record j).space == 1 && (recDesc t.record j).loc % 8 == c.coreOf % 8

/-- Step 1 of R321 is complete. -/
def mayWrite (s : State) (c : Crew) : Bool :=
  c.req && c.isResident && !c.terminating && (List.range c.ngangs).all (fun k => atRest s c k && (c.gang k).sys.isEmpty &&
      ((c.gang k).pages.isEmpty || c.force)) &&
    c.ops.all (carriedOp c) && c.tasks.all (fun t => t.state != .run) && !taskTouches s c &&
    !(s.ringWait.any fun w => w.crew == c.uid && w.fate.subject.isSome)

/-! Where each lane resumes (R182, R201, R320). -/

/-- The oldest pending `emit` of a lane: it is withdrawn, and the lane resumes with it not yet issued (R201). -/
def emitOf (c : Crew) (k l : Nat) : Option Op :=
  c.ops.find? fun o => o.gang == k && o.lanes.getLsbD l && (match o.kind with
    | .emit _ _ _ => true
    | _ => false)

/-- The PC at which a lane is saved, and REPLAY (R320). -/
def savedPc (c : Crew) (k l : Nat) : Pc × Bool :=
  let g := c.gang k
  match emitOf c k l with
  | some o => (o.pc, false)
  | none =>
    match g.frontier.find? (fun e => e.mask.getLsbD l) with
    | none => ((g.lane l).pc, false)
    | some e =>
      if g.pages.any (fun p => p.lane == l) then (e.pc, true)
      else if e.busy && g.pages.any (fun p => e.mask.getLsbD p.lane && p.op != 0) then (pcNext e.pc, false)
      else (e.pc, false)

/-- The lanes of a gang as they are saved. -/
def savedLanes (c : Crew) (k : Nat) : List Lane :=
  (List.range 32).map fun l =>
    let x := (c.gang k).lane l
    { x with pc := (savedPc c k l).1, run := if (emitOf c k l).isSome then .active else x.run }

/-- Operations that a save withdraws: waits, emits, and accesses that wait on a page request (R201, R320). -/
def withdrawn (c : Crew) (o : Op) : Bool :=
  match o.kind with
  | .wait | .emit _ _ _ => true
  | .copy _ _ | .taskPost _ _ _ | .barWait _ _ _ | .barSync _ _ _ _ | .barArrive _ _ _ | .barSent _ _ _ _ => false
  | _ => (c.gang o.gang).pages.any fun p => p.op == o.id

/-- A crew with its operations withdrawn and its gangs at rest, each lane at the PC at which it resumes. -/
def Crew.settled (c : Crew) (tick : Nat) : Crew :=
  let c1 := { c with gangs := (List.range c.gangs.length).map fun k =>
                if (c.gang k).retired then c.gang k else { c.gang k with lanes := savedLanes c k } }
  let c2 := (c.ops.filter (withdrawn c)).foldl (fun c o => c.complete tick o) c1
  { c2 with
    turn := none
    gangs := c2.gangs.map fun g =>
      { g with waits := [], pages := [], parked := 0#32, counted := [], chosen := false, halted := false } }

/-! The bytes of the area (R235, R324 to R326). -/

/-- `n` bytes of zeros. -/
def zeros (n : Nat) : List Byte := List.replicate n 0#8

/-- Bytes padded with zeros to a length. -/
def padTo (n : Nat) (bs : List Byte) : List Byte := bs ++ zeros (n - bs.length)

def roundUp64 (n : Nat) : Nat := (n + 63) / 64 * 64

/-- Offsets of the sections, and TOTAL, of an area with these counts. -/
structure Layout where
  gang : Nat
  scr : Nat
  cmd : Nat
  task : Nat
  bar : Nat
  total : Nat
  deriving DecidableEq, Repr

def layoutOf (gangs regs ssize ncmd ntask nbar : Nat) : Layout :=
  let scr := 512 + gangs * (5120 + 128 * regs)
  let cmd := scr + roundUp64 ssize
  let task := roundUp64 (cmd + 64 * ncmd)
  let bar := task + 256 * ntask
  { gang := 512, scr := scr, cmd := cmd, task := task, bar := bar, total := roundUp64 (bar + 8 * nbar) }

/-- AREA: the most that a save of a crew of a launch writes (R378). -/
def Launch.area (l : Launch) : Nat := 512 + l.gangs * (5120 + 128 * l.regs + 8192 + 129024) + roundUp64 l.scratch + 16384

def Run.code : Run → Nat
  | .active => 0
  | .held => 1
  | .exited => 2

/-- One trap frame (R325). -/
def frameBytes (f : Frame) : List Byte :=
  bytesOf 4 f.tcause.toNat ++ bytesOf 4 f.tdet0.toNat ++ bytesOf 4 f.tdet1.toNat ++ bytesOf 4 0 ++ bytesOf 8 f.tpc.toNat ++
    bytesOf 8 f.taddr.toNat

/-- A lane record (R325). -/
def laneBytes (x : Lane) (replay : Bool) : List Byte :=
  padTo 128 (padTo 32 (bytesOf 8 (pcFields x.pc.toNat).toNat ++ bytesOf 4 (x.mode.band + x.depth * 4 + x.run.code * 16 + replay.toNat * 64) ++
    bytesOf 4 x.preds.toNat ++ x.scnt.map (BitVec.ofNat 8) ++ bytesOf 4 x.fpstat.toNat) ++ x.frames.reverse.flatMap frameBytes)

/-- One frontier entry, for inspection (R325). -/
def entryBytes (e : Entry) : List Byte := bytesOf 8 (pcFields e.pc.toNat).toNat ++ bytesOf 4 (e.prio + e.band * 2 ^ 16) ++ bytesOf 4 e.mask.toNat

/-- A gang's section (R325): `g` as it was when it stopped, `x` with its lanes settled. -/
def gangBytes (regs : Nat) (g x : Gang) (replay : LaneMask) : List Byte :=
  if g.retired then zeros (5120 + 128 * regs)
  else
    padTo 256 (bytesOf 4 g.stopped.toNat ++ bytesOf 4 g.regioncnt.toNat ++ bytesOf 4 (x.inRun .held).toNat ++
      bytesOf 4 (x.inRun .exited).toNat ++ bytesOf 4 g.barPhase.toNat ++
      (List.range 4).flatMap (fun n => bytesOf 4 (g.sentAt n).toNat) ++ bytesOf 4 g.frontier.length) ++
    (List.range 64).flatMap (fun r => bytesOf 4 (sget 0#32 g.g r).toNat) ++
    padTo 512 (g.frontier.flatMap entryBytes) ++
    (List.range 32).flatMap (fun l => laneBytes (x.lane l) (replay.getLsbD l)) ++
    (List.range regs).flatMap fun r => (List.range 32).flatMap fun l => bytesOf 4 ((x.lane l).reg r).toNat

/-- SRCVA of a slice (R235); for a slice of a put, the remote destination. -/
def Slice.srcva (x : Slice) : Nat :=
  if x.fab then x.module * 2 ^ 56 + x.base
  else if x.src = 0 then x.word 0 + x.word 1 * 2 ^ 32
  else x.word 0 + x.word 1 * 2 ^ 32

/-- A restartable command (R235). A slice of a put, whose copy is still forming, shows SSP = 3 with FAB = 1. -/
def commandBytes (chan seq : Nat) (x : Slice) : List Byte :=
  bytesOf 8 x.srcva ++ bytesOf 4 (x.word 2) ++ bytesOf 4 (x.word 3) ++ bytesOf 4 (x.word 4) ++ bytesOf 4 (x.word 5) ++ bytesOf 4 x.done ++
  bytesOf 4 (2 ^ 31 + x.fab.toNat * 2 ^ 19 + x.scope * 2 ^ 16 + seq % 256 * 2 ^ 8 + x.gang * 2 ^ 4 + chan) ++ bytesOf 8 x.pc.toNat ++
  bytesOf 4 x.lanes.toNat ++
  bytesOf 4 ((x.win.getD 0) * 2 ^ 8 + x.win.isSome.toNat * 2 ^ 6 + (if x.put then 3 else x.src) * 2 ^ 4 + x.stream) ++ zeros 16

/-- The commands of a crew: every slice of every copy that has not completed (R234, R400). -/
def commandsOf (c : Crew) : List (List Byte) :=
  (List.range 8).flatMap fun n => ((c.channel n).copies.filter fun x => !x.cancelled).flatMap fun x =>
    x.ordered.map (commandBytes n x.seq)

/-- Bytes of a working set that have arrived in a scratchpad; a cancelled transfer counts for nothing (R264, R326). -/
def wsBytes (t : Task) (w : Nat) : Nat := if wsTarget t.record w = 2 ∧ t.ws w = .arrived then (recWset t.record w).len else 0

/-- A carried task (R326). -/
def taskBytes (e : Nat) (t : Task) : List Byte :=
  padTo 256 (t.record ++ bytesOf 4 (t.gen * 64 + e) ++ bytesOf 4 (t.state.code + t.dep * 2 ^ 8 + t.under.toNat * 2 ^ 16) ++
    bytesOf 4 (t.lane + t.gang * 2 ^ 5 + t.stream * 2 ^ 9) ++ bytesOf 4 0 ++ bytesOf 4 (wsBytes t 0) ++ bytesOf 4 (wsBytes t 1) ++
    bytesOf 8 t.pc.toNat)

/-- The carried tasks of a crew, in table order. -/
def carriedTasks (c : Crew) : List Nat := (List.range 64).filter fun e => (c.task e).state == .wait || (c.task e).state == .ready

/-- Sent and unsent arrivals of a lane at a barrier before an operation, in the current phase: 0 when none is ahead of it. -/
def arrivalsAhead (c : Crew) (o : Op) (l n : Nat) : Nat :=
  (if (c.gang o.gang).sentAt (64 * l + n) &&& o.lanes = 0#32 then 0 else 1) +
    ((c.opsBefore o.id).filter fun p => p.gang == o.gang && p.lanes == o.lanes && unsent p.kind == some (l, n)).length

/-- Level, number, PHB and kind of a pending barrier operation (R326). A held arrival is sent when the phase whose bit is PHB completes. -/
def barFields (s : State) (c : Crew) (o : Op) : Option (Nat × Nat × Bool × Nat) :=
  match o.kind with
  | .barWait l n ph => some (l, n, ph, 0)
  | .barSync l n true ph => some (l, n, ph, 1)
  | .barArrive l n _ | .barSync l n false _ =>
    some (l, n, o.hold.getD (phaseOf s c o.gang l n != ((arrivalsAhead c o l n - 1) % 2 == 1)), 2)
  | .barSent l n _ ph => some (l, n, !ph, 2)
  | _ => none

/-- One entry of the OFFBAR list (R326). -/
def barBytes (o : Op) (f : Nat × Nat × Bool × Nat) : List Byte :=
  bytesOf 8 (lowest o.lanes + o.gang * 2 ^ 5 + o.stream * 2 ^ 9 + f.1 * 2 ^ 12 + f.2.1 * 2 ^ 15 + f.2.2.1.toNat * 2 ^ 21 + f.2.2.2 * 2 ^ 22)

def barList (s : State) (c : Crew) : List (List Byte) := c.ops.filterMap fun o => (barFields s c o).map (barBytes o)

/-- The arrivals of a crew at the barriers of a level, and their phase bits (R324). -/
def arrivals (s : State) (c : Crew) (level count : Nat) : Nat × Nat :=
  (List.range count).foldl (fun a n =>
    let e := s.endpoint (barIdOf s c 0 level n)
    if e.crews.contains c.uid || s.heldArr.any (fun h => h == (barIdOf s c 0 level n, c.uid)) then
      (a.1 + 2 ^ n, a.2 + e.phase.toNat * 2 ^ n)
    else a) (0, 0)

/-- The mask of unretired gangs. -/
def liveMask (c : Crew) : Nat := c.liveGangs.foldl (fun m k => m + 2 ^ k) 0

/-- The save area of a crew at rest (R324): `c0` as it stopped, `c` settled. -/
def areaBytes (s : State) (c0 c : Crew) : List Byte :=
  let cmds := commandsOf c
  let tasks := carriedTasks c
  let bars := barList s c
  let y := layoutOf c.ngangs c.regs c.ssize cmds.length tasks.length bars.length
  let camp := arrivals s c 2 32
  let tract := arrivals s c 3 64
  let fab := arrivals s c 5 64
  let header := bytesOf 4 0x00010200 ++ bytesOf 4 (c.ngangs + liveMask c * 2 ^ 16) ++ bytesOf 4 c.regs ++ bytesOf 4 c.ssize ++
    bytesOf 8 c.pbase ++ bytesOf 8 c.launch ++ bytesOf 4 (crewidWord c) ++ bytesOf 4 (c.force.toNat + 2 * c.noGang.toNat) ++
    bytesOf 4 c.succ.toNat ++ bytesOf 4 c.camp ++ bytesOf 4 c.barPhase.toNat ++ bytesOf 4 0 ++
    (List.range 16).flatMap (fun n => bytesOf 2 (sget 0#16 (settleGangs c).garr (64 + n)).toNat) ++
    bytesOf 4 camp.1 ++ bytesOf 4 camp.2 ++ bytesOf 8 tract.1 ++ bytesOf 8 tract.2 ++ bytesOf 8 fab.1 ++ bytesOf 8 fab.2 ++
    (List.range 8).flatMap (fun n => bytesOf 4 (c.channel n).wp.toNat) ++
    (List.range 8).flatMap (fun n => (List.range 16).map fun k => BitVec.ofNat 8 ((c.channel n).slices.getD k 0)) ++
    (List.range 8).map (fun n => BitVec.ofNat 8 (c.channel n).formed) ++
    bytesOf 4 cmds.length ++ bytesOf 4 tasks.length ++ bytesOf 4 bars.length ++ bytesOf 4 y.gang ++ bytesOf 4 y.scr ++
    bytesOf 4 y.cmd ++ bytesOf 4 y.task ++ bytesOf 4 y.bar ++ bytesOf 4 y.total
  let replay := fun k => LaneMask.ofList (laneNumbers.filter fun l => (savedPc c0 k l).2)
  padTo y.total (padTo y.task
    (padTo 512 header ++ (List.range c.ngangs).flatMap (fun k => gangBytes c.regs (c0.gang k) (c.gang k) (replay k)) ++
      padTo (roundUp64 c.ssize) (peekN c.scratch 0 c.ssize) ++ cmds.flatten) ++
    tasks.flatMap (fun e => taskBytes e (c.task e)) ++ bars.flatten)

/-! Writing the area (R321, R378). -/

/-- The device as it writes or reads save areas for a launch. -/
def Launch.who (l : Launch) (holder : Nat) : Who :=
  { holder := holder, vf := l.vf, ctx := l.ctx, root := l.desc.s1root, cls := l.desc.cls, user := false
    world := if l.world then some (l.id, l.wkey) else none, mayPatch := true, pri := false }

/-- The lowest save area of a launch's region that holds no crew (R378). -/
def freeArea (s : State) (l : Launch) : Option Nat :=
  let at_ := fun k => l.savebase + k * l.area
  ((List.range (l.savesz / l.area)).find? fun k =>
    !(s.crews.any fun c => c.launch == l.id && c.place == .saved false (at_ k))).map at_

/-- Where a save goes: the VA that `ctxsave` gave, in its issuer's context, or the launch's region (R321, R322). -/
def saveTarget (s : State) (c : Crew) : Option (Bool × Nat × Who) :=
  match c.saveAt with
  | some (va, l) => (s.launch? l).map fun la => (true, va, la.who (512 + c.camp))
  | none => (freeArea s (s.launchOf c)).map fun va => (false, va, (s.launchOf c).who (512 + c.camp))

/-- A copy's record of itself that stays with a saved crew: a cancelled copy that still awaits slices (R228, R233). -/
def Channel.afterSave (ch : Channel) : Channel := { ch with copies := ch.copies.filter fun x => x.cancelled }

/-- The core lies within the launch's placement. -/
def coreAllowed (s : State) (l : Launch) (core : Nat) : Bool :=
  decide (core < 512) && (allowedCamps s l).getLsbD (core / 8) && l.cores.getLsbD (core % 8)

/-- The tract of a core can take crews (R395). -/
def tractReady (s : State) (core : Nat) : Bool := s.readymap.getLsbD (64 + core / 64)

/-- A launch with COOP = 1 that has begun keeps the cores it still needs (R383). -/
def coopHolds (s : State) (l : Launch) (core : Nat) : Bool :=
  s.launches.any fun m => m.id != l.id && m.coop && m.begun && !m.done && m.status == 0 && decide (0 < m.undispatched) && coreAllowed s m core

/-- LOGCTL.STOP still reads 1: some crew of the VF is resident, and logging has not overflowed (R394). -/
def stopHolds (s : State) (vf : Nat) : Bool :=
  (s.func vf).logStop && !(s.func vf).logAll && s.crews.any fun c => (s.launchOf c).vf == vf && c.isResident

/-- STOP reads 0 again. -/
def stopOver (s : State) (vf : Nat) : State := s.mapFunc vf fun f => { f with logStop := false }

/-- The cores that a launch may use now: none while its VF's share is 0 (R374, R383). -/
def coresAvailable (s : State) (l : Launch) : Nat :=
  if l.vf ≠ 0 ∧ (s.func l.vf).vfshare = 0#16 then 0 else ((List.range 512).filter fun k => coreAllowed s l k).length

/-- Crews of a launch that have not retired. -/
def coresNeeded (s : State) (l : Launch) : Nat := (s.crews.filter fun c => c.launch == l.id).length + l.undispatched

/-- A save by the landing takes a crew of a COOP launch that no longer fits, for the first time (R383). -/
def degrades (s : State) (c : Crew) : Bool :=
  let l := s.launchOf c
  c.saveAt.isNone && l.coop && !l.notified && decide (coresAvailable s l < coresNeeded s l)

/-- The notice 0x69 of that save (R383). -/
def notice (s : State) (c : Crew) : State :=
  let l := s.launchOf c
  (writeRecord s (c.ring s) (laneRecord c 0 0x69 0 0#32 0#64 0 (coresNeeded s l) (coresAvailable s l))).mapLaunch l.id
    fun x => { x with notified := true }

/-- Steps 2 and 3 of R321: the area is written, REQ and FORCE clear, the slot is freed. Where the area does not translate the crew stays. -/
def saveCrew (s : State) (c : Crew) : State :=
  match saveTarget s c with
  | none => s
  | some (soft, va, w) =>
    let c1 := c.settled s.tick
    match deviceWrite s w va (areaBytes s c c1) with
    | none => s
    | some s1 =>
      { s1.setCrew { c1 with
          place := .saved soft va, home := c.camp, req := false, force := false, forced := 0#16, saveAt := none, slice := s.now
          scratch := [], channels := c1.channels.map Channel.afterSave, tasks := c1.tasks
          gangs := c1.gangs.map fun g => { g with frontier := [], line := none, latchLive := 0#8, latches := [] } } with
        ringWait := s1.ringWait.filter fun x => x.crew != c.uid || !x.recs.isEmpty }

/-- `CREW_SAVE` (R321). -/
def execCrewSave (uid : Nat) (s : State) : Host.Outcome State Fault Refusal :=
  match s.crew? uid with
  | none => finish s
  | some c =>
    finish (if !mayWrite s c then s
      else if !degrades s c then saveCrew s c
      else if ringRoom s (c.ring s) 1 then saveCrew (notice s c) c
      else ringStall s (c.ring s) uid none)

/-! `ctxsave` (R322). -/

/-- Every page of [va, va + n) translates for an access. -/
def areaMapped (s : State) (w : Who) (acc va n : Nat) : Bool :=
  (List.range ((va + n - 1) / 65536 - va / 65536 + 1)).all fun k =>
    match translate s w acc (max va ((va / 65536 + k) * 65536)) with
    | (_, .ok _) => true
    | _ => false

/-- The status of a `ctxsave` by a lane of `c` on a core (R323). -/
def saveStatus (s : State) (c : Crew) (mode : Mode) (va core : Nat) : Nat :=
  match s.resident? core with
  | none => 1
  | some t =>
    let la := s.launchOf c
    let lt := s.launchOf t
    if t.terminating then 1
    else if t.uid = c.uid ∨ (if mode = .hyper then lt.vf = 0 else ¬(lt.vf = la.vf ∧ lt.ctx = la.ctx)) then 2
    else if va % 64 ≠ 0 then 3
    else if areaMapped s (la.who c.coreOf) 1 va lt.area then 0 else 4

/-- REQ is set, or a running pre-emption is taken over (R322). -/
def takeSave (s : State) (uid : Nat) (force : Bool) (va launch : Nat) : State :=
  let s1 := s.mapCrew uid fun t => { t with saveAt := some (va, launch) }
  match s1.crew? uid with
  | none => s1
  | some t =>
    if t.req then
      if force && !t.force then
        let t1 := { t with count := 0 }
        (expire (s1.setCrew t1) t1).getD (s1.setCrew t1)
      else s1
    else requestPreempt s1 uid (if force then some 0 else none)

/-- `ctxsave` (R322). -/
def execCtxsave (h : Hdr) (force : Bool) (d a c : Opnd) (s : State) : Host.Outcome State Fault Refusal :=
  issueSys s h d [(a, 2), (c, 1)] fun i s0 l =>
    let va := readWide i.g s.draws l a 2
    let core := readWide i.g s.draws l c 1
    match saveStatus s0 i.c (i.g.lane l).mode va core with
    | 0 =>
      match s0.resident? core with
      | some t => { state := takeSave s0 t.uid force va i.c.launch, status := some 0, wait := .ctxsave t.uid }
      | none => { state := s0, status := some 1, wait := .ready }
    | n => { state := s0, status := some n, wait := .ready }

/-! The quantum and the deadline (R318, R320, R327). -/

/-- Some crew waits for a core of a camp: one saved by the landing, one of a launch that has crews to dispatch, or one of a later stage whose
record is queued in the camp, where its placement allows a core there (R260, R327). -/
def crewWaits (s : State) (camp : Nat) : Bool :=
  let may := fun (l : Launch) => !l.done && l.status == 0 && (allowedCamps s l).getLsbD camp && l.cores != 0#8 &&
    (l.vf == 0 || (s.func l.vf).vfshare != 0#16)
  s.crews.any (fun c => (match c.place with
    | .saved false _ => true
    | _ => false) && may (s.launchOf c)) || s.launches.any fun l =>
      may l && (decide (0 < l.undispatched) || s.queues.any fun q => q.launch == l.id && q.camp == camp && q.held != 0)

/-- A resident crew's quantum expires (R327): REQ when some crew waits for a core of its camp, or its own core is no longer within its
placement (R383); else a new quantum. -/
def execQuantumExpiry (uid : Nat) (s : State) : Host.Outcome State Fault Refusal :=
  match s.crew? uid with
  | none => finish s
  | some c =>
    let la := s.launchOf c
    if !c.isResident || c.terminating || c.req || decide (s.now < c.slice + 8 * (s.ctxAt la.vf la.ctx).quantum.toNat) then finish s
    else if crewWaits s c.camp || !coreAllowed s la c.coreOf then finish (requestPreempt s uid none)
    else finish (s.setCrew { c with slice := s.now })

/-- The deadline of a pre-emption expires (R320). -/
def execDeadlineExpiry (uid : Nat) (s : State) : Host.Outcome State Fault Refusal :=
  match s.crew? uid with
  | none => finish s
  | some c =>
    if c.isResident && c.req && !c.force && !c.terminating && decide (c.reqAt + c.count ≤ s.now) then
      finish ((expire s c).getD (ringStall s (c.ring s) uid none))
    else finish s

end Sys2Proof.Machine
end

