-- ==== Sys2Proof/Machine/Resume.lean ====
section
/-!
DEFINITION. Resuming a saved crew from its save area, `ctxload`, and the completion of system instructions (R234, R235, R258, R267, R317,
R323 to R327).
-/

namespace Sys2Proof.Machine

/-! Reading an area. -/

/-- An area's bytes, by field. -/
def fieldAt (bs : List Byte) (off n : Nat) : Nat := natOfBytes ((bs.drop off).take n)

/-- A sub-list of an area. -/
def partAt (bs : List Byte) (off n : Nat) : List Byte := (bs.drop off).take n

/-- What a header says (R324). -/
structure Header where
  gangs : Nat
  live : Nat
  regs : Nat
  ssize : Nat
  pbase : Nat
  launch : Nat
  crewid : Nat
  flags : Nat
  succ : Nat
  ncmd : Nat
  ntask : Nat
  nbar : Nat
  lay : Layout
  deriving DecidableEq, Repr

def headerOf (bs : List Byte) : Header :=
  { gangs := bits (fieldAt bs 4 4) 4 0, live := bits (fieldAt bs 4 4) 31 16, regs := fieldAt bs 8 4, ssize := fieldAt bs 12 4
    pbase := fieldAt bs 16 8, launch := fieldAt bs 24 8, crewid := fieldAt bs 32 4, flags := fieldAt bs 36 4, succ := fieldAt bs 40 4
    ncmd := fieldAt bs 0x128 4, ntask := fieldAt bs 0x12C 4, nbar := fieldAt bs 0x130 4
    lay := { gang := fieldAt bs 0x134 4, scr := fieldAt bs 0x138 4, cmd := fieldAt bs 0x13C 4, task := fieldAt bs 0x140 4
             bar := fieldAt bs 0x144 4, total := fieldAt bs 0x148 4 } }

/-- VERSION and the reserved fields of a header are right (R6, R323, R324). -/
def headerOk (bs : List Byte) : Bool :=
  fieldAt bs 0 4 == 0x00010200 && bits (fieldAt bs 4 4) 15 5 == 0 && bits (fieldAt bs 36 4) 31 2 == 0 &&
    bits (fieldAt bs 0x30 4) 31 16 == 0 && fieldAt bs 0x34 4 == 0 && fieldAt bs 0x14C (512 - 0x14C) == 0

/-- The counts and offsets agree with each other, with TOTAL, and with the crew (R323). -/
def sizesOk (c : Crew) (x : Header) : Bool :=
  x.gangs == c.ngangs && x.regs == c.regs && x.ssize == c.ssize && decide (x.live < 2 ^ x.gangs) && decide (x.ncmd ≤ 128 * 16) &&
    decide (x.ntask ≤ 64) && decide (x.nbar ≤ 504 * 32 * 16) && x.lay == layoutOf x.gangs x.regs x.ssize x.ncmd x.ntask x.nbar

/-- Offset of gang `k`'s section. -/
def gangOff (x : Header) (k : Nat) : Nat := x.lay.gang + k * (5120 + 128 * x.regs)

/-- A PC value has no reserved bit set (R6, R82). -/
def pcOk (v : Nat) : Bool := bits v 63 55 == 0 && bits v 5 3 == 0

/-- The reserved fields of a trap frame are zero (R6, R325). -/
def frameOk (bs : List Byte) : Bool := bits (fieldAt bs 0 4) 15 12 == 0 && fieldAt bs 12 4 == 0 && pcOk (fieldAt bs 16 8)

/-- The reserved fields of a lane record are zero and its codes are codes (R325). -/
def laneOk (bs : List Byte) : Bool :=
  let st := fieldAt bs 8 4
  pcOk (fieldAt bs 0 8) && fieldAt bs 28 4 == 0 && (List.range 3).all (fun j => frameOk (partAt bs (32 + 32 * j) 32)) &&
  decide (st < 128) && decide (bits st 1 0 < 3) && decide (bits st 5 4 < 3) && decide (fieldAt bs 12 4 < 2 ^ 15) &&
    (partAt bs 16 8).all (fun b => decide (b.toNat < 64)) && decide (fieldAt bs 24 4 < 64)

/-- A restartable command whose reserved fields are not zero, or with V = 1 that breaks R227 or the table (R6, R235). -/
def commandBad (live : Nat) (b : List Byte) : Bool :=
  let w := fieldAt b 28 4
  let v := fieldAt b 0x2C 4
  let src := fieldAt b 0 8
  let ssp := bits v 5 4
  let fab := bit w 19
  bits w 30 20 != 0 || bit w 3 || bits v 31 14 != 0 || bit v 7 || bit v 3 || fieldAt b 0x30 16 != 0 || (bit w 31 && (bits w 18 16 == 7 ||
    fieldAt b 0x28 4 == 0 || !bit live (bits w 7 4) || (!bit v 6 && bits v 13 8 != 0) || decide (65536 < fieldAt b 12 4) ||
    decide (65536 < fieldAt b 16 4) || decide (fieldAt b 12 4 * fieldAt b 16 4 < fieldAt b 24 4) ||
    (if fab then bit src 55 || (ssp != 0 && ssp != 3)
     else match ssp with
      | 0 => bits src 63 55 != 0
      | 1 => bits src 63 36 != 0
      | 2 => bits src 63 35 != 0
      | _ => bits src 63 32 != 0)))

/-- Reserved bits of a carried task and of a pending barrier operation are zero (R326). -/
def taskEntryOk (b : List Byte) : Bool :=
  bits (fieldAt b 0x84 4) 7 4 == 0 && decide (fieldAt b 0x84 4 < 2 ^ 17) && decide (bits (fieldAt b 0x84 4) 3 0 = 1 ∨ bits (fieldAt b 0x84 4) 3 0 = 2) &&
    decide (fieldAt b 0x88 4 < 2 ^ 12) && fieldAt b 0x8C 4 == 0 && fieldAt b 0xA0 96 == 0

def barEntryOk (w : Nat) : Bool := decide (w < 2 ^ 24) && bits w 23 22 != 3

/-- Every byte from one offset to another is zero. -/
def zeroFrom (bs : List Byte) (a z : Nat) : Bool := (partAt bs a (z - a)).all (· == 0#8)

/-- The bytes between the sections of an area, and after the last, are zero (R324). -/
def gapsOk (x : Header) (bs : List Byte) : Bool :=
  zeroFrom bs (x.lay.scr + x.ssize) x.lay.cmd && zeroFrom bs (x.lay.cmd + 64 * x.ncmd) x.lay.task &&
    zeroFrom bs (x.lay.bar + 8 * x.nbar) x.lay.total

/-- Every part of an area keeps to its format (R323). -/
def areaOk (x : Header) (bs : List Byte) : Bool :=
  gapsOk x bs &&
  (List.range x.gangs).all (fun k => !bit x.live k || (decide (fieldAt bs (gangOff x k) 4 < 2) &&
      decide (fieldAt bs (gangOff x k + 16) 4 < 16) && zeroFrom bs (gangOff x k + 0x28) (gangOff x k + 0x100) &&
      (List.range 32).all fun l => laneOk (partAt bs (gangOff x k + 1024 + 128 * l) 128))) &&
    (List.range x.ncmd).all (fun j => !commandBad x.live (partAt bs (x.lay.cmd + 64 * j) 64)) &&
    (List.range x.ntask).all (fun j => taskEntryOk (partAt bs (x.lay.task + 256 * j) 256)) &&
    (List.range x.nbar).all fun j => barEntryOk (fieldAt bs (x.lay.bar + 8 * j) 8)

/-! Rebuilding gangs (R323, R325). -/

/-- A frame as the area holds it; it is the trap's own while its TPC is the one that `old`, the frame of that depth at the save, held. -/
def frameAt (bs : List Byte) (old : Option Frame) : Frame :=
  let tpc := BitVec.ofNat 64 (fieldAt bs 16 8)
  { tcause := word32 (fieldAt bs 0 4), tdet0 := word32 (fieldAt bs 4 4), tdet1 := word32 (fieldAt bs 8 4), tpc := tpc
    taddr := BitVec.ofNat 64 (fieldAt bs 24 8)
    rewritten := match old with
      | some f => f.rewritten || f.tpc != tpc
      | none => true }

/-- A lane from its record and its registers. -/
def laneAt (bs : List Byte) (regs : List (BitVec 32)) (old : Lane) : Lane :=
  let st := fieldAt bs 8 4
  let depth := bits st 3 2
  { regs := (regs.zip (List.range regs.length)).foldl (fun t x => sput 0#32 t x.2 x.1) []
    preds := BitVec.ofNat 15 (fieldAt bs 12 4), mode := Mode.ofCode (bits st 1 0)
    frames := ((List.range depth).map fun j => frameAt (partAt bs (32 + 32 * j) 32) (old.frames.reverse[j]?)).reverse
    scnt := (partAt bs 16 8).map (·.toNat), fpstat := BitVec.ofNat 6 (fieldAt bs 24 4)
    run := match bits st 5 4 with
      | 0 => .active
      | 1 => .held
      | _ => .exited
    pc := BitVec.ofNat 64 (fieldAt bs 0 8) }

/-- The frontier that the lanes' PCs, modes and run states give (R87, R90, R323). -/
def rebuildFrontier (s : State) (vf ctx : Nat) (lanes : List Lane) : List Entry :=
  (lanes.zip laneNumbers).foldl (fun fr x =>
    if x.1.run = .active then
      addEntry { pc := x.1.pc, band := x.1.mode.band, prio := prioOf s vf ctx x.1.pc, mask := LaneMask.one x.2, busy := false } fr
    else fr) []

/-- A gang from its section. -/
def gangAt (s : State) (vf ctx : Nat) (x : Header) (bs : List Byte) (k : Nat) (old : Gang) : Gang :=
  if !bit x.live k then { Gang.blank with arrived := old.arrived }
  else
    let o := gangOff x k
    let lanes := (List.range 32).map fun l =>
      laneAt (partAt bs (o + 1024 + 128 * l) 128) ((List.range x.regs).map fun r => word32 (fieldAt bs (o + 5120 + 128 * r + 4 * l) 4))
        (old.lane l)
    let same := LaneMask.ofList (laneNumbers.filter fun l => (lanes.getD l Lane.blank).pc == pcFields (old.lane l).pc.toNat)
    { Gang.blank with
      lanes := lanes, frontier := rebuildFrontier s vf ctx lanes, retired := false
      g := (List.range 64).foldl (fun t r => sput 0#32 t r (word32 (fieldAt bs (o + 256 + 4 * r) 4))) []
      regioncnt := word32 (fieldAt bs (o + 4) 4), barPhase := BitVec.ofNat 4 (fieldAt bs (o + 16) 4)
      arrived := (List.range 4).foldl (fun t n => sput 0#32 t n (word32 (fieldAt bs (o + 20 + 4 * n) 4)))
        (old.arrived.filter fun a => decide (64 ≤ a.1))
      stopped := bit (fieldAt bs o 4) 0, stoppedAt := old.stoppedAt, illegal := old.illegal &&& same }

/-! Rebuilding copies, tasks and barrier operations (R201, R234, R258, R326). -/

/-- The difference of two counts known modulo 256, as a signed number. -/
def signed8 (a b : Nat) : Int := signExt ((a + 256 - b % 256) % 256) 8

/-- A count near `base`, of which the area holds the low eight bits, next to the FORMED of its channel. -/
def countNear (base formed v : Nat) : Nat := ((base : Int) + signed8 formed base + signed8 v formed).toNat

/-- The slice that a command describes. -/
def sliceAt (b : List Byte) (op : Nat) : Slice :=
  let w := fieldAt b 28 4
  let v := fieldAt b 0x2C 4
  let src := fieldAt b 0 8
  let fab := bit w 19
  { gang := bits w 7 4, op := op, lanes := word32 (fieldAt b 0x28 4), stream := bits v 2 0, scope := bits w 18 16
    pc := BitVec.ofNat 64 (fieldAt b 0x20 8), src := if fab then 0 else bits v 5 4, fab := fab, put := fab && bits v 5 4 == 3
    win := if bit v 6 then some (bits v 13 8) else none
    words := [word32 src, word32 (if fab then bits src 54 32 + src / 2 ^ 56 * 2 ^ 24 else src / 2 ^ 32), word32 (fieldAt b 8 4),
              word32 (fieldAt b 12 4), word32 (fieldAt b 16 4), word32 (fieldAt b 20 4)]
    done := fieldAt b 24 4, empty := false }

/-- An operation that a crew still has for something that its area carries: the one of the save, where it stays, or a new one. -/
def keepOp (old : Crew) (c : Crew) (p : Op → Bool) (fresh : Op) : Crew × Nat :=
  match old.ops.find? (fun o => p o && !(c.ops.any fun q => q.id == o.id)) with
  | some o => ({ c with ops := c.ops ++ [{ o with kind := fresh.kind }] }, o.id)
  | none => ({ c with ops := c.ops ++ [{ fresh with id := c.nextOp }], nextOp := c.nextOp + 1 }, c.nextOp)

/-- A new operation of lanes of a gang. -/
def plainOp (k : Nat) (lanes : LaneMask) (stream scope : Nat) (pc : Pc) (kind : OpKind) : Op :=
  { id := 0, gang := k, lanes := lanes, stream := stream, mask := 0, scope := scope, pc := pc, issue := 0, after := [], dropped := false
    looked := [], mod := 0, route := 0#64, got := [], kind := kind }

/-- Restores one command (R235): its slice joins the copy of its ordinal. -/
def restoreCommand (old : Crew) (formed : Nat → Nat) (c : Crew) (b : List Byte) : Crew :=
  let w := fieldAt b 28 4
  if !bit w 31 then c
  else
    let n := bits w 2 0
    let ch := c.channel n
    let seq := countNear (old.channel n).formed (formed n) (bits w 15 8)
    let x := sliceAt b 0
    let r := keepOp old c (fun o => o.gang == x.gang && o.lanes == x.lanes && o.stream == x.stream && (match o.kind with
        | .copy m q => m == n && q % 256 == bits w 15 8
        | _ => false)) (plainOp x.gang x.lanes x.stream x.scope x.pc (.copy n seq))
    let y := { x with op := r.2 }
    r.1.mapChannel n fun _ =>
      if ch.copies.any (fun z => z.seq == seq) then
        { ch with copies := ch.copies.map fun z => if z.seq = seq then { z with slices := z.slices ++ [y] } else z }
      else { ch with copies := ch.copies ++
          [{ seq := seq, slices := [y], formed := decide (seq < ch.formed), begun := false, reserve := false, cancelled := false, lost := false }] }

/-- A channel's counts as the header holds them (R324). -/
def restoreChannel (bs : List Byte) (old : Channel) (n : Nat) : Channel :=
  let f := fieldAt bs (0x120 + n) 1
  { wp := word32 (fieldAt bs (0x80 + 4 * n) 4), formed := countNear old.formed f f
    slices := (List.range 16).map fun k => countNear old.formed f (fieldAt bs (0xA0 + 16 * n + k) 1)
    copies := old.copies.filter fun x => x.cancelled }

/-- Restores one carried task to its table entry (R258, R326). The count of a crew task of a crew whose lanes have all exited has fallen
(R288). -/
def restoreTask (old : Crew) (now : Nat) (c : Crew) (b : List Byte) : Crew :=
  let tid := fieldAt b 0x80 4
  let e := tid % 64
  let st := fieldAt b 0x84 4
  let p := fieldAt b 0x88 4
  let r := b.take 128
  let lane := bits p 4 0
  let pc : Pc := BitVec.ofNat 64 (fieldAt b 0x98 8)
  let own := fun (o : Op) => o.gang == bits p 8 5 && o.lanes == LaneMask.one lane && o.stream == bits p 11 9 && (match o.kind with
      | .taskPost _ _ (some f) => f == e
      | _ => false)
  let x := if recKind r == 0x40 && !(old.ops.any own) && c.gangs.all (fun g => g.lanes.all fun l => l.run == .exited) then (c, 0)
    else keepOp old c own (plainOp (bits p 8 5) (LaneMask.one lane) (bits p 11 9) 2 pc (.taskPost 0 .vz (some e)))
  let prev := old.task e
  let ws := fun w => if wsTarget r w = 2 then
      if fieldAt b (0x90 + 4 * w) 4 = (recWset r w).len then WsState.arrived else .waiting
    else .unused
  x.1.mapTask e fun _ => Task.settle now
    { gen := tid / 64, state := if bits st 3 0 = 2 then .ready else .wait, status := 0, detail := 0, under := bit st 16, dep := bits st 15 8
      record := r, offset := prev.offset, lane := lane, gang := bits p 8 5, stream := bits p 11 9, op := x.2
      pc := pc, ws0 := ws 0, ws1 := ws 1, postedAt := prev.postedAt, readyAt := now, engine := 0 }

/-- An operation is the one that an OFFBAR entry names. -/
def isBar (l k st level num kind : Nat) (o : Op) : Bool :=
  o.gang == k && o.lanes == LaneMask.one l && o.stream == st && (match o.kind with
    | .barWait a b _ => a == level && b == num && kind == 0
    | .barSync a b sent _ => a == level && b == num && (kind == 2 || (kind == 1 && sent))
    | .barArrive a b _ | .barSent a b _ _ => a == level && b == num && kind == 2
    | _ => false)

/-- Restores one pending barrier operation (R326). An arrival that was sent while the crew was saved stays sent; one whose PHB is not the one
that the save wrote is held for it. -/
def restoreBar (s : State) (old : Crew) (c : Crew) (w : Nat) : Crew :=
  let l := bits w 4 0
  let k := bits w 8 5
  let st := bits w 11 9
  let level := bits w 14 12
  let num := bits w 20 15
  let phb := bit w 21
  let kind := bits w 23 22
  let p := isBar l k st level num kind
  let held := old.ops.find? (fun o => p o && !(c.ops.any fun q => q.id == o.id))
  let r := keepOp old c p (plainOp k (LaneMask.one l) st level 0#64 (match kind, held with
    | 0, _ => .barWait level num phb
    | 1, _ => .barSync level num true phb
    | _, some o => o.kind
    | _, none => .barArrive level num none))
  let same := held.any fun o => (barFields s old o).any fun f => f.2.2.1 == phb
  if kind ≠ 2 ∨ same then r.1
  else { r.1 with ops := r.1.ops.map fun o => if o.id = r.2 then { o with hold := some phb } else o }

/-! Placing the crew (R267, R317, R323). -/

/-- The crew's arrivals at camp, tract and fabric barriers are those of its area, at the barriers of the camp and tract where it resumes, where
their phase has not completed since (R16, R267, R317, R323). -/
def moveArrivals (s : State) (old new : Crew) (level count arr ph : Nat) : State :=
  (List.range count).foldl (fun s n =>
    let b := barIdOf s old 0 level n
    let b' := barIdOf s new 0 level n
    let e := s.endpoint b
    let held := bit arr n && bit ph n == e.phase
    let key := 64 * level + n
    if b == b' && held == (e.crews.contains old.uid || s.heldArr.contains (b, old.uid)) then s
    else
      let s1 := if e.crews.contains old.uid then s.setEndpoint { e with crews := e.crews.filter (· != old.uid) }
        else { s with heldArr := s.heldArr.filter (· != (b, old.uid)) }
      if held then
        let e' := s1.endpoint b'
        if level = 5 ∧ groupReachable s b' = false then { s1 with heldArr := s1.heldArr ++ [(b', old.uid)] }
        else s1.setEndpoint { e' with crews := e'.crews ++ [old.uid] }
      else s1.mapCrew old.uid fun c =>
        { c with garr := sput 0#16 c.garr key 0#16, gangs := c.gangs.map fun g => { g with arrived := sput 0#32 g.arrived key 0#32 } }) s

/-- The gangs of which some lane has a sent arrival at a gang barrier. -/
def sentGangs (gangs : List Gang) (n : Nat) : BitVec 16 :=
  (gangs.zip (List.range 16)).foldl (fun m x => if x.1.sentAt n = 0#32 then m else m ||| (1#16 <<< x.2)) 0#16

/-- The crew as its area describes it, on a core (R323): pending barrier operations in the order of their list (R326). -/
def crewAt (s : State) (old : Crew) (x : Header) (bs : List Byte) (core : Nat) : Crew :=
  let la := s.launchOf old
  let formed := fun n => fieldAt bs (0x120 + n) 1
  let gangs := (List.range x.gangs).map fun k => gangAt s la.vf la.ctx x bs k (old.gang k)
  let base : Crew :=
    { old with
      place := .core core, home := core / 8, lvl := (s.ctxAt la.vf la.ctx).cmpl == 1#1, pbase := x.pbase, succ := word32 x.succ, succSet := old.succSet || x.succ != 0, alloc := x.ssize
      noGang := bit x.flags 1, barPhase := BitVec.ofNat 16 (fieldAt bs 0x30 4)
      garr := (List.range 16).foldl (fun t n => sput 0#16 t (64 + n) (BitVec.ofNat 16 (fieldAt bs (0x38 + 2 * n) 2)))
        ((List.range 4).foldl (fun t n => sput 0#16 t n (sget 0#16 old.garr n &&& sentGangs gangs n))
          (old.garr.filter fun a => decide (128 ≤ a.1)))
      gangs := gangs
      scratch := pokeN [] 0 (partAt bs x.lay.scr x.ssize)
      channels := (List.range 8).map fun n => restoreChannel bs (old.channel n) n
      tasks := old.tasks.map fun t => if t.state = .wait ∨ t.state = .ready then { t with state := .none } else t
      ops := [], deadline := 20000#32, count := 0, slice := s.now }
  let c1 := (List.range x.ncmd).foldl (fun c j => restoreCommand old formed c (partAt bs (x.lay.cmd + 64 * j) 64)) base
  let c2 := (List.range x.ntask).foldl (fun c j => restoreTask old s.now c (partAt bs (x.lay.task + 256 * j) 256)) c1
  let c3 := (List.range x.nbar).foldl (fun c j => restoreBar s old c (fieldAt bs (x.lay.bar + 8 * j) 8)) c2
  let isBarOp := fun (o : Op) => (barFields s c3 o).isSome
  let ops := c3.ops.filter fun o => !isBarOp o
  { c3 with ops := (old.ops.filterMap fun o => ops.find? fun p => p.id == o.id) ++
              ops.filter (fun o => !(old.ops.any fun p => p.id == o.id)) ++ c3.ops.filter isBarOp }

/-- Resumes a crew from the bytes of its area. The core's instruction buffer is emptied: a gang that has executed the new bytes of a line
never executes the old ones (R313). -/
def resumeAt (s : State) (old : Crew) (bs : List Byte) (core : Nat) : State :=
  let x := headerOf bs
  let new := crewAt s old x bs core
  let s0 := { s.setCrew new with ibuf := s.ibuf.filter fun e => e.1 != core }
  let s1 := moveArrivals s0 old new 2 32 (fieldAt bs 0x58 4) (fieldAt bs 0x5C 4)
  let s2 := moveArrivals s1 old new 3 64 (fieldAt bs 0x60 8) (fieldAt bs 0x68 8)
  let s3 := moveArrivals s2 old new 5 64 (fieldAt bs 0x70 8) (fieldAt bs 0x78 8)
  settle s3 new.uid

/-! Cores and camps of a launch (R212, R241, R265, R377). -/

/-- Bytes of a camp's vault that a launch takes: its window, and its pipeline queues with their reserve records (R241, R260). -/
def Launch.vaultBytes (l : Launch) : Nat := l.vsize + (if l.pipe then l.qcap.foldl (fun n q => n + 64 * (q + 1)) 0 else 0)

/-- Bytes of a camp's vault in use. -/
def vaultUse (s : State) (camp : Nat) : Nat :=
  (s.vaults.filter fun v => v.camp == camp).foldl (fun n v => n + (match s.launch? v.launch with
    | some l => l.vaultBytes
    | none => v.size)) 0

/-- The launch holds, or can take, what it needs in a camp: vault space, and its reserve command entries (R241, R265). -/
def campRoom (s : State) (l : Launch) (camp : Nat) : Bool :=
  (s.vault? l.id camp).isSome ||
    (decide (vaultUse s camp + l.vaultBytes ≤ 32 * 2 ^ 20) &&
      (!l.pipe || [0, 1].all fun f => decide (flumeUse s camp f + flumeReserved s camp + l.stages.length ≤ 64)))

/-- Crews that a launch holds resident, or in its save region, are fewer than the region's areas (R378). -/
def areasLeft (s : State) (l : Launch) : Bool :=
  decide ((s.crews.filter fun c => c.launch == l.id && (match c.place with
    | .saved soft _ => !soft
    | _ => true)).length < l.savesz / l.area)

/-- A crew is asked to leave its core for a stage, or has left it and is saved (R262). -/
def leaving (s : State) (p : Nat × Nat × Nat) : Bool :=
  match s.crew? p.2.2 with
  | some c => c.place != .core p.1 || c.req
  | none => false

/-- The stage that a core is kept for: a crew was saved on it for that stage's queue, which still holds a record (R262). -/
def pledge (s : State) (l : Launch) (core : Nat) : Option Nat :=
  (l.pledges.find? fun p => p.1 == core && leaving s p && (match s.queue? l.id (core / 8) (p.2.1 - 1) with
    | some q => !q.recs.isEmpty
    | none => false)).map (·.2.1)

/-- A core is kept for a stage of a launch that can dispatch there, other than the given one (R262). -/
def pledged (s : State) (core : Nat) (but : Option Nat) : Bool :=
  s.launches.any fun m => some m.id != but && !m.done && areasLeft s m && (pledge s m core).isSome

/-- The launch enters a camp: its vault window of zeros and its queues (R241, R260). -/
def enterCamp (s : State) (l : Launch) (camp : Nat) : State :=
  match s.vault? l.id camp with
  | some _ => s
  | none =>
    { s with
      vaults := s.vaults ++ [{ launch := l.id, camp := camp, base := vaultUse s camp, size := l.vsize, bytes := [] }]
      queues := s.queues ++ (if l.pipe then (List.range l.qcap.length).map fun n =>
          { launch := l.id, camp := camp, num := n, recs := [], reserve := none } else []) }

/-! `ctxload` (R323). -/

/-- The status of a `ctxload`, and the crew and bytes when it is 0. A core of a tract that is not ready takes no crew (R395): it counts as
outside the placement. -/
def loadStatus (s : State) (c : Crew) (mode : Mode) (va core : Nat) : Nat × Option (Crew × List Byte) :=
  let la := s.launchOf c
  let w := la.who c.coreOf
  if (s.resident? core).isSome then (1, none)
  else if va % 64 ≠ 0 then (3, none)
  else match deviceRead s w va 512 with
    | none => (4, none)
    | some hd =>
      let x := headerOf hd
      if !headerOk hd then (3, none)
      else match s.crews.find? (fun d => d.launch == x.launch && crewidWord d == x.crewid && (match d.place with
          | .saved true _ => true
          | _ => false)) with
        | none => (6, none)
        | some d =>
          let ld := s.launchOf d
          if (if mode = .hyper then ld.vf = 0 else ¬(ld.vf = la.vf ∧ ld.ctx = la.ctx)) then (2, none)
          else if !sizesOk d x then (3, none)
          else match deviceRead s w va x.lay.total with
            | none => (4, none)
            | some bs =>
              if !coreAllowed s ld core || !tractReady s core || (s.vault? ld.id (core / 8)).isNone then (5, none)
              else if areaOk x bs then (0, some (d, bs)) else (3, none)

/-- `ctxload` (R323). -/
def execCtxload (h : Hdr) (d a c : Opnd) (s : State) : Host.Outcome State Fault Refusal :=
  issueSys s h d [(a, 2), (c, 1)] fun i s0 l =>
    let core := readWide i.g s.draws l c 1
    match loadStatus s0 i.c (i.g.lane l).mode (readWide i.g s.draws l a 2) core with
    | (0, some (x, bs)) => { state := resumeAt s0 x bs core, status := some 0, wait := .ctxload x.uid }
    | (n, _) => { state := s0, status := some n, wait := .ready }

/-! The landing resumes a crew that it saved (R327). -/

/-- A crew saved earlier by the landing, of the same queue, may go to the core: it goes first. -/
def earlierSaved (s : State) (c : Crew) (core : Nat) : Bool :=
  let l := s.launchOf c
  s.crews.any fun d => d.uid != c.uid && (match d.place with
      | .saved false _ => true
      | _ => false) && decide (d.slice < c.slice) && (let m := s.launchOf d
    m.vf == l.vf && m.ctx == l.ctx && m.queue == l.queue && coreAllowed s m core && campRoom s m (core / 8))

/-- `CREW_RESUME`: a crew that the landing saved takes a free core of its placement (R212, R327). -/
def execCrewResume (uid core : Nat) (s : State) : Host.Outcome State Fault Refusal :=
  match s.crew? uid with
  | none => finish s
  | some c =>
    let l := s.launchOf c
    match c.place with
    | .saved false va =>
      if c.terminating || (s.resident? core).isSome || !coreAllowed s l core || !tractReady s core || !campRoom s l (core / 8) || earlierSaved s c core || coopHolds s l core || stopHolds s l.vf || pledged s core none ||
          (l.vf != 0 && (s.func l.vf).vfshare == 0#16) then finish s
      else
        match deviceRead s (l.who (512 + core / 8)) va 512 with
        | none => finish s
        | some hd =>
          match deviceRead s (l.who (512 + core / 8)) va (headerOf hd).lay.total with
          | none => finish s
          | some bs => finish (if sizesOk c (headerOf bs) then resumeAt (enterCamp (stopOver s l.vf) l (core / 8)) c bs core else s)
    | _ => finish s

/-! The completion of system instructions (R314, R315, R322, R323, R387). -/

/-- The pending part of a system instruction may complete. -/
def sysDone (s : State) (k : SysKind) : Bool :=
  match k with
  | .ready => true
  | .tlbinv us => us.all fun u => match s.crew? u.1 with
    | some c => (c.op? u.2).isNone
    | none => true
  | .frmset n _ => !(s.crews.any fun c => readsRange c n)
  | .ctxsave u => match s.crew? u with
    | some c => !c.isResident || c.terminating
    | none => true
  | .ctxload u => match s.crew? u with
    | some c => !c.isResident || c.terminating || c.gangs.any fun g => g.line.isSome
    | none => true
  | .remote _ => false

/-- What a system instruction does as it completes. -/
def sysEffect (s : State) (k : SysKind) : State :=
  match k with
  | .frmset n v => { s with ranges := sins s.ranges n v }
  | _ => s

/-- `SYSTEM_INSTRUCTION_COMPLETE`: the part of one lane completes; the entry passes the instruction when the last part has (R314). -/
def execSystemInstructionComplete (uid k l : Nat) (s : State) : Host.Outcome State Fault Refusal :=
  match s.crew? uid with
  | none => finish s
  | some c =>
    match (c.gang k).sys.find? (fun w => w.lane == l && sysDone s w.kind) with
    | none => finish s
    | some w =>
      let s1 := (sysEffect s w.kind).mapGang uid k fun g => { g with sys := g.sys.filter fun x => !(x == w) }
      finish (goOn s1 uid k (LaneMask.one l) false)

end Sys2Proof.Machine
end

