-- ==== Sys2Proof/Machine/Launch.lean ====
section
/-!
DEFINITION. Launches: taking a record from its queue and checking it, the assignment of its windows, its completion record, its
cancellation, and the failure of a protected page (R367, R376 to R380, R388, R390, R409).
-/

namespace Sys2Proof.Machine

/-! The launch record (R377). -/

/-- A field of a record in host memory order. -/
abbrev LaunchRec := List Byte

/-- Bits of a record that no field takes, or that a field calls zero (R6, R377). -/
def launchReserved (r : LaunchRec) : Bool :=
  bits (fieldAt r 0 8) 63 11 != 0 || fieldAt r 0x12 2 != 0 || fieldAt r 0x21 3 != 0 || bits (fieldAt r 0x24 4) 31 21 != 0 ||
  fieldAt r 0x54 4 != 0 || bits (fieldAt r 0x68 4) 31 6 != 0 || bits (fieldAt r 0x6C 4) 31 4 != 0 || fieldAt r 0x7E 2 != 0 ||
  bits (fieldAt r 0x98 4) 31 7 != 0 || fieldAt r 0x9C 4 != 0 || bits (fieldAt r 0xA4 4) 15 6 != 0 || fieldAt r 0xAA 2 != 0 ||
  bits (fieldAt r 0xAC 4) 31 3 != 0 || fieldAt r 0xB8 72 != 0 || (bit (fieldAt r 0 4) 10 && bits (fieldAt r 0xA0 4) 31 16 != 0)

/-- The handle that a launch submitted as record `n` of a queue runs: an image admitted in place of OLD serves the launches submitted
after it (R367). -/
def newestHandle (s : State) (queue n : Nat) : Nat → Nat → Nat
  | 0, h => h
  | fuel + 1, h =>
    match s.image? h with
    | some i => match i.newer with
      | some (h', from_) =>
        if (n + 2 ^ 32 - nth0 from_ queue) % 2 ^ 32 < 2 ^ 31 then newestHandle s queue n fuel h' else h
      | none => h
    | none => h

/-- The image of a context with a handle. -/
def handleImage (s : State) (vf ctx h : Nat) : Option Image :=
  match s.image? h with
  | some i => if i.vf = vf ∧ i.ctx = ctx then some i else none
  | none => none

/-- One window declaration (R377), of a launch not yet known. -/
def windowOf (b : List Byte) : Window :=
  { launch := 0, home := bits (fieldAt b 0 4) 12 7, entry := bits (fieldAt b 0 4) 5 0, glob := bit (fieldAt b 0 4) 6
    size := fieldAt b 4 4, woff := fieldAt b 8 8, back0 := fieldAt b 16 8, back1 := fieldAt b 24 8, cur := false, gen := 0#32 }

/-- A declaration that breaks its table, or whose `.v` range passes VSIZE. -/
def windowBad (vsize : Nat) (b : List Byte) : Bool :=
  let w := windowOf b
  bits (fieldAt b 0 4) 31 13 != 0 || w.size == 0 || decide (2 ^ 20 < w.size) ||
    (if w.glob then decide (2 ^ 55 < w.woff + w.size) || decide (2 ^ 55 < w.back0 + w.size) || decide (2 ^ 55 < w.back1 + w.size)
     else w.back0 != 0 || w.back1 != 0 || decide (vsize < w.woff + 2 * w.size))

/-- Some two elements of a list are equal. -/
def repeats : List (Nat × Nat) → Bool
  | [] => false
  | x :: xs => xs.contains x || repeats xs

/-- What a record names, as a launch; `img` is its image and `wins` its window table. -/
def launchOfRecord (s : State) (vf ctx queue n : Nat) (desc : CtxDesc) (r : LaunchRec) (wins : List (List Byte)) : Launch :=
  let pipe := bit (fieldAt r 0 4) 9
  let stages := min (fieldAt r 0x6C 4 % 16) 8
  { Launch.blank with
    id := s.nextLaunch, vf := vf, ctx := ctx, tenant := fieldAt r 0xA8 2, queue := queue, desc := desc
    handle := newestHandle s queue n s.images.length (fieldAt r 8 8), coop := bit (fieldAt r 0 4) 8, pipe := pipe
    conf := bit (fieldAt r 0 4) 10, ncrew := fieldAt r 0x14 4, camps := BitVec.ofNat 64 (fieldAt r 0x18 8)
    cores := BitVec.ofNat 8 (fieldAt r 0x20 1), regs := fieldAt r 0x24 2, gangs := bits (fieldAt r 0x24 4) 20 16
    scratch := fieldAt r 0x28 4, psize := fieldAt r 0x2C 4, privbase := fieldAt r 0x30 8, savebase := fieldAt r 0x38 8
    savesz := fieldAt r 0x40 4, vsize := fieldAt r 0x44 4, stbl2 := fieldAt r 0x48 4, stbsp := fieldAt r 0x4C 4
    cbar := word32 (fieldAt r 0x50 4), tbar := BitVec.ofNat 64 (fieldAt r 0x58 8), fbar := BitVec.ofNat 64 (fieldAt r 0x60 8)
    fgroup := fieldAt r 0x68 4 % 64
    qcap := if pipe then (List.range (stages - 1)).map fun k => fieldAt r (0x70 + 2 * k) 2 else []
    stages := fieldAt r 0x10 2 :: (if pipe then (List.range (stages - 1)).map fun k => fieldAt r (0x82 + 2 * k) 2 else [])
    key := fieldAt r 0xA0 4, aclass := fieldAt r 0xAC 4 % 8, compl := fieldAt r 0xB0 8
    decls := wins.map fun b => { windowOf b with launch := s.nextLaunch }
    myid := s.fabid.toNat
    nextCrew := List.replicate 8 0 }

/-- The key slot of a launch's key handle holds a key that its VF owns (R388). -/
def keyHeld (s : State) (l : Launch) : Bool :=
  bits l.key 15 10 == l.vf && ownsSlot s l.vf (l.key % 1024) && s.keySlots.any fun e => e.1 == l.key % 1024

/-- The barriers that the sealed kernel names, by any of its entries, are not all set, or the module is no member of the fabric group (R178,
R379, R409). -/
def barriersBad (s : State) (l : Launch) (i : Image) : Bool :=
  i.kerns.any (fun k => k.cbar &&& ~~~l.cbar != 0#32 || k.tbar &&& ~~~l.tbar != 0#64 || k.fbar &&& ~~~l.fbar != 0#64) ||
    (l.fbar != 0#64 && !inGroup (groupWords s l.fgroup) s.fabid.toNat)

/-- The window table does not translate, or breaks code 6 (R379). -/
def windowsBad (s : State) (l : Launch) : Option (List (List Byte)) → Bool
  | none => true
  | some ws => decide (64 < ws.length) || ws.any (windowBad l.vsize) || l.decls.any (fun w => !(allowedCamps s l).getLsbD w.home) ||
      repeats (l.decls.map fun w => (w.home, w.entry))

/-- The refusal code of a record; 0 accepts it (R379). `wins` is none where the window table does not translate. -/
def launchRefusal (s : State) (r : LaunchRec) (l : Launch) (wins : Option (List (List Byte))) : Nat :=
  let n := fieldAt r 0x6C 4 % 16
  let kern := fun (i : Image) (e : Nat) => i.kerns[e]?.filter fun k => !k.vector
  if fieldAt r 0 1 ≠ 1 ∨ launchReserved r then 1
  else match handleImage s l.vf l.ctx l.handle with
    | none => 2
    | some i =>
      match kern i (l.stages.headD 0) with
      | none => 2
      | some k =>
        if (l.stages.any fun e => (kern i e).isNone) ∨ (l.pipe ∧ n ≠ 0 ∧ (kern i (fieldAt r 0x80 2)).isNone) then 2
        else if k.regs ≠ l.regs ∨ k.gangs ≠ l.gangs ∨ k.scratch ≠ l.scratch then 3
        else if barriersBad s l i then 4
        else if allowedCamps s l = 0#64 ∨ l.cores = 0#8 then 5
        else if windowsBad s l wins then 6
        else if (if l.pipe then n == 0 || decide (8 < n) || l.qcap.any (fun q => decide (q < 16) || decide (4096 < q)) else n != 0) then 7
        else if l.conf && !keyHeld s l then 8
        else if l.ncrew = 0 ∨ 2 ^ 20 < l.ncrew ∨ l.psize % 16 ≠ 0 ∨ 2 ^ 24 < l.psize ∨ l.vsize % 65536 ≠ 0 ∨ 32 * 2 ^ 20 < l.vsize ∨
            l.savesz % 64 ≠ 0 ∨ l.savesz < l.area ∨ (l.coop ∧ l.savesz < l.ncrew * l.area) then 9
        else 0

/-! The completion record (R379). -/

/-- The 32 bytes of a completion record. -/
def completionBytes (l : Launch) (code tick : Nat) : List Byte :=
  bytesOf 4 (l.status + code * 2 ^ 8) ++ bytesOf 4 l.retired ++ bytesOf 8 tick ++ bytesOf 4 (l.halted % 2 ^ 16) ++
  bytesOf 4 (match l.haltFirst with
    | some x => x.1
    | none => 0) ++
  bytesOf 4 (match l.haltFirst with
    | some x => x.2
    | none => 0xFFFFFFFF) ++ bytesOf 4 0

/-- The device as it acts in a launch's context outside its world. -/
def Launch.plain (l : Launch) (holder : Nat) : Who := { l.who holder with world := none }

/-- Writes a completion record where COMPL points: host memory, or a `.g` VA of the context. One that does not translate is lost. -/
def writeCompletion (s : State) (l : Launch) (code : Nat) : State :=
  let bs := completionBytes l code s.tick
  if bit l.compl 63 then { s with host := pokeN s.host (l.compl % 2 ^ 63) bs }
  else (deviceWrite s (l.plain 576) l.compl bs).getD s

/-! `LAUNCH_TAKE` (R376, R379, R380). -/

/-- A function accepts launches and admissions: it is ready, and no reset order of it runs or awaits acknowledgement (R393, R395). -/
def accepts (s : State) (vf : Nat) : Bool :=
  decide (vf < 64) && (s.func vf).ready && !(s.func vf).resetting && (s.func vf).tdisp != .error

/-- The window declarations that a record names. -/
def readWindows (s : State) (l : Launch) (r : LaunchRec) : Option (List (List Byte)) :=
  let n := fieldAt r 0x98 4 % 128
  if n = 0 then some []
  else (deviceRead s (l.plain 576) (fieldAt r 0x90 8) (32 * n)).map fun bs => (List.range n).map fun k => partAt bs (32 * k) 32

/-- The record of a launch with an index, with its refusal code. -/
def launchAt (s : State) (vf ctx queue n : Nat) (desc : CtxDesc) : Launch × Nat :=
  let r := peekN s.host (ringSlot desc queue n) 256
  let l0 := launchOfRecord s vf ctx queue n desc r []
  let wins := readWindows s l0 r
  let l := launchOfRecord s vf ctx queue n desc r (wins.getD [])
  (l, launchRefusal s r l wins)

/-- The next record of a queue is taken (R380): refused with a completion record, or queued for placement. -/
def takeLaunch (s : State) (vf ctx queue : Nat) (desc : CtxDesc) : State :=
  let x := s.ctxAt vf ctx
  let t := launchAt s vf ctx queue (nth0 x.lqTaken queue) desc
  let s1 := s.setCtx { x with desc := desc, lqTaken := modifyNth x.lqTaken queue fun n => (n + 1) % 2 ^ 32 }
  if t.2 = 0 then { s1 with launches := s1.launches ++ [t.1], nextLaunch := s1.nextLaunch + 1 }
  else writeCompletion s1 { t.1 with status := 1 } t.2

/-- `LAUNCH_TAKE`. -/
def execLaunchTake (vf ctx queue : Nat) (s : State) : Host.Outcome State Fault Refusal :=
  match readDesc s vf ctx with
  | some desc =>
    if accepts s vf && decide (queue < 8) && decide (ringUsed (s.ctxAt vf ctx) queue ≠ 0) then finish (takeLaunch s vf ctx queue desc)
    else finish s
  | none => finish s

/-! Windows (R241, R244). -/

/-- The camps in which a launch needs its vault window from the start: the homes of its `.v` windows. -/
def homesOf (l : Launch) : List Nat := ((l.decls.filter fun w => !w.glob).map (·.home)).eraseDups

/-- Every entry that a launch declares is free at its home, and every home has room for its vault window. -/
def windowsFree (s : State) (l : Launch) : Bool :=
  l.decls.all (fun w => (s.window? w.home w.entry).isNone) && (homesOf l).all (campRoom s l)

/-- The launch begins placement: it takes its vault window, queues and reserve entries in every camp of its placement that has room, and
its windows are assigned, with generation 0 (R241, R244, R260, R265). -/
def beginLaunch (s : State) (l : Launch) : State :=
  let s1 := ((List.range 64).filter fun k => (allowedCamps s l).getLsbD k && campRoom s l k).foldl (fun s k => enterCamp s l k)
    { s with windows := s.windows ++ l.decls }
  s1.mapLaunch l.id fun x => { x with begun := true, world := x.conf, wkey := sget 0 s.keySlots (x.key % 1024) }

/-! The end of a launch (R262, R379, R388, R390). -/

/-- Nothing of a launch is left to run: no crew, and unless it has been stopped, none to dispatch and no record queued. -/
def launchOver (s : State) (l : Launch) : Bool :=
  !(s.crews.any fun c => c.launch == l.id) &&
    (l.status != 0 || (l.undispatched == 0 && !(s.queues.any fun q => q.launch == l.id && q.held != 0)))

/-- The backings of a world's `.g` windows are overwritten with zeros. -/
def scrubBackings (s : State) (l : Launch) : State :=
  (s.windows.filter fun w => w.launch == l.id && w.glob).foldl (fun s w =>
    let s1 := (deviceWrite s (l.who (512 + w.home)) w.back0 (zeros w.size)).getD s
    (deviceWrite s1 (l.who (512 + w.home)) w.back1 (zeros w.size)).getD s1) s

/-- A dirty line of a world is invalidated without write-back: HBM still holds what it held before (R390). -/
def undoLine (s : State) (l : L2Line) : State :=
  match l.dirty, l.under with
  | true, some (w, bs) => { resealLine s l.line w with hbm := pokeN s.hbm (128 * l.line) bs }
  | _, _ => s

/-- The lines of a world leave L2: sealed and written back where `clean`, else dropped (R388, R390). -/
def dropWorld (s : State) (id : Nat) (clean : Bool) : State :=
  let ls := s.l2.filter fun x => x.world == some id
  let s1 := ls.foldl (if clean then writeBack else undoLine) s
  { s1 with l2 := s.l2.filter fun x => x.world != some id }

/-- What a launch holds is given up: windows, vault windows with their bytes, queues, barriers. -/
def releaseLaunch (s : State) (id : Nat) : State :=
  { s with
    windows := s.windows.filter fun w => w.launch != id, vaults := s.vaults.filter fun v => v.launch != id
    queues := s.queues.filter fun q => q.launch != id
    strings := s.strings.filter fun e => match e.bar with
      | .camp l _ _ | .tract l _ _ => l != id
      | _ => true }

/-- A launch ends (R379, R388). -/
def endLaunch (s : State) (l : Launch) : State :=
  let s1 := if l.world then dropWorld (scrubBackings s l) l.id (l.status != 4) else s
  (writeCompletion (releaseLaunch s1 l.id) l 0).mapLaunch l.id fun x => { x with done := true, world := false }

/-- `LAUNCH_COMPLETION`: every crew has retired (R379). -/
def execLaunchCompletion (id : Nat) (s : State) : Host.Outcome State Fault Refusal :=
  match s.launch? id with
  | some l => finish (if !l.done && launchOver s l then endLaunch s l else s)
  | none => finish s

/-- Ends every crew of a launch (R215). -/
def stopCrews (s : State) (id : Nat) : State :=
  ((s.crews.filter fun c => c.launch == id).map (·.uid)).foldl (fun s u => terminate s u none) s

/-- `LAUNCH_CANCEL`: system software cancels a launch (R215, R379). -/
def execLaunchCancel (id : Nat) (s : State) : Host.Outcome State Fault Refusal :=
  match s.launch? id with
  | some l =>
    finish (if l.done || l.status != 0 then s else stopCrews (s.mapLaunch id fun x => { x with status := 2 }) id)
  | none => finish s

/-! A protected page whose lines fail their check (R390). -/

/-- The ring of a launch's context. -/
def Launch.ring (l : Launch) : Ring :=
  { vf := l.vf, ctx := l.ctx, tenant := l.tenant, root := l.desc.s1root, cls := l.desc.cls, holder := 576 }

/-- The ring of a context, through its descriptor. -/
def ctxRing (s : State) (vf ctx : Nat) : Ring :=
  let d := (readDesc s vf ctx).getD (s.ctxAt vf ctx).desc
  { vf := vf, ctx := ctx, tenant := 0, root := d.s1root, cls := d.cls, holder := 576 }

/-- The ring of the PF's context 0. -/
def pfRing (s : State) : Ring := ctxRing s 0 0

/-- A record of the device that names no gang. -/
def deviceRecord (cause sev addr det0 det1 : Nat) : Record :=
  { cause := cause, sev := sev, core := 0, gang := 0, lanes := 0#32, pc := 0#64, addr := addr, region := 0#32
    scnt := List.replicate 8 0, det0 := det0, det1 := det1 }

/-- A record about another context goes to the PF's ring too, or waits there for room (R330, R390). -/
def tellPf (s : State) (l : Ring) (x : Record) : State :=
  let r := pfRing s
  if ringRoom s r 1 then putRecord s r (recordBytes l s.tick x)
  else
    { ringFull s r with
      ringWait := s.ringWait ++ [{ vf := r.vf, ctx := r.ctx, crew := 0, gang := none, recs := [x], org := (l.vf, l.ctx, l.tenant) }] }

/-- `GCM_CHECK_FAIL`: sealed lines at a VA of a world fail authentication; two records, and the world is torn down (R390). -/
def execGcmCheckFail (id va : Nat) (s : State) : Host.Outcome State Fault Refusal :=
  match s.launch? id with
  | none => finish s
  | some l =>
    if !l.world || l.done then finish s
    else match translate s (l.who 576) 0 va with
      | (_, .ok lf) =>
        if !lf.prot then finish s
        else
          let r := deviceRecord 0x23 2 va (lf.pa % 2 ^ 32) (lf.pa / 2 ^ 32)
          let s1 := giveRecords s l.ring 0 none .notice [r] fun s => s
          finish (tearDown (tellPf s1 l.ring r) id)
      | _ => finish s

end Sys2Proof.Machine
end

