-- ==== Sys2Proof/Machine/Landing.lean ====
section
/-!
DEFINITION. The landing: the dispatch of crews, the retirement of gangs and crews, and successors in place (R85, R103, R212 to
R214, R236, R237, R259, R260, R262, R378, R380 to R383).
-/

namespace Sys2Proof.Machine

/-! New crews (R85, R212, R213, R260). -/

/-- Bytes of the private region of one crew of a launch's shape (R377). -/
def Launch.privStep (l : Launch) : Nat := ceilDiv (32 * l.gangs * l.psize) 65536 * 65536

/-- The private base of a crew: by its number for stage 0; for a later stage somewhere in the launch's private region (R216, R377). -/
def privBase (s : State) (l : Launch) (stage num : Nat) : Nat :=
  if stage = 0 then l.privbase + num * l.privStep
  else l.privbase + Config.privateSlot s.draws % max 1 (l.ncrew * (l.privStep / 65536)) * 65536

/-- The gangs of a kernel at its entry, with a record in `g0`-`g15` (R85). -/
def freshGangs (s : State) (l : Launch) (k : Kern) (r : List (BitVec 32)) : List Gang :=
  let g := (r.zip (List.range 16)).foldl (fun t x => sput 0#32 t x.2 x.1) []
  List.replicate k.gangs (Gang.fresh k.mode k.pc (prioEnter s l.vf l.ctx k.pc 0) g)

/-- A crew that begins at a kernel. -/
def newCrew (s : State) (l : Launch) (stage num entry core : Nat) (k : Kern) (r : List (BitVec 32)) : Crew :=
  { Crew.fresh s.nextUid l.id num stage entry core k.regs k.scratch (privBase s l stage num)
      ((s.ctxAt l.vf l.ctx).cmpl == 1#1) (freshGangs s l k r) with slice := s.now }

/-- The kernel with an entry index of a launch's image. -/
def launchKernel (s : State) (l : Launch) (entry : Nat) : Option Kern :=
  match s.image? l.handle with
  | some i => i.kerns[entry]?
  | none => none

/-! The choice of what to place (R212, R262, R378, R380, R381, R383). -/

/-- A queue is full (R262). -/
def Queue.full (q : Queue) (cap : Nat) : Bool := decide (cap ≤ q.recs.length) || q.reserve.isSome

/-- The queues of a launch in a camp that hold records, as (number, held, capacity, full). -/
def stockedQueues (s : State) (l : Launch) (camp : Nat) : List (Nat × Nat × Nat × Bool) :=
  (List.range l.qcap.length).filterMap fun k => match s.queue? l.id camp k with
    | some q => if q.held = 0 then none else some (k, q.held, nth0 l.qcap k, q.full (nth0 l.qcap k))
    | none => none

/-- The stage whose crew the landing places next in a camp (R262); none with nothing to place. -/
def nextStage (s : State) (l : Launch) (camp : Nat) : Option Nat :=
  let qs := stockedQueues s l camp
  match qs.find? (fun q => q.2.2.2) with
  | some q => some (q.1 + 1)
  | none =>
    match qs.foldl (fun best q => match best with
        | none => some q
        | some b => if b.2.1 * q.2.2.1 ≤ q.2.1 * b.2.2.1 then some q else some b) none with
    | some q => some (q.1 + 1)
    | none => if 0 < l.undispatched then some 0 else none

/-- A launch has a crew that waits for a core of a camp. -/
def waitsFor (s : State) (l : Launch) (camp : Nat) : Bool :=
  !l.done && l.status == 0 && (allowedCamps s l).getLsbD camp &&
    (decide (0 < l.undispatched) || !(stockedQueues s l camp).isEmpty || s.crews.any fun c => c.launch == l.id && (match c.place with
      | .saved false _ => true
      | _ => false))

/-- A launch of the same context and a higher queue waits for a core of the camp, or an earlier launch of its queue has not begun
(R380, R381). -/
def outranked (s : State) (l : Launch) (camp : Nat) : Bool :=
  s.launches.any fun m => m.vf == l.vf && m.ctx == l.ctx && m.id != l.id && !m.done &&
    ((decide (l.queue < m.queue) && waitsFor s m camp) ||
      (m.queue == l.queue && decide (m.id < l.id) && !m.begun && m.status == 0 && !l.begun))

/-- The free cores of a launch's placement, lowest first: those of ready tracts that nothing else is kept for. -/
def freeCores (s : State) (l : Launch) : List Nat :=
  (List.range 512).filter fun k =>
    coreAllowed s l k && tractReady s k && (s.resident? k).isNone && campRoom s l (k / 8) && !(coopHolds s l k) && !(pledged s k (some l.id))

/-- A launch may begin placement (R241, R244, R388, R383): its windows are free, its key is held, and with COOP = 1 every crew finds a
core. -/
def mayBegin (s : State) (l : Launch) : Bool :=
  l.begun || (windowsFree s l && (!l.conf || keyHeld s l) && (!l.coop || decide (l.ncrew ≤ (freeCores s l).length)))

/-- A crew of the launch may be dispatched on a core. -/
def mayPlace (s : State) (l : Launch) (core : Nat) : Bool :=
  !l.done && l.status == 0 && accepts s l.vf && (l.vf == 0 || (s.func l.vf).vfshare != 0#16) &&
  tractReady s core && coreAllowed s l core && (s.resident? core).isNone && campRoom s l (core / 8) &&
  areasLeft s l && mayBegin s l && !(outranked s l (core / 8)) && !(coopHolds s l core) && !stopHolds s l.vf &&
  !(pledged s core (some l.id))

/-- A record leaves its queue; the reserve record moves into the room it leaves (R260, R261). -/
def Queue.pop (q : Queue) : Queue :=
  { q with recs := q.recs.tail ++ (match q.reserve with
             | some r => [r]
             | none => []), reserve := none }

/-- A crew of a stage is dispatched on a core (R212, R213, R260). -/
def dispatch (s : State) (l : Launch) (stage core : Nat) : State :=
  let s0 := enterCamp (stopOver (if l.begun then s else beginLaunch s l) l.vf) l (core / 8)
  let entry := nth0 l.stages stage
  let num := nth0 l.nextCrew stage
  match launchKernel s l entry with
  | none => s
  | some k =>
    let q := s0.queue? l.id (core / 8) (stage - 1)
    let r := if stage = 0 then [] else match q with
      | some q => q.recs.headD []
      | none => []
    let full := decide (stage ≠ 0) && (match q with
      | some q => q.full (nth0 l.qcap (stage - 1))
      | none => false)
    let c := newCrew s0 l stage num entry core k r
    let s1 := if stage = 0 then s0 else s0.mapQueue l.id (core / 8) (stage - 1) Queue.pop
    { s1 with crews := s1.crews ++ [{ c with fullAtStart := full }], nextUid := s1.nextUid + 1, draws := s1.draws + 1 }.mapLaunch l.id
      fun x => { x with nextCrew := modifyNth x.nextCrew stage (· + 1), latest := (stage, s.now, core / 8) :: x.latest.filter (·.1 != stage)
                        pledges := x.pledges.filter fun p => p.1 != core }

/-- The stage to dispatch on a core: the one it was left for, else the landing's choice (R262). -/
def stageFor (s : State) (l : Launch) (core : Nat) : Option Nat :=
  match pledge s l core with
  | some k => some k
  | none => nextStage s l (core / 8)

/-- The crew that a full queue needs out of the way, and the stage to dispatch in its place: the holder of the oldest push waiting to enter
it, where no crew of the next stage is resident or about to be dispatched in the camp and no core of the placement is free there. Of several
such queues, the lowest with a push waiting (R262). -/
def pushHolder (s : State) (l : Launch) (camp : Nat) : Option (Nat × Nat) :=
  if (freeCores s l).any fun k => k / 8 == camp then none
  else (stockedQueues s l camp).findSome? fun q =>
    if !q.2.2.2 || (s.crews.any fun c => c.launch == l.id && c.isResident && c.camp == camp && c.stage == q.1 + 1) ||
        (l.pledges.any fun p => p.1 / 8 == camp && p.2.1 == q.1 + 1 && leaving s p) then none
    else (oldestPush s l.id camp q.1).map fun x => (x.1, q.1 + 1)

/-- REQ is set on a crew so that a stage can take its core (R262). -/
def leaveFor (s : State) (l : Launch) (uid core stage : Nat) : State :=
  (requestPreempt s uid none).mapLaunch l.id fun x => { x with pledges := (core, stage, uid) :: x.pledges.filter fun p => p.1 != core }

/-- Another camp of a higher number has dispatched a crew of the stage in this very cycle: the lower camp comes first in its numbering (R13). -/
def tooLate (s : State) (l : Launch) (stage camp : Nat) : Bool :=
  l.latest.any fun x => x.1 == stage && x.2.1 == s.now && decide (camp < x.2.2)

/-- `CREW_PLACE`: the landing dispatches a crew of the launch on a free core; on a core that is not free it asks the holder of the oldest
waiting push to leave, where a full queue needs it (R212, R262). -/
def execCrewPlace (id core : Nat) (s : State) : Host.Outcome State Fault Refusal :=
  match s.launch? id with
  | none => finish s
  | some l =>
    match s.resident? core with
    | some c =>
      match pushHolder s l (core / 8) with
      | some h => finish (if l.pipe && c.launch == id && h.1 == c.uid then leaveFor s l c.uid core h.2 else s)
      | none => finish s
    | none =>
      if !mayPlace s l core then finish s
      else match stageFor s l core with
        | none => finish s
        | some 0 => finish (if (freeCores s l).head? = some core then dispatch s l 0 core else s)
        | some k => finish (if tooLate s l k (core / 8) then s else dispatch s l k core)

/-! Retirement (R103, R214, R236, R237, R259). -/

/-- Every lane of a gang has exited with every counter at zero (R214). -/
def gangOver (g : Gang) : Bool := !g.retired && g.lanes.all fun x => x.run == .exited && x.scnt.all (· == 0)

/-- Which of R237's checks the successor fails: 4, 1 or 2; 0 when it passes them. -/
def successorCheck (s : State) (c : Crew) : Nat :=
  match tidState c c.succ.toNat with
  | .live e =>
    let t := c.task e
    if recKind t.record ≠ 0x40 ∨ ¬(t.state = .wait ∨ t.state = .ready) then 4
    else match kernelAt s c (recParam t.record 0) with
      | none => 4
      | some k =>
        if c.alloc < k.scratch then 1
        else match imageAt s (s.launchOf c).vf (s.launchOf c).ctx c.succSite with
          | some i => if (i.exits.find? fun x => x.1 == c.succSite).map (·.2) = some k.sig then 0 else 2
          | none => 2
  | _ => 4

/-- Crew tasks that a crew does not name as its successor complete as terminated (R259). -/
def endCrewTasks (s : State) (c : Crew) : Crew :=
  ((List.range 64).filter fun e => (c.task e).state != .none && recKind (c.task e).record == 0x40 && e != c.succ.toNat % 64).foldl
    (fun c e => if (c.task e).state = .none then c else finishTask 65 s.now s.tick c e 2 0) c

/-- The launch counts one more retired crew. -/
def countRetired (s : State) (id : Nat) : State := s.mapLaunch id fun l => { l with retired := l.retired + 1 }

/-- A crew retires (R214, R237): its slot is freed, or is held for a successor that passes the checks. -/
def retireCrew (s : State) (c : Crew) : State :=
  if !c.succSet then dropCrew (countRetired s c.launch) c.uid
  else
    match successorCheck s c with
    | 0 =>
      let c1 := endCrewTasks s c
      match tidState c1 c1.succ.toNat with
      | .live _ => countRetired (s.setCrew { c1 with noGang := true }) c.launch
      | _ => dropCrew (countRetired s c.launch) c.uid
    | n => dropCrew (countRetired (writeRecord s (c.ring s) { deviceRecord 0x78 0 0 n 0 with core := c.coreOf }) c.launch) c.uid

/-- A gang retires: its registers are freed, and what waited for it alone goes on (R84, R103, R176, R228). -/
def retireGang (s : State) (c : Crew) (k : Nat) : State :=
  let c1 := formCopies (c.setGang k { Gang.blank with arrived := [] })
  settleCrew (s.setCrew c1) c.uid

/-- `GANG_RETIRE`. The last gang's retirement retires the crew; a record that finds no room holds it back (R330). -/
def execGangRetire (uid k : Nat) (s : State) : Host.Outcome State Fault Refusal :=
  match s.crew? uid with
  | none => finish s
  | some c =>
    if !c.isResident || c.terminating || k ≥ c.ngangs || !gangOver (c.gang k) then finish s
    else if c.liveGangs = [k] && c.succSet && successorCheck s c != 0 && !ringRoom s (c.ring s) 1 then
      finish (ringStall s (c.ring s) uid none)
    else
      let s1 := retireGang s c k
      match s1.crew? uid with
      | none => finish s1
      | some c1 => finish (if c1.liveGangs.isEmpty then retireCrew s1 c1 else s1)

/-- `SUCCESSOR_START`: a successor whose task is ready starts in place (R236, R237): the allocation, its bytes and the windows stay,
everything else is new; the crew task stays in RUN while the successor does (R259). -/
def execSuccessorStart (uid : Nat) (s : State) : Host.Outcome State Fault Refusal :=
  match s.crew? uid with
  | none => finish s
  | some c =>
    match c.place, tidState c c.succ.toNat with
    | .core core, .live e =>
      if !c.noGang || c.terminating || c.req || (c.task e).state != .ready then finish s
      else match kernelAt s c (recParam (c.task e).record 0) with
        | none => finish s
        | some k =>
          let l := s.launchOf c
          let n := newCrew s l c.stage c.crewid (recParam (c.task e).record 0) core k []
          finish { s with
            crews := s.crews.map fun x => if x.uid = uid then { n with alloc := c.alloc, scratch := c.scratch, named := some { c.task e with state := .run } } else x
            nextUid := s.nextUid + 1, draws := s.draws + 1 }
    | _, _ => finish s

end Sys2Proof.Machine
end

