-- ==== Sys2Proof/Machine/Pages.lean ====
section
/-!
DEFINITION. Page requests and their responses, and trap rings that have room again (R275, R276, R295, R296, R330, R398, R399).
-/

namespace Sys2Proof.Machine

/-! Lanes (R295, R296). -/

/-- The gangs of the module, by crew and number. -/
def allGangs (s : State) : List (Nat × Nat) := s.crews.flatMap fun c => (List.range c.gangs.length).map fun k => (c.uid, k)

/-- Lanes of a gang whose trap is due, and the operations of those that have left their instruction, which end without one. -/
def settleDue (s : State) (uid k : Nat) : State :=
  match s.crew? uid with
  | none => s
  | some c =>
    let due := (c.gang k).pages.filter fun p => p.due.isSome
    let at_ := fun (e : Entry) => due.filter fun p => e.busy && e.mask.getLsbD p.lane
    let gone := due.filter fun p => !((c.gang k).frontier.any fun e => e.busy && e.mask.getLsbD p.lane)
    let s1 := gone.foldl (fun s p => s.mapCrew uid fun c =>
      (c.completeId s.tick p.op).mapGang k fun g => { g with pages := g.pages.filter fun q => !(q == p) }) s
    (c.gang k).frontier.foldl (fun s e =>
      if (at_ e).isEmpty then s
      else (lateTraps s uid k ((at_ e).map (·.op)) ((at_ e).map fun p =>
        let t := p.due.getD (0, 0, 0, 0)
        { lane := p.lane, cause := t.1, pc := e.pc, tpc := e.pc, addr := t.2.1, det0 := t.2.2.1, det1 := t.2.2.2 })).getD
          (ringStall s (c.ring s) uid (some k))) s1

/-- Every lane with a trap due takes it, where the ring of its context has room. -/
def settleAllDue (s : State) : State := (allGangs s).foldl (fun s x => settleDue s x.1 x.2) s

/-- The lanes that wait on a request fault with cause 0x21 and a response code (R295). -/
def failLanes (s : State) (vf prg code : Nat) : State :=
  settleAllDue { s with
    crews := s.crews.map fun c => { c with
      gangs := c.gangs.map fun g => { g with
        pages := g.pages.map fun p =>
          if p.miss.vf = vf ∧ p.miss.prg = prg ∧ p.due = none then { p with due := some (0x21, p.miss.addr, p.miss.det, code) } else p } } }

/-- The operation's address, once known. -/
def OpKind.setAddr (k : OpKind) (a : Addr) : OpKind :=
  match k with
  | .load _ p z d => .load a p z d
  | .store _ z v => .store a z v
  | .atom _ op w v d pd => .atom a op w v d pd
  | .cas _ n x y d pd => .cas a n x y d pd
  | k => k

/-- The space of an operation. -/
def OpKind.space (k : OpKind) : Nat :=
  match k.addr? with
  | some (a, _) => a.space
  | none => 5

/-- The VA of an operation that waits on a page request, whether it is a shadow access, and its bytes. -/
def OpKind.pending? (k : OpKind) : Option (Nat × Bool × Nat) :=
  match k.addr? with
  | some (.page _ va shd, n) => some (va, shd, n)
  | _ => none

/-- One lane's access is walked again with the operands it read at issue (R296, R399): its operation may now perform; or it traps; or it
waits on another request. A trap is taken once every lane has been walked again. -/
def replayLane (s : State) (uid k : Nat) (p : PageWait) : State :=
  match s.crew? uid with
  | none => s
  | some c =>
    let drop := fun (s : State) => s.mapGang uid k fun g => { g with pages := g.pages.filter fun q => !(q == p) }
    let keep := fun (s : State) (q : PageWait) => s.mapGang uid k fun g => { g with pages := g.pages.map fun x => if x = p then q else x }
    match (c.op? p.op).bind fun o => o.kind.pending?.map fun x => (o, x) with
    | none => goOn (drop s) uid k (LaneMask.one p.lane) true
    | some (o, va, shd, n) =>
      match globResolve s c (c.who s (if p.user then .user else .super)) (.lane uid k p.lane) shd p.acc va n with
      | (s1, .addr a) =>
        goOn (drop (s1.mapCrew uid fun c => { c with ops := c.ops.map fun x => if x.id = o.id then { x with kind := o.kind.setAddr (a.inSpace o.kind.space) } else x }))
          uid k (LaneMask.one p.lane) false
      | (s1, .trap cause ad d0 d1) => keep s1 { p with due := some (cause, ad, d0, d1) }
      | (s1, .page x) => keep s1 { p with miss := x }

/-- The lanes that wait on a request, with their gangs. -/
def waitersOf (s : State) (vf prg : Nat) : List (Nat × Nat × PageWait) :=
  (allGangs s).flatMap fun x => ((s.gang x.1 x.2).pages.filter fun p => p.miss.vf == vf && p.miss.prg == prg && p.due == none).map
    fun p => (x.1, x.2, p)

/-! Engines and the Grader. -/

/-- A copy whose translation has given up at the byte that waited (R231). -/
def failCopyPage (s : State) (c : Crew) (chan addr : Nat) : State :=
  match nextSlice (c.channel chan) with
  | none => s
  | some (_, y) => raiseCopyFault s c chan y { sub := 4, addr := addr }

/-- A running task whose translation has given up at the byte that waited (R275, R276). -/
def failTaskPage (s : State) (c : Crew) (e addr : Nat) : State :=
  let t := c.task e
  if t.state ≠ .run then s
  else if recKind t.record = 8 then stageFault s c e { sub := 4, addr := addr } t.moved
  else faultTask s c e 0x21 4 addr ((millRest s c e).1.takeWhile fun x => x.1 != addr)

/-- A staging transfer whose translation has given up at the byte that waited (R263). -/
def failStagingPage (s : State) (c : Crew) (e w addr : Nat) : State :=
  match (c.task e).ws w with
  | .moving j => stagingFault s c e w { sub := 4, addr := addr } j
  | _ => s

/-- One joined engine or Grader is told that its request failed. -/
def failJoiner (s : State) (j : Joiner) : State :=
  match j with
  | .lane _ _ _ => s
  | .grader t => { s with admWait := s.admWait.map fun e => if e.1 = t then (t, { e.2 with failed := true }) else e }
  | .engine uid what n addr =>
    match s.crew? uid with
    | none => s
    | some c =>
      if c.terminating || !c.isResident then s
      else match what with
        | 0 => failCopyPage s c n addr
        | 1 => failTaskPage s c n addr
        | _ => failStagingPage s c (n / 2) (n % 2) addr

/-! The requests of a VF (R295). -/

/-- A request that has been sent. -/
def sentReq (s : State) (vf prg : Nat) : Option PageReq := (s.func vf).reqs.find? fun r => r.prg == prg && r.sent

def dropReq (s : State) (vf prg : Nat) : State := s.mapFunc vf fun f => { f with reqs := f.reqs.filter fun r => r.prg != prg }

/-- Everything joined to a request fails, with a response code. -/
def failReq (s : State) (vf : Nat) (r : PageReq) (code : Nat) : State :=
  failLanes (r.joined.eraseDups.foldl failJoiner (dropReq s vf r.prg)) vf r.prg code

/-- `PAGE_REQUEST_SEND`: the oldest queued request is sent, while the host's allocation has room. -/
def execPageRequestSend (vf : Nat) (s : State) : Host.Outcome State Fault Refusal :=
  let f := s.func vf
  match f.reqs.find? fun r => !r.sent with
  | some r =>
    if f.priOn && !f.prifail && decide ((f.reqs.filter fun r => r.sent).length < f.priAlloc) then
      finish (s.mapFunc vf fun f => { f with reqs := f.reqs.map fun x => if x.prg = r.prg then { x with sent := true } else x })
    else finish s
  | none => finish s

/-- `PAGE_RESPONSE_SUCCESS`: each joined access is walked again (R295, R399). Engines and the Grader walk again as they next act. -/
def execPageResponseSuccess (vf prg : Nat) (s : State) : Host.Outcome State Fault Refusal :=
  match sentReq s vf prg with
  | none => finish s
  | some _ => 
    finish (settleAllDue ((waitersOf s vf prg).foldl (fun s x => replayLane s x.1 x.2.1 x.2.2) (dropReq s vf prg)))

/-- `PAGE_RESPONSE_INVALID`. -/
def execPageResponseInvalid (vf prg : Nat) (s : State) : Host.Outcome State Fault Refusal :=
  match sentReq s vf prg with
  | none => finish s
  | some r => finish (failReq s vf r 1)

/-- `PAGE_RESPONSE_FAILURE`: PRIFAIL is set, and requests not yet sent fail as never sent. -/
def execPageResponseFailure (vf prg : Nat) (s : State) : Host.Outcome State Fault Refusal :=
  match sentReq s vf prg with
  | none => finish s
  | some r =>
    let s1 := failReq (s.mapFunc vf fun f => { f with prifail := true }) vf r 2
    finish (((s1.func vf).reqs.filter fun r => !r.sent).foldl (fun s r => failReq s vf r 0) s1)

/-! Room in a trap ring (R330). -/

/-- What follows once the records of a producer that waited have been written. -/
def Fate.act (s : State) (uid : Nat) (f : Fate) : State :=
  match f, s.crew? uid with
  | .notice, _ | _, none => s
  | .die 1 e, _ => stageDies s uid e
  | .die _ _, _ => terminate s uid none
  | .fault e, _ => taskDone s uid e 3 0
  | .failed op, some c => match c.op? op with
    | some o => endFailed s uid o
    | none => s
  | .stop chan seq, some c => match (c.channel chan).copies.find? fun x => x.seq == seq with
    | some x => stopCopy s uid chan x
    | none => s

/-- A record as it is now written: its counters are those of its lowest-numbered lane where a task ends with it (R275). -/
def Record.now (s : State) (w : RingWait) (x : Record) : Record :=
  match w.fate, s.crew? w.crew with
  | .fault _, some c => { x with scnt := ((c.gang x.gang).lane (lowest x.lanes)).scnt }
  | _, _ => x

/-- A producer that waits writes what the ring has room for, and goes on once it has written all (R330). -/
def giveOwed (s : State) (r : Ring) (w : RingWait) : State :=
  if !s.ringWait.contains w then s
  else
    let m := (ringSpace s r).getD w.recs.length
    let told : Ring := { r with vf := w.org.1, ctx := w.org.2.1, tenant := w.org.2.2 }
    let s1 := (w.recs.take m).foldl (fun s x => putRecord s r (recordBytes told s.tick (x.now s w))) s
    if w.recs.length ≤ m then w.fate.act { s1 with ringWait := s1.ringWait.filter (· != w) } w.crew
    else { s1 with ringWait := s1.ringWait.map fun x => if x = w then { w with recs := w.recs.drop m } else x }

/-- `TRAP_RING_ROOM`: the producers of a context go on once its ring has room. -/
def execTrapRingRoom (vf ctx : Nat) (s : State) : Host.Outcome State Fault Refusal :=
  let r := match s.launches.find? fun l => l.vf == vf && l.ctx == ctx with
    | some l => l.ring
    | none => ctxRing s vf ctx
  finish (if ringRoom s r 1 then
      let mine := s.ringWait.filter fun w => w.vf == vf && w.ctx == ctx
      let s1 := { s with ringWait := s.ringWait.filter fun w => !(w.vf == vf && w.ctx == ctx && w.recs.isEmpty) }
      settleAllDue ((mine.filter fun w => !w.recs.isEmpty).foldl (fun s w => giveOwed s r w) s1)
    else s)

end Sys2Proof.Machine
end

