-- ==== Sys2Proof/Machine/Device.lean ====
section
/-!
DEFINITION. The functions of the host port: their registers and doorbells, dirty logging, TDISP, function-level reset, module reset,
readiness, health and firmware (R295, R374, R375, R380, R389, R392 to R397, R402).
-/

namespace Sys2Proof.Machine

/-! Function-level reset (R393). -/

/-- The module's crews of a VF. -/
def crewsOf (s : State) (vf : Nat) : List Crew := s.crews.filter fun c => (s.launchOf c).vf == vf

/-- The records of one queue that have not been taken complete with status 3. -/
def failQueued (vf ctx queue : Nat) (desc : CtxDesc) : Nat → State → State
  | 0, s => s
  | n + 1, s =>
    let x := s.ctxAt vf ctx
    let l := (launchAt s vf ctx queue (nth0 x.lqTaken queue) desc).1
    let s1 := s.setCtx { x with lqTaken := modifyNth x.lqTaken queue fun n => (n + 1) % 2 ^ 32 }
    failQueued vf ctx queue desc n (writeCompletion s1 { l with status := 3 } 0)

/-- Step 1: nothing is accepted any more, and queued launches complete with status 3. -/
def resetQueues (s : State) (vf : Nat) : State :=
  let s1 := s.mapFunc vf fun f => { f with resetting := true, quiesced := false, admcons := f.admprod }
  let s2 := { s1 with admQueue := s1.admQueue.filter fun e => e.2.vf != vf, admWait := s1.admWait.filter fun e => e.2.vf != vf
                      seals := s1.seals.filter fun p => !(p.vf == vf && p.pending) }
  let s3 := (s2.launches.filter fun l => l.vf == vf && !l.done && !l.begun).foldl (fun s l =>
    (writeCompletion s { l with status := 3 } 0).mapLaunch l.id fun x => { x with status := 3, done := true }) s2
  (s3.ctxs.filter fun x => x.vf == vf).foldl (fun s x => match readDesc s vf x.ctx with
    | some d => (List.range 8).foldl (fun s q => failQueued vf x.ctx q d (min (ringUsed (s.ctxAt vf x.ctx) q) (2 ^ d.lqsz)) s) s
    | none => s) s3

/-- Step 2: the crews are terminated. -/
def resetCrews (s : State) (vf : Nat) : State :=
  let s1 := (crewsOf s vf).foldl (fun s c => terminate s c.uid none) s
  { s1 with launches := s1.launches.map fun (l : Launch) => if l.vf = vf ∧ l.done = false then { l with status := 3 } else l }

/-- Operations of the VF's crews that step 2 still waits for (R215). -/
def resetWaits (s : State) (vf : Nat) : Bool := (crewsOf s vf).any fun c => !c.ops.isEmpty

/-- Steps 3 to 8. -/
def resetRest (s : State) (vf : Nat) : State :=
  let s1 := (crewsOf s vf).foldl (fun s c => dropCrew s c.uid) s
  let ls := s1.launches.filter fun l => l.vf == vf && !l.done
  let s2 := ls.foldl (fun s l => if l.world then dropWorld s l.id false else s) s1
  let s3 := { s2 with keySlots := s2.keySlots.filter fun e => !(ownsSlot s2 vf e.1) }
  let s4 := ls.foldl (fun s l => releaseLaunch s l.id) (tlbDrop s3 (.vf vf))
  let s5 := { s4 with launches := s4.launches.map fun (l : Launch) => if l.vf = vf ∧ l.done = false then { l with done := true, world := false } else l }
  s5.mapFunc vf fun f =>
    { f with resetting := false, quiesced := true, reqs := [], err := f.tdisp != .unlocked
             tdisp := match f.tdisp with
               | .unlocked => .unlocked
               | _ => .error }

/-- The reset order runs as far as it can: steps 1 and 2, and the rest once every operation of the terminated crews has completed. -/
def resetOrder (s : State) (vf : Nat) : State :=
  let s1 := if (s.func vf).resetting then s else resetCrews (resetQueues s vf) vf
  if resetWaits s1 vf then s1 else resetRest s1 vf

/-- `FUNCTION_LEVEL_RESET` (R393): starts the reset order of a VF, or goes on with one that has started. -/
def execFunctionLevelReset (vf : Nat) (s : State) : Host.Outcome State Fault Refusal :=
  finish (if vf = 0 ∨ 64 ≤ vf then s else resetOrder s vf)

/-! TDISP (R392). -/

/-- A VF enters ERROR, with the reset order from step 1. -/
def enterError (s : State) (vf : Nat) : State := resetOrder (s.mapFunc vf fun f => { f with tdisp := .error, err := true }) vf

/-- The VF is in CONFIG_LOCKED or RUN. -/
def guarded (s : State) (vf : Nat) : Bool := (s.func vf).tdisp == .locked || (s.func vf).tdisp == .run

/-- A VF whose requests the device answers. -/
def isVf (s : State) (vf : Nat) : Bool := decide (1 ≤ vf) && decide (vf < 64) && (s.func vf).ready

/-- `LOCK_INTERFACE_REQUEST`. -/
def execLockInterfaceRequest (vf : Nat) (s : State) : Host.Outcome State Fault Refusal :=
  finish (if isVf s vf && (s.func vf).tdisp == .unlocked && !(s.func vf).resetting then s.mapFunc vf fun f => { f with tdisp := .locked } else s)

/-- `START_INTERFACE_REQUEST`: a new session begins (R389). -/
def execStartInterfaceRequest (vf : Nat) (s : State) : Host.Outcome State Fault Refusal :=
  finish (if isVf s vf && (s.func vf).tdisp == .locked && !(s.func vf).resetting then
    s.mapFunc vf fun f => { f with tdisp := .run, session := f.session + 1 } else s)

/-- `STOP_INTERFACE_REQUEST`: to ERROR; from ERROR, once QUIESCED, to CONFIG_UNLOCKED. -/
def execStopInterfaceRequest (vf : Nat) (s : State) : Host.Outcome State Fault Refusal :=
  finish (if !isVf s vf then s
    else if guarded s vf then enterError s vf
    else if (s.func vf).tdisp == .error && (s.func vf).quiesced then s.mapFunc vf fun f => { f with tdisp := .unlocked, err := false }
    else s)

/-- `IDE_STREAM_FAILURE`. -/
def execIdeStreamFailure (vf : Nat) (s : State) : Host.Outcome State Fault Refusal :=
  finish (if isVf s vf && guarded s vf then enterError s vf else s)

/-! Registers (R374, R375, R402). -/

/-- A function's register page answers: it is ready, and steps 1 to 7 of a reset do not run (R393, R395). -/
def answers (s : State) (vf : Nat) : Bool := decide (vf < 64) && (s.func vf).ready && !(s.func vf).resetting

/-- `ADMPROD` (R374). -/
def execAdmprod (vf value : Nat) (s : State) : Host.Outcome State Fault Refusal :=
  finish (if answers s vf then s.mapFunc vf fun f => { f with admprod := value % 2 ^ 32 } else s)

/-- `LQDB` (R374, R380): an index more than the ring's size ahead of the records taken is ignored. -/
def execLqdb (vf value : Nat) (s : State) : Host.Outcome State Fault Refusal :=
  let ctx := bits value 15 0
  let q := bits value 18 16
  let prod := bits value 63 32
  match readDesc s vf ctx with
  | none => finish s
  | some d =>
    let x := s.ctxAt vf ctx
    if answers s vf && accepts s vf && decide ((prod + 2 ^ 32 - nth0 x.lqTaken q) % 2 ^ 32 ≤ 2 ^ d.lqsz) then
      finish (s.setCtx { x with desc := d, lqProd := modifyNth x.lqProd q fun _ => prod })
    else finish s

/-- `PRICLR` (R295, R374). -/
def execPriclr (vf value : Nat) (s : State) : Host.Outcome State Fault Refusal :=
  finish (if answers s vf && bit value 0 then s.mapFunc vf fun f => { f with prifail := false } else s)

/-- `VF_CONTROL_WRITE` (R375): dropped, with a move to ERROR, while the VF is in CONFIG_LOCKED or RUN. -/
def execVfControlWrite (vf : Nat) (r : VfReg) (value : Nat) (s : State) : Host.Outcome State Fault Refusal :=
  finish (if !answers s 0 || decide (vf = 0) || decide (64 ≤ vf) then s
    else if guarded s vf then enterError s vf
    else s.mapFunc vf fun f => match r with
      | .vfshare => { f with vfshare := BitVec.ofNat 16 value }
      | .part => { f with part := BitVec.ofNat 64 value }
      | .s2root => { f with s2root := bits value 51 15 * 2 ^ 15 }
      | .keys => { f with keys := BitVec.ofNat 21 (bits value 9 0 + bits value 20 16 * 2 ^ 16) })

/-- FGRP of a group is about to change: the barriers of its placed launches keep the old registers for their current phases (R409). -/
def keepGroup (s : State) (g : Nat) : State :=
  (s.launches.filter fun l => l.begun && !l.done && l.fgroup == g).foldl (fun s l =>
    ((List.range 64).filter l.fbar.getLsbD).foldl (fun s n =>
      let e := s.endpoint (.fabric l.ctx g n)
      s.setEndpoint { e with fgrp := some (e.fgrp.getD (groupWords s g)) }) s) s

/-- A write of the PF's own blocks at an offset (R374, R397, R402). -/
def pfWrite (s : State) (offset value : Nat) : State :=
  if 0x1080 ≤ offset ∧ offset < 0x3000 ∧ offset % 128 = 0x20 then
    s.mapFunc ((offset - 0x1000) / 128) fun f => { f with logbase := BitVec.ofNat 64 (bits value 51 12 * 2 ^ 12 + value % 16) }
  else if 0x4400 ≤ offset ∧ offset < 0x4440 then
    let w := value % 2 ^ 16
    if 100 ≤ w ∧ w ≤ 600 then { s with power := sput 400#16 s.power ((offset - 0x4400) / 8) (BitVec.ofNat 16 w) } else s
  else if offset = 0x5000 then resendHeld { s with fabid := BitVec.ofNat 8 value }
  else if 0x5800 ≤ offset ∧ offset < 0x6000 then
    resendHeld { s with
      routes := sput 0#64 s.routes ((offset - 0x5800) / 8) (BitVec.ofNat 64 (bits value 63 63 * 2 ^ 63 + bits value 17 0)) }
  else if 0x6000 ≤ offset ∧ offset < 0x6800 then
    let k := (offset - 0x6000) / 8
    { keepGroup s (k / 4) with fgrp := sput 0#64 s.fgrp k (BitVec.ofNat 64 value) }
  else s

/-- `REGISTER_WRITE` (R374): an aligned write of CTXTBL, ADMQ, or a register of the PF's blocks; any other is ignored. -/
def execRegisterWrite (vf offset value : Nat) (s : State) : Host.Outcome State Fault Refusal :=
  finish (if !answers s vf || offset % 8 != 0 then s
    else if offset = 0x008 then s.mapFunc vf fun f => { f with ctxtbl := BitVec.ofNat 64 value }
    else if offset = 0x010 then
      s.mapFunc vf fun f => { f with admq := BitVec.ofNat 64 (bits value 63 12 * 2 ^ 12 + value % 16) }
    else if vf = 0 then pfWrite s offset value
    else s)

/-- FSTAT: READY, ERROR, the TDISP state, PRIFAIL, QUIESCED. -/
def Func.status (f : Func) : Nat :=
  f.ready.toNat + 2 * f.err.toNat + 4 * (if f.vf = 0 then 0 else f.tdisp.code) + 16 * f.prifail.toNat + 32 * f.quiesced.toNat

/-- A VF's control registers, by offset. -/
def vfControl (s : State) (vf off : Nat) : Nat :=
  let f := s.func vf
  match off with
  | 0x00 => f.vfshare.toNat
  | 0x08 => f.part.toNat
  | 0x10 => f.s2root
  | 0x18 => f.keys.toNat
  | 0x20 => f.logbase.toNat
  | 0x28 => f.logEn.toNat + 2 * f.logOvf.toNat + 4 * f.logAll.toNat + 8 * (stopHolds s vf).toNat
  | 0x30 => f.logprod.toNat
  | _ => 0

/-- LINKST of a link. -/
def linkStatus (s : State) (k : Nat) : Nat :=
  match s.links[k]? with
  | some x => x.state + 4 * x.failed.toNat + 2 ^ 32 * x.retries.toNat
  | none => 0

/-- The PF's own blocks, by offset. -/
def pfRead (s : State) (offset : Nat) : Nat :=
  if 0x1080 ≤ offset ∧ offset < 0x3000 then vfControl s ((offset - 0x1000) / 128) (offset % 128)
  else if offset = 0x4000 then s.readymap.toNat % 2 ^ 64
  else if offset = 0x4008 then s.readymap.toNat / 2 ^ 64
  else if 0x4100 ≤ offset ∧ offset < 0x41A8 then
    let item := fun k => (sget 0xFFFFFFFF#32 s.health k).toNat
    item ((offset - 0x4100) / 4) + 2 ^ 32 * item ((offset - 0x4100) / 4 + 1)
  else if 0x4400 ≤ offset ∧ offset < 0x4440 then (sget 400#16 s.power ((offset - 0x4400) / 8)).toNat
  else if offset = 0x5000 then s.fabid.toNat
  else if 0x5100 ≤ offset ∧ offset < 0x5190 then linkStatus s ((offset - 0x5100) / 8)
  else if 0x5800 ≤ offset ∧ offset < 0x6000 then (sget 0#64 s.routes ((offset - 0x5800) / 8)).toNat
  else if 0x6000 ≤ offset ∧ offset < 0x6800 then (sget 0#64 s.fgrp ((offset - 0x6000) / 8)).toNat
  else 0

/-- An aligned 8-byte host read of a function's page; a register that is write-only, or an offset that is not listed, reads as zero, and so
does a page that does not answer (R374, R393, R396, R397, R402). -/
def hostRead (s : State) (vf offset : Nat) : Nat :=
  if !answers s vf || offset % 8 != 0 then 0
  else match offset with
    | 0x000 => (s.func vf).status
    | 0x008 => (s.func vf).ctxtbl.toNat
    | 0x010 => (s.func vf).admq.toNat
    | 0x020 => (s.func vf).admcons
    | _ => if vf = 0 then pfRead s offset else 0

/-- `HOST_INBOUND_WRITE` (R375): bytes of sealed pages, and of pages pending admission, are dropped. -/
def execHostInboundWrite (pa : Nat) (bs : List (BitVec 8)) (s : State) : Host.Outcome State Fault Refusal :=
  finish ((bs.zip (paRange pa bs.length)).foldl (fun s x =>
    if hbmHas x.2 && (aliasAt s x.2).isNone && !pageSealed s x.2 true && !pageSealed s x.2 false then
      l1Drop (writeByte s none x.2 x.1) (x.2 / 128)
    else s) s)

/-! Dirty logging (R394). -/

/-- A write of LOGCTL changes one VF. -/
def logctl (s : State) (vf : Nat) (f : Func → Func) : Host.Outcome State Fault Refusal :=
  finish (if answers s 0 && decide (1 ≤ vf) && decide (vf < 64) then s.mapFunc vf f else s)

/-- `LOGCTL_EN`: setting EN counts entries afresh. -/
def execLogctlEn (vf value : Nat) (s : State) : Host.Outcome State Fault Refusal :=
  logctl s vf fun f => { f with logEn := bit value 0, logSince := if bit value 0 && !f.logEn then 0 else f.logSince }

/-- `LOGCTL_OVF_CLEAR`: writing 1 to OVF clears it, and entries count afresh. -/
def execLogctlOvfClear (vf value : Nat) (s : State) : Host.Outcome State Fault Refusal :=
  logctl s vf fun f => if bit value 1 then { f with logOvf := false, logSince := 0 } else f

/-- `LOGCTL_ALLDIRTY_CLEAR`: writing 1 to ALLDIRTY clears it. -/
def execLogctlAlldirtyClear (vf value : Nat) (s : State) : Host.Outcome State Fault Refusal :=
  logctl s vf fun f => if bit value 2 then { f with logAll := false } else f

/-- `LOGCTL_STOP`: every crew of the VF is to be saved in its launch's save region. -/
def execLogctlStop (vf value : Nat) (s : State) : Host.Outcome State Fault Refusal :=
  finish (if answers s 0 && decide (1 ≤ vf) && decide (vf < 64) && bit value 3 then
      ((crewsOf s vf).filter fun c => c.isResident && !c.terminating).foldl (fun s c => requestPreempt s c.uid none)
        (s.mapFunc vf fun f => { f with logStop := true })
    else s)

/-! Reset, readiness, health, firmware (R302, R389, R395, R396). -/

/-- `RESET`: every register and table is at its reset value. What HBM and host memory hold stays, a world's lines sealed. -/
def execReset (s : State) : Host.Outcome State Fault Refusal :=
  let s1 := s.worldLines.foldl sealLine s
  finish { State.reset with agenda := s.agenda, hbm := s1.hbm, host := s.host, poisoned := s.poisoned, draws := s.draws
                            firmware := s.firmware }

/-- `UNIT_READY`: a unit sets its READYMAP bit; a function is then READY. -/
def execUnitReady (unit : Nat) (s : State) : Host.Outcome State Fault Refusal :=
  finish (if unit ≥ 98 then s
    else
      let s1 := { s with readymap := s.readymap ||| (1#98 <<< unit) }
      if unit < 64 then s1.mapFunc unit fun f => { f with ready := true } else s1)

/-- `HEALTH_PREDICTION_UPDATE`: items 0 to 7 are tracts, 8 to 23 stacks, 24 to 41 links. -/
def execHealthPredictionUpdate (item value : Nat) (s : State) : Host.Outcome State Fault Refusal :=
  finish (if item < 42 then { s with health := sput 0xFFFFFFFF#32 s.health item (word32 value) } else s)

/-- `FIRMWARE_IMAGE_LOAD`: an image with a valid signature is accepted, and its measurement kept (R389). -/
def execFirmwareImageLoad (image : List (BitVec 8)) (s : State) : Host.Outcome State Fault Refusal :=
  finish (if Config.firmwareSigned image then { s with firmware := Config.firmwareMeasure image } else s)

end Sys2Proof.Machine
end

