-- ==== Sys2Proof/Machine/Debug.lean ====
section
/-!
DEFINITION. The debug port (R164, R333, R334, R375).
-/

namespace Sys2Proof.Machine

/-- A debug operation acts on a gang of the crew resident on a core; on one of a VF in CONFIG_LOCKED or RUN it is dropped, and the VF
enters ERROR (R375). -/
def debugOn (s : State) (core k : Nat) (f : Crew → Gang → State) : Host.Outcome State Fault Refusal :=
  match s.resident? core with
  | none => finish s
  | some c =>
    let vf := (s.launchOf c).vf
    if k ≥ c.ngangs then finish s
    else if guarded s vf then finish (enterError s vf)
    else finish (f c (c.gang k))

/-- `DEBUG_STOP`: the gang stops before its next switch point (R333). -/
def execDebugStop (core k : Nat) (s : State) : Host.Outcome State Fault Refusal :=
  debugOn s core k fun c g => if g.retired || g.stopped then s else s.setCrew (c.setGang k { g with stopReq := true })

/-- The lanes that executed a `brk` move to the next slot (R164). -/
def pastBreak (s : State) (c : Crew) (g : Gang) : List Entry :=
  let la := s.launchOf c
  let at_ := g.frontier.filter fun e => e.mask &&& g.stoppedAt != 0#32
  let moved := at_.map fun e =>
    { e with pc := pcNext e.pc, prio := prioEnter s la.vf la.ctx (pcNext e.pc) e.prio, mask := e.mask &&& g.stoppedAt }
  addEntries moved (dropLanes g.stoppedAt g.frontier)

/-- `DEBUG_RESUME`: a stopped gang continues, and a stop that has not taken effect is withdrawn (R333). -/
def execDebugResume (core k : Nat) (s : State) : Host.Outcome State Fault Refusal :=
  debugOn s core k fun c g => s.setCrew (c.setGang k (if g.stopped then
      { g with stopReq := false, stopped := false, frontier := pastBreak s c g, stoppedAt := 0#32, chosen := false }
    else { g with stopReq := false }))

/-- A load in flight, or an atomic that returns what it loads, has a register of a lane, or a `g` register of the gang, as its
destination (R334). -/
def inFlight (k : Nat) (item : DbgItem) (o : Op) : Bool :=
  o.gang == k && o.kind.reads && (match item with
    | .v l r => o.lanes.getLsbD l && (match o.kind.dst with
      | (.v q, n) => decide (q.val ≤ r) && decide (r < q.val + n)
      | _ => false)
    | .g r => (match o.kind.dst with
      | (.g q, n) => decide (q.val ≤ r) && decide (r < q.val + n)
      | _ => false)
    | .p l p => o.lanes.getLsbD l && (match o.kind.predDst with
      | some q => q.val == p
      | none => false)
    | _ => false)

/-- A field of a frame: TCAUSE, TPC, TADDR, TDET0, TDET1. -/
def Frame.field (f : Frame) : Nat → Nat
  | 0 => f.tcause.toNat
  | 1 => f.tpc.toNat
  | 2 => f.taddr.toNat
  | 3 => f.tdet0.toNat
  | 4 => f.tdet1.toNat
  | _ => 0

/-- A write of a field of a frame; reserved bits are not stored (R6). -/
def Frame.setField (f : Frame) (i v : Nat) : Frame :=
  match i with
  | 0 => { f with tcause := word32 (bits v 31 16 * 2 ^ 16 + bits v 11 0) }
  | 1 => { f with tpc := pcFields v, rewritten := true }
  | 2 => { f with taddr := BitVec.ofNat 64 v }
  | 3 => { f with tdet0 := word32 v }
  | 4 => { f with tdet1 := word32 v }
  | _ => f

/-- The value of an item; frames are numbered by depth, from 1 (R333). -/
def readItem (g : Gang) (item : DbgItem) : Nat :=
  match item with
  | .v l r => ((g.lane l).reg r).toNat
  | .p l p => ((g.lane l).pred p).toNat
  | .fpstat l => (g.lane l).fpstat.toNat
  | .pc l => (g.pcOf l).toNat
  | .mode l => (g.lane l).mode.band
  | .frame l d i => match (g.lane l).frames.reverse[d - 1]? with
    | some f => if d = 0 then 0 else f.field i
    | none => 0
  | .g r => (sget 0#32 g.g r).toNat

/-- `DEBUG_READ` (R333, R334). -/
def execDebugRead (core k : Nat) (item : DbgItem) (s : State) : Host.Outcome State Fault Refusal :=
  debugOn s core k fun c g => { s with dbgValue := readItem g item, dbgPending := c.ops.any (inFlight k item) }

/-- The lane re-enters the frontier under another mode. -/
def remode (s : State) (c : Crew) (g : Gang) (l : Nat) (m : Mode) : Gang :=
  let la := s.launchOf c
  let pc := g.pcOf l
  let g1 := g.mapLane l fun x => { x with mode := m }
  if (g.lane l).run = .active then (g1.pull l).join s la.vf la.ctx l pc else g1

/-- What a WRITE changes in a gang; a PC write acts as `lanepc` (R101, R333). -/
def writeItem (s : State) (c : Crew) (g : Gang) (item : DbgItem) (v : Nat) : Gang :=
  let la := s.launchOf c
  match item with
  | .v l r => if r < c.regs then g.mapLane l fun x => x.setReg r (word32 v) else g
  | .p l p => if p < 15 then g.mapLane l fun x => x.setPred p (bit v 0) else g
  | .fpstat l => g.mapLane l fun x => { x with fpstat := BitVec.ofNat 6 v }
  | .pc l =>
    if (g.lane l).run = .exited then g
    else
      let g1 := lanepcOn s la.vf la.ctx g l (BitVec.ofNat 64 v)
      if (g.lane l).frames.isEmpty then { g1 with stoppedAt := g1.stoppedAt &&& ~~~(LaneMask.one l) } else g1
  | .mode l => if (g.lane l).run = .exited then g else remode s c g l (Mode.ofCode (v % 4))
  | .frame l d i => g.mapLane l fun x =>
      if d = 0 then x else { x with frames := (modifyNth x.frames.reverse (d - 1) fun f => f.setField i v).reverse }
  | .g r => if r < 64 then { g with g := sput 0#32 g.g r (word32 v) } else g

/-- The lane that an item belongs to. -/
def itemLane : DbgItem → Nat
  | .v l _ | .p l _ | .fpstat l | .pc l | .mode l | .frame l _ _ => l
  | .g _ => 0

/-- `DEBUG_WRITE`: refused for a running gang; the write wins over a load in flight, which performs without its write-back (R334). -/
def execDebugWrite (core k : Nat) (item : DbgItem) (value : Nat) (s : State) : Host.Outcome State Fault Refusal :=
  debugOn s core k fun c g =>
    if !g.stopped || g.retired || decide (32 ≤ itemLane item) then s
    else
      let c1 := c.setGang k (writeItem s c g item value)
      s.setCrew { c1 with ops := c1.ops.map fun o => if inFlight k item o then { o with dropped := true } else o }

end Sys2Proof.Machine
end

