-- ==== Sys2Proof/Decode.lean ====
section
/-!
DEFINITION. Instruction words (R53, R58-R62, R76, R77): the fields of a word, the decoder with the encoding rules
ENC-01 to ENC-04 in their order (R79), and the encoder, both written from the encoding tables of chapters 03 to 18.
-/

namespace Sys2Proof

/-- The fields of an instruction word (R53), each as a natural number. -/
structure Raw where
  op : Nat
  mod : Nat
  pred : Nat
  pneg : Nat
  late : Nat
  latn : Nat
  nwb : Nat
  ret : Nat
  d : Nat
  a : Nat
  b : Nat
  c : Nat
  x : Nat
  deriving DecidableEq, Repr

/-- Which of ENC-01 to ENC-04 an encoding fails first (R79). -/
inductive EncErr where
  | enc01 | enc02 | enc03 | enc04
  deriving DecidableEq, Repr

/-- The fields of a 96-bit word (R53). -/
def Raw.ofWord (w : Nat) : Raw :=
  { op := bits w 95 86, mod := bits w 85 80, pred := bits w 79 76, pneg := bits w 75 75, late := bits w 74 74
    latn := bits w 73 71, nwb := bits w 70 70, ret := bits w 69 68, d := bits w 67 57, a := bits w 56 46
    b := bits w 45 35, c := bits w 34 24, x := bits w 23 0 }

/-- The 96-bit word of the fields (R53). -/
def Raw.toWord (r : Raw) : Nat :=
  r.op * 2 ^ 86 + r.mod * 2 ^ 80 + r.pred * 2 ^ 76 + r.pneg * 2 ^ 75 + r.late * 2 ^ 74 + r.latn * 2 ^ 71 +
    r.nwb * 2 ^ 70 + r.ret * 2 ^ 68 + r.d * 2 ^ 57 + r.a * 2 ^ 46 + r.b * 2 ^ 35 + r.c * 2 ^ 24 + r.x

/-- IMM32, or the signed line offset, of formats I and B: bits [45:14] (R58). -/
def Raw.imm (r : Raw) : Nat := r.b * 2 ^ 21 + r.c * 2 ^ 10 + r.x / 2 ^ 14

/-- The X field of formats I and B: bits [13:0]. -/
def Raw.x14 (r : Raw) : Nat := r.x % 2 ^ 14

/-! ## Codes of the enumerated fields -/

def Opnd.code : Opnd → Nat
  | .v n => n.val
  | .b n => 1536 + n.val
  | .g n => 1544 + n.val
  | .vz => 2047

/-- The operand of a code (R56); a reserved code reads as `vz` and has been refused by ENC-03. -/
def Opnd.ofCode (c : Nat) : Opnd :=
  if h : c < 1536 then .v ⟨c, h⟩
  else if c < 1544 then .b (Fin.ofNat 8 (c - 1536))
  else if c < 1608 then .g (Fin.ofNat 64 (c - 1544))
  else .vz

def ElTy.code : ElTy → Nat
  | .i32 => 0 | .n32 => 1 | .i64 => 2 | .n64 => 3 | .i16x2 => 4 | .n16x2 => 5 | .i8x4 => 6 | .n8x4 => 7

def ElTy.ofCode : Nat → ElTy
  | 0 => .i32 | 1 => .n32 | 2 => .i64 | 3 => .n64 | 4 => .i16x2 | 5 => .n16x2 | 6 => .i8x4 | _ => .n8x4

def FlTy.code : FlTy → Nat
  | .f32 => 0 | .f16x2 => 1 | .bf16x2 => 2

def FlTy.ofCode : Nat → FlTy
  | 0 => .f32 | 1 => .f16x2 | _ => .bf16x2

def Rnd.code : Rnd → Nat
  | .rn => 0 | .rz => 1 | .rp => 2 | .rm => 3 | .ra => 4

def Rnd.ofCode : Nat → Rnd
  | 0 => .rn | 1 => .rz | 2 => .rp | 3 => .rm | _ => .ra

def Scope.code : Scope → Nat
  | .gang => 0 | .crew => 1 | .camp => 2 | .tract => 3 | .package => 4 | .fabric => 5 | .system => 6

/-- Scope 7 is reserved (R60). -/
def Scope.ofCode : Nat → Option Scope
  | 0 => some .gang | 1 => some .crew | 2 => some .camp | 3 => some .tract | 4 => some .package
  | 5 => some .fabric | 6 => some .system | _ => none

def CmpCC.code : CmpCC → Nat
  | .eq => 0 | .ne => 1 | .lt => 2 | .le => 3 | .gt => 4 | .ge => 5

def CmpCC.ofCode : Nat → Option CmpCC
  | 0 => some .eq | 1 => some .ne | 2 => some .lt | 3 => some .le | 4 => some .gt | 5 => some .ge | _ => none

def FcmpCC.code : FcmpCC → Nat
  | .eq => 0 | .ne => 1 | .lt => 2 | .le => 3 | .gt => 4 | .ge => 5 | .num => 6 | .nan => 7 | .equ => 8 | .neu => 9
  | .ltu => 10 | .leu => 11 | .gtu => 12 | .geu => 13

def FcmpCC.ofCode : Nat → Option FcmpCC
  | 0 => some .eq | 1 => some .ne | 2 => some .lt | 3 => some .le | 4 => some .gt | 5 => some .ge | 6 => some .num
  | 7 => some .nan | 8 => some .equ | 9 => some .neu | 10 => some .ltu | 11 => some .leu | 12 => some .gtu
  | 13 => some .geu | _ => none

/-- OP at [13:12] and PC at [11:8] of cmp's X (R117). -/
def Comb.code : Comb → Nat
  | .none => 0
  | .and pc => 1 * 2 ^ 12 + pc.val * 2 ^ 8
  | .or pc => 2 * 2 ^ 12 + pc.val * 2 ^ 8
  | .xor pc => 3 * 2 ^ 12 + pc.val * 2 ^ 8

def Comb.ofCode (x : Nat) : Option Comb :=
  let pc := bits x 11 8
  if h : pc < 15 then
    match bits x 13 12 with
    | 0 => some .none
    | 1 => some (.and ⟨pc, h⟩)
    | 2 => some (.or ⟨pc, h⟩)
    | _ => some (.xor ⟨pc, h⟩)
  else none

def PredOpt.code : PredOpt → Nat
  | some p => p.val
  | none => 15

def PredOpt.ofCode (c : Nat) : PredOpt := if h : c < 15 then some ⟨c, h⟩ else none

def CvtTy.ofCode : Nat → CvtTy
  | 0 => .i32 | 1 => .n32 | 2 => .i64 | 3 => .n64 | 4 => .i16 | 5 => .n16 | 6 => .i8 | 7 => .n8 | 8 => .f32
  | 9 => .f16 | 10 => .bf16 | 11 => .f8e4 | 12 => .f8e5 | 13 => .f6e2 | 14 => .f6e3 | _ => .f4e2

def PackTy.code : PackTy → Nat
  | .i32i16 => 0 | .n32n16 => 1 | .i16i8 => 2 | .n16n8 => 3 | .f32f16 => 4 | .f32bf16 => 5 | .f16e4 => 6 | .f16e5 => 7
  | .bf16e4 => 8 | .bf16e5 => 9 | .f16f6e2 => 10 | .f16f6e3 => 11 | .f16f4e2 => 12

def PackTy.ofCode : Nat → PackTy
  | 0 => .i32i16 | 1 => .n32n16 | 2 => .i16i8 | 3 => .n16n8 | 4 => .f32f16 | 5 => .f32bf16 | 6 => .f16e4 | 7 => .f16e5
  | 8 => .bf16e4 | 9 => .bf16e5 | 10 => .f16f6e2 | 11 => .f16f6e3 | _ => .f16f4e2

def ShflMode.code : ShflMode → Nat
  | .pick => 0 | .rot => 1 | .slide => 2 | .swz => 3

def ShflMode.ofCode : Nat → ShflMode
  | 0 => .pick | 1 => .rot | 2 => .slide | _ => .swz

def VoteMode.code : VoteMode → Nat
  | .every => 0 | .some => 1 | .same => 2 | .odd => 3

def VoteMode.ofCode : Nat → VoteMode
  | 0 => .every | 1 => .some | 2 => .same | _ => .odd

def RedOp.code : RedOp → Nat
  | .add => 0 | .minI => 1 | .maxI => 2 | .minN => 3 | .maxN => 4 | .and => 5 | .or => 6 | .xor => 7 | .fadd => 8
  | .fmin => 9 | .fmax => 10

def RedOp.ofCode : Nat → RedOp
  | 0 => .add | 1 => .minI | 2 => .maxI | 3 => .minN | 4 => .maxN | 5 => .and | 6 => .or | 7 => .xor | 8 => .fadd
  | 9 => .fmin | _ => .fmax

def BarLevel.code : BarLevel → Nat
  | .gang => 0 | .crew => 1 | .camp => 2 | .tract => 3 | .fabric => 5

/-- Levels 4, 6 and 7 are reserved (R60). -/
def BarLevel.ofCode : Nat → Option BarLevel
  | 0 => some .gang | 1 => some .crew | 2 => some .camp | 3 => some .tract | 5 => some .fabric | _ => none

def Size.code : Size → Nat
  | .n8 => 0 | .i8 => 1 | .n16 => 2 | .i16 => 3 | .b32 => 4 | .b64 => 5 | .b128 => 6

def Size.ofCode : Nat → Option Size
  | 0 => some .n8 | 1 => some .i8 | 2 => some .n16 | 3 => some .i16 | 4 => some .b32 | 5 => some .b64
  | 6 => some .b128 | _ => none

def Policy.code : Policy → Nat
  | .norm => 0 | .strm => 1 | .l2 => 2

def Policy.ofCode : Nat → Policy
  | 0 => .norm | 1 => .strm | _ => .l2

def AtomOp.code : AtomOp → Nat
  | .add => 0 | .minI => 1 | .maxI => 2 | .minN => 3 | .maxN => 4 | .and => 5 | .or => 6 | .xor => 7 | .exch => 8
  | .inc => 9 | .dec => 10 | .fadd => 11

def AtomOp.ofCode : Nat → AtomOp
  | 0 => .add | 1 => .minI | 2 => .maxI | 3 => .minN | 4 => .maxN | 5 => .and | 6 => .or | 7 => .xor | 8 => .exch
  | 9 => .inc | 10 => .dec | _ => .fadd

def AWidth.code : AWidth → Nat
  | .w32 => 4 | .w64 => 5

/-- Size codes 4 and 5; any other code is reserved for an atomic. -/
def AWidth.ofCode : Nat → Option AWidth
  | 4 => some .w32 | 5 => some .w64 | _ => none

def HostOp.code : HostOp → Nat
  | .add _ => 0 | .exch _ => 1 | .cas _ => 2

def HostOp.size : HostOp → Nat
  | .add w => w.code | .exch w => w.code | .cas s => s.code

def HostOp.ofCode (m s : Nat) : Option HostOp :=
  match m with
  | 0 => (AWidth.ofCode s).map .add
  | 1 => (AWidth.ofCode s).map .exch
  | _ => (Size.ofCode s).map .cas

def FabOp.code : FabOp → Nat
  | .rmw op => op.code
  | .cas => 12

def FabOp.ofCode (m : Nat) : FabOp := if m < 12 then .rmw (AtomOp.ofCode m) else .cas

def CopySrc.code : CopySrc → Nat
  | .g => 0 | .v => 1 | .n => 2 | .s => 3

def CopySrc.ofCode : Nat → CopySrc
  | 0 => .g | 1 => .v | 2 => .n | _ => .s

/-- Special register indexes (R104). -/
def SReg.code : SReg → Nat
  | .laneid => 0x000 | .gangid => 0x001 | .crewid => 0x002 | .campid => 0x003 | .tractid => 0x004 | .coreid => 0x005
  | .mode => 0x008 | .cmpl => 0x009 | .fpstat => 0x00A | .scnt n => 0x010 + n.val | .regioncnt => 0x018
  | .frontier => 0x019 | .svec => 0x020 | .hvec => 0x021 | .trapring => 0x022 | .hintdrop => 0x023 | .preempt => 0x028
  | .deadline => 0x029 | .quantum => 0x02A | .tcause => 0x030 | .tpc => 0x031 | .taddr => 0x032 | .tdet0 => 0x033
  | .tdet1 => 0x034

def SReg.ofCode : Nat → Option SReg
  | 0x000 => some .laneid | 0x001 => some .gangid | 0x002 => some .crewid | 0x003 => some .campid
  | 0x004 => some .tractid | 0x005 => some .coreid | 0x008 => some .mode | 0x009 => some .cmpl
  | 0x00A => some .fpstat | 0x010 => some (.scnt 0) | 0x011 => some (.scnt 1) | 0x012 => some (.scnt 2)
  | 0x013 => some (.scnt 3) | 0x014 => some (.scnt 4) | 0x015 => some (.scnt 5) | 0x016 => some (.scnt 6)
  | 0x017 => some (.scnt 7) | 0x018 => some .regioncnt | 0x019 => some .frontier | 0x020 => some .svec
  | 0x021 => some .hvec | 0x022 => some .trapring | 0x023 => some .hintdrop | 0x028 => some .preempt
  | 0x029 => some .deadline | 0x02A => some .quantum | 0x030 => some .tcause | 0x031 => some .tpc
  | 0x032 => some .taddr | 0x033 => some .tdet0 | 0x034 => some .tdet1 | _ => none

def L2Mode.code : L2Mode → Nat
  | .clr => 5 | .six => 6 | .seven => 7

/-- NA to AC at X[5:0] (R142). -/
def Mods.code (m : Mods) : Nat :=
  m.na.toNat + 2 * m.nb.toNat + 4 * m.nc.toNat + 8 * m.aa.toNat + 16 * m.ab.toNat + 32 * m.ac.toNat

def Mods.ofCode (x : Nat) : Mods :=
  { na := bit x 0, nb := bit x 1, nc := bit x 2, aa := bit x 3, ab := bit x 4, ac := bit x 5 }

/-- STREAM at [23:21] and MASK at [20:13] (R58). -/
def Clause.code (c : Clause) : Nat := c.stream.val * 2 ^ 21 + c.mask.toNat * 2 ^ 13

def Clause.ofCode (x : Nat) : Clause := { stream := Fin.ofNat 8 (bits x 23 21), mask := BitVec.ofNat 8 (bits x 20 13) }

def EngArg.code (e : EngArg) : Nat := e.clause.code + e.scope.code * 2 ^ 10

def EngArg.ofCode (x : Nat) : Option EngArg :=
  (Scope.ofCode (bits x 12 10)).map fun s => { clause := Clause.ofCode x, scope := s }

def Raw.hdr (r : Raw) : Hdr :=
  { pred := BitVec.ofNat 4 r.pred, pneg := r.pneg == 1, late := r.late == 1, latn := BitVec.ofNat 3 r.latn
    nwb := r.nwb == 1, ret := BitVec.ofNat 2 r.ret }

/-! ## The encoder -/

/-- A word of formats A, M, W and E. -/
def Raw.mk' (h : Hdr) (op mod d a b c x : Nat) : Raw :=
  { op := op, mod := mod, pred := h.pred.toNat, pneg := h.pneg.toNat, late := h.late.toNat, latn := h.latn.toNat
    nwb := h.nwb.toNat, ret := h.ret.toNat, d := d, a := a, b := b, c := c, x := x }

/-- A word of formats I and B: 32 bits at [45:14] (R58). -/
def Raw.mkI (h : Hdr) (op mod d a imm x14 : Nat) : Raw :=
  Raw.mk' h op mod d a (imm / 2 ^ 21) (imm / 2 ^ 10 % 2 ^ 11) (imm % 2 ^ 10 * 2 ^ 14 + x14)

/-- Format A with operand B, or format I (R59). -/
def Raw.mkB (h : Hdr) (op mod : Nat) (d a : Opnd) (b : SrcB) (x : Nat) : Raw :=
  match b with
  | .reg o => Raw.mk' h op mod d.code a.code o.code 2047 x
  | .imm i => Raw.mkI h op (mod + 32) d.code a.code i.toNat x

/-- Format A with D and A. -/
def Raw.mk2 (h : Hdr) (op mod : Nat) (d a : Opnd) (x : Nat) : Raw := Raw.mk' h op mod d.code a.code 2047 2047 x

/-- Format A with D, A and B. -/
def Raw.mk3 (h : Hdr) (op mod : Nat) (d a b : Opnd) (x : Nat) : Raw := Raw.mk' h op mod d.code a.code b.code 2047 x

/-- Format A with D, A, B and C. -/
def Raw.mk4 (h : Hdr) (op mod : Nat) (d a b c : Opnd) (x : Nat) : Raw :=
  Raw.mk' h op mod d.code a.code b.code c.code x

/-- No operands. -/
def Raw.mk0 (h : Hdr) (op mod x : Nat) : Raw := Raw.mk' h op mod 2047 2047 2047 2047 x

/-- Format M: size and the six low bits, beside the clause, scope and offset (R58, R61). -/
def Raw.mkM (h : Hdr) (op mod d b size low : Nat) (m : MemArg) : Raw :=
  let x := m.clause.code + m.scope.code * 2 ^ 10 + size * 2 ^ 6 + low
  match m.off with
  | .reg o => Raw.mk' h op mod d m.base.code b o.code x
  | .imm i => Raw.mk' h op (mod + 32) d m.base.code b i.toNat x

def FlTy.modOf (t : FlTy) (r : Rnd) : Nat := t.code * 8 + r.code

/-- X of cmp and fcmp (R117). -/
def cmpX (cc : Nat) (op : Comb) (pd : PredOpt) : Nat := op.code + cc * 2 ^ 4 + pd.code

/-- The fields of an instruction's word; an event has none. -/
def Instr.raw : Instr → Option Raw
  | .add h t d a b => some (Raw.mkB h 0x000 t.code d a b 0)
  | .sub h t d a b => some (Raw.mkB h 0x001 t.code d a b 0)
  | .addc h t d a b ci co => some (Raw.mkB h 0x002 t.code d a b (ci.code * 2 ^ 4 + co.code))
  | .subb h t d a b ci co => some (Raw.mkB h 0x003 t.code d a b (ci.code * 2 ^ 4 + co.code))
  | .mul h t d a b => some (Raw.mkB h 0x004 t.code d a b 0)
  | .mulh h t d a b => some (Raw.mkB h 0x005 t.code d a b 0)
  | .mad h t d a b c => some (Raw.mk4 h 0x006 t.code d a b c 0)
  | .madh h t d a b c => some (Raw.mk4 h 0x007 t.code d a b c 0)
  | .min h t d a b => some (Raw.mkB h 0x008 t.code d a b 0)
  | .max h t d a b => some (Raw.mkB h 0x009 t.code d a b 0)
  | .abs h t d a => some (Raw.mk2 h 0x00A t.code d a 0)
  | .neg h t d a => some (Raw.mk2 h 0x00B t.code d a 0)
  | .adds h t d a b => some (Raw.mkB h 0x00C t.code d a b 0)
  | .subs h t d a b => some (Raw.mkB h 0x00D t.code d a b 0)
  | .sad h t d a b c => some (Raw.mk4 h 0x00E t.code d a b c 0)
  | .cmp h t d a b cc op pd => some (Raw.mkB h 0x00F t.code d a b (cmpX cc.code op pd))
  | .and h t d a b => some (Raw.mkB h 0x010 t.code d a b 0)
  | .or h t d a b => some (Raw.mkB h 0x011 t.code d a b 0)
  | .xor h t d a b => some (Raw.mkB h 0x012 t.code d a b 0)
  | .andn h t d a b => some (Raw.mkB h 0x013 t.code d a b 0)
  | .not h t d a => some (Raw.mk2 h 0x014 t.code d a 0)
  | .lop3 h t d a b c table => some (Raw.mk4 h 0x015 t.code d a b c table.toNat)
  | .shl h t d a b => some (Raw.mkB h 0x016 t.code d a b 0)
  | .shr h t d a b => some (Raw.mkB h 0x017 t.code d a b 0)
  | .sar h t d a b => some (Raw.mkB h 0x018 t.code d a b 0)
  | .rot h t d a b => some (Raw.mkB h 0x019 t.code d a b 0)
  | .bfx h t d a b => some (Raw.mkB h 0x01A t.code d a b 0)
  | .bfi h t d a b c => some (Raw.mk4 h 0x01B t.code d a b c 0)
  | .popc h t d a => some (Raw.mk2 h 0x01C t.code d a 0)
  | .clz h t d a => some (Raw.mk2 h 0x01D t.code d a 0)
  | .ctz h t d a => some (Raw.mk2 h 0x01E t.code d a 0)
  | .brev h t d a => some (Raw.mk2 h 0x01F t.code d a 0)
  | .sel h t d a b c => some (Raw.mk4 h 0x020 t.code d a b c 0)
  | .mov h t d a => some (Raw.mk2 h 0x021 t.code d a 0)
  | .movi h t d imm => some (Raw.mkI h 0x022 (t.code + 32) d.code 2047 imm.toNat 0)
  | .lea h t d a b nat s => some (Raw.mkB h 0x023 t.code d a b (nat.toNat * 2 ^ 3 + s.val))
  | .dp4 h t d a b c xs => some (Raw.mk4 h 0x024 t.code d a b c xs.toNat)
  | .fadd h r d a b m => some (Raw.mkB h 0x080 r.code d a b m.code)
  | .fsub h r d a b m => some (Raw.mkB h 0x081 r.code d a b m.code)
  | .fmul h r d a b m => some (Raw.mkB h 0x082 r.code d a b m.code)
  | .fma h r d a b c m => some (Raw.mk4 h 0x083 r.code d a b c m.code)
  | .fmin h d a b m nanp => some (Raw.mkB h 0x084 0 d a b (m.code + nanp.toNat * 2 ^ 6))
  | .fmax h d a b m nanp => some (Raw.mkB h 0x085 0 d a b (m.code + nanp.toNat * 2 ^ 6))
  | .fcmp h t d a b cc op pd => some (Raw.mkB h 0x086 (t.modOf .rn) d a b (cmpX cc.code op pd))
  | .frnd h t r d a exact => some (Raw.mk2 h 0x087 (t.modOf r) d a (exact.toNat * 2 ^ 6))
  | .fclass h t d a mask pd => some (Raw.mk2 h 0x088 (t.modOf .rn) d a (mask.toNat * 2 ^ 4 + pd.code))
  | .rcp h r d a => some (Raw.mk2 h 0x089 r.code d a 0)
  | .rsqrt h r d a => some (Raw.mk2 h 0x08A r.code d a 0)
  | .sqrt h r d a => some (Raw.mk2 h 0x08B r.code d a 0)
  | .exp2 h r d a => some (Raw.mk2 h 0x08C r.code d a 0)
  | .log2 h r d a => some (Raw.mk2 h 0x08D r.code d a 0)
  | .sinpi h r d a => some (Raw.mk2 h 0x08E r.code d a 0)
  | .cospi h r d a => some (Raw.mk2 h 0x08F r.code d a 0)
  | .fscale h r d a b => some (Raw.mkB h 0x090 r.code d a b 0)
  | .fexp h d a => some (Raw.mk2 h 0x091 0 d a 0)
  | .hadd2 h t r d a b m => some (Raw.mkB h 0x092 (t.modOf r) d a b m.code)
  | .hmul2 h t r d a b m => some (Raw.mkB h 0x093 (t.modOf r) d a b m.code)
  | .hfma2 h t r d a b c m => some (Raw.mk4 h 0x094 (t.modOf r) d a b c m.code)
  | .hmin2 h t d a b m nanp => some (Raw.mkB h 0x095 (t.modOf .rn) d a b (m.code + nanp.toNat * 2 ^ 6))
  | .hmax2 h t d a b m nanp => some (Raw.mkB h 0x096 (t.modOf .rn) d a b (m.code + nanp.toNat * 2 ^ 6))
  | .fdot2 h t r d a b c m => some (Raw.mk4 h 0x097 (t.modOf r) d a b c m.code)
  | .fdot4 h r d a b c m fa fb =>
    some (Raw.mk4 h 0x098 r.code d a b c (m.code + fa.toNat * 2 ^ 6 + fb.toNat * 2 ^ 7))
  | .cvt h dst src e sat dflt r d a =>
    some (Raw.mk2 h 0x100 (sat.toNat * 2 ^ 4 + dflt.toNat * 2 ^ 3 + r.code) d a
      (e.val * 2 ^ 8 + dst.code * 2 ^ 4 + src.code))
  | .pack h t r d a b => some (Raw.mk3 h 0x101 t.code d a b r.code)
  | .unpack h t part d a => some (Raw.mk2 h 0x102 t.code d a part.val)
  | .plsplit h n p d a => some (Raw.mk2 h 0x103 n.val d a p.val)
  | .plmerge h n k d a => some (Raw.mk2 h 0x104 n.val d a k.val)
  | .quant h nat r n e d a b c =>
    some (Raw.mk4 h 0x105 (nat.toNat * 2 ^ 3 + r.code) d a b c (n.val * 2 ^ 2 + e.val))
  | .dequant h nat r e d a b => some (Raw.mk3 h 0x106 (nat.toNat * 2 ^ 3 + r.code) d a b e.val)
  | .prmt h d a b ctl =>
    some (match ctl with
      | .const k => Raw.mk3 h 0x107 0 d a b k.toNat
      | .reg o => Raw.mk4 h 0x107 0 d a b o (2 ^ 20))
  | .bra h t => some (Raw.mkI h 0x140 0 2047 2047 t.offset.toNat (t.slot.val * 2 ^ 11))
  | .brx h a table n => some (Raw.mk' h 0x141 0 2047 a.code 2047 2047 (table.toNat * 2 ^ 8 + n.toNat))
  | .call h d t => some (Raw.mkI h 0x142 0 d.code 2047 t.offset.toNat (t.slot.val * 2 ^ 11))
  | .callImp h d index => some (Raw.mkI h 0x142 0 d.code 2047 index.toNat (2 ^ 10))
  | .ret h a => some (Raw.mk' h 0x143 0 2047 a.code 2047 2047 0)
  | .exit h => some (Raw.mk0 h 0x144 0 0)
  | .exitTo h a => some (Raw.mk' h 0x145 0 2047 a.code 2047 2047 0)
  | .region h => some (Raw.mk0 h 0x146 0 0)
  | .yield h => some (Raw.mk0 h 0x147 0 0)
  | .nop pred pneg => some (Raw.mk0 { Hdr.plain with pred := pred, pneg := pneg } 0x148 0 0)
  | .trap h n => some (Raw.mk0 h 0x149 0 n.toNat)
  | .syscall h n => some (Raw.mk0 h 0x14A 0 n.toNat)
  | .hcall h n => some (Raw.mk0 h 0x14B 0 n.toNat)
  | .brk h n => some (Raw.mk0 h 0x14C 0 n.toNat)
  | .shfl h m d a k grp pd =>
    let x := pd.code * 2 ^ 9 + grp.val * 2 ^ 6
    some (match k with
      | .reg o => Raw.mk3 h 0x180 m.code d a o x
      | .const c => Raw.mk2 h 0x180 m.code d a (x + 2 ^ 5 + c.toNat))
  | .vote h m d ps psn pd =>
    some (Raw.mk' h 0x181 m.code d.code 2047 2047 2047 (pd.code * 2 ^ 8 + psn.toNat * 2 ^ 4 + ps.code))
  | .redux h op d a => some (Raw.mk2 h 0x182 op.code d a 0)
  | .scan h op excl d a => some (Raw.mk2 h 0x183 op.code d a excl.toNat)
  | .matchq h wide d a pd => some (Raw.mk2 h 0x184 wide.toNat d a pd.code)
  | .barArrive h c l n pr => some (Raw.mk0 h 0x185 0 (c.code + l.code * 2 ^ 10 + n.toNat * 2 ^ 4 + pr.code))
  | .barWait h c l n pr => some (Raw.mk0 h 0x186 0 (c.code + l.code * 2 ^ 10 + n.toNat * 2 ^ 4 + pr.code))
  | .barSync h c l n => some (Raw.mk0 h 0x187 0 (c.code + l.code * 2 ^ 10 + n.toNat * 2 ^ 4 + 15))
  | .wait h all n d a c wmask pt =>
    some (Raw.mk2 h 0x188 (n.val * 2 + all.toNat) d a (c.code + wmask.toNat * 2 ^ 4 + pt.code))
  | .waits h s n => some (Raw.mk0 h 0x189 0 (s.val * 2 ^ 21 + n.toNat * 2 ^ 4 + 15))
  | .chkb h sg s a b c => some (Raw.mk' h 0x18A sg.toNat 2047 a.code b.code c.code s.code)
  | .chkt h a b =>
    some (match b with
      | .reg o => Raw.mk' h 0x18B 0 2047 a.code o.code 2047 0
      | .imm i => Raw.mk' h 0x18B 0 2047 a.code 2047 2047 (2 ^ 16 + i.toNat))
  | .chkl h a b => some (Raw.mk' h 0x18C 0 2047 a.code b.code 2047 0)
  | .ldP h p s d m => some (Raw.mkM h 0x1C0 p.code d.code 2047 s.code 0 m)
  | .stP h p s b m => some (Raw.mkM h 0x1C1 p.code 2047 b.code s.code 0 m)
  | .ldS h s d m => some (Raw.mkM h 0x1C2 0 d.code 2047 s.code 0 m)
  | .stS h s b m => some (Raw.mkM h 0x1C3 0 2047 b.code s.code 0 m)
  | .atomS h op w d b m => some (Raw.mkM h 0x1C4 op.code d.code b.code w.code 0 m)
  | .casS h w d b pd m => some (Raw.mkM h 0x1C5 0 d.code b.code w.code pd.code m)
  | .ldK h s d m => some (Raw.mkM h 0x1C9 0 d.code 2047 s.code 0 m)
  | .copy h src win n a b e =>
    let w := match win with | some w => w.val * 2 ^ 4 | none => 0
    some (Raw.mk' h 0x1C6 (win.isSome.toNat * 2 ^ 3 + src.code) 2047 a.code b.code 2047 (e.code + w + n.val))
  | .cpwp h n d => some (Raw.mk' h 0x1C7 0 d.code 2047 2047 2047 n.val)
  | .cpcancel h n e => some (Raw.mk0 h 0x1C8 0 (e.code + n.val))
  | .ldN h s d m => some (Raw.mkM h 0x200 0 d.code 2047 s.code 0 m)
  | .stN h s b m => some (Raw.mkM h 0x201 0 2047 b.code s.code 0 m)
  | .ldV h shd s d m => some (Raw.mkM h 0x202 shd.toNat d.code 2047 s.code 0 m)
  | .stV h shd s b m => some (Raw.mkM h 0x203 shd.toNat 2047 b.code s.code 0 m)
  | .atomV h op w d b m => some (Raw.mkM h 0x204 op.code d.code b.code w.code 0 m)
  | .casV h w d b pd m => some (Raw.mkM h 0x205 0 d.code b.code w.code pd.code m)
  | .taskPost h d a e => some (Raw.mk2 h 0x206 0 d a e.code)
  | .taskDec h a e => some (Raw.mk' h 0x207 0 2047 a.code 2047 2047 e.code)
  | .taskStatT h d a => some (Raw.mk2 h 0x208 0 d a 0)
  | .taskStatW h d w => some (Raw.mk' h 0x208 1 d.code 2047 2047 2047 w.val)
  | .taskStatQ h d q => some (Raw.mk' h 0x208 2 d.code 2047 2047 2047 q.val)
  | .emit h a pd e => some (Raw.mk' h 0x209 0 2047 a.code 2047 2047 (e.code + pd.code))
  | .pubw h w e => some (Raw.mk0 h 0x20A 0 (e.code + w.val))
  | .ldG h p shd s d m => some (Raw.mkM h 0x240 (shd.toNat * 2 ^ 2 + p.code) d.code 2047 s.code 0 m)
  | .stG h p shd s b m => some (Raw.mkM h 0x241 (shd.toNat * 2 ^ 2 + p.code) 2047 b.code s.code 0 m)
  | .atomG h op w d b m => some (Raw.mkM h 0x242 op.code d.code b.code w.code 0 m)
  | .casG h w d b pd m => some (Raw.mkM h 0x243 0 d.code b.code w.code pd.code m)
  | .redG h op w b m => some (Raw.mkM h 0x244 op.code 2047 b.code w.code 0 m)
  | .hintL2 h b m => some (Raw.mkM h 0x245 0 2047 b.code 0 0 m)
  | .hintL1 h b m => some (Raw.mkM h 0x245 1 2047 b.code 0 0 m)
  | .hintLru h b m => some (Raw.mkM h 0x245 2 2047 b.code 0 0 m)
  | .cwbL2 h b m => some (Raw.mkM h 0x246 0 2047 b.code 0 0 m)
  | .cwbMem h b m => some (Raw.mkM h 0x246 1 2047 b.code 0 0 m)
  | .cinvL1 h b m => some (Raw.mkM h 0x247 0 2047 b.code 0 0 m)
  | .cinvL2 h b m => some (Raw.mkM h 0x247 1 2047 b.code 0 0 m)
  | .iinv h b m => some (Raw.mkM h 0x248 0 2047 b.code 0 0 m)
  | .fbar h c => some (Raw.mk0 h 0x249 0 c.code)
  | .ldH h s d m => some (Raw.mkM h 0x280 0 d.code 2047 s.code 0 m)
  | .stH h s b m => some (Raw.mkM h 0x281 0 2047 b.code s.code 0 m)
  | .atomH h op d b pd m => some (Raw.mkM h 0x282 op.code d.code b.code op.size pd.code m)
  | .ldF h s d m => some (Raw.mkM h 0x283 0 d.code 2047 s.code 0 m)
  | .stF h s b m => some (Raw.mkM h 0x284 0 2047 b.code s.code 0 m)
  | .atomF h op w d b pd m => some (Raw.mkM h 0x285 op.code d.code b.code w.code pd.code m)
  | .copyFGet h n a b e => some (Raw.mk' h 0x286 0 2047 a.code b.code 2047 (e.code + n.val))
  | .copyFGetw h w n a b e => some (Raw.mk' h 0x286 1 2047 a.code b.code 2047 (e.code + w.val * 2 ^ 4 + n.val))
  | .copyFPut h n a b e => some (Raw.mk' h 0x286 2 2047 a.code b.code 2047 (e.code + n.val))
  | .rdsr h d r => some (Raw.mk' h 0x2A0 0 d.code 2047 2047 2047 r.code)
  | .wrsr h r a => some (Raw.mk' h 0x2A1 0 2047 a.code 2047 2047 r.code)
  | .sret h => some (Raw.mk0 h 0x2A2 0 0)
  | .hret h => some (Raw.mk0 h 0x2A3 0 0)
  | .tlbinvVa h a b => some (Raw.mk' h 0x2A4 0 2047 a.code b.code 2047 0)
  | .tlbinvCtx h => some (Raw.mk0 h 0x2A4 1 0)
  | .tlbinvGpa h a b => some (Raw.mk' h 0x2A4 2 2047 a.code b.code 2047 0)
  | .tlbinvVf h => some (Raw.mk0 h 0x2A4 3 0)
  | .ctxsave h force d a c => some (Raw.mk' h 0x2A5 force.toNat d.code a.code 2047 c.code 0)
  | .ctxload h d a c => some (Raw.mk' h 0x2A6 0 d.code a.code 2047 c.code 0)
  | .launchRun h d a b => some (Raw.mk3 h 0x2A7 0 d a b 0)
  | .launchAdm h d a => some (Raw.mk2 h 0x2A7 1 d a 0)
  | .frmset h d a b => some (Raw.mk3 h 0x2A8 0 d a b 0)
  | .l2partSet h d a b => some (Raw.mk3 h 0x2A9 0 d a b 0)
  | .l2partMask h d a => some (Raw.mk2 h 0x2A9 1 d a 0)
  | .l2partOcc h d a b => some (Raw.mk3 h 0x2A9 2 d a b 0)
  | .l2partHit h d a b => some (Raw.mk3 h 0x2A9 3 d a b 0)
  | .l2partMiss h d a b => some (Raw.mk3 h 0x2A9 4 d a b 0)
  | .l2partClr h m d a b => some (Raw.mk3 h 0x2A9 m.code d a b 0)
  | .keyopLoad h d a b => some (Raw.mk3 h 0x2AA 0 d a b 0)
  | .keyopErase h d a b => some (Raw.mk3 h 0x2AA 1 d a b 0)
  | .keyopAttest h d a b => some (Raw.mk3 h 0x2AA 2 d a b 0)
  | .halt h s => some (Raw.mk0 h 0x2AB 0 s.toNat)
  | .lanepc h a b => some (Raw.mk' h 0x2AC 0 2047 a.code b.code 2047 0)
  | .lanestRel h a => some (Raw.mk' h 0x2AD 0 2047 a.code 2047 2047 0)
  | .lanestHold h a => some (Raw.mk' h 0x2AD 0 2047 a.code 2047 2047 1)
  | .lanestExit h a => some (Raw.mk' h 0x2AD 0 2047 a.code 2047 2047 2)
  | .lineFetch _ _ | .memoryOpComplete _ _ | .barrierPhaseComplete _ | .waitConditionMet _ _ _ | .waitTimeout _ _ _
  | .copyBegin _ _ | .copyDelivery _ _ _ | .copyComplete _ _ | .taskIssue _ _ | .mmaF _ _ | .mmaQ _ _ | .hadam _ _
  | .tileQuant _ _ | .xpose _ _ | .acc _ _ | .fill _ _ | .stage _ _ | .stagingAdmit _ _ _ | .stagingArrive _ _ _
  | .emitPushHeld _ _ | .crewPlace _ _ | .crewResume _ _ | .gangRetire _ _ | .successorStart _ | .quantumExpiry _
  | .deadlineExpiry _ | .crewSave _ | .pageRequestSend _ | .pageResponseSuccess _ _ | .pageResponseInvalid _ _
  | .pageResponseFailure _ _ | .hostCompletion _ _ _ | .hostCompletionTimeout _ _ | .fabricTimeout _ _
  | .fabricResponse _ _ _ | .flitCheckFail _ | .linkDown _ | .linkTrained _ | .trapRingRoom _ _
  | .bindingComplete _ _ _ | .graderWalk _ | .readmit _ | .release _ | .launchTake _ _ _ | .launchCompletion _
  | .gcmCheckFail _ _ | .admprod _ _ | .lqdb _ _ | .priclr _ _ | .linkctl _ _ | .linkstFailedClear _ _
  | .logctlEn _ _ | .logctlOvfClear _ _ | .logctlAlldirtyClear _ _ | .logctlStop _ _ | .vfControlWrite _ _ _
  | .registerWrite _ _ _ | .hostInboundWrite _ _ | .debugStop _ _ | .debugResume _ _ | .debugRead _ _ _
  | .debugWrite _ _ _ _ | .lockInterfaceRequest _ | .startInterfaceRequest _ | .stopInterfaceRequest _
  | .ideStreamFailure _ | .functionLevelReset _ | .reset | .systemInstructionComplete _ _ _ | .launchCancel _
  | .unitReady _ | .healthPredictionUpdate _ _ | .firmwareImageLoad _ => none

/-- The 96-bit word of an instruction (R53); an event has none. -/
def encode (i : Instr) : Option (BitVec 96) := i.raw.map fun r => BitVec.ofNat 96 r.toWord

/-! ## The decoder -/

/-- Which operand fields a word uses: the fields a register code may stand in (R57). -/
structure Used where
  d : Bool
  a : Bool
  b : Bool
  c : Bool
  deriving DecidableEq, Repr

def Used.none : Used := ⟨false, false, false, false⟩
def Used.onlyA : Used := ⟨false, true, false, false⟩
def Used.onlyD : Used := ⟨true, false, false, false⟩
def Used.da : Used := ⟨true, true, false, false⟩
def Used.ab : Used := ⟨false, true, true, false⟩
def Used.dab : Used := ⟨true, true, true, false⟩
def Used.dabc : Used := ⟨true, true, true, true⟩
def Used.abc : Used := ⟨false, true, true, true⟩
def Used.dac : Used := ⟨true, true, false, true⟩

/-- MOD of class INT: the types accepted, and format A, or I as well (R59, R77, R110). -/
def intMod (types : List Nat) (iform : Bool) (m : Nat) : Bool := (iform || decide (m < 32)) && types.elem (m % 32)

/-- MOD of class FLT: element types and whether a rounding mode is taken (R77, R141). -/
def fltMod (types : List Nat) (rounds iform : Bool) (m : Nat) : Bool :=
  (iform || decide (m < 32)) && types.elem (m % 32 / 8) && (if rounds then decide (m % 8 < 5) else m % 8 == 0)

/-- MOD of class MEM: MOD[4:0] below a bound, MOD[5] free (R77). -/
def memMod (below m : Nat) : Bool := decide (m % 32 < below)

/-- Used fields of a format A or I word (R59). -/
def usedB (m : Nat) : Used := if m < 32 then .dab else .da

/-- Used fields of a format M word: MOD[5] makes C the immediate (R58). -/
def usedM (d b : Bool) (m : Nat) : Used := ⟨d, true, b, decide (m < 32)⟩

/-- MOD of cvt, whose SAT, DFLT and RND depend on the types in X (R130). -/
def cvtMod (m x : Nat) : Bool :=
  decide (m < 32) && decide (m % 8 < 5) &&
    cvtModOk (CvtTy.ofCode (bits x 7 4)) (CvtTy.ofCode (bits x 3 0)) (bit m 4) (bit m 3) (Rnd.ofCode (m % 8))

/-- Integer and logic opcodes: whether MOD is accepted, and the fields used (R110). -/
def rowInt (op m : Nat) : Option (Bool × Used) :=
  match op with
  | 0x000 | 0x001 | 0x008 | 0x009 | 0x00C | 0x00D | 0x00F | 0x016 | 0x017 | 0x018 =>
    some (intMod [0, 1, 2, 3, 4, 5, 6, 7] true m, usedB m)
  | 0x002 | 0x003 | 0x005 | 0x010 | 0x011 | 0x012 | 0x013 | 0x019 | 0x01A =>
    some (intMod [0, 1, 2, 3] true m, usedB m)
  | 0x004 => some (intMod [0, 1, 2, 3, 4, 5] true m, usedB m)
  | 0x006 => some (intMod [0, 1, 2, 3, 4, 5] false m, .dabc)
  | 0x007 | 0x015 | 0x01B => some (intMod [0, 1, 2, 3] false m, .dabc)
  | 0x00A => some (intMod [0, 2, 4, 6] false m, .da)
  | 0x00B => some (intMod [0, 1, 2, 3, 4, 5, 6, 7] false m, .da)
  | 0x00E => some (intMod [0, 1, 4, 5, 6, 7] false m, .dabc)
  | 0x014 | 0x01C | 0x01D | 0x01E | 0x01F | 0x021 => some (intMod [0, 1, 2, 3] false m, .da)
  | 0x020 => some (intMod [0, 1, 2, 3, 4, 5, 6, 7] false m, .dabc)
  | 0x022 => some (decide (32 ≤ m) && intMod [0, 1, 2, 3, 4, 5, 6, 7] true m, .onlyD)
  | 0x023 => some (intMod [1, 3] true m, usedB m)
  | 0x024 => some (intMod [6, 7] false m, .dabc)
  | _ => none

/-- Floating-point opcodes (R141). -/
def rowFlt (op m : Nat) : Option (Bool × Used) :=
  match op with
  | 0x080 | 0x081 | 0x082 | 0x090 => some (fltMod [0] true true m, usedB m)
  | 0x083 | 0x098 => some (fltMod [0] true false m, .dabc)
  | 0x084 | 0x085 => some (fltMod [0] false true m, usedB m)
  | 0x086 => some (fltMod [0, 1, 2] false true m, usedB m)
  | 0x087 => some (fltMod [0, 1, 2] true false m, .da)
  | 0x088 => some (fltMod [0, 1, 2] false false m, .da)
  | 0x089 | 0x08A | 0x08B | 0x08C | 0x08D | 0x08E | 0x08F => some (fltMod [0] true false m, .da)
  | 0x091 => some (fltMod [0] false false m, .da)
  | 0x092 | 0x093 => some (fltMod [1, 2] true true m, usedB m)
  | 0x094 | 0x097 => some (fltMod [1, 2] true false m, .dabc)
  | 0x095 | 0x096 => some (fltMod [1, 2] false true m, usedB m)
  | _ => none

/-- Conversion opcodes (R128-R139). -/
def rowCnv (op m x : Nat) : Option (Bool × Used) :=
  match op with
  | 0x100 => some (cvtMod m x, .da)
  | 0x101 => some (decide (m < 13), .dab)
  | 0x102 => some (decide (m < 13), .da)
  | 0x103 | 0x104 => some (decide (m < 8), .da)
  | 0x105 => some (decide (m < 16) && decide (m % 8 < 5), .dabc)
  | 0x106 => some (decide (m < 16) && decide (m % 8 < 5), .dab)
  | 0x107 => some (m == 0, if bit x 20 then .dabc else .dab)
  | _ => none

/-- Control, gang, barrier, wait and check opcodes (R156, R169, R174, R179, R183, R184). -/
def rowCtl (op m x : Nat) : Option (Bool × Used) :=
  match op with
  | 0x140 | 0x144 | 0x146 | 0x147 | 0x148 | 0x149 | 0x14A | 0x14B | 0x14C => some (m == 0, .none)
  | 0x141 | 0x143 | 0x145 => some (m == 0, .onlyA)
  | 0x142 => some (m == 0, .onlyD)
  | 0x180 => some (decide (m < 4), if bit x 5 then .da else .dab)
  | 0x181 => some (decide (m < 4), .onlyD)
  | 0x182 | 0x183 => some (decide (m < 11), .da)
  | 0x184 => some (decide (m < 2), .da)
  | 0x185 | 0x186 | 0x187 | 0x189 => some (m == 0, .none)
  | 0x188 => some (decide (m < 8), .da)
  | 0x18A => some (decide (m < 2), .abc)
  | 0x18B => some (m == 0, if bit x 16 then .onlyA else .ab)
  | 0x18C => some (m == 0, .ab)
  | _ => none

/-- Core and camp opcodes (R220, R226, R232, R233, R242, R252-R255, R247, R261). -/
def rowCore (op m : Nat) : Option (Bool × Used) :=
  match op with
  | 0x1C0 => some (memMod 3 m, usedM true false m)
  | 0x1C1 => some (memMod 3 m, usedM false true m)
  | 0x1C2 | 0x1C9 | 0x200 => some (memMod 1 m, usedM true false m)
  | 0x1C3 | 0x201 => some (memMod 1 m, usedM false true m)
  | 0x1C4 | 0x204 => some (memMod 12 m, usedM true true m)
  | 0x1C5 | 0x205 => some (memMod 1 m, usedM true true m)
  | 0x1C6 => some (decide (m < 16) && !bit m 2, .ab)
  | 0x1C7 => some (m == 0, .onlyD)
  | 0x1C8 | 0x20A => some (m == 0, .none)
  | 0x202 => some (memMod 2 m, usedM true false m)
  | 0x203 => some (memMod 2 m, usedM false true m)
  | 0x206 => some (m == 0, .da)
  | 0x207 | 0x209 => some (m == 0, .onlyA)
  | 0x208 => some (decide (m < 3), if m = 0 then .da else .onlyD)
  | _ => none

/-- Tract, package, fabric and system opcodes (R306, R312, R385, R404, R407, R186, R314, R382, R387, R389). -/
def rowTract (op m : Nat) : Option (Bool × Used) :=
  match op with
  | 0x240 => some (memMod 8 m && m % 4 != 3, usedM true false m)
  | 0x241 => some (memMod 8 m && m % 4 != 3, usedM false true m)
  | 0x242 => some (memMod 12 m, usedM true true m)
  | 0x243 => some (memMod 1 m, usedM true true m)
  | 0x244 => some (memMod 12 m && m % 32 != 8, usedM false true m)
  | 0x245 => some (memMod 3 m, usedM false true m)
  | 0x246 | 0x247 => some (memMod 2 m, usedM false true m)
  | 0x248 => some (memMod 1 m, usedM false true m)
  | 0x249 => some (m == 0, .none)
  | 0x280 | 0x283 => some (memMod 1 m, usedM true false m)
  | 0x281 | 0x284 => some (memMod 1 m, usedM false true m)
  | 0x282 => some (memMod 3 m, usedM true true m)
  | 0x285 => some (memMod 13 m, usedM true true m)
  | 0x286 => some (decide (m < 3), .ab)
  | 0x2A0 => some (m == 0, .onlyD)
  | 0x2A1 => some (m == 0, .onlyA)
  | 0x2A2 | 0x2A3 | 0x2AB => some (m == 0, .none)
  | 0x2A4 => some (decide (m < 4), if m % 2 = 0 then .ab else .none)
  | 0x2A5 => some (decide (m < 2), .dac)
  | 0x2A6 => some (m == 0, .dac)
  | 0x2A7 => some (decide (m < 2), if m = 0 then .dab else .da)
  | 0x2A8 => some (m == 0, .dab)
  | 0x2A9 => some (decide (m < 8), if m = 1 ∨ m = 5 then .da else .dab)
  | 0x2AA => some (decide (m < 3), .dab)
  | 0x2AC => some (m == 0, .ab)
  | 0x2AD => some (m == 0, .onlyA)
  | _ => none

/-- ENC-01 and ENC-02: none where R76 assigns no instruction to OP; else whether MOD is accepted, and which operand
fields the instruction uses. -/
def opRow (op m x : Nat) : Option (Bool × Used) :=
  if op < 0x080 then rowInt op m
  else if op < 0x100 then rowFlt op m
  else if op < 0x140 then rowCnv op m x
  else if op < 0x1C0 then rowCtl op m x
  else if op < 0x240 then rowCore op m
  else rowTract op m

/-- A source field's code under ENC-03 (R56, R57). -/
def srcCodeOk (regs c : Nat) : Bool := decide (c < regs) || (decide (1536 ≤ c) && decide (c < 1608)) || c == 2047

/-- Field D's code under ENC-03: no latch (R56). -/
def dstCodeOk (regs c : Nat) : Bool := decide (c < regs) || (decide (1544 ≤ c) && decide (c < 1608)) || c == 2047

/-- The registers a group operand names: plsplit's 8 (R138), wait's 4N (R179). -/
def groupLen (op m : Nat) : Nat := if op = 0x103 then 8 else if op = 0x188 then 4 * (m / 2 % 4 + 1) else 1

/-- ENC-03. -/
def operandsOk (regs : Nat) (u : Used) (r : Raw) : Bool :=
  (!u.d || dstCodeOk regs r.d) && (!u.a || srcCodeOk regs r.a) && (!u.b || srcCodeOk regs r.b) &&
    (!u.c || srcCodeOk regs r.c) && (decide (1536 ≤ r.a) || !u.a || decide (r.a + groupLen r.op r.mod ≤ regs))

/-- Operand B or IMM32 (R59). -/
def Raw.srcB (r : Raw) : SrcB := if r.mod < 32 then .reg (.ofCode r.b) else .imm (BitVec.ofNat 32 r.imm)

/-- X of formats A and I (R58). -/
def Raw.xAI (r : Raw) : Nat := if r.mod < 32 then r.x else r.x14

def Raw.dO (r : Raw) : Opnd := .ofCode r.d
def Raw.aO (r : Raw) : Opnd := .ofCode r.a
def Raw.bO (r : Raw) : Opnd := .ofCode r.b
def Raw.cO (r : Raw) : Opnd := .ofCode r.c
def Raw.elTy (r : Raw) : ElTy := .ofCode (r.mod % 32)
def Raw.flTy (r : Raw) : FlTy := .ofCode (r.mod % 32 / 8)
def Raw.rnd (r : Raw) : Rnd := .ofCode (r.mod % 8)
def Raw.mods (r : Raw) : Mods := .ofCode r.xAI

/-- The branch target of format B (R62): slots 5 to 7 are reserved. -/
def Raw.target (r : Raw) : Option Target :=
  let s := bits r.x14 13 11
  if h : s < 5 then some { offset := BitVec.ofNat 32 r.imm, slot := ⟨s, h⟩ } else none

/-- Base, offset, clause and scope of format M (R58, R61). -/
def Raw.memArg (r : Raw) : Option MemArg :=
  (Scope.ofCode (bits r.x 12 10)).map fun s =>
    { base := r.aO, off := if r.mod < 32 then .reg r.cO else .imm (BitVec.ofNat 11 r.c)
      clause := Clause.ofCode r.x, scope := s }

def Raw.size (r : Raw) : Option Size := Size.ofCode (bits r.x 9 6)
def Raw.aWidth (r : Raw) : Option AWidth := AWidth.ofCode (bits r.x 9 6)
def Raw.pd0 (r : Raw) : PredOpt := PredOpt.ofCode (bits r.x 3 0)

/-- A load of format M. -/
def Raw.ld (r : Raw) (k : Hdr → Size → Opnd → MemArg → Instr) : Option Instr :=
  r.memArg.bind fun m => r.size.map fun s => k r.hdr s r.dO m

/-- A store of format M. -/
def Raw.st (r : Raw) (k : Hdr → Size → Opnd → MemArg → Instr) : Option Instr :=
  r.memArg.bind fun m => r.size.map fun s => k r.hdr s r.bO m

/-- An atomic of format M. -/
def Raw.atom (r : Raw) (k : Hdr → AtomOp → AWidth → Opnd → Opnd → MemArg → Instr) : Option Instr :=
  r.memArg.bind fun m => r.aWidth.map fun w => k r.hdr (.ofCode (r.mod % 32)) w r.dO r.bO m

/-- A compare and swap of format M. -/
def Raw.cas (r : Raw) (k : Hdr → AWidth → Opnd → Opnd → PredOpt → MemArg → Instr) : Option Instr :=
  r.memArg.bind fun m => r.aWidth.map fun w => k r.hdr w r.dO r.bO r.pd0 m

/-- hint, cwb, cinv and iinv: B is the length (R306). -/
def Raw.rng (r : Raw) (k : Hdr → Opnd → MemArg → Instr) : Option Instr := r.memArg.map fun m => k r.hdr r.bO m

/-- Integer and logic instructions. -/
def buildInt (r : Raw) : Option Instr :=
  let h := r.hdr; let t := r.elTy; let d := r.dO; let a := r.aO; let b := r.srcB; let c := r.cO; let x := r.xAI
  match r.op with
  | 0x000 => some (.add h t d a b)
  | 0x001 => some (.sub h t d a b)
  | 0x002 => some (.addc h t d a b (.ofCode (bits x 7 4)) (.ofCode (bits x 3 0)))
  | 0x003 => some (.subb h t d a b (.ofCode (bits x 7 4)) (.ofCode (bits x 3 0)))
  | 0x004 => some (.mul h t d a b)
  | 0x005 => some (.mulh h t d a b)
  | 0x006 => some (.mad h t d a r.bO c)
  | 0x007 => some (.madh h t d a r.bO c)
  | 0x008 => some (.min h t d a b)
  | 0x009 => some (.max h t d a b)
  | 0x00A => some (.abs h t d a)
  | 0x00B => some (.neg h t d a)
  | 0x00C => some (.adds h t d a b)
  | 0x00D => some (.subs h t d a b)
  | 0x00E => some (.sad h t d a r.bO c)
  | 0x00F =>
    (CmpCC.ofCode (bits x 7 4)).bind fun cc => (Comb.ofCode x).map fun o => .cmp h t d a b cc o (.ofCode (bits x 3 0))
  | 0x010 => some (.and h t d a b)
  | 0x011 => some (.or h t d a b)
  | 0x012 => some (.xor h t d a b)
  | 0x013 => some (.andn h t d a b)
  | 0x014 => some (.not h t d a)
  | 0x015 => some (.lop3 h t d a r.bO c (BitVec.ofNat 8 (bits r.x 7 0)))
  | 0x016 => some (.shl h t d a b)
  | 0x017 => some (.shr h t d a b)
  | 0x018 => some (.sar h t d a b)
  | 0x019 => some (.rot h t d a b)
  | 0x01A => some (.bfx h t d a b)
  | 0x01B => some (.bfi h t d a r.bO c)
  | 0x01C => some (.popc h t d a)
  | 0x01D => some (.clz h t d a)
  | 0x01E => some (.ctz h t d a)
  | 0x01F => some (.brev h t d a)
  | 0x020 => some (.sel h t d a r.bO c)
  | 0x021 => some (.mov h t d a)
  | 0x022 => some (.movi h t d (BitVec.ofNat 32 r.imm))
  | 0x023 => if hs : bits x 2 0 < 5 then some (.lea h t d a b (bit x 3) ⟨bits x 2 0, hs⟩) else none
  | 0x024 => some (.dp4 h t d a r.bO c (bit r.x 0))
  | _ => none

/-- Floating-point instructions. -/
def buildFlt (r : Raw) : Option Instr :=
  let h := r.hdr; let t := r.flTy; let d := r.dO; let a := r.aO; let b := r.srcB; let c := r.cO; let x := r.xAI
  let m := r.mods; let rnd := r.rnd
  match r.op with
  | 0x080 => some (.fadd h rnd d a b m)
  | 0x081 => some (.fsub h rnd d a b m)
  | 0x082 => some (.fmul h rnd d a b m)
  | 0x083 => some (.fma h rnd d a r.bO c m)
  | 0x084 => some (.fmin h d a b m (bit x 6))
  | 0x085 => some (.fmax h d a b m (bit x 6))
  | 0x086 =>
    (FcmpCC.ofCode (bits x 7 4)).bind fun cc =>
      (Comb.ofCode x).map fun o => .fcmp h t d a b cc o (.ofCode (bits x 3 0))
  | 0x087 => some (.frnd h t rnd d a (bit x 6))
  | 0x088 => some (.fclass h t d a (BitVec.ofNat 10 (bits x 13 4)) (.ofCode (bits x 3 0)))
  | 0x089 => some (.rcp h rnd d a)
  | 0x08A => some (.rsqrt h rnd d a)
  | 0x08B => some (.sqrt h rnd d a)
  | 0x08C => some (.exp2 h rnd d a)
  | 0x08D => some (.log2 h rnd d a)
  | 0x08E => some (.sinpi h rnd d a)
  | 0x08F => some (.cospi h rnd d a)
  | 0x090 => some (.fscale h rnd d a b)
  | 0x091 => some (.fexp h d a)
  | 0x092 => some (.hadd2 h t rnd d a b m)
  | 0x093 => some (.hmul2 h t rnd d a b m)
  | 0x094 => some (.hfma2 h t rnd d a r.bO c m)
  | 0x095 => some (.hmin2 h t d a b m (bit x 6))
  | 0x096 => some (.hmax2 h t d a b m (bit x 6))
  | 0x097 => some (.fdot2 h t rnd d a r.bO c m)
  | 0x098 => some (.fdot4 h rnd d a r.bO c m (bit x 6) (bit x 7))
  | _ => none

/-- Conversion instructions. -/
def buildCnv (r : Raw) : Option Instr :=
  let h := r.hdr; let d := r.dO; let a := r.aO; let x := r.x
  match r.op with
  | 0x100 =>
    some (.cvt h (.ofCode (bits x 7 4)) (.ofCode (bits x 3 0)) (Fin.ofNat 8 (bits x 10 8)) (bit r.mod 4) (bit r.mod 3)
      r.rnd d a)
  | 0x101 => if bits x 2 0 < 5 then some (.pack h (.ofCode r.mod) (.ofCode (bits x 2 0)) d a r.bO) else none
  | 0x102 => some (.unpack h (.ofCode r.mod) (Fin.ofNat 4 (bits x 1 0)) d a)
  | 0x103 => some (.plsplit h (Fin.ofNat 8 r.mod) (Fin.ofNat 8 (bits x 2 0)) d a)
  | 0x104 => some (.plmerge h (Fin.ofNat 8 r.mod) (Fin.ofNat 8 (bits x 2 0)) d a)
  | 0x105 => some (.quant h (bit r.mod 3) r.rnd (Fin.ofNat 8 (bits x 4 2)) (Fin.ofNat 4 (bits x 1 0)) d a r.bO r.cO)
  | 0x106 => some (.dequant h (bit r.mod 3) r.rnd (Fin.ofNat 4 (bits x 1 0)) d a r.bO)
  | 0x107 => some (.prmt h d a r.bO (if bit x 20 then .reg r.cO else .const (BitVec.ofNat 20 (bits x 19 0))))
  | _ => none

/-- Control, gang, barrier, wait and check instructions. -/
def buildCtl (r : Raw) : Option Instr :=
  let h := r.hdr; let d := r.dO; let a := r.aO; let x := r.x
  let n16 := BitVec.ofNat 16 (bits x 15 0)
  match r.op with
  | 0x140 => r.target.map fun t => .bra h t
  | 0x141 => some (.brx h a (BitVec.ofNat 16 (bits x 23 8)) (BitVec.ofNat 8 (bits x 7 0)))
  | 0x142 => if bit r.x14 10 then some (.callImp h d (BitVec.ofNat 32 r.imm)) else r.target.map fun t => .call h d t
  | 0x143 => some (.ret h a)
  | 0x144 => some (.exit h)
  | 0x145 => some (.exitTo h a)
  | 0x146 => some (.region h)
  | 0x147 => some (.yield h)
  | 0x148 => some (.nop h.pred h.pneg)
  | 0x149 => some (.trap h n16)
  | 0x14A => some (.syscall h n16)
  | 0x14B => some (.hcall h n16)
  | 0x14C => some (.brk h n16)
  | 0x180 =>
    if hg : bits x 8 6 < 6 then
      some (.shfl h (.ofCode r.mod) d a (if bit x 5 then .const (BitVec.ofNat 5 (bits x 4 0)) else .reg r.bO)
        ⟨bits x 8 6, hg⟩ (.ofCode (bits x 12 9)))
    else none
  | 0x181 => some (.vote h (.ofCode r.mod) d (.ofCode (bits x 3 0)) (bit x 4) (.ofCode (bits x 11 8)))
  | 0x182 => some (.redux h (.ofCode r.mod) d a)
  | 0x183 => some (.scan h (.ofCode r.mod) (bit x 0) d a)
  | 0x184 => some (.matchq h (bit r.mod 0) d a r.pd0)
  | 0x185 =>
    (BarLevel.ofCode (bits x 12 10)).map fun l => .barArrive h (.ofCode x) l (BitVec.ofNat 6 (bits x 9 4)) r.pd0
  | 0x186 =>
    (BarLevel.ofCode (bits x 12 10)).map fun l => .barWait h (.ofCode x) l (BitVec.ofNat 6 (bits x 9 4)) r.pd0
  | 0x187 => (BarLevel.ofCode (bits x 12 10)).map fun l => .barSync h (.ofCode x) l (BitVec.ofNat 6 (bits x 9 4))
  | 0x188 =>
    some (.wait h (bit r.mod 0) (Fin.ofNat 4 (r.mod / 2)) d a (.ofCode x) (BitVec.ofNat 4 (bits x 7 4)) r.pd0)
  | 0x189 => some (.waits h (Fin.ofNat 8 (bits x 23 21)) (BitVec.ofNat 6 (bits x 9 4)))
  | 0x18A => (Size.ofCode (bits x 3 0)).map fun s => .chkb h (bit r.mod 0) s a r.bO r.cO
  | 0x18B => some (.chkt h a (if bit x 16 then .imm (BitVec.ofNat 32 (bits x 15 0)) else .reg r.bO))
  | 0x18C => some (.chkl h a r.bO)
  | _ => none

/-- Core and camp instructions. -/
def buildCore (r : Raw) : Option Instr :=
  let h := r.hdr; let d := r.dO; let a := r.aO; let x := r.x
  match r.op with
  | 0x1C0 => r.ld fun h s d m => .ldP h (.ofCode (r.mod % 4)) s d m
  | 0x1C1 => r.st fun h s b m => .stP h (.ofCode (r.mod % 4)) s b m
  | 0x1C2 => r.ld .ldS
  | 0x1C3 => r.st .stS
  | 0x1C4 => r.atom .atomS
  | 0x1C5 => r.cas .casS
  | 0x1C6 =>
    (EngArg.ofCode x).map fun e =>
      .copy h (.ofCode (r.mod % 4)) (if bit r.mod 3 then some (Fin.ofNat 64 (bits x 9 4)) else none)
        (Fin.ofNat 8 (bits x 2 0)) a r.bO e
  | 0x1C7 => some (.cpwp h (Fin.ofNat 8 (bits x 2 0)) d)
  | 0x1C8 => (EngArg.ofCode x).map fun e => .cpcancel h (Fin.ofNat 8 (bits x 2 0)) e
  | 0x1C9 => r.ld .ldK
  | 0x200 => r.ld .ldN
  | 0x201 => r.st .stN
  | 0x202 => r.ld fun h s d m => .ldV h (bit r.mod 0) s d m
  | 0x203 => r.st fun h s b m => .stV h (bit r.mod 0) s b m
  | 0x204 => r.atom .atomV
  | 0x205 => r.cas .casV
  | 0x206 => (EngArg.ofCode x).map fun e => .taskPost h d a e
  | 0x207 => (EngArg.ofCode x).map fun e => .taskDec h a e
  | 0x208 =>
    if r.mod = 0 then some (.taskStatT h d a)
    else if r.mod = 1 then some (.taskStatW h d (Fin.ofNat 64 (bits x 5 0)))
    else if hq : bits x 2 0 < 7 then some (.taskStatQ h d ⟨bits x 2 0, hq⟩) else none
  | 0x209 => (EngArg.ofCode x).map fun e => .emit h a r.pd0 e
  | 0x20A => (EngArg.ofCode x).map fun e => .pubw h (Fin.ofNat 64 (bits x 5 0)) e
  | _ => none

/-- Tract, package, fabric and system instructions. -/
def buildTract (r : Raw) : Option Instr :=
  let h := r.hdr; let d := r.dO; let a := r.aO; let b := r.bO; let x := r.x
  let chan : Fin 8 := Fin.ofNat 8 (bits x 2 0)
  match r.op with
  | 0x240 => r.ld fun h s d m => .ldG h (.ofCode (r.mod % 4)) (bit r.mod 2) s d m
  | 0x241 => r.st fun h s b m => .stG h (.ofCode (r.mod % 4)) (bit r.mod 2) s b m
  | 0x242 => r.atom .atomG
  | 0x243 => r.cas .casG
  | 0x244 => r.atom fun h op w _ b m => .redG h op w b m
  | 0x245 => r.rng (match r.mod % 32 with | 0 => .hintL2 | 1 => .hintL1 | _ => .hintLru)
  | 0x246 => r.rng (if r.mod % 32 = 0 then .cwbL2 else .cwbMem)
  | 0x247 => r.rng (if r.mod % 32 = 0 then .cinvL1 else .cinvL2)
  | 0x248 => r.rng .iinv
  | 0x249 => some (.fbar h (.ofCode x))
  | 0x280 => r.ld .ldH
  | 0x281 => r.st .stH
  | 0x282 =>
    r.memArg.bind fun m => (HostOp.ofCode (r.mod % 32) (bits x 9 6)).map fun op => .atomH h op d b r.pd0 m
  | 0x283 => r.ld .ldF
  | 0x284 => r.st .stF
  | 0x285 => r.memArg.bind fun m => r.aWidth.map fun w => .atomF h (.ofCode (r.mod % 32)) w d b r.pd0 m
  | 0x286 =>
    (EngArg.ofCode x).map fun e =>
      match r.mod with
      | 0 => .copyFGet h chan a b e
      | 1 => .copyFGetw h (Fin.ofNat 64 (bits x 9 4)) chan a b e
      | _ => .copyFPut h chan a b e
  | 0x2A0 => (SReg.ofCode (bits x 9 0)).map fun s => .rdsr h d s
  | 0x2A1 => (SReg.ofCode (bits x 9 0)).map fun s => .wrsr h s a
  | 0x2A2 => some (.sret h)
  | 0x2A3 => some (.hret h)
  | 0x2A4 =>
    some (match r.mod with
      | 0 => .tlbinvVa h a b
      | 1 => .tlbinvCtx h
      | 2 => .tlbinvGpa h a b
      | _ => .tlbinvVf h)
  | 0x2A5 => some (.ctxsave h (bit r.mod 0) d a r.cO)
  | 0x2A6 => some (.ctxload h d a r.cO)
  | 0x2A7 => some (if r.mod = 0 then .launchRun h d a b else .launchAdm h d a)
  | 0x2A8 => some (.frmset h d a b)
  | 0x2A9 =>
    some (match r.mod with
      | 0 => .l2partSet h d a b
      | 1 => .l2partMask h d a
      | 2 => .l2partOcc h d a b
      | 3 => .l2partHit h d a b
      | 4 => .l2partMiss h d a b
      | 5 => .l2partClr h .clr d a .vz
      | 6 => .l2partClr h .six d a b
      | _ => .l2partClr h .seven d a b)
  | 0x2AA =>
    some (match r.mod with
      | 0 => .keyopLoad h d a b
      | 1 => .keyopErase h d a b
      | _ => .keyopAttest h d a b)
  | 0x2AB => some (.halt h (BitVec.ofNat 8 (bits x 7 0)))
  | 0x2AC => some (.lanepc h a b)
  | 0x2AD =>
    match bits x 1 0 with
    | 0 => some (.lanestRel h a)
    | 1 => some (.lanestHold h a)
    | 2 => some (.lanestExit h a)
    | _ => none
  | _ => none

/-- The instruction a word's fields name, none where an enumerated field holds a reserved value. -/
def build (r : Raw) : Option Instr :=
  if r.op < 0x080 then buildInt r
  else if r.op < 0x100 then buildFlt r
  else if r.op < 0x140 then buildCnv r
  else if r.op < 0x1C0 then buildCtl r
  else if r.op < 0x240 then buildCore r
  else buildTract r

/-- R79: the first of ENC-01 to ENC-04 that the fields fail, or the instruction. ENC-04 holds when no field that the
instruction leaves unused differs from what R57 and R58 fix for it. -/
def decodeRaw (regs : Nat) (r : Raw) : Except EncErr Instr :=
  match opRow r.op r.mod r.x with
  | none => .error .enc01
  | some (modOk, used) =>
    if !modOk then .error .enc02
    else if !operandsOk regs used r then .error .enc03
    else
      match build r with
      | none => .error .enc04
      | some i => if i.wf regs && i.raw == some r then .ok i else .error .enc04

/-- The instruction of a 96-bit word under a `.regs` count (R53, R57, R79). -/
def decode (regs w : Nat) : Except EncErr Instr := decodeRaw regs (Raw.ofWord w)

/-- The instruction an opcode-table word stands for: 96 bits, little-endian in memory (R4, R53). -/
def decodeTableWord (_nbits w : Nat) : Option Instr :=
  match decode 1536 (natOfBytes (bytesOf 12 w)) with
  | .ok i => some i
  | .error _ => none

end Sys2Proof
end

