-- ==== Sys2Proof/Machine/Fetch.lean ====
section
/-!
DEFINITION. Lines and their fetch: parity, the checks of a fetched line, the instruction buffer, and the machine check of cause 0x01
(R50 to R52, R80, R301, R311).
-/

namespace Sys2Proof.Machine

/-- Slot `k` of a line's 64 bytes (R50). -/
def lineSlot (bs : List Byte) (k : Nat) : Nat := natOfBytes ((bs.drop (12 * k)).take 12)

/-- The line word (R51). -/
def lineWord (bs : List Byte) : Nat := natOfBytes ((bs.drop 60).take 4)

/-- Slot parity: SPAR bit 10 + k is the parity of the slot's 96 bits (R52). -/
def slotParity (bs : List Byte) (k : Nat) : Bool := popCount 96 (lineSlot bs k) % 2 == bits (lineWord bs) (10 + k) (10 + k)

/-- A slot agrees with its parity and is an instruction under a `.regs` count (R80). -/
def slotGood (regs : Nat) (bs : List Byte) (k : Nat) : Bool :=
  slotParity bs k && (match decode regs (lineSlot bs k) with
    | .ok _ => true
    | .error _ => false)

/-- The line word agrees with LPAR, its reserved bits are zero and its level is KX1 (R51, R52, ENC-05). -/
def lineWordGood (bs : List Byte) : Bool :=
  let w := lineWord bs
  popCount 32 w % 2 == 0 && bits w 31 24 == 0 && bits w 23 21 == 1 && bits w 20 16 == 0 && bits w 9 9 == 0

/-- The slots of a line that fail, as a mask (R332). -/
def failingSlots (regs : Nat) (bs : List Byte) : Nat :=
  ((List.range 5).filter fun k => !slotGood regs bs k).foldl (fun a k => a + 2 ^ k) 0

/-- An instruction with this OP is a switch point wherever it issues: `bra` and `brx`, which switch only when a lane takes them, are left
out (R64). -/
def switchOp (op : Nat) : Bool :=
  (decide (0x142 ≤ op) && decide (op ≤ 0x14C) && op != 0x148) || (decide (0x185 ≤ op) && decide (op ≤ 0x18C)) || decide (0x1C0 ≤ op)

/-- A fetched line may issue (R80). -/
def lineGood (regs : Nat) (bs : List Byte) : Bool := lineWordGood bs && failingSlots regs bs == 0

/-- The instruction at a PC of the line that a gang holds. -/
def slotInstr (regs : Nat) (g : Gang) (pc : Pc) : Option Instr :=
  match g.line with
  | some (va, bs) =>
    if va = pcLine pc then
      match decode regs (lineSlot bs (pcSlot pc)) with
      | .ok i => some i
      | .error _ => none
    else none
  | none => none

/-- What is wrong with a fetch at a PC before any translation: it lies in no sealed code of the lanes' mode (R18, R82, R95). -/
def fetchTarget (s : State) (c : Crew) (mode : Mode) (pc : Pc) : Bool :=
  let l := s.launchOf c
  codeOf s l.vf l.ctx mode pc

/-- The lanes of the chosen entry are held with one machine-check record (R80). -/
def machineCheck (s : State) (i : Issue) (bs : List Byte) : State :=
  let r := i.c.ring s
  if ringRoom s r 1 then
    let s1 := writeRecord s r (laneRecord i.c i.k 1 3 i.e.mask i.e.pc 0 (failingSlots i.c.regs bs) (lineWord bs))
    s1.setCrew (i.c.mapGang i.k fun g =>
      { g.mapLanes i.e.mask fun _ x => { x with run := .held, pc := i.e.pc } with
        frontier := dropLanes i.e.mask g.frontier, chosen := false, paired := false })
  else ringStall s r i.c.uid (some i.k)

/-- The line reaches the gang: from the core's instruction buffer, or read at its home (R301, R311). -/
def takeLine (s : State) (i : Issue) (w : Who) (lf : Leaf) : State × List Byte :=
  let core := i.c.coreOf
  match s.ibuf.find? (fun e => e.1 == core && e.2.1 == lf.pa) with
  | some e => (s, e.2.2)
  | none =>
    let bs := readLeaves s w ((List.range 64).map fun j => { lf with pa := lf.pa + j })
    let s1 := touch s [lf.pa]
    let s2 := if lf.cp = 2 then s1
      else accessL2 s1 (lf.pa / 128) (fillClass s i.c lf.prot) false false none (fillWorld i.c lf.prot)
    ({ s2 with ibuf := (core, lf.pa, bs) :: s2.ibuf }, bs)

/-- The page that a fetch reaches is the one that the Grader sealed at that VA (R18). -/
def sealedPage (s : State) (c : Crew) (va pa : Nat) : Bool :=
  let l := s.launchOf c
  (sealAt s l.vf l.ctx va).any fun p => p.code && p.pa == pa / 65536

/-- Every lane of the issuing entry raises one trap at the instruction, which has not issued. -/
def entryTrap (s : State) (i : Issue) (f : Nat → Trap) : State :=
  match takeTraps s i.c i.k i.e.prio (i.e.mask.lanes.map f) with
  | some t => t
  | none => ringStall s (i.c.ring s) i.c.uid (some i.k)

/-- The fetch of the line of the chosen entry. A VA that no longer leads to its sealed page is no legal target (R18). -/
def fetchLine (s : State) (i : Issue) : State :=
  let l0 := lowest i.e.mask
  let mode := (i.g.lane l0).mode
  let va := pcLine i.e.pc
  if !fetchTarget s i.c mode i.e.pc then entryTrap s i fun l => badTarget i l i.e.pc
  else
    match laneXlat s (i.c.who s mode) (s.launchOf i.c).desc.pasid (.lane i.c.uid i.k l0) 3 va 1 with
    | (s1, .trap cause a d0 d1) => entryTrap s1 i fun l => faultAt i l cause a d0 d1
    | (s1, .page x) =>
      s1.setCrew (i.c.mapGang i.k fun g =>
        { g with
          pages := g.pages ++ i.e.mask.lanes.map fun l =>
            { lane := l, op := 0, miss := x, acc := 3, user := mode == .user, due := none }
          frontier := stayGroup i i.e.mask :: g.frontier.tail, chosen := false, paired := false })
    | (s1, .ok ls) =>
      match ls with
      | [] => s1
      | lf :: _ =>
        let w := i.c.who s1 mode
        if !sealedPage s1 i.c va lf.pa then entryTrap s1 i fun l => badTarget i l i.e.pc
        else if leafBroken s1 w lf then s1
        else
          let r := takeLine s1 i w lf
          if lineGood i.c.regs r.2 then
            r.1.setCrew (i.c.mapGang i.k fun g => { g with line := some (va, r.2), linePa := lf.pa })
          else machineCheck r.1 i r.2

/-- The gang may issue: its crew is resident and runs, and nothing stops the gang itself. -/
def mayIssue (s : State) (c : Crew) (k : Nat) : Bool :=
  c.isResident && !c.terminating && !(c.gang k).retired && !(c.gang k).stopped && !(c.gang k).halted && !(c.gang k).fbarPending &&
    !(s.ringWait.any fun w => w.crew == c.uid && w.gang == some k)

/-- What a gang of a crew is to issue from, once it has chosen an entry. -/
def gangIssue (s : State) (c : Crew) (k : Nat) : Option Issue :=
  if mayIssue s c k then
    match chooseEntry (wakeCounted s c k) with
    | some g =>
      match g.frontier with
      | e :: _ => some { c := c.setGang k g, k := k, g := g, e := e }
      | [] => none
    | none => none
  else none

/-- A core fetches the line of the entry that a gang of its resident crew is to issue from (R80). -/
def execLineFetch (core k : Nat) (s : State) : Host.Outcome State Fault Refusal :=
  match s.resident? core with
  | none => finish s
  | some c =>
    match gangIssue s c k with
    | some i => finish (fetchLine s i)
    | none => finish s

end Sys2Proof.Machine
end

