-- ==== Sys2Proof/Machine/Functions.lean ====
section
/-!
DEFINITION. The correctly rounded functions of R42. Each irrational value is enclosed between two fixed-point
numbers; when both ends round alike, so does the value. An enclosure is tried at two precisions.
-/

namespace Sys2Proof.Machine

/-- An enclosure of a positive irrational: lo·2^exp < x < hi·2^exp, with lo < hi. -/
structure Bracket where
  lo : Nat
  hi : Nat
  exp : Int
  deriving DecidableEq, Repr

/-- The rounding of every value inside the enclosure, where they all round alike. -/
def roundBracket (rmode : Rnd) (neg : Bool) (b : Bracket) : Option (Nat × FlagSet) :=
  let x := roundFmt .f32 rmode { neg := neg, num := b.lo, exp := b.exp, sticky := true }
  let y := roundFmt .f32 rmode { neg := neg, num := b.hi - 1, exp := b.exp, sticky := true }
  if x = y then some x else none

def Rnd.num : Rnd → Nat
  | .rn => 0 | .rz => 1 | .rp => 2 | .rm => 3 | .ra => 4

/-- The first enclosure that decides the rounding; else a free value (R42 fixes one the model does not reach). -/
def roundFirst (fn x : Nat) (rmode : Rnd) (neg : Bool) (bs : List (Option Bracket)) : Nat × FlagSet :=
  match bs.findSome? (fun b => b.bind (roundBracket rmode neg)) with
  | some r => r
  | none => ((Config.undecidedRounding fn x (Rnd.num rmode)).toNat, Config.undecidedFlags fn x (Rnd.num rmode))

/-- NaN operands (R38): NV when signalling, the quieted NaN, the generated NaN at level 1. -/
def nanResult (lvl1 : Bool) (x : Fp) : Nat × FlagSet := (propagate .f32 lvl1 [x], snanFlag .f32 [x])

def invalidResult : Nat × FlagSet := (Fmt.f32.genNan, flagNV)

/-- rcp (R42). An inexact subnormal quotient raises UF, as R33 and R150 say; R154's table leaves UF out for rcp (log 106). -/
def fnRcp (lvl1 : Bool) (rmode : Rnd) (x : Fp) : Nat × FlagSet :=
  match x with
  | .nan _ _ => nanResult lvl1 x
  | .inf n => (Fmt.f32.zero n, 0#6)
  | .fin n a e => if a = 0 then (Fmt.f32.inf n, flagDZ) else roundFmt .f32 rmode (exQuot n 1 a (-e))

/-- sqrt (R42). -/
def fnSqrt (lvl1 : Bool) (rmode : Rnd) (x : Fp) : Nat × FlagSet :=
  match x with
  | .nan _ _ => nanResult lvl1 x
  | .inf n => if n then invalidResult else (Fmt.f32.inf false, 0#6)
  | .fin n a e =>
    if a = 0 then (Fmt.f32.zero n, 0#6) else if n then invalidResult else roundFmt .f32 rmode (exSqrtQuot a 1 e)

/-- rsqrt (R42). -/
def fnRsqrt (lvl1 : Bool) (rmode : Rnd) (x : Fp) : Nat × FlagSet :=
  match x with
  | .nan _ _ => nanResult lvl1 x
  | .inf n => if n then invalidResult else (Fmt.f32.zero false, 0#6)
  | .fin n a e =>
    if a = 0 then (Fmt.f32.inf n, flagDZ) else if n then invalidResult else roundFmt .f32 rmode (exSqrtQuot 1 a (-e))

/-- The product of the factors 2^(2^-i) over the one bits of the fraction num/2^k, i from `i` on, as an enclosure
scaled by 2^p; `c` encloses 2^(2^-(i-1)). -/
def exp2Bits (p k num : Nat) : Nat → Nat → Nat × Nat → Nat × Nat → Nat × Nat
  | 0, _, c, (lo, hi) => (lo, hi * c.2 / 2 ^ p + 1)
  | t + 1, i, c, (lo, hi) =>
    let c' := (isqrt (c.1 * 2 ^ p), isqrt (c.2 * 2 ^ p) + 1)
    let acc := if i ≤ k ∧ num / 2 ^ (k - i) % 2 = 1 then (lo * c'.1 / 2 ^ p, hi * c'.2 / 2 ^ p + 1) else (lo, hi)
    exp2Bits p k num t (i + 1) c' acc

/-- An enclosure of 2^(n + num/2^k), 0 < num < 2^k. -/
def exp2Bracket (p : Nat) (n : Int) (num k : Nat) : Bracket :=
  let (lo, hi) := exp2Bits p k num p 1 (2 ^ (p + 1), 2 ^ (p + 1)) (2 ^ p, 2 ^ p)
  { lo := lo, hi := min hi (2 ^ (p + 1)), exp := n - p }

/-- exp2 (R42). -/
def fnExp2 (lvl1 : Bool) (rmode : Rnd) (x : Fp) (raw : Nat) : Nat × FlagSet :=
  match x with
  | .nan _ _ => nanResult lvl1 x
  | .inf n => (if n then Fmt.f32.zero false else Fmt.f32.inf false, 0#6)
  | .fin n a e =>
    if a = 0 then (Fmt.f32.signed false 0x3F800000, 0#6)
    else if (Ex.ofFin n a e).log ≥ 9 then
      roundFmt .f32 rmode { neg := false, num := 1, exp := if n then -512 else 512, sticky := true }
    else if 0 ≤ e then
      roundFmt .f32 rmode (Ex.ofFin false 1 (scaled n a e 0))
    else
      let k := (-e).toNat
      let v : Int := if n then -(a : Int) else a
      let w := v / (2 ^ k : Nat)
      let f := (v % (2 ^ k : Nat)).toNat
      if f = 0 then roundFmt .f32 rmode (Ex.ofFin false 1 w)
      else roundFirst 0 raw rmode false [some (exp2Bracket 80 w f k), some (exp2Bracket 160 w f k)]

/-- `t` binary digits of log2(m), m the enclosure over 2^p; none when a digit is not decided. -/
def log2Bits (p : Nat) : Nat → Nat → Nat × Nat → Option Nat
  | 0, acc, _ => some acc
  | t + 1, acc, (lo, hi) =>
    let l := lo * lo / 2 ^ p
    let h := hi * hi / 2 ^ p + 1
    if 2 ^ (p + 1) ≤ l then log2Bits p t (2 * acc + 1) (l / 2, h / 2 + 1)
    else if h ≤ 2 ^ (p + 1) then log2Bits p t (2 * acc) (l, h)
    else none

/-- The enclosure of |log2(a · 2^e)|, with its sign, from `t` fraction digits. -/
def log2Bracket (p t a : Nat) (e : Int) : Option (Bool × Bracket) :=
  let l := Nat.log2 a
  let m := a * 2 ^ (p - l)
  (log2Bits p t 0 (m, m)).map fun acc =>
    let v : Int := (l + e) * (2 ^ t : Nat) + acc
    if 0 ≤ v then (false, { lo := v.toNat, hi := v.toNat + 1, exp := -t })
    else (true, { lo := (-v - 1).toNat, hi := (-v).toNat, exp := -t })

/-- log2 (R42). -/
def fnLog2 (lvl1 : Bool) (rmode : Rnd) (x : Fp) (raw : Nat) : Nat × FlagSet :=
  match x with
  | .nan _ _ => nanResult lvl1 x
  | .inf n => if n then invalidResult else (Fmt.f32.inf false, 0#6)
  | .fin n a e =>
    if a = 0 then (Fmt.f32.inf true, flagDZ)
    else if n then invalidResult
    else if a = 2 ^ Nat.log2 a then
      let k : Int := Nat.log2 a + e
      if k = 0 then (Fmt.f32.zero false, 0#6) else roundFmt .f32 rmode (Ex.ofInt k)
    else
      match [log2Bracket 220 80 a e, log2Bracket 400 100 a e].findSome? id with
      | some (neg, b) => roundFirst 1 raw rmode neg [some b]
      | none => roundFirst 1 raw rmode false []

/-- Partial sums of arctan(1/n) · 2^q: `sum` and the power 2^q / n^(2j+1). -/
def atanTerms (n : Nat) : Nat → Nat → Nat → Int → Int
  | 0, _, _, sum => sum
  | f + 1, j, pw, sum =>
    let t : Int := pw / (2 * j + 1)
    atanTerms n f (j + 1) (pw / (n * n)) (if j % 2 = 0 then sum + t else sum - t)

/-- An enclosure of pi · 2^q (Machin's formula; every term is off by less than 1, 100 terms). -/
def piBracket (q : Nat) : Nat × Nat :=
  let v := 16 * atanTerms 5 100 0 (2 ^ q / 5) 0 - 4 * atanTerms 239 40 0 (2 ^ q / 239) 0
  ((v - 4096).toNat, (v + 4096).toNat)

/-- The alternating series of sin(y)/y in z = y², scaled by 2^p: lower and upper sums. -/
def sincTerms (p : Nat) (zl zu : Nat) : Nat → Nat → Nat → Nat → Int → Int → Int × Int
  | 0, _, _, tu, sl, su => (sl - tu, su + tu)
  | f + 1, j, tl, tu, sl, su =>
    let even := j % 2 = 0
    let sl' : Int := if even then sl + tl else sl - tu
    let su' : Int := if even then su + tu else su - tl
    let d := (2 * j + 2) * (2 * j + 3)
    sincTerms p zl zu f (j + 1) (tl * zl / 2 ^ p / d) (tu * zu / 2 ^ p / d + 1) sl' su'

/-- An enclosure of sin(pi · t / 2^k), 0 < t < 2^(k-1). -/
def sinpiBracket (p t k : Nat) : Bracket :=
  let q := p + 16
  let (pl, pu) := piBracket q
  let den := 2 ^ (2 * q + 2 * k)
  let zl := pl * pl * (t * t) * 2 ^ p / den
  let zu := pu * pu * (t * t) * 2 ^ p / den + 1
  let (sl, su) := sincTerms p zl zu 40 0 (2 ^ p) (2 ^ p) 0 0
  let gl := sl.toNat * pl / 2 ^ q
  let gu := su.toNat * pu / 2 ^ q + 1
  { lo := t * gl, hi := min (t * gu) (2 ^ (k + p)), exp := -((k + p : Nat) : Int) }

/-- The rounding of ±sin(pi · t / 2^k), 0 < t ≤ 2^(k-1); t = 2^(k-1) is exactly 1. -/
def sinpiRounded (fn raw : Nat) (rmode : Rnd) (neg : Bool) (t k : Nat) : Nat × FlagSet :=
  if 2 * t = 2 ^ k then roundFmt .f32 rmode (Ex.ofFin neg 1 0)
  else roundFirst fn raw rmode neg [some (sinpiBracket 100 t k), some (sinpiBracket 180 t k)]

/-- sinpi (R42). -/
def fnSinpi (lvl1 : Bool) (rmode : Rnd) (x : Fp) (raw : Nat) : Nat × FlagSet :=
  match x with
  | .nan _ _ => nanResult lvl1 x
  | .inf _ => invalidResult
  | .fin n a e =>
    let k := (-e).toNat
    let t := (if 0 ≤ e then 0 else a) % 2 ^ (k + 1)
    if t % 2 ^ k = 0 then (Fmt.f32.zero n, 0#6)
    else
      let neg := n != decide (2 ^ k < t)
      let u := t % 2 ^ k
      sinpiRounded 2 raw rmode neg (if 2 ^ k < 2 * u then 2 ^ k - u else u) k

/-- cospi (R42). -/
def fnCospi (lvl1 : Bool) (rmode : Rnd) (x : Fp) (raw : Nat) : Nat × FlagSet :=
  match x with
  | .nan _ _ => nanResult lvl1 x
  | .inf _ => invalidResult
  | .fin _ a e =>
    let k := (-e).toNat + 1
    let t := (a * 2 ^ ((e + k).toNat)) % 2 ^ (k + 1)
    let u := if 2 ^ k < t then 2 ^ (k + 1) - t else t
    let neg := decide (2 ^ k < 2 * u)
    let w := if neg then 2 ^ k - u else u
    if 2 * w = 2 ^ k then (Fmt.f32.zero false, 0#6)
    else sinpiRounded 3 raw rmode neg (2 ^ (k - 1) - w) k

end Sys2Proof.Machine
end

