-- ==== Sys2Proof/Machine/Float.lean ====
section
/-!
DEFINITION. The floating-point instructions, 0x080 to 0x098 (R140 to R153): one meaning each.
-/

namespace Sys2Proof.Machine

/-- The element format and the number of elements of a type (R143). -/
def FlTy.fmt : FlTy → Fmt
  | .f32 => .f32
  | .f16x2 => .f16
  | .bf16x2 => .bf16

def FlTy.k : FlTy → Nat
  | .f32 => 1
  | _ => 2

/-- The pattern of element `i` of a register (R143). -/
def flElem (t : FlTy) (x i : Nat) : Nat := x / 2 ^ (16 * i) % 2 ^ Fmt.width (FlTy.fmt t)

/-- Src of operands A, B and C (R142, R143). -/
def srcA (t : FlTy) (lvl1 : Bool) (m : Mods) (x i : Nat) : Fp := srcFp (FlTy.fmt t) lvl1 m.aa m.na (flElem t x i)
def srcBf (t : FlTy) (lvl1 : Bool) (m : Mods) (x i : Nat) : Fp := srcFp (FlTy.fmt t) lvl1 m.ab m.nb (flElem t x i)
def srcC (t : FlTy) (lvl1 : Bool) (m : Mods) (x i : Nat) : Fp := srcFp (FlTy.fmt t) lvl1 m.ac m.nc (flElem t x i)

/-- A register of elements, and the flags of all of them (R36, R145). -/
def flPack (t : FlTy) (f : Nat → Nat × Flags6) : LaneOut :=
  let rs := (List.range (FlTy.k t)).map f
  LaneOut.val 1 (packEls (Fmt.width (FlTy.fmt t)) (rs.map fun r => (r.1 : Int))) ((rs.map Prod.snd).foldl (· ||| ·) 0#6)

/-- An instruction of two operands, element by element. -/
def flt2 (s : State) (h : Hdr) (t : FlTy) (d a : Opnd) (b : SrcB) (m : Mods) (f : Bool → Fp → Fp → Nat × Flags6) :
    Host.Outcome State Fault Refusal :=
  issueLanes s h d ([(d, 1), (a, 1)] ++ useB 1 b) [] fun lvl1 _ rd =>
    flPack t fun i => f lvl1 (srcA t lvl1 m (rd a 1) i) (srcBf t lvl1 m (srcB32 rd b) i)

/-- An instruction of three operands, element by element. -/
def flt3 (s : State) (h : Hdr) (t : FlTy) (d a b c : Opnd) (m : Mods) (f : Bool → Fp → Fp → Fp → Nat × Flags6) :
    Host.Outcome State Fault Refusal :=
  issueLanes s h d [(d, 1), (a, 1), (b, 1), (c, 1)] [] fun lvl1 _ rd =>
    flPack t fun i => f lvl1 (srcA t lvl1 m (rd a 1) i) (srcBf t lvl1 m (rd b 1) i) (srcC t lvl1 m (rd c 1) i)

/-- An instruction of one operand, element by element; `f` also receives the pattern. -/
def flt1 (s : State) (h : Hdr) (t : FlTy) (d a : Opnd) (f : Bool → Fp → Nat → Nat × Flags6) : Host.Outcome State Fault Refusal :=
  issueLanes s h d [(d, 1), (a, 1)] [] fun lvl1 _ rd =>
    flPack t fun i => f lvl1 (srcA t lvl1 Mods.none (rd a 1) i) (flElem t (rd a 1) i)

/-- A dot product: `n` elements of formats `fa` and `fb`, `w` bits apart, and an `f32` addend (R153). -/
def fltDot (s : State) (h : Hdr) (r : Rnd) (d a b c : Opnd) (m : Mods) (fa fb : Fmt) (n w : Nat) :
    Host.Outcome State Fault Refusal :=
  issueLanes s h d [(d, 1), (a, 1), (b, 1), (c, 1)] [] fun lvl1 _ rd =>
    let xs := (List.range n).map fun i => srcFp fa lvl1 m.aa m.na (rd a 1 / 2 ^ (w * i) % 2 ^ w)
    let ys := (List.range n).map fun i => srcFp fb lvl1 m.ab m.nb (rd b 1 / 2 ^ (w * i) % 2 ^ w)
    let x := fpDot fa fb lvl1 r xs ys (srcC .f32 lvl1 m (rd c 1) 0)
    LaneOut.val 1 x.1 x.2

/-- `fadd` (R145). -/
def execFadd (h : Hdr) (r : Rnd) (d a : Opnd) (b : SrcB) (m : Mods) (s : State) : Host.Outcome State Fault Refusal :=
  flt2 s h .f32 d a b m fun lvl1 x y => fpAdd .f32 lvl1 r x y

/-- `fsub` (R145). -/
def execFsub (h : Hdr) (r : Rnd) (d a : Opnd) (b : SrcB) (m : Mods) (s : State) : Host.Outcome State Fault Refusal :=
  flt2 s h .f32 d a b m fun lvl1 x y => fpSub .f32 lvl1 r x y

/-- `fmul` (R145). -/
def execFmul (h : Hdr) (r : Rnd) (d a : Opnd) (b : SrcB) (m : Mods) (s : State) : Host.Outcome State Fault Refusal :=
  flt2 s h .f32 d a b m fun lvl1 x y => fpMul .f32 lvl1 r x y

/-- `fma` (R145). -/
def execFma (h : Hdr) (r : Rnd) (d a b c : Opnd) (m : Mods) (s : State) : Host.Outcome State Fault Refusal :=
  flt3 s h .f32 d a b c m fun lvl1 x y z => fpFma .f32 lvl1 r x y z

/-- `fmin` (R146). -/
def execFmin (h : Hdr) (d a : Opnd) (b : SrcB) (m : Mods) (nanp : Bool) (s : State) : Host.Outcome State Fault Refusal :=
  flt2 s h .f32 d a b m fun lvl1 x y => fpMinMax .f32 lvl1 false nanp x y

/-- `fmax` (R146). -/
def execFmax (h : Hdr) (d a : Opnd) (b : SrcB) (m : Mods) (nanp : Bool) (s : State) : Host.Outcome State Fault Refusal :=
  flt2 s h .f32 d a b m fun lvl1 x y => fpMinMax .f32 lvl1 true nanp x y

/-- `fcmp` (R147). -/
def execFcmp (h : Hdr) (t : FlTy) (d a : Opnd) (b : SrcB) (cc : FcmpCC) (op : Comb) (pd : PredOpt) (s : State) : Host.Outcome State Fault Refusal :=
  issueLanes s h d ([(d, 1), (a, 1)] ++ useB 1 b) [pd, combPred op] fun lvl1 x rd =>
    let rs := (List.range (FlTy.k t)).map fun i =>
      fpCond (FlTy.fmt t) cc (srcA t lvl1 Mods.none (rd a 1) i) (srcBf t lvl1 Mods.none (srcB32 rd b) i)
    let v := cmpResult (Fmt.width (FlTy.fmt t)) (FlTy.k t) (rs.map Prod.fst)
    { words := wordsOf 1 v.1, preds := predOut pd (combine x op v.2), flags := (rs.map Prod.snd).foldl (· ||| ·) 0#6 }

/-- `frnd` (R149). -/
def execFrnd (h : Hdr) (t : FlTy) (r : Rnd) (d a : Opnd) (exact : Bool) (s : State) : Host.Outcome State Fault Refusal :=
  flt1 s h t d a fun lvl1 x _ => fpRound (FlTy.fmt t) lvl1 r exact x

/-- `fclass` (R148). -/
def execFclass (h : Hdr) (t : FlTy) (d a : Opnd) (mask : BitVec 10) (pd : PredOpt) (s : State) : Host.Outcome State Fault Refusal :=
  issueLanes s h d [(d, 1), (a, 1)] [pd] fun lvl1 _ rd =>
    let cs := (List.range (FlTy.k t)).map fun i => fpClass (FlTy.fmt t) (srcA t lvl1 Mods.none (rd a 1) i)
    { words := wordsOf 1 (packEls 16 (cs.map fun c : Nat => (c : Int)))
      preds := predOut pd (cs.any fun c => c &&& mask.toNat != 0), flags := 0#6 }

/-- `rcp` (R150, R42). -/
def execRcp (h : Hdr) (r : Rnd) (d a : Opnd) (s : State) : Host.Outcome State Fault Refusal :=
  flt1 s h .f32 d a fun lvl1 x _ => fnRcp lvl1 r x

/-- `rsqrt` (R150, R42). -/
def execRsqrt (h : Hdr) (r : Rnd) (d a : Opnd) (s : State) : Host.Outcome State Fault Refusal :=
  flt1 s h .f32 d a fun lvl1 x _ => fnRsqrt lvl1 r x

/-- `sqrt` (R150, R42). -/
def execSqrt (h : Hdr) (r : Rnd) (d a : Opnd) (s : State) : Host.Outcome State Fault Refusal :=
  flt1 s h .f32 d a fun lvl1 x _ => fnSqrt lvl1 r x

/-- `exp2` (R150, R42). -/
def execExp2 (h : Hdr) (r : Rnd) (d a : Opnd) (s : State) : Host.Outcome State Fault Refusal :=
  flt1 s h .f32 d a fun lvl1 x raw => fnExp2 lvl1 r x raw

/-- `log2` (R150, R42). -/
def execLog2 (h : Hdr) (r : Rnd) (d a : Opnd) (s : State) : Host.Outcome State Fault Refusal :=
  flt1 s h .f32 d a fun lvl1 x raw => fnLog2 lvl1 r x raw

/-- `sinpi` (R150, R42). -/
def execSinpi (h : Hdr) (r : Rnd) (d a : Opnd) (s : State) : Host.Outcome State Fault Refusal :=
  flt1 s h .f32 d a fun lvl1 x raw => fnSinpi lvl1 r x raw

/-- `cospi` (R150, R42). -/
def execCospi (h : Hdr) (r : Rnd) (d a : Opnd) (s : State) : Host.Outcome State Fault Refusal :=
  flt1 s h .f32 d a fun lvl1 x raw => fnCospi lvl1 r x raw

/-- `fscale` (R151). -/
def execFscale (h : Hdr) (r : Rnd) (d a : Opnd) (b : SrcB) (s : State) : Host.Outcome State Fault Refusal :=
  issueLanes s h d ([(d, 1), (a, 1)] ++ useB 1 b) [] fun lvl1 _ rd =>
    let x := fpScale lvl1 r (srcA .f32 lvl1 Mods.none (rd a 1) 0) (signExt (srcB32 rd b) 32)
    LaneOut.val 1 x.1 x.2

/-- `fexp` (R152). -/
def execFexp (h : Hdr) (d a : Opnd) (s : State) : Host.Outcome State Fault Refusal :=
  flt1 s h .f32 d a fun _ x _ => fpExp x

/-- `hadd2` (R145). -/
def execHadd2 (h : Hdr) (t : FlTy) (r : Rnd) (d a : Opnd) (b : SrcB) (m : Mods) (s : State) : Host.Outcome State Fault Refusal :=
  flt2 s h t d a b m fun lvl1 x y => fpAdd (FlTy.fmt t) lvl1 r x y

/-- `hmul2` (R145). -/
def execHmul2 (h : Hdr) (t : FlTy) (r : Rnd) (d a : Opnd) (b : SrcB) (m : Mods) (s : State) : Host.Outcome State Fault Refusal :=
  flt2 s h t d a b m fun lvl1 x y => fpMul (FlTy.fmt t) lvl1 r x y

/-- `hfma2` (R145). -/
def execHfma2 (h : Hdr) (t : FlTy) (r : Rnd) (d a b c : Opnd) (m : Mods) (s : State) : Host.Outcome State Fault Refusal :=
  flt3 s h t d a b c m fun lvl1 x y z => fpFma (FlTy.fmt t) lvl1 r x y z

/-- `hmin2` (R146). -/
def execHmin2 (h : Hdr) (t : FlTy) (d a : Opnd) (b : SrcB) (m : Mods) (nanp : Bool) (s : State) : Host.Outcome State Fault Refusal :=
  flt2 s h t d a b m fun lvl1 x y => fpMinMax (FlTy.fmt t) lvl1 false nanp x y

/-- `hmax2` (R146). -/
def execHmax2 (h : Hdr) (t : FlTy) (d a : Opnd) (b : SrcB) (m : Mods) (nanp : Bool) (s : State) : Host.Outcome State Fault Refusal :=
  flt2 s h t d a b m fun lvl1 x y => fpMinMax (FlTy.fmt t) lvl1 true nanp x y

/-- `fdot2` (R153). -/
def execFdot2 (h : Hdr) (t : FlTy) (r : Rnd) (d a b c : Opnd) (m : Mods) (s : State) : Host.Outcome State Fault Refusal :=
  fltDot s h r d a b c m (FlTy.fmt t) (FlTy.fmt t) 2 16

/-- `fdot4` (R153). -/
def execFdot4 (h : Hdr) (r : Rnd) (d a b c : Opnd) (m : Mods) (fa fb : Bool) (s : State) : Host.Outcome State Fault Refusal :=
  fltDot s h r d a b c m (if fa then .f8e5 else .f8e4) (if fb then .f8e5 else .f8e4) 4 8

end Sys2Proof.Machine
end

