-- ==== Sys2Proof/Machine/GraderImage.lean ====
section
/-!
DEFINITION. The kernel image as a Grader reads it: the reads, the header and its tables, the grant list, and the IMG rules
(R335, R337 to R341, R356, R358, R359, R369).
-/

namespace Sys2Proof.Machine

/-! Reading (R336, R337). -/

/-- `n` bytes of a context at a VA, page by page; else the VA at which reading stops. Poisoned data stops it as a page that does not
translate. -/
def graderBytes (s : State) (w : Who) (va n : Nat) : Except Nat (List Byte) := do
  let pages ← (List.range ((va % 65536 + n + 65535) / 65536)).mapM fun i =>
    let a := max va ((va / 65536 + i) * 65536)
    let e := min (va + n) ((va / 65536 + i + 1) * 65536)
    match translate s w 0 a with
    | (_, .ok lf) =>
      if s.poisoned.any (fun l => decide (lf.pa / 128 ≤ l) && decide (128 * l < lf.pa + (e - a))) then .error a
      else if (List.range (e - a)).any (fun j => leafBroken s w { lf with pa := lf.pa + j }) then .error a
      else .ok (readLeaves s w ((List.range (e - a)).map fun j => { lf with pa := lf.pa + j }))
    | _ => .error a
  return if n = 0 then [] else pages.flatten

/-- A range of bytes is readable, by its pages. -/
def graderPages (s : State) (w : Who) (va n : Nat) : Except Nat (List (Nat × Nat)) :=
  if n = 0 then .ok [] else
  (List.range ((va % 65536 + n + 65535) / 65536)).mapM fun i =>
    match translate s w 0 (max va ((va / 65536 + i) * 65536)) with
    | (_, .ok lf) => .ok (va / 65536 + i, lf.pa / 65536)
    | _ => .error (max va ((va / 65536 + i) * 65536))

/-! The image (R338 to R341). -/

def KObj.space (o : KObj) : Nat := o.flags % 16
def KObj.lock (o : KObj) : Bool := bit o.flags 4
def KObj.dflt (o : KObj) : Bool := bit o.flags 5

/-- A bound of a `.ptr` item: a signed constant, or a register (R339). -/
def bndOf (isReg : Bool) (w : Nat) : Bnd :=
  if isReg then { reg := some (w % 2048), k := 0 } else { reg := none, k := signExt w 32 }

/-- An annotation item from its four words (R339). -/
def itemOf (w : List Nat) : Item :=
  let w0 := nth0 w 0
  match w0 % 16 with
  | 1 => .type (bits w0 14 4) (bits w0 22 16)
  | 2 => .ptr (bits w0 14 4) (nth0 w 1) (bndOf (bit w0 23) (nth0 w 2)) (bndOf (bit w0 24) (nth0 w 3))
  | 3 => .rel (bits w0 14 4) (bits w0 17 16) (nth0 w 1 % 2048)
  | _ => .holds (nth0 w 1)

/-- A register bound names a register below 1,536 and nothing else. -/
def boundBad (isReg : Bool) (w : Nat) : Bool := isReg && decide (1536 ≤ w)

/-- The word of an item that is malformed, if one is: an unknown kind, an unused bit, a register or lock that does not exist (R339). -/
def itemBad (locks : Nat) (w : List Nat) : Option Nat :=
  let w0 := nth0 w 0
  let reg := decide (1536 ≤ bits w0 14 4)
  let zeroFrom := fun (n : Nat) => ((List.range 4).filter fun i => decide (n ≤ i) && nth0 w i != 0).head?
  match w0 % 16 with
  | 1 => if reg || bits w0 31 23 != 0 || bit w0 15 then some 0 else zeroFrom 1
  | 2 =>
    if reg || bits w0 31 25 != 0 || bits w0 22 15 != 0 then some 0
    else if boundBad (bit w0 23) (nth0 w 2) then some 2
    else if boundBad (bit w0 24) (nth0 w 3) then some 3 else none
  | 3 =>
    if reg || bits w0 31 18 != 0 || bit w0 15 || bits w0 17 16 == 3 then some 0
    else if 1536 ≤ nth0 w 1 then some 1 else zeroFrom 2
  | 4 => if w0 / 16 != 0 then some 0 else if 2 ^ locks ≤ nth0 w 1 then some 1 else zeroFrom 2
  | _ => some 0

/-- 16-byte items as words. -/
def itemWords (bs : List Byte) (n : Nat) : List (List Nat) :=
  (List.range n).map fun i => (List.range 4).map fun j => fieldAt bs (16 * i + 4 * j) 4

def blockOf (off : Nat) (r items : List Byte) : KBlock :=
  let f := fieldAt r 4 4
  let ws := itemWords items (items.length / 16)
  { off := off, line := fieldAt r 0 4 / 8, slot := fieldAt r 0 4 % 8, ventry := bit f 21, mode := bits f 20 19, fentry := bit f 18
    kentry := bit f 17, region := bit f 16, prio := f % 65536, hash := fieldAt r 8 4, items := ws.map itemOf, raw := r, words := ws }

def objOf (r : List Byte) : KObj :=
  { hash := fieldAt r 0 4, flags := fieldAt r 4 4, addr := fieldAt r 8 8, size := fieldAt r 16 8, slot := fieldAt r 24 4
    top := fieldAt r 28 4 }

def kernOf (r : List Byte) : KEntry :=
  { block := fieldAt r 0 4, regs := fieldAt r 4 2, gangs := bits (fieldAt r 4 4) 20 16, scratch := fieldAt r 8 4, raw := r }

def importOf (r items : List Byte) : KImport :=
  let ws := itemWords items (items.length / 16)
  let n := fieldAt r 8 2
  { imp := { hash := fieldAt r 0 4, index := fieldAt r 4 4, entry := (ws.take n).map itemOf, back := (ws.drop n).map itemOf }
    raw := r, words := ws }

def kLineOf (bs : List Byte) : KLine :=
  { bytes := bs, slots := (List.range 5).map (lineSlot bs), word := lineWord bs }

/-- Consecutive pieces of `k` bytes, `n` of them. -/
def pieces (k : Nat) : Nat → List Byte → List (List Byte)
  | 0, _ => []
  | n + 1, bs => bs.take k :: pieces k n (bs.drop k)

/-- Reads an image. -/
def readImage (rd : Nat → Nat → Except Nat (List Byte)) (va : Nat) : Except Nat KImage := do
  let h ← rd va 128
  let at_ := fun (f : Nat) => va + fieldAt h f 4
  let nb := fieldAt h 0x14 4
  let index ← rd (at_ 0x18) (4 * nb)
  let blocks ← (List.range nb).mapM fun i => do
    let off := fieldAt index (4 * i) 4
    let r ← rd (va + off) 16
    let items ← rd (va + off + 16) (16 * fieldAt r 12 2)
    return blockOf off r items
  let objs ← rd (at_ 0x20) (32 * fieldAt h 0x1C 4)
  let kerns ← rd (at_ 0x28) (16 * fieldAt h 0x24 4)
  let imps ← rd (at_ 0x30) (32 * fieldAt h 0x2C 4)
  let imps ← (pieces 32 (fieldAt h 0x2C 4) imps).mapM fun r => do
    let items ← rd (va + fieldAt r 12 4) (16 * (fieldAt r 8 2 + fieldAt r 10 2))
    return importOf r items
  let code ← rd (fieldAt h 8 8) (64 * fieldAt h 0x10 4)
  let consts ← rd (fieldAt h 0x38 8) (fieldAt h 0x40 4)
  return { header := h, codeva := fieldAt h 8 8, nlines := fieldAt h 0x10 4, constva := fieldAt h 0x38 8, constsz := fieldAt h 0x40 4
           blocks := blocks, objs := (pieces 32 (fieldAt h 0x1C 4) objs).map objOf
           kerns := (pieces 16 (fieldAt h 0x24 4) kerns).map kernOf, imps := imps
           code := (pieces 64 (fieldAt h 0x10 4) code).map kLineOf, consts := consts }

/-! Grants (R335). -/

def Grant.len (g : Grant) : Nat := g.flags % 2 ^ 40
def Grant.space (g : Grant) : Nat := bits g.flags 49 48
def Grant.write (g : Grant) : Bool := bit g.flags 50
def Grant.bad (g : Grant) : Bool := bits g.flags 63 51 != 0 || g.space == 3

def grantsOf (bs : List Byte) (n : Nat) : List Grant :=
  (pieces 16 n bs).map fun b => { addr := fieldAt b 0 8, flags := fieldAt b 8 8 }

/-- An object's extent lies inside a grant of its space, module included (R340). -/
def Grant.covers (g : Grant) (o : KObj) : Bool :=
  let a := if o.space = 6 then o.addr % 2 ^ 56 else o.addr
  g.space + 4 == o.space && (o.space != 6 || bits g.flags 47 40 == o.addr / 2 ^ 56) && decide (g.addr ≤ a) &&
    decide (a + o.size ≤ g.addr + g.len)

/-! What the walk asks of an image. -/

/-- The block that begins at a slot, by its index. -/
def KImage.blockAt (im : KImage) (line slot : Nat) : Option (Nat × KBlock) :=
  ((List.range im.blocks.length).zip im.blocks).find? fun x => x.2.line == line && x.2.slot == slot

/-- The last block at or before a slot, by its index. -/
def KImage.blockOver (im : KImage) (line slot : Nat) : Option (Nat × KBlock) :=
  (((List.range im.blocks.length).zip im.blocks).filter fun x => decide (8 * x.2.line + x.2.slot ≤ 8 * line + slot)).getLast?

/-- A block that begins a `.kernel`, a `.vector` or a `.func`. -/
def KBlock.entry (b : KBlock) : Bool := b.kentry || b.ventry || b.fentry

/-- The entry block of the `.kernel`, `.vector` or `.func` that holds a slot. -/
def KImage.unitOf (im : KImage) (line slot : Nat) : Option (Nat × KBlock) :=
  (((List.range im.blocks.length).zip im.blocks).filter fun x =>
    x.2.entry && decide (8 * x.2.line + x.2.slot ≤ 8 * line + slot)).getLast?

/-- The kernel-table entry of an entry block. -/
def KImage.kernOf (im : KImage) (b : Nat) : Option KEntry := im.kerns.find? fun k => k.block == b

/-- The `.regs` that applies to the code of a unit (R57). -/
def KImage.regsOf (im : KImage) (unit : Option (Nat × KBlock)) : Nat :=
  let all := if im.kerns.isEmpty then 1536 else im.kerns.foldl (fun m k => max m k.regs) 0
  match unit with
  | some (i, b) => if b.fentry then all else ((im.kernOf i).map (·.regs)).getD all
  | none => all

/-- The PC value of a slot (R82). -/
def KImage.pc (im : KImage) (line slot : Nat) : Nat := (im.codeva + 64 * line + slot) % 2 ^ 64

/-- An object by its number. -/
def KImage.obj (im : KImage) (o : Nat) : KObj :=
  im.objs.getD o { hash := 0, flags := 0, addr := 0, size := 0, slot := 0xFFFFFFFF, top := 0 }

/-- The number of a lock object among the locks (R339). -/
def KImage.lockNo (im : KImage) (o : Nat) : Nat := ((im.objs.take o).filter KObj.lock).length

/-- The scratchpad allocation that bounds `.s` in a unit; a function's is the least of the image's kernels'. -/
def KImage.scratchOf (im : KImage) (unit : Option (Nat × KBlock)) : Nat :=
  let ks := im.kerns.filter fun k => ((im.blocks[k.block]?).map (·.kentry)).getD false
  let least := ks.foldl (fun m k => min m k.scratch) (match ks with
    | k :: _ => k.scratch
    | [] => 0)
  match unit with
  | some (i, b) => if b.fentry then least else ((im.kernOf i).map (·.scratch)).getD least
  | none => least

/-- The default extent of a space (R340). -/
def KImage.spaceEnd (im : KImage) (scratch space : Nat) : Nat :=
  match space with
  | 0 => 2 ^ 24
  | 1 => scratch
  | 2 => 2 ^ 22
  | 3 => 2 ^ 29
  | 7 => im.constsz
  | _ => 0

/-- The extent of an object (R340). -/
def KImage.extent (im : KImage) (scratch : Nat) (o : KObj) : Int × Int :=
  if o.dflt then (0, im.spaceEnd scratch o.space) else (o.addr, o.addr + o.size)

/-! Signatures (R356). -/

/-- The fold over a set of names. -/
def sigOf (hashes : List Nat) : Nat := (hashes.eraseDups.mergeSort (· ≤ ·)).foldl (fun s h => (s * 31 + h) % 2 ^ 32) 0

/-- The signature of a kernel entry: the `.s` objects of its block's `.ptr` items. -/
def KImage.entrySig (im : KImage) (b : KBlock) : Nat :=
  sigOf (b.items.filterMap fun i => match i with
    | .ptr _ o _ _ => if decide (o < im.objs.length) && (im.obj o).space == 1 then some (im.obj o).hash else none
    | _ => none)

/-! The IMG rules (R358). Each failure has its rule's number and the offset of the failing field from the header (R359). -/

def imgIf (c : Bool) (n off : Nat) : List (Nat × Nat) := if c then [(n, off)] else []

def enum {α : Type} (xs : List α) : List (Nat × α) := (List.range xs.length).zip xs

/-- IMG-01. Offsets have 32 bits and count from the header, and no field gives an image's size: what lies beyond the image is what ends
more than 2^32 bytes from its header (log 82). -/
def KImage.img01 (im : KImage) : List (Nat × Nat) :=
  let h := im.header
  let past := fun (off n : Nat) => decide (2 ^ 32 < off + n)
  imgIf (fieldAt h 0 4 != 0x00010080) 1 0 ++ imgIf (fieldAt h 4 4 != 0) 1 4 ++
  imgIf (im.codeva % 65536 != 0 || decide (2 ^ 55 < im.codeva + 64 * im.nlines)) 1 8 ++ imgIf (im.nlines % 1024 != 0) 1 0x10 ++
  imgIf (past (fieldAt h 0x18 4) (4 * fieldAt h 0x14 4)) 1 0x18 ++ imgIf (past (fieldAt h 0x20 4) (32 * im.objs.length)) 1 0x20 ++
  imgIf (past (fieldAt h 0x28 4) (16 * im.kerns.length)) 1 0x28 ++ imgIf (past (fieldAt h 0x30 4) (32 * im.imps.length)) 1 0x30 ++
  imgIf (fieldAt h 0x34 4 != 0) 1 0x34 ++
  imgIf (im.constva % 65536 != 0 || decide (2 ^ 55 < im.constva + im.constsz)) 1 0x38 ++ imgIf (decide (2 ^ 24 < im.constsz)) 1 0x40 ++
  imgIf (((h.drop 0x44).any fun b => b != 0#8)) 1 0x44 ++
  (enum im.blocks).flatMap (fun x => imgIf (past x.2.off (16 + 16 * x.2.items.length)) 1 (fieldAt h 0x18 4 + 4 * x.1)) ++
  im.blocks.flatMap (fun b =>
    imgIf (decide (4 < b.slot)) 1 b.off ++ imgIf (bits (fieldAt b.raw 4 4) 31 22 != 0 || b.mode == 3) 1 (b.off + 4) ++
    imgIf (fieldAt b.raw 14 2 != 0) 1 (b.off + 12)) ++
  (enum im.objs).flatMap (fun x =>
    imgIf (decide (7 < x.2.space) || x.2.flags / 64 != 0) 1 (fieldAt h 0x20 4 + 32 * x.1 + 4) ++
    imgIf (x.2.top != 0) 1 (fieldAt h 0x20 4 + 32 * x.1 + 28)) ++
  (enum im.kerns).flatMap (fun x =>
    imgIf (decide (im.blocks.length ≤ x.2.block)) 1 (fieldAt h 0x28 4 + 16 * x.1) ++
    imgIf (bits (fieldAt x.2.raw 4 4) 31 21 != 0) 1 (fieldAt h 0x28 4 + 16 * x.1 + 4) ++
    imgIf (fieldAt x.2.raw 12 4 != 0) 1 (fieldAt h 0x28 4 + 16 * x.1 + 12)) ++
  (enum im.imps).flatMap (fun x =>
    imgIf (past (fieldAt x.2.raw 12 4) (16 * x.2.words.length)) 1 (fieldAt h 0x30 4 + 32 * x.1 + 12) ++
    imgIf ((x.2.raw.drop 16).any fun b => b != 0#8) 1 (fieldAt h 0x30 4 + 32 * x.1 + 16))

/-- IMG-02: the limits of R74, and the entry blocks. -/
def KImage.img02 (im : KImage) : List (Nat × Nat) :=
  (enum im.kerns).flatMap fun x =>
    let k := x.2
    let off := fieldAt im.header 0x28 4 + 16 * x.1
    match im.blocks[k.block]? with
    | none => [(2, off)]
    | some b =>
      imgIf (b.kentry == b.ventry || b.fentry || (b.ventry && b.mode == 0)) 2 off ++
      imgIf (decide (k.regs < 32) || decide (1536 < k.regs) || k.regs % 32 != 0) 2 (off + 4) ++
      imgIf (if b.ventry then k.gangs != 0 else k.gangs == 0 || decide (16 < k.gangs) || decide (6144 < k.gangs * k.regs)) 2 (off + 4) ++
      imgIf (if b.ventry then k.scratch != 0 else decide (393216 < k.scratch) || k.scratch % 1024 != 0) 2 (off + 8)

/-- The offset of a block's first malformed item. -/
def KImage.itemFail (im : KImage) (b : KBlock) : List (Nat × Nat) :=
  let locks := (im.objs.filter KObj.lock).length
  (enum b.words).flatMap fun x => match itemBad locks x.2 with
    | some w => [(3, b.off + 16 + 16 * x.1 + 4 * w)]
    | none => []

/-- IMG-03. -/
def KImage.img03 (im : KImage) : List (Nat × Nat) :=
  (enum im.blocks).flatMap fun x =>
    let before := fun (y : KBlock) => decide (8 * y.line + y.slot < 8 * x.2.line + x.2.slot)
    imgIf (decide (im.nlines ≤ x.2.line) || !((im.blocks.take x.1).all before)) 3 x.2.off ++ im.itemFail x.2

/-- IMG-04. -/
def KImage.img04 (im : KImage) : List (Nat × Nat) :=
  (enum im.blocks).flatMap fun x =>
    imgIf ((im.blocks.take x.1).any fun y => y.line / 1024 == x.2.line / 1024 && y.mode != x.2.mode) 4 (x.2.off + 4)

/-- IMG-05 (R340, R352). -/
def KImage.img05 (im : KImage) (grants : List Grant) : List (Nat × Nat) :=
  (enum im.objs).flatMap fun x =>
    let o := x.2
    let off := fieldAt im.header 0x20 4 + 32 * x.1
    let far := decide (4 ≤ o.space) && decide (o.space ≤ 6)
    imgIf ((o.dflt && far) || (o.lock && (o.space != 1 && o.space != 3 && o.space != 4))) 5 (off + 4) ++
    imgIf (o.lock && decide (32 ≤ im.lockNo x.1)) 5 (off + 4) ++ imgIf (o.dflt && o.addr != 0) 5 (off + 8) ++
    imgIf ((o.dflt && o.size != 0) || (o.lock && o.size != 4)) 5 (off + 16) ++
    imgIf (far && (decide (im.constsz < o.slot + 8) || fieldAt im.consts o.slot 8 != o.addr)) 5 (off + 24) ++
    imgIf (far && !(grants.any fun g => g.covers o)) 5 (off + 8)

/-- IMG-06. -/
def KImage.img06 (im : KImage) (bindcnt : Nat) : List (Nat × Nat) :=
  let locks := (im.objs.filter KObj.lock).length
  (enum im.imps).flatMap fun x =>
    let off := fieldAt im.header 0x30 4 + 32 * x.1
    imgIf (decide (bindcnt ≤ x.2.imp.index)) 6 (off + 4) ++ imgIf (x.2.words.any fun w => (itemBad locks w).isSome) 6 (off + 12)

/-- The first IMG rule that an image breaks. -/
def KImage.imgFail (im : KImage) (grants : List Grant) (bindcnt : Nat) : Option (Nat × Nat) :=
  (im.img01 ++ im.img02 ++ im.img03 ++ im.img04 ++ im.img05 grants ++ im.img06 bindcnt).head?

end Sys2Proof.Machine
end

