-- ==== Sys2Proof/Machine/GraderForms.lean ====
section
/-!
DEFINITION. What the Grader knows of each instruction: operands with the types they accept, result types, accesses, streams, switch
points and privileges (R61, R64, R67, R78, R104, R105, R136 to R139, R144, R179, R186, R192, R226, R261, R314, R346, R347).
-/

namespace Sys2Proof.Machine

/-! Type codes (R346, R347). Each list names first the type that an operand requires. -/

/-- Any 32-bit type but `tid`, link and pointers. -/
def any32 : List Nat := [1, 2, 5, 6, 7, 8, 9, 10, 11, 12, 14, 16]
/-- A 32-bit integer type, raw32 or zero. -/
def int32 : List Nat := [2, 1, 10, 11, 14, 16]
/-- A 64-bit source. -/
def any64 : List Nat := [4, 3, 15, 16]
/-- A floating-point source of one type. -/
def flt (t : Nat) : List Nat := [t, 14, 16]
/-- A `tid` operand. -/
def tids : List Nat := [13, 16]
/-- Pointers of the spaces with 32-bit and with 64-bit addresses. -/
def ptr32 : List Nat := [32, 33, 34, 35, 39]
def ptr64 : List Nat := [36, 37, 38]

/-- The type of a result or an operand of an integer type (R347). -/
def ElTy.ty : ElTy → Nat
  | .i32 | .i16x2 => 1
  | .n32 | .n16x2 => 2
  | .i64 => 3
  | .n64 => 4
  | .i8x4 => 10
  | .n8x4 => 11

def FlTy.ty : FlTy → Nat
  | .f32 => 5
  | .f16x2 => 6
  | .bf16x2 => 7

/-- The register type of a conversion type (R28, R129). -/
def CvtTy.ty : CvtTy → Nat
  | .i32 | .i16 | .i8 => 1
  | .n32 | .n16 | .n8 => 2
  | .i64 => 3
  | .n64 => 4
  | .f32 => 5
  | .f16 => 6
  | .bf16 => 7
  | .f8e4 => 8
  | .f8e5 => 9
  | .f6e2 | .f6e3 | .f4e2 => 11

/-- The register type of a `pack` side (R132). -/
def packSide : CvtTy → Nat
  | .i8 => 10
  | .n8 => 11
  | t => CvtTy.ty t

/-- The types that a side of a conversion accepts. -/
def cvtAccepts (t : CvtTy) : List Nat :=
  if t == .i64 || t == .n64 then any64 else if t.isInt then any32 else flt (CvtTy.ty t)

def packAccepts (t : CvtTy) : List Nat := if t.isInt then any32 else flt (packSide t)

/-- The result type of `redux` and `scan` (R172). -/
def RedOp.ty : RedOp → Nat
  | .minI | .maxI => 1
  | .fadd | .fmin | .fmax => 5
  | _ => 2

/-! Forms. -/

/-- A source: `n` registers from one whose number is a multiple of `al`, each of an accepted type, or each pair where `pair` holds. -/
structure Src where
  o : Opnd
  n : Nat
  al : Nat
  pair : Bool
  ok : List Nat
  deriving DecidableEq, Repr

/-- What an access does to the lock rules (R352). -/
inductive AccKind where
  | load | store | cas | other
  deriving DecidableEq, Repr

/-- An access that must be in bounds (R351). -/
structure Access where
  space : Nat
  size : Nat
  base : Opnd
  off : Off
  kind : AccKind
  writes : Bool
  deriving DecidableEq, Repr

/-- One instruction as the Grader reads it. `streamed`: it is memory-class and carries a clause. -/
structure Form where
  srcs : List Src
  dst : Opnd
  dn : Nat
  res : Nat
  pr : List PredOpt
  pw : List PredOpt
  clause : Option Clause
  acc : Option Access
  switch : Bool
  /-- registers read beyond these -/
  more : List (Opnd × Nat) := []
  deriving DecidableEq, Repr

def s32 (o : Opnd) (ok : List Nat) : Src := { o := o, n := 1, al := 1, pair := false, ok := ok }
def s64 (o : Opnd) (ok : List Nat) : Src := { o := o, n := 2, al := 2, pair := true, ok := ok }
def sGroup (o : Opnd) (n al : Nat) (ok : List Nat) : Src := { o := o, n := n, al := al, pair := false, ok := ok }

/-- An integer operand of a type. -/
def sInt (t : ElTy) (o : Opnd) : Src := if ElTy.words t = 2 then s64 o (ElTy.ty t :: any64) else s32 o (ElTy.ty t :: any32)

/-- Operand B. -/
def sB (f : Opnd → Src) : SrcB → List Src
  | .reg o => [f o]
  | .imm _ => []

/-- A form that is no switch point and writes a register. -/
def Form.mk' (srcs : List Src) (d : Opnd) (dn res : Nat) : Form :=
  { srcs := srcs, dst := d, dn := dn, res := res, pr := [], pw := [], clause := none, acc := none, switch := false }

/-- A switch point. -/
def Form.sw (srcs : List Src) (d : Opnd) (dn res : Nat) : Form := { Form.mk' srcs d dn res with switch := true }

/-- A switch point that writes no register. -/
def Form.ctl (srcs : List Src) : Form := Form.sw srcs .vz 0 0

/-- Its offset register. -/
def offSrc : Off → List Src
  | .reg o => [s32 o any32]
  | .imm _ => []

/-- An access of format M. -/
def Form.mem (space : Nat) (z : Size) (kind : AccKind) (writes : Bool) (srcs : List Src) (d : Opnd) (dn res : Nat) (m : MemArg) : Form :=
  { Form.sw (srcs ++ offSrc m.off) d dn res with
    clause := some m.clause
    acc := some { space := space, size := sizeBytes z, base := m.base, off := m.off, kind := kind, writes := writes } }

/-- The type of a load of a size (R347). -/
def loadTy : Size → Nat
  | .n8 | .n16 => 2
  | .i8 | .i16 => 1
  | .b64 => 15
  | _ => 14

def Form.ld (space : Nat) (z : Size) (d : Opnd) (m : MemArg) : Form :=
  Form.mem space z .load false [] d (sizeWords z) (loadTy z) m

/-- Store data of a size (R347). -/
def dataSrc (z : Size) (b : Opnd) : Src :=
  match z with
  | .b64 => s64 b any64
  | .b128 => sGroup b 4 4 (any32 ++ [13])
  | _ => s32 b (any32 ++ [13])

def Form.st (space : Nat) (z : Size) (b : Opnd) (m : MemArg) : Form := Form.mem space z .store true [dataSrc z b] .vz 0 0 m

def AWidth.size : AWidth → Size
  | .w32 => .b32
  | .w64 => .b64

def Form.atom (space : Nat) (w : AWidth) (d b : Opnd) (m : MemArg) : Form :=
  Form.mem space (AWidth.size w) .other true [dataSrc (AWidth.size w) b] d (widthWords w) (loadTy (AWidth.size w)) m

/-- The compare and new group of a `cas` of a size: two registers, or two pairs, or two groups of four (R224, R385). -/
def casSrc (z : Size) (b : Opnd) : List Src :=
  match z with
  | .b32 => [sGroup b 2 2 (any32 ++ [13])]
  | .b64 => [{ o := b, n := 4, al := 4, pair := true, ok := any64 }]
  | _ => [sGroup b 8 8 (any32 ++ [13])]

def Form.cas (space : Nat) (z : Size) (d b : Opnd) (pd : PredOpt) (m : MemArg) : Form :=
  { Form.mem space z .cas true (casSrc z b) d (sizeWords z) (loadTy z) m with pw := [pd] }

/-- A range of lines (R306). -/
def Form.lines (b : Opnd) (m : MemArg) : Form := Form.mem 4 .n8 .load false [s32 b int32] .vz 0 0 m

/-- A collective copy (R226, R407): the words of a `.g` source address may form an `n64` pair. -/
def Form.copy (g : Bool) (a b : Opnd) (e : EngArg) : Form :=
  let addr := if g then { o := a, n := 2, al := 4, pair := true, ok := any64 } else sGroup a 2 4 int32
  { Form.ctl [addr, sGroup (Opnd.plus a 2) 2 2 int32, sGroup b 2 2 int32] with clause := some e.clause }

/-- Words 0 and 1 of each condition group of a `wait`, and words 2 and 3 of those that WMASK does not mark (R179). -/
def waitSrcs (a : Opnd) (n : Nat) (wmask : BitVec 4) : List Src :=
  (List.range n).flatMap fun q =>
    sGroup (Opnd.plus a (4 * q)) 2 (if q = 0 then 4 else 1) int32 ::
      (if wmask.getLsbD q then [] else [sGroup (Opnd.plus a (4 * q + 2)) 2 1 int32])

/-- Words 2 and 3 of the groups that WMASK marks (R179). -/
def waitAddrs (a : Opnd) (n : Nat) (wmask : BitVec 4) : List (Opnd × Nat) :=
  ((List.range n).filter wmask.getLsbD).map fun q => (Opnd.plus a (4 * q + 2), 2)

/-- The predicates that a combination reads. -/
def combPreds (op : Comb) : List PredOpt := [combPred op]

/-- A binary floating-point form. -/
def Form.fl (t r : Nat) (d : Opnd) (as : List Opnd) : Form := Form.mk' (as.map fun o => s32 o (flt t)) d 1 r

/-- The operands of a floating-point form with a B. -/
def flB (t r : Nat) (d a : Opnd) (b : SrcB) : Form := Form.mk' (s32 a (flt t) :: sB (fun o => s32 o (flt t)) b) d 1 r

/-- An instruction of a kind of MOD class INT. -/
def Form.int (t : ElTy) (d : Opnd) (srcs : List Src) : Form := Form.mk' srcs d (ElTy.words t) (ElTy.ty t)

def sregTy (r : SReg) : Nat := if sregWords r = 2 then 4 else 2

/-- The form of a lane instruction. R347 has no row for `prmt`, for c of `quant`, or for a of `dequant`: what they accept, and that `prmt` gives
`n32`, is the model's choice (log 109). -/
def Instr.form : Instr → Form
  | .add _ t d a b | .sub _ t d a b | .mul _ t d a b | .mulh _ t d a b | .min _ t d a b | .max _ t d a b | .adds _ t d a b
  | .subs _ t d a b | .and _ t d a b | .or _ t d a b | .xor _ t d a b | .andn _ t d a b => .int t d (sInt t a :: sB (sInt t) b)
  | .addc _ t d a b ci co | .subb _ t d a b ci co => { Form.int t d (sInt t a :: sB (sInt t) b) with pr := [ci], pw := [co] }
  | .mad _ t d a b c | .madh _ t d a b c | .lop3 _ t d a b c _ => .int t d [sInt t a, sInt t b, sInt t c]
  | .sad _ t d a b c => .int t d [sInt t a, sInt t b, sInt t c]
  | .dp4 _ t d a b c _ => .mk' [sInt t a, sInt t b, s32 c any32] d 1 (ElTy.ty t)
  | .abs _ t d a | .neg _ t d a | .not _ t d a | .brev _ t d a => .int t d [sInt t a]
  | .cmp _ t d a b _ op pd =>
    { Form.mk' (sInt t a :: sB (sInt t) b) d (ElTy.words t) (if t.scalar then 12 else ElTy.ty t) with pr := combPreds op, pw := [pd] }
  | .shl _ t d a b | .shr _ t d a b | .sar _ t d a b | .rot _ t d a b | .bfx _ t d a b =>
    .int t d (sInt t a :: sB (fun o => s32 o any32) b)
  | .bfi _ t d a b c => .int t d [sInt t a, s32 b any32, sInt t c]
  | .popc _ t d a | .clz _ t d a | .ctz _ t d a => .mk' [sInt t a] d 1 (if ElTy.words t = 2 then 2 else ElTy.ty t)
  | .sel _ t d a b c =>
    .int t d [sInt t a, sInt t b, if ElTy.words t = 2 then s64 c [ElTy.ty t, 15, 16] else s32 c [ElTy.ty t, 12, 14, 16]]
  | .mov _ t d a => .int t d [if ElTy.words t = 2 then s64 a (any64 ++ 17 :: ptr64) else s32 a (any32 ++ ptr32)]
  | .movi _ t d _ => .int t d []
  | .lea _ t d a b _ _ =>
    .int t d ((if ElTy.words t = 2 then s64 a (any64 ++ ptr64) else s32 a (any32 ++ ptr32)) :: sB (fun o => s32 o any32) b)
  | .fadd _ _ d a b _ | .fsub _ _ d a b _ | .fmul _ _ d a b _ | .fmin _ d a b _ _ | .fmax _ d a b _ _ => flB 5 5 d a b
  | .fma _ _ d a b c _ => .fl 5 5 d [a, b, c]
  | .fcmp _ t d a b _ op pd =>
    { flB (FlTy.ty t) (if t == .f32 then 12 else 2) d a b with pr := combPreds op, pw := [pd] }
  | .frnd _ t _ d a _ => .fl (FlTy.ty t) (FlTy.ty t) d [a]
  | .fclass _ t d a _ pd => { Form.fl (FlTy.ty t) 2 d [a] with pw := [pd] }
  | .rcp _ _ d a | .rsqrt _ _ d a | .sqrt _ _ d a | .exp2 _ _ d a | .log2 _ _ d a | .sinpi _ _ d a | .cospi _ _ d a => .fl 5 5 d [a]
  | .fscale _ _ d a b => .mk' (s32 a (flt 5) :: sB (fun o => s32 o (1 :: int32)) b) d 1 5
  | .fexp _ d a => .fl 5 1 d [a]
  | .hadd2 _ t _ d a b _ | .hmul2 _ t _ d a b _ | .hmin2 _ t d a b _ _ | .hmax2 _ t d a b _ _ => flB (FlTy.ty t) (FlTy.ty t) d a b
  | .hfma2 _ t _ d a b c _ => .fl (FlTy.ty t) (FlTy.ty t) d [a, b, c]
  | .fdot2 _ t _ d a b c _ => .mk' [s32 a (flt (FlTy.ty t)), s32 b (flt (FlTy.ty t)), s32 c (flt 5)] d 1 5
  | .fdot4 _ _ d a b c _ fa fb => .mk' [s32 a (flt (if fa then 9 else 8)), s32 b (flt (if fb then 9 else 8)), s32 c (flt 5)] d 1 5
  | .cvt _ dst src _ _ _ _ d a =>
    .mk' [if src == .i64 || src == .n64 then s64 a (cvtAccepts src) else s32 a (cvtAccepts src)] d
      (if dst == .i64 || dst == .n64 then 2 else 1) (CvtTy.ty dst)
  | .pack _ t _ d a b =>
    .mk' [s32 a (packAccepts (PackTy.wideTy t)), s32 b (packAccepts (PackTy.wideTy t))] d 1
      (match PackTy.narrowTy t with
        | .i16 => 1
        | .n16 => 2
        | x => packSide x)
  | .unpack _ t _ d a => .mk' [s32 a (packAccepts (PackTy.narrowTy t))] d 1 (CvtTy.ty (PackTy.wideTy t))
  | .plsplit _ _ _ d a => .mk' [sGroup a 8 8 [10]] d 1 2
  | .plmerge _ _ k d a => .mk' [sGroup a (k.val + 1) 1 int32] d 8 10
  | .quant _ nat _ _ _ d a b c => .mk' [s32 a (flt 5), s32 b (flt 5), s32 c (if nat then [11, 10, 14, 16] else [10, 11, 14, 16])] d 1 (if nat then 11 else 10)
  | .dequant _ nat _ _ d a b => .mk' [s32 a (if nat then [11, 10, 14, 16] else [10, 11, 14, 16]), s32 b (flt 5)] d 1 5
  | .prmt _ d a b ctl => .mk' ([s32 a any32, s32 b any32] ++ (match ctl with
      | .reg o => [s32 o any32]
      | .const _ => [])) d 1 2
  | .bra _ _ | .exit _ | .region _ | .yield _ | .trap _ _ | .syscall _ _ | .hcall _ _ | .brk _ _ | .waits _ _ _ | .sret _ | .hret _
  | .halt _ _ => .ctl []
  | .brx _ a _ _ => .ctl [s32 a int32]
  | .call _ d _ | .callImp _ d _ => .sw [] d 2 17
  | .ret _ a => .ctl [s64 a (any64 ++ [17])]
  | .exitTo _ a => .ctl [s32 a tids]
  | .nop _ _ => .mk' [] .vz 0 0
  | .shfl _ _ d a k _ pd => { Form.mk' (s32 a any32 :: (match k with
      | .reg o => [s32 o any32]
      | .const _ => [])) d 1 2 with pw := [pd] }
  | .vote _ _ d ps _ pd => { Form.mk' [] d 1 2 with pr := [ps], pw := [pd] }
  | .redux _ op d a | .scan _ op _ d a => .mk' [s32 a (if RedOp.ty op = 5 then flt 5 else any32)] d 1 (RedOp.ty op)
  | .matchq _ wide d a pd => { Form.mk' [if wide then s64 a any64 else s32 a any32] d 1 2 with pw := [pd] }
  | .barArrive _ c _ _ pr => { Form.ctl [] with clause := some c, pw := [pr] }
  | .barWait _ c _ _ pr => { Form.ctl [] with clause := some c, pr := [pr] }
  | .barSync _ c _ _ => { Form.ctl [] with clause := some c }
  | .wait _ _ n d a c wmask pt => 
    { Form.ctl (s32 d int32 :: waitSrcs a (n.val + 1) wmask) with
      clause := some c, pw := [pt], more := waitAddrs a (n.val + 1) wmask }
  | .chkb _ _ _ a b c => .ctl [s32 a (any32 ++ ptr32), s32 b any32, s32 c any32]
  | .chkt _ a b => .ctl (s32 a any32 :: sB (fun o => s32 o any32) b)
  | .chkl _ a b => .ctl [s32 a any32, s32 b any32]
  | .ldP _ _ z d m => .ld 0 z d m
  | .stP _ _ z b m => .st 0 z b m
  | .ldS _ z d m => .ld 1 z d m
  | .stS _ z b m => .st 1 z b m
  | .atomS _ _ w d b m => .atom 1 w d b m
  | .casS _ w d b pd m => .cas 1 (AWidth.size w) d b pd m
  | .ldK _ z d m => .ld 7 z d m
  | .copy _ src _ _ a b e => .copy (src == .g) a b e
  | .cpwp _ _ d => .sw [] d 1 2
  | .cpcancel _ _ e | .pubw _ _ e => { Form.ctl [] with clause := some e.clause }
  | .ldN _ z d m => .ld 2 z d m
  | .stN _ z b m => .st 2 z b m
  | .ldV _ _ z d m => .ld 3 z d m
  | .stV _ _ z b m => .st 3 z b m
  | .atomV _ _ w d b m => .atom 3 w d b m
  | .casV _ w d b pd m => .cas 3 (AWidth.size w) d b pd m
  | .taskPost _ d a e =>
    { Form.sw [] d 1 13 with
      clause := some e.clause, acc := some { space := 1, size := 128, base := a, off := .imm 0#11, kind := .load, writes := false } }
  | .taskDec _ a e => { Form.ctl [s32 a tids] with clause := some e.clause }
  | .taskStatT _ d a => .sw [s32 a tids] d 1 2
  | .taskStatW _ d _ | .taskStatQ _ d _ => .sw [] d 1 2
  | .emit _ a pd e => { Form.ctl [sGroup a 16 16 (any32 ++ [13])] with clause := some e.clause, pw := [pd] }
  | .ldG _ _ _ z d m => .ld 4 z d m
  | .stG _ _ _ z b m => .st 4 z b m
  | .atomG _ _ w d b m => .atom 4 w d b m
  | .casG _ w d b pd m => .cas 4 (AWidth.size w) d b pd m
  | .redG _ _ w b m => .atom 4 w .vz b m
  | .hintL2 _ b m | .hintL1 _ b m | .hintLru _ b m | .cwbL2 _ b m | .cwbMem _ b m | .cinvL1 _ b m | .cinvL2 _ b m | .iinv _ b m =>
    .lines b m
  | .fbar _ c => { Form.ctl [] with clause := some c }
  | .ldH _ z d m => .ld 5 z d m
  | .stH _ z b m => .st 5 z b m
  | .atomH _ op d b pd m => match op with
    | .add w | .exch w => { Form.atom 5 w d b m with pw := [pd] }
    | .cas z => .cas 5 z d b pd m
  | .ldF _ z d m => .ld 6 z d m
  | .stF _ z b m => .st 6 z b m
  | .atomF _ op w d b pd m => match op with
    | .cas => .cas 6 (AWidth.size w) d b pd m
    | .rmw _ => { Form.atom 6 w d b m with pw := [pd] }
  | .copyFGet _ _ a b e | .copyFGetw _ _ _ a b e | .copyFPut _ _ a b e => .copy false a b e
  | .rdsr _ d r => .sw [] d (sregWords r) (sregTy r)
  | .wrsr _ r a => .ctl [if sregWords r = 2 then s64 a any64 else s32 a any32]
  | .tlbinvVa _ a b | .tlbinvGpa _ a b => .ctl [s64 a any64, s32 b int32]
  | .tlbinvCtx _ | .tlbinvVf _ => .ctl []
  | .ctxsave _ _ d a c | .ctxload _ d a c => .sw [s64 a any64, s32 c int32] d 1 2
  | .launchRun _ d a b | .frmset _ d a b | .keyopLoad _ d a b | .keyopErase _ d a b | .keyopAttest _ d a b =>
    .sw [s64 a any64, s32 b int32] d 1 2
  | .launchAdm _ d a => .sw [s64 a any64] d 1 2
  | .l2partSet _ d a b | .l2partOcc _ d a b | .l2partHit _ d a b | .l2partMiss _ d a b | .l2partClr _ _ d a b =>
    .sw [s32 a int32, s32 b int32] d 1 2
  | .l2partMask _ d a => .sw [s32 a int32] d 1 2
  | .lanepc _ a b => .ctl [s32 a any32, s64 b any64]
  | .lanestRel _ a | .lanestHold _ a | .lanestExit _ a => .ctl [s32 a any32]
  | _ => .ctl []

/-- Its guard and result routing. -/
def Instr.hdr : Instr → Hdr
  | .nop p n => { Hdr.plain with pred := p, pneg := n }
  | i => match i.raw with
    | some r => r.hdr
    | none => Hdr.plain

/-! Privileges (R104, R105, R186, R314, R382, R387, R389). -/

/-- The lowest and the highest mode whose code may hold an instruction. -/
def Instr.modes : Instr → Nat × Nat
  | .sret _ => (1, 1)
  | .hret _ | .frmset _ _ _ _ | .tlbinvGpa _ _ _ | .tlbinvVf _ => (2, 2)
  | .halt _ _ | .lanepc _ _ _ | .lanestRel _ _ | .lanestHold _ _ | .lanestExit _ _ | .tlbinvVa _ _ _ | .tlbinvCtx _
  | .ctxsave _ _ _ _ _ | .ctxload _ _ _ _ | .launchRun _ _ _ _ | .launchAdm _ _ _ | .l2partSet _ _ _ _ | .l2partMask _ _ _
  | .l2partOcc _ _ _ _ | .l2partHit _ _ _ _ | .l2partMiss _ _ _ _ | .l2partClr _ _ _ _ _ | .keyopLoad _ _ _ _
  | .keyopErase _ _ _ _ | .keyopAttest _ _ _ _ => (1, 2)
  | _ => (0, 2)

/-- The lowest mode that may read, and that may write, a special register. -/
def sregModes : SReg → Nat × Nat
  | .fpstat => (0, 0)
  | .cmpl | .preempt => (0, 1)
  | .hvec => (2, 2)
  | .svec | .trapring | .hintdrop | .deadline | .quantum | .tcause | .tpc | .taddr | .tdet0 | .tdet1 => (1, 1)
  | _ => (0, 0)

/-- The special register that an instruction names beyond what code of a mode may. -/
def Instr.sregBad (mode : Nat) : Instr → Option Nat
  | .rdsr _ _ r => if mode < (sregModes r).1 then some (SReg.code r) else none
  | .wrsr _ r _ => if mode < (sregModes r).2 then some (SReg.code r) else none
  | _ => none

/-! Registers, predicates and latches read and written (R67). -/

/-- A resource: v registers from 0, g registers from 2,000, latches from 3,000, predicates from 4,000. -/
def opndKeys (o : Opnd) (n : Nat) : List Nat :=
  match o with
  | .v r => (List.range n).map (r.val + ·)
  | .g r => (List.range n).map (2000 + r.val + ·)
  | .b r => (List.range n).map (3000 + r.val + ·)
  | .vz => []

def predKeys (ps : List PredOpt) : List Nat := ps.filterMap fun p => p.map fun q => 4000 + q.val

/-- Operands of an access, and registers read beyond the sources. -/
def Form.accSrcs (f : Form) : List (Opnd × Nat) :=
  (match f.acc with
  | some a => [(a.base, if decide (4 ≤ a.space) && decide (a.space ≤ 6) then 2 else 1)]
  | none => []) ++ f.more

def Form.readKeys (f : Form) (h : Hdr) : List Nat :=
  f.srcs.flatMap (fun s => opndKeys s.o s.n) ++ f.accSrcs.flatMap (fun x => opndKeys x.1 x.2) ++ predKeys f.pr ++
    (guardPreds h).map (4000 + ·)

def Form.writeKeys (f : Form) (h : Hdr) : List Nat :=
  (if h.nwb then [] else opndKeys f.dst f.dn) ++ predKeys f.pw ++ (if h.late then [3000 + h.latn.toNat] else [])

/-- PAR-01 is broken: the second slot uses what the first writes, or the first is a switch point (R67). -/
def pairBad (i0 i1 : Instr) : Bool :=
  let f0 := Instr.form i0
  let f1 := Instr.form i1
  let w := f0.writeKeys (Instr.hdr i0)
  f0.switch || (f1.readKeys (Instr.hdr i1) ++ f1.writeKeys (Instr.hdr i1)).any w.contains

/-- The latches that an instruction reads. -/
def Form.latchesRead (f : Form) : List Nat :=
  (f.srcs.flatMap (fun s => opndKeys s.o s.n) ++ f.accSrcs.flatMap (fun x => opndKeys x.1 x.2)).filterMap fun k =>
    if 3000 ≤ k ∧ k < 4000 then some (k - 3000) else none

end Sys2Proof.Machine
end

