-- ==== Sys2Proof/Machine/GraderState.lean ====
section
/-!
DEFINITION. The Grader's abstract state: types, ranges, pointers, facts, locks, latches and regions; what implies what; the states of
block entries; the effect of an instruction; the meet of a function's returns (R342, R344, R347 to R355, R357).
-/

namespace Sys2Proof.Machine

/-! Registers (R342, R347). -/

/-- A register of which only the type is known. -/
def AReg.ofTy (t : Nat) : AReg := { ty := t, rng := none, ptr := none, link := none, lock := none }

/-- A type held by a pair: both registers carry it. -/
def wideTy (t : Nat) : Bool := t == 3 || t == 4 || t == 15 || t == 17 || (decide (36 ≤ t) && decide (t ≤ 38))

def isPtr (t : Nat) : Bool := decide (32 ≤ t) && decide (t ≤ 39)

/-- The state of a v register. -/
def Abs.reg (st : Abs) (r : Nat) : AReg :=
  match st.regs.find? fun e => e.1 == r with
  | some e => e.2
  | none => AReg.ofTy (if r < st.below then st.base else 0)

def Abs.setReg (st : Abs) (r : Nat) (x : AReg) : Abs :=
  { st with regs := (r, x) :: st.regs.filter fun e => e.1 != r }

/-- The type of a 32-bit operand: gang-uniform registers and latches hold raw32, vz is zero (R342). -/
def Abs.ty32 (st : Abs) : Opnd → Nat
  | .v r => (st.reg r.val).ty
  | .g _ | .b _ => 14
  | .vz => 16

/-- A half of a pair that may stand for raw bits: two `movi.n32` make a 64-bit constant (R125). -/
def halfTy (t : Nat) : Bool := t == 1 || t == 2 || t == 12 || t == 14 || t == 16

/-- The type of the pair at a v register. -/
def Abs.pairTy (st : Abs) (r : Nat) : Nat :=
  let t := (st.reg r).ty
  let u := (st.reg (r + 1)).ty
  if t = u ∧ (wideTy t || t == 16) then t else if halfTy t && halfTy u then 15 else 0

/-- The type of a 64-bit operand. -/
def Abs.ty64 (st : Abs) : Opnd → Nat
  | .v r => st.pairTy r.val
  | .g _ | .b _ => 15
  | .vz => 16

/-- The full range of a type (R348). -/
def fullRange (t : Nat) : Int × Int :=
  if t = 1 then (-(2 ^ 31), 2 ^ 31 - 1) else if t = 12 then (0, 1) else if t = 16 then (0, 0) else (0, 2 ^ 32 - 1)

def AReg.range (x : AReg) : Int × Int := x.rng.getD (fullRange x.ty)

/-- The range of a 32-bit operand. -/
def Abs.range (st : Abs) : Opnd → Int × Int
  | .v r => (st.reg r.val).range
  | .g _ | .b _ => (0, 2 ^ 32 - 1)
  | .vz => (0, 0)

/-- A range read as natural or as signed 32-bit values. -/
def natRange (x : Int × Int) : Int × Int :=
  if 0 ≤ x.1 then x else if x.2 < 0 then (x.1 + 2 ^ 32, x.2 + 2 ^ 32) else (0, 2 ^ 32 - 1)

def sgnRange (x : Int × Int) : Int × Int :=
  if x.2 < 2 ^ 31 then x else if 2 ^ 31 ≤ x.1 then (x.1 - 2 ^ 32, x.2 - 2 ^ 32) else (-(2 ^ 31), 2 ^ 31 - 1)

/-- A held type implies an annotated one (R347). -/
def impliesTy (held want : Nat) : Bool :=
  held == want || (decide (1 ≤ want) && decide (want ≤ 13) && (held == 16 || held == (if want = 3 ∨ want = 4 then 15 else 14)))

/-! Facts and bounds (R350, R351). -/

/-- x ≤ y by the facts. -/
def Abs.known (st : Abs) (x y : Bnd) : Bool :=
  (x.reg == y.reg && decide (x.k ≤ y.k)) ||
  (match x.reg, y.reg with
    | some a, some b => st.facts.any fun f => f.1 == a && f.2.1 == b && decide (x.k + f.2.2 ≤ y.k)
    | _, _ => false)

/-- x ≤ y is proven, each a register plus a constant or a constant, from the facts or the ranges. -/
def Abs.le (st : Abs) (x y : Bnd) : Bool :=
  let top := fun (b : Bnd) => b.k + (match b.reg with
    | some r => (sgnRange (st.reg r).range).2
    | none => 0)
  let bottom := fun (b : Bnd) => b.k + (match b.reg with
    | some r => (sgnRange (st.reg r).range).1
    | none => 0)
  st.known x y || decide (top x ≤ bottom y)

/-- What a register stands for as a pointer into a space: its object (none: the space's default object) and its proven offsets (R349). -/
structure View where
  obj : Option Nat
  lo : Bnd
  hi : Bnd
  deriving DecidableEq, Repr

/-- A register of known range. -/
def ranged (t : Nat) : Bool := t == 1 || t == 2 || t == 12 || t == 14 || t == 16

/-- The views of an operand in a space: its own pointer, and for an offset space the one its range gives of an object, or of the default
object. -/
def views (im : KImage) (scratch : Nat) (st : Abs) (o : Opnd) (space : Nat) (obj : Option Nat) : List View :=
  let own := match o with
    | .v r => match (st.reg r.val).ptr with
      | some p => if p.space = space ∧ (obj = none ∨ obj = some p.obj) then [{ obj := some p.obj, lo := p.lo, hi := p.hi }] else []
      | none => []
    | _ => []
  let byRange := if (decide (4 ≤ space) && decide (space ≤ 6)) || !(ranged (st.ty32 o) || st.ty32 o == 32 + space) then []
    else
      let e := match obj with
        | some n => im.extent scratch (im.obj n)
        | none => (0, (im.spaceEnd scratch space : Int))
      let m := natRange (st.range o)
      [({ obj := obj, lo := { reg := none, k := e.1 - m.1 }, hi := { reg := none, k := e.2 - m.2 } } : View)]
  own ++ byRange

/-- The offset of an access as bounds: its least and its greatest value (R351). -/
def offBounds (st : Abs) (size : Nat) : Off → Bnd
  | .imm i => { reg := none, k := i.toInt * size }
  | .reg (.v r) => { reg := some r.val, k := 0 }
  | .reg .vz => { reg := none, k := 0 }
  | .reg o => { reg := none, k := (sgnRange (st.range o)).2 }

/-- The least offset. -/
def offLeast (st : Abs) (size : Nat) : Off → Bnd
  | .reg (.g r) => { reg := none, k := (sgnRange (st.range (.g r))).1 }
  | .reg (.b r) => { reg := none, k := (sgnRange (st.range (.b r))).1 }
  | o => offBounds st size o

/-- An access is in bounds of a view: by its offsets, or, where the upper bound is a register's, by the facts about it (R351). -/
def inView (st : Abs) (size : Nat) (off : Off) (v : View) : Bool :=
  let e := offBounds st size off
  let top := { e with k := e.k + size }
  (st.le v.lo (offLeast st size off) && st.le top v.hi) || (v.hi.reg.isSome && st.known top v.hi)

/-- The view has proven at least the offsets [lo, hi): register bounds match register for register (R349). -/
def View.contains (v : View) (lo hi : Bnd) : Bool :=
  v.lo.reg == lo.reg && decide (v.lo.k ≤ lo.k) && v.hi.reg == hi.reg && decide (hi.k ≤ v.hi.k)

/-- The value of a bound for a record: a register bound by its greatest value. -/
def Bnd.shown (st : Abs) (b : Bnd) : Int := b.k + (match b.reg with
  | some r => (sgnRange (st.reg r).range).2
  | none => 0)

/-! Failures (R358, R359). -/

/-- A broken rule: its code and its detail words. -/
structure Broken where
  rule : Nat
  det0 : Nat
  det1 : Nat
  deriving DecidableEq, Repr

def broken (cls n : Nat) (d0 d1 : Int) : Broken := { rule := cls * 256 + n, det0 := wrap d0 32, det1 := wrap d1 32 }

def brokenIf (c : Bool) (cls n : Nat) (d0 d1 : Int) : List Broken := if c then [broken cls n d0 d1] else []

/-- The failure reported of a slot: the lowest class, then the lowest number (R345). -/
def worst : List Broken → Option Broken
  | [] => none
  | b :: bs => match worst bs with
    | some c => if c.rule < b.rule then some c else some b
    | none => some b

/-- The bound that is proven, for a record; 0x8000_0000 for none. -/
def provenHi (st : Abs) (vs : List View) : Int :=
  match vs with
  | v :: _ => v.hi.shown st
  | [] => 0x80000000

/-! States of block entries (R344, R354, R357). -/

def Abs.empty (block : Nat) : Abs :=
  { regs := [], base := 0, below := 0, facts := [], held := 0, checked := [], latches := 0, unread := 0, region := none, acq := none
    block := block }

/-- The space of a `.ptr` item's object. -/
def ptrSpace (im : KImage) (o : Nat) : Nat := (im.obj o).space

/-- The registers that an item describes. -/
def itemRegs (im : KImage) : Item → List Nat
  | .type r c => if c = 3 ∨ c = 4 then [r, r + 1] else [r]
  | .ptr r o _ _ => if decide (4 ≤ ptrSpace im o) && decide (ptrSpace im o ≤ 6) then [r, r + 1] else [r]
  | _ => []

/-- Adds what an item says. -/
def addItem (im : KImage) (st : Abs) : Item → Abs
  | .type r c =>
    let st1 := st.setReg r (AReg.ofTy c)
    if c = 3 ∨ c = 4 then st1.setReg (r + 1) (AReg.ofTy c) else st1
  | .ptr r o lo hi =>
    let s := ptrSpace im o
    let st1 := st.setReg r { AReg.ofTy (32 + s) with ptr := some { space := s, obj := o, lo := lo, hi := hi } }
    if decide (4 ≤ s) && decide (s ≤ 6) then st1.setReg (r + 1) (AReg.ofTy (32 + s)) else st1
  | .rel a op b =>
    { st with facts := (a, b, if op = 0 then -1 else 0) :: ((if op = 2 then [(b, a, 0)] else []) ++ st.facts) }
  | .holds m => { st with held := st.held ||| m }

def itemsState (im : KImage) (block : Nat) (st : Abs) (items : List Item) : Abs :=
  items.foldl (addItem im) { st with block := block }

/-- The link pair of an annotation: the lowest-numbered pair typed `n64` (R354). -/
def linkPair (items : List Item) : Option Nat :=
  (items.filterMap fun i => match i with
    | .type r 4 => some r
    | _ => none).foldl (fun m r => match m with
      | some x => some (min x r)
      | none => some r) none

/-- The link pair of the function whose code holds a block: in that code an `n64` annotation of it stands for the function's link (R159,
R354). -/
def KImage.linkOf (im : KImage) (b : KBlock) : Option (Nat × Nat) :=
  match im.unitOf b.line b.slot with
  | some (f, e) => if e.fentry then (linkPair e.items).map fun r => (r, f) else none
  | none => none

/-- The link in place of its `n64` annotation. -/
def putLink (st : Abs) (items : List Item) : Option (Nat × Nat) → Abs
  | some (r, f) =>
    if items.any (fun i => i == .type r 4) then (st.setReg r { AReg.ofTy 17 with link := some f }).setReg (r + 1) (AReg.ofTy 17) else st
  | none => st

/-- The dispatch state (R344). -/
def dispatchState (block regs : Nat) : Abs := { Abs.empty block with base := 16, below := regs }

/-- The state at a vector's entry (R357). -/
def vectorState (block regs : Nat) : Abs := { Abs.empty block with base := 14, below := regs }

/-- EntryState (R344). -/
def entryState (im : KImage) (n : Nat) (b : KBlock) : Abs :=
  let st := if b.kentry then dispatchState n (im.regsOf (some (n, b))) else Abs.empty n
  putLink (itemsState im n st b.items) b.items (im.linkOf b)

/-- Annotations that no state can have: TYP-03, TYP-06, BND-04. -/
def annotationFails (im : KImage) (b : KBlock) : List Broken :=
  b.items.flatMap fun i => match i with
    | .type r c =>
      brokenIf (c == 0 || decide (13 < c) || b.items.any fun j => match j with
        | .ptr q _ _ _ => q == r
        | _ => false) 5 6 r c ++
      brokenIf ((c == 3 || c == 4) && r % 2 != 0) 5 3 r c
    | .ptr r o _ _ =>
      brokenIf (decide (im.objs.length ≤ o)) 6 4 0 0x80000000 ++ brokenIf ((itemRegs im i).length == 2 && r % 2 != 0) 5 3 r 0xFF
    | _ => []

/-! Edges (R344, R349, R354). -/

/-- An annotated type is implied: the link of the function is implied by a pair that holds it. -/
def typeFails (st : Abs) (link : Option (Nat × Nat)) (r c : Nat) : List Broken :=
  let t := if c = 3 ∨ c = 4 then st.pairTy r else (st.reg r).ty
  let ok := match link with
    | some (lr, f) => if r = lr ∧ c = 4 then t == 17 && (st.reg r).link == some f else impliesTy t c
    | none => impliesTy t c
  brokenIf (!ok) 5 5 (t * 2 ^ 16 + r) c

/-- The operand of a register number. -/
def regOpnd (r : Nat) : Opnd := if h : r < 1536 then .v ⟨r, h⟩ else .vz

/-- An annotated pointer is implied: space and object agree and the proven offsets contain the annotated ones. -/
def ptrFails (im : KImage) (scratch : Nat) (st : Abs) (r o : Nat) (lo hi : Bnd) : List Broken :=
  if im.objs.length ≤ o then [broken 6 4 0 0x80000000]
  else
    let vs := views im scratch st (regOpnd r) (ptrSpace im o) (some o)
    if vs.any fun v => v.contains lo hi then []
    else match vs with
      | v :: _ => if v.hi.reg == hi.reg && decide (hi.k ≤ v.hi.k) then
          [broken 6 2 lo.k (if v.lo.reg == lo.reg then v.lo.k else 0x80000000)]
        else [broken 6 2 hi.k (if v.hi.reg == hi.reg then v.hi.k else 0x80000000)]
      | [] => [broken 6 2 hi.k 0x80000000]

/-- An annotated relation is implied. -/
def relFails (st : Abs) (a op b : Nat) : List Broken :=
  let x : Bnd := { reg := some a, k := 0 }
  let y : Bnd := { reg := some b, k := 0 }
  let ok := st.le x { y with k := if op = 0 then -1 else 0 } && (op != 2 || st.le y x)
  brokenIf (!ok) 6 3 (if op = 0 then -1 else 0) 0x80000000

/-- The items of an annotation that a state does not imply, its locks apart. -/
def itemFails (im : KImage) (scratch : Nat) (st : Abs) (link : Option (Nat × Nat)) (items : List Item) : List Broken :=
  items.flatMap fun i => match i with
    | .type r c => typeFails st link r c
    | .ptr r o lo hi => ptrFails im scratch st r o lo hi
    | .rel a op b => relFails st a op b
    | .holds _ => []

/-- The locks that an annotation holds. -/
def itemsHeld (items : List Item) : Nat := items.foldl (fun m i => match i with
  | .holds x => m ||| x
  | _ => m) 0

/-- What a state does not imply of a block's annotation (R344). -/
def implyFails (im : KImage) (st : Abs) (n : Nat) (b : KBlock) : List Broken :=
  let unit := im.unitOf b.line b.slot
  let scratch := im.scratchOf unit
  let zero := if b.kentry then
      ((List.range (im.regsOf (some (n, b)))).filter fun r =>
        !(b.items.any fun i => (itemRegs im i).contains r) && (st.reg r).ty != 16).map fun r => broken 5 5 ((st.reg r).ty * 2 ^ 16 + r) 16
    else []
  itemFails im scratch st (im.linkOf b) b.items ++ zero ++ brokenIf (st.held != itemsHeld b.items) 7 3 st.held n

/-! Writes (R347, R350). -/

/-- The facts and bounds that end when a register is written. -/
def Abs.kill (st : Abs) (r : Nat) : Abs :=
  { st with
    facts := st.facts.filter fun f => f.1 != r && f.2.1 != r
    checked := st.checked.filter fun c => c.2.1 != r && c.2.2 != r
    regs := st.regs.map fun e => match e.2.ptr with
      | some p => if p.lo.reg = some r ∨ p.hi.reg = some r then (e.1, { e.2 with ptr := none }) else e
      | none => e }

/-- The least and the greatest of two ranges. -/
def hull (x y : Int × Int) : Int × Int := (min x.1 y.1, max x.2 y.2)

/-- The join of the old state of register `r`, as one of its type `held`, with its new one: the new state, where the old one implies it
(R347, R349). -/
def joinReg (im : KImage) (scratch : Nat) (st : Abs) (r held : Nat) (new : AReg) : AReg :=
  let old := st.reg r
  let implied := match new.ptr with
    | some q => (views im scratch st (regOpnd r) q.space (some q.obj)).any fun v => v.contains q.lo q.hi
    | none =>
      if isPtr new.ty then old.ty == new.ty && old.ptr.isNone
      else if new.ty = 17 then held == 17 && old.link == new.link
      else impliesTy held new.ty
  if held = 0 then (if isPtr new.ty || new.ty == 17 then AReg.ofTy 0 else AReg.ofTy new.ty)
  else if implied then new else AReg.ofTy 0

/-- Writes consecutive v registers; the half of a pair that a write breaks is dead. -/
def Abs.write (im : KImage) (scratch : Nat) (st : Abs) (r : Nat) (join : Bool) (new : List AReg) : Abs :=
  let n := new.length
  let held := fun (i : Nat) => if wideTy (new.getD i (AReg.ofTy 0)).ty then st.pairTy (r + i / 2 * 2) else (st.reg (r + i)).ty
  let vals := (enum new).map fun x => if join then joinReg im scratch st (r + x.1) (held x.1) x.2 else x.2
  let st1 := (List.range n).foldl (fun st i => st.kill (r + i)) st
  let st2 := (enum vals).foldl (fun st x => st.setReg (r + x.1) x.2) st1
  let fix := fun (st : Abs) (q other : Nat) =>
    if wideTy (st.reg q).ty && !(decide (r ≤ q) && decide (q < r + n)) && decide (r ≤ other) && decide (other < r + n) then
      st.setReg q (AReg.ofTy 0)
    else st
  let st3 := if r % 2 = 1 then fix st2 (r - 1) r else st2
  if (r + n) % 2 = 1 then fix st3 (r + n) (r + n - 1) else st3

/-! Results (R347 to R349). -/

/-- The constant of a format-I operand as a value of a type. -/
def immRange (t : ElTy) (i : BitVec 32) : Int × Int := if ElTy.ty t = 1 then (i.toInt, i.toInt) else ((i.toNat : Int), (i.toNat : Int))

/-- A range kept when no value of it wraps in a 32-bit type. -/
def fits (t : Nat) (x : Int × Int) : AReg :=
  { AReg.ofTy t with rng := if (fullRange t).1 ≤ x.1 ∧ x.2 ≤ (fullRange t).2 then some x else none }

/-- The range of an operand in a 32-bit type. -/
def rangeAs (t : Nat) (x : Int × Int) : Int × Int := if t = 1 then sgnRange x else natRange x

def rangeB (st : Abs) (t : ElTy) : SrcB → Int × Int
  | .reg o => rangeAs (ElTy.ty t) (st.range o)
  | .imm i => immRange t i

/-- 32-bit `i32` and `n32`. -/
def plain32 (t : ElTy) : Bool := t == .i32 || t == .n32

/-- What `lea` moves its base by (R126, R348, R349). -/
def leaMove (st : Abs) (b : SrcB) (natural : Bool) (scale : Nat) : Int × Int :=
  let x := match b with
    | .reg o => st.range o
    | .imm i => ((i.toNat : Int), (i.toNat : Int))
  let y := if natural then natRange x else sgnRange x
  (y.1 * 2 ^ scale, y.2 * 2 ^ scale)

/-- A bound moved by a constant. -/
def Bnd.move (b : Bnd) (k : Int) : Bnd := { b with k := b.k + k }

/-- The result of `lea` (R348, R349). -/
def leaResult (st : Abs) (t : ElTy) (a : Opnd) (b : SrcB) (natural : Bool) (scale : Nat) : List AReg :=
  let d := leaMove st b natural scale
  let ptr := match a with
    | .v r => (st.reg r.val).ptr.map fun p => { p with lo := p.lo.move (-d.1), hi := p.hi.move (-d.2) }
    | _ => none
  let held := if ElTy.words t = 2 then st.ty64 a else st.ty32 a
  let ty := if isPtr held then held else ElTy.ty t
  if ElTy.words t = 2 then [{ AReg.ofTy ty with ptr := ptr }, AReg.ofTy ty]
  else
    let m := natRange (st.range a)
    let rng := if t = .n32 then (fits 2 (m.1 + d.1, m.2 + d.2)).rng else none
    [{ AReg.ofTy ty with ptr := ptr, rng := rng }]

/-- The pointer that a 64-bit constant load gives: its address has one known value, the SLOT of an object (R349). -/
def slotPointer (im : KImage) (st : Abs) (m : MemArg) : Option (List AReg) :=
  let b := natRange (st.range m.base)
  let o := match m.off with
    | .imm i => (i.toInt * 8, i.toInt * 8)
    | .reg o => sgnRange (st.range o)
  if b.1 = b.2 ∧ o.1 = o.2 then
    let e := wrap (b.1 + o.1) 32 / 8 * 8
    ((enum im.objs).find? fun x => x.2.slot == e && decide (4 ≤ x.2.space) && decide (x.2.space ≤ 6)).map fun x =>
      let t := 32 + x.2.space
      [{ AReg.ofTy t with ptr := some { space := x.2.space, obj := x.1, lo := { reg := none, k := 0 }, hi := { reg := none, k := x.2.size } } },
        AReg.ofTy t]
  else none

/-- The state of an operand's registers, which `mov` copies. -/
def Abs.copyOf (st : Abs) (o : Opnd) (n : Nat) : List AReg :=
  match o with
  | .v r => (List.range n).map fun i => st.reg (r.val + i)
  | .g _ | .b _ => List.replicate n (AReg.ofTy (if n = 2 then 15 else 14))
  | .vz => List.replicate n (AReg.ofTy 16)

/-- The shift of a range by a constant (R120, R348). -/
def shiftRange (st : Abs) (t : ElTy) (a : Opnd) (b : SrcB) (left : Bool) : AReg :=
  match b with
  | .imm i =>
    let s := i.toNat
    if 32 ≤ s then fits (ElTy.ty t) (0, 0)
    else if left then
      let m := rangeAs (ElTy.ty t) (st.range a)
      fits (ElTy.ty t) (m.1 * 2 ^ s, m.2 * 2 ^ s)
    else
      let m := natRange (st.range a)
      fits (ElTy.ty t) (m.1 / 2 ^ s, m.2 / 2 ^ s)
  | .reg _ => AReg.ofTy (ElTy.ty t)

/-- What an instruction's destination registers hold (R347 to R349). -/
def results (im : KImage) (st : Abs) (i : Instr) : List AReg :=
  let f := Instr.form i
  let ra := fun (t : ElTy) (a : Opnd) => rangeAs (ElTy.ty t) (st.range a)
  let plain := if wideTy f.res then [AReg.ofTy f.res, AReg.ofTy f.res] else List.replicate f.dn (AReg.ofTy f.res)
  match i with
  | .mov _ t _ a => st.copyOf a (ElTy.words t)
  | .movi _ t _ imm => if ElTy.ty t ≤ 2 then [fits (ElTy.ty t) (immRange t imm)] else plain
  | .add _ t _ a b => if plain32 t then [fits (ElTy.ty t) ((ra t a).1 + (rangeB st t b).1, (ra t a).2 + (rangeB st t b).2)] else plain
  | .sub _ t _ a b => if plain32 t then [fits (ElTy.ty t) ((ra t a).1 - (rangeB st t b).2, (ra t a).2 - (rangeB st t b).1)] else plain
  | .min _ t _ a b =>
    if plain32 t then [fits (ElTy.ty t) (min (ra t a).1 (rangeB st t b).1, min (ra t a).2 (rangeB st t b).2)] else plain
  | .max _ t _ a b =>
    if plain32 t then [fits (ElTy.ty t) (max (ra t a).1 (rangeB st t b).1, max (ra t a).2 (rangeB st t b).2)] else plain
  | .and _ .n32 _ a (.imm c) => [fits 2 (0, min (natRange (st.range a)).2 c.toNat)]
  | .shl _ t _ a b => if plain32 t then [shiftRange st t a b true] else plain
  | .shr _ t _ a b => if plain32 t then [shiftRange st t a b false] else plain
  | .cmp _ t _ _ _ _ _ _ => if ElTy.words t = 2 then [AReg.ofTy 12, AReg.ofTy 16] else plain
  | .popc _ t _ _ | .clz _ t _ _ | .ctz _ t _ _ => [fits f.res (0, if ElTy.words t = 2 then 64 else 32)]
  | .lea _ t _ a b natural scale => leaResult st t a b natural scale.val
  | .ldK _ .b64 _ m => (slotPointer im st m).getD plain
  | .shfl _ _ _ a _ _ _ => [AReg.ofTy (st.ty32 a)]
  | _ => plain

/-! Locks (R352, R353). -/

/-- The lock whose word an access reaches: by a pointer to the lock object, or by a register of known range that keeps within it. -/
def lockOf (im : KImage) (scratch : Nat) (st : Abs) (a : Access) : Option Nat :=
  ((enum im.objs).find? fun x =>
    x.2.lock && x.2.space == a.space && (match a.base with
      | .v r => match (st.reg r.val).ptr with
        | some p => p.space == a.space && p.obj == x.1
        | none => (views im scratch st a.base a.space (some x.1)).any (inView st a.size a.off)
      | _ => (views im scratch st a.base a.space (some x.1)).any (inView st a.size a.off))).map fun x => im.lockNo x.1

/-- A lock whose word an access of the space may touch through another object, the space's default one, or past what `lockOf` sees (R352). -/
def lockMet (im : KImage) (scratch : Nat) (st : Abs) (a : Access) : Option Nat :=
  match (views im scratch st a.base a.space none).find? (inView st a.size a.off) with
  | none => none
  | some v =>
    let e := match v.obj with
      | some n => im.extent scratch (im.obj n)
      | none => (0, (im.spaceEnd scratch a.space : Int))
    let o := offLeast st a.size a.off
    let least := o.k + (match o.reg with
      | some r => (sgnRange (st.reg r).range).1
      | none => 0)
    let top := (offBounds st a.size a.off).shown st + a.size
    let first := if v.lo.reg.isNone then max e.1 (e.1 + least - v.lo.k) else e.1
    let past := if v.hi.reg.isNone then min e.2 (e.2 + top - v.hi.k) else e.2
    ((enum im.objs).find? fun x =>
      x.2.lock && x.2.space == a.space && decide (first < (x.2.addr : Int) + 4) && decide ((x.2.addr : Int) < past)).map fun x => im.lockNo x.1

/-! Steps (R343, R350, R353). -/

/-- What a passing check gives (R350, R353). A guarded one gives nothing. -/
def afterCheck (st : Abs) : Instr → Abs
  | .chkb _ signed z (.v x) lo hi =>
    let cv := fun (r : Int × Int) => if signed then sgnRange r else natRange r
    let r0 := cv (st.range (.v x))
    let r := (max r0.1 (cv (st.range lo)).1, min r0.2 ((cv (st.range hi)).2 - sizeBytes z))
    let old := st.reg x.val
    let st1 := if r.1 ≤ r.2 then st.setReg x.val { old with rng := some (rangeAs old.ty r) } else st
    { st1 with facts :=
      (match lo with
        | .v l => [(l.val, x.val, 0)]
        | _ => []) ++ (match hi with
        | .v h => [(x.val, h.val, -(sizeBytes z : Int))]
        | _ => []) ++ st1.facts }
  | .chkt _ (.v a) (.imm k) => st.setReg a.val { st.reg a.val with rng := some ((k.toNat : Int), (k.toNat : Int)) }
  | .chkt _ (.v a) (.reg (.v b)) => { st with facts := (a.val, b.val, 0) :: (b.val, a.val, 0) :: st.facts }
  | .chkl _ (.v a) b => match (st.reg a.val).lock with
    | some l => { st with checked := (l, a.val, match b with
        | .v r => r.val
        | _ => a.val) :: st.checked }
    | none => st
  | _ => st

/-- The predicate's number that a `cas` writes. -/
def casPred (f : Form) : Nat :=
  match f.pw with
  | [some p] => p.val
  | _ => 15

/-- A mask of locks or latches without, and with, one of them. -/
def without (m b : Nat) : Nat := if bit m b then m - 2 ^ b else m
def including (m b : Nat) : Nat := if bit m b then m else m + 2 ^ b

/-- What an access to a lock word does to the locks. -/
def afterLock (f : Form) (st : Abs) (lock : Nat) : Abs :=
  match f.acc with
  | some a => match a.kind with
    | .cas => { st with acq := some (lock, casPred f) }
    | .store => { st with held := without st.held lock, checked := st.checked.filter fun c => c.1 != lock }
    | .load => match f.dst with
      | .v r => if a.size = 4 then st.setReg r.val { st.reg r.val with lock := some lock } else st
      | _ => st
    | .other => st
  | none => st

/-- The instruction ends an open region for every lane (R166). -/
def endsRegion : Instr → Bool
  | .atomS .. | .casS .. | .atomV .. | .casV .. | .atomG .. | .casG .. | .redG .. | .atomH .. | .atomF .. | .exit .. | .exitTo ..
  | .call .. | .callImp .. | .ret .. | .trap .. | .syscall .. | .hcall .. => true
  | _ => false

/-- The state after an instruction on the path to the next slot (R343). -/
def stepAbs (im : KImage) (scratch : Nat) (st : Abs) (i : Instr) : Abs :=
  let f := Instr.form i
  let h := Instr.hdr i
  let guarded := h.pred != 15#4
  let res := results im st i
  let lock := f.acc.bind fun a => lockOf im scratch st a
  let slid := match i with
    | .shfl .. => true
    | _ => false
  let st1 := match f.dst with
    | .v r => if h.nwb then st else st.write im scratch r.val (guarded || slid) res
    | _ => st
  let st2 := { st1 with unread := f.latchesRead.foldl without st1.unread, acq := none }
  let st3 := if h.late then
      { st2 with
        latches := including st2.latches h.latn.toNat
        unread := if h.nwb then including st2.unread h.latn.toNat else without st2.unread h.latn.toNat }
    else st2
  let st4 := if f.switch then { st3 with latches := 0, unread := 0 } else st3
  let st5 := if guarded then st4 else afterCheck st4 i
  let st6 := match lock with
    | some l => afterLock f st5 l
    | none => st5
  match i with
  | .region _ => { st6 with region := some st6.block }
  | _ => if endsRegion i && !guarded then { st6 with region := none } else st6

/-! The meet of a function's returns (R354). -/

def meetReg (x y : AReg) : AReg :=
  if x.ty ≠ y.ty ∨ x.link ≠ y.link then AReg.ofTy 0
  else
    { AReg.ofTy x.ty with
      rng := some (hull x.range y.range), link := x.link
      ptr := match x.ptr, y.ptr with
        | some p, some q =>
          if p.obj = q.obj ∧ p.lo.reg = q.lo.reg ∧ p.hi.reg = q.hi.reg then
            some { p with lo := { p.lo with k := max p.lo.k q.lo.k }, hi := { p.hi with k := min p.hi.k q.hi.k } }
          else none
        | _, _ => none }

/-- The meet of two states of a function, whose registers are all listed. -/
def meetAbs (x y : Abs) : Abs :=
  { x with
    regs := x.regs.map fun e => (e.1, meetReg e.2 (y.reg e.1))
    facts := x.facts.filter fun f => y.facts.contains f }

/-- The meet of the states at a function's `ret`s; none where it has none. -/
def meetAll : List Abs → Option Abs
  | [] => none
  | x :: xs => some (xs.foldl meetAbs x)

end Sys2Proof.Machine
end

