-- ==== Sys2Proof/Machine/GraderWalk.lean ====
section
/-!
DEFINITION. The Grader's walk: what it checks of a line, of an instruction and of an edge, the order of failures, and the sealed image
that an accepted walk gives (R66, R67, R79, R158, R178, R343 to R358, R361, R363).
-/

namespace Sys2Proof.Machine

/-- What a walk has of an image: its grants, the privilege of its request as a band, and for each memory-class instruction of a `.kernel`
of user code the kernel's entry block and the stream (R358). -/
structure Walk where
  im : KImage
  grants : List Grant
  priv : Nat
  streams : List (Nat × Nat)
  deriving DecidableEq, Repr

/-- Where the walk stands. -/
structure Spot where
  line : Nat
  slot : Nat
  unit : Option (Nat × KBlock)
  mode : Nat
  word : Nat
  deriving DecidableEq, Repr

/-- The opcode of a word (R53). -/
def opOf (w : Nat) : Nat := bits w 95 86

def Walk.scratch (w : Walk) (p : Spot) : Nat := w.im.scratchOf p.unit

/-! Types (R347, R358). -/

/-- The number of an operand's register, for alignment. -/
def opndNum : Opnd → Nat
  | .v r => r.val
  | .b r => r.val
  | .g r => r.val
  | .vz => 0

def srcFails (st : Abs) (s : Src) : List Broken :=
  let want : Nat := s.ok.headD 0
  let align := brokenIf (s.o != .vz && opndNum s.o % s.al != 0) 5 3 (Opnd.code s.o) want
  let check := fun (o : Opnd) (t : Nat) (dead : Bool) =>
    brokenIf dead 5 1 (Opnd.code o) want ++ brokenIf (!dead && !s.ok.contains t) 5 2 (t * 2 ^ 16 + Opnd.code o) want
  align ++ (if s.pair then
    (List.range (s.n / 2)).flatMap fun j =>
      let o := Opnd.plus s.o (2 * j)
      let dead := match o with
        | .v r => (st.reg r.val).ty == 0 || (st.reg (r.val + 1)).ty == 0
        | _ => false
      let t := st.ty64 o
      check o (if t = 0 then st.ty32 o else t) dead
  else
    (List.range s.n).flatMap fun j =>
      let past := match s.o with
        | .v r => decide (1536 ≤ r.val + j)
        | _ => false
      let o := if past then s.o else Opnd.plus s.o j
      check o (st.ty32 o) (past || st.ty32 o == 0))

/-- A destination group is aligned (R61, R139). -/
def dstFails (f : Form) : List Broken :=
  brokenIf (f.dst != .vz && decide (2 ≤ f.dn) && opndNum f.dst % f.dn != 0) 5 3 (Opnd.code f.dst) f.res

/-! Accesses (R351, R358). -/

/-- The last byte that an access needs, for a record. -/
def endNeeded (st : Abs) (a : Access) : Int := (offBounds st a.size a.off).shown st + a.size

/-- Faults of an access: its base, its bounds, its grant. -/
def accessFails (w : Walk) (scratch : Nat) (st : Abs) (a : Access) : List Broken :=
  let far := decide (4 ≤ a.space) && decide (a.space ≤ 6)
  let t := if far then (if st.ty64 a.base = 0 then st.ty32 a.base else st.ty64 a.base) else st.ty32 a.base
  let dead := match a.base with
    | .v r => (st.reg r.val).ty == 0 || (far && (st.reg (r.val + 1)).ty == 0)
    | _ => false
  let vs := views w.im scratch st a.base a.space none
  if dead then [broken 5 1 (Opnd.code a.base) 0xFF]
  else
    brokenIf (far && a.base != .vz && opndNum a.base % 2 != 0) 5 3 (Opnd.code a.base) 0xFF ++
    (if vs.isEmpty && t != 32 + a.space then [broken 5 4 (t * 2 ^ 16 + Opnd.code a.base) 0xFF]
    else match vs.find? (inView st a.size a.off) with
      | none => [broken 6 1 (endNeeded st a) (provenHi st vs)]
      | some v => match v.obj with
        | some o => brokenIf (a.writes && far && !(w.grants.any fun g => g.covers (w.im.obj o) && g.write)) 6 5 (endNeeded st a) (v.hi.shown st)
        | none => [])

/-- The words that the marked groups of a `wait` name (R179, R351). -/
def waitFails (w : Walk) (scratch : Nat) (st : Abs) : Instr → List Broken
  | .wait _ _ n _ a _ wmask _ => (List.range (n.val + 1)).flatMap fun q =>
      if wmask.getLsbD q then
        accessFails w scratch st
          { space := 4, size := 4, base := Opnd.plus a (4 * q + 2), off := .imm 0#11, kind := .load, writes := false }
      else []
  | _ => []

/-! Privileges. -/

def privFails (w : Walk) (p : Spot) (i : Instr) : List Broken :=
  let op : Int := opOf p.word
  brokenIf (decide (p.mode < (Instr.modes i).1) || decide ((Instr.modes i).2 < p.mode)) 4 1 op 0 ++
  (match Instr.sregBad p.mode i with
    | some r => [broken 4 2 op r]
    | none => []) ++
  (match i with
    | .syscall _ _ => brokenIf (p.mode == 2) 4 3 op 0
    | _ => []) ++
  brokenIf (decide (w.priv < p.mode)) 4 4 op 0

/-! Locks (R352, R353). -/

/-- Lock failures have the held set and the lock. -/
def lockFail (st : Abs) (n lock : Nat) : Broken := broken 7 n st.held lock

/-- A register is known to hold 0. -/
def knownZero (st : Abs) (o : Opnd) : Bool := natRange (st.range o) == (0, 0)

def lockFails (w : Walk) (scratch : Nat) (st : Abs) (i : Instr) : List Broken :=
  let f := Instr.form i
  let h := Instr.hdr i
  let pending := match st.acq with
    | some (l, pd) => match i with
      | .bra _ _ => if h.pred.toNat = pd then [] else [lockFail st 2 l]
      | _ => [lockFail st 2 l]
    | none => []
  let lowestHeld := ((List.range 32).find? (bit st.held)).getD 0
  let out := match i with
    | .exit _ | .exitTo _ _ | .callImp _ _ _ | .syscall _ _ | .hcall _ _ => if st.held = 0 then [] else [lockFail st 5 lowestHeld]
    | _ => []
  let word := match f.acc with
    | none => []
    | some a => match lockOf w.im scratch st a with
      | none => if a.kind == .load then [] else (lockMet w.im scratch st a).toList.map (lockFail st 1)
      | some l => match a.kind with
        | .load => []
        | .other => [lockFail st 1 l]
        | .cas =>
          if a.size ≠ 4 then [lockFail st 1 l]
          else
            let b := match f.srcs with
              | s :: _ => s.o
              | [] => .vz
            (if knownZero st b && decide (1 ≤ (natRange (st.range (Opnd.plus b 1))).1) && casPred f != 15 then [] else [lockFail st 2 l]) ++
            (if bit st.held l then [lockFail st 5 l] else [])
        | .store =>
          let zero := match f.srcs with
            | s :: _ => knownZero st s.o
            | [] => false
          if a.size ≠ 4 ∨ zero = false then [lockFail st 1 l]
          else
            let all := match f.clause with
              | some c => c.mask == 255#8
              | none => false
            if all && (bit st.held l || st.checked.any fun c => c.1 == l) then [] else [lockFail st 4 l]
  pending ++ out ++ word

/-! Latches (R66). -/

def latchFails (st : Abs) (i : Instr) : List Broken :=
  let f := Instr.form i
  let h := Instr.hdr i
  let reads := f.latchesRead
  let unread := reads.foldl without st.unread
  let n := h.latn.toNat
  (reads.filter fun b => !bit st.latches b).map (fun (b : Nat) => broken 8 1 b 0) ++
  brokenIf (h.nwb && !h.late) 8 2 n 0 ++ brokenIf (h.late && bit unread n) 8 2 n 0 ++
  brokenIf (f.switch && unread != 0) 8 2 (((List.range 8).find? (bit unread)).getD 0) 0 ++
  brokenIf (h.late && (f.switch || f.dn != 1)) 8 3 n 0

/-! Regions (R166, R358). -/

/-- The block that begins at a slot is REGION, and its instruction opens the region. -/
def regionFails (w : Walk) (p : Spot) (st : Abs) (i : Instr) : List Broken :=
  let here := match w.im.blockAt p.line p.slot with
    | some (_, b) => b.region
    | none => false
  let opens := match i with
    | .region _ => true
    | _ => false
  let live := match st.region with
    | some n => match w.im.blocks[n]? with
      | some b => (opndKeys (Instr.form i).dst (Instr.form i).dn).filter fun r =>
          decide (r < 1536) && !(Instr.hdr i).nwb && !(endsRegion i) && ((entryState w.im n b).reg r).ty != 0
      | none => []
    | none => []
  live.map (fun (r : Nat) => broken 9 1 r (st.region.getD 0)) ++ brokenIf (here != opens) 9 3 0 st.block

/-! Streams (R192, R372). -/

/-- How many memory-class instructions of the kernel carry a stream; all streams count outside the user code of a `.kernel`. -/
def Walk.count (w : Walk) (p : Spot) (s : Nat) : Nat :=
  match p.unit with
  | some (n, b) => if b.kentry && p.mode == 0 then (w.streams.filter fun x => x.1 == n && x.2 == s).length else 64
  | none => 64

def streamFails (w : Walk) (p : Spot) (i : Instr) : List Broken :=
  match i with
  | .waits _ s _ => brokenIf (w.count p s.val == 0) 10 2 s.val 0
  | _ => match (Instr.form i).clause with
    | none => []
    | some c =>
      if c.mask = 255#8 then []
      else ((List.range 8).filter fun s =>
        c.mask.getLsbD s && decide (w.count p s ≤ (if c.stream.val = s then 1 else 0))).map fun (s : Nat) => broken 10 1 s 0

/-! CheckInstr (R343). -/

def instrFails (w : Walk) (p : Spot) (st : Abs) (i : Instr) : List Broken :=
  let f := Instr.form i
  let sc := w.scratch p
  privFails w p i ++ f.srcs.flatMap (srcFails st) ++ dstFails f ++
  (match f.acc with
    | some a => accessFails w sc st a
    | none => []) ++
  waitFails w sc st i ++ lockFails w sc st i ++ latchFails st i ++ regionFails w p st i ++ streamFails w p i

/-! CheckEdge (R344, R354, R357). -/

/-- How an edge is made. -/
inductive EdgeKind where
  | jump
  | call (d : Opnd)
  deriving DecidableEq, Repr

def cfg (n : Nat) (pc : Nat) : Broken := broken 3 n (pc % 2 ^ 32 : Nat) (pc / 2 ^ 32 : Nat)

/-- The block that an edge goes to, or why it may not. -/
def edgeTarget (w : Walk) (mode : Nat) (k : EdgeKind) (line slot : Nat) : Except Broken (Nat × KBlock) :=
  let pc := w.im.pc line slot
  match w.im.blockAt line slot with
  | none => .error (cfg 1 pc)
  | some (n, b) =>
    if !bit (((w.im.code[line]?).map (·.word)).getD 0) slot || b.mode != mode then .error (cfg 1 pc)
    else if b.ventry then .error (cfg 7 pc)
    else match k with
      | .jump => if b.fentry then .error (cfg 4 pc) else .ok (n, b)
      | .call d =>
        if b.fentry && (linkPair b.items).isSome && (match d with
            | .v r => linkPair b.items == some r.val
            | _ => false) then .ok (n, b)
        else .error (cfg 4 pc)

/-- The code of a vector. -/
def inVector (unit : Option (Nat × KBlock)) : Bool := unit.any fun x => x.2.ventry

/-- An edge that leaves a vector's code: the vector's paths end in it, or branch within it (R357). -/
def leavesVector (w : Walk) (k : EdgeKind) (st : Abs) (line slot : Nat) : Bool :=
  let unit := match w.im.blocks[st.block]? with
    | some b => w.im.unitOf b.line b.slot
    | none => none
  k == .jump && inVector unit && (w.im.unitOf line slot).map (·.1) != unit.map (·.1)

/-- Failures of an edge; `lock`: the lock that the edge carries from the block of its `cas` (R352). -/
def edgeFails (w : Walk) (mode : Nat) (k : EdgeKind) (st : Abs) (lock : Option Nat) (line slot : Nat) : List Broken :=
  match edgeTarget w mode k line slot with
  | .error b => [b]
  | .ok (n, b) =>
    let from_ := match w.im.blocks[st.block]? with
      | some x => x.prio
      | none => 0
    implyFails w.im st n b ++ brokenIf (leavesVector w k st line slot) 3 2 0 0 ++
    (match st.acq with
      | some (l, _) => [lockFail st 2 l]
      | none => []) ++
    (match lock with
      | some l => brokenIf (decide (b.prio ≤ from_)) 7 6 st.held l
      | none => []) ++
    brokenIf (st.unread != 0) 8 2 (((List.range 8).find? (bit st.unread)).getD 0) 0 ++
    (match st.region with
      | some r => brokenIf (!b.region) 9 2 0 r
      | none => [])

/-- The states on the two edges of a `bra`: the one that succeeds in an acquire carries the lock (R352). -/
def braEdges (st after : Abs) (h : Hdr) : (Abs × Option Nat) × (Abs × Option Nat) :=
  match st.acq with
  | some (l, pd) =>
    let carry := ({ after with held := including after.held l }, some l)
    if h.pred.toNat = pd then (if h.pneg then ((after, none), carry) else (carry, (after, none))) else ((after, none), (after, none))
  | none => ((after, none), (after, none))

/-- The next slot in sequence. -/
def nextSlot (line slot : Nat) : Nat × Nat := if slot < 4 then (line, slot + 1) else (line + 1, 0)

/-- The entries of a `brx` table: each is a block of the same unit and mode (R158). -/
def brxFails (w : Walk) (p : Spot) (st : Abs) (table count : Nat) : List Broken :=
  (List.range (count + 1)).flatMap fun j =>
    let e := 8 * table + 8 * j
    if w.im.constsz < e + 8 then [broken 3 3 0 j]
    else
      let pc := fieldAt w.im.consts e 8
      let line := (pc - w.im.codeva) / 64
      let bad := broken 3 3 (pc % 2 ^ 32 : Nat) j
      if pc < w.im.codeva ∨ bits pc 5 3 ≠ 0 then [bad]
      else match w.im.blockAt line (pc % 8) with
        | none => [bad]
        | some (_, b) =>
          if (w.im.unitOf line (pc % 8)).map (·.1) ≠ p.unit.map (·.1) ∨ b.mode ≠ p.mode then [bad]
          else edgeFails w p.mode .jump st none line (pc % 8)

/-- The function number that tags the link of an import. -/
def Walk.importTag (w : Walk) (n : Nat) : Nat := w.im.blocks.length + n

/-- A link tagged with a function, in a pair. -/
def Abs.giveLink (im : KImage) (st : Abs) (d : Opnd) (f : Nat) : Abs :=
  match d with
  | .v r => st.write im 0 r.val false [{ AReg.ofTy 17 with link := some f }, AReg.ofTy 17]
  | _ => st

/-- `call.imp`: an edge to the import's interface and one from its return items (R355). -/
def importFails (w : Walk) (p : Spot) (st : Abs) (d : Opnd) (index : Nat) : List Broken :=
  match w.im.imps[index]? with
  | none => [broken 3 1 0 0]
  | some x =>
    let sc := w.scratch p
    let tag := w.importTag index
    let n := nextSlot p.line p.slot
    let pair := match d with
      | .v r => some r.val
      | _ => none
    brokenIf (linkPair x.imp.entry != pair || pair.isNone) 3 4 0 0 ++
    itemFails w.im sc (st.giveLink w.im d tag) (pair.map fun r => (r, tag)) x.imp.entry ++
    edgeFails w p.mode .jump (itemsState w.im st.block (Abs.empty st.block) x.imp.back) none n.1 n.2

/-- Where a branch with a line offset goes; none outside the code (R62). -/
def branchTo (w : Walk) (p : Spot) (t : Target) : Option (Nat × Nat) :=
  let l : Int := (p.line : Int) + t.offset.toInt
  if 0 ≤ l ∧ l < w.im.nlines then some (l.toNat, t.slot.val) else none

/-- The `.s` objects of the pointers live in a state (R356). -/
def Abs.sig (im : KImage) (st : Abs) : Nat :=
  sigOf (st.regs.filterMap fun e => match e.2.ptr with
    | some p => if p.space = 1 then some (im.obj p.obj).hash else none
    | none => none)

/-- The signatures of the kernel entries of an image. -/
def KImage.entrySigs (im : KImage) : List Nat :=
  im.kerns.filterMap fun k => match im.blocks[k.block]? with
    | some b => if b.kentry then some (im.entrySig b) else none
    | none => none

/-- The edges of an instruction, the fall-through apart, and what its slot breaks of the rules of flow. `after` is the state once the
instruction has acted. -/
def flowFails (w : Walk) (p : Spot) (st after : Abs) (i : Instr) : List Broken :=
  let gone := { after with region := none }
  match i with
  | .bra h t => match branchTo w p t with
    | some (l, k) =>
      let e := (braEdges st after h).1
      edgeFails w p.mode .jump e.1 e.2 l k
    | none => [cfg 1 (w.im.codeva + wrap (64 * ((p.line : Int) + t.offset.toInt) + t.slot.val) 64)]
  | .brx _ _ table count => brxFails w p after table.toNat count.toNat
  | .call _ d t => match branchTo w p t with
    | some (l, k) =>
      let n := nextSlot p.line p.slot
      edgeFails w p.mode (.call d) (gone.giveLink w.im d (((w.im.blockAt l k).map (·.1)).getD 0)) none l k ++
      (match edgeTarget w p.mode .jump n.1 n.2 with
        | .ok _ => []
        | .error _ => [cfg 4 (w.im.pc n.1 n.2)])
    | none => [cfg 1 (w.im.codeva + wrap (64 * ((p.line : Int) + t.offset.toInt) + t.slot.val) 64)]
  | .callImp _ d index => importFails w p gone d index.toNat
  | .ret _ a => match p.unit with
    | some (f, e) =>
      let ok := e.fentry && st.held == itemsHeld e.items && (match a with
        | .v r => linkPair e.items == some r.val && st.pairTy r.val == 17 && (st.reg r.val).link == some f
        | _ => false)
      if ok then [] else [broken 3 4 0 0]
    | none => [broken 3 4 0 0]
  | .exitTo _ _ =>
    brokenIf (inVector p.unit) 3 2 0 0 ++ if w.im.entrySigs.contains (st.sig w.im) then [] else [broken 3 6 0 0]
  | _ => []

/-- Nothing passes an unguarded terminator (R343); what passes an unguarded call arrives by its return (R354). -/
def terminates (i : Instr) : Bool :=
  (Instr.hdr i).pred == 15#4 && (match i with
    | .bra .. | .ret .. | .exit .. | .exitTo .. | .sret .. | .hret .. | .halt .. | .call .. | .callImp .. => true
    | _ => false)

/-- The state that falls through an instruction, with the lock it carries; the lanes that do not execute a guarded call keep theirs. -/
def fallState (st after : Abs) (i : Instr) : Abs × Option Nat :=
  match i with
  | .bra h _ => (braEdges st after h).2
  | .call .. | .callImp .. => ({ st with latches := 0, unread := 0, acq := none }, none)
  | _ => (after, none)

/-! Lines (R51, R52, R67, R79). -/

def encNo : EncErr → Nat
  | .enc01 => 1
  | .enc02 => 2
  | .enc03 => 3
  | .enc04 => 4

/-- The encoding failures of a slot, those of its line with slot 0, and PAR-01. -/
def lineFails (w : Walk) (l : KLine) (line slot : Nat) : List Broken :=
  let d0 : Int := bits (nth0 l.slots slot) 95 64
  let at_ := fun (k : Nat) => decode (w.im.regsOf (w.im.unitOf line k)) (nth0 l.slots k)
  (match at_ slot with
    | .error e => [broken 1 (encNo e) d0 l.word]
    | .ok i =>
      if decide (slot < 4) && bit l.word (5 + slot) then
        match at_ (slot + 1) with
        | .ok j => brokenIf (pairBad i j) 2 1 d0 l.word
        | .error _ => brokenIf (Instr.form i).switch 2 1 d0 l.word
      else []) ++
  (if slot = 0 then
    brokenIf (bits l.word 31 24 != 0 || bits l.word 23 21 != 1 || bits l.word 20 16 != 0 || bit l.word 9) 1 5 d0 l.word ++
    brokenIf (popCount 32 l.word % 2 != 0 || (List.range 5).any fun k => !slotParity l.bytes k) 1 6 d0 l.word
  else [])

/-! The walk (R343, R345). -/

/-- A failure with its slot, and the lines walked. -/
structure Rejection where
  why : Broken
  at_ : Option (Nat × Nat)
  lines : Nat
  deriving DecidableEq, Repr

/-- The walk in progress: the abstract state, the states at returns by function, the return sites not yet checked by block and function,
the signatures at `exit.to` sites. -/
structure Walked where
  st : Option Abs
  rets : List (Nat × Abs)
  sites : List (Nat × Nat)
  exits : List (Pc × Nat)
  deriving DecidableEq, Repr

/-- The last line of the unit that an entry block begins. -/
def KImage.lastLine (im : KImage) (n : Nat) : Nat :=
  match ((enum im.blocks).filter fun x => decide (n < x.1) && x.2.entry).head? with
  | some (_, b) => if b.slot = 0 then b.line - 1 else b.line
  | none => im.nlines - 1

/-- A return site's annotation is implied by the meet of the function's states at its `ret`s, with the function's own held set (R354). -/
def siteFails (w : Walk) (x : Walked) (site f : Nat) : List Broken :=
  match w.im.blocks[site]?, w.im.blocks[f]? with
  | some b, some e =>
    let held := itemsHeld e.items
    (match meetAll ((x.rets.filter fun r => r.1 == f).map (·.2)) with
      | some m => implyFails w.im { m with held := held } site b
      | none => brokenIf (held != itemsHeld b.items) 7 3 held site)
  | _, _ => []

/-- The failures of a block's start: its annotation, the states that dispatch and a trap give it, its TGT bit, and return sites whose
function has been walked. -/
def blockFails (w : Walk) (x : Walked) (line : Nat) (n : Nat) (b : KBlock) : List Broken :=
  let regs := w.im.regsOf (some (n, b))
  annotationFails w.im b ++
  (if b.kentry then implyFails w.im (dispatchState n regs) n b else []) ++
  (if b.ventry then
    implyFails w.im (vectorState n regs) n b ++
    b.items.flatMap (fun i => match i with
      | .ptr _ _ _ hi => [broken 6 2 hi.k 0x80000000]
      | .rel _ op _ => [broken 6 3 (if op = 0 then -1 else 0) 0x80000000]
      | _ => [])
  else []) ++
  (x.sites.filter fun y => y.1 == n && decide (w.im.lastLine y.2 < line)).flatMap fun y => siteFails w x y.1 y.2

/-- One slot of the walk. -/
def walkSlot (w : Walk) (x : Walked) (line slot : Nat) (l : KLine) : Except Rejection Walked :=
  let blk := w.im.blockAt line slot
  let unit := w.im.unitOf line slot
  let tgt := bit l.word slot
  let mode := ((w.im.blockOver line slot).map (·.2.mode)).getD 0
  let p : Spot := { line := line, slot := slot, unit := unit, mode := mode, word := nth0 l.slots slot }
  let reject := fun (bs : List Broken) => (worst bs).map fun b => ({ why := b, at_ := some (line, slot), lines := line + 1 } : Rejection)
  let first := lineFails w l line slot ++ brokenIf (blk.isSome != tgt) 3 5 0 0
  let st := match blk with
    | some (n, b) => some (entryState w.im n b)
    | none => x.st
  let start := match blk with
    | some (n, b) => blockFails w x line n b
    | none => []
  match decode (w.im.regsOf unit) (nth0 l.slots slot) with
  | .error _ => match reject (first ++ start) with
    | some r => .error r
    | none => .ok { x with st := none }
  | .ok i => match st with
    | none => match reject (first ++ start) with
      | some r => .error r
      | none => .ok { x with st := none }
    | some a =>
      let after := stepAbs w.im (w.scratch p) a i
      let fall := fallState a after i
      let n := nextSlot line slot
      let through := if terminates i then []
        else match w.im.blockAt n.1 n.2 with
          | some _ => edgeFails w mode .jump fall.1 fall.2 n.1 n.2
          | none => match fall.2 with
            | some lock => [lockFail fall.1 6 lock]
            | none => []
      match reject (first ++ start ++ instrFails w p a i ++ flowFails w p a after i ++ through) with
      | some r => .error r
      | none => .ok
        { st := if terminates i then none else some fall.1
          rets := match i, unit with
            | .ret _ _, some (f, _) => (f, a) :: x.rets
            | _, _ => x.rets
          sites := (match i with
            | .call _ _ t => match branchTo w p t, w.im.blockAt n.1 n.2 with
              | some (tl, tk), some (site, _) => [(site, ((w.im.blockAt tl tk).map (·.1)).getD 0)]
              | _, _ => []
            | _ => []) ++ x.sites
          exits := match i with
            | .exitTo _ _ => (BitVec.ofNat 64 (w.im.pc line slot), a.sig w.im) :: x.exits
            | _ => x.exits }

/-- The return sites that wait for a function whose last line this is, in ascending address (R345, R354). -/
def lineEnd (w : Walk) (x : Walked) (line : Nat) : Except Rejection Walked :=
  let ended := (enum w.im.blocks).filter fun y => y.2.fentry && w.im.lastLine y.1 == line
  let due := (enum w.im.blocks).flatMap fun b =>
    (x.sites.filter fun y => y.1 == b.1 && decide (b.2.line ≤ line) && ended.any fun e => e.1 == y.2).map fun y => (b.2, y)
  match due.findSome? fun d => (worst (siteFails w x d.2.1 d.2.2)).map fun b =>
      ({ why := b, at_ := some (d.1.line, d.1.slot), lines := line + 1 } : Rejection) with
  | some r => .error r
  | none => .ok x

/-- The walk of every line, in ascending address. -/
def walkLines (w : Walk) : List (Nat × KLine) → Walked → Except Rejection Walked
  | [], x => match x.st with
    | some _ => .error { why := broken 3 2 0 0, at_ := some (w.im.nlines - 1, 4), lines := w.im.nlines }
    | none => .ok x
  | (n, l) :: rest, x =>
    match (List.range 5).foldlM (fun y k => walkSlot w y n k l) x with
    | .error r => .error r
    | .ok y => match lineEnd w y n with
      | .error r => .error r
      | .ok z => walkLines w rest z

/-- The instructions of an image with their units. -/
def KImage.instrs (im : KImage) : List (Option (Nat × KBlock) × Nat × Instr) :=
  (enum im.code).flatMap fun l => (List.range 5).filterMap fun k =>
    match decode (im.regsOf (im.unitOf l.1 k)) (nth0 l.2.slots k) with
    | .ok i => some (im.unitOf l.1 k, k, i)
    | .error _ => none

/-- The streams that the kernels of an image carry. -/
def KImage.streams (im : KImage) : List (Nat × Nat) :=
  im.instrs.filterMap fun x => match x.1, (Instr.form x.2.2).clause with
    | some (n, _), some c => some (n, c.stream.val)
    | _, _ => none

/-- CheckImage, then the walk (R343). -/
def gradeImage (im : KImage) (grants : List Grant) (priv bindcnt : Nat) : Except Rejection Walked :=
  match im.imgFail grants bindcnt with
  | some (n, off) => .error { why := broken 11 n off 0, at_ := none, lines := 0 }
  | none =>
    walkLines { im := im, grants := grants, priv := priv, streams := im.streams } (enum im.code)
      { st := none, rets := [], sites := [], exits := [] }

/-! The sealed image (R355, R356, R361, R363). -/

def modeOf (n : Nat) : Mode := Mode.ofCode n

/-- The barrier numbers of a level that a kernel's code names, with those of the functions it may call (R178). -/
def KImage.barriers (im : KImage) (n : Nat) (level : BarLevel) : List Nat :=
  im.instrs.filterMap fun x =>
    let mine := match x.1 with
      | some (m, b) => m == n || b.fentry
      | none => false
    match x.2.2 with
    | .barArrive _ _ l k _ | .barWait _ _ l k _ | .barSync _ _ l k => if mine && l == level then some k.toNat else none
    | _ => none

/-- A mask of the numbers in a list. -/
def maskOf (n : Nat) (xs : List Nat) : BitVec n := xs.foldl (fun m k => m ||| (1#n <<< k)) 0#n

/-- The mode tag of a code page: that of its blocks, or of the code that runs on into it (R95, R361). -/
def KImage.pageMode (im : KImage) (page : Nat) : Nat :=
  match im.blocks.find? fun b => b.line / 1024 == page with
  | some b => b.mode
  | none => ((im.blocks.filter fun b => decide (b.line / 1024 < page)).getLast?.map (·.mode)).getD 0

/-- An accepted image, as the device keeps it. -/
def sealedImage (im : KImage) (x : Walked) (handle vf ctx header : Nat) : Image :=
  let pcOf := fun (b : KBlock) => BitVec.ofNat 64 (im.pc b.line b.slot)
  { handle := handle, vf := vf, ctx := ctx, header := header
    kerns := im.kerns.map fun k =>
      let b := (im.blocks[k.block]?).getD (blockOf 0 [] [])
      { pc := pcOf b, regs := k.regs, gangs := k.gangs, scratch := k.scratch, vector := b.ventry, mode := modeOf b.mode
        sig := if b.kentry then im.entrySig b else 0, cbar := maskOf 32 (im.barriers k.block .camp)
        tbar := maskOf 64 (im.barriers k.block .tract), fbar := maskOf 64 (im.barriers k.block .fabric) }
    blocks := (enum im.blocks).map fun b =>
      { pc := pcOf b.2, prio := b.2.prio, ventry := if b.2.ventry then (im.kernOf b.1).map (·.regs) else none }
    exits := x.exits.reverse
    funcs := ((enum im.blocks).filter fun b => b.2.fentry).map fun b =>
      { hash := b.2.hash, pc := pcOf b.2, items := b.2.items, ret := meetAll ((x.rets.filter fun r => r.1 == b.1).map (·.2)) }
    objs := im.objs.map fun o => (o.space, o.hash)
    imports := im.imps.map (·.imp), constva := im.constva, constsz := im.constsz, newer := none }

end Sys2Proof.Machine
end

