-- ==== Sys2Proof/Machine/Grader.lean ====
section
/-!
DEFINITION. The Grader's events: taking a request and refusing it, walking its image, sealing and rejecting, lazy binding, re-admission and
release (R335 to R337, R359 to R361, R364 to R368, R376, R395).
-/

namespace Sys2Proof.Machine

/-! A request's fields (R335). -/

def AdmReq.word (r : AdmReq) (i : Nat) : Nat := nth0 r.words i
def AdmReq.quad (r : AdmReq) (i : Nat) : Nat := r.word i + 2 ^ 32 * r.word (i + 1)
def AdmReq.op (r : AdmReq) : Nat := r.word 0 % 16
def AdmReq.ctx (r : AdmReq) : Nat := r.word 1 % 65536
def AdmReq.tenant (r : AdmReq) : Nat := r.word 1 / 65536
def AdmReq.image (r : AdmReq) : Nat := r.quad 2
def AdmReq.result_ (r : AdmReq) : Nat := r.quad 4
def AdmReq.grants (r : AdmReq) : Nat := r.quad 6
def AdmReq.ngrant (r : AdmReq) : Nat := r.word 8 % 256
def AdmReq.old (r : AdmReq) : Nat := r.quad 10
def AdmReq.tag (r : AdmReq) : Nat := r.quad 12

/-- A reserved field of the request, or its OP, breaks R335. -/
def AdmReq.reserved (r : AdmReq) : Bool :=
  r.word 0 / 16 != 0 || r.op == 0 || decide (3 < r.op) || r.word 8 / 256 != 0 || decide (64 < r.ngrant) || r.word 9 != 0 ||
    r.quad 14 != 0

/-- A Grader as a translator for a request (R295, R337). -/
def AdmReq.who (r : AdmReq) (tract : Nat) : Who :=
  { holder := 576 + tract, vf := r.vf, ctx := r.ctx, root := r.desc.s1root, cls := r.desc.cls, user := false, world := none
    mayPatch := true, pri := true }

/-- The ring of a request's context. -/
def AdmReq.ring (r : AdmReq) (tract : Nat) : Ring :=
  { vf := r.vf, ctx := r.ctx, tenant := r.tenant, root := r.desc.s1root, cls := r.desc.cls, holder := 576 + tract }

/-! The admission record (R359). -/

/-- What a record says beyond the request. -/
structure AdmOut where
  status : Nat
  rule : Nat
  handle : Nat
  block : Option (Nat × Nat)
  line : Nat
  slot : Nat
  nopos : Bool
  det0 : Nat
  det1 : Nat
  codeva : Nat
  lines : Nat
  deriving DecidableEq, Repr

/-- A record without a position. -/
def AdmOut.plain (status handle det0 lines : Nat) : AdmOut :=
  { status := status, rule := 0, handle := handle, block := none, line := 0, slot := 0, nopos := true, det0 := det0, det1 := 0
    codeva := 0, lines := lines }

/-- The record of a rejection. -/
def AdmOut.reject (im : KImage) (j : Rejection) : AdmOut :=
  match j.at_ with
  | none => { AdmOut.plain 1 0 j.why.det0 j.lines with rule := j.why.rule, det1 := j.why.det1 }
  | some (l, k) =>
    { status := 1, rule := j.why.rule, handle := 0, block := (im.blockOver l k).map fun b => (b.1, b.2.hash), line := l, slot := k
      nopos := false, det0 := j.why.det0, det1 := j.why.det1, codeva := (im.codeva + 64 * l) % 2 ^ 64, lines := j.lines }

/-- The 64 bytes of an admission record. -/
def admissionBytes (x : AdmOut) (ticks tag : Nat) : List Byte :=
  bytesOf 4 (x.status + 2 ^ 8) ++ bytesOf 4 x.rule ++ bytesOf 8 x.handle ++
  bytesOf 4 (match x.block with
    | some b => b.1
    | none => 0xFFFFFFFF) ++
  bytesOf 4 (match x.block with
    | some b => b.2
    | none => 0) ++
  bytesOf 4 x.line ++ bytesOf 4 (x.slot + (if x.nopos then 2 ^ 8 else 0)) ++ bytesOf 4 x.det0 ++ bytesOf 4 x.det1 ++
  bytesOf 8 x.codeva ++ bytesOf 4 x.lines ++ bytesOf 4 (ticks % 2 ^ 32) ++ bytesOf 8 tag

/-- Writes an admission record at RESULT; one that does not translate is lost. -/
def writeAdmission (s : State) (tract : Nat) (r : AdmReq) (x : AdmOut) : State :=
  (deviceWrite s { r.who tract with pri := false } r.result_
    (admissionBytes x (if r.pending.isSome then s.tick - r.start else 0) r.tag)).getD s

/-! The queues (R335, R376, R380). -/

/-- The request that a Grader has in hand. -/
def inHand (s : State) (tract : Nat) : Option AdmReq := (s.admWait.find? fun e => e.1 == tract).map (·.2)

def putDown (s : State) (tract : Nat) : State := { s with admWait := s.admWait.filter fun e => e.1 != tract }
def takeUp (s : State) (tract : Nat) (r : AdmReq) : State := { putDown s tract with admWait := (putDown s tract).admWait ++ [(tract, r)] }

/-- The first function whose admission ring holds a request. -/
def admRing (s : State) : Option Nat :=
  (List.range 64).find? fun vf => accepts s vf && (s.func vf).admprod != (s.func vf).admcons

/-- The request at the head of a function's admission ring. -/
def ringRequest (s : State) (vf : Nat) : AdmReq :=
  let f := s.func vf
  let n := 16 * 2 ^ (f.admq.toNat % 16)
  let ws := requestWords (peekN s.host (f.admq.toNat / 4096 * 4096 + 64 * (f.admcons % n)) 64)
  { vf := vf, words := ws, priv := if vf = 0 then .hyper else .super
    desc := (readDesc s vf (nth0 ws 1 % 65536)).getD CtxDesc.zero, bind := none, start := 0, pending := none, failed := false, result := none }

/-- Requests of its function's ring, submitted before one of the device's, have not been taken (R335, R382). -/
def AdmReq.waitsRing (s : State) (r : AdmReq) : Bool :=
  let f := s.func r.vf
  let ahead := (r.behind + 2 ^ 32 - f.admcons) % 2 ^ 32
  ahead != 0 && decide (ahead ≤ (f.admprod + 2 ^ 32 - f.admcons) % 2 ^ 32)

/-- The next request of a tract's Grader, and the state without it: of each function's the one submitted first (R335). Among functions, what
the device has submitted there goes before the host's rings. -/
def nextRequest (s : State) (tract : Nat) : Option (State × AdmReq) :=
  match s.admQueue.find? fun e => e.1 == tract && !e.2.waitsRing s with
  | some e => some ({ s with admQueue := s.admQueue.erase e }, e.2)
  | none => match admRing s with
    | some vf => some (s.mapFunc vf fun f => { f with admcons := (f.admcons + 1) % 2 ^ 32 }, ringRequest s vf)
    | none => none

/-- A Grader can take requests (R395). -/
def graderReady (s : State) (tract : Nat) : Bool := decide (tract < 8) && s.readymap.getLsbD (90 + tract)

/-! Refusals (R336). -/

/-- How the checks of a request end: a refusal code; a page request to wait for; or the image with its grants and its pages. -/
inductive AdmCheck where
  | refuse (code : Nat)
  | wait (s : State)
  | pass (im : KImage) (grants : List Grant) (code consts : List (Nat × Nat))

/-- The image of a request with its grants and pages, or the VA that does not read. -/
def readRequest (s : State) (tract : Nat) (r : AdmReq) :
    Except Nat (List Grant × KImage × List (Nat × Nat) × List (Nat × Nat)) := do
  let w := r.who tract
  let g ← graderBytes s w r.grants (16 * r.ngrant)
  let im ← readImage (graderBytes s w) r.image
  let code ← graderPages s w im.codeva (64 * im.nlines)
  let consts ← graderPages s w im.constva im.constsz
  return (grantsOf g r.ngrant, im, code, consts)

/-- OLD names no handle of the context, or names one for OP 1. -/
def oldBad (s : State) (r : AdmReq) : Bool :=
  if r.op = 1 then r.old != 0 else (handleImage s r.vf r.ctx r.old).isNone

/-- A store or atomic that has been translated to one of the pages has not performed yet. -/
def storesTo (s : State) (pages : List (Nat × Nat)) : Bool :=
  s.crews.any fun c => c.ops.any fun o => o.kind.writes && (match o.kind.addr? with
    | some (.glob _ _ bs, _) => bs.any fun b => (b.leaf.toList ++ b.alt.toList).any fun l => pages.any fun p => p.2 == l.pa / 65536
    | _ => false)

/-- The checks of a request that a walk follows. The pages become pending once no earlier store to them is in flight, so that the bytes
checked are the bytes sealed (R337). -/
def checkRequest (s : State) (tract : Nat) (r : AdmReq) : AdmCheck :=
  if r.reserved then .refuse 1
  else match readRequest s tract r with
    | .error va =>
      if r.failed then .refuse 2
      else match laneXlat s (r.who tract) r.desc.pasid (.grader tract) 0 va 1 with
        | (s1, .page _) => .wait s1
        | _ => .refuse 2
    | .ok (grants, im, code, consts) =>
      if grants.any Grant.bad then .refuse 1
      else if (code ++ consts).any fun p => s.seals.any fun q => q.pa == p.2 then .refuse 3
      else if oldBad s r then .refuse 4
      else if !Config.sealRoom (s.seals.length + code.length + consts.length) then .refuse 5
      else if storesTo s (code ++ consts) then .wait s
      else .pass im grants code consts

/-! The two events of an admission (R337, R343). -/

/-- The pages of a request as they stand while it is walked. -/
def pendingPages (r : AdmReq) (handle : Nat) (im : KImage) (code consts : List (Nat × Nat)) : List SealPage :=
  (code.map fun p =>
    ({ handle := handle, vf := r.vf, ctx := r.ctx, vpage := p.1, pa := p.2, code := true
       mode := modeOf (im.pageMode (p.1 - im.codeva / 65536)), pending := true } : SealPage)) ++
  consts.map fun p =>
    { handle := handle, vf := r.vf, ctx := r.ctx, vpage := p.1, pa := p.2, code := false, mode := .user, pending := true }

/-- A request leaves the Grader: a binding keeps what came of it until it completes. -/
def concludeBinding (s : State) (tract : Nat) (r : AdmReq) (x : Option Nat × Nat) : State := takeUp s tract { r with result := some x }

/-- A refusal: the admission record, and no ring record. -/
def refuseRequest (s : State) (tract : Nat) (r : AdmReq) (code : Nat) : State :=
  if r.bind.isSome then concludeBinding s tract r (none, (Config.unstatedRule s.draws).toNat)
  else writeAdmission (putDown s tract) tract r (AdmOut.plain 2 0 code 0)

/-- Checks a request in hand: its pages become pending, or it waits, or it is refused. -/
def admitChecks (s : State) (tract : Nat) (r : AdmReq) : State :=
  match checkRequest s tract r with
  | .refuse code => refuseRequest s tract r code
  | .wait s1 => takeUp s1 tract r
  | .pass im grants code consts =>
    let h := s.nextHandle
    takeUp { s with seals := s.seals ++ pendingPages r h im code consts, nextHandle := h + 1 } tract
      { r with pending := some h, start := s.tick, read := some (grants, im) }

/-- The pages of a handle leave the seal tables. -/
def dropSeals (s : State) (h : Nat) : State := { s with seals := s.seals.filter fun p => p.handle != h }

/-- The trap record of a rejection (R360). -/
def rejectRecord (im : KImage) (j : Rejection) : Record :=
  let x := AdmOut.reject im j
  { deviceRecord 0x78 0 x.codeva x.rule 0 with
    pc := match j.at_ with
      | some (l, k) => BitVec.ofNat 64 (im.pc l k)
      | none => 0#64 }

/-- A rejection. -/
def rejectRequest (s : State) (tract : Nat) (r : AdmReq) (h : Nat) (im : KImage) (j : Rejection) : State :=
  if r.bind.isSome then concludeBinding (dropSeals s h) tract r (none, j.why.rule)
  else if ringRoom s (r.ring tract) 1 then
    writeRecord (writeAdmission (dropSeals (putDown s tract) h) tract r (AdmOut.reject im j)) (r.ring tract) (rejectRecord im j)
  else ringStall s (r.ring tract) 0 none

/-- Steps 1 to 3 of sealing (R361). -/
def sealImage (s : State) (r : AdmReq) (h : Nat) (im : KImage) (x : Walked) : State :=
  { s with
    seals := s.seals.map fun p => if p.handle = h then { p with pending := false } else p
    images := s.images ++ [sealedImage im x h r.vf r.ctx r.image] }

/-! Binding entries (R364, R366, R367). -/

/-- One 8-byte store of the device to a binding entry. -/
def bindStore (s : State) (w : Who) (va : Nat) (n x : Nat) : State := (deviceWrite s w va (bytesOf n x)).getD s

/-- TARGET, then HANDLE. -/
def bindTarget (s : State) (w : Who) (va : Nat) (pc : Pc) (h : Nat) : State :=
  bindStore (bindStore s w (va + 16) 8 pc.toNat) w (va + 24) 8 h

/-- Each binding entry that names OLD receives the new image's function of its name; one without a match fails (R367). -/
def rebind (s : State) (tract : Nat) (r : AdmReq) (funcs : List AFunc) (h : Nat) : State :=
  let w := { r.who tract with pri := false }
  (List.range r.desc.bindcnt).foldl (fun s j =>
    let va := r.desc.bindbase + 64 * j
    match deviceRead s w va 64 with
    | some b =>
      if fieldAt b 0x18 8 = r.old then
        match funcs.find? fun f => f.hash == fieldAt b 4 4 with
        | some f => bindTarget s w va f.pc h
        | none => bindStore s w va 4 3
      else s
    | none => s) s

/-- An accepted image is sealed; a re-admission then rebinds and replaces OLD (R361, R367). -/
def acceptRequest (s : State) (tract : Nat) (r : AdmReq) (h : Nat) (im : KImage) (x : Walked) : State :=
  let s1 := sealImage s r h im x
  if r.bind.isSome then concludeBinding s1 tract r (some h, 0)
  else
    let s2 := if r.op = 2 then
        let s3 := rebind s1 tract r (sealedImage im x h r.vf r.ctx r.image).funcs h
        { s3 with images := s3.images.map fun (i : Image) =>
            if i.handle = r.old then { i with newer := some (h, (s.ctxAt r.vf r.ctx).lqProd) } else i }
      else s1
    writeAdmission (putDown s2 tract) tract r (AdmOut.plain 0 h 0 im.nlines)

/-- The walk of a request whose pages are pending, over the image as it was read when they became so (R337). -/
def admitWalk (s : State) (tract : Nat) (r : AdmReq) (h : Nat) : State :=
  match r.read with
  | none => s
  | some (grants, im) => match gradeImage im grants r.priv.band r.desc.bindcnt with
    | .error j => rejectRequest s tract r h im j
    | .ok x => acceptRequest s tract r h im x

/-- The words of the request that lazy binding makes of a binding entry (R365). -/
def bindingWords (r : AdmReq) (b : List Byte) : List Nat :=
  [1, r.word 1, fieldAt b 8 4, fieldAt b 12 4, 0, 0, fieldAt b 0x20 4, fieldAt b 0x24 4, fieldAt b 0x28 4, 0, 0, 0, 0, 0, 0, 0]

/-- A Grader takes a request up; a library that the context has admitted needs no walk (R365). -/
def takeRequest (s : State) (tract : Nat) (r : AdmReq) : State :=
  match r.bind with
  | none => admitChecks (takeUp s tract r) tract r
  | some b =>
    match deviceRead s (r.who tract) (r.desc.bindbase + 64 * b.index) 64 with
    | none => concludeBinding s tract r (none, (Config.unstatedRule s.draws).toNat)
    | some e =>
      let q := { r with words := bindingWords r e }
      match s.images.find? fun i => i.vf == r.vf && i.ctx == r.ctx && i.header == q.image with
      | some i => concludeBinding s tract q (some i.handle, 0)
      | none => admitChecks (takeUp s tract q) tract q

/-- A request goes on: it is checked, or walked. -/
def goOnRequest (s : State) (tract : Nat) (r : AdmReq) : State :=
  if r.result.isSome then s
  else match r.pending with
    | some h => admitWalk s tract r h
    | none => admitChecks s tract r

/-- A Grader acts on the requests that `mine` accepts. -/
def graderActs (s : State) (tract : Nat) (mine : AdmReq → Bool) (take : State → Nat → AdmReq → State) : State :=
  if !graderReady s tract then s
  else match inHand s tract with
    | some r => if mine r then goOnRequest s tract r else s
    | none => match nextRequest s tract with
      | some (s1, r) => if mine r then take s1 tract r else s
      | none => s

/-- `ADMIT`: the Grader of a tract takes an admit request, or walks the one in hand (R343). A request of no known OP is refused here. -/
def execGraderWalk (tract : Nat) (s : State) : Host.Outcome State Fault Refusal :=
  finish (graderActs s tract (fun r => r.bind.isSome || (r.op != 2 && r.op != 3)) takeRequest)

/-- `READMIT` (R367). -/
def execReadmit (tract : Nat) (s : State) : Host.Outcome State Fault Refusal :=
  finish (graderActs s tract (fun r => r.bind.isNone && r.op == 2) takeRequest)

/-! Release (R368). -/

/-- A record of a launch ring that no Grader or landing has taken names a handle, or one that it replaces. -/
def queuedNames (s : State) (r : AdmReq) : Bool :=
  let x := s.ctxAt r.vf r.ctx
  (List.range 8).any fun q => (List.range (min (ringUsed x q) (2 ^ r.desc.lqsz))).any fun n =>
    let i := nth0 x.lqTaken q + n
    let h := fieldAt (peekN s.host (ringSlot r.desc q i) 16) 8 8
    h == r.old || newestHandle s q i s.images.length h == r.old

/-- A handle is in use: by a launch, or by a binding entry. -/
def handleUsed (s : State) (tract : Nat) (r : AdmReq) : Bool :=
  s.launches.any (fun l => l.handle == r.old && !l.done) || queuedNames s r ||
    (List.range r.desc.bindcnt).any fun j =>
      match deviceRead s (r.who tract) (r.desc.bindbase + 64 * j) 64 with
      | some b => fieldAt b 0x18 8 == r.old
      | none => false

/-- The refusal code of a release; 0 accepts it. -/
def releaseRefusal (s : State) (tract : Nat) (r : AdmReq) : Nat :=
  if r.reserved then 1 else if oldBad s r then 4 else if handleUsed s tract r then 6 else 0

def releaseHandle (s : State) (tract : Nat) (r : AdmReq) : State :=
  let code := releaseRefusal s tract r
  if code = 0 then
    let s1 := dropSeals s r.old
    writeAdmission { s1 with images := s1.images.filter fun i => i.handle != r.old } tract r (AdmOut.plain 0 r.old 0 0)
  else writeAdmission s tract r (AdmOut.plain 2 0 code 0)

/-- `RELEASE`. -/
def execRelease (tract : Nat) (s : State) : Host.Outcome State Fault Refusal :=
  finish (graderActs s tract (fun r => r.bind.isNone && r.op == 3) releaseHandle)

/-! Binding (R355, R366). -/

/-- An object list as an image of objects without extents. -/
def objectImage (objs : List (Nat × Nat)) : KImage :=
  { header := [], codeva := 0, nlines := 0, constva := 0, constsz := 0, blocks := [], kerns := [], imps := [], code := [], consts := []
    objs := objs.map fun o => { hash := o.2, flags := o.1, addr := 0, size := 0, slot := 0xFFFFFFFF, top := 0 } }

/-- An interface's items with their objects numbered as the library numbers them: objects are the same by space and name. -/
def carryItem (caller lib : List (Nat × Nat)) : Item → Item
  | .ptr r o lo hi => .ptr r (match caller[o]? with
      | some x => (lib.findIdx? (· == x)).getD lib.length
      | none => lib.length) lo hi
  | i => i

/-- What a library's function breaks of an import's interface (R355). -/
def interfaceFails (caller lib : Image) (p : Import) (f : AFunc) : List Broken :=
  let im := objectImage lib.objs
  let entry := p.entry.map (carryItem caller.objs lib.objs)
  let back := p.back.map (carryItem caller.objs lib.objs)
  brokenIf (linkPair f.items != linkPair entry) 3 4 0 0 ++
  itemFails im 0 (itemsState im 0 (Abs.empty 0) entry) none f.items ++
  (match f.ret with
    | some m => itemFails im 0 m none back
    | none => []) ++
  brokenIf (itemsHeld f.items != 0) 7 3 (itemsHeld f.items) 0

/-- The function that an import is bound to, or the rule that stops it. -/
def bindTo (s : State) (b : Binding) (h hash : Nat) : Pc ⊕ Nat :=
  match s.image? h with
  | none => .inr (Config.unstatedRule s.draws).toNat
  | some lib => match lib.funcs.find? fun f => f.hash == hash with
    | none => .inr (Config.unstatedRule s.draws).toNat
    | some f => match s.image? b.handle with
      | none => .inl f.pc
      | some caller => match caller.imports[b.imp]? with
        | none => .inl f.pc
        | some p => match worst (interfaceFails caller lib p f) with
          | some x => .inr x.rule
          | none => .inl f.pc

/-- The parked lanes of a context execute their `call.imp` again (R365, R366). -/
def unpark (s : State) (vf ctx : Nat) : State :=
  ((allGangs s).filter fun x => match s.crew? x.1 with
    | some c => (s.launchOf c).vf == vf && (s.launchOf c).ctx == ctx
    | none => false).foldl (fun s x =>
      let m := (s.gang x.1 x.2).parked
      if m = 0#32 then s else goOn (s.mapGang x.1 x.2 fun g => { g with parked := 0#32 }) x.1 x.2 m true) s

/-- A binding fails: STATE 3 and one record (R366). -/
def bindFails (s : State) (tract : Nat) (r : AdmReq) (va rule : Nat) : State :=
  if ringRoom s (r.ring tract) 1 then
    unpark (writeRecord (bindStore (putDown s tract) (r.who tract) va 4 3) (r.ring tract) (deviceRecord 0x78 0 0 rule 0)) r.vf r.ctx
  else ringStall s (r.ring tract) 0 none

/-- The end of a binding whose library has been graded. -/
def completeBinding (s : State) (tract : Nat) (r : AdmReq) (b : Binding) (x : Option Nat × Nat) : State :=
  let va := r.desc.bindbase + 64 * b.index
  match x.1 with
  | none => bindFails s tract r va x.2
  | some h => match bindTo s b h (match deviceRead s (r.who tract) va 64 with
      | some e => fieldAt e 4 4
      | none => 0) with
    | .inr rule => bindFails s tract r va rule
    | .inl pc => unpark (bindStore (bindTarget (putDown s tract) (r.who tract) va pc h) (r.who tract) va 4 2) r.vf r.ctx

/-- A request for a binding entry of a context has been graded. -/
def AdmReq.graded (r : AdmReq) (vf ctx index : Nat) : Bool :=
  r.vf == vf && r.ctx == ctx && (r.bind.map (·.index)) == some index && r.result.isSome

/-- `BINDING_COMPLETE`. -/
def execBindingComplete (vf ctx index : Nat) (s : State) : Host.Outcome State Fault Refusal :=
  match s.admWait.find? fun e => e.2.graded vf ctx index with
  | some (tract, r) => match r.bind, r.result with
    | some b, some x => finish (completeBinding s tract r b x)
    | _, _ => finish s
  | none => finish s

end Sys2Proof.Machine
end

