-- ==== Sys2Proof/Machine/LoadStore.lean ====
section
/-!
DEFINITION. Load, store and atomic instructions of the core and the camp: private, scratchpad, constant, neighbour and vault spaces (R220 to
R224, R240 to R243).
-/

namespace Sys2Proof.Machine

/-- A load from a 32-bit space, whose offset gives an address (R221, R222). -/
def load32 (s : State) (h : Hdr) (z : Size) (d : Opnd) (m : MemArg) (f : Issue → Nat → Addr) : Host.Outcome State Fault Refusal :=
  issueMemory s h ((d, sizeWords z) :: memUses m false) [] d m.clause (scopeCode m.scope) 0 fun i =>
    plainLane fun l => .load (f i (offset32 i.g s.draws l m (sizeBytes z) true)) .norm z d

/-- A store to a 32-bit space. -/
def store32 (s : State) (h : Hdr) (z : Size) (b : Opnd) (m : MemArg) (f : Issue → Nat → Addr) : Host.Outcome State Fault Refusal :=
  issueMemory s h ((b, sizeWords z) :: memUses m false) [] .vz m.clause (scopeCode m.scope) 0 fun i =>
    plainLane fun l => .store (f i (offset32 i.g s.draws l m (sizeBytes z) true)) z (readWide i.g s.draws l b (sizeWords z))

/-- An atomic of a 32-bit space (R223). -/
def atom32 (s : State) (h : Hdr) (op : AtomOp) (w : AWidth) (d b : Opnd) (m : MemArg) (f : Nat → Addr) :
    Host.Outcome State Fault Refusal :=
  let n := widthWords w
  issueMemory s h ([(d, n), (b, n)] ++ memUses m false) [] d m.clause (scopeCode m.scope) 0 fun i =>
    plainLane fun l => .atom (f (offset32 i.g s.draws l m (4 * n) true)) op w (readWide i.g s.draws l b n) d none

/-- A compare-and-swap of a 32-bit space: B holds the compare value, then the new value (R224). -/
def cas32 (s : State) (h : Hdr) (w : AWidth) (d b : Opnd) (pd : PredOpt) (m : MemArg) (f : Nat → Addr) :
    Host.Outcome State Fault Refusal :=
  let n := widthWords w
  issueMemory s h ([(d, n), (b, 2 * n)] ++ memUses m false) [pd] d m.clause (scopeCode m.scope) 0 fun i =>
    plainLane fun l => .cas (f (offset32 i.g s.draws l m (4 * n) true)) (4 * n) (readWide i.g s.draws l b n)
      (readWide i.g s.draws l (Opnd.plus b n) n) d pd

/-- `ld.p` (R216, R220, R222). -/
def execLdP (h : Hdr) (p : Policy) (z : Size) (d : Opnd) (m : MemArg) (s : State) : Host.Outcome State Fault Refusal :=
  issueMemory s h ((d, sizeWords z) :: memUses m false) [] d m.clause (scopeCode m.scope) 0 fun i =>
    globLane i false 0 (sizeBytes z) (fun l => privVa s i.c i.k l (offset32 i.g s.draws l m (sizeBytes z) false))
      fun _ a => .load (a.inSpace 8) p z d

/-- `st.p` (R216, R220, R222). The policy changes only timing. -/
def execStP (h : Hdr) (_p : Policy) (z : Size) (b : Opnd) (m : MemArg) (s : State) : Host.Outcome State Fault Refusal :=
  issueMemory s h ((b, sizeWords z) :: memUses m false) [] .vz m.clause (scopeCode m.scope) 0 fun i =>
    globLane i false 1 (sizeBytes z) (fun l => privVa s i.c i.k l (offset32 i.g s.draws l m (sizeBytes z) false))
      fun l a => .store (a.inSpace 8) z (readWide i.g s.draws l b (sizeWords z))

/-- `ld.s` (R217, R222). -/
def execLdS (h : Hdr) (z : Size) (d : Opnd) (m : MemArg) (s : State) : Host.Outcome State Fault Refusal :=
  load32 s h z d m fun _ e => .scr e

/-- `st.s` (R217, R222). -/
def execStS (h : Hdr) (z : Size) (b : Opnd) (m : MemArg) (s : State) : Host.Outcome State Fault Refusal :=
  store32 s h z b m fun _ e => .scr e

/-- `atom.s` (R223). -/
def execAtomS (h : Hdr) (op : AtomOp) (w : AWidth) (d b : Opnd) (m : MemArg) (s : State) : Host.Outcome State Fault Refusal :=
  atom32 s h op w d b m .scr

/-- `cas.s` (R224). -/
def execCasS (h : Hdr) (w : AWidth) (d b : Opnd) (pd : PredOpt) (m : MemArg) (s : State) : Host.Outcome State Fault Refusal :=
  cas32 s h w d b pd m .scr

/-- `ld.k` (R218, R222): the constant section of the image whose code executes. -/
def execLdK (h : Hdr) (z : Size) (d : Opnd) (m : MemArg) (s : State) : Host.Outcome State Fault Refusal :=
  load32 s h z d m fun i e => .konst (codeHandle s i.c i.e.pc) e

/-- `ld.n` (R240, R243). -/
def execLdN (h : Hdr) (z : Size) (d : Opnd) (m : MemArg) (s : State) : Host.Outcome State Fault Refusal :=
  load32 s h z d m fun _ e => .nbr e

/-- `st.n` (R240, R243). -/
def execStN (h : Hdr) (z : Size) (b : Opnd) (m : MemArg) (s : State) : Host.Outcome State Fault Refusal :=
  store32 s h z b m fun _ e => .nbr e

/-- `ld.v` (R241, R243, R245). -/
def execLdV (h : Hdr) (shd : Bool) (z : Size) (d : Opnd) (m : MemArg) (s : State) : Host.Outcome State Fault Refusal :=
  load32 s h z d m fun _ e => .vault shd e

/-- `st.v` (R241, R243, R245). -/
def execStV (h : Hdr) (shd : Bool) (z : Size) (b : Opnd) (m : MemArg) (s : State) : Host.Outcome State Fault Refusal :=
  store32 s h z b m fun _ e => .vault shd e

/-- `atom.v` (R223, R243). -/
def execAtomV (h : Hdr) (op : AtomOp) (w : AWidth) (d b : Opnd) (m : MemArg) (s : State) : Host.Outcome State Fault Refusal :=
  atom32 s h op w d b m (.vault false)

/-- `cas.v` (R224, R243). -/
def execCasV (h : Hdr) (w : AWidth) (d b : Opnd) (pd : PredOpt) (m : MemArg) (s : State) : Host.Outcome State Fault Refusal :=
  cas32 s h w d b pd m (.vault false)

end Sys2Proof.Machine
end

