-- ==== Sys2Proof/Machine/Waits.lean ====
section
/-!
DEFINITION. Barrier instructions, `wait` and `waits`, and the conditions of `wait` (R174 to R183).
-/

namespace Sys2Proof.Machine

/-! Barriers (R174, R175, R177). -/

/-- `bar.arrive` (R175, R177). -/
def execBarArrive (h : Hdr) (cl : Clause) (l : BarLevel) (num : BitVec 6) (pr : PredOpt) (s : State) :
    Host.Outcome State Fault Refusal :=
  issueCounted s h [] [pr] cl (levelCode l) fun _ _ _ => .barArrive (levelCode l) num.toNat pr

/-- The phase bit that a lane's `bar.wait` waits past: its predicate's value, or the bit current at issue (R177). -/
def pastBit (s : State) (i : Issue) (level num : Nat) (pr : PredOpt) (l : Nat) : Bool :=
  match pr with
  | some p => (i.g.lane l).pred p.val
  | none => phaseOf s i.c i.k level num

/-- `bar.wait` (R177). -/
def execBarWait (h : Hdr) (cl : Clause) (l : BarLevel) (num : BitVec 6) (pr : PredOpt) (s : State) :
    Host.Outcome State Fault Refusal :=
  issueCounted s h [] [pr] cl (levelCode l) fun s i lane =>
    .barWait (levelCode l) num.toNat (pastBit s i (levelCode l) num.toNat pr lane)

/-- `bar.sync` (R175, R177). -/
def execBarSync (h : Hdr) (cl : Clause) (l : BarLevel) (num : BitVec 6) (s : State) : Host.Outcome State Fault Refusal :=
  issueCounted s h [] [] cl (levelCode l) fun _ _ _ => .barSync (levelCode l) num.toNat false false

/-! `waits` (R183). -/

/-- `waits` blocks its executing lanes until the counter of each is at most `n` (R183). -/
def execWaits (h : Hdr) (stream : Fin 8) (n : BitVec 6) (s : State) : Host.Outcome State Fault Refusal :=
  issueSwitch s h [] [] fun i m =>
    if m.lanes.all fun l => decide ((i.g.lane l).cnt stream.val ≤ n.toNat) then
      finishSwitch s s i i.c [nextGroup s i i.e.mask] []
    else
      finishSwitch s s i
        (i.c.mapGang i.k fun g => { g with counted := g.counted ++ m.lanes.map fun l => (l, stream.val, n.toNat) })
        [stayGroup i m, nextGroup s i (i.e.mask &&& ~~~m)] []

/-! `wait` (R179 to R181). -/

/-- The condition groups of one lane, read at issue. The two low bits of a word's address are cleared (log entry 103). -/
def readConds (g : Gang) (draw l : Nat) (a : Opnd) (wmask : BitVec 4) (n : Nat) : List Cond :=
  (List.range n).map fun j =>
    { w0 := readOpnd g draw l (Opnd.plus a (4 * j)), w1 := readOpnd g draw l (Opnd.plus a (4 * j + 1))
      va := BitVec.ofNat 64 (readWide g draw l (Opnd.plus a (4 * j + 2)) 2 / 4 * 4), word := wmask.getLsbD j }

/-- The kind of a condition (R180). -/
def Cond.kind (c : Cond) : Nat := bits c.w0.toNat 31 28

/-- The words of memory that a lane's conditions read (R180). -/
def Cond.words (cs : List Cond) : List Nat := (cs.filter fun c => c.kind == 5 && c.word).map fun c => c.va.toNat

/-- Translates the word at a VA as a `.g` load would: through the public view that holds it (R180, R298). -/
def wordXlat (s : State) (c : Crew) (w : Who) (j : Joiner) (va : Nat) : State × LaneXlat :=
  match xlatBytes w (s.launchOf c).desc.pasid j 0 s 0 ((List.range 4).map fun i => redirect s c false false (va + i)) with
  | (s1, .inl ls) => (s1, .ok (ls.filterMap id))
  | (s1, .inr (k, .trap cause _ d0 d1)) => (s1, .trap cause (va + k) d0 d1)
  | (s1, .inr (k, .page x)) => (s1, .page { x with addr := va + k })
  | (s1, .inr (k, .ok _)) => (s1, .trap 0x20 (va + k) 0 0)

/-- How the reads of a lane's kind-5 conditions translate: the first failure, if any (R180). -/
def condsXlat (s : State) (c : Crew) (w : Who) (j : Joiner) : List Nat → State × LaneXlat
  | [] => (s, .ok [])
  | va :: vas =>
    match wordXlat s c w j va with
    | (s1, .ok _) => condsXlat s1 c w j vas
    | r => r

/-- Translates the kind-5 words of every executing lane in turn. -/
def lanesXlat (c : Crew) (w : Nat → Who) (j : Nat → Joiner) (f : Nat → List Nat) : State → List Nat → State × List (Nat × LaneXlat)
  | s, [] => (s, [])
  | s, l :: ls =>
    let r := condsXlat s c (w l) (j l) (f l)
    let rest := lanesXlat c w j f r.1 ls
    (rest.1, (l, r.2) :: rest.2)

/-- Starts a `wait` of the lanes of a mask: each counts one operation, and their entry stays (R181). -/
def waitStart (s : State) (i : Issue) (m : LaneMask) (all : Bool) (n : Nat) (d a : Opnd) (cl : Clause) (wmask : BitVec 4)
    (pt : PredOpt) : Crew :=
  let c1 := i.c.addOps i.k s.draws i.e.pc cl 4 (m.lanes.map fun l => (l, OpKind.wait))
  let c2 := c1.mapGang i.k fun g =>
    { g with waits := g.waits ++ (m.lanes.zip (List.range 32)).map fun x =>
        { lane := x.1, issue := s.draws, pc := i.e.pc, op := i.c.nextOp + x.2, all := all
          conds := readConds i.g s.draws x.1 a wmask n, timeout := readOpnd i.g s.draws x.1 d, pt := pt, start := none
          done := none } }
  c2.mapGang i.k (startWaits c2 s.tick)

/-- `wait` (R179 to R181). A lane whose kind-5 word faults traps; lanes whose word waits on a page request execute the `wait` again
when it is answered. -/
def execWait (h : Hdr) (all : Bool) (n : Fin 4) (d a : Opnd) (cl : Clause) (wmask : BitVec 4) (pt : PredOpt) (s : State) :
    Host.Outcome State Fault Refusal :=
  issueSwitch s h [(d, 1), (a, 4 * (n.val + 1))] [pt] fun i m =>
    if exhausted i.g m cl.stream then s
    else
      let r := lanesXlat i.c (fun l => i.c.who s (i.g.lane l).mode) (fun l => .lane i.c.uid i.k l)
        (fun l => Cond.words (readConds i.g s.draws l a wmask (n.val + 1))) s m.lanes
      let ts := r.2.filterMap fun x => match x.2 with
        | .trap cause ad d0 d1 => some (faultAt i x.1 cause ad d0 d1)
        | _ => none
      let ps : List PageWait := r.2.filterMap fun x => match x.2 with
        | .page y =>
          some { lane := x.1, op := 0, miss := y, acc := 0, due := none, user := (i.g.lane x.1).mode == .user }
        | _ => none
      let go := m &&& ~~~(trapMask ts)
      let rest := nextGroup s i (i.e.mask &&& ~~~m)
      if ps.isEmpty then
        finishSwitch s r.1 i (waitStart s i go all (n.val + 1) d a cl wmask pt) [stayGroup i go, rest] ts
      else
        finishSwitch s r.1 i (i.c.mapGang i.k fun g => { g with pages := g.pages ++ ps }) [stayGroup i go, rest] ts

/-! Evaluating conditions (R180). -/

/-- A write-pointer has reached a value (R229). -/
def wpReached (wp v : BitVec 32) : Bool := decide ((wp - v).toNat < 2 ^ 31)

/-- The level and number of a kind-1 condition are ones a barrier has (R174). -/
def barNamed (level num : Nat) : Bool :=
  (level == 0 && decide (num < 4)) || (level == 1 && decide (num < 16)) || (level == 2 && decide (num < 32)) ||
  ((level == 3 || level == 5) && decide (num < 64))

/-- The word a kind-5 condition reads, at package scope; `none` where it does not translate (R180). -/
def condWord (s : State) (c : Crew) (mode : Mode) (va : Nat) : Option Nat :=
  let w := { c.who s mode with pri := false }
  match wordXlat s c w (.grader 0) va with
  | (_, .ok ls) => if ls.any (leafBroken s w) then none else some (natOfBytes (readLeaves s w ls))
  | _ => none

/-- One condition of a lane holds (R180). A control word with a reserved kind or a field out of range never does. -/
def condHolds (s : State) (c : Crew) (k l : Nat) (x : Cond) : Bool :=
  let w := x.w0.toNat
  let v := x.w1.toNat
  match x.kind with
  | 0 => bits w 27 3 == 0 && decide (v ≤ 63) && decide (((c.gang k).lane l).cnt (bits w 2 0) ≤ v)
  | 1 =>
    let level := bits w 26 24
    let num := bits w 5 0
    bit w 27 == false && bits w 23 6 == 0 && barNamed level num && phaseOf s c k level num != bit v 0
  | 2 =>
    bits w 27 8 == 0 && decide (bits w 7 0 < 8) && wpReached ((c.channels.getD (bits w 7 0) Channel.fresh).wp) x.w1
  | 3 => bits w 27 0 == 0 && (match tidState c v with
    | .complete _ | .stale => true
    | _ => false)
  | 4 => bits w 27 6 == 0 && (match s.window? c.camp (bits w 5 0) with
    | some win => win.launch == c.launch && win.gen != x.w1
    | none => false)
  | 5 => bits w 27 0 == 0 && x.word && (match condWord s c ((c.gang k).lane l).mode x.va.toNat with
    | some y => y != v
    | none => false)
  | _ => false

/-- The conditions of a waiting lane hold (R181). -/
def waitHolds (s : State) (c : Crew) (k : Nat) (w : WaitRec) : Bool :=
  if w.all then w.conds.all (condHolds s c k w.lane) else w.conds.any (condHolds s c k w.lane)

/-- Notes how a lane's wait ended; the last lane of the issue ends it for all (R181). -/
def waitDone (s : State) (uid k l : Nat) (timeout : Bool) : State :=
  match s.crew? uid with
  | none => s
  | some c =>
    match (c.gang k).waits.find? (fun w => w.lane == l && w.done.isNone && w.start.isSome) with
    | none => s
    | some w0 =>
      finishWaits (s.setCrew (c.mapGang k fun g => { g with
        waits := g.waits.map fun w => if w.lane = l ∧ w.issue = w0.issue then { w with done := some timeout } else w })) uid k w0.issue

/-- The oldest wait of a lane that has started and is not done. -/
def waitOf (c : Crew) (k l : Nat) : Option WaitRec :=
  (c.gang k).waits.find? (fun w => w.lane == l && w.done.isNone && w.start.isSome)

/-- The tick count of a wait has reached its timeout (R181). -/
def waitExpired (s : State) (w : WaitRec) : Bool :=
  match w.start with
  | some t => w.timeout != 0xFFFFFFFF#32 && decide (w.timeout.toNat ≤ s.tick - t)
  | none => false

/-- A store of the lane to a word that its wait reads has not been performed: the wait may not read past it (R180, R195). -/
def wordPending (s : State) (c : Crew) (k : Nat) (w : WaitRec) : Bool :=
  (Cond.words w.conds).any fun va => c.ops.any fun o =>
    decide (o.id < w.op) && o.gang == k && o.lanes.getLsbD w.lane && o.kind.writes && (match o.kind.addr? with
      | some (a, n) => a.space == 4 && (decide (a.number < va + 4) && decide (va < a.number + n) ||
          (match wordXlat s c { c.who s ((c.gang k).lane w.lane).mode with pri := false } (.grader 0) va with
            | (_, .ok ls) => (addrLocs s c a n).any fun x => ls.any fun y => x.same (.phys y.pa y.prot false)
            | _ => false))
      | none => false)

/-- The reads of a waiting lane's marked words, as a load's (R180). -/
def waitXlat (s : State) (c : Crew) (k : Nat) (w : WaitRec) : State × LaneXlat :=
  condsXlat s c (c.who s ((c.gang k).lane w.lane).mode) (.lane c.uid k w.lane) (Cond.words w.conds)

/-- The words that a wait reads may be read: no store of its own to them is pending, and they translate. -/
def wordsRead (s : State) (c : Crew) (k : Nat) (w : WaitRec) : Bool :=
  !wordPending s c k w && (match (waitXlat s c k w).2 with
    | .ok _ => true
    | _ => false)

/-- One tick of a waiting lane: where its words can be read its conditions are evaluated; where one no longer translates the lane takes the
fault of a load, or waits on a page request (R180, R181, R295). -/
def waitTick (uid k l : Nat) (s : State) (f : Crew → WaitRec → State) : Host.Outcome State Fault Refusal :=
  match s.crew? uid with
  | none => finish s
  | some c =>
    match waitOf c k l with
    | none => finish s
    | some w =>
      if !c.isResident || (c.gang k).pages.any (fun p => p.op == w.op) then finish s
      else if wordsRead s c k w then finish (f c w)
      else if wordPending s c k w then finish s
      else match waitXlat s c k w with
        | (s1, .trap cause ad d0 d1) =>
          finish (lateTrap s1 c k w.op { lane := l, cause := cause, pc := w.pc, tpc := w.pc, addr := ad, det0 := d0, det1 := d1 })
        | (s1, .page x) =>
          finish (s1.mapGang uid k fun g => { g with pages := g.pages ++
            [{ lane := l, op := w.op, miss := x, acc := 0, user := (g.lane l).mode == .user, due := none }] })
        | (_, .ok _) => finish s

/-- A waiting lane's conditions hold at this tick, and it is done (R181). -/
def execWaitConditionMet (uid k l : Nat) (s : State) : Host.Outcome State Fault Refusal :=
  waitTick uid k l s fun c w => if waitHolds s c k w then waitDone s uid k l false else s

/-- A waiting lane's timeout expires while its conditions do not hold (R181). -/
def execWaitTimeout (uid k l : Nat) (s : State) : Host.Outcome State Fault Refusal :=
  waitTick uid k l s fun c w => if !waitHolds s c k w && waitExpired s w then waitDone s uid k l true else s

end Sys2Proof.Machine
end

