-- ==== Sys2Proof/Machine/Dispatch.lean ====
section
/-!
DEFINITION. The dispatch: one arm per constructor of `Instr`, each one direct call of its meaning.
-/

namespace Sys2Proof.Machine

def exec (i : Instr) (s : State) : Host.Outcome State Fault Refusal :=
  match i with
  | .add h t d a b => Sys2Proof.Machine.execAdd h t d a b s
  | .sub h t d a b => Sys2Proof.Machine.execSub h t d a b s
  | .addc h t d a b cin cout => Sys2Proof.Machine.execAddc h t d a b cin cout s
  | .subb h t d a b cin cout => Sys2Proof.Machine.execSubb h t d a b cin cout s
  | .mul h t d a b => Sys2Proof.Machine.execMul h t d a b s
  | .mulh h t d a b => Sys2Proof.Machine.execMulh h t d a b s
  | .mad h t d a b c => Sys2Proof.Machine.execMad h t d a b c s
  | .madh h t d a b c => Sys2Proof.Machine.execMadh h t d a b c s
  | .min h t d a b => Sys2Proof.Machine.execMin h t d a b s
  | .max h t d a b => Sys2Proof.Machine.execMax h t d a b s
  | .abs h t d a => Sys2Proof.Machine.execAbs h t d a s
  | .neg h t d a => Sys2Proof.Machine.execNeg h t d a s
  | .adds h t d a b => Sys2Proof.Machine.execAdds h t d a b s
  | .subs h t d a b => Sys2Proof.Machine.execSubs h t d a b s
  | .sad h t d a b c => Sys2Proof.Machine.execSad h t d a b c s
  | .cmp h t d a b cc op pd => Sys2Proof.Machine.execCmp h t d a b cc op pd s
  | .and h t d a b => Sys2Proof.Machine.execAnd h t d a b s
  | .or h t d a b => Sys2Proof.Machine.execOr h t d a b s
  | .xor h t d a b => Sys2Proof.Machine.execXor h t d a b s
  | .andn h t d a b => Sys2Proof.Machine.execAndn h t d a b s
  | .not h t d a => Sys2Proof.Machine.execNot h t d a s
  | .lop3 h t d a b c table => Sys2Proof.Machine.execLop3 h t d a b c table s
  | .shl h t d a b => Sys2Proof.Machine.execShl h t d a b s
  | .shr h t d a b => Sys2Proof.Machine.execShr h t d a b s
  | .sar h t d a b => Sys2Proof.Machine.execSar h t d a b s
  | .rot h t d a b => Sys2Proof.Machine.execRot h t d a b s
  | .bfx h t d a b => Sys2Proof.Machine.execBfx h t d a b s
  | .bfi h t d a b c => Sys2Proof.Machine.execBfi h t d a b c s
  | .popc h t d a => Sys2Proof.Machine.execPopc h t d a s
  | .clz h t d a => Sys2Proof.Machine.execClz h t d a s
  | .ctz h t d a => Sys2Proof.Machine.execCtz h t d a s
  | .brev h t d a => Sys2Proof.Machine.execBrev h t d a s
  | .sel h t d a b c => Sys2Proof.Machine.execSel h t d a b c s
  | .mov h t d a => Sys2Proof.Machine.execMov h t d a s
  | .movi h t d imm => Sys2Proof.Machine.execMovi h t d imm s
  | .lea h t d a b natural scale => Sys2Proof.Machine.execLea h t d a b natural scale s
  | .dp4 h t d a b c xs => Sys2Proof.Machine.execDp4 h t d a b c xs s
  | .fadd h r d a b m => Sys2Proof.Machine.execFadd h r d a b m s
  | .fsub h r d a b m => Sys2Proof.Machine.execFsub h r d a b m s
  | .fmul h r d a b m => Sys2Proof.Machine.execFmul h r d a b m s
  | .fma h r d a b c m => Sys2Proof.Machine.execFma h r d a b c m s
  | .fmin h d a b m nanp => Sys2Proof.Machine.execFmin h d a b m nanp s
  | .fmax h d a b m nanp => Sys2Proof.Machine.execFmax h d a b m nanp s
  | .fcmp h t d a b cc op pd => Sys2Proof.Machine.execFcmp h t d a b cc op pd s
  | .frnd h t r d a exact => Sys2Proof.Machine.execFrnd h t r d a exact s
  | .fclass h t d a mask pd => Sys2Proof.Machine.execFclass h t d a mask pd s
  | .rcp h r d a => Sys2Proof.Machine.execRcp h r d a s
  | .rsqrt h r d a => Sys2Proof.Machine.execRsqrt h r d a s
  | .sqrt h r d a => Sys2Proof.Machine.execSqrt h r d a s
  | .exp2 h r d a => Sys2Proof.Machine.execExp2 h r d a s
  | .log2 h r d a => Sys2Proof.Machine.execLog2 h r d a s
  | .sinpi h r d a => Sys2Proof.Machine.execSinpi h r d a s
  | .cospi h r d a => Sys2Proof.Machine.execCospi h r d a s
  | .fscale h r d a b => Sys2Proof.Machine.execFscale h r d a b s
  | .fexp h d a => Sys2Proof.Machine.execFexp h d a s
  | .hadd2 h t r d a b m => Sys2Proof.Machine.execHadd2 h t r d a b m s
  | .hmul2 h t r d a b m => Sys2Proof.Machine.execHmul2 h t r d a b m s
  | .hfma2 h t r d a b c m => Sys2Proof.Machine.execHfma2 h t r d a b c m s
  | .hmin2 h t d a b m nanp => Sys2Proof.Machine.execHmin2 h t d a b m nanp s
  | .hmax2 h t d a b m nanp => Sys2Proof.Machine.execHmax2 h t d a b m nanp s
  | .fdot2 h t r d a b c m => Sys2Proof.Machine.execFdot2 h t r d a b c m s
  | .fdot4 h r d a b c m fa fb => Sys2Proof.Machine.execFdot4 h r d a b c m fa fb s
  | .cvt h dst src elem sat dflt r d a => Sys2Proof.Machine.execCvt h dst src elem sat dflt r d a s
  | .pack h t r d a b => Sys2Proof.Machine.execPack h t r d a b s
  | .unpack h t part d a => Sys2Proof.Machine.execUnpack h t part d a s
  | .plsplit h n p d a => Sys2Proof.Machine.execPlsplit h n p d a s
  | .plmerge h n k d a => Sys2Proof.Machine.execPlmerge h n k d a s
  | .quant h nat r n elem d a b c => Sys2Proof.Machine.execQuant h nat r n elem d a b c s
  | .dequant h nat r elem d a b => Sys2Proof.Machine.execDequant h nat r elem d a b s
  | .prmt h d a b ctl => Sys2Proof.Machine.execPrmt h d a b ctl s
  | .bra h t => Sys2Proof.Machine.execBra h t s
  | .brx h a table count => Sys2Proof.Machine.execBrx h a table count s
  | .call h d t => Sys2Proof.Machine.execCall h d t s
  | .callImp h d index => Sys2Proof.Machine.execCallImp h d index s
  | .ret h a => Sys2Proof.Machine.execRet h a s
  | .exit h => Sys2Proof.Machine.execExit h s
  | .exitTo h a => Sys2Proof.Machine.execExitTo h a s
  | .region h => Sys2Proof.Machine.execRegion h s
  | .yield h => Sys2Proof.Machine.execYield h s
  | .nop pred pneg => Sys2Proof.Machine.execNop pred pneg s
  | .trap h n => Sys2Proof.Machine.execTrap h n s
  | .syscall h n => Sys2Proof.Machine.execSyscall h n s
  | .hcall h n => Sys2Proof.Machine.execHcall h n s
  | .brk h n => Sys2Proof.Machine.execBrk h n s
  | .shfl h m d a k grp pd => Sys2Proof.Machine.execShfl h m d a k grp pd s
  | .vote h m d ps psn pd => Sys2Proof.Machine.execVote h m d ps psn pd s
  | .redux h op d a => Sys2Proof.Machine.execRedux h op d a s
  | .scan h op excl d a => Sys2Proof.Machine.execScan h op excl d a s
  | .matchq h wide d a pd => Sys2Proof.Machine.execMatchq h wide d a pd s
  | .barArrive h c l num pr => Sys2Proof.Machine.execBarArrive h c l num pr s
  | .barWait h c l num pr => Sys2Proof.Machine.execBarWait h c l num pr s
  | .barSync h c l num => Sys2Proof.Machine.execBarSync h c l num s
  | .wait h all n d a c wmask pt => Sys2Proof.Machine.execWait h all n d a c wmask pt s
  | .waits h stream n => Sys2Proof.Machine.execWaits h stream n s
  | .chkb h signed s0 a b c => Sys2Proof.Machine.execChkb h signed s0 a b c s
  | .chkt h a b => Sys2Proof.Machine.execChkt h a b s
  | .chkl h a b => Sys2Proof.Machine.execChkl h a b s
  | .ldP h p s0 d m => Sys2Proof.Machine.execLdP h p s0 d m s
  | .stP h p s0 b m => Sys2Proof.Machine.execStP h p s0 b m s
  | .ldS h s0 d m => Sys2Proof.Machine.execLdS h s0 d m s
  | .stS h s0 b m => Sys2Proof.Machine.execStS h s0 b m s
  | .atomS h op w d b m => Sys2Proof.Machine.execAtomS h op w d b m s
  | .casS h w d b pd m => Sys2Proof.Machine.execCasS h w d b pd m s
  | .ldK h s0 d m => Sys2Proof.Machine.execLdK h s0 d m s
  | .copy h src win chan a b e => Sys2Proof.Machine.execCopy h src win chan a b e s
  | .cpwp h chan d => Sys2Proof.Machine.execCpwp h chan d s
  | .cpcancel h chan e => Sys2Proof.Machine.execCpcancel h chan e s
  | .ldN h s0 d m => Sys2Proof.Machine.execLdN h s0 d m s
  | .stN h s0 b m => Sys2Proof.Machine.execStN h s0 b m s
  | .ldV h shd s0 d m => Sys2Proof.Machine.execLdV h shd s0 d m s
  | .stV h shd s0 b m => Sys2Proof.Machine.execStV h shd s0 b m s
  | .atomV h op w d b m => Sys2Proof.Machine.execAtomV h op w d b m s
  | .casV h w d b pd m => Sys2Proof.Machine.execCasV h w d b pd m s
  | .taskPost h d a e => Sys2Proof.Machine.execTaskPost h d a e s
  | .taskDec h a e => Sys2Proof.Machine.execTaskDec h a e s
  | .taskStatT h d a => Sys2Proof.Machine.execTaskStatT h d a s
  | .taskStatW h d win => Sys2Proof.Machine.execTaskStatW h d win s
  | .taskStatQ h d q => Sys2Proof.Machine.execTaskStatQ h d q s
  | .emit h a pd e => Sys2Proof.Machine.execEmit h a pd e s
  | .pubw h win e => Sys2Proof.Machine.execPubw h win e s
  | .ldG h p shd s0 d m => Sys2Proof.Machine.execLdG h p shd s0 d m s
  | .stG h p shd s0 b m => Sys2Proof.Machine.execStG h p shd s0 b m s
  | .atomG h op w d b m => Sys2Proof.Machine.execAtomG h op w d b m s
  | .casG h w d b pd m => Sys2Proof.Machine.execCasG h w d b pd m s
  | .redG h op w b m => Sys2Proof.Machine.execRedG h op w b m s
  | .hintL2 h b m => Sys2Proof.Machine.execHintL2 h b m s
  | .hintL1 h b m => Sys2Proof.Machine.execHintL1 h b m s
  | .hintLru h b m => Sys2Proof.Machine.execHintLru h b m s
  | .cwbL2 h b m => Sys2Proof.Machine.execCwbL2 h b m s
  | .cwbMem h b m => Sys2Proof.Machine.execCwbMem h b m s
  | .cinvL1 h b m => Sys2Proof.Machine.execCinvL1 h b m s
  | .cinvL2 h b m => Sys2Proof.Machine.execCinvL2 h b m s
  | .iinv h b m => Sys2Proof.Machine.execIinv h b m s
  | .fbar h c => Sys2Proof.Machine.execFbar h c s
  | .ldH h s0 d m => Sys2Proof.Machine.execLdH h s0 d m s
  | .stH h s0 b m => Sys2Proof.Machine.execStH h s0 b m s
  | .atomH h op d b pd m => Sys2Proof.Machine.execAtomH h op d b pd m s
  | .ldF h s0 d m => Sys2Proof.Machine.execLdF h s0 d m s
  | .stF h s0 b m => Sys2Proof.Machine.execStF h s0 b m s
  | .atomF h op w d b pd m => Sys2Proof.Machine.execAtomF h op w d b pd m s
  | .copyFGet h chan a b e => Sys2Proof.Machine.execCopyFGet h chan a b e s
  | .copyFGetw h win chan a b e => Sys2Proof.Machine.execCopyFGetw h win chan a b e s
  | .copyFPut h chan a b e => Sys2Proof.Machine.execCopyFPut h chan a b e s
  | .rdsr h d r => Sys2Proof.Machine.execRdsr h d r s
  | .wrsr h r a => Sys2Proof.Machine.execWrsr h r a s
  | .sret h => Sys2Proof.Machine.execSret h s
  | .hret h => Sys2Proof.Machine.execHret h s
  | .tlbinvVa h a b => Sys2Proof.Machine.execTlbinvVa h a b s
  | .tlbinvCtx h => Sys2Proof.Machine.execTlbinvCtx h s
  | .tlbinvGpa h a b => Sys2Proof.Machine.execTlbinvGpa h a b s
  | .tlbinvVf h => Sys2Proof.Machine.execTlbinvVf h s
  | .ctxsave h force d a c => Sys2Proof.Machine.execCtxsave h force d a c s
  | .ctxload h d a c => Sys2Proof.Machine.execCtxload h d a c s
  | .launchRun h d a b => Sys2Proof.Machine.execLaunchRun h d a b s
  | .launchAdm h d a => Sys2Proof.Machine.execLaunchAdm h d a s
  | .frmset h d a b => Sys2Proof.Machine.execFrmset h d a b s
  | .l2partSet h d a b => Sys2Proof.Machine.execL2partSet h d a b s
  | .l2partMask h d a => Sys2Proof.Machine.execL2partMask h d a s
  | .l2partOcc h d a b => Sys2Proof.Machine.execL2partOcc h d a b s
  | .l2partHit h d a b => Sys2Proof.Machine.execL2partHit h d a b s
  | .l2partMiss h d a b => Sys2Proof.Machine.execL2partMiss h d a b s
  | .l2partClr h m d a b => Sys2Proof.Machine.execL2partClr h m d a b s
  | .keyopLoad h d a b => Sys2Proof.Machine.execKeyopLoad h d a b s
  | .keyopErase h d a b => Sys2Proof.Machine.execKeyopErase h d a b s
  | .keyopAttest h d a b => Sys2Proof.Machine.execKeyopAttest h d a b s
  | .halt h s0 => Sys2Proof.Machine.execHalt h s0 s
  | .lanepc h a b => Sys2Proof.Machine.execLanepc h a b s
  | .lanestRel h a => Sys2Proof.Machine.execLanestRel h a s
  | .lanestHold h a => Sys2Proof.Machine.execLanestHold h a s
  | .lanestExit h a => Sys2Proof.Machine.execLanestExit h a s
  | .lineFetch core gang => Sys2Proof.Machine.execLineFetch core gang s
  | .memoryOpComplete crew op => Sys2Proof.Machine.execMemoryOpComplete crew op s
  | .barrierPhaseComplete bar => Sys2Proof.Machine.execBarrierPhaseComplete bar s
  | .waitConditionMet crew gang lane => Sys2Proof.Machine.execWaitConditionMet crew gang lane s
  | .waitTimeout crew gang lane => Sys2Proof.Machine.execWaitTimeout crew gang lane s
  | .copyBegin crew chan => Sys2Proof.Machine.execCopyBegin crew chan s
  | .copyDelivery crew chan bytes => Sys2Proof.Machine.execCopyDelivery crew chan bytes s
  | .copyComplete crew chan => Sys2Proof.Machine.execCopyComplete crew chan s
  | .taskIssue camp engine => Sys2Proof.Machine.execTaskIssue camp engine s
  | .mmaF crew entry => Sys2Proof.Machine.execMmaF crew entry s
  | .mmaQ crew entry => Sys2Proof.Machine.execMmaQ crew entry s
  | .hadam crew entry => Sys2Proof.Machine.execHadam crew entry s
  | .tileQuant crew entry => Sys2Proof.Machine.execTileQuant crew entry s
  | .xpose crew entry => Sys2Proof.Machine.execXpose crew entry s
  | .acc crew entry => Sys2Proof.Machine.execAcc crew entry s
  | .fill crew entry => Sys2Proof.Machine.execFill crew entry s
  | .stage crew entry => Sys2Proof.Machine.execStage crew entry s
  | .stagingAdmit crew entry w => Sys2Proof.Machine.execStagingAdmit crew entry w s
  | .stagingArrive crew entry w => Sys2Proof.Machine.execStagingArrive crew entry w s
  | .emitPushHeld crew op => Sys2Proof.Machine.execEmitPushHeld crew op s
  | .crewPlace launch core => Sys2Proof.Machine.execCrewPlace launch core s
  | .crewResume crew core => Sys2Proof.Machine.execCrewResume crew core s
  | .gangRetire crew gang => Sys2Proof.Machine.execGangRetire crew gang s
  | .successorStart crew => Sys2Proof.Machine.execSuccessorStart crew s
  | .quantumExpiry crew => Sys2Proof.Machine.execQuantumExpiry crew s
  | .deadlineExpiry crew => Sys2Proof.Machine.execDeadlineExpiry crew s
  | .crewSave crew => Sys2Proof.Machine.execCrewSave crew s
  | .pageRequestSend vf => Sys2Proof.Machine.execPageRequestSend vf s
  | .pageResponseSuccess vf prg => Sys2Proof.Machine.execPageResponseSuccess vf prg s
  | .pageResponseInvalid vf prg => Sys2Proof.Machine.execPageResponseInvalid vf prg s
  | .pageResponseFailure vf prg => Sys2Proof.Machine.execPageResponseFailure vf prg s
  | .hostCompletion crew op how => Sys2Proof.Machine.execHostCompletion crew op how s
  | .hostCompletionTimeout crew op => Sys2Proof.Machine.execHostCompletionTimeout crew op s
  | .fabricTimeout crew op => Sys2Proof.Machine.execFabricTimeout crew op s
  | .fabricResponse crew op how => Sys2Proof.Machine.execFabricResponse crew op how s
  | .flitCheckFail link => Sys2Proof.Machine.execFlitCheckFail link s
  | .linkDown link => Sys2Proof.Machine.execLinkDown link s
  | .linkTrained link => Sys2Proof.Machine.execLinkTrained link s
  | .trapRingRoom vf ctx => Sys2Proof.Machine.execTrapRingRoom vf ctx s
  | .bindingComplete vf ctx index => Sys2Proof.Machine.execBindingComplete vf ctx index s
  | .graderWalk tract => Sys2Proof.Machine.execGraderWalk tract s
  | .readmit tract => Sys2Proof.Machine.execReadmit tract s
  | .release tract => Sys2Proof.Machine.execRelease tract s
  | .launchTake vf ctx queue => Sys2Proof.Machine.execLaunchTake vf ctx queue s
  | .launchCompletion launch => Sys2Proof.Machine.execLaunchCompletion launch s
  | .gcmCheckFail launch va => Sys2Proof.Machine.execGcmCheckFail launch va s
  | .admprod vf value => Sys2Proof.Machine.execAdmprod vf value s
  | .lqdb vf value => Sys2Proof.Machine.execLqdb vf value s
  | .priclr vf value => Sys2Proof.Machine.execPriclr vf value s
  | .linkctl link value => Sys2Proof.Machine.execLinkctl link value s
  | .linkstFailedClear link value => Sys2Proof.Machine.execLinkstFailedClear link value s
  | .logctlEn vf value => Sys2Proof.Machine.execLogctlEn vf value s
  | .logctlOvfClear vf value => Sys2Proof.Machine.execLogctlOvfClear vf value s
  | .logctlAlldirtyClear vf value => Sys2Proof.Machine.execLogctlAlldirtyClear vf value s
  | .logctlStop vf value => Sys2Proof.Machine.execLogctlStop vf value s
  | .vfControlWrite vf r value => Sys2Proof.Machine.execVfControlWrite vf r value s
  | .registerWrite vf offset value => Sys2Proof.Machine.execRegisterWrite vf offset value s
  | .hostInboundWrite pa bytes => Sys2Proof.Machine.execHostInboundWrite pa bytes s
  | .debugStop core gang => Sys2Proof.Machine.execDebugStop core gang s
  | .debugResume core gang => Sys2Proof.Machine.execDebugResume core gang s
  | .debugRead core gang item => Sys2Proof.Machine.execDebugRead core gang item s
  | .debugWrite core gang item value => Sys2Proof.Machine.execDebugWrite core gang item value s
  | .lockInterfaceRequest vf => Sys2Proof.Machine.execLockInterfaceRequest vf s
  | .startInterfaceRequest vf => Sys2Proof.Machine.execStartInterfaceRequest vf s
  | .stopInterfaceRequest vf => Sys2Proof.Machine.execStopInterfaceRequest vf s
  | .ideStreamFailure vf => Sys2Proof.Machine.execIdeStreamFailure vf s
  | .functionLevelReset vf => Sys2Proof.Machine.execFunctionLevelReset vf s
  | .reset => Sys2Proof.Machine.execReset s
  | .systemInstructionComplete crew gang lane => Sys2Proof.Machine.execSystemInstructionComplete crew gang lane s
  | .launchCancel launch => Sys2Proof.Machine.execLaunchCancel launch s
  | .unitReady unit => Sys2Proof.Machine.execUnitReady unit s
  | .healthPredictionUpdate item value => Sys2Proof.Machine.execHealthPredictionUpdate item value s
  | .firmwareImageLoad image => Sys2Proof.Machine.execFirmwareImageLoad image s

end Sys2Proof.Machine
end

