-- ==== Sys2Proof/Machine/Moves.lean ====
section
/-!
DEFINITION. What a step does outside the instructions: the gang that issues, lanes that stand at an illegal target, the passing of
time, what caches forget, and the placing of one instruction for a probe.
-/

namespace Sys2Proof.Machine

/-- The gang at `State.cur`, with the entry it is to issue from. -/
def curIssue (s : State) : Option Issue :=
  match s.cur with
  | none => none
  | some (uid, k) =>
    match s.crew? uid with
    | none => none
    | some c => gangIssue s c k

/-- Lanes of the chosen entry whose rewritten PC is no legal target raise cause 0x02 (R101). -/
def illegalTrap (s : State) (i : Issue) : State :=
  let m := i.e.mask &&& i.g.illegal
  let c := i.c.mapGang i.k fun g => { g with illegal := g.illegal &&& ~~~m }
  match takeTraps (s.setCrew c) c i.k i.e.prio (m.lanes.map fun l => { badTarget i l i.e.pc with moved := true }) with
  | some t => t
  | none => ringStall s (i.c.ring s) i.c.uid (some i.k)

/-- A gang has begun to issue and is at no switch point: its core issues from no other gang (R64). -/
def holdsCore (s : State) (c : Crew) (k : Nat) : Bool :=
  let g := c.gang k
  mayIssue s c k && g.chosen && (match g.frontier with
    | e :: _ => !e.busy && e.band == topBand g.frontier && !(match g.line with
      | some (va, bs) => va == pcLine e.pc && switchOp (lineSlot bs (pcSlot e.pc) / 2 ^ 86)
      | none => false)
    | [] => false)

/-- The core of a crew issues from a gang next, unless another gang of the crew is at no switch point (R64). -/
def turnTo (s : State) (uid k : Nat) : State :=
  match s.crew? uid with
  | none => { s with cur := some (uid, k) }
  | some c =>
    if (match c.turn with
      | some j => j != k && holdsCore s c j
      | none => false) then s
    else { s.setCrew { c with turn := some k } with cur := some (uid, k) }

/-- The target module has translated a `.f` access: its lane waits for it no longer (R403, R405). -/
def fabGoesOn (s : State) (uid op : Nat) : State :=
  match s.crew? uid with
  | none => s
  | some c => match c.op? op with
    | some o => match o.kind.fab? with
      | some _ => if c.isResident then remoteDone s uid o else s
      | none => s
    | none => s

/-- A move that is no event of the table. -/
def applyMove (m : Move) (s : State) : State :=
  match m with
  | .issue uid k => turnTo s uid k
  | .event _ => s
  | .hostMemory a bs => { s with host := pokeN s.host a bs }
  | .elapse n => { s with now := s.now + n }
  | .dropTlb h => { s with tlbs := s.tlbs.filter fun t => t.holder != h }
  | .holdWalk n held => { s with walks := s.walks.modify n fun x => { x with held := held } }
  | .dropL1 core => { s with l1 := s.l1.filter (fun e => e.1 != core), ibuf := s.ibuf.filter fun e => e.1 != core }
  | .poison line => { s with poisoned := line :: s.poisoned }
  | .spoil x => { s with spoiled := x :: s.spoiled }
  | .millRead uid e x => millRead s uid e x
  | .millWrite uid e n => millWrite s uid e n
  | .stagePart uid e n => stagePart s uid e n
  | .part uid op piece => performPart s uid op piece
  | .stale uid op n => performStale s uid op n
  | .fabTranslated uid op => fabGoesOn s uid op
  | .priConfig vf on n => s.mapFunc vf fun f => { f with priOn := on, priAlloc := n }

/-- The five slots of a line with one instruction in slot 0 and `nop` in the others, and its line word (R50 to R52, R69). -/
def lineOf (w : Nat) : List Byte :=
  let nop := 0x5200F00FFFFFFFFFFF000000
  let word := 2 ^ 21 + (popCount 96 w % 2) * 2 ^ 10 + 2 ^ 11 + 2 ^ 12 + 2 ^ 13 + 2 ^ 14
  bytesOf 12 w ++ bytesOf 12 nop ++ bytesOf 12 nop ++ bytesOf 12 nop ++ bytesOf 12 nop ++
    bytesOf 4 (word + (popCount 32 word % 2) * 2 ^ 15)

/-- A crew of one gang on core 0 whose line holds one instruction, in slot 0 of the line at VA 0. -/
def wordCrew (uid launch w : Nat) : Crew :=
  Crew.fresh uid launch 0 0 0 0 1536 4096 0 false [{ Gang.fresh .user 0#64 0 [] with line := some (0, lineOf w) }]

/-- A state whose next step runs one instruction: every crew steps aside for a crew that holds it. -/
def placeWord (s : State) (nbits w : Nat) : State :=
  { s with
    agenda := [], cur := some (s.nextUid, 0), bad := none, ringWait := []
    crews := [wordCrew s.nextUid s.nextLaunch (w % 2 ^ nbits)], nextUid := s.nextUid + 1
    launches := s.launches ++ [{ Launch.blank with id := s.nextLaunch, ncrew := 1, regs := 1536, gangs := 1, scratch := 4096 }]
    nextLaunch := s.nextLaunch + 1 }

end Sys2Proof.Machine
end

