-- ==== Sys2Proof/Machine/Step.lean ====
section
/-!
DEFINITION. One step of the module: the next event of its agenda, or the instruction of the gang that issues.
-/

namespace Sys2Proof.Machine

/-- The gang at `State.cur` issues the instruction at its PC, or first fetches the line that holds it; with nothing to issue,
nothing changes. -/
def stepGang (s : State) : Host.Outcome State Fault Refusal :=
  match curIssue s with
  | none => .next s
  | some i =>
    if i.e.mask &&& i.g.illegal != 0#32 then finish (illegalTrap s i)
    else
      match slotInstr i.c.regs i.g i.e.pc with
      | some ins => exec ins (s.setCrew i.c)
      | none => exec (.lineFetch i.c.coreOf i.k) (s.setCrew i.c)

/-- One step. -/
def step (s : State) : Host.Outcome State Fault Refusal :=
  match s.agenda with
  | [] => stepGang s
  | .event i :: rest => exec i { s with agenda := rest }
  | m :: rest => .next (applyMove m { s with agenda := rest })

/-- The state in which the next step fetches and runs an instruction of `nbits` bits `w`: a resident crew of one gang whose own
line holds it (log entry 2). -/
def State.withFetchWord (s : State) (nbits w : Nat) : State := placeWord s nbits w

end Sys2Proof.Machine
end

