-- ==== Sys2Proof/Safety.lean ====
section
/-!
DEFINITION. The terms of the statements: a well-formed state, when a gang is ready to issue, and what an instruction that takes
effect leaves.
-/

namespace Sys2Proof.Machine

/-- Both byte memories keep their canonical form, and no access of an earlier step is left without storage. -/
def State.wf (s : State) : Bool := Memory.wf s.hbm && Memory.wf s.host && s.bad.isNone

/-- A step from here goes on: it answers a next state. -/
def State.goesOn (s : State) : Prop := ∃ t, step s = .next t

/-! When a gang is ready. -/

/-- A gang issues, the scoreboard holds nothing back, and no access is without storage (R68). -/
structure Ready (s : State) (x : Issue) (h : Hdr) (uses : List (Opnd × Nat)) (preds : List PredOpt) : Prop where
  issues : issuing s = some x
  free : scoreboard x.c x.k x.e h uses preds = false
  stored : s.bad = none

/-- Ready, and neither the debugger nor a pre-emption stops the gang before a switch point (R319, R333). -/
structure ReadySwitch (s : State) (x : Issue) (h : Hdr) (uses : List (Opnd × Nat)) (preds : List PredOpt) : Prop where
  ready : Ready s x h uses preds
  runs : x.g.stopReq = false
  goes : preHalt x.c x.g = false

/-- The executing lanes of an issue (R54). -/
def Issue.execs (x : Issue) (h : Hdr) : LaneMask := execMask x.g x.e h

/-- A lane of a gang stands in a frontier entry at a PC. -/
def Gang.at (g : Gang) (l : Nat) (pc : Pc) : Prop := ∃ e ∈ g.frontier, e.mask.getLsbD l = true ∧ e.pc = pc

/-- The issuing gang as a later state has it. -/
def Issue.now (x : Issue) (t : State) : Gang := t.gang x.c.uid x.k

/-! What an instruction that is no switch point leaves (R54, R63, R86, R89). -/

/-- A register of a lane after results were written. -/
def regAfter (h : Hdr) (d : Opnd) (exec : Bool) (words : List Word) (old : Word) (r : Nat) : Word :=
  match d with
  | .v q => if exec = true ∧ h.nwb = false ∧ q.val ≤ r ∧ r < q.val + words.length then words.getD (r - q.val) 0#32 else old
  | _ => old

/-- A gang-uniform register after results were written: the lowest-numbered executing lane's. -/
def gregAfter (h : Hdr) (d : Opnd) (exec : Bool) (words : List Word) (old : Word) (r : Nat) : Word :=
  match d with
  | .g q => if exec = true ∧ h.nwb = false ∧ q.val ≤ r ∧ r < q.val + words.length then words.getD (r - q.val) 0#32 else old
  | _ => old

/-- A predicate after predicates were written: the last write of it, else what it held. -/
def predAfter (ps : List (Nat × Bool)) (old : Bool) (p : Nat) : Bool :=
  match ps with
  | [] => old
  | q :: t => predAfter t (if q.1 = p then q.2 else old) p

/-- An element of the latches after results were written: LATN takes the executing lanes' low words, and zero for the entry's other
lanes. -/
def latchAfter (h : Hdr) (b : Nat) (inEntry exec : Bool) (words : List Word) (old : Word) : Word :=
  if h.late = true ∧ b = h.latn.toNat ∧ inEntry = true then (if exec then words.headD 0#32 else 0#32) else old

/-- What an instruction that is no switch point leaves, when lane `l` computes `out l`: results in its executing lanes, the entry
at the next slot, and nothing else changed. -/
structure Computed (s t : State) (x : Issue) (h : Hdr) (d : Opnd) (out : Nat → LaneOut) : Prop where
  rest : ∃ lanes gs lats live, t =
    { s.setCrew (x.c.setGang x.k { advance x.g x.e (nextPrio s x.c x.e) (pairsNext x.g x.e) with
        lanes := lanes, g := gs, latches := lats, latchLive := live }) with draws := s.draws + 1 }
  width : (x.now t).lanes.length = x.g.lanes.length
  reg : ∀ l r, l < x.g.lanes.length →
    ((x.now t).lane l).reg r = regAfter h d ((x.execs h).getLsbD l) (out l).words ((x.g.lane l).reg r) r
  pred : ∀ l p, l < x.g.lanes.length → p < 15 →
    ((x.now t).lane l).pred p =
      if (x.execs h).getLsbD l then predAfter (out l).preds ((x.g.lane l).pred p) p else (x.g.lane l).pred p
  flags : ∀ l, l < x.g.lanes.length →
    ((x.now t).lane l).fpstat = if (x.execs h).getLsbD l then (x.g.lane l).fpstat ||| (out l).flags else (x.g.lane l).fpstat
  lane : ∀ l, ((x.now t).lane l).mode = (x.g.lane l).mode ∧ ((x.now t).lane l).frames = (x.g.lane l).frames ∧
    ((x.now t).lane l).scnt = (x.g.lane l).scnt ∧ ((x.now t).lane l).run = (x.g.lane l).run ∧
    ((x.now t).lane l).pc = (x.g.lane l).pc
  greg : ∀ r, sget 0#32 (x.now t).g r =
    gregAfter h d (x.execs h != 0#32) (out (lowest (x.execs h))).words (sget 0#32 x.g.g r) r
  latch : ∀ l b, l < 32 → b < 8 → sget 0#32 (x.now t).latches (32 * b + l) =
    latchAfter h b (x.e.mask.getLsbD l) ((x.execs h).getLsbD l) (out l).words (sget 0#32 x.g.latches (32 * b + l))
  live : (x.now t).latchLive = if h.late then x.g.latchLive ||| (1#8 <<< h.latn.toNat) else x.g.latchLive

/-- Instruction `i` completes whenever it is ready, and computes `out` in its executing lanes. -/
def Computes (i : Instr) (h : Hdr) (d : Opnd) (uses : List (Opnd × Nat)) (preds : List PredOpt)
    (out : State → Issue → LaneMask → Nat → LaneOut) : Prop :=
  ∀ s x, Ready s x h uses preds → ∃ t, exec i s = .next t ∧ Computed s t x h d (out s x (x.execs h))

/-- The same, where each lane computes from its own operands. -/
def ComputesLanes (i : Instr) (h : Hdr) (d : Opnd) (uses : List (Opnd × Nat)) (preds : List PredOpt)
    (out : Bool → Lane → Reader → LaneOut) : Prop :=
  Computes i h d uses preds fun s x _ l => out x.c.lvl (x.g.lane l) (readWide x.g s.draws l)

/-! What a switch point leaves (R64, R88 to R91). -/

/-- The state after a switch point that traps no lane: the crew is `c`, the issuing entry has split into `groups`, which have merged into
the frontier, latches are dead, and nothing else has changed. -/
def switched (s : State) (x : Issue) (c : Crew) (groups : List Entry) : State :=
  { s.setCrew (c.mapGang x.k fun g =>
      { regroup g groups with frontier := (addEntries groups g.frontier.tail).filter fun e => e.mask != 0#32 }) with
    draws := s.draws + 1 }

/-- The lanes of the issuing entry that do not execute. -/
def Issue.others (x : Issue) (h : Hdr) : LaneMask := x.e.mask &&& ~~~(x.execs h)

/-- A PC is a legal target for the executing lanes (R95). -/
def Issue.legal (x : Issue) (s : State) (h : Hdr) (pc : Pc) : Prop :=
  legalTarget s (s.launchOf x.c).vf (s.launchOf x.c).ctx (x.g.lane (lowest (x.execs h))).mode pc = true

/-- The issuing entry splits: each executing lane moves to the PC that `target` gives it, or to the next slot where it gives none, as
the other lanes do (R89). -/
def splits (s : State) (x : Issue) (h : Hdr) (target : Nat → Option Pc) : List Entry :=
  ((x.execs h).lanes.filterMap fun l => (target l).map fun pc => moveGroup s x pc (LaneMask.one l)) ++
    [nextGroup s x (x.others h ||| LaneMask.ofList ((x.execs h).lanes.filter fun l => (target l).isNone))]

/-- The state after an instruction that only moves its entry to the next slot, and is no switch point. -/
def moved (s : State) (x : Issue) : State :=
  { s.setCrew (x.c.setGang x.k (advance x.g x.e (nextPrio s x.c x.e) (pairsNext x.g x.e))) with draws := s.draws + 1 }

/-- The state after a switch point that only moves its entry to the next slot, with the crew as it then is. -/
def passed (s : State) (x : Issue) (c : Crew) : State := switched s x c [nextGroup s x x.e.mask]

/-- Instruction `i` completes at a switch point whenever it is ready and `cond` holds: it leaves `after`. -/
def SwitchesTo (i : Instr) (h : Hdr) (uses : List (Opnd × Nat)) (preds : List PredOpt) (cond : State → Issue → Prop)
    (after : State → Issue → State) : Prop :=
  ∀ s x, ReadySwitch s x h uses preds → cond s x → exec i s = .next (after s x)

/-- The operations of a counted instruction: one for each executing lane, each counted on the instruction's stream (R198). -/
def counted (s : State) (x : Issue) (h : Hdr) (cl : Clause) (scope : Nat) (kind : Nat → OpKind) : Crew :=
  x.c.addOps x.k s.draws x.e.pc cl scope ((x.execs h).lanes.map fun l => (l, kind l))

/-- A counter of an executing lane's stream is below 63 (R200). -/
def CountFree (x : Issue) (h : Hdr) (cl : Clause) : Prop := ∀ l ∈ (x.execs h).lanes, (x.g.lane l).cnt cl.stream.val < 63

/-! Traps (R96, R97, R357). -/

/-- The vector that a trap of a lane goes to (R96). -/
def handlerOf (s : State) (c : Crew) (l : Lane) (cause : Nat) : Pc :=
  vectorOf (s.ctxAt (s.launchOf c).vf (s.launchOf c).ctx) (trapMode cause l.mode)

/-- A trap of a lane enters a handler: the lane is below depth 3, and the vector is set and needs no more registers than the gang has
(R96 to R98, R357). -/
def Handled (s : State) (c : Crew) (l : Lane) (cause : Nat) : Prop :=
  l.depth < 3 ∧ handlerOf s c l cause ≠ 0#64 ∧
    ∀ b r, blockAt s (s.launchOf c).vf (s.launchOf c).ctx (handlerOf s c l cause) = some b → b.ventry = some r → r ≤ c.regs

/-- What lanes `m` of the issuing entry leave that trap, lane `l` as `trap l` says: each has pushed its frame, taken the target mode and
joined the vector's entry. Every lane otherwise is as `before` says, and each other lane stands where `rest` says or where it stood (R96). -/
structure Trapped (s t : State) (x : Issue) (m : LaneMask) (trap : Nat → Trap) (before : Nat → Lane) (rest : Nat → Pc → Prop) : Prop where
  gang : ∃ g, t = { s.setCrew (x.c.setGang x.k g) with draws := s.draws + 1 }
  lane : ∀ l, l < x.g.lanes.length → (x.now t).lane l =
    if m.getLsbD l = true then
      { before l with
        frames := { tcause := tcauseWord x.e.prio ((before l).depth + 1) (trap l).cause (before l).mode, tpc := pcFields (trap l).tpc.toNat
                    taddr := BitVec.ofNat 64 (trap l).addr, tdet0 := BitVec.ofNat 32 (trap l).det0
                    tdet1 := BitVec.ofNat 32 (trap l).det1, rewritten := (trap l).moved } :: (before l).frames
        mode := trapMode (trap l).cause (before l).mode }
    else before l
  stands : ∀ l pc, (x.now t).at l pc ↔ (m.getLsbD l = true ∧ pc = handlerOf s x.c (before l) (trap l).cause) ∨
    (m.getLsbD l = false ∧ (rest l pc ∨ ∃ e ∈ x.g.frontier.tail, e.mask.getLsbD l = true ∧ e.pc = pc))

/-- Instruction `i` traps the lanes `bad` at a switch point whenever it is ready, `cond` holds and their traps enter handlers. -/
def TrapsLanes (i : Instr) (h : Hdr) (uses : List (Opnd × Nat)) (cond : State → Issue → Prop) (bad : State → Issue → LaneMask)
    (trap : State → Issue → Nat → Trap) (before : State → Issue → Nat → Lane) (rest : State → Issue → Nat → Pc → Prop) : Prop :=
  ∀ s x, ReadySwitch s x h uses [] → cond s x → (∀ l ∈ (bad s x).lanes, Handled s x.c (before s x l) (trap s x l).cause) →
    ∃ t, exec i s = .next t ∧ Trapped s t x (bad s x) (trap s x) (before s x) (rest s x)

/-- The executing lanes of which `p` holds. -/
def Issue.which (x : Issue) (h : Hdr) (p : Nat → Bool) : LaneMask := LaneMask.ofList ((x.execs h).lanes.filter p)

/-- An event completes whenever `cond` holds: it leaves `after`. -/
def Happens (i : Instr) (cond : State → Prop) (after : State → State) : Prop :=
  ∀ s, s.bad = none → cond s → exec i s = .next (after s)

/-- Every access that led to this state found storage. -/
def Stored (s : State) : Prop := s.bad = none

/-! Memory instructions (R86, R195, R198, R209, R222). -/

/-- The kind of a lane's operation: of a `g` destination only the lowest-numbered executing lane writes it (R86), and none does
with NWB (R63). -/
def writerKind (x : Issue) (h : Hdr) (d : Opnd) (kind : Nat → OpKind) (l : Nat) : OpKind :=
  if h.nwb ∨ isG d ∧ l ≠ lowest (x.execs h) then (kind l).quiet else kind l

/-- The operations of a memory instruction, counted, with the `MOD` field that a host notice repeats (R386). -/
def issued (s : State) (x : Issue) (h : Hdr) (m : MemArg) (d : Opnd) (mod : Nat) (kind : Nat → OpKind) : Crew :=
  let c := counted s x h m.clause (scopeCode m.scope) (writerKind x h d kind)
  { c with ops := c.ops.map fun (o : Op) => if o.id < x.c.nextOp then o else { o with mod := mod, route := o.kind.routeNow s } }

/-- Each executing lane's `.g` access resolves to an address, one after another; `t` is the state after the last. -/
def Resolves (x : Issue) (shd : Bool) (acc n : Nat) (who : State → Nat → Who) (va : Nat → Nat) (addr : Nat → Addr) : State → List Nat → State → Prop
  | s, [], t => t = s
  | s, l :: ls, t => ∃ u, globResolve s x.c (who s l) (.lane x.c.uid x.k l) shd acc (va l) n = (u, .addr (addr l)) ∧
      Resolves x shd acc n who va addr u ls t

/-- One stored byte, as it stands. -/
def State.raw (s : State) : Loc → Byte
  | .scratch uid off => match s.crew? uid with
    | some c => peek c.scratch off
    | none => 0#8
  | .vault launch camp off => match s.vault? launch camp with
    | some v => peek v.bytes off
    | none => 0#8
  | .phys pa _ _ => peek s.hbm pa
  | .host a => peek s.host a
  | .konst _ _ | .nowhere => 0#8

/-- Something holds the byte of a place. -/
def State.holds (s : State) : Loc → Prop
  | .scratch uid _ => (s.crew? uid).isSome = true
  | .vault launch camp _ => (s.vault? launch camp).isSome = true
  | .phys pa _ _ => hbmHas pa = true
  | .host _ => True
  | .konst _ _ | .nowhere => False

/-- No seal stands between a writer and a place (R388). -/
def State.unsealed (s : State) (world : Option (Nat × Nat)) : Loc → Prop
  | .phys pa prot _ => sealedFor s ((if prot then world else none).map (·.2)) pa = none
  | _ => True

/-- Two places lie in one line of HBM. -/
def Loc.inLine : Loc → Loc → Bool
  | .phys a _ _, .phys b _ _ => a / 128 == b / 128
  | _, _ => false

/-- A place is reached through a page with PROT = 1. -/
def Loc.protected : Loc → Bool
  | .phys _ prot _ => prot
  | _ => false

/-- A pending operation of a resident crew that is not ending, and may perform. -/
structure Performs (s : State) (uid op : Nat) (c : Crew) (o : Op) (a : Addr) (n : Nat) : Prop where
  crew : s.crew? uid = some c
  runs : c.isResident = true ∧ c.terminating = false
  op : c.op? op = some o
  addr : o.kind.addr? = some (a, n)
  here : o.remote s = false ∧ o.kind.fab? = none ∧ owing s uid 3 o.id = false
  ready : opReady s c o = true

/-- What performing an operation leaves of the machine but for the bytes it stores: its lane takes the results, the operation is complete,
and no other register, predicate or lane changes. -/
structure Performed (s t : State) (uid : Nat) (c : Crew) (o : Op) (words : List Word) (preds : List (Nat × Bool)) : Prop where
  crew : ∃ c', t.crew? uid = some c' ∧ (∀ p ∈ c'.ops, p.id ≠ o.id) ∧
    let takes := fun k l => k = o.gang ∧ l = lowest o.lanes ∧ o.dropped = false ∧ ((c.gang k).lane l).run ≠ .exited
    (∀ k l r, l < (c.gang k).lanes.length → (((c'.gang k).lane l).reg r = ((c.gang k).lane l).reg r ∨ takes k l) ∧
      (takes k l → ((c'.gang k).lane l).reg r = regAfter Hdr.plain o.kind.dst.1 true words (((c.gang k).lane l).reg r) r)) ∧
    (∀ k l p, l < (c.gang k).lanes.length → p < 15 → (((c'.gang k).lane l).pred p = ((c.gang k).lane l).pred p ∨ takes k l) ∧
      (takes k l → ((c'.gang k).lane l).pred p = predAfter preds (((c.gang k).lane l).pred p) p)) ∧
    (∀ k q, sget 0#32 (c'.gang k).g q = if takes k (lowest o.lanes) then
      gregAfter Hdr.plain o.kind.dst.1 true words (sget 0#32 (c.gang k).g q) q else sget 0#32 (c.gang k).g q) ∧
    ∀ k l, l < (c.gang k).lanes.length → ((c'.gang k).lane l).mode = ((c.gang k).lane l).mode ∧
      ((c'.gang k).lane l).frames = ((c.gang k).lane l).frames ∧ ((c'.gang k).lane l).fpstat = ((c.gang k).lane l).fpstat ∧
      ((c'.gang k).lane l).run = ((c.gang k).lane l).run ∧ (c'.gang k).frontier = (c.gang k).frontier
  launches : t.launches = s.launches
  ctxs : t.ctxs = s.ctxs
  agenda : t.agenda = s.agenda

/-! Instructions that read something into their destination at a switch point. -/

/-- Instruction `i` completes whenever it is ready: its executing lanes take the words that `value` gives, the entry moves on, and nothing
else changes. -/
def ReadsInto (i : Instr) (h : Hdr) (d : Opnd) (uses : List (Opnd × Nat)) (value : State → Issue → Nat → List Word) : Prop :=
  ∀ s x, ReadySwitch s x h uses [] →
    ∃ lanes gs, exec i s = .next (passed s x (x.c.setGang x.k { x.g with lanes := lanes, g := gs })) ∧
      lanes.length = x.g.lanes.length ∧
      (∀ l q, l < x.g.lanes.length → (lanes.getD l Lane.blank).reg q =
        regAfter h d ((x.execs h).getLsbD l) (value s x l) ((x.g.lane l).reg q) q) ∧
      (∀ l, l < x.g.lanes.length → { lanes.getD l Lane.blank with regs := (x.g.lane l).regs } = x.g.lane l) ∧
      ∀ q, sget 0#32 gs q = gregAfter h d (x.execs h != 0#32) (value s x (lowest (x.execs h))) (sget 0#32 x.g.g q) q

/-! Engines (R229, R263, R287). -/

/-- The next `n` bytes of a `stage` move, one after another; `t` is the state after the last. -/
def Stages (uid e : Nat) : Nat → State → State → Prop
  | 0, s, t => t = s
  | n + 1, s, t => ∃ c s1 b, s.crew? uid = some c ∧ engineHeld s c 1 e = false ∧ (c.task e).moved < stageTotal (c.task e).record ∧
      stageMove s c e (c.task e).moved = .ok s1 b ∧ Stages uid e n s1 t

/-- The last `n` bytes of a scratchpad working set are delivered, one after another. -/
def Delivers (uid e w : Nat) : Nat → State → State → Prop
  | 0, s, t => t = s
  | n + 1, s, t => ∃ c d s1 b, s.crew? uid = some c ∧
      let x := recWset (c.task e).record w
      let j := x.len - (n + 1)
      crewOn s c.launch c.camp x.core = some d ∧ 64 * x.soff + j < d.ssize ∧ stagingByte s c e w x j = .ok s1 b ∧
        Delivers uid e w n (writeLoc s1 none (.scratch d.uid (64 * x.soff + j)) b) t

/-- The byte that a list of writes leaves at an offset: the last one written there, else what stood there. -/
def lastWrite (bs : List (Nat × Byte)) (o : Nat) (old : Byte) : Byte := ((bs.reverse.find? fun x => x.1 == o).map (·.2)).getD old

/-! Rounded values (R28, R32 to R34, R38, R145). An exact real is given by `cmp`: how it compares with each multiple of half a unit. -/

/-- The magnitude of a finite code in units of the least subnormal, for `m` mantissa bits; it goes on as the exponent field does (R28). -/
def magUnits (m c : Nat) : Nat := if c / 2 ^ m = 0 then c else (2 ^ m + c % 2 ^ m) * 2 ^ (c / 2 ^ m - 1)

/-- The exponent of half the least subnormal of a format (R28). -/
def halfExp (F : Fmt) : Int := -F.bias - F.mBits

/-- The comparison of a/b · 2^e with h halves. -/
def ratCmp (a b : Nat) (e : Int) (h : Nat) : Ordering := compare (a * 2 ^ e.toNat) (h * b * 2 ^ (-e).toNat)

/-- The comparison of the square root of a/b · 2^e with h halves. -/
def rootCmp (a b : Nat) (e : Int) (h : Nat) : Ordering := compare (a * 2 ^ e.toNat) (h * h * b * 2 ^ (-e).toNat)

/-- Among the magnitudes `g 0 < g 1 < …` the rounding mode takes number `c` for an exact one of a sign, which it differs from where
`inexact` (R32). -/
def Rounded (r : Rnd) (neg : Bool) (g : Nat → Nat) (cmp : Nat → Ordering) (c : Nat) (inexact : Bool) : Prop :=
  ∃ n, cmp (2 * g n) ≠ .lt ∧ cmp (2 * g (n + 1)) = .lt ∧ (inexact = true ↔ cmp (2 * g n) = .gt) ∧
    c = if inexact = false then n else match r with
      | .rn => match cmp (g n + g (n + 1)) with
        | .lt => n
        | .gt => n + 1
        | .eq => n + n % 2
      | .rz => n
      | .rp => if neg then n else n + 1
      | .rm => if neg then n + 1 else n
      | .ra => if cmp (g n + g (n + 1)) = .lt then n else n + 1

/-- RoundFmt of a non-zero exact value (R33): the code and the flags. -/
def RoundsTo (F : Fmt) (r : Rnd) (neg : Bool) (cmp : Nat → Ordering) (y : Nat × FlagSet) : Prop :=
  ∃ c inexact, Rounded r neg (magUnits F.mBits) cmp c inexact ∧
    let sign := if neg then 2 ^ (F.eBits + F.mBits) else 0
    y = if F.maxCode < c then
        (sign + (if F.saturating = true ∨ r = .rz ∨ (r = .rp ∧ neg = true) ∨ (r = .rm ∧ neg = false) then F.maxCode else F.maxCode + 1), 5#6)
      else (sign + c, if inexact then (if c < 2 ^ F.mBits then 3#6 else 1#6) else 0#6)

/-- A finite term, in multiples of 2^e0. -/
def termAt (e0 : Int) (t : Bool × Nat × Int) : Int := (if t.1 then -1 else 1) * (t.2.1 * 2 ^ (t.2.2 - e0).toNat : Nat)

/-- The exact sum of finite terms, rounded once; `zeroNeg` is the sign of a zero sum (R33, R34). -/
def SumsTo (F : Fmt) (r : Rnd) (ts : List (Bool × Nat × Int)) (zeroNeg : Bool) (y : Nat × FlagSet) : Prop :=
  ∀ e0 : Int, (∀ t ∈ ts, e0 ≤ t.2.2) →
    let sum := (ts.map (termAt e0)).sum
    (sum = 0 → y = ((if zeroNeg then 2 ^ (F.eBits + F.mBits) else 0), 0#6)) ∧
    (sum ≠ 0 → RoundsTo F r (decide (sum < 0)) (ratCmp sum.natAbs 1 (e0 - halfExp F)) y)

/-- The results that are not rounded (R38, R145): the generated NaN of an invalid operation; the first NaN made quiet, at level 1 the
generated one; and an infinity. -/
def Specials (F : Fmt) (lvl1 : Bool) (xs : List Fp) (invalid : Prop) (infinite : Bool → Prop) (y : Nat × FlagSet) : Prop :=
  (invalid → y = (F.infCode + 2 ^ (F.mBits - 1), 16#6)) ∧
  (¬ invalid → ∀ before neg m after, xs = before ++ .nan neg m :: after → (∀ v ∈ before, v.isNan = false) →
    y.1 = (if lvl1 then F.infCode + 2 ^ (F.mBits - 1) else
      (if neg then 2 ^ (F.eBits + F.mBits) else 0) + F.infCode + (m ||| 2 ^ (F.mBits - 1))) ∧
    (y.2 = 16#6 ∨ y.2 = 0#6) ∧ (y.2 = 16#6 ↔ ∃ n p, Fp.nan n p ∈ xs ∧ p.testBit (F.mBits - 1) = false)) ∧
  (¬ invalid → (∀ v ∈ xs, v.isNan = false) → ∀ neg, infinite neg →
    y = ((if neg then 2 ^ (F.eBits + F.mBits) else 0) + F.infCode, 0#6))

/-! System instructions (R314). -/

/-- The lanes of a system instruction act one after another, each as `act` says: lane `l` writes status `st l` and waits for `wt l`; `t` is
the state after the last. -/
def Acts (act : State → Nat → SysOut → Prop) (st : Nat → Option Nat) (wt : Nat → SysKind) : State → List Nat → State → Prop
  | s, [], t => t = s
  | s, l :: ls, t => ∃ u, act s l { state := u, status := st l, wait := wt l } ∧ Acts act st wt u ls t

/-- A system instruction issues: its executing lanes act and write their status, and its entry stays until each lane's part has completed;
with no executing lane it moves on. A crew that it terminates goes no further. -/
def SysIssues (i : Instr) (h : Hdr) (d : Opnd) (uses : List (Opnd × Nat)) (act : State → Issue → State → Nat → SysOut → Prop) : Prop :=
  ∀ s x t st wt, ReadySwitch s x h ((d, 1) :: uses) [] → Acts (act s x) st wt s (x.execs h).lanes t → t.bad = none →
    (∀ c, t.crew? x.c.uid = some c → c.terminating = false →
      ∃ lanes gs, exec i s = .next (switched t x (c.setGang x.k { c.gang x.k with
            lanes := lanes, g := gs, sys := (c.gang x.k).sys ++ (x.execs h).lanes.map fun l => { lane := l, kind := wt l } })
          [if x.execs h = 0#32 then nextGroup s x x.e.mask else stayGroup x x.e.mask]) ∧
        lanes.length = (c.gang x.k).lanes.length ∧
        (∀ l q, l < (c.gang x.k).lanes.length → (lanes.getD l Lane.blank).reg q =
          regAfter h d ((x.execs h).getLsbD l) ((st l).toList.map word32) (((c.gang x.k).lane l).reg q) q) ∧
        (∀ l, l < (c.gang x.k).lanes.length → { lanes.getD l Lane.blank with regs := ((c.gang x.k).lane l).regs } = (c.gang x.k).lane l) ∧
        ∀ q, sget 0#32 gs q =
          gregAfter h d (x.execs h != 0#32) ((st (lowest (x.execs h))).toList.map word32) (sget 0#32 (c.gang x.k).g q) q) ∧
    ((∀ c, t.crew? x.c.uid = some c → c.terminating = true) → exec i s = .next { t with draws := t.draws + 1 })

end Sys2Proof.Machine
end

