-- ==== Sys2Proof/Certificates/Slice0/Obligations.lean ====
section
/-!
DEFINITION. The statements for the provers, from the numbered rules of spec/: what the machine decodes, what each instruction and event
does when its conditions hold, what it leaves alone, and what every step keeps.
-/

open Sys2Proof Sys2Proof.Machine

/-! Lane instructions that are no switch point (R54, R63, R64, R86, R109 to R154, R168 to R173). -/

/-- R109 to R116, R126: integer arithmetic completes when it is ready, and every executing lane takes the result of its own operands.
What `intEw` and its companions give is the subject of `ElementValues`. -/
def Obligations.IntegerArithmeticComputes : Prop :=
  ∀ (h : Hdr) (t : ElTy) (d a e c : Opnd) (b : SrcB) (cin cout : PredOpt) (natural xs : Bool) (scale : Fin 5) (cc : CmpCC)
    (op : Comb) (pd : PredOpt),
    let n := ElTy.words t
    let one := [(d, n), (a, n)]
    let two := [(d, n), (a, n)] ++ useB n b
    let three := [(d, n), (a, n), (e, n), (c, n)]
    let carry := fun (f : ElTy → Nat → Nat → Bool → Nat × Bool) (x : Lane) (rd : Reader) =>
      f t (rd a n) (srcB rd t n b) (match cin with
        | some p => x.pred p.val
        | none => false)
    ComputesLanes (.add h t d a b) h d two [] (fun _ _ rd => LaneOut.val n (intEw t (· + ·) (rd a n) (srcB rd t n b)) 0#6) ∧
    ComputesLanes (.sub h t d a b) h d two [] (fun _ _ rd => LaneOut.val n (intEw t (· - ·) (rd a n) (srcB rd t n b)) 0#6) ∧
    ComputesLanes (.min h t d a b) h d two []
      (fun _ _ rd => LaneOut.val n (intEw t (fun x y => if x ≤ y then x else y) (rd a n) (srcB rd t n b)) 0#6) ∧
    ComputesLanes (.max h t d a b) h d two []
      (fun _ _ rd => LaneOut.val n (intEw t (fun x y => if x ≥ y then x else y) (rd a n) (srcB rd t n b)) 0#6) ∧
    ComputesLanes (.abs h t d a) h d one [] (fun _ _ rd => LaneOut.val n (mapEls t fun i => ((el t (rd a n) i).natAbs : Int)) 0#6) ∧
    ComputesLanes (.neg h t d a) h d one [] (fun _ _ rd => LaneOut.val n (mapEls t fun i => -(el t (rd a n) i)) 0#6) ∧
    ComputesLanes (.adds h t d a b) h d two []
      (fun _ _ rd => let r := intSat t (· + ·) (rd a n) (srcB rd t n b); LaneOut.val n r.1 r.2) ∧
    ComputesLanes (.subs h t d a b) h d two []
      (fun _ _ rd => let r := intSat t (· - ·) (rd a n) (srcB rd t n b); LaneOut.val n r.1 r.2) ∧
    ComputesLanes (.addc h t d a b cin cout) h d two [cin, cout]
      (fun _ x rd => let r := carry intAddc x rd; { words := wordsOf n r.1, preds := predOut cout r.2, flags := 0#6 }) ∧
    ComputesLanes (.subb h t d a b cin cout) h d two [cin, cout]
      (fun _ x rd => let r := carry intSubb x rd; { words := wordsOf n r.1, preds := predOut cout r.2, flags := 0#6 }) ∧
    ComputesLanes (.mul h t d a b) h d two [] (fun _ _ rd => LaneOut.val n (intMul t (rd a n) (srcB rd t n b)) 0#6) ∧
    ComputesLanes (.mulh h t d a b) h d two [] (fun _ _ rd => LaneOut.val n (intMulh t (rd a n) (srcB rd t n b)) 0#6) ∧
    ComputesLanes (.mad h t d a e c) h d three [] (fun _ _ rd => LaneOut.val n (intMad t (rd a n) (rd e n) (rd c n)) 0#6) ∧
    ComputesLanes (.madh h t d a e c) h d three [] (fun _ _ rd => LaneOut.val n (intMadh t (rd a n) (rd e n) (rd c n)) 0#6) ∧
    ComputesLanes (.sad h t d a e c) h d [(d, 1), (a, 1), (e, 1), (c, 1)] []
      (fun _ _ rd => LaneOut.val 1 (intSad t (rd a 1) (rd e 1) (rd c 1)) 0#6) ∧
    ComputesLanes (.dp4 h t d a e c xs) h d [(d, 1), (a, 1), (e, 1), (c, 1)] []
      (fun _ _ rd => LaneOut.val 1 (intDp4 t xs (rd a 1) (rd e 1) (rd c 1)) 0#6) ∧
    ComputesLanes (.cmp h t d a b cc op pd) h d two [pd, combPred op]
      (fun _ x rd => let r := intCmp t cc (rd a n) (srcB rd t n b)
        { words := wordsOf n r.1, preds := predOut pd (combine x op r.2), flags := 0#6 }) ∧
    ComputesLanes (.lea h t d a b natural scale) h d ([(d, n), (a, n)] ++ useB 1 b) []
      (fun _ _ rd => LaneOut.val n (intLea t (rd a n) (srcB32 rd b) natural scale.val) 0#6)

/-- R118, R121 to R125: logic, bit fields, counts and moves complete when they are ready, and every executing lane takes the result of its
own operands. -/
def Obligations.LogicAndMovesCompute : Prop :=
  ∀ (h : Hdr) (t : ElTy) (d a e c : Opnd) (b : SrcB) (imm : BitVec 32),
    let n := ElTy.words t
    let one := [(d, n), (a, n)]
    let two := [(d, n), (a, n)] ++ useB n b
    let three := [(d, n), (a, n), (e, n), (c, n)]
    let count := [(d, n), (a, n)] ++ useB 1 b
    ComputesLanes (.and h t d a b) h d two [] (fun _ _ rd => LaneOut.val n (intAnd t (rd a n) (srcB rd t n b)) 0#6) ∧
    ComputesLanes (.or h t d a b) h d two [] (fun _ _ rd => LaneOut.val n (intOr t (rd a n) (srcB rd t n b)) 0#6) ∧
    ComputesLanes (.xor h t d a b) h d two [] (fun _ _ rd => LaneOut.val n (intXor t (rd a n) (srcB rd t n b)) 0#6) ∧
    ComputesLanes (.andn h t d a b) h d two [] (fun _ _ rd => LaneOut.val n (intAndn t (rd a n) (srcB rd t n b)) 0#6) ∧
    ComputesLanes (.not h t d a) h d one [] (fun _ _ rd => LaneOut.val n (intNot t (rd a n)) 0#6) ∧
    ComputesLanes (.bfx h t d a b) h d count [] (fun _ _ rd => LaneOut.val n (intBfx t (rd a n) (srcB32 rd b)) 0#6) ∧
    ComputesLanes (.bfi h t d a e c) h d [(d, n), (a, n), (e, 1), (c, n)] []
      (fun _ _ rd => LaneOut.val n (intBfi t (rd a n) (rd e 1) (rd c n)) 0#6) ∧
    ComputesLanes (.popc h t d a) h d [(d, 1), (a, n)] [] (fun _ _ rd => LaneOut.val 1 (intPopc t (rd a n)) 0#6) ∧
    ComputesLanes (.clz h t d a) h d [(d, 1), (a, n)] [] (fun _ _ rd => LaneOut.val 1 (intClz t (rd a n)) 0#6) ∧
    ComputesLanes (.ctz h t d a) h d [(d, 1), (a, n)] [] (fun _ _ rd => LaneOut.val 1 (intCtz t (rd a n)) 0#6) ∧
    ComputesLanes (.brev h t d a) h d one [] (fun _ _ rd => LaneOut.val n (intBrev t (rd a n)) 0#6) ∧
    ComputesLanes (.sel h t d a e c) h d three [] (fun _ _ rd => LaneOut.val n (intSel t (rd a n) (rd e n) (rd c n)) 0#6) ∧
    ComputesLanes (.mov h t d a) h d one [] (fun _ _ rd => LaneOut.val n (rd a n) 0#6) ∧
    ComputesLanes (.movi h t d imm) h d [(d, n)] [] (fun _ _ _ => LaneOut.val n (immValue t imm) 0#6)

/-- R140 to R153: floating-point instructions complete when they are ready; every executing lane takes the result of its own operands and
the flags that it raises. -/
def Obligations.FloatingPointComputes : Prop :=
  ∀ (h : Hdr) (t : FlTy) (r : Rnd) (d a e c : Opnd) (b : SrcB) (m : Mods) (nanp exact fa fb : Bool) (cc : FcmpCC) (op : Comb)
    (pd : PredOpt) (mask : BitVec 10),
    let two := [(d, 1), (a, 1)] ++ useB 1 b
    let three := [(d, 1), (a, 1), (e, 1), (c, 1)]
    let f1 := fun (t : FlTy) (f : Bool → Fp → Nat → Nat × Flags6) (l : Bool) (_ : Lane) (rd : Reader) =>
      flPack t fun i => f l (srcA t l Mods.none (rd a 1) i) (flElem t (rd a 1) i)
    let f2 := fun (t : FlTy) (f : Bool → Fp → Fp → Nat × Flags6) (l : Bool) (_ : Lane) (rd : Reader) =>
      flPack t fun i => f l (srcA t l m (rd a 1) i) (srcBf t l m (srcB32 rd b) i)
    let f3 := fun (t : FlTy) (f : Bool → Fp → Fp → Fp → Nat × Flags6) (l : Bool) (_ : Lane) (rd : Reader) =>
      flPack t fun i => f l (srcA t l m (rd a 1) i) (srcBf t l m (rd e 1) i) (srcC t l m (rd c 1) i)
    let dot := fun (x y : Fmt) (n w : Nat) (l : Bool) (_ : Lane) (rd : Reader) =>
      let xs := (List.range n).map fun i => srcFp x l m.aa m.na (rd a 1 / 2 ^ (w * i) % 2 ^ w)
      let ys := (List.range n).map fun i => srcFp y l m.ab m.nb (rd e 1 / 2 ^ (w * i) % 2 ^ w)
      let z := fpDot x y l r xs ys (srcC .f32 l m (rd c 1) 0)
      LaneOut.val 1 z.1 z.2
    ComputesLanes (.fadd h r d a b m) h d two [] (f2 .f32 fun l x y => fpAdd .f32 l r x y) ∧
    ComputesLanes (.fsub h r d a b m) h d two [] (f2 .f32 fun l x y => fpSub .f32 l r x y) ∧
    ComputesLanes (.fmul h r d a b m) h d two [] (f2 .f32 fun l x y => fpMul .f32 l r x y) ∧
    ComputesLanes (.fma h r d a e c m) h d three [] (f3 .f32 fun l x y z => fpFma .f32 l r x y z) ∧
    ComputesLanes (.fmin h d a b m nanp) h d two [] (f2 .f32 fun l x y => fpMinMax .f32 l false nanp x y) ∧
    ComputesLanes (.fmax h d a b m nanp) h d two [] (f2 .f32 fun l x y => fpMinMax .f32 l true nanp x y) ∧
    ComputesLanes (.fcmp h t d a b cc op pd) h d two [pd, combPred op] (fun l x rd =>
      let rs := (List.range (FlTy.k t)).map fun i =>
        fpCond (FlTy.fmt t) cc (srcA t l Mods.none (rd a 1) i) (srcBf t l Mods.none (srcB32 rd b) i)
      let v := cmpResult (Fmt.width (FlTy.fmt t)) (FlTy.k t) (rs.map Prod.fst)
      { words := wordsOf 1 v.1, preds := predOut pd (combine x op v.2), flags := (rs.map Prod.snd).foldl (· ||| ·) 0#6 }) ∧
    ComputesLanes (.frnd h t r d a exact) h d [(d, 1), (a, 1)] [] (f1 t fun l x _ => fpRound (FlTy.fmt t) l r exact x) ∧
    ComputesLanes (.fclass h t d a mask pd) h d [(d, 1), (a, 1)] [pd] (fun l _ rd =>
      let cs := (List.range (FlTy.k t)).map fun i => fpClass (FlTy.fmt t) (srcA t l Mods.none (rd a 1) i)
      { words := wordsOf 1 (packEls 16 (cs.map fun c : Nat => (c : Int)))
        preds := predOut pd (cs.any fun c => c &&& mask.toNat != 0), flags := 0#6 }) ∧
    ComputesLanes (.rcp h r d a) h d [(d, 1), (a, 1)] [] (f1 .f32 fun l x _ => fnRcp l r x) ∧
    ComputesLanes (.rsqrt h r d a) h d [(d, 1), (a, 1)] [] (f1 .f32 fun l x _ => fnRsqrt l r x) ∧
    ComputesLanes (.sqrt h r d a) h d [(d, 1), (a, 1)] [] (f1 .f32 fun l x _ => fnSqrt l r x) ∧
    ComputesLanes (.exp2 h r d a) h d [(d, 1), (a, 1)] [] (f1 .f32 fun l x raw => fnExp2 l r x raw) ∧
    ComputesLanes (.log2 h r d a) h d [(d, 1), (a, 1)] [] (f1 .f32 fun l x raw => fnLog2 l r x raw) ∧
    ComputesLanes (.sinpi h r d a) h d [(d, 1), (a, 1)] [] (f1 .f32 fun l x raw => fnSinpi l r x raw) ∧
    ComputesLanes (.cospi h r d a) h d [(d, 1), (a, 1)] [] (f1 .f32 fun l x raw => fnCospi l r x raw) ∧
    ComputesLanes (.fscale h r d a b) h d two [] (fun l _ rd =>
      let x := fpScale l r (srcA .f32 l Mods.none (rd a 1) 0) (signExt (srcB32 rd b) 32)
      LaneOut.val 1 x.1 x.2) ∧
    ComputesLanes (.fexp h d a) h d [(d, 1), (a, 1)] [] (f1 .f32 fun _ x _ => fpExp x) ∧
    ComputesLanes (.hadd2 h t r d a b m) h d two [] (f2 t fun l x y => fpAdd (FlTy.fmt t) l r x y) ∧
    ComputesLanes (.hmul2 h t r d a b m) h d two [] (f2 t fun l x y => fpMul (FlTy.fmt t) l r x y) ∧
    ComputesLanes (.hfma2 h t r d a e c m) h d three [] (f3 t fun l x y z => fpFma (FlTy.fmt t) l r x y z) ∧
    ComputesLanes (.hmin2 h t d a b m nanp) h d two [] (f2 t fun l x y => fpMinMax (FlTy.fmt t) l false nanp x y) ∧
    ComputesLanes (.hmax2 h t d a b m nanp) h d two [] (f2 t fun l x y => fpMinMax (FlTy.fmt t) l true nanp x y) ∧
    ComputesLanes (.fdot2 h t r d a e c m) h d three [] (dot (FlTy.fmt t) (FlTy.fmt t) 2 16) ∧
    ComputesLanes (.fdot4 h r d a e c m fa fb) h d three [] (dot (if fa then .f8e5 else .f8e4) (if fb then .f8e5 else .f8e4) 4 8)

/-- R128 to R139: conversions, packing, bit planes and byte permutation complete when they are ready, and every executing lane takes the
result of its own operands. -/
def Obligations.ConversionComputes : Prop :=
  ∀ (h : Hdr) (dst src : CvtTy) (elem n p k : Fin 8) (part e4 : Fin 4) (sat dflt nat : Bool) (r : Rnd) (t : PackTy) (d a b c : Opnd)
    (ctl : PrmtCtl),
    let nd := if CvtTy.wide dst then 2 else 1
    let ns := if CvtTy.wide src then 2 else 1
    let ctlUse := match ctl with
      | .reg o => [(o, 1)]
      | .const _ => []
    ComputesLanes (.cvt h dst src elem sat dflt r d a) h d [(d, nd), (a, ns)] [] (fun l _ rd =>
      let v := cvtValue dst src elem.val sat dflt l r (rd a ns)
      LaneOut.val nd v.1 v.2) ∧
    ComputesLanes (.pack h t r d a b) h d [(d, 1), (a, 1), (b, 1)] [] (fun l _ rd => outVal (packValue t l r (rd a 1) (rd b 1))) ∧
    ComputesLanes (.unpack h t part d a) h d [(d, 1), (a, 1)] [] (fun l _ rd => outVal (unpackValue t l part.val (rd a 1))) ∧
    ComputesLanes (.plsplit h n p d a) h d [(d, 1), (a, 8)] [] (fun _ _ rd =>
      outVal (plsplitValue (n.val + 1) p.val ((List.range 8).map fun i => rd (Opnd.plus a i) 1))) ∧
    ComputesLanes (.plmerge h n k d a) h d [(d, 8), (a, k.val + 1)] [] (fun _ _ rd =>
      { words := (plmergeValue (n.val + 1) (k.val + 1) ((List.range (k.val + 1)).map fun i => rd (Opnd.plus a i) 1)).map (BitVec.ofNat 32)
        preds := [], flags := 0#6 }) ∧
    ComputesLanes (.quant h nat r n e4 d a b c) h d [(d, 1), (a, 1), (b, 1), (c, 1)] [] (fun _ _ rd =>
      outVal (quantValue nat r (n.val + 1) e4.val (rd a 1) (rd b 1) (rd c 1))) ∧
    ComputesLanes (.dequant h nat r e4 d a b) h d [(d, 1), (a, 1), (b, 1)] [] (fun l _ rd =>
      outVal (dequantValue nat l r e4.val (rd a 1) (rd b 1))) ∧
    ComputesLanes (.prmt h d a b ctl) h d ([(d, 1), (a, 1), (b, 1)] ++ ctlUse) [] (fun _ _ rd =>
      outVal (prmtValue (rd a 1) (rd b 1) (match ctl with
        | .reg o => rd o 1
        | .const k => k.toNat), 0#6))

/-- R168 to R173: the gang operations complete when they are ready; every executing lane takes its result over the executing lanes. -/
def Obligations.GangOperationsCompute : Prop :=
  ∀ (h : Hdr) (m : ShflMode) (v : VoteMode) (op : RedOp) (d a : Opnd) (k : ShflK) (grp : Fin 6) (ps pd : PredOpt) (psn excl wide : Bool),
    let kUse := match k with
      | .reg o => [(o, 1)]
      | .const _ => []
    let n := if wide then 2 else 1
    Computes (.shfl h m d a k grp pd) h d ([(d, 1), (a, 1)] ++ kUse) [pd] (fun s x ex l =>
      let rd := readWide x.g s.draws
      let j := shflSource m (2 ^ grp.val) l (match k with
        | .reg o => signExt (rd l o 1) 32
        | .const c => c.toInt)
      let ok := j.2 && ex.lanes.contains j.1
      { words := if ok then wordsOf 1 (rd j.1 a 1) else wordsOf 1 (rd l d 1), preds := predOut pd ok, flags := 0#6 }) ∧
    Computes (.vote h v d ps psn pd) h d [(d, 1)] [ps, pd] (fun _ x ex _ =>
      let val := fun l => (match ps with
        | some p => (x.g.lane l).pred p.val
        | none => true) != psn
      { words := [LaneMask.ofList (ex.lanes.filter val)], preds := predOut pd (voteResult v (ex.lanes.map val)), flags := 0#6 }) ∧
    Computes (.redux h op d a) h d [(d, 1), (a, 1)] [] (fun s x ex _ =>
      outVal (combineAll op x.c.lvl (ex.lanes.map fun j => readWide x.g s.draws j a 1))) ∧
    Computes (.scan h op excl d a) h d [(d, 1), (a, 1)] [] (fun s x ex l =>
      let val := fun j => readWide x.g s.draws j a 1
      let upTo := ex.lanes.filter fun j => if excl then decide (j < l) else decide (j ≤ l)
      LaneOut.val 1 (combineAll op x.c.lvl (upTo.map val)).1 (combineAll op x.c.lvl (ex.lanes.map val)).2) ∧
    Computes (.matchq h wide d a pd) h d [(d, 1), (a, n)] [pd] (fun s x ex l =>
      let val := fun j => readWide x.g s.draws j a n
      { words := [LaneMask.ofList (ex.lanes.filter fun j => val j == val l)]
        preds := predOut pd (ex.lanes.all fun j => val j == val l), flags := 0#6 })

/-! Control flow (R89, R90, R95, R157 to R166). -/

/-- R89, R157 to R159: `bra`, `brx`, `call` and `ret` complete where the targets of their executing lanes are legal: the entry splits,
and a `call` links. A `bra` or `brx` that no lane takes moves on. R69: `nop` only moves its entry to the next slot. -/
def Obligations.TransfersComplete : Prop :=
  ∀ (h : Hdr) (t : Target) (d a : Opnd) (table : BitVec 16) (count : BitVec 8),
    let dest := fun (x : Issue) (_ : Nat) => some (pcTarget x.e.pc t)
    let link := fun (s : State) (x : Issue) (l : Nat) => some (BitVec.ofNat 64 (readWide x.g s.draws l a 2))
    let legal := fun (s : State) (x : Issue) (target : Nat → Option Pc) =>
      ∀ l ∈ (x.execs h).lanes, ∀ pc, target l = some pc → x.legal s h pc
    (∀ (pred : BitVec 4) (pneg : Bool) (s : State) (x : Issue),
      Ready s x { Hdr.plain with pred := pred, pneg := pneg } [] [] → exec (.nop pred pneg) s = .next (moved s x)) ∧
    SwitchesTo (.bra h t) h [] [] (fun _ x => x.execs h = 0#32) moved ∧
    SwitchesTo (.bra h t) h [] [] (fun s x => x.execs h ≠ 0#32 ∧ legal s x (dest x))
      (fun s x => switched s x x.c (splits s x h (dest x))) ∧
    SwitchesTo (.brx h a table count) h [(a, 1)] []
      (fun s x => ∀ l ∈ (x.execs h).lanes, brxTarget s x a table count l = none) moved ∧
    SwitchesTo (.brx h a table count) h [(a, 1)] []
      (fun s x => (∃ l ∈ (x.execs h).lanes, brxTarget s x a table count l ≠ none) ∧ legal s x (brxTarget s x a table count))
      (fun s x => switched s x x.c (splits s x h (brxTarget s x a table count))) ∧
    SwitchesTo (.call h d t) h [(d, 2)] [] (fun s x => legal s x (dest x))
      (fun s x => switched s x (x.c.setGang x.k (if h.nwb then x.g else writeLink x.g (x.execs h) d x.e.pc)) (splits s x h (dest x))) ∧
    SwitchesTo (.ret h a) h [(a, 2)] [] (fun s x => legal s x (link s x)) (fun s x => switched s x x.c (splits s x h (link s x)))

/-- R89, R90: where a `bra` is taken, its executing lanes stand together in one entry at the target, the entry's other lanes at the next
slot, and every lane of another entry where it stood. Nothing else of the machine changes but the latches, which are dead. R157: a `call` writes the PC of the next slot
in sequence to the link pair of each executing lane, and nothing to any other register. -/
def Obligations.BranchesSplitAndCallsLink : Prop :=
  (∀ (h : Hdr) (t : Target) (s : State) (x : Issue), ReadySwitch s x h [] [] → x.execs h ≠ 0#32 →
    x.legal s h (pcTarget x.e.pc t) →
    ∃ u g, exec (.bra h t) s = .next u ∧ u = { s.setCrew (x.c.setGang x.k g) with draws := s.draws + 1 } ∧
      (∃ e ∈ g.frontier, e.pc = pcTarget x.e.pc t ∧ ∀ l, (x.execs h).getLsbD l = true → e.mask.getLsbD l = true) ∧
      (∀ l, (x.others h).getLsbD l = true → g.at l (pcNext x.e.pc)) ∧
      (∀ e ∈ x.g.frontier.tail, ∀ l, e.mask.getLsbD l = true → g.at l e.pc) ∧
      (∀ l pc, g.at l pc → ((x.execs h).getLsbD l = true ∧ pc = pcTarget x.e.pc t) ∨
        ((x.others h).getLsbD l = true ∧ pc = pcNext x.e.pc) ∨ ∃ e ∈ x.g.frontier.tail, e.mask.getLsbD l = true ∧ pc = e.pc) ∧
      (∀ e ∈ g.frontier, e.mask ≠ 0#32) ∧
      { g with frontier := x.g.frontier, chosen := x.g.chosen, paired := x.g.paired, latches := x.g.latches
               latchLive := x.g.latchLive } = x.g) ∧
  ∀ (h : Hdr) (t : Target) (d : Fin 1536) (s : State) (x : Issue), d.val + 1 < 1536 → h.nwb = false →
    ReadySwitch s x h [(.v d, 2)] [] → x.legal s h (pcTarget x.e.pc t) →
    ∃ u, exec (.call h (.v d) t) s = .next u ∧ (x.now u).g = x.g.g ∧
      ∀ l, l < x.g.lanes.length → ∀ r,
        ((x.now u).lane l).reg r =
          if (x.execs h).getLsbD l = true ∧ r = d.val then (pcNext x.e.pc).setWidth 32
          else if (x.execs h).getLsbD l = true ∧ r = d.val + 1 then (pcNext x.e.pc >>> 32).setWidth 32
          else (x.g.lane l).reg r

/-! Traps, returns and checks (R95 to R101, R163, R185, R188). -/

/-- R96, R163: where their handlers can be entered, the executing lanes of `trap`, `syscall` and `hcall` trap, with `n` as first detail;
`trap` records its own PC, the others the next slot's. Other lanes of the entry go on. -/
def Obligations.SoftwareTrapsEnterHandler : Prop :=
  ∀ (h : Hdr) (n : BitVec 16),
    let raises := fun (i : Instr) (cause : Nat) (next : Bool) =>
      TrapsLanes i h [] (fun _ _ => True) (fun _ x => x.execs h)
        (fun _ x l => { lane := l, cause := cause, pc := x.e.pc, tpc := if next then pcNext x.e.pc else x.e.pc, addr := 0
                        det0 := n.toNat, det1 := 0 })
        (fun _ x l => x.g.lane l) (fun _ x l pc => (x.others h).getLsbD l = true ∧ pc = pcNext x.e.pc)
    raises (.trap h n) 0x30 false ∧ raises (.syscall h n) 8 true ∧ raises (.hcall h n) 9 true

/-- R95, R97, R157 to R159: where their handlers can be entered, the executing lanes of `bra`, `brx`, `call` and `ret` whose target is not
legal raise cause 0x02 with that target, and take no link; lanes with a legal target move. R100, R188: where its handler can be entered, an
executing lane of `sret` or `hret` whose top frame does not allow the return raises cause 0x02 in its own mode and keeps its frames; the other
executing lanes return. The model's choices, no rule of the spec: that a transfer whose target is not legal takes no link (log entry 13); that
a return to the PC that the trap itself recorded is not checked as a target (log entry 36); and that the target is told as 0 where the lane has
no frame or is in another mode (log entry 36). -/
def Obligations.RefusedTransfersTrap : Prop :=
  (∀ (h : Hdr) (t : Target) (d a : Opnd) (table : BitVec 16) (count : BitVec 8),
    let dest := fun (_ : State) (x : Issue) (_ : Nat) => some (pcTarget x.e.pc t)
    let link := fun (s : State) (x : Issue) (l : Nat) => some (BitVec.ofNat 64 (readWide x.g s.draws l a 2))
    let ok := fun (s : State) (x : Issue) (pc : Pc) =>
      legalTarget s (s.launchOf x.c).vf (s.launchOf x.c).ctx (x.g.lane (lowest (x.execs h))).mode pc
    let bad := fun (target : State → Issue → Nat → Option Pc) (s : State) (x : Issue) => x.which h fun l =>
      match target s x l with
      | some pc => !ok s x pc
      | none => false
    let raises := fun (i : Instr) (uses : List (Opnd × Nat)) (target : State → Issue → Nat → Option Pc) =>
      TrapsLanes i h uses (fun s x => bad target s x ≠ 0#32) (bad target)
        (fun s x l =>
          let pc := ((target s x l).getD 0#64).toNat
          { lane := l, cause := 2, pc := x.e.pc, tpc := x.e.pc, addr := 0, det0 := pc % 2 ^ 32, det1 := pc / 2 ^ 32 })
        (fun _ x l => x.g.lane l)
        (fun s x l pc => ((x.execs h).getLsbD l = true ∧ target s x l = some pc) ∨
          (pc = pcNext x.e.pc ∧ ((x.others h).getLsbD l = true ∨ ((x.execs h).getLsbD l = true ∧ target s x l = none))))
    raises (.bra h t) [] dest ∧ raises (.brx h a table count) [(a, 1)] (fun s x => brxTarget s x a table count) ∧
    raises (.call h d t) [(d, 2)] dest ∧ raises (.ret h a) [(a, 2)] link) ∧
  (∀ (h : Hdr),
    let raises := fun (i : Instr) (mode : Mode) =>
      let ok := fun (s : State) (x : Issue) (l : Nat) =>
        returnOk s (s.launchOf x.c).vf (s.launchOf x.c).ctx (x.g.lane l) mode
      TrapsLanes i h [] (fun _ _ => True) (fun s x => x.which h fun l => !ok s x l)
        (fun _ x l =>
          let y := x.g.lane l
          let pc := if y.depth = 0 ∨ y.mode ≠ mode then 0 else y.top.tpc.toNat
          { lane := l, cause := 2, pc := x.e.pc, tpc := x.e.pc, addr := 0, det0 := pc % 2 ^ 32, det1 := pc / 2 ^ 32 })
        (fun s x l => if (x.execs h).getLsbD l && ok s x l then (x.g.lane l).leave else x.g.lane l)
        (fun s x l pc => ((x.execs h).getLsbD l = true ∧ ok s x l = true ∧ pc = (x.g.lane l).backTo) ∨
          ((x.others h).getLsbD l = true ∧ pc = pcNext x.e.pc))
    raises (.sret h) .super ∧ raises (.hret h) .hyper)

/-- R98: a lane at depth 3 that traps enters no handler. When every executing lane of a `trap`, `syscall` or `hcall` is at depth 3, and the
ring has room for their records, each is held at the instruction with a record of its own, of cause 0x03, with its PC and, as first detail, its
own `TCAUSE`. The model's choices, no rule of the spec: the record's address is 0 (log entry 11), each such lane has a record of its own and in
the order of the lanes (log entry 12), and the depth is looked at before the vector (log entry 101). -/
def Obligations.TrapAtDepthThreeHolds : Prop :=
  ∀ (h : Hdr) (n : BitVec 16) (i : Instr), i ∈ [Instr.trap h n, .syscall h n, .hcall h n] →
    ∀ (s : State) (x : Issue), ReadySwitch s x h [] [] → x.execs h ≠ 0#32 → (∀ l ∈ (x.execs h).lanes, 3 ≤ (x.g.lane l).depth) →
      let r := x.c.ring s
      let record := fun l => recordBytes r s.tick
        { cause := 3, sev := 1, core := x.c.coreOf, gang := x.k, lanes := LaneMask.one l, pc := x.e.pc, addr := 0, region := x.g.regioncnt
          scnt := (x.g.lane l).scnt, det0 := (x.g.lane l).tcause.toNat, det1 := 0 }
      let told := (x.execs h).lanes.foldl (fun u l => putRecord u r (record l)) s
      ringRoom s r (x.execs h).lanes.length = true → Stored told →
      ∃ g, exec i s = .next { told.setCrew (x.c.setGang x.k g) with draws := s.draws + 1 } ∧
        (∀ l, l < x.g.lanes.length → g.lane l =
          if (x.execs h).getLsbD l then { x.g.lane l with run := .held, pc := x.e.pc } else x.g.lane l) ∧
        ∀ l pc, g.at l pc ↔ ((x.others h).getLsbD l = true ∧ pc = pcNext x.e.pc) ∨
          ((x.execs h).getLsbD l = false ∧ ∃ e ∈ x.g.frontier.tail, e.mask.getLsbD l = true ∧ e.pc = pc)

/-- R100, R188: `sret` and `hret` complete where each executing lane's top frame allows its return: the lane pops its frame, takes back
its mode and stands at the frame's `TPC`; the entry's other lanes go on. -/
def Obligations.ReturnsPopFrames : Prop :=
  ∀ (h : Hdr),
    let returns := fun (i : Instr) (mode : Mode) => ∀ (s : State) (x : Issue), ReadySwitch s x h [] [] →
      (∀ l ∈ (x.execs h).lanes, returnOk s (s.launchOf x.c).vf (s.launchOf x.c).ctx (x.g.lane l) mode = true) →
      ∃ g, exec i s = .next { s.setCrew (x.c.setGang x.k g) with draws := s.draws + 1 } ∧
        (∀ l, l < x.g.lanes.length → g.lane l =
          match (x.execs h).getLsbD l, (x.g.lane l).frames with
          | true, f :: fs => { x.g.lane l with frames := fs, mode := Mode.ofCode (bits f.tcause.toNat 9 8) }
          | _, _ => x.g.lane l) ∧
        ∀ l pc, g.at l pc ↔ ((x.execs h).getLsbD l = true ∧ pc = (x.g.lane l).backTo) ∨
          ((x.others h).getLsbD l = true ∧ pc = pcNext x.e.pc) ∨ ∃ e ∈ x.g.frontier.tail, e.mask.getLsbD l = true ∧ e.pc = pc
    returns (.sret h) .super ∧ returns (.hret h) .hyper

/-- R185: what each check tests in a lane. Where every executing lane passes, the check completes and the lanes go on at the next slot. A lane
that fails raises the check's cause with PC and TPC the check's, TADDR 0, the tested value as first detail and the check's second detail; the
lanes that pass go on. -/
def Obligations.ChecksPassOrTrap : Prop :=
  ∀ (h : Hdr) (signed : Bool) (z : Size) (a b c : Opnd) (v : SrcB),
    let rd := fun (s : State) (x : Issue) (l : Nat) (o : Opnd) => readWide x.g s.draws l o 1
    let num := fun (v : Nat) => if signed then signExt v 32 else (v : Int)
    let want := fun (s : State) (x : Issue) (l : Nat) => match v with
      | .reg o => rd s x l o
      | .imm i => i.toNat
    let useV := match v with
      | .reg o => [(o, 1)]
      | .imm _ => []
    let tests := fun (i : Instr) (cause : Nat) (uses : List (Opnd × Nat)) (pass : State → Issue → Nat → Bool)
        (det1 : State → Issue → Nat → Nat) =>
      SwitchesTo i h uses [] (fun s x => ∀ l ∈ (x.execs h).lanes, pass s x l = true) (fun s x => passed s x x.c) ∧
      TrapsLanes i h uses (fun _ _ => True) (fun s x => x.which h fun l => !pass s x l)
        (fun s x l => { lane := l, cause := cause, pc := x.e.pc, tpc := x.e.pc, addr := 0, det0 := rd s x l a, det1 := det1 s x l })
        (fun _ x l => x.g.lane l)
        (fun s x l pc => x.e.mask.getLsbD l = true ∧ ((x.execs h).getLsbD l = true → pass s x l = true) ∧ pc = pcNext x.e.pc)
    tests (.chkb h signed z a b c) 0x10 [(a, 1), (b, 1), (c, 1)]
      (fun s x l => decide (num (rd s x l b) ≤ num (rd s x l a) ∧ num (rd s x l a) + sizeBytes z ≤ num (rd s x l c)))
      (fun s x l => rd s x l c) ∧
    tests (.chkt h a v) 0x11 ((a, 1) :: useV) (fun s x l => rd s x l a == want s x l) want ∧
    tests (.chkl h a b) 0x12 [(a, 1), (b, 1)] (fun s x l => rd s x l a == rd s x l b && rd s x l b != 0) (fun s x l => rd s x l b)

/-! Ending lanes, halting, and special registers (R103, R160 to R165, R187 to R191). -/

/-- R160 to R162, R165: `exit`, `exit.to`, `region` and `yield` complete when they are ready. R103, R160: after `exit` the executing lanes are
exited, without frames and in no entry; the other lanes keep their run state, frames and modes, no lane's registers or predicates change, and
no byte of HBM or host memory does. -/
def Obligations.ExitsAndYieldsComplete : Prop :=
  (∀ (h : Hdr) (a : Opnd),
    let ends := fun (s : State) (x : Issue) (c : Crew) =>
      settle (switched s x (c.mapGang x.k fun g => exitLanes g (x.execs h)) [nextGroup s x (x.others h)]) x.c.uid
    SwitchesTo (.exit h) h [] [] (fun _ _ => True) (fun s x => ends s x x.c) ∧
    SwitchesTo (.exitTo h a) h [(a, 1)] [] (fun _ x => x.execs h ≠ 0#32) (fun s x => ends s x
      { x.c with succ := BitVec.ofNat 32 (readWide x.g s.draws (lowest (x.execs h)) a 1), succSet := true, succSite := x.e.pc }) ∧
    SwitchesTo (.exitTo h a) h [(a, 1)] [] (fun _ x => x.execs h = 0#32) (fun s x => ends s x x.c) ∧
    SwitchesTo (.region h) h [] [] (fun _ _ => True) (fun s x =>
      passed s x (x.c.mapGang x.k fun g => { g with regioncnt := if x.execs h = 0#32 then g.regioncnt else g.regioncnt + 1#32 })) ∧
    ∀ (s : State) (x : Issue), Ready s x h [] [] → x.g.stopReq = false → x.c.force = false →
      exec (.yield h) s = .next (if x.c.req && reconverged (x.now (passed s x x.c)) then
        passed s x (x.c.mapGang x.k fun g => { g with halted := true }) else passed s x x.c)) ∧
  (∀ (h : Hdr) (s : State) (x : Issue), ReadySwitch s x h [] [] →
    ∃ t, exec (.exit h) s = .next t ∧ t.hbm = s.hbm ∧ t.host = s.host ∧
      (∀ l, l < x.g.lanes.length →
        ((x.now t).lane l).regs = (x.g.lane l).regs ∧ ((x.now t).lane l).preds = (x.g.lane l).preds ∧
        ((x.now t).lane l).mode = (x.g.lane l).mode ∧
        ((x.now t).lane l).run = (if (x.execs h).getLsbD l then .exited else (x.g.lane l).run) ∧
        ((x.now t).lane l).frames = (if (x.execs h).getLsbD l then [] else (x.g.lane l).frames)) ∧
      ∀ l pc, (x.now t).at l pc ↔ ((x.others h).getLsbD l = true ∧ pc = pcNext x.e.pc) ∨
        ∃ e ∈ x.g.frontier.tail, e.mask.getLsbD l = true ∧ e.pc = pc)

/-- R164, R191: `brk` stops the gang with a record and `halt` terminates the crew; with no executing lane both only move on. R191, R215: after
a `halt` with an executing lane no lane of the crew can issue, and its launch counts one more halted crew. R379: this status and crew are
noted as the first if no crew had halted, or none but on a higher core in this cycle. -/
def Obligations.BreakAndHaltComplete : Prop :=
  (∀ (h : Hdr) (n : BitVec 16) (st : BitVec 8),
    let note := fun (s : State) (x : Issue) => writeRecord s (x.c.ring s)
      { cause := 0x70, sev := 0, core := x.c.coreOf, gang := x.k, lanes := x.execs h, pc := x.e.pc, addr := 0, region := x.g.regioncnt
        scnt := (x.g.lane (lowest (x.execs h))).scnt, det0 := n.toNat, det1 := 0 }
    SwitchesTo (.brk h n) h [] [] (fun _ x => x.execs h = 0#32) (fun s x => passed s x x.c) ∧
    SwitchesTo (.brk h n) h [] [] (fun s x => x.execs h ≠ 0#32 ∧ ringRoom s (x.c.ring s) 1 = true ∧ Stored (note s x))
      (fun s x => switched (note s x) x (x.c.mapGang x.k fun g => { g with stopped := true, stoppedAt := x.execs h })
        [{ x.e with mask := x.execs h }, nextGroup s x (x.others h)]) ∧
    SwitchesTo (.halt h st) h [] [] (fun _ x => x.execs h = 0#32) (fun s x => passed s x x.c) ∧
    SwitchesTo (.halt h st) h [] []
      (fun s x => x.execs h ≠ 0#32 ∧ Stored (terminate (passed s x x.c) x.c.uid (some st.toNat)))
      (fun s x => terminate (passed s x x.c) x.c.uid (some st.toNat))) ∧
  (∀ (h : Hdr) (st : BitVec 8) (s t : State) (x : Issue), ReadySwitch s x h [] [] → x.execs h ≠ 0#32 → x.c.terminating = false →
    exec (.halt h st) s = .next t →
      (∀ c, t.crew? x.c.uid = some c → c.terminating = true ∧ ∀ k, (c.gang k).frontier = []) ∧
      ∀ l, s.launch? x.c.launch = some l → ∃ l', t.launch? x.c.launch = some l' ∧ l'.halted = l.halted + 1 ∧
        l'.retired = l.retired + 1 ∧
        l'.haltFirst = if l.haltFirst = none ∨ l.haltAt.1 = s.now ∧ x.c.coreOf < l.haltAt.2 then
            some (st.toNat, x.c.crewid + x.c.stage * 2 ^ 28) else l.haltFirst)

/-- R187, R232, R255: `rdsr`, `cpwp` and `task.stat` complete when they are ready: each executing lane takes the value in its destination,
and no other register changes. R105 to R108, R13, R198, R318, R329: what each special register reads as. -/
def Obligations.StatusReadsComplete : Prop :=
  (∀ (h : Hdr) (d a : Opnd) (r : SReg) (chan : Fin 8) (win : Fin 64) (q : Fin 7),
    ReadsInto (.rdsr h d r) h d [(d, sregWords r)] (fun s x l => wordsOf (sregWords r) (sregValue s x l r)) ∧
    ReadsInto (.cpwp h chan d) h d [(d, 1)] (fun _ x _ => [(x.c.channel chan.val).wp]) ∧
    ReadsInto (.taskStatT h d a) h d [(d, 1), (a, 1)] (fun s x l => wordsOf 1 (statWord x.c (readWide x.g s.draws l a 1))) ∧
    ReadsInto (.taskStatW h d win) h d [(d, 1)] (fun s x _ => [match x.c.window? s win.val with
      | some w => w.gen
      | none => 0#32]) ∧
    ReadsInto (.taskStatQ h d q) h d [(d, 1)] (fun s x _ => wordsOf 1 (queueWord s x.c q.val))) ∧
  ∀ (s : State) (x : Issue) (l : Nat) (n : Fin 8),
    let y := x.g.lane l
    let cx := s.ctxAt (s.launchOf x.c).vf (s.launchOf x.c).ctx
    let v := sregValue s x l
    v .laneid = l ∧ v .gangid = x.k ∧ v .crewid = x.c.crewid + x.c.stage * 2 ^ 28 ∧ v .campid = x.c.camp % 8 ∧ v .tractid = x.c.tract ∧
    v .coreid = x.c.coreOf % 8 ∧ v .mode = y.mode.band + 4 * y.frames.length ∧ v .cmpl = x.c.lvl.toNat ∧ v .fpstat = y.fpstat.toNat ∧
    v (.scnt n) = y.cnt n.val ∧ v .regioncnt = x.g.regioncnt.toNat ∧
    v .frontier = x.g.frontier.length + 2 ^ 14 * x.e.band + 2 ^ 16 * x.e.prio ∧ v .svec = cx.svec.toNat ∧ v .hvec = cx.hvec.toNat ∧
    v .trapring = cx.ringBase.toNat * 2 ^ 12 + cx.ringSz.toNat ∧ v .hintdrop = cx.hintdrop.toNat ∧
    v .preempt = x.c.req.toNat + 2 * x.c.force.toNat ∧ v .deadline = x.c.deadline.toNat ∧ v .quantum = cx.quantum.toNat ∧
    (y.frames = [] → v .tcause = 0 ∧ v .tpc = 0 ∧ v .taddr = 0 ∧ v .tdet0 = 0 ∧ v .tdet1 = 0) ∧
    ∀ f fs, y.frames = f :: fs → v .tcause = f.tcause.toNat ∧ v .tpc = f.tpc.toNat ∧ v .taddr = f.taddr.toNat ∧
      v .tdet0 = f.tdet0.toNat ∧ v .tdet1 = f.tdet1.toNat

/-- R49, R187, R318, R329: `wrsr` completes when it is ready. `FPSTAT` is written in each executing lane, another register from the
lowest-numbered one; `QUANTUM` stores the nearer limit; a register that no mode writes keeps its value. -/
def Obligations.SpecialRegistersWritten : Prop :=
  ∀ (h : Hdr) (r : SReg) (a : Opnd), SwitchesTo (.wrsr h r a) h [(a, sregWords r)] []
    (fun s x => r = .preempt → Stored (requestPreempt (passed s x x.c) x.c.uid none))
    (fun s x =>
      let v := readWide x.g s.draws (lowest (x.execs h)) a (sregWords r)
      let t := passed s x x.c
      let ofCtx := fun f => t.mapCtx (s.launchOf x.c).vf (s.launchOf x.c).ctx f
      if r = .fpstat then passed s x (x.c.mapGang x.k fun g => g.mapLanes (x.execs h) fun l y =>
        { y with fpstat := BitVec.ofNat 6 (readWide x.g s.draws l a 1) })
      else if x.execs h = 0#32 then t
      else match r with
        | .cmpl => (t.mapCrew x.c.uid fun c => { c with lvl := v % 2 == 1 }).mapCtx (s.launchOf x.c).vf (s.launchOf x.c).ctx fun c =>
            { c with cmpl := BitVec.ofNat 1 v }
        | .svec => ofCtx fun c => { c with svec := BitVec.ofNat 64 (v / 64 % 2 ^ 49 * 64 + v % 8) }
        | .hvec => ofCtx fun c => { c with hvec := BitVec.ofNat 64 (v / 64 % 2 ^ 49 * 64 + v % 8) }
        | .trapring => ofCtx fun c => { c with ringBase := BitVec.ofNat 43 (v / 2 ^ 12), ringSz := BitVec.ofNat 4 (min (v % 16) 10) }
        | .hintdrop => ofCtx fun c => { c with hintdrop := BitVec.ofNat 32 v }
        | .quantum => ofCtx fun c => { c with quantum := BitVec.ofNat 24 (min (max (v % 2 ^ 24) 5000) 10000000) }
        | .deadline => t.mapCrew x.c.uid fun c => { c with deadline := BitVec.ofNat 32 v }
        | .preempt => if v % 2 = 1 then requestPreempt t x.c.uid none else t
        | _ => t)

/-- R101 to R103, R189, R190: `lanepc` and `lanest` complete when they are ready: in the order of the targets, each target that some executing
lane names is changed by the lowest-numbered lane that names it. R189: a lane that no executing lane names, or whose mode ranks above that of
every executing lane, or that is exited, keeps its PC register, run state, frames, mode, registers and predicates through `lanepc` and
`lanest`. -/
def Obligations.LaneControlCompletes : Prop :=
  (∀ (h : Hdr) (a b : Opnd),
    let on := fun (f : State → Issue → Gang → Nat × Nat → Gang) (s : State) (x : Issue) =>
      { s.setCrew (x.c.setGang x.k ((targets x.g s.draws (x.execs h) a).foldl (f s x) (regroup x.g [nextGroup s x x.e.mask]))) with
        draws := s.draws + 1 }
    let act := fun (k : LaneAct) (s : State) (x : Issue) =>
      settle (on (fun s x g p => lanestOn s (s.launchOf x.c).vf (s.launchOf x.c).ctx k g p.2) s x) x.c.uid
    SwitchesTo (.lanepc h a b) h [(a, 1), (b, 2)] [] (fun _ _ => True)
      (on fun s x g p => lanepcOn s (s.launchOf x.c).vf (s.launchOf x.c).ctx g p.2 (BitVec.ofNat 64 (readWide x.g s.draws p.1 b 2))) ∧
    SwitchesTo (.lanestRel h a) h [(a, 1)] [] (fun _ _ => True) (act .rel) ∧
    SwitchesTo (.lanestHold h a) h [(a, 1)] [] (fun _ _ => True) (act .hold) ∧
    SwitchesTo (.lanestExit h a) h [(a, 1)] [] (fun _ _ => True) (act .exit)) ∧
  (∀ (h : Hdr) (a b : Opnd) (i : Instr), i ∈ [Instr.lanepc h a b, .lanestRel h a, .lanestHold h a, .lanestExit h a] →
    ∀ (s : State) (x : Issue), ReadySwitch s x h [(a, 1), (b, 2)] [] →
      ∃ t, exec i s = .next t ∧ t.hbm = s.hbm ∧ t.host = s.host ∧ ∀ l, l < x.g.lanes.length →
        ((∀ j ∈ (x.execs h).lanes, readWide x.g s.draws j a 1 ≠ l ∨ (x.g.lane j).mode.band < (x.g.lane l).mode.band) ∨
          (x.g.lane l).run = .exited) →
        { (x.now t).lane l with scnt := (x.g.lane l).scnt } = x.g.lane l)

/-! Calls of imports, counted instructions and waits (R157, R174 to R183, R198 to R200, R365). -/

/-- R157, R365: `call.imp` completes at a switch point. With no executing lane it moves on; a bound entry sends the lanes to its `TARGET`
with a link; an admitting one parks them; an unbound one starts an admission, with a record, and parks them; a failed one raises cause
0x02 with target 0. -/
def Obligations.ImportCallsComplete : Prop :=
  ∀ (h : Hdr) (d : Opnd) (index : BitVec 32),
    SwitchesTo (.callImp h d index) h [(d, 2)] [] (fun _ x => x.execs h = 0#32) (fun s x => passed s x x.c) ∧
    ∀ (s s1 : State) (x : Issue) (n va : Nat) (ls : List Leaf), ReadySwitch s x h [(d, 2)] [] → x.execs h ≠ 0#32 →
      bindingVa s x.c x.e.pc index.toNat = some (n, va) →
      let w := x.c.who s (x.g.lane (lowest (x.execs h))).mode
      laneXlat s w (s.launchOf x.c).desc.pasid (.lane x.c.uid x.k (lowest (x.execs h))) 0 va 64 = (s1, .ok ls) → Stored s1 →
      let bs := readLeaves s1 w ls
      let stateField := natOfBytes (bs.take 4) % 4
      let target : Pc := BitVec.ofNat 64 (natOfBytes ((bs.drop 16).take 8))
      let parked := fun (t : State) => switched t x (x.c.mapGang x.k fun g => { g with parked := g.parked ||| x.execs h })
        [stayGroup x (x.execs h), nextGroup t x (x.others h)]
      let linked := if h.nwb then x.g else writeLink x.g (x.execs h) d x.e.pc
      (stateField = 2 → x.legal s1 h target →
        exec (.callImp h d index) s = .next (switched s1 x (x.c.setGang x.k linked) (splits s1 x h fun _ => some target))) ∧
      (stateField = 1 → exec (.callImp h d index) s = .next (parked s1)) ∧
      (stateField = 0 → ringRoom s1 (x.c.ring s1) 1 = true → ∀ s2, deviceWrite s1 w va (bytesOf 4 1) = some s2 →
        let la := s1.launchOf x.c
        let s3 := writeRecord s2 (x.c.ring s1)
          { cause := 0x40, sev := 0, core := x.c.coreOf, gang := x.k, lanes := x.execs h, pc := x.e.pc, addr := 0
            region := (x.c.gang x.k).regioncnt, scnt := ((x.c.gang x.k).lane (lowest (x.execs h))).scnt, det0 := n, det1 := 0 }
        let req : AdmReq :=
          { vf := la.vf, words := [0, la.ctx + la.tenant * 2 ^ 16], priv := if la.vf = 0 then .hyper else .super, desc := la.desc
            bind := some { index := n, handle := codeHandle s1 x.c x.e.pc, imp := index.toNat }, start := 0, pending := none
            failed := false, result := none, behind := (s3.func la.vf).admprod }
        Stored s3 → exec (.callImp h d index) s = .next (parked { s3 with admQueue := s3.admQueue ++ [(x.c.tract, req)] })) ∧
      (stateField = 3 → (∀ l ∈ (x.execs h).lanes, Handled s1 x.c (x.g.lane l) 2) →
        ∃ t, exec (.callImp h d index) s = .next t ∧ Trapped s1 t x (x.execs h)
          (fun l => { lane := l, cause := 2, pc := x.e.pc, tpc := x.e.pc, addr := 0, det0 := 0, det1 := 0 }) (fun l => x.g.lane l)
          (fun l pc => (x.others h).getLsbD l = true ∧ pc = pcNext x.e.pc))

/-- R175, R177, R198, R200, R233, R254, R261, R306, R312: barrier, task, queue, cancelling and maintenance instructions complete when they are
ready and no counter of an executing lane is exhausted: each executing lane counts one operation, and the entry moves on. R312: the executing
lanes of `fbar` count one operation, and the gang issues nothing until it is performed. R198: what a counted instruction changes in its gang:
in each executing lane the counter of its stream rises by one. No other counter, no register, predicate, mode, frame or flag of any lane
changes, no gang-uniform register and no byte of memory. -/
def Obligations.CountedInstructionsComplete : Prop :=
  (∀ (h : Hdr) (cl : Clause) (e : EngArg) (l : BarLevel) (num : BitVec 6) (p : PredOpt) (a : Opnd) (m : MemArg) (chan : Fin 8),
    let counts := fun (i : Instr) (uses : List (Opnd × Nat)) (preds : List PredOpt) (cl : Clause) (scope : Nat)
        (kind : State → Issue → Nat → OpKind) =>
      SwitchesTo i h uses preds (fun _ x => CountFree x h cl) (fun s x => passed s x (counted s x h cl scope (kind s x)))
    let at_ := levelCode l
    let eng := fun (i : Instr) (uses : List (Opnd × Nat)) (preds : List PredOpt) (kind : State → Issue → Nat → OpKind) =>
      counts i uses preds e.clause (scopeCode e.scope) kind
    let maint := fun (i : Instr) (k : Maint) => counts i ((a, 1) :: memUses m true) [] m.clause (scopeCode m.scope)
      fun s x lane => .maint k (address64 x.g s.draws lane m 1 false) (min (readWide x.g s.draws lane a 1) (2 ^ 30))
    counts (.barArrive h cl l num p) [] [p] cl at_ (fun _ _ _ => .barArrive at_ num.toNat p) ∧
    counts (.barWait h cl l num p) [] [p] cl at_ (fun s x lane => .barWait at_ num.toNat (pastBit s x at_ num.toNat p lane)) ∧
    counts (.barSync h cl l num) [] [] cl at_ (fun _ _ _ => .barSync at_ num.toNat false false) ∧
    eng (.taskDec h a e) [(a, 1)] [] (fun s x lane => .taskDec (readWide x.g s.draws lane a 1)) ∧
    eng (.emit h a p e) [(a, 16)] [p]
      (fun s x lane => .emit ((List.range 16).map fun j => readOpnd x.g s.draws lane (Opnd.plus a j)) p false) ∧
    eng (.cpcancel h chan e) [] [] (fun _ _ _ => .cpcancel chan.val) ∧
    maint (.hintL2 h a m) .hintL2 ∧ maint (.hintL1 h a m) .hintL1 ∧ maint (.hintLru h a m) .hintLru ∧
    maint (.cwbL2 h a m) .cwbL2 ∧ maint (.cwbMem h a m) .cwbMem ∧ maint (.cinvL1 h a m) .cinvL1 ∧
    maint (.cinvL2 h a m) .cinvL2 ∧ maint (.iinv h a m) .iinv ∧
    SwitchesTo (.fbar h cl) h [] [] (fun _ x => x.execs h = 0#32) (fun s x => passed s x x.c) ∧
    SwitchesTo (.fbar h cl) h [] [] (fun _ x => x.execs h ≠ 0#32 ∧ CountFree x h cl) (fun s x =>
      passed s x ((x.c.addOp x.k s.draws x.e.pc (x.execs h) cl 0 .fbar).mapGang x.k fun g => { g with line := none, fbarPending := true })) ∧
    ∀ (s t : State) (x : Issue), ReadySwitch s x h [] [] → x.execs h ≠ 0#32 → CountFree x h cl → exec (.fbar h cl) s = .next t →
      ∀ c, t.crew? x.c.uid = some c → mayIssue t c x.k = false) ∧
  (∀ (h : Hdr) (cl : Clause) (e : EngArg) (l : BarLevel) (num : BitVec 6) (p : PredOpt) (a : Opnd) (m : MemArg) (chan : Fin 8)
    (i : Instr) (st : Fin 8),
    (i, st) ∈ ([(.barArrive h cl l num p, cl.stream), (.barWait h cl l num p, cl.stream), (.barSync h cl l num, cl.stream)
      , (.taskDec h a e, e.clause.stream), (.emit h a p e, e.clause.stream), (.cpcancel h chan e, e.clause.stream)
      , (.hintL2 h a m, m.clause.stream), (.hintL1 h a m, m.clause.stream), (.hintLru h a m, m.clause.stream)
      , (.cwbL2 h a m, m.clause.stream), (.cwbMem h a m, m.clause.stream), (.cinvL1 h a m, m.clause.stream)
      , (.cinvL2 h a m, m.clause.stream), (.iinv h a m, m.clause.stream)] : List (Instr × Fin 8)) →
    ∀ (s : State) (x : Issue), ReadySwitch s x h ((a, 16) :: memUses m true) [p] →
      (∀ lane ∈ (x.execs h).lanes, (x.g.lane lane).cnt st.val < 63) →
      ∃ t, exec i s = .next t ∧ t.hbm = s.hbm ∧ t.host = s.host ∧ t.vaults = s.vaults ∧ (x.now t).g = x.g.g ∧
        ∀ lane, lane < x.g.lanes.length → { (x.now t).lane lane with scnt := (x.g.lane lane).scnt } = x.g.lane lane ∧
          ∀ n, ((x.now t).lane lane).cnt n = (x.g.lane lane).cnt n +
            if (x.execs h).getLsbD lane = true ∧ n = st.val ∧ n < (x.g.lane lane).scnt.length then 1 else 0)

/-- R181, R183: `waits` completes when it is ready: it passes where every executing lane's counter is at most its bound; else its executing
lanes stay at it and the entry's other lanes go on. Lanes that it holds move to the next slot once the counters of all are at most the bound
and nothing else holds their entry. `wait` completes its issue when the words of its kind-5 conditions translate: each executing lane counts
one operation and waits at the instruction, with its conditions as read. -/
def Obligations.WaitsComplete : Prop :=
  ∀ (h : Hdr) (st : Fin 8) (bound : BitVec 6) (all : Bool) (n : Fin 4) (d a : Opnd) (cl : Clause) (wmask : BitVec 4) (pt : PredOpt),
    SwitchesTo (.waits h st bound) h [] [] (fun _ x => ∀ l ∈ (x.execs h).lanes, (x.g.lane l).cnt st.val ≤ bound.toNat)
      (fun s x => passed s x x.c) ∧
    SwitchesTo (.waits h st bound) h [] [] (fun _ x => ∃ l ∈ (x.execs h).lanes, bound.toNat < (x.g.lane l).cnt st.val)
      (fun s x => switched s x
        (x.c.mapGang x.k fun g => { g with counted := g.counted ++ (x.execs h).lanes.map fun l => (l, st.val, bound.toNat) })
        [stayGroup x (x.execs h), nextGroup s x (x.others h)]) ∧
    (∀ (s : State) (c : Crew) (k l : Nat) (e : Entry), let g := c.gang k
      e ∈ g.frontier → e.busy = true → (∃ y ∈ g.counted, e.mask.getLsbD y.1 = true) →
      (∀ y ∈ g.counted, e.mask.getLsbD y.1 = true → (g.lane y.1).cnt y.2.1 ≤ y.2.2) →
      (∀ j, e.mask.getLsbD j = true → g.parked.getLsbD j = false ∧ (∀ y ∈ g.pages, y.lane ≠ j) ∧ (∀ y ∈ g.sys, y.lane ≠ j) ∧
        ∀ y ∈ g.waits, y.lane = j → y.done ≠ none) →
      e.mask.getLsbD l = true → (wakeCounted s c k).at l (pcNext e.pc)) ∧
    ∀ (s s1 : State) (x : Issue) (rs : List (Nat × LaneXlat)),
      ReadySwitch s x h [(d, 1), (a, 4 * (n.val + 1))] [pt] → CountFree x h cl →
      lanesXlat x.c (fun l => x.c.who s (x.g.lane l).mode) (fun l => .lane x.c.uid x.k l)
        (fun l => Cond.words (readConds x.g s.draws l a wmask (n.val + 1))) s (x.execs h).lanes = (s1, rs) →
      (∀ r ∈ rs, ∃ ls, r.2 = .ok ls) → Stored s1 →
      exec (.wait h all n d a cl wmask pt) s =
        .next (switched s1 x (waitStart s x (x.execs h) all (n.val + 1) d a cl wmask pt) [stayGroup x (x.execs h), nextGroup s x (x.others h)])

/-- R181: a waiting lane of a resident crew, whose words can be read, ends when its conditions hold, and by its timeout when they do not; while
they hold the timeout does nothing, and while they do not the condition does nothing. R180, R195: while a store of the lane to one of its words
is pending neither does anything. -/
def Obligations.WaitsEnd : Prop :=
  ∀ (s : State) (uid k l : Nat) (c : Crew) (w : WaitRec), Stored s → s.crew? uid = some c → c.isResident = true → waitOf c k l = some w →
    (wordPending s c k w = true → exec (.waitConditionMet uid k l) s = .next s ∧ exec (.waitTimeout uid k l) s = .next s) ∧
    ((∀ p ∈ (c.gang k).pages, p.op ≠ w.op) → wordsRead s c k w = true →
    (waitHolds s c k w = true → exec (.waitConditionMet uid k l) s = .next (waitDone s uid k l false)) ∧
    (waitHolds s c k w = false → exec (.waitConditionMet uid k l) s = .next s) ∧
    (waitHolds s c k w = false → waitExpired s w = true → exec (.waitTimeout uid k l) s = .next (waitDone s uid k l true)) ∧
    (waitHolds s c k w = true ∨ waitExpired s w = false → exec (.waitTimeout uid k l) s = .next s))

/-- R176, R177: when a barrier's phase completes its bit flips. No other barrier's bit changes, and no byte of memory; at a crew's or
gang's own barrier no other crew changes, and the waiters of that phase have ended. -/
def Obligations.BarrierPhasesFlip : Prop :=
  (∀ (s : State) (b : BarId), Stored s → phaseReady s b = true → 2 ≤ barLevel b →
    ∃ t, exec (.barrierPhaseComplete b) s = .next t ∧ t.hbm = s.hbm ∧ t.host = s.host ∧ t.vaults = s.vaults ∧
      (t.endpoint b).phase = !(s.endpoint b).phase ∧ ∀ b', b' ≠ b → (t.endpoint b').phase = (s.endpoint b').phase) ∧
  (∀ (s : State) (u n : Nat) (c : Crew), Stored s → s.crew? u = some c → c.isResident = true → barrierCrew c = true →
    c.arrivedAt (64 + n) = true →
    ∃ t c', exec (.barrierPhaseComplete (.crew u n)) s = .next t ∧ t.hbm = s.hbm ∧ t.host = s.host ∧ t.vaults = s.vaults ∧
      (∀ v, v ≠ u → t.crew? v = s.crew? v) ∧ (∀ b, (t.endpoint b).phase = (s.endpoint b).phase) ∧ t.crew? u = some c' ∧
      c'.barPhase = c.barPhase ^^^ (1#16 <<< n) ∧ (∀ k, (c'.gang k).barPhase = (c.gang k).barPhase) ∧
      ∀ o ∈ c'.ops, ∀ ph, o.kind = .barSync 1 n true ph → o ∉ c.ops) ∧
  (∀ (s : State) (u k n : Nat) (c : Crew), Stored s → s.crew? u = some c → c.isResident = true → barrierCrew c = true →
    (sget 0#16 c.garr n).getLsbD k = true ∨ (c.gang k).allSent n = true →
    ∃ t c', exec (.barrierPhaseComplete (.gang u k n)) s = .next t ∧ t.hbm = s.hbm ∧ t.host = s.host ∧ t.vaults = s.vaults ∧
      (∀ v, v ≠ u → t.crew? v = s.crew? v) ∧ (∀ b, (t.endpoint b).phase = (s.endpoint b).phase) ∧ t.crew? u = some c' ∧
      c'.barPhase = c.barPhase ∧ (c'.gang k).barPhase = (c.gang k).barPhase ^^^ (1#4 <<< n) ∧
      ∀ j, j ≠ k → (c'.gang j).barPhase = (c.gang j).barPhase)

/-! Memory (R195, R198, R199, R209, R216 to R224, R240, R241, R290, R298, R305, R308, R312, R385, R386, R403 to R405). -/

/-- R217, R218, R221 to R224, R240, R241, R385: memory instructions whose addresses need no translation complete when they are ready and
no counter is exhausted: each executing lane counts its access, with the operands it reads now. -/
def Obligations.AccessesWithoutTranslationIssue : Prop :=
  ∀ (h : Hdr) (z : Size) (w : AWidth) (op : AtomOp) (shd : Bool) (d b : Opnd) (pd : PredOpt) (m : MemArg),
    let issues := fun (i : Instr) (uses : List (Opnd × Nat)) (preds : List PredOpt) (d : Opnd) (mod : Nat)
        (kind : State → Issue → Nat → OpKind) =>
      SwitchesTo i h uses preds (fun _ x => CountFree x h m.clause) (fun s x => passed s x (issued s x h m d mod (kind s x)))
    let off := fun (s : State) (x : Issue) (l n : Nat) => offset32 x.g s.draws l m n true
    let word := fun (s : State) (x : Issue) (l : Nat) (o : Opnd) (n : Nat) => readWide x.g s.draws l o n
    let n := widthWords w
    let load := fun (i : Instr) (f : State → Issue → Nat → Addr) =>
      issues i ((d, sizeWords z) :: memUses m false) [] d 0 fun s x l => .load (f s x (off s x l (sizeBytes z))) .norm z d
    let store := fun (i : Instr) (f : Nat → Addr) =>
      issues i ((b, sizeWords z) :: memUses m false) [] .vz 0
        fun s x l => .store (f (off s x l (sizeBytes z))) z (word s x l b (sizeWords z))
    let atom := fun (i : Instr) (f : Nat → Addr) =>
      issues i ([(d, n), (b, n)] ++ memUses m false) [] d 0 fun s x l => .atom (f (off s x l (4 * n))) op w (word s x l b n) d none
    let cas := fun (i : Instr) (f : Nat → Addr) =>
      issues i ([(d, n), (b, 2 * n)] ++ memUses m false) [pd] d 0
        fun s x l => .cas (f (off s x l (4 * n))) (4 * n) (word s x l b n) (word s x l (Opnd.plus b n) n) d pd
    load (.ldS h z d m) (fun _ _ e => .scr e) ∧ store (.stS h z b m) .scr ∧ atom (.atomS h op w d b m) .scr ∧
    cas (.casS h w d b pd m) .scr ∧ load (.ldK h z d m) (fun s x e => .konst (codeHandle s x.c x.e.pc) e) ∧
    load (.ldN h z d m) (fun _ _ e => .nbr e) ∧ store (.stN h z b m) .nbr ∧
    load (.ldV h shd z d m) (fun _ _ e => .vault shd e) ∧ store (.stV h shd z b m) (.vault shd) ∧
    atom (.atomV h op w d b m) (.vault false) ∧ cas (.casV h w d b pd m) (.vault false) ∧
    issues (.stH h z b m) ((b, sizeWords z) :: memUses m true) [] .vz (modField m 0)
      fun s x l => .store (.host (address64 x.g s.draws l m (sizeBytes z) true)) z (word s x l b (sizeWords z))

/-- R216, R222, R290, R298, R307, R308, R403: `.p` and `.g` accesses, and a module's `.f` accesses to itself, complete when they are
ready, no counter is exhausted, and each executing lane's address resolves: each counts its access at that address. -/
def Obligations.TranslatedAccessesIssue : Prop :=
  ∀ (h : Hdr) (p : Policy) (z : Size) (w : AWidth) (op : AtomOp) (shd : Bool) (d b : Opnd) (pd : PredOpt) (m : MemArg),
    let issues := fun (i : Instr) (uses : List (Opnd × Nat)) (preds : List PredOpt) (d : Opnd) (space : Nat) (shd : Bool) (acc n : Nat)
        (va : State → Issue → Nat → Nat) (kind : State → Issue → Nat → Addr → OpKind) =>
      let fab := space == 7
      ∀ (s s1 : State) (x : Issue) (addr : Nat → Addr), ReadySwitch s x h uses preds → CountFree x h m.clause →
        (fab = true → ∀ l ∈ (x.execs h).lanes, (fabAddress x.g s.draws l m n (acc == 2)).1 = s.fabid.toNat ∧ va s x l < 2 ^ 55) →
        Resolves x shd acc n (fun u l => let y := x.c.who u (x.g.lane l).mode
          if fab then { y with world := none, pri := false } else y) (va s x) addr s (x.execs h).lanes s1 → Stored s1 →
        exec i s = .next (switched s1 x
          (issued s x h m d (if fab then modField m 0 else 0) fun l => kind s x l ((addr l).inSpace space)) [nextGroup s x x.e.mask])
    let word := fun (s : State) (x : Issue) (l : Nat) (o : Opnd) (n : Nat) => readWide x.g s.draws l o n
    let n := widthWords w
    let priv := fun (s : State) (x : Issue) l => privVa s x.c x.k l (offset32 x.g s.draws l m (sizeBytes z) false)
    let glob := fun (k : Nat) (al : Bool) (s : State) (x : Issue) l => address64 x.g s.draws l m k al
    let load := fun (p : Policy) (_ : State) (_ : Issue) (_ : Nat) a => OpKind.load a p z d
    let store := fun (s : State) (x : Issue) l a => OpKind.store a z (word s x l b (sizeWords z))
    let atom := fun (op : AtomOp) (d : Opnd) (pd : PredOpt) (s : State) (x : Issue) l a => OpKind.atom a op w (word s x l b n) d pd
    let cas := fun (s : State) (x : Issue) l a => OpKind.cas a (4 * n) (word s x l b n) (word s x l (Opnd.plus b n) n) d pd
    let far := fun (k : Nat) (al : Bool) (s : State) (x : Issue) l => (fabAddress x.g s.draws l m k al).2
    let dz := (d, sizeWords z)
    let bz := (b, sizeWords z)
    issues (.ldP h p z d m) (dz :: memUses m false) [] d 8 false 0 (sizeBytes z) priv (load p) ∧
    issues (.stP h p z b m) (bz :: memUses m false) [] .vz 8 false 1 (sizeBytes z) priv store ∧
    issues (.ldG h p shd z d m) (dz :: memUses m true) [] d 4 shd 0 (sizeBytes z) (glob (sizeBytes z) false) (load p) ∧
    issues (.stG h p shd z b m) (bz :: memUses m true) [] .vz 4 shd 1 (sizeBytes z) (glob (sizeBytes z) false) store ∧
    issues (.atomG h op w d b m) ([(d, n), (b, n)] ++ memUses m true) [] d 4 false 2 (4 * n) (glob (4 * n) true) (atom op d none) ∧
    issues (.redG h op w b m) ([(.vz, n), (b, n)] ++ memUses m true) [] .vz 4 false 2 (4 * n) (glob (4 * n) true) (atom op .vz none) ∧
    issues (.casG h w d b pd m) ([(d, n), (b, 2 * n)] ++ memUses m true) [pd] d 4 false 2 (4 * n) (glob (4 * n) true) cas ∧
    issues (.ldF h z d m) (dz :: memUses m true) [] d 7 false 0 (sizeBytes z) (far (sizeBytes z) false) (load .l2) ∧
    issues (.stF h z b m) (bz :: memUses m true) [] .vz 7 false 1 (sizeBytes z) (far (sizeBytes z) false) store ∧
    issues (.atomF h (.rmw op) w d b pd m) ([(d, n), (b, n)] ++ memUses m true) [pd] d 7 false 2 (4 * n) (far (4 * n) true) (atom op d pd) ∧
    issues (.atomF h .cas w d b pd m) ([(d, n), (b, 2 * n)] ++ memUses m true) [pd] d 7 false 2 (4 * n) (far (4 * n) true) cas

/-- R385, R386, R403, R405: `ld.h` and `atom.h`, and `.f` accesses to another module, complete their issue when they are ready and no
counter is exhausted: each executing lane counts its request and waits at the instruction for the answer. -/
def Obligations.RemoteAccessesIssue : Prop :=
  ∀ (h : Hdr) (z : Size) (w : AWidth) (op : AtomOp) (d b : Opnd) (pd : PredOpt) (m : MemArg),
    let issues := fun (i : Instr) (uses : List (Opnd × Nat)) (preds : List PredOpt) (d : Opnd) (mod : Nat)
        (cond : State → Issue → Nat → Prop) (kind : State → Issue → Nat → OpKind) =>
      SwitchesTo i h uses preds (fun s x => CountFree x h m.clause ∧ x.execs h ≠ 0#32 ∧ ∀ l ∈ (x.execs h).lanes, cond s x l)
        (fun s x => switched s x ((issued s x h m d mod (kind s x)).mapGang x.k fun g => { g with
            sys := g.sys ++ ((x.execs h).lanes.zip (List.range 32)).map fun y =>
              { lane := y.1, kind := .remote (x.c.nextOp + y.2) } }) [stayGroup x x.e.mask])
    let word := fun (s : State) (x : Issue) (l : Nat) (o : Opnd) (n : Nat) => readWide x.g s.draws l o n
    let bus := fun (s : State) (x : Issue) l k => Addr.host (address64 x.g s.draws l m k true)
    let far := fun (s : State) (x : Issue) l k al => fabAddress x.g s.draws l m k al
    let other := fun (k : Nat) (al : Bool) (s : State) (x : Issue) l => (far s x l k al).1 ≠ s.fabid.toNat ∧ (far s x l k al).2 < 2 ^ 55
    let at_ := fun (s : State) (x : Issue) l k al => Addr.fab (far s x l k al).1 (far s x l k al).2
    let n := widthWords w
    let k := sizeWords z
    issues (.ldH h z d m) ((d, sizeWords z) :: memUses m true) [] d (modField m 0) (fun _ _ _ => True)
      (fun s x l => .load (bus s x l (sizeBytes z)) .norm z d) ∧
    issues (.atomH h (.add w) d b pd m) ([(d, n), (b, n)] ++ memUses m true) [pd] d (modField m 0) (fun _ _ _ => True)
      (fun s x l => .atom (bus s x l (4 * n)) .add w (word s x l b n) d pd) ∧
    issues (.atomH h (.exch w) d b pd m) ([(d, n), (b, n)] ++ memUses m true) [pd] d (modField m 1) (fun _ _ _ => True)
      (fun s x l => .atom (bus s x l (4 * n)) .exch w (word s x l b n) d pd) ∧
    issues (.atomH h (.cas z) d b pd m) ([(d, k), (b, 2 * k)] ++ memUses m true) [pd] d (modField m 2) (fun _ _ _ => True)
      (fun s x l => .cas (bus s x l (4 * k)) (4 * k) (word s x l b k) (word s x l (Opnd.plus b k) k) d pd) ∧
    issues (.ldF h z d m) ((d, sizeWords z) :: memUses m true) [] d (modField m 0) (other (sizeBytes z) false)
      (fun s x l => .load (at_ s x l (sizeBytes z) false) .l2 z d) ∧
    issues (.stF h z b m) ((b, sizeWords z) :: memUses m true) [] .vz (modField m 0) (other (sizeBytes z) false)
      (fun s x l => .store (at_ s x l (sizeBytes z) false) z (word s x l b (sizeWords z))) ∧
    issues (.atomF h (.rmw op) w d b pd m) ([(d, n), (b, n)] ++ memUses m true) [pd] d (modField m 0) (other (4 * n) true)
      (fun s x l => .atom (at_ s x l (4 * n) true) op w (word s x l b n) d pd) ∧
    issues (.atomF h .cas w d b pd m) ([(d, n), (b, 2 * n)] ++ memUses m true) [pd] d (modField m 0) (other (4 * n) true)
      (fun s x l => .cas (at_ s x l (4 * n) true) (4 * n) (word s x l b n) (word s x l (Opnd.plus b n) n) d pd)

/-- R222, R299: a load that may perform completes: its lane takes the bytes it reaches, low byte first, extended as its size says; of a byte
that an earlier part of the load has read, the value of then (R205). No byte of any memory changes. -/
def Obligations.LoadsPerform : Prop :=
  ∀ (s : State) (uid op n : Nat) (c : Crew) (o : Op) (a : Addr) (p : Policy) (z : Size) (d : Opnd), Stored s →
    Performs s uid op c o a n → o.kind = .load a p z d → Stored (cacheAccess s c o) →
    let key := (c.who s .user).world.map (·.2)
    let places := addrLocs s c a n
    let read := natOfBytes ((List.range n).map fun j => match o.got.find? fun x => x.1 == j with
      | some x => x.2
      | none => readLoc (cacheAccess s c o) key (places.getD j .nowhere))
    ∃ t, exec (.memoryOpComplete uid op) s = .next t ∧ Performed s t uid c o (extendLoad z read) [] ∧
      t.hbm = s.hbm ∧ t.host = s.host ∧ t.vaults = s.vaults ∧ (∀ u, u ≠ uid → t.crew? u = s.crew? u) ∧
      ∀ off, t.raw (.scratch uid off) = s.raw (.scratch uid off)

/-- R209, R222 to R224, R308: a store or an atomic that may perform completes. It stores its bytes where its address lies, but for those that
an earlier part of a store has stored (R205), an atomic those of the new value; the lane of an atomic takes the old value. Every other byte
stays, but for the dirty log of a VF that keeps one, and for the lines that a world holds, which a write of another seals. -/
def Obligations.StoresAndAtomicsPerform : Prop :=
  ∀ (s : State) (uid op n : Nat) (c : Crew) (o : Op) (a : Addr), Stored s → Performs s uid op c o a n →
    (∀ p z d, o.kind ≠ .load a p z d) →
    let s1 := cacheAccess s c o
    let world := (c.who s .user).world
    let locs := addrLocs s c a n
    let old := natOfBytes (locs.map (readLoc s1 (world.map (·.2))))
    let bytes := match o.kind with
      | .store _ z v => bytesOf (sizeBytes z) v
      | .atom _ f w v _ _ => bytesOf (4 * widthWords w) (atomValue f (32 * widthWords w) old v)
      | .cas _ k cmp new _ _ => if old = cmp then bytesOf k new else []
      | _ => []
    let places := match o.kind with
      | .store _ _ _ => (List.range n).map fun j => if o.got.any fun x => x.1 == j then .nowhere else locs.getD j .nowhere
      | _ => locs
    let words := match o.kind with
      | .atom _ _ w _ _ _ => wordsOf (widthWords w) old
      | .cas _ k _ _ _ _ => wordsOf (k / 4) old
      | _ => []
    let preds := match o.kind with
      | .atom _ _ _ _ _ pd => predOut pd true
      | .cas _ _ cmp _ _ pd => predOut pd (old == cmp)
      | _ => []
    let stored := places.take bytes.length
    Stored (writeLocs s1 world places bytes) → sealsHold s1 c o.kind = true →
    (∀ l ∈ stored, ∀ q ∈ stored, l.inLine q = true → l.protected = q.protected) →
    ∃ t, exec (.memoryOpComplete uid op) s = .next t ∧ Performed s t uid c o words preds ∧
      (∀ i, i < stored.length → s.holds (stored.getD i .nowhere) →
        (∀ j, i < j → j < stored.length → (stored.getD j .nowhere).same (stored.getD i .nowhere) = false) →
        t.raw (stored.getD i .nowhere) = bytes.getD i 0#8) ∧
      (∀ q, (∀ l ∈ stored, l.same q = false ∧ (s1.unsealed world l ∨ l.inLine q = false)) → t.raw q = s1.raw q) ∧
      ((s.func (s.launchOf c).vf).logEn = false → s1.hbm = s.hbm) ∧ s1.host = s.host ∧ s1.vaults = s.vaults

/-- R309 to R312, R194, R199: maintenance operations and `fbar` complete once what they follow has been performed. R310: `cwb.mem` leaves no
dirty line of its range in L2 and keeps every line valid; `cinv.l1` takes the range's lines from its core's L1, and `cinv.l2` from L2 and every
L1. R311: `iinv` takes them from the instruction buffers of the cores within its scope, and from the gangs there, once none of these issues from
one. R309: a hint counts the pages that it drops in `HINTDROP`, which sticks at its top. No byte of HBM changes, since memory holds what is
written back (log entry 32). -/
def Obligations.MaintenancePerforms : Prop :=
  ∀ (s : State) (uid op : Nat) (c : Crew) (o : Op), Stored s → s.crew? uid = some c → c.op? op = some o → c.isResident = true →
    owing s uid 3 op = false → (∀ i ∈ o.after, ∀ p ∈ c.ops, p.id ≠ i) →
    (∀ k va len s1, o.kind = .maint k va len → performMaint s c o k va len = some s1 → Stored s1 →
      exec (.memoryOpComplete uid op) s = .next (endOp s1 uid o [] [])) ∧
    (o.kind = .fbar → exec (.memoryOpComplete uid op) s =
      .next (endOp (s.mapCrew uid fun c => c.mapGang o.gang fun g => { g with line := none, fbarPending := false }) uid o [] [])) ∧
    ∀ va len,
      let walked := rangeLines s c ((c.gang o.gang).lane (lowest o.lanes)).mode va len
      let u := walked.1
      let lines := walked.2.1
      let la := s.launchOf c
      let does := fun (k : Maint) (left : State → Prop) => o.kind = .maint k va len → Stored u →
        ∃ t, exec (.memoryOpComplete uid op) s = .next t ∧ t.hbm = s.hbm ∧ t.host = s.host ∧ left t
      let counts := fun (t : State) =>
        (t.ctxAt la.vf la.ctx).hintdrop.toNat = min ((s.ctxAt la.vf la.ctx).hintdrop.toNat + walked.2.2) (2 ^ 32 - 1)
      does .hintL2 counts ∧ does .hintL1 counts ∧ does .hintLru counts ∧
      does .cwbL2 (fun t => t.l2 = u.l2 ∧ t.l1 = s.l1) ∧
      does .cwbMem (fun t => t.l1 = s.l1 ∧ t.l2.map (·.line) = u.l2.map (·.line) ∧ (∀ e ∈ t.l2, e.line ∈ lines → e.dirty = false) ∧
        ∀ e, e.line ∉ lines → (e ∈ t.l2 ↔ e ∈ u.l2)) ∧
      does .cinvL1 (fun t => t.l2 = u.l2 ∧ t.l1 = s.l1.filter fun e => !(e.1 == c.coreOf && lines.contains e.2)) ∧
      does .cinvL2 (fun t => (∀ e, e ∈ t.l2 ↔ e ∈ u.l2 ∧ e.line ∉ lines) ∧ ∀ e, e ∈ t.l1 ↔ e ∈ s.l1 ∧ e.2 ∉ lines) ∧
      (stillIssuing s c o.scope lines = true → o.kind = .maint .iinv va len → exec (.memoryOpComplete uid op) s = .next s) ∧
      (stillIssuing s c o.scope lines = false → does .iinv fun t =>
        (∀ e, e ∈ t.ibuf ↔ e ∈ s.ibuf ∧ ¬(iinvCores c o.scope e.1 = true ∧ e.2.1 / 128 ∈ lines)) ∧
        ∀ d ∈ t.crews, d.isResident = true → iinvCores c o.scope d.coreOf = true → ∀ g ∈ d.gangs, g.linePa / 128 ∈ lines → g.line = none)

/-! Copies, tasks, queues and windows (R225 to R233, R246, R247, R252 to R265, R270 to R287, R407). -/

/-- R226, R228, R407: `copy` and `copy.f` complete at a switch point when a counter and a copy of the channel are free: the lowest-numbered
executing lane's registers describe the gang's slice, and the executing lanes count one operation. A slice of a cancelled copy is complete
at once. With no executing lane they only move on. -/
def Obligations.CopiesIssue : Prop :=
  ∀ (h : Hdr) (src : CopySrc) (win : Option (Fin 64)) (w : Fin 64) (chan : Fin 8) (a b : Opnd) (e : EngArg),
    let issues := fun (i : Instr) (src : Nat) (fab put : Bool) (win : Option Nat) =>
      let room := fun (x : Issue) => x.execs h ≠ 0#32 ∧ CountFree x h e.clause ∧ channelRoom (x.c.channel chan.val) x.k = true
      let slice := fun (s : State) (x : Issue) =>
        let l := lowest (x.execs h)
        ({ gang := x.k, op := x.c.nextOp, lanes := x.execs h, stream := e.clause.stream.val, scope := scopeCode e.scope, pc := x.e.pc
           src := src, fab := fab, put := put, win := win
           words := [readOpnd x.g s.draws l (Opnd.plus a 0), readOpnd x.g s.draws l (Opnd.plus a 1), readOpnd x.g s.draws l (Opnd.plus a 2)
                    , readOpnd x.g s.draws l (Opnd.plus a 3), readOpnd x.g s.draws l (Opnd.plus b 0), readOpnd x.g s.draws l (Opnd.plus b 1)]
           done := 0, empty := false } : Slice)
      SwitchesTo i h [(a, 4), (b, 2)] [] (fun _ x => x.execs h = 0#32) (fun s x => passed s x x.c) ∧
      SwitchesTo i h [(a, 4), (b, 2)] [] (fun _ x => room x ∧ joinsCancelled (x.c.channel chan.val) x.k = false)
        (fun s x => passed s x (contribute (x.c.addOp x.k s.draws x.e.pc (x.execs h) e.clause (scopeCode e.scope)
          (.copy chan.val ((x.c.channel chan.val).slices.getD x.k 0))) chan.val (slice s x))) ∧
      SwitchesTo i h [(a, 4), (b, 2)] [] (fun _ x => room x ∧ joinsCancelled (x.c.channel chan.val) x.k = true)
        (fun s x => passed s x (contribute x.c chan.val (slice s x)))
    issues (.copy h src win chan a b e) (copySrcCode src) false false (win.map (·.val)) ∧
    issues (.copyFGet h chan a b e) 0 true false none ∧ issues (.copyFGetw h w chan a b e) 0 true false (some w.val) ∧
    issues (.copyFPut h chan a b e) 0 true true none

/-- R229 to R231, R265: a formed copy begins when what its slices wait for is performed, a command entry is free and its slices show no
fault; where one does, a record is written and the crew ends. The model's choices, no rule of the spec: which faults a copy shows when it begins
(log entry 105), and a byte's destination bound before its source's (log entry 104). R402: a fabric slice keeps its module's ROUTE of then. Bytes are delivered one after another. A copy whose bytes are all delivered
completes: its windows are published and its operations end. -/
def Obligations.CopiesRun : Prop :=
  ∀ (s : State) (uid chan : Nat) (c : Crew), Stored s → s.crew? uid = some c → c.isResident = true →
    let shared := sharedFree s c.camp (chan % 2)
    (∀ x, owing s uid 0 chan = false → nextToBegin (c.channel chan) = some x → (∀ y ∈ x.slices, sliceReady c y = true) →
      (shared = true ∨ reserveFree s c (chan % 2) = true) →
      ((∀ y ∈ x.ordered, beginFault s c y = none) → exec (.copyBegin uid chan) s =
        .next (s.setCrew (c.mapChannel chan fun ch => ch.mapCopy x.seq fun x =>
          { x with begun := true, reserve := !shared, slices := x.slices.map fun y => if y.fab = true then
            { y with homed := y.module == s.fabid.toNat, route := sget 0#64 s.routes y.module } else y }))) ∧
      (∀ y f ys zs, x.ordered = ys ++ y :: zs → (∀ z ∈ ys, beginFault s c z = none) → beginFault s c y = some f →
        ringRoom s (c.ring s) 1 = true →
        let t := terminate (writeRecord s (c.ring s) (faultRecord c chan y f)) uid none
        Stored t → exec (.copyBegin uid chan) s = .next t)) ∧
    (∀ n x y s1 b, c.terminating = false → engineHeld s c 0 chan = false → nextSlice (c.channel chan) = some (x, y) →
      (y.fab = true → y.homed = false → usable s y.route = true) → moveByte s c chan y y.done = .ok s1 b →
      exec (.copyDelivery uid chan (n + 1)) s = exec (.copyDelivery uid chan n) (s1.mapCrew uid fun c => countByte c chan x.seq y.op)) ∧
    exec (.copyDelivery uid chan 0) s = .next s ∧
    (∀ x, completable s c chan = some x →
      exec (.copyComplete uid chan) s = .next (endCopy (x.windows.foldl (fun s w => publish s c.camp w) s) uid chan x))

/-- R229: a delivered byte of a copy into the scratchpad is the source's byte, and advances the channel's write-pointer by one; no other byte
that the source's read left changes, and no other channel's write-pointer. -/
def Obligations.DeliveredByteIsCopied : Prop :=
  ∀ (s s1 : State) (uid chan : Nat) (c : Crew) (x : Copy) (y : Slice) (b : Byte), s.crew? uid = some c → c.isResident = true →
    c.terminating = false → engineHeld s c 0 chan = false → chan < c.channels.length → nextSlice (c.channel chan) = some (x, y) →
    y.put = false → y.win = none → (y.fab = true → y.homed = false → usable s y.route = true) →
    y.near y.done < c.ssize → (∀ n, farBound s c y = some n → y.far y.done < n) → (y.fab = true → y.far y.done < 2 ^ 55) → readSlice s c chan y y.done = .ok s1 b → Stored s1 →
    ∃ t c', exec (.copyDelivery uid chan 1) s = .next t ∧ t.crew? uid = some c' ∧
      t.raw (.scratch uid (y.near y.done)) = b ∧ (∀ q, q ≠ .scratch uid (y.near y.done) → t.raw q = s1.raw q) ∧
      (c'.channel chan).wp = (c.channel chan).wp + 1#32 ∧ ∀ n, n ≠ chan → c'.channel n = c.channel n

/-- R247, R252, R254: `task.post` and `pubw` complete their issue when they are ready, no counter is exhausted and, for posts, the task table
and the camp's landing have room: the executing lanes count their operations. -/
def Obligations.PostsAndPublishesIssue : Prop :=
  ∀ (h : Hdr) (d a : Opnd) (win : Fin 64) (e : EngArg),
    SwitchesTo (.taskPost h d a e) h [(a, 1), (d, 1)] []
      (fun s x => CountFree x h e.clause ∧ (x.execs h).lanes.length ≤ x.c.freeTasks ∧
        landingUse s x.c.camp + (x.execs h).lanes.length ≤ 1024)
      (fun s x => passed s x (counted s x h e.clause (scopeCode e.scope)
        (writerKind x h d fun l => .taskPost (readWide x.g s.draws l a 1 / 128 * 128) d none))) ∧
    SwitchesTo (.pubw h win e) h [] [] (fun _ x => x.execs h = 0#32) (fun s x => passed s x x.c) ∧
    SwitchesTo (.pubw h win e) h [] [] (fun _ x => x.execs h ≠ 0#32 ∧ CountFree x h e.clause)
      (fun s x => passed s x (x.c.addOp x.k s.draws x.e.pc (x.execs h) e.clause (scopeCode e.scope) (.pubw win.val)))

/-- R246: publishing a window changes over its backing and advances its generation by one; no other window changes, and no byte of HBM or
host memory. -/
def Obligations.PublishChangesOver : Prop :=
  ∀ (s : State) (uid op win : Nat) (c : Crew) (o : Op) (w : Window), Stored s → s.crew? uid = some c → c.isResident = true →
    c.op? op = some o → owing s uid 3 op = false → o.kind = .pubw win → (∀ i ∈ o.after, ∀ p ∈ c.ops, p.id ≠ i) → c.window? s win = some w →
    windowBusy s c.launch c.camp win = false →
    ∃ t, exec (.memoryOpComplete uid op) s = .next t ∧ t.hbm = s.hbm ∧ t.host = s.host ∧ t.vaults = s.vaults ∧
      t.window? w.home w.entry = some { w with cur := !w.cur, gen := w.gen + 1#32 } ∧
      ∀ home entry, (home, entry) ≠ (w.home, w.entry) → t.window? home entry = s.window? home entry

/-- R252, R253, R288, R289: the landing receives a post that may be received: the task takes the lowest free entry, its next generation and
the lane its `tid`; a record that lies outside the scratchpad is refused with code 2, another with the code of its fault, and an accepted
one waits or is ready. -/
def Obligations.PostsAreReceived : Prop :=
  ∀ (s : State) (uid op off : Nat) (c : Crew) (o : Op) (d : Opnd), Stored s → s.crew? uid = some c → c.isResident = true →
    c.op? op = some o → owing s uid 3 op = false → o.kind = .taskPost off d none → mayReceive c o = true →
    let e := c.lowestTask
    let inside := decide (off + 128 ≤ c.ssize)
    let r := if inside then peekN c.scratch off 128 else List.replicate 128 0#8
    let code := if inside then refusal s c r else 2
    let t0 := newTask s (c.task e) o off r
    let c1 := writeBackOp c o [BitVec.ofNat 32 (t0.gen * 64 + e)] []
    let s1 := s.setCrew { c1.mapTask e fun _ => t0 with
      ops := c1.ops.map fun p => if p.id = o.id then { p with kind := .taskPost off d (some e) } else p }
    exec (.memoryOpComplete uid op) s = .next (if code = 0 then
      settleExit (s1.mapCrew uid fun c => c.mapTask e (Task.settle s.now)) uid else taskDone s1 uid e 1 code)

/-- R254, R261, R263, R265, R256: the landing issues the next ready task to a free engine, admits a working set's transfer within its
launch's bounds, delivers an admitted one that no other goes before (R264), and queues the record of a push. -/
def Obligations.LandingActs : Prop :=
  ∀ (s : State), Stored s →
    (∀ camp engine uid e c, engine < 6 → (if engine < 4 then millFree s camp engine else sharedFree s camp (engine - 4)) = true →
      nextTask s camp (decide (4 ≤ engine)) = some (uid, e) → s.crew? uid = some c →
      (otherPasses s c (c.task e) = false → kindBad s c (c.task e).record = false →
        exec (.taskIssue camp engine) s = .next (s.setCrew (c.mapTask e fun t => { t with state := .run, engine := engine }))) ∧
      (otherPasses s c (c.task e) = true → exec (.taskIssue camp engine) s = .next (taskDone s uid e 1 3))) ∧
    (∀ uid e w c, s.crew? uid = some c → c.isResident = true → c.terminating = false →
      let x := recWset (c.task e).record w
      (c.req = false → w < 2 → (c.task e).state ≠ .none → (c.task e).ws w = .waiting → sharedFree s c.camp (e % 2) = true →
        (x.tgt = 1 → exec (.stagingAdmit uid e w) s = .next (s.setCrew (c.mapTask e fun t =>
          t.setWs w (if stagingCharge s c.launch c.camp 1 + x.len ≤ (s.launchOf c).stbl2 then .moving 0 else .unused)))) ∧
        (x.tgt ≠ 1 → (c.task e).state = .wait → (crewOn s c.launch c.camp x.core).isSome = true →
          stagingCharge s c.launch c.camp 2 + x.len ≤ (s.launchOf c).stbsp →
          exec (.stagingAdmit uid e w) s = .next (s.setCrew (c.mapTask e fun t => t.setWs w (.moving 0))))) ∧
      (∀ j, (c.task e).ws w = .moving j → engineHeld s c 2 (2 * e + w) = false → stagingYields s c e w = false →
        (x.tgt = 1 → let t := (stageL2 s c x).mapCrew uid fun c => c.mapTask e fun t => t.setWs w .arrived
          Stored t → exec (.stagingArrive uid e w) s = .next t) ∧
        (x.tgt ≠ 1 → ∀ t, Delivers uid e w (x.len - j) s t → Stored t → exec (.stagingArrive uid e w) s =
          .next (t.mapCrew uid fun c => c.mapTask e fun k => Task.settle t.now (k.setWs w .arrived))))) ∧
    (∀ uid op c o r pd waiting, s.crew? uid = some c → c.op? op = some o → c.isResident = true → o.kind = .emit r pd waiting →
      pushReady c o = true →
      (queueAfter s c = none → exec (.emitPushHeld uid op) s = .next (endOp s uid o [] (predOut pd false))) ∧
      ∀ cap q, queueAfter s c = some cap → s.queue? c.launch c.camp c.stage = some q → q.recs.length < cap →
        exec (.emitPushHeld uid op) s =
          .next (endOp (s.mapQueue c.launch c.camp c.stage fun q => { q with recs := q.recs ++ [r] }) uid o [] (predOut pd true)))

/-- R272 to R276, R280 to R287: a mill's running task that meets no poison, and whose destination translates and can be published, completes:
what it has not written yet of its result is written, and the task is done; operand bytes that it read earlier count as they were then (R273). A
`stage` whose remaining bytes all move completes. -/
def Obligations.EngineTasksComplete : Prop :=
  ∀ (s : State) (uid e : Nat) (c : Crew), Stored s → s.crew? uid = some c → c.terminating = false → (c.task e).state = .run →
    let k := c.task e
    let r := k.record
    let out := millOut (withSeen s k) c r
    let rest := k.out.getD (out.rows.flatten, out.flags)
    let d := recDesc r 3
    let mill := fun (i : Instr) (kind : Nat) => recKind r = kind → engineHeld s c 1 e = false → (k.out = none → millPoison s c r = none) →
      destXlat s c e d rest.1 = .ok → publishWaits s c d = false → let t := completeTask (writeDests s c e d rest.1) c e rest.2
      Stored t → exec i s = .next t
    mill (.mmaF uid e) 1 ∧ mill (.mmaQ uid e) 2 ∧ mill (.hadam uid e) 3 ∧ mill (.tileQuant uid e) 4 ∧ mill (.xpose uid e) 5 ∧
    mill (.acc uid e) 6 ∧ mill (.fill uid e) 7 ∧
    (recKind r = 8 → ∀ t c', Stages uid e (recParam r 0 * recParam r 1 - k.moved) s t → t.crew? uid = some c' →
      publishWaits t c' (recDesc (c'.task e).record 3) = false → Stored (completeTask t c' e 0#6) →
      exec (.stage uid e) s = .next (completeTask t c' e 0#6))

/-- R253, R272, R274, R246: what a completed task leaves. A tile task with a scratchpad destination: the bytes of its result there, the
exception word where its record asks for one, its entry free with status OK, and every other stored byte as it was; a `stage` between the
scratchpads of two cores, the source's bytes in the same way. With a `.v` window as destination, its bytes in the window's shadow, and the window
then published; with a `.g` window, each byte at the PA that its backing translates to. -/
def Obligations.TileResultsWritten : Prop :=
  ∀ (s : State) (uid e : Nat) (c : Crew) (i : Instr) (kind : Nat), Stored s → s.crew? uid = some c → c.terminating = false →
    e < c.tasks.length → (c.task e).state = .run → engineHeld s c 1 e = false →
    let k := c.task e
    let r := k.record
    let out := millOut (withSeen s k) c r
    let rest := k.out.getD (out.rows.flatten, out.flags)
    let dest := recDesc r 3
    let word := fun (fl : Nat) => if bit (recFlags r) 7 then
        ((List.range 4).map fun n => (k.offset + 12 + n, (bytesOf 4 fl).getD n 0#8)).filter fun x => decide (x.1 < c.ssize)
      else []
    let ends := fun (i : Instr) (left : State → Prop) =>
      ∃ t c', exec i s = .next t ∧ t.crew? uid = some c' ∧ (c'.task e).state = .none ∧ (c'.task e).status = 0 ∧ left t
    let inScratch := fun (d : Crew) (tile : List (Nat × Byte)) (fl : Nat) (t : State) =>
      t.hbm = s.hbm ∧ t.host = s.host ∧ t.vaults = s.vaults ∧ t.windows = s.windows ∧
      ∀ u o, t.raw (.scratch u o) =
        lastWrite (if u = uid then word fl else []) o (lastWrite (if u = d.uid then tile.filter fun x => decide (x.1 < d.ssize) else []) o
          (s.raw (.scratch u o)))
    let published := fun (w : Window) (fl : Nat) (t : State) =>
      t.window? w.home w.entry = some { w with cur := !w.cur, gen := w.gen + 1#32 } ∧
      (∀ home entry, (home, entry) ≠ (w.home, w.entry) → t.window? home entry = s.window? home entry) ∧
      (∀ u o, t.raw (.scratch u o) = lastWrite (if u = uid then word fl else []) o (s.raw (.scratch u o)))
    ((i, kind) ∈ ([(.mmaF uid e, 1), (.mmaQ uid e, 2), (.hadam uid e, 3), (.tileQuant uid e, 4), (.xpose uid e, 5), (.acc uid e, 6)
        , (.fill uid e, 7)] : List (Instr × Nat)) →
      recKind r = kind → (k.out = none → millPoison s c r = none) → publishWaits s c dest = false →
      (∀ d, dest.space = 1 → crewOn s c.launch c.camp (dest.loc % 8) = some d → s.crew? d.uid = some d →
        ends i (inScratch d rest.1 rest.2.toNat)) ∧
      (∀ w, dest.space = 4 → c.window? s dest.loc = some w → w.glob = false → (s.vault? w.launch w.home).isSome = true →
        ends i fun t => published w rest.2.toNat t ∧ t.hbm = s.hbm ∧ t.host = s.host ∧
          ∀ o, t.raw (.vault w.launch w.home o) =
            lastWrite (rest.1.map fun x => (w.woff + x.1 + if w.cur then 0 else w.size, x.2)) o (s.raw (.vault w.launch w.home o))) ∧
      ∀ w bs o b v lf lfs, dest.space = 4 → c.window? s dest.loc = some w → w.glob = true → rest.1 = bs ++ [(o, b)] →
        destXlat s c e dest rest.1 = .ok → writeDest (writeDests s c e dest bs) c e dest o b = .ok v b → Stored v →
        (engineXlat (writeDests s c e dest bs) c (.engine uid 1 e o) true 1 (w.backing (!w.cur) (w.woff + o))).2 = .ok (lf :: lfs) →
        hbmHas lf.pa = true →
        ends i fun t => published w rest.2.toNat t ∧ t.host = s.host ∧ t.vaults = s.vaults ∧ t.raw (.phys lf.pa lf.prot false) = b) ∧
    ∀ f d, recKind r = 8 → (recDesc r 0).space = 1 → dest.space = 1 → crewOn s c.launch c.camp ((recDesc r 0).loc % 8) = some f →
      crewOn s c.launch c.camp (dest.loc % 8) = some d → s.crew? f.uid = some f → s.crew? d.uid = some d → f.uid ≠ d.uid → s.spoiled = [] →
      let js := (List.range (recParam r 0 * recParam r 1)).drop k.moved
      (∀ j ∈ js, stageFrom r j < (recDesc r 0).off + (recDesc r 0).len ∧ stageTo r j < dest.off + dest.len) →
      ends (.stage uid e) (inScratch d (js.map fun j =>
        (stageTo r j, if stageFrom r j < f.ssize then peek f.scratch (stageFrom r j) else 0#8)) 0)

/-! System instructions (R314 to R316, R322, R323, R382, R387, R389). -/

/-- R314 to R316, R322, R323, R382, R387, R389: each system instruction issues when it is ready, with the effect and the status of its table
in every executing lane, in lane order. The model's choices, no rule of the spec: `launch.run` writes its record into the host's ring and moves
its index as a doorbell would (log entry 72); a format range set with V = 0 keeps its other fields (log entry 33); an erased slot's worlds are
torn down as they stand (log entry 55); the order of the checks of `ctxload` (log entry 65); a poisoned line that the device reads counts as one
that does not translate (log entry 73); the VF that a hypervisor's `keyop` acts for (log entry 112). -/
def Obligations.SystemInstructionsIssue : Prop :=
  ∀ (h : Hdr) (d a b : Opnd) (force : Bool),
    let arg := fun (s : State) (x : Issue) (l : Nat) (o : Opnd) (n : Nat) => readWide x.g s.draws l o n
    let quiet := fun (n : Nat) (u : State) => ({ state := u, status := some n, wait := .ready } : SysOut)
    let tlb := fun (i : Instr) (uses : List (Opnd × Nat)) (sel : State → Issue → Launch → Nat → TlbSel) =>
      SysIssues i h .vz uses fun s x u l o =>
        o = { state := tlbDrop u (sel s x (u.launchOf x.c) l), status := none, wait := .tlbinv (tlbUses u (sel s x (u.launchOf x.c) l)) }
    let part := fun (i : Instr) (b : Opnd) (set : Bool) (f : State → Issue → Nat → Nat → SysOut) =>
      SysIssues i h d [(a, 1), (b, 1)] fun s x u l o =>
        let c := arg s x l a 1
        if c ≤ 15 ∧ ((x.g.lane l).mode = .hyper ∨ c = (u.launchOf x.c).desc.cls ∧ ¬(set = true ∧ c = 15)) then o = f u x c (arg s x l b 1)
        else o = quiet 0xFFFFFFFF u
    let key := fun (i : Instr) (f : State → Issue → Who → Nat → Nat → Nat → SysOut → Prop) =>
      SysIssues i h d [(a, 2), (b, 1)] fun s x u l o =>
        match keyVf u (u.launchOf x.c).vf (x.g.lane l).mode (arg s x l b 1) with
        | none => o = quiet 1 u
        | some vf => f u x (x.c.who u (x.g.lane l).mode) vf (arg s x l b 1) (arg s x l a 2) o
    tlb (.tlbinvVa h a b) [(a, 2), (b, 1)] (fun s x la l => .va la.vf la.ctx (arg s x l a 2) (arg s x l b 1)) ∧
    tlb (.tlbinvCtx h) [] (fun _ _ la _ => .ctx la.vf la.ctx) ∧
    tlb (.tlbinvGpa h a b) [(a, 2), (b, 1)] (fun s x la l => .gpa la.vf (arg s x l a 2) (arg s x l b 1)) ∧
    tlb (.tlbinvVf h) [] (fun _ _ la _ => .vf la.vf) ∧
    part (.l2partSet h d a b) b true (fun u x c v =>
      let t := x.c.tract
      let old := u.fillMask t c
      quiet old.toNat ((if c = 15 then leaveWays u t (old &&& ~~~(BitVec.ofNat 16 v)) else u).setFillMask t c (BitVec.ofNat 16 v))) ∧
    part (.l2partMask h d a) .vz false (fun u x c _ => quiet (u.fillMask x.c.tract c).toNat u) ∧
    part (.l2partOcc h d a b) b false (fun u x c v =>
      quiet (occupancy u (8 * x.c.tract + bits v 8 6) c (if bit v 5 then none else some (bits v 4 0))) u) ∧
    part (.l2partHit h d a b) b false (fun u x c v => quiet (sget 0#32 u.hits (16 * (8 * x.c.tract + bits v 8 6) + c)).toNat u) ∧
    part (.l2partMiss h d a b) b false (fun u x c v => quiet (sget 0#32 u.misses (16 * (8 * x.c.tract + bits v 8 6) + c)).toNat u) ∧
    part (.l2partClr h .clr d a b) b false (fun u x c _ => quiet 0 (clearCounts u x.c.tract c)) ∧
    (∀ m, m ≠ .clr → part (.l2partClr h m d a b) b false fun u _ _ _ => quiet 0xFFFFFFFF u) ∧
    SysIssues (.frmset h d a b) h d [(a, 2), (b, 1)] (fun s x u l o =>
      let n := arg s x l b 1
      let bs := laneRead u x.c (x.c.who u (x.g.lane l).mode) (arg s x l a 2) 32
      (127 < n → o = quiet 2 u) ∧ (n ≤ 127 → bs = none → o = quiet 3 u) ∧
      (n ≤ 127 → ∀ r, bs = some r →
        ((rangeFields r).v = false → o = { state := u, status := some 0, wait := .frmset n { u.range n with v := false } }) ∧
        ((rangeFields r).v = true → rangeBad (n / 16) r = true → o = quiet 1 u) ∧
        ((rangeFields r).v = true → rangeBad (n / 16) r = false → o = { state := u, status := some 0, wait := .frmset n (rangeFields r) }))) ∧
    key (.keyopLoad h d a b) (fun u x w vf slot va o =>
      ((u.func vf).tdisp ≠ .run → o = quiet 4 u) ∧ ((u.func vf).tdisp = .run → laneRead u x.c w va 96 = none → o = quiet 3 u) ∧
      ((u.func vf).tdisp = .run → ∀ blob, laneRead u x.c w va 96 = some blob →
        (Config.unwrapKey vf (u.func vf).session blob = none → o = quiet 2 u) ∧
        ∀ k, Config.unwrapKey vf (u.func vf).session blob = some k →
          o = quiet 0 { u with keySlots := (slot, k) :: u.keySlots.filter fun e => e.1 != slot })) ∧
    key (.keyopErase h d a b) (fun u _ _ _ slot _ o =>
      o = quiet 0 ((worldsOn u slot).foldl tearDown { u with keySlots := u.keySlots.filter fun e => e.1 != slot })) ∧
    key (.keyopAttest h d a b) (fun u x w vf slot va o =>
      ((u.func vf).tdisp ≠ .run → o = quiet 4 u) ∧ ((u.func vf).tdisp = .run → laneRead u x.c w va 64 = none → o = quiet 3 u) ∧
      ((u.func vf).tdisp = .run → ∀ nonce, laneRead u x.c w va 64 = some nonce →
        let r := Config.attestReport vf (u.func vf).tdisp.code u.firmware (sget 0 u.keySlots slot) (natOfBytes nonce)
        let stored := laneWrite u x.c w va ((List.range 512).map fun j => r.getD j 0#8)
        (stored = none → o = quiet 3 u) ∧ ∀ u', stored = some u' → o = quiet 0 u')) ∧
    SysIssues (.launchRun h d a b) h d [(a, 2), (b, 1)] (fun s x u l o =>
      let la := u.launchOf x.c
      let q := arg s x l b 1 % 8
      let bs := laneRead u x.c (x.c.who u (x.g.lane l).mode) (arg s x l a 2) 256
      let desc := (readDesc u la.vf la.ctx).getD la.desc
      let y := u.ctxAt la.vf la.ctx
      (bs = none → o = quiet 2 u) ∧
      ∀ r, bs = some r →
        let ids := fieldAt r 0xA4 4
        let mine := bits ids 5 0 = la.vf ∧ bits ids 31 16 = la.ctx
        (¬mine → o = quiet 3 u) ∧ (mine → 2 ^ desc.lqsz ≤ ringUsed y q → o = quiet 1 u) ∧
        (mine → ringUsed y q < 2 ^ desc.lqsz →
          o = quiet 0 (({ u with host := pokeN u.host (ringSlot desc q (y.lqProd.getD q 0)) r } : State).setCtx
            { y with desc := desc, lqProd := modifyNth y.lqProd q fun n => (n + 1) % 2 ^ 32 }))) ∧
    SysIssues (.launchAdm h d a) h d [(a, 2)] (fun s x u l o =>
      let la := u.launchOf x.c
      let mode := (x.g.lane l).mode
      let bs := laneRead u x.c (x.c.who u mode) (arg s x l a 2) 64
      (bs = none → o = quiet 2 u) ∧
      ∀ r, bs = some r →
        let room := requestsOf u la.vf < 16 * 2 ^ ((u.func la.vf).admq.toNat % 16)
        (fieldAt r 4 2 ≠ la.ctx → o = quiet 3 u) ∧ (fieldAt r 4 2 = la.ctx → ¬room → o = quiet 1 u) ∧
        (fieldAt r 4 2 = la.ctx → room → o = quiet 0 { u with
          admQueue := u.admQueue ++ [(x.c.tract, { vf := la.vf, words := requestWords r, priv := if mode = .hyper then .hyper else .super
                                                   desc := (readDesc u la.vf la.ctx).getD la.desc, bind := none, start := 0
                                                   pending := none, failed := false, result := none, behind := (u.func la.vf).admprod })] })) ∧
    SysIssues (.ctxsave h force d a b) h d [(a, 2), (b, 1)] (fun s x u l o =>
      let va := arg s x l a 2
      let core := arg s x l b 1
      let code := saveStatus u x.c (x.g.lane l).mode va core
      (code ≠ 0 → o = quiet code u) ∧
      (code = 0 → ∀ t, u.resident? core = some t →
        o = { state := takeSave u t.uid force va x.c.launch, status := some 0, wait := .ctxsave t.uid })) ∧
    SysIssues (.ctxload h d a b) h d [(a, 2), (b, 1)] (fun s x u l o =>
      let core := arg s x l b 1
      let code := loadStatus u x.c (x.g.lane l).mode (arg s x l a 2) core
      (code.1 ≠ 0 → o = quiet code.1 u) ∧
      (code.1 = 0 → ∀ y bs, code.2 = some (y, bs) → o = { state := resumeAt u y bs core, status := some 0, wait := .ctxload y.uid }))

/-- R314, R315, R316, R387, R389: what these instructions act on: `tlbinv` removes exactly the entries it selects, from the TLBs and from what
walks have read; a set mask is the one that later fills use, and no other class's or tract's mask changes; an erased slot holds nothing, and
every other slot what it held. A part of a system instruction completes when
what it waits for is over, and its lane then passes the instruction; a format range then takes its setting. -/
def Obligations.SystemInstructionsAct : Prop :=
  (∀ (s : State) (y : TlbSel) t, t ∈ (tlbDrop s y).tlbs ↔ t ∈ s.tlbs ∧ y.takes t.vf t.ctx t.vpage t.gpa = false) ∧
  (∀ (s : State) (y : TlbSel) x, x ∈ (tlbDrop s y).walks ↔ x ∈ s.walks ∧ y.takesEntry x.key = false) ∧
  (∀ (s : State) (slot : Nat), let t := (worldsOn s slot).foldl tearDown { s with keySlots := s.keySlots.filter fun e => e.1 != slot }
    (∀ e ∈ t.keySlots, e.1 ≠ slot) ∧ ∀ e, e.1 ≠ slot → (e ∈ t.keySlots ↔ e ∈ s.keySlots)) ∧
  (∀ (v c a : Nat) vpage gpage, (TlbSel.va v c a 0).takes v c vpage gpage = false ∧ (TlbSel.gpa v a 0).takes v c vpage gpage = false) ∧
  (∀ (s : State) (t c t' c' : Nat) (m : BitVec 16), c < 16 → c' < 16 →
    (s.setFillMask t c m).fillMask t' c' = if t' = t ∧ c' = c then m else s.fillMask t' c') ∧
  (∀ (s : State) (t c : Nat), let u := clearCounts s t c
    ∀ camp c', c < 16 → c' < 16 →
      sget 0#32 u.hits (16 * camp + c') = (if camp / 8 = t ∧ c' = c then 0#32 else sget 0#32 s.hits (16 * camp + c')) ∧
      sget 0#32 u.misses (16 * camp + c') = (if camp / 8 = t ∧ c' = c then 0#32 else sget 0#32 s.misses (16 * camp + c'))) ∧
  (∀ (s : State) (uid k l : Nat) (c : Crew) (w : SysWait), Stored s → s.crew? uid = some c →
    ((c.gang k).sys.find? fun w => w.lane == l && sysDone s w.kind) = some w →
    let u := match w.kind with
      | .frmset n v => { s with ranges := sins s.ranges n v }
      | _ => s
    exec (.systemInstructionComplete uid k l) s =
      .next (goOn (u.mapGang uid k fun g => { g with sys := g.sys.filter fun y => !(y == w) }) uid k (LaneMask.one l) false)) ∧
  ∀ (s : State) (n m : Nat) (v : FormatRange), ({ s with ranges := sins s.ranges n v } : State).range m = if m = n then v else s.range m

/-! Requests to the host and to other modules, links, and page requests (R295, R296, R330, R386, R401 to R406, R410). -/

/-- R386: how a host request of a crew ends. Done: its effect takes place and its lane takes the old value and predicate true. Failed: a
store is dropped without a record; a load gives ones, an atomic predicate false, and a notice is written. Poisoned: a load or an atomic
traps with cause 0x60. In each case but a trap the lane goes on at the next slot. -/
def Obligations.HostRequestsEnd : Prop :=
  ∀ (s : State) (uid op : Nat) (c : Crew) (o : Op) (a n : Nat), Stored s → s.crew? uid = some c → c.uid = uid → c.isResident = true →
    c.terminating = false → c.op? op = some o → o.kind.host? = some (a, n) → opReady s c o = true →
    ended s c o = false →
    let l := lowest o.lanes
    let r := effect s none (addrLocs s c (.host a) n) o.kind
    let goes := fun (u : State) words preds => remoteDone (endOp u uid o words preds) uid o
    let ends := fun (i : Instr) (t : State) => Stored t → exec i s = .next t
    ends (.hostCompletion uid op .ok) (goes r.st r.words (hostPreds o.kind)) ∧
    (∀ i ∈ ([.hostCompletion uid op .ur, .hostCompletion uid op .ca, .hostCompletion uid op .atsRefused, .hostCompletion uid op .poisoned
        , .hostCompletionTimeout uid op] : List Instr), ∀ x z v, o.kind = .store x z v → ends i (endOp s uid o [] [])) ∧
    (ringRoom s (c.ring s) 1 = true →
      (∀ x p z d, o.kind = .load x p z d →
        let fails := fun det0 => goes (writeRecord s (c.ring s) (hostRecord c o 0x51 a det0)) (List.replicate (sizeWords z) 0xFFFFFFFF#32) []
        ends (.hostCompletion uid op .ur) (fails 1) ∧ ends (.hostCompletion uid op .ca) (fails 2) ∧
        ends (.hostCompletion uid op .atsRefused) (fails 3) ∧ ends (.hostCompletionTimeout uid op) (fails 0)) ∧
      (∀ pd, (∃ x p w v d, o.kind = .atom x p w v d pd) ∨ (∃ x k y v d, o.kind = .cas x k y v d pd) →
        let fails := fun cause det0 => goes (writeRecord s (c.ring s) (hostRecord c o cause a det0)) [] (predOut pd false)
        ends (.hostCompletion uid op .ur) (fails 0x50 1) ∧ ends (.hostCompletion uid op .ca) (fails 0x50 2) ∧
        ends (.hostCompletion uid op .atsRefused) (fails 0x51 3) ∧ ends (.hostCompletionTimeout uid op) (fails 0x51 0)) ∧
      ∀ cause det0, let x := hostRecord c o cause a det0
        x.cause = cause ∧ x.sev = 0 ∧ x.lanes = o.lanes ∧ x.pc = o.pc ∧ x.addr = a ∧ x.det0 = det0 ∧ x.det1 = o.mod) ∧
    ((∀ x z v, o.kind ≠ .store x z v) → ends (.hostCompletion uid op .poisoned)
      (lateTrap s c o.gang o.id { lane := l, cause := 0x60, pc := o.pc, tpc := o.pc, addr := a, det0 := 0, det1 := 0 }))

/-- R402, R403, R405, R406, R408: how a request to another module ends. Answered: a load takes the bytes, an atomic the old value and its
predicate, and its lane goes on. A translation fault there traps the lane that waits with the fault's cause and the 64-bit address. No answer
within 10 ms: the access fails with link 0xFF and reason 2, its effect unknown but for a load, and its lane goes on. One that no link of the
ROUTE it began with can carry fails with link 0xFF and reason 0, its effect known. A copy in flight fails as a whole, and a translation fault at
its next byte ends the crew with sub-cause 4. -/
def Obligations.FabricRequestsEnd : Prop :=
  ∀ (s : State) (uid op : Nat) (c : Crew), Stored s → s.crew? uid = some c → c.uid = uid → c.isResident = true → c.terminating = false →
    (∀ o m va, c.op? op = some o → o.kind.fab? = some (m, va) → opReady s c o = true → ended s c o = false → sliceCopy c op = none →
      let l := lowest o.lanes
      let goes := fun (u : State) words preds => remoteDone (endOp u uid o words preds) uid o
      let lost := fun (reason : Nat) (unk : Bool) =>
        goes (writeRecord s (c.ring s) (fabricRecord c o.gang o.lanes o.pc m va 0xFF reason unk 0)) (failedWords o.kind) (failedPreds o.kind)
      (usable s o.route = false → ringRoom s (c.ring s) 1 = true → Stored (lost 0 false) →
        ∀ i ∈ ([.fabricTimeout uid op, .memoryOpComplete uid op] : List Instr), exec i s = .next (lost 0 false)) ∧
      (usable s o.route = true → ringRoom s (c.ring s) 1 = true → Stored (lost 2 o.kind.writes) →
        exec (.fabricTimeout uid op) s = .next (lost 2 o.kind.writes)) ∧
      (usable s o.route = true → ∀ data, let t := goes s (fabWords data o.kind) (fabPreds data o.kind)
        Stored t → exec (.fabricResponse uid op (.ok data)) s = .next t) ∧
      (usable s o.route = true → ((c.gang o.gang).sys.any fun w => w.kind == .remote o.id) = true → ∀ cause ∈ [0x20, 0x21, 0x22], ∀ det0,
        let t := lateTrap s c o.gang o.id
          { lane := l, cause := cause, pc := o.pc, tpc := o.pc, addr := m * 2 ^ 56 + va, det0 := det0, det1 := 0 }
        Stored t → exec (.fabricResponse uid op (.fault cause det0)) s = .next t)) ∧
    (∀ chan x y, sliceCopy c op = some (chan, x, y) → owing s uid 0 chan = false →
      let lose := x.ordered.filter fun y => decide (y.done < y.len)
      let lost := fun (reason : Nat) => stopCopy (writeRecords s (c.ring s) (lose.map fun y =>
        fabricRecord c y.gang y.lanes y.pc y.module (y.far y.done) 0xFF reason (y.put && reason != 0) y.done)) uid chan x
      let room := fun n => ringRoom s (c.ring s) n = true
      (usable s y.route = true → room lose.length → Stored (lost 2) → exec (.fabricTimeout uid op) s = .next (lost 2)) ∧
      (usable s y.route = false → room lose.length → Stored (lost 0) → exec (.fabricTimeout uid op) s = .next (lost 0)) ∧
      (usable s y.route = true → room 1 → ∀ cause det0,
        let t := terminate (writeRecord s (c.ring s) (faultRecord c chan y { sub := 4, addr := y.module * 2 ^ 56 + y.far y.done })) uid none
        Stored t → exec (.fabricResponse uid op (.fault cause det0)) s = .next t)) ∧
    (∀ data a p z d, fabWords data (.load a p z d) = extendLoad z data ∧ failedWords (.load a p z d) = List.replicate (sizeWords z) 0xFFFFFFFF#32) ∧
    ∀ data a k y v d pd, fabPreds data (.cas a k y v d pd) = predOut pd (data % 2 ^ (8 * k) == y) ∧ failedPreds (.cas a k y v d pd) = predOut pd false

/-- R401, R402, R410: a failed flit of a link that is up is counted, and nothing else changes. A link that goes down shows state 0 and FAILED,
and its requests and puts in flight end as its table says. Training starts only from down; a trained link comes up, and arrivals held for a
route are sent. Writing 1 to bit 2 of LINKST clears FAILED. -/
def Obligations.LinksChangeState : Prop :=
  ∀ (s : State) (k value : Nat) (l : Link), Stored s → s.links[k]? = some l →
    let put := fun (x : Link) => { s with links := s.links.set k x }
    exec (.flitCheckFail k) s = .next (if l.state = 2 then put { l with retries := l.retries + 1#32 } else s) ∧
    (l.state = 2 →
      let u := put { l with state := 0, failed := true }
      let t := (u.crews.filter fun c => c.isResident && !c.terminating).foldl (fun s c => dropPuts c.uid k (flying c) (dropRequests c.uid k c.ops s)) u
      Stored t → exec (.linkDown k) s = .next t) ∧
    (l.state ≠ 2 → exec (.linkDown k) s = .next s) ∧
    exec (.linkctl k value) s = .next (if value % 2 = 1 ∧ l.state = 0 then put { l with state := 1 } else s) ∧
    exec (.linkTrained k) s = .next (if l.state = 1 then resendHeld (put { l with state := 2 }) else s) ∧
    exec (.linkstFailedClear k value) s = .next (if value / 4 % 2 = 1 then put { l with failed := false } else s)

/-- R295, R296, R330: the oldest queued page request is sent while requests are on, none has failed and the host's allocation has room. A
success walks each joined access again, and lanes that then fault trap; an invalid response fails the joined accesses with code 1; a failure sets PRIFAIL, fails its own with
code 2, and fails requests not yet sent with code 0. Once a context's ring has room, its producers go on: one that has room for all that it
still has to tell writes its records, and what they tell then follows. -/
def Obligations.PageRequestsResolve : Prop :=
  ∀ (s : State) (vf prg : Nat), Stored s →
    let f := s.func vf
    (∀ r, f.reqs.find? (fun r => !r.sent) = some r → f.priOn = true → f.prifail = false → (f.reqs.filter fun r => r.sent).length < f.priAlloc →
      exec (.pageRequestSend vf) s = .next (s.mapFunc vf fun f =>
        { f with reqs := f.reqs.map fun x => if x.prg = r.prg then { x with sent := true } else x })) ∧
    (∀ r, f.reqs.find? (fun r => r.prg == prg && r.sent) = some r →
      let without := fun (u : State) n => u.mapFunc vf fun f => { f with reqs := f.reqs.filter fun r => r.prg != n }
      let fails := fun (u : State) (r : PageReq) code => failLanes (r.joined.eraseDups.foldl failJoiner (without u r.prg)) vf r.prg code
      let again := settleAllDue ((waitersOf s vf prg).foldl (fun u x => replayLane u x.1 x.2.1 x.2.2) (without s prg))
      (Stored again → exec (.pageResponseSuccess vf prg) s = .next again) ∧
      (Stored (fails s r 1) → exec (.pageResponseInvalid vf prg) s = .next (fails s r 1)) ∧
      let u := fails (s.mapFunc vf fun f => { f with prifail := true }) r 2
      let t := ((u.func vf).reqs.filter fun r => !r.sent).foldl (fun u r => fails u r 0) u
      Stored t → exec (.pageResponseFailure vf prg) s = .next t) ∧
    ∀ ctx l, (s.launches.find? fun l => l.vf == vf && l.ctx == ctx) = some l → ringRoom s l.ring 1 = true →
      let mine := s.ringWait.filter fun w => w.vf == vf && w.ctx == ctx
      let t := settleAllDue ((mine.filter fun w => !w.recs.isEmpty).foldl (fun s w => giveOwed s l.ring w)
        { s with ringWait := s.ringWait.filter fun w => !(w.vf == vf && w.ctx == ctx && w.recs.isEmpty) })
      (Stored t → exec (.trapRingRoom vf ctx) s = .next t) ∧
      ∀ w ∈ mine, ringRoom s l.ring w.recs.length = true → giveOwed s l.ring w =
        let told := { l.ring with vf := w.org.1, ctx := w.org.2.1, tenant := w.org.2.2 }
        let u := w.recs.foldl (fun s x => putRecord s l.ring (recordBytes told s.tick (x.now s w))) s
        w.fate.act { u with ringWait := u.ringWait.filter (· != w) } w.crew

/-! Crews (R85, R103, R212 to R214, R236, R237, R259, R262, R318, R320, R321, R327). -/

/-- R85, R212, R213: a crew of stage 0 that the landing dispatches goes to the lowest free core of the placement. It has its kernel's gangs,
each with its 32 lanes active at the kernel's entry PC, at depth 0, with registers, predicates, FPSTAT and counters zero and one frontier
entry; its scratchpad reads zero, its barriers are at phase 0 and its channels' write-pointers at 0. No other crew changes. The model's choice,
no rule of the spec: the lanes start in the mode of their kernel's code, where R85 says user mode (log entry 10). -/
def Obligations.DispatchedCrewsStart : Prop :=
  ∀ (s : State) (id core : Nat) (l : Launch) (k : Kern), Stored s → s.launch? id = some l → s.resident? core = none →
    mayPlace s l core = true → stageFor s l core = some 0 → (freeCores s l).head? = some core →
    launchKernel s l (nth0 l.stages 0) = some k → (∀ c ∈ s.crews, c.uid ≠ s.nextUid) →
    ∃ t c, exec (.crewPlace id core) s = .next t ∧ t.crews = s.crews ++ [c] ∧ c.uid = s.nextUid ∧ c.launch = l.id ∧ c.place = .core core ∧
      c.regs = k.regs ∧ c.ssize = k.scratch ∧ c.gangs.length = k.gangs ∧ c.barPhase = 0#16 ∧ c.garr = [] ∧ c.ops = [] ∧
      (∀ o, t.raw (.scratch c.uid o) = 0#8) ∧ (∀ n, (c.channel n).wp = 0#32 ∧ (c.channel n).copies = []) ∧
      ∀ j, j < k.gangs → (∀ r, sget 0#32 (c.gang j).g r = 0#32) ∧ (c.gang j).lanes.length = 32 ∧
        (∃ e, (c.gang j).frontier = [e] ∧ e.pc = k.pc ∧ e.mask = 0xFFFFFFFF#32 ∧ e.prio = prioEnter s l.vf l.ctx k.pc 0) ∧
        ∀ n, n < 32 → let x := (c.gang j).lane n
          x.run = .active ∧ x.mode = k.mode ∧ x.frames = [] ∧ x.fpstat = 0#6 ∧ (∀ q, x.reg q = 0#32) ∧ (∀ p, p < 15 → x.pred p = false) ∧
          ∀ st, x.cnt st = 0

/-- R103, R176, R212, R214, R236, R237, R259, R260, R262, R318, R320, R321, R327: the landing dispatches a crew of a later stage, asks the
holder of the oldest push to leave a full queue's way, and resumes a crew that it saved; a gang retires once its lanes have exited with their
counters at zero, and its crew with its last gang; a ready successor starts in place; quantum and deadline expire; and a crew at rest is
saved. The model's choices, no rule of the spec: whose core is kept for a later stage, and which full queue is served (log entry 52), and what a
successor starts with (log entry 49). -/
def Obligations.CrewsComeAndGo : Prop :=
  ∀ (s : State), Stored s →
    (∀ id core l k, s.launch? id = some l → s.resident? core = none → mayPlace s l core = true → stageFor s l core = some (k + 1) →
      tooLate s l (k + 1) (core / 8) = false → exec (.crewPlace id core) s = .next (dispatch s l (k + 1) core)) ∧
    (∀ id core l c k t, s.launch? id = some l → s.resident? core = some c → l.pipe = true → c.launch = id →
      pushHolder s l (core / 8) = some (c.uid, k) → leaveFor s l c.uid core k = t → Stored t → exec (.crewPlace id core) s = .next t) ∧
    (∀ uid core c va hd bs, s.crew? uid = some c → c.place = .saved false va → c.terminating = false → s.resident? core = none →
      let l := s.launchOf c
      let w := l.who (512 + core / 8)
      coreAllowed s l core = true → tractReady s core = true → campRoom s l (core / 8) = true → earlierSaved s c core = false → coopHolds s l core = false →
      stopHolds s l.vf = false → pledged s core none = false → (l.vf = 0 ∨ (s.func l.vf).vfshare ≠ 0#16) → deviceRead s w va 512 = some hd →
      deviceRead s w va (headerOf hd).lay.total = some bs → sizesOk c (headerOf bs) = true →
      let t := resumeAt (enterCamp (stopOver s l.vf) l (core / 8)) c bs core
      Stored t → exec (.crewResume uid core) s = .next t) ∧
    (∀ uid k c c1, s.crew? uid = some c → c.isResident = true → c.terminating = false → k < c.ngangs → gangOver (c.gang k) = true →
      let t := retireGang s c k
      t.crew? uid = some c1 →
      (c1.liveGangs ≠ [] → c.liveGangs ≠ [k] → exec (.gangRetire uid k) s = .next t) ∧
      (c1.liveGangs = [] → c.succSet = false → exec (.gangRetire uid k) s = .next (dropCrew (countRetired t c1.launch) uid)) ∧
      (c1.liveGangs = [] → (successorCheck s c = 0 ∨ ringRoom s (c.ring s) 1 = true) → Stored (retireCrew t c1) →
        exec (.gangRetire uid k) s = .next (retireCrew t c1))) ∧
    (∀ uid c core e k, s.crew? uid = some c → c.place = .core core → tidState c c.succ.toNat = .live e → c.noGang = true →
      c.terminating = false → c.req = false → (c.task e).state = .ready →
      let r := recParam (c.task e).record 0
      kernelAt s c r = some k →
      let n := newCrew s (s.launchOf c) c.stage c.crewid r core k []
      exec (.successorStart uid) s = .next { s with
        crews := s.crews.map fun x => if x.uid = uid then { n with alloc := c.alloc, scratch := c.scratch, named := some { c.task e with state := .run } } else x
        nextUid := s.nextUid + 1, draws := s.draws + 1 }) ∧
    (∀ uid c, s.crew? uid = some c → c.isResident = true → c.terminating = false →
      let l := s.launchOf c
      (c.req = false → c.slice + 8 * (s.ctxAt l.vf l.ctx).quantum.toNat ≤ s.now →
        (crewWaits s c.camp = true ∨ coreAllowed s l c.coreOf = false → ∀ t, requestPreempt s uid none = t → Stored t →
          exec (.quantumExpiry uid) s = .next t) ∧
        (crewWaits s c.camp = false → coreAllowed s l c.coreOf = true →
          exec (.quantumExpiry uid) s = .next (s.setCrew { c with slice := s.now }))) ∧
      (c.req = true → c.force = false → c.reqAt + c.count ≤ s.now → ∀ t, expire s c = some t → Stored t →
        exec (.deadlineExpiry uid) s = .next t) ∧
      (mayWrite s c = true → degrades s c = false → ∀ soft va w u, saveTarget s c = some (soft, va, w) →
        deviceWrite s w va (areaBytes s c (c.settled s.tick)) = some u → Stored u →
        ∃ t d, exec (.crewSave uid) s = .next t ∧ t.crew? uid = some d ∧ d.place = .saved soft va ∧ d.req = false ∧ d.force = false ∧
          t.hbm = u.hbm))

/-! Launches (R215, R376, R379, R380, R388, R390). -/

/-- R215, R376, R379, R380, R388, R390: a record that passes its checks is queued for placement, another is completed with status 1 and the
code of the first check it fails, and either way its index is taken; a launch completes when its crews have gone; a cancelled launch's crews
end; a page of a world whose lines fail their check writes two records and ends the world. -/
def Obligations.LaunchesRun : Prop :=
  ∀ (s : State), Stored s →
    (∀ vf ctx queue desc, readDesc s vf ctx = some desc → accepts s vf = true → queue < 8 → ringUsed (s.ctxAt vf ctx) queue ≠ 0 →
      let x := s.ctxAt vf ctx
      let l := launchAt s vf ctx queue (nth0 x.lqTaken queue) desc
      let u := s.setCtx { x with desc := desc, lqTaken := modifyNth x.lqTaken queue fun n => (n + 1) % 2 ^ 32 }
      (l.2 = 0 → exec (.launchTake vf ctx queue) s = .next { u with launches := u.launches ++ [l.1], nextLaunch := u.nextLaunch + 1 }) ∧
      (l.2 ≠ 0 → let t := writeCompletion u { l.1 with status := 1 } l.2
        Stored t → exec (.launchTake vf ctx queue) s = .next t)) ∧
    (∀ id l, s.launch? id = some l → l.done = false →
      (launchOver s l = true → Stored (endLaunch s l) → exec (.launchCompletion id) s = .next (endLaunch s l)) ∧
      (l.status = 0 → ∀ t, ((s.crews.filter fun c => c.launch == id).map (·.uid)).foldl (fun s u => terminate s u none)
          (s.mapLaunch id fun x => { x with status := 2 }) = t →
        Stored t → exec (.launchCancel id) s = .next t) ∧
      (∀ va u lf, l.world = true → translate s (l.who 576) 0 va = (u, .ok lf) → lf.prot = true → ringRoom s l.ring 1 = true →
        let bs := recordBytes l.ring s.tick (deviceRecord 0x23 2 va (lf.pa % 2 ^ 32) (lf.pa / 2 ^ 32))
        let s1 := putRecord s l.ring bs
        let t := tearDown (putRecord s1 (pfRing s1) bs) id
        ringRoom s1 (pfRing s1) 1 = true → Stored t → exec (.gcmCheckFail id va) s = .next t))

/-! The Grader (R335 to R337, R343, R359 to R361, R364 to R368). -/

/-- R335 to R337, R343, R361, R365 to R368: a Grader with nothing in hand takes its tract's next request, and checks it; its pages are then
pending, and the next walk accepts it, or rejects it with the first broken rule. A binding is graded as a request for its library's image, or
takes an image that the context has admitted. A release drops a handle that nothing uses. A graded binding's entry takes its target, or fails.
The model's choices, no rule of the spec: the two events of an admission, and which function is served first (log entry 78); the handle, which is
reserved as the pages become pending (log entry 95); and what a binding reuses, and that all parked lanes of the context go on when it completes
(log entry 87). -/
def Obligations.GraderActs : Prop :=
  ∀ (s : State) (tract : Nat), Stored s → graderReady s tract = true →
    let admits := fun (r : AdmReq) => r.bind.isSome || (r.op != 2 && r.op != 3)
    let checks := fun (i : Instr) (u : State) (r : AdmReq) (refused : State → Nat → State) =>
      let v := takeUp u tract r
      (∀ code, checkRequest v tract r = .refuse code → Stored (refused v code) → exec i s = .next (refused v code)) ∧
      ∀ im gs code consts, checkRequest v tract r = .pass im gs code consts →
        let t := takeUp { v with seals := v.seals ++ pendingPages r v.nextHandle im code consts, nextHandle := v.nextHandle + 1 } tract
          { r with pending := some v.nextHandle, start := v.tick, read := some (gs, im) }
        Stored t → exec i s = .next t
    let acts := fun (i : Instr) (mine : AdmReq → Bool) =>
      (∀ u r, inHand s tract = none → nextRequest s tract = some (u, r) → mine r = true → r.bind = none →
        checks i u r fun v code => writeAdmission (putDown v tract) tract r (AdmOut.plain 2 0 code 0)) ∧
      ∀ r h gs im, inHand s tract = some r → mine r = true → r.result = none → r.pending = some h → r.read = some (gs, im) →
        (∀ j, gradeImage im gs r.priv.band r.desc.bindcnt = .error j → Stored (rejectRequest s tract r h im j) →
          exec i s = .next (rejectRequest s tract r h im j)) ∧
        ∀ x, gradeImage im gs r.priv.band r.desc.bindcnt = .ok x → Stored (acceptRequest s tract r h im x) →
          exec i s = .next (acceptRequest s tract r h im x)
    (∀ u r b e, inHand s tract = none → nextRequest s tract = some (u, r) → r.bind = some b →
      deviceRead u (r.who tract) (r.desc.bindbase + 64 * b.index) 64 = some e →
      let q := { r with words := [1, r.word 1, fieldAt e 8 4, fieldAt e 12 4, 0, 0, fieldAt e 0x20 4, fieldAt e 0x24 4, fieldAt e 0x28 4
                                 , 0, 0, 0, 0, 0, 0, 0] }
      let known := u.images.find? fun i => i.vf == r.vf && i.ctx == r.ctx && i.header == q.image
      (∀ i, known = some i → let t := takeUp u tract { q with result := some (some i.handle, 0) }
        Stored t → exec (.graderWalk tract) s = .next t) ∧
      (known = none → checks (.graderWalk tract) u q fun v _ =>
        takeUp v tract { q with result := some (none, (Config.unstatedRule u.draws).toNat) })) ∧
    acts (.graderWalk tract) admits ∧ acts (.readmit tract) (fun r => r.bind.isNone && r.op == 2) ∧
    (∀ u r, inHand s tract = none → nextRequest s tract = some (u, r) → r.bind = none → r.op = 3 →
      (releaseRefusal u tract r = 0 →
        let t := writeAdmission { dropSeals u r.old with images := u.images.filter fun i => i.handle != r.old } tract r (AdmOut.plain 0 r.old 0 0)
        Stored t → exec (.release tract) s = .next t) ∧
      (releaseRefusal u tract r ≠ 0 → let t := writeAdmission u tract r (AdmOut.plain 2 0 (releaseRefusal u tract r) 0)
        Stored t → exec (.release tract) s = .next t)) ∧
    (∀ vf ctx index r b h e pc,
      (s.admWait.find? fun e => e.2.graded vf ctx index) = some (tract, r) →
      r.bind = some b →
      let w := r.who tract
      let va := r.desc.bindbase + 64 * b.index
      (r.result = some (some h, 0) → deviceRead s w va 64 = some e → bindTo s b h (fieldAt e 4 4) = .inl pc →
        let t := unpark (bindStore (bindTarget (putDown s tract) w va pc h) w va 4 2) r.vf r.ctx
        Stored t → exec (.bindingComplete vf ctx index) s = .next t) ∧
      ∀ rule, r.result = some (none, rule) → ringRoom s (r.ring tract) 1 = true →
        let t := unpark (writeRecord (bindStore (putDown s tract) w va 4 3) (r.ring tract) (deviceRecord 0x78 0 0 rule 0)) r.vf r.ctx
        Stored t → exec (.bindingComplete vf ctx index) s = .next t)

/-! The host's side: registers, doorbells, TDISP, resets, the debug port (R164, R295, R333, R334, R374, R375, R380, R389, R392 to R397). -/

/-- R295, R374, R375, R380, R389, R394 to R397, R402: each write of the host's takes effect where its rule says and changes nothing else: the
doorbells, LOGCTL, the control block, every other register of either page, memory from outside, a unit's readiness, a health figure, a firmware
image; a write of an offset that is not listed changes nothing. And what every register reads as; one that is write-only or not listed reads as
zero, and so does each register of a page that does not answer. The model's choices, no rule of the spec: what STOP asks of the VF's crews (log
entry 57), inbound writes that find no storage (log entry 59), and what FSTAT.ERROR reads and that such a page reads zero (log entry 116). -/
def Obligations.HostWritesTakeEffect : Prop :=
  ∀ (s : State) (vf value : Nat), Stored s →
    let listed := fun off => (∃ v, 1 ≤ v ∧ v < 64 ∧ off = 0x1000 + 128 * v + 0x20) ∨ (∃ t, t < 8 ∧ off = 0x4400 + 8 * t) ∨ off = 0x5000 ∨
      (∃ m, m < 256 ∧ off = 0x5800 + 8 * m) ∨ ∃ n, n < 256 ∧ off = 0x6000 + 8 * n
    let vfOf := fun (f : Func → Func) => Host.Outcome.next (φ := Fault) (ρ := Refusal) (s.mapFunc vf f)
    (answers s vf = true →
      exec (.admprod vf value) s = vfOf (fun f => { f with admprod := value % 2 ^ 32 }) ∧
      (value % 2 = 1 → exec (.priclr vf value) s = vfOf fun f => { f with prifail := false }) ∧
      exec (.registerWrite vf 0x008 value) s = vfOf (fun f => { f with ctxtbl := BitVec.ofNat 64 value }) ∧
      exec (.registerWrite vf 0x010 value) s = vfOf (fun f => { f with admq := BitVec.ofNat 64 (bits value 63 12 * 2 ^ 12 + value % 16) }) ∧
      (∀ off, off ≠ 0x008 → off ≠ 0x010 → ¬(vf = 0 ∧ listed off) → exec (.registerWrite vf off value) s = .next s) ∧
      (accepts s vf = true → ∀ d, let ctx := value % 2 ^ 16
        let q := value / 2 ^ 16 % 8
        let prod := value / 2 ^ 32 % 2 ^ 32
        let x := s.ctxAt vf ctx
        readDesc s vf ctx = some d →
        exec (.lqdb vf value) s = .next (if (prod + 2 ^ 32 - nth0 x.lqTaken q) % 2 ^ 32 ≤ 2 ^ d.lqsz then
          s.setCtx { x with desc := d, lqProd := modifyNth x.lqProd q fun _ => prod } else s))) ∧
    (answers s vf = false → ∀ off, exec (.admprod vf value) s = .next s ∧ exec (.priclr vf value) s = .next s ∧
      exec (.lqdb vf value) s = .next s ∧ exec (.registerWrite vf off value) s = .next s) ∧
    (answers s 0 = true →
      (∀ v, 1 ≤ v → v < 64 → exec (.registerWrite 0 (0x1000 + 128 * v + 0x20) value) s = .next (s.mapFunc v fun f =>
        { f with logbase := BitVec.ofNat 64 (bits value 51 12 * 2 ^ 12 + value % 16) })) ∧
      (∀ t, t < 8 → exec (.registerWrite 0 (0x4400 + 8 * t) value) s =
        .next (if 100 ≤ value % 2 ^ 16 ∧ value % 2 ^ 16 ≤ 600 then { s with power := sput 400#16 s.power t (BitVec.ofNat 16 value) } else s)) ∧
      exec (.registerWrite 0 0x5000 value) s = .next (resendHeld { s with fabid := BitVec.ofNat 8 value }) ∧
      (∀ m, m < 256 → exec (.registerWrite 0 (0x5800 + 8 * m) value) s = .next (resendHeld { s with
        routes := sput 0#64 s.routes m (BitVec.ofNat 64 (bits value 63 63 * 2 ^ 63 + bits value 17 0)) })) ∧
      ∀ g n, g < 64 → n < 4 → ∃ t, exec (.registerWrite 0 (0x6000 + 32 * g + 8 * n) value) s = .next t ∧
        (∀ k, sget 0#64 t.fgrp k = if k = 4 * g + n then BitVec.ofNat 64 value else sget 0#64 s.fgrp k) ∧
        (∀ b, (t.endpoint b).phase = (s.endpoint b).phase ∧ (t.endpoint b).crews = (s.endpoint b).crews) ∧
        (∀ l ∈ s.launches, l.begun = true → l.done = false → ∀ m, m < 64 → l.fbar.getLsbD m = true →
          barGroup t (.fabric l.ctx l.fgroup m) = barGroup s (.fabric l.ctx l.fgroup m)) ∧
        { t with fgrp := s.fgrp, strings := s.strings } = s) ∧
    (let f := s.func vf
      let state := fun (x : Tdisp) => match x with
        | .unlocked => 0
        | .locked => 1
        | .run => 2
        | .error => 3
      (answers s vf = false → ∀ off, hostRead s vf off = 0) ∧
      (answers s vf = true →
        hostRead s vf 0 = f.ready.toNat + 2 * f.err.toNat +
          4 * (if f.vf = 0 then 0 else state f.tdisp) + 16 * f.prifail.toNat + 32 * f.quiesced.toNat ∧
        hostRead s vf 0x008 = f.ctxtbl.toNat ∧ hostRead s vf 0x010 = f.admq.toNat ∧ hostRead s vf 0x020 = f.admcons ∧
        (∀ off ∈ [0x018, 0x028, 0x030], hostRead s vf off = 0) ∧ (∀ off, off % 8 ≠ 0 ∨ vf ≠ 0 ∧ 0x038 ≤ off → hostRead s vf off = 0)) ∧
      (answers s 0 = true →
        (1 ≤ vf → vf < 64 → let at_ := fun off => hostRead s 0 (0x1000 + 128 * vf + off)
          at_ 0x00 = f.vfshare.toNat ∧ at_ 0x08 = f.part.toNat ∧ at_ 0x10 = f.s2root ∧ at_ 0x18 = f.keys.toNat ∧ at_ 0x20 = f.logbase.toNat ∧
          at_ 0x28 = f.logEn.toNat + 2 * f.logOvf.toNat + 4 * f.logAll.toNat + 8 * (stopHolds s vf).toNat ∧ at_ 0x30 = f.logprod.toNat) ∧
        hostRead s 0 0x4000 = s.readymap.toNat % 2 ^ 64 ∧ hostRead s 0 0x4008 = s.readymap.toNat / 2 ^ 64 ∧
        (∀ n, n < 21 → hostRead s 0 (0x4100 + 8 * n) = (s.healthOf (2 * n)).toNat + 2 ^ 32 * (s.healthOf (2 * n + 1)).toNat) ∧
        (∀ t, t < 8 → hostRead s 0 (0x4400 + 8 * t) = (s.powerLimit t).toNat) ∧ hostRead s 0 0x5000 = s.fabid.toNat ∧
        (∀ k x, k < 18 → s.links[k]? = some x → hostRead s 0 (0x5100 + 8 * k) = x.state + 4 * x.failed.toNat + 2 ^ 32 * x.retries.toNat ∧
          hostRead s 0 (0x5200 + 8 * k) = 0) ∧
        (∀ m, m < 256 → hostRead s 0 (0x5800 + 8 * m) = (sget 0#64 s.routes m).toNat) ∧
        ∀ n, n < 256 → hostRead s 0 (0x6000 + 8 * n) = (sget 0#64 s.fgrp n).toNat)) ∧
    (answers s 0 = true → 1 ≤ vf → vf < 64 →
      exec (.logctlEn vf value) s = vfOf (fun f => { f with logEn := bit value 0, logSince := if bit value 0 && !f.logEn then 0 else f.logSince }) ∧
      exec (.logctlOvfClear vf value) s = vfOf (fun f => if bit value 1 then { f with logOvf := false, logSince := 0 } else f) ∧
      exec (.logctlAlldirtyClear vf value) s = vfOf (fun f => if bit value 2 then { f with logAll := false } else f) ∧
      (bit value 3 = true → ∀ t, ((crewsOf s vf).filter fun c => c.isResident && !c.terminating).foldl (fun s c => requestPreempt s c.uid none)
          (s.mapFunc vf fun f => { f with logStop := true }) = t → Stored t → exec (.logctlStop vf value) s = .next t) ∧
      (guarded s vf = false →
        exec (.vfControlWrite vf .vfshare value) s = vfOf (fun f => { f with vfshare := BitVec.ofNat 16 value }) ∧
        exec (.vfControlWrite vf .part value) s = vfOf (fun f => { f with part := BitVec.ofNat 64 value }) ∧
        exec (.vfControlWrite vf .s2root value) s = vfOf (fun f => { f with s2root := bits value 51 15 * 2 ^ 15 }) ∧
        exec (.vfControlWrite vf .keys value) s = vfOf fun f => { f with keys := BitVec.ofNat 21 (bits value 9 0 + bits value 20 16 * 2 ^ 16) }) ∧
      (guarded s vf = true → ∀ r, Stored (enterError s vf) → exec (.vfControlWrite vf r value) s = .next (enterError s vf))) ∧
    (∀ pa bs t, (bs.zip (paRange pa bs.length)).foldl (fun s x =>
        if hbmHas x.2 && (aliasAt s x.2).isNone && !pageSealed s x.2 true && !pageSealed s x.2 false then
          l1Drop (writeByte s none x.2 x.1) (x.2 / 128)
        else s) s = t → Stored t → exec (.hostInboundWrite pa bs) s = .next t) ∧
    (∀ unit, unit < 98 → ∃ t, exec (.unitReady unit) s = .next t ∧ t.readymap = s.readymap ||| (1#98 <<< unit) ∧
      (unit < 64 → unit < s.funcs.length → (t.func unit).ready = true) ∧ t.hbm = s.hbm ∧ t.crews = s.crews) ∧
    (∀ item, item < 42 → exec (.healthPredictionUpdate item value) s =
      .next { s with health := sput 0xFFFFFFFF#32 s.health item (BitVec.ofNat 32 value) }) ∧
    ∀ image, exec (.firmwareImageLoad image) s =
      .next (if Config.firmwareSigned image then { s with firmware := Config.firmwareMeasure image } else s)

/-- R392, R393: the TDISP machine of a ready VF moves as its table says, and in no other way; and a function-level reset whose crews have
no operation left ends with FSTAT.QUIESCED set, no crew of the VF, no key slot of it, and a locked or running VF in ERROR. The model's choices,
no rule of the spec: a session's number, which rises by one at each start (log entry 96); what the steps of the reset order do beside that (log
entry 56); and FSTAT.ERROR, which is set as a VF enters ERROR and cleared as it leaves it (log entry 116). -/
def Obligations.TdispTransitions : Prop :=
  ∀ (s : State) (vf : Nat), Stored s → 1 ≤ vf → vf < 64 → (s.func vf).ready = true →
    let state := (s.func vf).tdisp
    let goes := fun (x : Tdisp) => Host.Outcome.next (φ := Fault) (ρ := Refusal) (s.mapFunc vf fun f => { f with tdisp := x })
    (state = .unlocked → (s.func vf).resetting = false → exec (.lockInterfaceRequest vf) s = goes .locked) ∧
    (state ≠ .unlocked → exec (.lockInterfaceRequest vf) s = .next s) ∧
    (state = .locked → (s.func vf).resetting = false → exec (.startInterfaceRequest vf) s =
      .next (s.mapFunc vf fun f => { f with tdisp := .run, session := f.session + 1 })) ∧
    (state ≠ .locked → exec (.startInterfaceRequest vf) s = .next s) ∧
    (state = .error → exec (.stopInterfaceRequest vf) s = .next
      (if (s.func vf).quiesced then s.mapFunc vf fun f => { f with tdisp := .unlocked, err := false } else s)) ∧
    (state = .unlocked → exec (.stopInterfaceRequest vf) s = .next s) ∧
    (state = .unlocked ∨ state = .error → exec (.ideStreamFailure vf) s = .next s) ∧
    (state = .locked ∨ state = .run → Stored (enterError s vf) →
      exec (.stopInterfaceRequest vf) s = .next (enterError s vf) ∧ exec (.ideStreamFailure vf) s = .next (enterError s vf)) ∧
    (Stored (resetOrder s vf) → exec (.functionLevelReset vf) s = .next (resetOrder s vf)) ∧
    ((s.func vf).resetting = true → resetWaits s vf = false → vf < s.funcs.length →
      let t := resetOrder s vf
      (t.func vf).quiesced = true ∧ (t.func vf).resetting = false ∧ (t.func vf).err = decide (state ≠ .unlocked) ∧ (t.func vf).tdisp = (if state = .unlocked then .unlocked else .error) ∧
      (∀ e ∈ t.keySlots, ownsSlot s vf e.1 = false) ∧ ∀ c ∈ t.crews, (s.launchOf c).vf ≠ vf)

/-- R164, R333, R334, R375: the debug port on a gang of a resident crew whose VF is not guarded: STOP asks the gang to stop, RESUME lets a
stopped gang go on past a `brk`, READ gives an item's value and whether a load in flight will write it, WRITE changes the item of a stopped
gang and drops the write-back of a load in flight to it. On a guarded VF each is dropped and the VF enters ERROR. A READ changes no other
state. -/
def Obligations.DebugActs : Prop :=
  ∀ (s : State) (core k : Nat) (item : DbgItem) (value : Nat) (c : Crew), Stored s → s.resident? core = some c → k < c.ngangs →
    let g := c.gang k
    let vf := (s.launchOf c).vf
    (guarded s vf = false →
      (g.retired = false → g.stopped = false → exec (.debugStop core k) s = .next (s.setCrew (c.setGang k { g with stopReq := true }))) ∧
      (g.stopped = true → exec (.debugResume core k) s = .next (s.setCrew (c.setGang k
        { g with stopReq := false, stopped := false, frontier := pastBreak s c g, stoppedAt := 0#32, chosen := false }))) ∧
      (g.stopped = false → exec (.debugResume core k) s = .next (s.setCrew (c.setGang k { g with stopReq := false }))) ∧
      exec (.debugRead core k item) s = .next { s with dbgValue := readItem g item, dbgPending := c.ops.any (inFlight k item) } ∧
      (g.stopped = false → exec (.debugWrite core k item value) s = .next s) ∧
      (g.stopped = true → g.retired = false → itemLane item < 32 →
        let d := c.setGang k (writeItem s c g item value)
        exec (.debugWrite core k item value) s =
          .next (s.setCrew { d with ops := d.ops.map fun o => if inFlight k item o then { o with dropped := true } else o }))) ∧
    (guarded s vf = true → Stored (enterError s vf) → ∀ i ∈ ([.debugStop core k, .debugResume core k, .debugRead core k item
      , .debugWrite core k item value] : List Instr), exec i s = .next (enterError s vf))

/-! Values (R27, R111, R119, R120, R223). -/

/-- R119, R120: `lop3` completes with each bit of its result taken from the table, and the shifts complete with each element shifted or
rotated; a count of the width or more leaves 0, for `sar` the sign, and rotates by its remainder. -/
def Obligations.ShiftsAndTableLogic : Prop :=
  ∀ (h : Hdr) (t : ElTy) (d a e c : Opnd) (b : SrcB) (table : BitVec 8),
    let n := ElTy.words t
    let w := ElTy.w t
    let count := [(d, n), (a, n)] ++ useB 1 b
    ComputesLanes (.lop3 h t d a e c table) h d [(d, n), (a, n), (e, n), (c, n)] []
      (fun _ _ rd => LaneOut.val n (intLop3 t (rd a n) (rd e n) (rd c n) table) 0#6) ∧
    ComputesLanes (.shl h t d a b) h d count [] (fun _ _ rd => LaneOut.val n (intShl t (rd a n) (srcB32 rd b)) 0#6) ∧
    ComputesLanes (.shr h t d a b) h d count [] (fun _ _ rd => LaneOut.val n (intShr t (rd a n) (srcB32 rd b)) 0#6) ∧
    ComputesLanes (.sar h t d a b) h d count [] (fun _ _ rd => LaneOut.val n (intSar t (rd a n) (srcB32 rd b)) 0#6) ∧
    ComputesLanes (.rot h t d a b) h d count [] (fun _ _ rd => LaneOut.val n (intRot t (rd a n) (srcB32 rd b)) 0#6) ∧
    (∀ x y z, intLop3 t x y z table < 2 ^ w ∧ ∀ j, j < w → (intLop3 t x y z table).testBit j =
      table.toNat.testBit ((x.testBit j).toNat + 2 * (y.testBit j).toNat + 4 * (z.testBit j).toNat)) ∧
    ∀ x s,
      (∀ i, i < ElTy.k t →
        let old := x / 2 ^ (w * i) % 2 ^ w
        intShl t x s / 2 ^ (w * i) % 2 ^ w = (if s < w then old * 2 ^ s % 2 ^ w else 0) ∧
        intShr t x s / 2 ^ (w * i) % 2 ^ w = (if s < w then old / 2 ^ s else 0) ∧
        intSar t x s / 2 ^ (w * i) % 2 ^ w = ((BitVec.ofNat w old).sshiftRight s).toNat) ∧
      (ElTy.k t = 1 → intRot t x s = ((BitVec.ofNat w x).rotateLeft s).toNat) ∧
      intShl t x s < 2 ^ (w * ElTy.k t) ∧ intShr t x s < 2 ^ (w * ElTy.k t) ∧ intSar t x s < 2 ^ (w * ElTy.k t)

/-- R27, R111 to R118, R121 to R126, R223: what the functions of the arithmetic statements give. Element `i` of an element-wise result is the
operation on elements `i`, wrapped, and nothing lies above the last element; a saturating result is clipped to its type and raises SI exactly
where clipping changed it; an element reads with its type's sign; carries, products, comparisons, sums of differences, dot products,
addresses, logic, bit fields, counts and selections are those of their rules; and an atomic's new value is its operation's, `fadd` as the sum
of `FloatingPointValues`. -/
def Obligations.ElementValues : Prop :=
  (∀ (t : ElTy) (f : Nat → Int), mapEls t f < 2 ^ (ElTy.w t * ElTy.k t) ∧ ∀ i, i < ElTy.k t →
    ((mapEls t f / 2 ^ (ElTy.w t * i) % 2 ^ ElTy.w t : Nat) : Int) = f i % 2 ^ ElTy.w t) ∧
  (∀ (t : ElTy) (f : Int → Int → Int) (x y i : Nat), i < ElTy.k t →
    ((intEw t f x y / 2 ^ (ElTy.w t * i) % 2 ^ ElTy.w t : Nat) : Int) = f (el t x i) (el t y i) % 2 ^ ElTy.w t) ∧
  (∀ (t : ElTy) (f : Int → Int → Int) (x y i : Nat), i < ElTy.k t →
    let lo : Int := if ElTy.sg t then -(2 ^ (ElTy.w t - 1)) else 0
    let hi : Int := if ElTy.sg t then 2 ^ (ElTy.w t - 1) - 1 else 2 ^ ElTy.w t - 1
    el t (intSat t f x y).1 i = min hi (max lo (f (el t x i) (el t y i)))) ∧
  (∀ (t : ElTy) (f : Int → Int → Int) (x y : Nat), (intSat t f x y).2 =
    if ∃ i, i < ElTy.k t ∧ el t (intSat t f x y).1 i ≠ f (el t x i) (el t y i) then 32#6 else 0#6) ∧
  (∀ (t : ElTy) (x i : Nat), el t x i = let v := x / 2 ^ (ElTy.w t * i) % 2 ^ ElTy.w t
    if ElTy.sg t = true ∧ 2 ^ (ElTy.w t - 1) ≤ v then (v : Int) - 2 ^ ElTy.w t else v) ∧
  -- R114, R124: products, and selection, element by element.
  (∀ (t : ElTy) (x y z i : Nat), i < ElTy.k t →
    let at_ := fun (r : Nat) => r / 2 ^ (ElTy.w t * i) % 2 ^ ElTy.w t
    let a := el t x i
    let b := el t y i
    let top := Int.fdiv (a * b) (2 ^ ElTy.w t)
    (at_ (intMul t x y) : Int) = a * b % 2 ^ ElTy.w t ∧ (at_ (intMulh t x y) : Int) = top % 2 ^ ElTy.w t ∧
    (at_ (intMad t x y z) : Int) = (a * b + el t z i) % 2 ^ ElTy.w t ∧ (at_ (intMadh t x y z) : Int) = (top + el t z i) % 2 ^ ElTy.w t ∧
    at_ (intSel t x y z) = if at_ z ≠ 0 then at_ x else at_ y) ∧
  -- R113: a sum with its carry, and a difference with its borrow.
  (∀ (t : ElTy) (x y : Nat) (ci : Bool), let m := 2 ^ ElTy.w t
    ElTy.k t = 1 → x < m → y < m →
    intAddc t x y ci = ((x + y + ci.toNat) % m, decide (m ≤ x + y + ci.toNat)) ∧
    intSubb t x y ci = ((x + m - y + m - ci.toNat) % m, decide (x < y + ci.toNat))) ∧
  -- R115, R116: sums of differences, and of products.
  (∀ (t : ElTy) (xs : Bool) (x y z : Nat),
    let k := List.range (ElTy.k t)
    let other := match t with
      | .i8x4 => ElTy.n8x4
      | _ => .i8x4
    intSad t x y z = ((k.map fun i => (el t x i - el t y i).natAbs).sum + z) % 2 ^ 32 ∧
    (ElTy.k t = 4 → (intDp4 t xs x y z : Int) =
      ((k.map fun i => el t x i * el (if xs then other else t) y i).sum + (z % 2 ^ 32 : Nat)) % 2 ^ 32)) ∧
  -- R117: comparisons.
  (∀ (t : ElTy) (cc : CmpCC) (x y : Nat),
    let holds := fun i => match cc with
      | .eq => el t x i = el t y i
      | .ne => el t x i ≠ el t y i
      | .lt => el t x i < el t y i
      | .le => el t x i ≤ el t y i
      | .gt => el t y i < el t x i
      | .ge => el t y i ≤ el t x i
    ((intCmp t cc x y).2 = true ↔ ∃ i, i < ElTy.k t ∧ holds i) ∧ (intCmp t cc x y).1 < 2 ^ (ElTy.w t * ElTy.k t) ∧
    ∀ i, i < ElTy.k t → (holds i → (intCmp t cc x y).1 / 2 ^ (ElTy.w t * i) % 2 ^ ElTy.w t =
        if ElTy.k t = 1 then 1 else 2 ^ ElTy.w t - 1) ∧
      (¬ holds i → (intCmp t cc x y).1 / 2 ^ (ElTy.w t * i) % 2 ^ ElTy.w t = 0)) ∧
  -- R118, R121, R122, R123: logic, bit fields and counts, bit by bit.
  (∀ (t : ElTy) (x y z j : Nat), let w := ElTy.w t
    let pos := y % 256
    let len := min (y / 256 % 256) w
    let src := fun (p : Nat) => if p < w then x.testBit p else ElTy.sg t && x.testBit (w - 1)
    (intAnd t x y).testBit j = (decide (j < w) && (x.testBit j && y.testBit j)) ∧
    (intOr t x y).testBit j = (decide (j < w) && (x.testBit j || y.testBit j)) ∧
    (intXor t x y).testBit j = (decide (j < w) && (x.testBit j ^^ y.testBit j)) ∧
    (intAndn t x y).testBit j = (decide (j < w) && (x.testBit j && !y.testBit j)) ∧
    (intNot t x).testBit j = (decide (j < w) && !x.testBit j) ∧
    (ElTy.k t = 1 → (intBfx t x y).testBit j = (decide (j < w) &&
      (if j < len then src (pos + j) else ElTy.sg t && decide (0 < len) && src (pos + len - 1)))) ∧
    (intBfi t x y z).testBit j = (decide (j < w) && (if pos ≤ j ∧ j < pos + len then x.testBit (j - pos) else z.testBit j)) ∧
    (intBrev t x).testBit j = (decide (j < w) && x.testBit (w - 1 - j)) ∧
    intPopc t x = ((List.range w).filter fun p => x.testBit p).length ∧
    (x % 2 ^ w = 0 → intClz t x = w ∧ intCtz t x = w) ∧
    (x % 2 ^ w ≠ 0 → intClz t x < w ∧ x.testBit (w - 1 - intClz t x) = true ∧ (w - 1 - intClz t x < j → j < w → x.testBit j = false) ∧
      intCtz t x < w ∧ x.testBit (intCtz t x) = true ∧ (j < intCtz t x → x.testBit j = false))) ∧
  -- R125, R126: constants and addresses.
  (∀ (t : ElTy) (i : BitVec 32) (x index : Nat) (natural : Bool) (scale : Nat),
    (immValue t i : Int) = (if t = .i64 then i.toInt % 2 ^ 64 else (i.toNat : Int)) ∧
    (intLea t x index natural scale : Int) =
      ((x : Int) + (if natural = true ∨ index % 2 ^ 32 < 2 ^ 31 then (index % 2 ^ 32 : Int) else index % 2 ^ 32 - 2 ^ 32) * 2 ^ scale)
        % 2 ^ ElTy.w t) ∧
  -- R223: the atomic operations.
  ∀ (n old v : Nat), 0 < n → old < 2 ^ n → v < 2 ^ n →
    let signed := fun (x : Nat) => if 2 ^ (n - 1) ≤ x then (x : Int) - 2 ^ n else x
    atomValue .add n old v = (old + v) % 2 ^ n ∧ atomValue .and n old v = old &&& v ∧ atomValue .or n old v = old ||| v ∧
    atomValue .xor n old v = old ^^^ v ∧ atomValue .exch n old v = v ∧ atomValue .minN n old v = min old v ∧
    atomValue .maxN n old v = max old v ∧
    atomValue .minI n old v = (if signed old ≤ signed v then old else v) ∧
    atomValue .maxI n old v = (if signed v ≤ signed old then old else v) ∧
    atomValue .inc n old v = (if v ≤ old then 0 else old + 1) ∧
    atomValue .dec n old v = (if old = 0 ∨ v < old then v else old - 1) ∧
    atomValue .fadd n old v = (fpAdd .f32 false .rn (Fmt.f32.decode old) (Fmt.f32.decode v)).1

/-- R28, R31 to R34, R37, R38, R42, R142 to R153: the values of the floating-point functions, from the rules alone. A code's value is its
format's; Src flushes and changes signs; sums, products, fused products, scalings, dot products, reciprocals and roots of numbers are the
exact value rounded once, with the flags of R33; NaNs, infinities and invalid operations give what R38 and R145 say; minima, comparisons,
classes and roundings to an integer are those of the order of codes. Of `exp2`, `log2`, `sinpi` and `cospi` the special and the exact values
are stated. -/
def Obligations.FloatingPointValues : Prop :=
  (∀ F : Fmt, (F.eBits, F.mBits, F.bias, F.hasInf, F.saturating, F.infCode, F.maxCode) = match F with
    | .f32 => (8, 23, 127, true, false, 0x7F800000, 0x7F7FFFFF)
    | .f16 => (5, 10, 15, true, false, 0x7C00, 0x7BFF)
    | .bf16 => (8, 7, 127, true, false, 0x7F80, 0x7F7F)
    | .f8e5 => (5, 2, 15, true, true, 0x7C, 0x7B)
    | .f8e4 => (4, 3, 7, false, true, 0x78, 0x7E)
    | .f6e2 => (2, 3, 1, false, true, 0x18, 0x1F)
    | .f6e3 => (3, 2, 3, false, true, 0x1C, 0x1F)
    | .f4e2 => (2, 1, 1, false, true, 6, 7)) ∧
  -- R28, R143: the value of a code, and Src.
  (∀ (F : Fmt) (x : Nat), x < 2 ^ (1 + F.eBits + F.mBits) →
    let neg := x.testBit (F.eBits + F.mBits)
    let mag := x % 2 ^ (F.eBits + F.mBits)
    (mag ≤ F.maxCode → ∃ a e, F.decode x = .fin neg a e ∧ 1 - F.bias - F.mBits ≤ e ∧
      a * 2 ^ (e - (1 - F.bias - F.mBits)).toNat = magUnits F.mBits mag) ∧
    (F.hasInf = true → mag = F.infCode → F.decode x = .inf neg) ∧
    (F.maxCode < mag → mag ≠ F.infCode → F.decode x = .nan neg (mag % 2 ^ F.mBits)) ∧
    ∀ l absB negB, srcFp F l absB negB x = F.decode
      ((if F = .f16 ∧ l = true ∧ mag < 2 ^ F.mBits then 0 else mag) +
        if ((neg && !absB) ^^ negB) = true then 2 ^ (F.eBits + F.mBits) else 0)) ∧
  -- R33, R145, R151, R153: exact results of numbers, rounded once.
  (∀ (F : Fmt) (r : Rnd) (l n m k : Bool) (a b c : Nat) (e f g : Int),
    let x := Fp.fin n a e
    let y := Fp.fin m b f
    (a ≠ 0 → RoundsTo F r n (ratCmp a 1 (e - halfExp F)) (roundFmt F r (Ex.ofFin n a e))) ∧
    SumsTo F r [(n, a, e), (m, b, f)] (if n = m then n else r = .rm) (fpAdd F l r x y) ∧
    SumsTo F r [(n, a, e), (!m, b, f)] (if n = !m then n else r = .rm) (fpSub F l r x y) ∧
    SumsTo F r [(n != m, a * b, e + f)] (n != m) (fpMul F l r x y) ∧
    SumsTo F r [(n != m, a * b, e + f), (k, c, g)] (if (n != m) = k then k else r = .rm) (fpFma F l r x y (.fin k c g))) ∧
  (∀ (x : Nat) (n l : Bool) (a : Nat) (e k : Int) (r : Rnd), Fmt.f32.decode x = .fin n a e →
    (a ≠ 0 → RoundsTo .f32 r n (ratCmp a 1 (e + k - halfExp .f32)) (fpScale l r (.fin n a e) k)) ∧
    (a = 0 → fpScale l r (.fin n a e) k = ((if n then 0x80000000 else 0), 0#6))) ∧
  (∀ (fa fb : Fmt) (l : Bool) (r : Rnd) (ps : List ((Bool × Nat × Int) × (Bool × Nat × Int))) (c : Bool × Nat × Int),
    let num := fun (t : Bool × Nat × Int) => Fp.fin t.1 t.2.1 t.2.2
    let terms := (ps.map fun p => (p.1.1 != p.2.1, p.1.2.1 * p.2.2.1, p.1.2.2 + p.2.2.2)) ++ [c]
    SumsTo .f32 r terms ((terms.all fun t => t.1 && t.2.1 == 0) || r == .rm) (fpDot fa fb l r (ps.map fun p => num p.1) (ps.map fun p => num p.2) (num c))) ∧
  -- R38, R145: NaNs, infinities and invalid operations.
  (∀ (F : Fmt) (l : Bool) (r : Rnd) (x y z : Fp), F ∈ [Fmt.f32, .f16, .bf16] →
    (∀ n m, (Fp.nan n m = x ∨ Fp.nan n m = y ∨ Fp.nan n m = z) → m < 2 ^ F.mBits) →
    let zeroInf := (x.isZero = true ∧ y.isInf = true) ∨ (x.isInf = true ∧ y.isZero = true)
    let times := fun (s : Bool) => (x.isInf = true ∨ y.isInf = true) ∧ s = (x.neg != y.neg)
    Specials F l [x, y] (∃ s, x = .inf s ∧ y = .inf (!s)) (fun s => x = .inf s ∨ y = .inf s) (fpAdd F l r x y) ∧
    Specials F l [x, y] (∃ s, x = .inf s ∧ y = .inf s) (fun s => x = .inf s ∨ y = .inf (!s)) (fpSub F l r x y) ∧
    Specials F l [x, y] zeroInf times (fpMul F l r x y) ∧
    Specials F l [x, y, z] (zeroInf ∨ ∃ s, (x.isNan = false ∧ y.isNan = false) ∧ times s ∧ z = .inf (!s)) (fun s => times s ∨ z = .inf s)
      (fpFma F l r x y z) ∧
    Specials F l [x] False (fun s => x = .inf s) (fpRound F l r false x) ∧ Specials F l [x] False (fun s => x = .inf s) (fpRound F l r true x)) ∧
  (∀ (l : Bool) (r : Rnd) (x : Fp) (raw : Nat) (k : Int), (∀ n m, Fp.nan n m = x → m < 2 ^ 23) →
    Specials .f32 l [x] False (fun s => x = .inf s) (fpScale l r x k) ∧
    Specials .f32 l [x] False (fun _ => False) (fnRcp l r x) ∧
    Specials .f32 l [x] (x.isNan = false ∧ x.neg = true ∧ x.isZero = false) (fun s => s = false ∧ x = .inf s) (fnSqrt l r x) ∧
    Specials .f32 l [x] (x.isNan = false ∧ x.neg = true ∧ x.isZero = false) (fun _ => False) (fnRsqrt l r x) ∧
    Specials .f32 l [x] (x.isNan = false ∧ x.neg = true ∧ x.isZero = false) (fun s => s = false ∧ x = .inf s) (fnLog2 l r x raw) ∧
    Specials .f32 l [x] False (fun s => s = false ∧ x = .inf s) (fnExp2 l r x raw) ∧
    Specials .f32 l [x] (x.isInf = true) (fun _ => False) (fnSinpi l r x raw) ∧
    Specials .f32 l [x] (x.isInf = true) (fun _ => False) (fnCospi l r x raw)) ∧
  -- R153: a dot product's NaNs and infinities.
  (∀ (fa fb : Fmt) (l : Bool) (r : Rnd) (xs ys : List Fp) (z : Fp), xs.length = ys.length → fa.mBits ≤ 23 → fb.mBits ≤ 23 →
    (∀ n m, (Fp.nan n m ∈ xs → m < 2 ^ fa.mBits) ∧ (Fp.nan n m ∈ ys → m < 2 ^ fb.mBits) ∧ (Fp.nan n m = z → m < 2 ^ 23)) →
    let y := fpDot fa fb l r xs ys z
    let scan := (xs.map fun x => (fa.mBits, x)) ++ (ys.map fun x => (fb.mBits, x)) ++ [(23, z)]
    let infs := fun (s : Bool) => z = .inf s ∨ ∃ p ∈ xs.zip ys, (p.1.isNan = false ∧ p.2.isNan = false) ∧
      (p.1.isInf = true ∨ p.2.isInf = true) ∧ s = (p.1.neg != p.2.neg)
    let invalid := (∃ p ∈ xs.zip ys, (p.1.isZero = true ∧ p.2.isInf = true) ∨ (p.1.isInf = true ∧ p.2.isZero = true)) ∨
      (infs true ∧ infs false)
    (invalid → y = (0x7FC00000, 16#6)) ∧
    (¬ invalid → ∀ before w neg m after, scan = before ++ (w, .nan neg m) :: after → (∀ v ∈ before, v.2.isNan = false) →
      y.1 = (if l then 0x7FC00000 else (if neg then 0x80000000 else 0) + (0x7FC00000 ||| m * 2 ^ (23 - w))) ∧
      (y.2 = 16#6 ∨ y.2 = 0#6) ∧ (y.2 = 16#6 ↔ ∃ v n p, (v, Fp.nan n p) ∈ scan ∧ p.testBit (v - 1) = false)) ∧
    (¬ invalid → (∀ v ∈ scan, v.2.isNan = false) → ∀ s, infs s → y = ((if s then 0xFF800000 else 0x7F800000), 0#6))) ∧
  -- R42, R150: the correctly rounded functions.
  (∀ (l : Bool) (r : Rnd) (n : Bool) (a : Nat) (e : Int) (raw : Nat), 
    let pos := (if n then 0x80000000 else 0 : Nat)
    (a ≠ 0 → RoundsTo .f32 r n (ratCmp 1 a (-e - halfExp .f32)) (fnRcp l r (.fin n a e))) ∧
    (a = 0 → fnRcp l r (.fin n a e) = (pos + 0x7F800000, 8#6) ∧ fnRsqrt l r (.fin n a e) = (pos + 0x7F800000, 8#6) ∧
      fnSqrt l r (.fin n a e) = (pos, 0#6) ∧ fnExp2 l r (.fin n a e) raw = (0x3F800000, 0#6) ∧ fnLog2 l r (.fin n a e) raw = (0xFF800000, 8#6)) ∧
    fnRcp l r (.inf n) = (pos, 0#6) ∧ fnRsqrt l r (.inf false) = (0, 0#6) ∧ fnExp2 l r (.inf true) raw = (0, 0#6) ∧
    (a ≠ 0 → RoundsTo .f32 r false (rootCmp a 1 (e - 2 * halfExp .f32)) (fnSqrt l r (.fin false a e)) ∧
      RoundsTo .f32 r false (rootCmp 1 a (-e - 2 * halfExp .f32)) (fnRsqrt l r (.fin false a e))) ∧
    (a ≠ 0 → 2 ^ (-e).toNat ∣ a → let v := (if n then -1 else 1 : Int) * (a * 2 ^ e.toNat / 2 ^ (-e).toNat : Nat)
      RoundsTo .f32 r false (ratCmp 1 1 (v - halfExp .f32)) (fnExp2 l r (.fin n a e) raw)) ∧
    (∀ j : Nat, let v := (j : Int) + e
      (v = 0 → fnLog2 l r (.fin false (2 ^ j) e) raw = (0, 0#6)) ∧
      (v ≠ 0 → RoundsTo .f32 r (decide (v < 0)) (ratCmp v.natAbs 1 (-halfExp .f32)) (fnLog2 l r (.fin false (2 ^ j) e) raw))) ∧
    ∀ h : Nat, a * 2 ^ (e + 1).toNat = h * 2 ^ (-e - 1).toNat →
      fnSinpi l r (.fin n a e) raw = ((if h % 2 = 0 then pos else if n = decide (h % 4 = 1) then 0xBF800000 else 0x3F800000), 0#6) ∧
      fnCospi l r (.fin n a e) raw = ((if h % 2 = 1 then 0 else if h % 4 = 2 then 0xBF800000 else 0x3F800000), 0#6)) ∧
  -- R149, R152: rounding to an integer, and the exponent.
  (∀ (F : Fmt) (l exact n : Bool) (r : Rnd) (x a : Nat) (e : Int), F ∈ [Fmt.f32, .f16, .bf16] → F.decode x = .fin n a e →
    (∃ c inexact, Rounded r n id (ratCmp a 1 (e + 1)) c inexact ∧
      (fpRound F l r exact (.fin n a e)).2 = (if exact = true ∧ inexact = true then 1#6 else 0#6) ∧
      (c = 0 → (fpRound F l r exact (.fin n a e)).1 = if n then 2 ^ (F.eBits + F.mBits) else 0) ∧
      (c ≠ 0 → RoundsTo F .rz n (ratCmp c 1 (-halfExp F)) ((fpRound F l r exact (.fin n a e)).1, 0#6))) ∧
    (F = .f32 → a ≠ 0 → ∃ k : Int, ratCmp a 1 (e - k) 1 ≠ .lt ∧ ratCmp a 1 (e - k) 2 = .lt ∧
      fpExp (.fin n a e) = ((k % 2 ^ 32).toNat, 0#6))) ∧
  (∀ (n : Bool) (m : Nat) (e : Int), fpExp (.fin n 0 e) = (0x80000000, 8#6) ∧ fpExp (.inf n) = (0x7FFFFFFF, 16#6) ∧
    fpExp (.nan n m) = (0x80000000, if m.testBit 22 then 0#6 else 16#6)) ∧
  -- R146 to R148: minimum and maximum, comparison and class, by the order of codes.
  ∀ (F : Fmt) (l nanp : Bool) (p q : Nat), F ∈ [Fmt.f32, .f16, .bf16] →
    let top := 2 ^ (F.eBits + F.mBits)
    p < 2 * top → q < 2 * top →
    let quiet := fun (v : Nat) => v % top > F.infCode ∧ v.testBit (F.mBits - 1) = true
    let loud := fun (v : Nat) => v % top > F.infCode ∧ v.testBit (F.mBits - 1) = false
    let nan := fun (v : Nat) => v % top > F.infCode
    let key := fun (v : Nat) => if top ≤ v then -(v % top : Int) - 1 else (v : Int)
    let val := fun (v : Nat) => if top ≤ v then -(v % top : Int) else (v : Int)
    let x := F.decode p
    let y := F.decode q
    let nv := if loud p ∨ loud q then 16#6 else 0#6
    let first := if l then F.infCode + 2 ^ (F.mBits - 1) else (if nan p then p else q) ||| 2 ^ (F.mBits - 1)
    (∀ isMax, fpMinMax F l isMax nanp x y =
      ((if nan p ∧ nan q ∨ nanp = true ∧ (nan p ∨ nan q) then first else if nan p then q else if nan q then p
        else if (if isMax then key q ≤ key p else key p ≤ key q) then p else q), nv)) ∧
    (∀ cc, fpCond F cc x y =
      (let un := decide (nan p ∨ nan q)
       let eq := decide (val p = val q)
       let lt := decide (val p < val q)
       let gt := decide (val q < val p)
       match cc with
        | .eq => !un && eq
        | .ne => !un && !eq
        | .lt => !un && lt
        | .le => !un && !gt
        | .gt => !un && gt
        | .ge => !un && !lt
        | .num => !un
        | .nan => un
        | .equ => un || eq
        | .neu => un || !eq
        | .ltu => un || lt
        | .leu => un || !gt
        | .gtu => un || gt
        | .geu => un || !lt, if (nan p ∨ nan q) ∧ (cc = .lt ∨ cc = .le ∨ cc = .gt ∨ cc = .ge) then 16#6 else nv)) ∧
    fpClass F x = 2 ^ (if loud p then 0 else if quiet p then 1 else
      let mag := p % top
      let small := if mag = 0 then 6 else if mag < 2 ^ F.mBits then 7 else if mag < F.infCode then 8 else 9
      if p < top then small else 11 - small)

/-- R38 to R41, R129 to R139: the values of the conversions, from the rules alone. Conversions between formats and from integers are rounded
once; those to an integer are rounded to an integer and clipped; NaNs and infinities give what R39 and R40 say. `pack`, `unpack`, `prmt`,
`plsplit` and `plmerge` are stated element by element or bit by bit, `quant` by its exact quotient, `dequant` by its exact product. -/
def Obligations.ConversionValues : Prop :=
  (∀ (dst src : Fmt) (l n : Bool) (r : Rnd) (a m : Nat) (e : Int),
    let sign := (if n then 2 ^ (dst.eBits + dst.mBits) else 0 : Nat)
    (a ≠ 0 → RoundsTo dst r n (ratCmp a 1 (e - halfExp dst)) (fpConvert dst src l r (.fin n a e))) ∧
    fpConvert dst src l r (.fin n 0 e) = (sign, 0#6) ∧
    fpConvert dst src l r (.inf n) = (if dst.hasInf then (sign + dst.infCode, 0#6) else (sign + dst.maxCode, 5#6)) ∧
    (src ∈ [Fmt.f32, .f16, .bf16, .f8e5, .f8e4] → m < 2 ^ src.mBits → fpConvert dst src l r (.nan n m) =
      ((match dst with
        | .f32 | .f16 | .bf16 => if l then dst.infCode + 2 ^ (dst.mBits - 1)
          else sign + dst.infCode + (m * 2 ^ dst.mBits / 2 ^ src.mBits ||| 2 ^ (dst.mBits - 1))
        | .f8e5 => if n then 0xFE else 0x7E
        | .f8e4 => if n then 0xFF else 0x7F
        | .f6e2 | .f6e3 => if n then 0x3F else 0x1F
        | .f4e2 => if n then 0xF else 7),
       if m.testBit (src.mBits - 1) = false ∨ dst = .f6e2 ∨ dst = .f6e3 ∨ dst = .f4e2 then 16#6 else 0#6))) ∧
  -- R40: to an integer of `w` bits.
  (∀ (w : Nat) (sg n : Bool) (r : Rnd) (a m : Nat) (e : Int), 0 < w →
    let lo : Int := if sg then -(2 ^ (w - 1)) else 0
    let hi : Int := if sg then 2 ^ (w - 1) - 1 else 2 ^ w - 1
    fpToInt (.nan n m) w sg r = (0, 16#6) ∧ fpToInt (.inf n) w sg r = ((if n then lo else hi), 16#6) ∧
    ∃ c inexact, Rounded r n id (ratCmp a 1 (e + 1)) c inexact ∧ let y : Int := if n then -(c : Int) else c
      fpToInt (.fin n a e) w sg r = (if y < lo then (lo, 16#6) else if hi < y then (hi, 16#6) else (y, if inexact then 1#6 else 0#6))) ∧
  -- R129 to R131: `cvt`.
  (∀ (dst src : CvtTy) (i : Nat) (sat dflt l : Bool) (r : Rnd) (x : Nat),
    let row := fun (t : CvtTy) => match t with
      | .i32 => (32, 32, true, true) | .n32 => (32, 32, false, true) | .i64 => (64, 64, true, true) | .n64 => (64, 64, false, true)
      | .i16 => (16, 16, true, true) | .n16 => (16, 16, false, true) | .i8 => (8, 8, true, true) | .n8 => (8, 8, false, true)
      | .f32 => (32, 32, false, false) | .f16 | .bf16 => (16, 16, false, false) | .f8e4 | .f8e5 => (8, 8, false, false)
      | .f6e2 | .f6e3 => (6, 8, false, false) | .f4e2 => (4, 4, false, false)
    let (w, pitch, sg, int) := row src
    let (dw, _, dsg, dint) := row dst
    let raw := x / 2 ^ (pitch * i) % 2 ^ w
    let v : Int := if sg = true ∧ 2 ^ (w - 1) ≤ raw then (raw : Int) - 2 ^ w else raw
    let lo : Int := if dsg then -(2 ^ (dw - 1)) else 0
    let hi : Int := if dsg then 2 ^ (dw - 1) - 1 else 2 ^ dw - 1
    let placed := fun (z : Int) => let y := (z % 2 ^ dw).toNat
      if dsg = true ∧ dw < 32 ∧ 2 ^ (dw - 1) ≤ y then y + 2 ^ 32 - 2 ^ dw else y
    let mode := if dflt then (if l then Rnd.rz else Rnd.rn) else r
    let z := fpToInt (srcFp (CvtTy.fmt src) l false false raw) dw dsg mode
    let y := cvtValue dst src i sat dflt l r x
    (int = true → dint = true → y = (placed (if sat then min hi (max lo v) else v),
      if sat = true ∧ (v < lo ∨ hi < v) then 32#6 else 0#6)) ∧
    (int = true → dint = false → (v = 0 → y = (0, 0#6)) ∧
      (v ≠ 0 → RoundsTo (CvtTy.fmt dst) r (decide (v < 0)) (ratCmp v.natAbs 1 (-halfExp (CvtTy.fmt dst))) y)) ∧
    (int = false → dint = true → y = (placed z.1, z.2)) ∧
    (int = false → dint = false → y = fpConvert (CvtTy.fmt dst) (CvtTy.fmt src) l r (srcFp (CvtTy.fmt src) l false false raw))) ∧
  -- R132 to R134: `pack` and `unpack`.
  (∀ (t : PackTy) (l : Bool) (r : Rnd) (a b i part : Nat),
    -- Elements of the wide side, its bits, the distance of narrow elements, their bits, and whether integers and signed.
    let row := match t with
      | .i32i16 => (1, 32, 16, 16, true, true) | .n32n16 => (1, 32, 16, 16, true, false)
      | .i16i8 => (2, 16, 8, 8, true, true) | .n16n8 => (2, 16, 8, 8, true, false)
      | .f32f16 | .f32bf16 => (1, 32, 16, 16, false, false)
      | .f16e4 | .f16e5 | .bf16e4 | .bf16e5 => (2, 16, 8, 8, false, false)
      | .f16f6e2 | .f16f6e3 => (2, 16, 8, 6, false, false) | .f16f4e2 => (2, 16, 4, 4, false, false)
    let (n, w, pitch, nw, int, sg) := row
    let fmts := match t with
      | .f32f16 => (Fmt.f32, Fmt.f16) | .f32bf16 => (.f32, .bf16) | .f16e4 => (.f16, .f8e4) | .f16e5 => (.f16, .f8e5)
      | .bf16e4 => (.bf16, .f8e4) | .bf16e5 => (.bf16, .f8e5) | .f16f6e2 => (.f16, .f6e2) | .f16f6e3 => (.f16, .f6e3)
      | .f16f4e2 => (.f16, .f4e2) | _ => (.f32, .f16)
    let read := fun (w x : Nat) => if sg = true ∧ 2 ^ (w - 1) ≤ x then (x : Int) - 2 ^ w else x
    let wide := fun i => (if i < n then a / 2 ^ (w * i) else b / 2 ^ (w * (i - n))) % 2 ^ w
    let lo : Int := if sg then -(2 ^ (nw - 1)) else 0
    let hi : Int := if sg then 2 ^ (nw - 1) - 1 else 2 ^ nw - 1
    let narrowed := fun i => if int = true then
        (((min hi (max lo (read w (wide i)))) % 2 ^ nw).toNat, if read w (wide i) < lo ∨ hi < read w (wide i) then 32#6 else 0#6)
      else fpConvert fmts.2 fmts.1 l r (srcFp fmts.1 l false false (wide i))
    let code := fun i => a / 2 ^ (pitch * (n * part + i)) % 2 ^ nw
    let widened := fun i => if int = true then ((read nw (code i) % 2 ^ w).toNat, 0#6)
      else fpConvert fmts.1 fmts.2 l .rn (srcFp fmts.2 l false false (code i))
    (i < 2 * n → (packValue t l r a b).1 / 2 ^ (pitch * i) % 2 ^ pitch = (narrowed i).1) ∧
    (packValue t l r a b).1 < 2 ^ (pitch * (2 * n)) ∧
    (packValue t l r a b).2 = (List.range (2 * n)).foldl (fun f i => f ||| (narrowed i).2) 0#6 ∧
    (i < n → (unpackValue t l part a).1 / 2 ^ (w * i) % 2 ^ w = (widened i).1) ∧ (unpackValue t l part a).1 < 2 ^ 32 ∧
    (unpackValue t l part a).2 = (List.range n).foldl (fun f i => f ||| (widened i).2) 0#6) ∧
  -- R135: `prmt`, byte by byte.
  (∀ a b ctl i j : Nat, i < 4 → j < 8 →
    let f := ctl / 2 ^ (5 * i) % 32
    let y := (if f % 8 < 4 then a / 2 ^ (8 * (f % 8)) else b / 2 ^ (8 * (f % 8 - 4))) % 256
    prmtValue a b ctl < 2 ^ 32 ∧
    (prmtValue a b ctl).testBit (8 * i + j) = (match f / 8 with
      | 0 => y.testBit j
      | 1 => y.testBit 7
      | 2 => false
      | _ => y.testBit (7 - j))) ∧
  -- R136: `quant`.
  (∀ (nat n n' : Bool) (r : Rnd) (w e a b c p p' : Nat) (f f' : Int), 0 < w → w ≤ 8 → e < 4 → c < 2 ^ 32 →
    let lo : Int := if nat then 0 else -(2 ^ (w - 1))
    let hi : Int := if nat then 2 ^ w - 1 else 2 ^ (w - 1) - 1
    let put := fun (q : Int) => c - c / 2 ^ (8 * e) % 256 * 2 ^ (8 * e) + (q % 256).toNat * 2 ^ (8 * e)
    let y := quantValue nat r w e a b c
    let x := Fmt.f32.decode a
    let z := Fmt.f32.decode b
    (x.isNan = true ∨ z.isNan = true ∨ z.isZero = true ∨ (x.isInf = true ∧ z.isInf = true) → y = (put 0, 16#6)) ∧
    (x = .inf n → z = .fin n' p' f' → p' ≠ 0 → y = (put (if n = n' then hi else lo), 32#6)) ∧
    (x = .fin n p f → z = .inf n' → y = (put 0, 0#6)) ∧
    (x = .fin n p f → z = .fin n' p' f' → p' ≠ 0 → ∃ q inexact, Rounded r (n != n') id (ratCmp p p' (f - f' + 1)) q inexact ∧
      let v : Int := if n = n' then (q : Int) else -q
      y = (put (min hi (max lo v)), (if v < lo ∨ hi < v then 32#6 else 0#6) ||| if inexact then 1#6 else 0#6))) ∧
  -- R137: `dequant`.
  (∀ (nat l m : Bool) (r : Rnd) (e a b p : Nat) (f : Int), e < 4 →
    let byte := a / 2 ^ (8 * e) % 256
    let v : Int := if nat = false ∧ 128 ≤ byte then (byte : Int) - 256 else byte
    (Fmt.f32.decode b = .fin m p f → SumsTo .f32 r [(decide (v < 0) != m, v.natAbs * p, f)] (decide (v < 0) != m) (dequantValue nat l r e a b)) ∧
    (Fmt.f32.decode b = .inf m → dequantValue nat l r e a b =
      if v = 0 then (0x7FC00000, 16#6) else ((if (decide (v < 0) != m) = true then 0xFF800000 else 0x7F800000), 0#6)) ∧
    (∀ k, Fmt.f32.decode b = .nan m k → dequantValue nat l r e a b =
      ((if l then 0x7FC00000 else b % 2 ^ 32 ||| 0x400000), if k.testBit 22 then 0#6 else 16#6))) ∧
  -- R138, R139, R44: bit planes.
  ∀ (n p k i j : Nat) (regs planes : List Nat), 0 < n → n ≤ 8 → p < n → 0 < k → k ≤ n → j < 32 → i < 8 →
    let byte := fun j => regs.getD (j / 4) 0 / 2 ^ (8 * (j % 4)) % 256
    let v := fun j => if 128 ≤ byte j then (byte j : Int) - 256 else byte j
    let lo : Int := -(2 ^ (n - 1))
    let hi : Int := 2 ^ (n - 1) - 1
    let kept := ((List.range k).map fun p => if (planes.getD p 0).testBit j then 2 ^ (n - 1 - p) else 0).sum
    let value : Int := kept + (if k = n then 0 else 2 ^ (n - k - 1)) - 2 ^ (n - 1)
    (plsplitValue n p regs).1 < 2 ^ 32 ∧
    (plsplitValue n p regs).1.testBit j = (min hi (max lo (v j)) + 2 ^ (n - 1)).toNat.testBit (n - 1 - p) ∧
    ((plsplitValue n p regs).2 = 32#6 ∨ (plsplitValue n p regs).2 = 0#6) ∧
    ((plsplitValue n p regs).2 = 32#6 ↔ ∃ j, j < 32 ∧ (v j < lo ∨ hi < v j)) ∧
    (plmergeValue n k planes).length = 8 ∧ (plmergeValue n k planes).getD i 0 < 2 ^ 32 ∧
    ((((plmergeValue n k planes).getD (j / 4) 0 / 2 ^ (8 * (j % 4)) % 256 : Nat)) : Int) = value % 256

/-! The machine (R50 to R53, R79, R80, R104, R302, R311, R374, R396, R397, R402). -/

/-- R302, R374, R392, R395 to R397, R402, R318: the values that the spec gives for reset.
And the RESET event leaves these values. The model's choices, no rule of the spec: SVEC and HVEC read 0, the key slots are empty, the format
ranges invalid, no window, image or seal exists, and HEALTH tells no prediction (log entry 1); HBM (a world's lines sealed), host memory, poison
and the firmware measurement stay (log entry 61). -/
def Obligations.ResetState : Prop :=
  (let s := State.reset
  s.crews = [] ∧ s.launches = [] ∧ s.images = [] ∧ s.seals = [] ∧ s.keySlots = [] ∧ s.windows = [] ∧ s.tlbs = [] ∧ s.walks = [] ∧ s.readymap = 0#98 ∧ s.fabid = 0#8 ∧
  (∀ v, v < 64 → let f := s.func v
    f.ready = false ∧ f.err = false ∧ f.tdisp = .unlocked ∧ f.prifail = false ∧ f.quiesced = false ∧ f.ctxtbl = 0#64 ∧ f.admq = 0#64 ∧ f.admcons = 0 ∧
    f.vfshare = 0#16 ∧ f.part = 0#64 ∧ f.s2root = 0 ∧ f.keys = 0#21 ∧ f.logbase = 0#64 ∧ f.logEn = false ∧ f.logOvf = false ∧
    f.logAll = false ∧ f.logStop = false ∧ f.logprod = 0#32) ∧
  (∀ t c, c < 16 → s.fillMask t c = if c = 15 then 0#16 else 0xFFFF#16) ∧
  (∀ t, s.powerLimit t = 400#16) ∧ (∀ i, s.healthOf i = 0xFFFFFFFF#32) ∧ (∀ n, (s.range n).v = false) ∧
  (∀ k, k < 18 → s.links[k]? = some { state := 0, failed := false, retries := 0#32 }) ∧
  (∀ m, sget 0#64 s.routes m = 0#64) ∧ (∀ g, sget 0#64 s.fgrp g = 0#64) ∧
  ∀ v c, let x := s.ctxAt v c
    x.cmpl = 0#1 ∧ x.svec = 0#64 ∧ x.hvec = 0#64 ∧ x.ringBase = 0#43 ∧ x.ringSz = 0#4 ∧ x.hintdrop = 0#32 ∧ x.quantum = 100000#24) ∧
  (∀ (s : State), (s.worldLines.foldl sealLine s).bad = none →
    ∃ t, exec .reset s = .next t ∧ { t with agenda := State.reset.agenda, hbm := State.reset.hbm, host := State.reset.host
                                            poisoned := State.reset.poisoned, draws := State.reset.draws, firmware := State.reset.firmware } =
        State.reset ∧
      t.host = s.host ∧ (s.worldLines = [] → t.hbm = s.hbm))
/-- R50, R51, R79, R80: a step runs the next event of the agenda; with none, where the gang at `cur` may issue and its line holds an
instruction at the chosen PC, the step is `exec` of that instruction, and where its line is not held it fetches it. A line fetched from its
sealed page that agrees with its parity and decodes is then held; another holds the entry's lanes with one record of cause 0x01. With nothing to
issue nothing changes. The model's choices, no rule of the spec: the agenda and `cur`, which say what a step runs (log entry 6), and the detail
of the record of cause 0x01 (log entry 18). -/
def Obligations.StepRunsDecoded : Prop :=
  ∀ (s : State),
    (∀ i rest, s.agenda = .event i :: rest → step s = exec i { s with agenda := rest }) ∧
    (s.agenda = [] → curIssue s = none → step s = .next s) ∧
    (∀ uid k c g e es, s.agenda = [] → s.cur = some (uid, k) → s.crew? uid = some c → mayIssue s c k = true →
      chooseEntry (wakeCounted s c k) = some g → g.frontier = e :: es → e.mask &&& g.illegal = 0#32 →
      (∀ bs i, g.line = some (pcLine e.pc, bs) → decode c.regs (natOfBytes ((bs.drop (12 * pcSlot e.pc)).take 12)) = .ok i →
        step s = exec i (s.setCrew (c.setGang k g)) ∧ i.wf c.regs = true) ∧
      ((∀ bs, g.line ≠ some (pcLine e.pc, bs)) → step s = exec (.lineFetch c.coreOf k) (s.setCrew (c.setGang k g)))) ∧
    ∀ core k c x u lf ls, s.resident? core = some c → gangIssue s c k = some x →
      let mode := (x.g.lane (lowest x.e.mask)).mode
      fetchTarget s x.c mode x.e.pc = true →
      laneXlat s (x.c.who s mode) (s.launchOf x.c).desc.pasid (.lane x.c.uid k (lowest x.e.mask)) 3 (pcLine x.e.pc) 1 = (u, .ok (lf :: ls)) →
      let w := x.c.who u mode
      let bs := (takeLine u x w lf).2
      let v := (takeLine u x w lf).1
      sealedPage u x.c (pcLine x.e.pc) lf.pa = true → leafBroken u w lf = false → Stored v →
      (lineGood x.c.regs bs = true → exec (.lineFetch core k) s =
        .next (v.setCrew (x.c.mapGang k fun g => { g with line := some (pcLine x.e.pc, bs), linePa := lf.pa }))) ∧
      (lineGood x.c.regs bs = false → Stored (machineCheck v x bs) → exec (.lineFetch core k) s = .next (machineCheck v x bs))

/-- R53, R57, R119, R386: words written out from the spec's worked encodings decode to the instructions that they stand for, and words with a
reserved value are refused with the rule of R79 that they break. -/
def Obligations.DecodesWrittenWords : Prop :=
  let h := Hdr.plain
  decode 1536 0x5200F00FFFFFFFFFFF000000 = .ok (.nop 15#4 false) ∧
  decode 1536 0x0541F0000A00401003000096 = .ok (.lop3 h .n32 (.v 5) (.v 1) (.v 2) (.v 3) 0x96#8) ∧
  decode 1536 0x20C3F0002800801804000021 =
    .ok (.fma h .rm (.v 20) (.v 2) (.v 3) (.v 4) { na := true, nb := false, nc := false, aa := false, ab := false, ac := true }) ∧
  decode 1536 0x61C0F00FFFFFFFFFFF20243F = .ok (.barSync h { stream := 1, mask := 1#8 } .crew 3#6) ∧
  decode 1536 0x6203F0003C083FFFFF20000F = .ok (.wait h true 1 (.v 30) (.v 32) { stream := 1, mask := 0#8 } 0#4 none) ∧
  decode 1536 0x70A0F00018053FF87F810540 =
    .ok (.ldS h .b64 (.v 12) { base := .v 20, off := .imm 127#11, clause := { stream := 4, mask := 8#8 }, scope := .crew }) ∧
  decode 1536 0x7180F00FFE0A0167FF400400 =
    .ok (.copy h .g none 0 (.v 40) (.v 44) { clause := { stream := 2, mask := 0#8 }, scope := .crew }) ∧
  decode 1536 0x8280F00FFFFFFFFFFF60D005 = .ok (.pubw h 5 { clause := { stream := 3, mask := 6#8 }, scope := .package }) ∧
  decode 1536 0x9080F0000A020037FF405100 = .ok (.atomG h .add .w32 (.v 5) (.v 6)
    { base := .v 8, off := .reg .vz, clause := { stream := 2, mask := 2#8 }, scope := .package }) ∧
  decode 1536 0xA080F000280200B7FF405943 = .ok (.atomH h (.add .w64) (.v 20) (.v 22) (some 3)
    { base := .v 8, off := .reg .vz, clause := { stream := 2, mask := 2#8 }, scope := .system }) ∧
  decode 1536 0xA0C0F00018023FFFFF203540 =
    .ok (.ldF h .b64 (.v 12) { base := .v 8, off := .reg .vz, clause := { stream := 1, mask := 1#8 }, scope := .fabric }) ∧
  decode 1536 0xA940F0000A023FF80A000000 = .ok (.ctxsave h false (.v 5) (.v 8) (.v 10)) ∧
  decode 1536 0xAA40F0000A004017FF000000 = .ok (.l2partSet h (.v 5) (.v 1) (.v 2)) ∧
  decode 1536 0xFFC1F0000A00401003000096 = .error .enc01 ∧ decode 1536 0x0544F0000A00401003000096 = .error .enc02 ∧
  decode 1536 0x0541F00C0000401003000096 = .error .enc03 ∧ decode 5 0x0541F0000A00401003000096 = .error .enc03 ∧
  decode 6 0x0541F0000A00401003000096 = .ok (.lop3 h .n32 (.v 5) (.v 1) (.v 2) (.v 3) 0x96#8) ∧
  decode 1536 0x0541F0000A00401003000196 = .error .enc04 ∧ decode 1536 0x0541F8000A00401003000096 = .error .enc04

/-- R53 to R79: every well-formed instruction of a lane has a word, and decoding that word gives it back, with every operand and field; and a
word that decodes is the word of the instruction that it decodes to. -/
def Obligations.EncodedInstructionsDecode : Prop :=
  (∀ (regs : Nat) (i : Instr) (w : BitVec 96), i.wf regs = true → encode i = some w → decode regs w.toNat = .ok i) ∧
  ∀ (regs : Nat) (i : Instr) (w : BitVec 96), decode regs w.toNat = .ok i → i.wf regs = true ∧ encode i = some w

/-- The model's own invariant (log entries 3 and 4), of which reset is a state: both byte memories keep their canonical form. -/
def Obligations.ResetIsWellFormed : Prop := State.reset.wf = true

/-- The model's own invariant (log entries 3 and 4): from every state whose byte memories have their canonical form, a step that answers a
next state answers one whose byte memories have it. -/
def Obligations.StepsKeepWellFormed : Prop :=
  ∀ (s t : State), s.wf = true → step s = .next t → t.wf = true
end

