-- ==== Sys2Proof/Laws/Lists.lean ====
section
/-!
SUPPORT. Lists changed at one place, lane masks, and the lanes and gangs reached through them.
-/

namespace Sys2Proof

@[simp] theorem modifyNth_length {α : Type} (xs : List α) (i : Nat) (f : α → α) : (modifyNth xs i f).length = xs.length := by
  induction xs generalizing i with
  | nil => simp [modifyNth]
  | cons x xs ih => cases i <;> simp [modifyNth, ih]

theorem modifyNth_getD {α : Type} (xs : List α) (i j : Nat) (f : α → α) (d : α) :
    (modifyNth xs i f).getD j d = if j = i ∧ j < xs.length then f (xs.getD j d) else xs.getD j d := by
  induction xs generalizing i j with
  | nil => simp [modifyNth]
  | cons x xs ih =>
    cases i <;> cases j <;> simp [modifyNth]
    rename_i i j
    simpa using ih i j

theorem modifyNth_modifyNth {α : Type} (xs : List α) (i : Nat) (f g : α → α) :
    modifyNth (modifyNth xs i f) i g = modifyNth xs i (fun x => g (f x)) := by
  induction xs generalizing i with
  | nil => simp [modifyNth]
  | cons x xs ih => cases i <;> simp [modifyNth, ih]

theorem modifyNth_congr {α : Type} (xs : List α) (i : Nat) (f g : α → α) (d : α) (h : i < xs.length → f (xs.getD i d) = g (xs.getD i d)) :
    modifyNth xs i f = modifyNth xs i g := by
  induction xs generalizing i with
  | nil => simp [modifyNth]
  | cons x xs ih =>
    cases i with
    | zero => simpa [modifyNth] using h
    | succ i => simp only [modifyNth]; congr 1; exact ih i (by simpa using h)

@[simp] theorem wordsOf_length (n x : Nat) : (wordsOf n x).length = n := by
  induction n generalizing x with
  | zero => rfl
  | succ n ih => simp [wordsOf, ih]

@[simp] theorem bytesOf_length (n x : Nat) : (bytesOf n x).length = n := by
  induction n generalizing x with
  | zero => rfl
  | succ n ih => simp [bytesOf, ih]

/-- A mask's lanes are the lanes it holds. -/
theorem LaneMask.mem_lanes (m : LaneMask) (l : Nat) : l ∈ LaneMask.lanes m ↔ m.getLsbD l = true := by
  simp only [LaneMask.lanes, laneNumbers, List.mem_filter, List.mem_range]
  constructor
  · exact fun h => h.2
  · intro h
    refine ⟨Decidable.byContradiction fun hl => ?_, h⟩
    simp [BitVec.getLsbD_of_ge m l (by omega)] at h

theorem LaneMask.nodup_lanes (m : LaneMask) : (LaneMask.lanes m).Nodup := List.Pairwise.filter _ List.nodup_range

theorem LaneMask.getLsbD_ofList (ls : List Nat) (l : Nat) :
    (LaneMask.ofList ls).getLsbD l = (decide (l < 32) && decide (l ∈ ls)) := by
  induction ls with
  | nil => simp [LaneMask.ofList]
  | cons x xs ih =>
    simp only [LaneMask.ofList, BitVec.getLsbD_or, ih, LaneMask.one, BitVec.getLsbD_shiftLeft, List.mem_cons]
    by_cases h : l < 32 <;> simp [h]
    by_cases hx : l = x
    · subst hx; simp
    · have : (1#32).getLsbD (l - x) = true ↔ l - x = 0 := by
        simp [BitVec.getLsbD_one]
      by_cases hlt : l < x
      · simp [hlt, hx]
      · have h2 : (1#32).getLsbD (l - x) = false := by
          rw [Bool.eq_false_iff]; intro hh; rw [this] at hh; omega
        have h3 : ¬ l - x = 0 := by omega
        simp [hx, h3]

@[simp] theorem LaneMask.lanes_zero : LaneMask.lanes 0#32 = [] := by decide

end Sys2Proof

namespace Sys2Proof.Machine

@[simp] theorem Gang.mapLane_lanes_length (g : Gang) (l : Nat) (f : Lane → Lane) : (g.mapLane l f).lanes.length = g.lanes.length := by
  simp [Gang.mapLane]

theorem Gang.mapLane_lane (g : Gang) (l j : Nat) (f : Lane → Lane) :
    (g.mapLane l f).lane j = if j = l ∧ j < g.lanes.length then f (g.lane j) else g.lane j := by
  simp only [Gang.lane, Gang.mapLane]; exact modifyNth_getD _ _ _ _ _

theorem mapLanesFrom_length (m : LaneMask) (f : Nat → Lane → Lane) (i : Nat) (ls : List Lane) :
    (mapLanesFrom m f i ls).length = ls.length := by
  induction ls generalizing i with
  | nil => rfl
  | cons x xs ih => simp [mapLanesFrom, ih]

theorem mapLanesFrom_getD (m : LaneMask) (f : Nat → Lane → Lane) (i j : Nat) (ls : List Lane) :
    (mapLanesFrom m f i ls).getD j Lane.blank =
      if j < ls.length ∧ m.getLsbD (i + j) = true then f (i + j) (ls.getD j Lane.blank) else ls.getD j Lane.blank := by
  induction ls generalizing i j with
  | nil => simp [mapLanesFrom]
  | cons x xs ih =>
    cases j with
    | zero => simp [mapLanesFrom]
    | succ j =>
      have := ih (i + 1) j
      simpa [mapLanesFrom, Nat.add_assoc, Nat.add_comm 1 j] using this

/-- A lane of a gang after the lanes of a mask changed. -/
theorem Gang.mapLanes_lane (g : Gang) (m : LaneMask) (f : Nat → Lane → Lane) (j : Nat) :
    (g.mapLanes m f).lane j = if j < g.lanes.length ∧ m.getLsbD j = true then f j (g.lane j) else g.lane j := by
  simpa [Gang.lane, Gang.mapLanes] using mapLanesFrom_getD m f 0 j g.lanes

@[simp] theorem Crew.mapGang_gangs_length (c : Crew) (k : Nat) (f : Gang → Gang) : (c.mapGang k f).gangs.length = c.gangs.length := by
  simp [Crew.mapGang]

theorem Crew.mapGang_gang (c : Crew) (k j : Nat) (f : Gang → Gang) :
    (c.mapGang k f).gang j = if j = k ∧ j < c.gangs.length then f (c.gang j) else c.gang j := by
  simp only [Crew.gang, Crew.mapGang]; exact modifyNth_getD _ _ _ _ _

theorem Crew.mapGang_mapGang (c : Crew) (k : Nat) (f g : Gang → Gang) :
    (c.mapGang k f).mapGang k g = c.mapGang k (fun x => g (f x)) := by
  simp [Crew.mapGang, modifyNth_modifyNth]

/-- A gang number that the crew does not have reads as a retired gang. -/
theorem Crew.gang_of_ge (c : Crew) (k : Nat) (h : c.gangs.length ≤ k) : c.gang k = Gang.blank := by
  simp [Crew.gang, List.getD_eq_getElem?_getD, List.getElem?_eq_none h]

theorem mapCrew_mapCrew (uid : Nat) (f g : Crew → Crew) (cs : List Crew) (h : ∀ c, (f c).uid = uid) :
    mapCrew uid g (mapCrew uid f cs) = mapCrew uid (fun c => g (f c)) cs := by
  induction cs with
  | nil => rfl
  | cons c cs ih =>
    by_cases hc : c.uid = uid
    · simp [mapCrew, hc, h]
    · simp [mapCrew, hc, ih]

theorem mapCrew_congr (uid : Nat) (f g : Crew → Crew) (cs : List Crew) (h : ∀ c, cs.find? (fun c => c.uid == uid) = some c → f c = g c) :
    mapCrew uid f cs = mapCrew uid g cs := by
  induction cs with
  | nil => rfl
  | cons c cs ih =>
    by_cases hc : c.uid = uid
    · simp [mapCrew, hc]; exact h c (by simp [hc])
    · simp [mapCrew, hc]; exact ih (fun d hd => h d (by simpa [hc] using hd))

/-- The crew found under a uid after the crew with a uid changed. -/
theorem find_mapCrew (uid v : Nat) (f : Crew → Crew) (cs : List Crew) (h : ∀ c, (f c).uid = uid) :
    (mapCrew uid f cs).find? (fun c => c.uid == v) =
      if v = uid then (cs.find? (fun c => c.uid == uid)).map f else cs.find? (fun c => c.uid == v) := by
  induction cs with
  | nil => simp [mapCrew]
  | cons c cs ih =>
    by_cases hc : c.uid = uid
    · by_cases hv : v = uid
      · subst hv; simp [mapCrew, hc, h]
      · have : ¬ uid = v := fun e => hv e.symm
        simp [mapCrew, hc, h, hv, this]
    · by_cases hv : v = uid
      · subst hv; simp only [mapCrew, hc, if_false]
        simp [hc]; simpa using ih
      · simp only [mapCrew, hc, if_false, List.find?_cons, ih, hv]

end Sys2Proof.Machine
end

