-- ==== Sys2Proof/Laws/Tables.lean ====
section
/-!
SUPPORT. Sparse tables and byte memories: a read after a write, and the canonical form that every write keeps.
-/

namespace Sys2Proof.Machine

theorem sget_sdel {α : Type} (d : α) (t : List (Nat × α)) (n m : Nat) :
    sget d (sdel t n) m = if m = n then d else sget d t m := by
  induction t with
  | nil => simp [sdel, sget]
  | cons e t ih => obtain ⟨k, v⟩ := e; simp only [sdel, sget]; grind [sget]

theorem sget_sins {α : Type} (d : α) (t : List (Nat × α)) (n m : Nat) (x : α) :
    sget d (sins t n x) m = if m = n then x else sget d t m := by
  induction t with
  | nil => simp [sins, sget, eq_comm]
  | cons e t ih => obtain ⟨k, v⟩ := e; simp only [sins, sget]; grind [sget]

/-- A read after a write of a sparse table. -/
@[simp] theorem sget_sput {α : Type} [DecidableEq α] (d : α) (t : List (Nat × α)) (n m : Nat) (x : α) :
    sget d (sput d t n x) m = if m = n then x else sget d t m := by
  unfold sput; split
  · subst_vars; rw [sget_sdel]
  · rw [sget_sins]

theorem canonFrom_mono {α : Type} [DecidableEq α] {d : α} {lo lo' : Nat} {t : List (Nat × α)} (h : canonFrom d lo t = true)
    (le : lo' ≤ lo) : canonFrom d lo' t = true := by
  cases t with
  | nil => rfl
  | cons e t =>
    simp only [canonFrom, Bool.and_eq_true, decide_eq_true_eq] at h ⊢
    exact ⟨⟨by omega, h.1.2⟩, h.2⟩

theorem canonFrom_sdel {α : Type} [DecidableEq α] (d : α) (t : List (Nat × α)) (lo n : Nat) (h : canonFrom d lo t = true) :
    canonFrom d lo (sdel t n) = true := by
  induction t generalizing lo with
  | nil => rfl
  | cons e t ih =>
    simp only [canonFrom, Bool.and_eq_true, decide_eq_true_eq] at h
    have := ih _ h.2
    simp only [sdel]; split
    · exact canonFrom_mono this (by omega)
    · simp [canonFrom, h.1, this]

theorem canonFrom_sins {α : Type} [DecidableEq α] (d : α) (t : List (Nat × α)) (lo n : Nat) (x : α) (h : canonFrom d lo t = true)
    (le : lo ≤ n) (ne : x ≠ d) : canonFrom d lo (sins t n x) = true := by
  induction t generalizing lo with
  | nil => simp [sins, canonFrom, le, ne]
  | cons e t ih =>
    simp only [canonFrom, Bool.and_eq_true, decide_eq_true_eq] at h
    simp only [sins]; split
    · subst_vars; simp [canonFrom, le, ne, h.2]
    · split
      · simp [canonFrom, le, ne, h.1.2]
        exact ⟨by omega, h.2⟩
      · simp [canonFrom, h.1]
        exact ih _ h.2 (by omega)

/-- A write keeps the canonical form. -/
theorem canonFrom_sput {α : Type} [DecidableEq α] (d : α) (t : List (Nat × α)) (lo n : Nat) (x : α) (h : canonFrom d lo t = true)
    (le : lo ≤ n) : canonFrom d lo (sput d t n x) = true := by
  unfold sput; split
  · exact canonFrom_sdel d t lo n h
  · exact canonFrom_sins d t lo n x h le (by assumption)

/-- A byte reads as the last one written to it, and no other byte changes. -/
@[simp] theorem peek_poke (m : List Host.Cell) (a c : Nat) (b : Byte) : peek (poke m a b) c = if c = a then b else peek m c :=
  sget_sput _ _ _ _ _

theorem Memory.wf_poke (m : List Host.Cell) (a : Nat) (b : Byte) (h : Memory.wf m = true) : Memory.wf (poke m a b) = true :=
  canonFrom_sput _ _ _ _ _ h (Nat.zero_le _)

theorem Memory.wf_pokeN (m : List Host.Cell) (a : Nat) (bs : List Byte) (h : Memory.wf m = true) : Memory.wf (pokeN m a bs) = true := by
  induction bs generalizing m a with
  | nil => exact h
  | cons b bs ih => exact ih _ _ (Memory.wf_poke m a b h)

/-- The bytes after a write of several: those written, and every other byte as before. -/
theorem peek_pokeN (m : List Host.Cell) (a c : Nat) (bs : List Byte) :
    peek (pokeN m a bs) c = if a ≤ c ∧ c < a + bs.length then bs.getD (c - a) 0#8 else peek m c := by
  induction bs generalizing m a with
  | nil =>
    have : ¬ (a ≤ c ∧ c < a + 0) := by omega
    simp only [pokeN, List.length_nil, if_neg this]
  | cons b bs ih =>
    simp only [pokeN, ih, peek_poke, List.length_cons]
    by_cases hc : c = a
    · subst hc
      rw [if_neg (by omega), if_pos rfl, if_pos (by omega)]; simp
    · by_cases hr : a + 1 ≤ c ∧ c < a + 1 + bs.length
      · have e : c - a = (c - (a + 1)) + 1 := by omega
        rw [if_pos hr, if_pos (by omega), e]; simp
      · rw [if_neg hr, if_neg hc, if_neg (by omega)]

theorem peekN_length (m : List Host.Cell) (a n : Nat) : (peekN m a n).length = n := by
  induction n generalizing a with
  | zero => rfl
  | succ n ih => simp [peekN, ih]

end Sys2Proof.Machine
end

