-- ==== Sys2Proof/Laws/State.lean ====
section
/-!
SUPPORT. What each update of the state leaves alone: one lemma for each field and update.
-/

namespace Sys2Proof.Machine

/-! `mapCrew` changes `crews` only. -/

@[simp] theorem State.mapCrew_agenda (s : State) (uid : Nat) (f : Crew → Crew) : (s.mapCrew uid f).agenda = s.agenda := rfl
@[simp] theorem State.mapCrew_cur (s : State) (uid : Nat) (f : Crew → Crew) : (s.mapCrew uid f).cur = s.cur := rfl
@[simp] theorem State.mapCrew_now (s : State) (uid : Nat) (f : Crew → Crew) : (s.mapCrew uid f).now = s.now := rfl
@[simp] theorem State.mapCrew_draws (s : State) (uid : Nat) (f : Crew → Crew) : (s.mapCrew uid f).draws = s.draws := rfl
@[simp] theorem State.mapCrew_bad (s : State) (uid : Nat) (f : Crew → Crew) : (s.mapCrew uid f).bad = s.bad := rfl
@[simp] theorem State.mapCrew_hbm (s : State) (uid : Nat) (f : Crew → Crew) : (s.mapCrew uid f).hbm = s.hbm := rfl
@[simp] theorem State.mapCrew_host (s : State) (uid : Nat) (f : Crew → Crew) : (s.mapCrew uid f).host = s.host := rfl
@[simp] theorem State.mapCrew_poisoned (s : State) (uid : Nat) (f : Crew → Crew) : (s.mapCrew uid f).poisoned = s.poisoned := rfl
@[simp] theorem State.mapCrew_spoiled (s : State) (uid : Nat) (f : Crew → Crew) : (s.mapCrew uid f).spoiled = s.spoiled := rfl
@[simp] theorem State.mapCrew_stores (s : State) (uid : Nat) (f : Crew → Crew) : (s.mapCrew uid f).stores = s.stores := rfl
@[simp] theorem State.mapCrew_nextUid (s : State) (uid : Nat) (f : Crew → Crew) : (s.mapCrew uid f).nextUid = s.nextUid := rfl
@[simp] theorem State.mapCrew_windows (s : State) (uid : Nat) (f : Crew → Crew) : (s.mapCrew uid f).windows = s.windows := rfl
@[simp] theorem State.mapCrew_vaults (s : State) (uid : Nat) (f : Crew → Crew) : (s.mapCrew uid f).vaults = s.vaults := rfl
@[simp] theorem State.mapCrew_queues (s : State) (uid : Nat) (f : Crew → Crew) : (s.mapCrew uid f).queues = s.queues := rfl
@[simp] theorem State.mapCrew_strings (s : State) (uid : Nat) (f : Crew → Crew) : (s.mapCrew uid f).strings = s.strings := rfl
@[simp] theorem State.mapCrew_ctxs (s : State) (uid : Nat) (f : Crew → Crew) : (s.mapCrew uid f).ctxs = s.ctxs := rfl
@[simp] theorem State.mapCrew_funcs (s : State) (uid : Nat) (f : Crew → Crew) : (s.mapCrew uid f).funcs = s.funcs := rfl
@[simp] theorem State.mapCrew_launches (s : State) (uid : Nat) (f : Crew → Crew) : (s.mapCrew uid f).launches = s.launches := rfl
@[simp] theorem State.mapCrew_nextLaunch (s : State) (uid : Nat) (f : Crew → Crew) : (s.mapCrew uid f).nextLaunch = s.nextLaunch := rfl
@[simp] theorem State.mapCrew_tlbs (s : State) (uid : Nat) (f : Crew → Crew) : (s.mapCrew uid f).tlbs = s.tlbs := rfl
@[simp] theorem State.mapCrew_walks (s : State) (uid : Nat) (f : Crew → Crew) : (s.mapCrew uid f).walks = s.walks := rfl
@[simp] theorem State.mapCrew_l1 (s : State) (uid : Nat) (f : Crew → Crew) : (s.mapCrew uid f).l1 = s.l1 := rfl
@[simp] theorem State.mapCrew_l2 (s : State) (uid : Nat) (f : Crew → Crew) : (s.mapCrew uid f).l2 = s.l2 := rfl
@[simp] theorem State.mapCrew_hits (s : State) (uid : Nat) (f : Crew → Crew) : (s.mapCrew uid f).hits = s.hits := rfl
@[simp] theorem State.mapCrew_misses (s : State) (uid : Nat) (f : Crew → Crew) : (s.mapCrew uid f).misses = s.misses := rfl
@[simp] theorem State.mapCrew_masks (s : State) (uid : Nat) (f : Crew → Crew) : (s.mapCrew uid f).masks = s.masks := rfl
@[simp] theorem State.mapCrew_ibuf (s : State) (uid : Nat) (f : Crew → Crew) : (s.mapCrew uid f).ibuf = s.ibuf := rfl
@[simp] theorem State.mapCrew_ranges (s : State) (uid : Nat) (f : Crew → Crew) : (s.mapCrew uid f).ranges = s.ranges := rfl
@[simp] theorem State.mapCrew_images (s : State) (uid : Nat) (f : Crew → Crew) : (s.mapCrew uid f).images = s.images := rfl
@[simp] theorem State.mapCrew_seals (s : State) (uid : Nat) (f : Crew → Crew) : (s.mapCrew uid f).seals = s.seals := rfl
@[simp] theorem State.mapCrew_nextHandle (s : State) (uid : Nat) (f : Crew → Crew) : (s.mapCrew uid f).nextHandle = s.nextHandle := rfl
@[simp] theorem State.mapCrew_admWait (s : State) (uid : Nat) (f : Crew → Crew) : (s.mapCrew uid f).admWait = s.admWait := rfl
@[simp] theorem State.mapCrew_admQueue (s : State) (uid : Nat) (f : Crew → Crew) : (s.mapCrew uid f).admQueue = s.admQueue := rfl
@[simp] theorem State.mapCrew_ringWait (s : State) (uid : Nat) (f : Crew → Crew) : (s.mapCrew uid f).ringWait = s.ringWait := rfl
@[simp] theorem State.mapCrew_keySlots (s : State) (uid : Nat) (f : Crew → Crew) : (s.mapCrew uid f).keySlots = s.keySlots := rfl
@[simp] theorem State.mapCrew_worldLines (s : State) (uid : Nat) (f : Crew → Crew) : (s.mapCrew uid f).worldLines = s.worldLines := rfl
@[simp] theorem State.mapCrew_versions (s : State) (uid : Nat) (f : Crew → Crew) : (s.mapCrew uid f).versions = s.versions := rfl
@[simp] theorem State.mapCrew_readymap (s : State) (uid : Nat) (f : Crew → Crew) : (s.mapCrew uid f).readymap = s.readymap := rfl
@[simp] theorem State.mapCrew_health (s : State) (uid : Nat) (f : Crew → Crew) : (s.mapCrew uid f).health = s.health := rfl
@[simp] theorem State.mapCrew_power (s : State) (uid : Nat) (f : Crew → Crew) : (s.mapCrew uid f).power = s.power := rfl
@[simp] theorem State.mapCrew_fabid (s : State) (uid : Nat) (f : Crew → Crew) : (s.mapCrew uid f).fabid = s.fabid := rfl
@[simp] theorem State.mapCrew_links (s : State) (uid : Nat) (f : Crew → Crew) : (s.mapCrew uid f).links = s.links := rfl
@[simp] theorem State.mapCrew_routes (s : State) (uid : Nat) (f : Crew → Crew) : (s.mapCrew uid f).routes = s.routes := rfl
@[simp] theorem State.mapCrew_fgrp (s : State) (uid : Nat) (f : Crew → Crew) : (s.mapCrew uid f).fgrp = s.fgrp := rfl
@[simp] theorem State.mapCrew_heldArr (s : State) (uid : Nat) (f : Crew → Crew) : (s.mapCrew uid f).heldArr = s.heldArr := rfl
@[simp] theorem State.mapCrew_firmware (s : State) (uid : Nat) (f : Crew → Crew) : (s.mapCrew uid f).firmware = s.firmware := rfl
@[simp] theorem State.mapCrew_dbgValue (s : State) (uid : Nat) (f : Crew → Crew) : (s.mapCrew uid f).dbgValue = s.dbgValue := rfl
@[simp] theorem State.mapCrew_dbgPending (s : State) (uid : Nat) (f : Crew → Crew) : (s.mapCrew uid f).dbgPending = s.dbgPending := rfl

/-! `setCrew` changes `crews` only. -/

@[simp] theorem State.setCrew_agenda (s : State) (c : Crew) : (s.setCrew c).agenda = s.agenda := rfl
@[simp] theorem State.setCrew_cur (s : State) (c : Crew) : (s.setCrew c).cur = s.cur := rfl
@[simp] theorem State.setCrew_now (s : State) (c : Crew) : (s.setCrew c).now = s.now := rfl
@[simp] theorem State.setCrew_draws (s : State) (c : Crew) : (s.setCrew c).draws = s.draws := rfl
@[simp] theorem State.setCrew_bad (s : State) (c : Crew) : (s.setCrew c).bad = s.bad := rfl
@[simp] theorem State.setCrew_hbm (s : State) (c : Crew) : (s.setCrew c).hbm = s.hbm := rfl
@[simp] theorem State.setCrew_host (s : State) (c : Crew) : (s.setCrew c).host = s.host := rfl
@[simp] theorem State.setCrew_poisoned (s : State) (c : Crew) : (s.setCrew c).poisoned = s.poisoned := rfl
@[simp] theorem State.setCrew_spoiled (s : State) (c : Crew) : (s.setCrew c).spoiled = s.spoiled := rfl
@[simp] theorem State.setCrew_stores (s : State) (c : Crew) : (s.setCrew c).stores = s.stores := rfl
@[simp] theorem State.setCrew_nextUid (s : State) (c : Crew) : (s.setCrew c).nextUid = s.nextUid := rfl
@[simp] theorem State.setCrew_windows (s : State) (c : Crew) : (s.setCrew c).windows = s.windows := rfl
@[simp] theorem State.setCrew_vaults (s : State) (c : Crew) : (s.setCrew c).vaults = s.vaults := rfl
@[simp] theorem State.setCrew_queues (s : State) (c : Crew) : (s.setCrew c).queues = s.queues := rfl
@[simp] theorem State.setCrew_strings (s : State) (c : Crew) : (s.setCrew c).strings = s.strings := rfl
@[simp] theorem State.setCrew_ctxs (s : State) (c : Crew) : (s.setCrew c).ctxs = s.ctxs := rfl
@[simp] theorem State.setCrew_funcs (s : State) (c : Crew) : (s.setCrew c).funcs = s.funcs := rfl
@[simp] theorem State.setCrew_launches (s : State) (c : Crew) : (s.setCrew c).launches = s.launches := rfl
@[simp] theorem State.setCrew_nextLaunch (s : State) (c : Crew) : (s.setCrew c).nextLaunch = s.nextLaunch := rfl
@[simp] theorem State.setCrew_tlbs (s : State) (c : Crew) : (s.setCrew c).tlbs = s.tlbs := rfl
@[simp] theorem State.setCrew_walks (s : State) (c : Crew) : (s.setCrew c).walks = s.walks := rfl
@[simp] theorem State.setCrew_l1 (s : State) (c : Crew) : (s.setCrew c).l1 = s.l1 := rfl
@[simp] theorem State.setCrew_l2 (s : State) (c : Crew) : (s.setCrew c).l2 = s.l2 := rfl
@[simp] theorem State.setCrew_hits (s : State) (c : Crew) : (s.setCrew c).hits = s.hits := rfl
@[simp] theorem State.setCrew_misses (s : State) (c : Crew) : (s.setCrew c).misses = s.misses := rfl
@[simp] theorem State.setCrew_masks (s : State) (c : Crew) : (s.setCrew c).masks = s.masks := rfl
@[simp] theorem State.setCrew_ibuf (s : State) (c : Crew) : (s.setCrew c).ibuf = s.ibuf := rfl
@[simp] theorem State.setCrew_ranges (s : State) (c : Crew) : (s.setCrew c).ranges = s.ranges := rfl
@[simp] theorem State.setCrew_images (s : State) (c : Crew) : (s.setCrew c).images = s.images := rfl
@[simp] theorem State.setCrew_seals (s : State) (c : Crew) : (s.setCrew c).seals = s.seals := rfl
@[simp] theorem State.setCrew_nextHandle (s : State) (c : Crew) : (s.setCrew c).nextHandle = s.nextHandle := rfl
@[simp] theorem State.setCrew_admWait (s : State) (c : Crew) : (s.setCrew c).admWait = s.admWait := rfl
@[simp] theorem State.setCrew_admQueue (s : State) (c : Crew) : (s.setCrew c).admQueue = s.admQueue := rfl
@[simp] theorem State.setCrew_ringWait (s : State) (c : Crew) : (s.setCrew c).ringWait = s.ringWait := rfl
@[simp] theorem State.setCrew_keySlots (s : State) (c : Crew) : (s.setCrew c).keySlots = s.keySlots := rfl
@[simp] theorem State.setCrew_worldLines (s : State) (c : Crew) : (s.setCrew c).worldLines = s.worldLines := rfl
@[simp] theorem State.setCrew_versions (s : State) (c : Crew) : (s.setCrew c).versions = s.versions := rfl
@[simp] theorem State.setCrew_readymap (s : State) (c : Crew) : (s.setCrew c).readymap = s.readymap := rfl
@[simp] theorem State.setCrew_health (s : State) (c : Crew) : (s.setCrew c).health = s.health := rfl
@[simp] theorem State.setCrew_power (s : State) (c : Crew) : (s.setCrew c).power = s.power := rfl
@[simp] theorem State.setCrew_fabid (s : State) (c : Crew) : (s.setCrew c).fabid = s.fabid := rfl
@[simp] theorem State.setCrew_links (s : State) (c : Crew) : (s.setCrew c).links = s.links := rfl
@[simp] theorem State.setCrew_routes (s : State) (c : Crew) : (s.setCrew c).routes = s.routes := rfl
@[simp] theorem State.setCrew_fgrp (s : State) (c : Crew) : (s.setCrew c).fgrp = s.fgrp := rfl
@[simp] theorem State.setCrew_heldArr (s : State) (c : Crew) : (s.setCrew c).heldArr = s.heldArr := rfl
@[simp] theorem State.setCrew_firmware (s : State) (c : Crew) : (s.setCrew c).firmware = s.firmware := rfl
@[simp] theorem State.setCrew_dbgValue (s : State) (c : Crew) : (s.setCrew c).dbgValue = s.dbgValue := rfl
@[simp] theorem State.setCrew_dbgPending (s : State) (c : Crew) : (s.setCrew c).dbgPending = s.dbgPending := rfl

/-! `mapGang` changes `crews` only. -/

@[simp] theorem State.mapGang_agenda (s : State) (uid k : Nat) (f : Gang → Gang) : (s.mapGang uid k f).agenda = s.agenda := rfl
@[simp] theorem State.mapGang_cur (s : State) (uid k : Nat) (f : Gang → Gang) : (s.mapGang uid k f).cur = s.cur := rfl
@[simp] theorem State.mapGang_now (s : State) (uid k : Nat) (f : Gang → Gang) : (s.mapGang uid k f).now = s.now := rfl
@[simp] theorem State.mapGang_draws (s : State) (uid k : Nat) (f : Gang → Gang) : (s.mapGang uid k f).draws = s.draws := rfl
@[simp] theorem State.mapGang_bad (s : State) (uid k : Nat) (f : Gang → Gang) : (s.mapGang uid k f).bad = s.bad := rfl
@[simp] theorem State.mapGang_hbm (s : State) (uid k : Nat) (f : Gang → Gang) : (s.mapGang uid k f).hbm = s.hbm := rfl
@[simp] theorem State.mapGang_host (s : State) (uid k : Nat) (f : Gang → Gang) : (s.mapGang uid k f).host = s.host := rfl
@[simp] theorem State.mapGang_poisoned (s : State) (uid k : Nat) (f : Gang → Gang) : (s.mapGang uid k f).poisoned = s.poisoned := rfl
@[simp] theorem State.mapGang_spoiled (s : State) (uid k : Nat) (f : Gang → Gang) : (s.mapGang uid k f).spoiled = s.spoiled := rfl
@[simp] theorem State.mapGang_stores (s : State) (uid k : Nat) (f : Gang → Gang) : (s.mapGang uid k f).stores = s.stores := rfl
@[simp] theorem State.mapGang_nextUid (s : State) (uid k : Nat) (f : Gang → Gang) : (s.mapGang uid k f).nextUid = s.nextUid := rfl
@[simp] theorem State.mapGang_windows (s : State) (uid k : Nat) (f : Gang → Gang) : (s.mapGang uid k f).windows = s.windows := rfl
@[simp] theorem State.mapGang_vaults (s : State) (uid k : Nat) (f : Gang → Gang) : (s.mapGang uid k f).vaults = s.vaults := rfl
@[simp] theorem State.mapGang_queues (s : State) (uid k : Nat) (f : Gang → Gang) : (s.mapGang uid k f).queues = s.queues := rfl
@[simp] theorem State.mapGang_strings (s : State) (uid k : Nat) (f : Gang → Gang) : (s.mapGang uid k f).strings = s.strings := rfl
@[simp] theorem State.mapGang_ctxs (s : State) (uid k : Nat) (f : Gang → Gang) : (s.mapGang uid k f).ctxs = s.ctxs := rfl
@[simp] theorem State.mapGang_funcs (s : State) (uid k : Nat) (f : Gang → Gang) : (s.mapGang uid k f).funcs = s.funcs := rfl
@[simp] theorem State.mapGang_launches (s : State) (uid k : Nat) (f : Gang → Gang) : (s.mapGang uid k f).launches = s.launches := rfl
@[simp] theorem State.mapGang_nextLaunch (s : State) (uid k : Nat) (f : Gang → Gang) : (s.mapGang uid k f).nextLaunch = s.nextLaunch := rfl
@[simp] theorem State.mapGang_tlbs (s : State) (uid k : Nat) (f : Gang → Gang) : (s.mapGang uid k f).tlbs = s.tlbs := rfl
@[simp] theorem State.mapGang_walks (s : State) (uid k : Nat) (f : Gang → Gang) : (s.mapGang uid k f).walks = s.walks := rfl
@[simp] theorem State.mapGang_l1 (s : State) (uid k : Nat) (f : Gang → Gang) : (s.mapGang uid k f).l1 = s.l1 := rfl
@[simp] theorem State.mapGang_l2 (s : State) (uid k : Nat) (f : Gang → Gang) : (s.mapGang uid k f).l2 = s.l2 := rfl
@[simp] theorem State.mapGang_hits (s : State) (uid k : Nat) (f : Gang → Gang) : (s.mapGang uid k f).hits = s.hits := rfl
@[simp] theorem State.mapGang_misses (s : State) (uid k : Nat) (f : Gang → Gang) : (s.mapGang uid k f).misses = s.misses := rfl
@[simp] theorem State.mapGang_masks (s : State) (uid k : Nat) (f : Gang → Gang) : (s.mapGang uid k f).masks = s.masks := rfl
@[simp] theorem State.mapGang_ibuf (s : State) (uid k : Nat) (f : Gang → Gang) : (s.mapGang uid k f).ibuf = s.ibuf := rfl
@[simp] theorem State.mapGang_ranges (s : State) (uid k : Nat) (f : Gang → Gang) : (s.mapGang uid k f).ranges = s.ranges := rfl
@[simp] theorem State.mapGang_images (s : State) (uid k : Nat) (f : Gang → Gang) : (s.mapGang uid k f).images = s.images := rfl
@[simp] theorem State.mapGang_seals (s : State) (uid k : Nat) (f : Gang → Gang) : (s.mapGang uid k f).seals = s.seals := rfl
@[simp] theorem State.mapGang_nextHandle (s : State) (uid k : Nat) (f : Gang → Gang) : (s.mapGang uid k f).nextHandle = s.nextHandle := rfl
@[simp] theorem State.mapGang_admWait (s : State) (uid k : Nat) (f : Gang → Gang) : (s.mapGang uid k f).admWait = s.admWait := rfl
@[simp] theorem State.mapGang_admQueue (s : State) (uid k : Nat) (f : Gang → Gang) : (s.mapGang uid k f).admQueue = s.admQueue := rfl
@[simp] theorem State.mapGang_ringWait (s : State) (uid k : Nat) (f : Gang → Gang) : (s.mapGang uid k f).ringWait = s.ringWait := rfl
@[simp] theorem State.mapGang_keySlots (s : State) (uid k : Nat) (f : Gang → Gang) : (s.mapGang uid k f).keySlots = s.keySlots := rfl
@[simp] theorem State.mapGang_worldLines (s : State) (uid k : Nat) (f : Gang → Gang) : (s.mapGang uid k f).worldLines = s.worldLines := rfl
@[simp] theorem State.mapGang_versions (s : State) (uid k : Nat) (f : Gang → Gang) : (s.mapGang uid k f).versions = s.versions := rfl
@[simp] theorem State.mapGang_readymap (s : State) (uid k : Nat) (f : Gang → Gang) : (s.mapGang uid k f).readymap = s.readymap := rfl
@[simp] theorem State.mapGang_health (s : State) (uid k : Nat) (f : Gang → Gang) : (s.mapGang uid k f).health = s.health := rfl
@[simp] theorem State.mapGang_power (s : State) (uid k : Nat) (f : Gang → Gang) : (s.mapGang uid k f).power = s.power := rfl
@[simp] theorem State.mapGang_fabid (s : State) (uid k : Nat) (f : Gang → Gang) : (s.mapGang uid k f).fabid = s.fabid := rfl
@[simp] theorem State.mapGang_links (s : State) (uid k : Nat) (f : Gang → Gang) : (s.mapGang uid k f).links = s.links := rfl
@[simp] theorem State.mapGang_routes (s : State) (uid k : Nat) (f : Gang → Gang) : (s.mapGang uid k f).routes = s.routes := rfl
@[simp] theorem State.mapGang_fgrp (s : State) (uid k : Nat) (f : Gang → Gang) : (s.mapGang uid k f).fgrp = s.fgrp := rfl
@[simp] theorem State.mapGang_heldArr (s : State) (uid k : Nat) (f : Gang → Gang) : (s.mapGang uid k f).heldArr = s.heldArr := rfl
@[simp] theorem State.mapGang_firmware (s : State) (uid k : Nat) (f : Gang → Gang) : (s.mapGang uid k f).firmware = s.firmware := rfl
@[simp] theorem State.mapGang_dbgValue (s : State) (uid k : Nat) (f : Gang → Gang) : (s.mapGang uid k f).dbgValue = s.dbgValue := rfl
@[simp] theorem State.mapGang_dbgPending (s : State) (uid k : Nat) (f : Gang → Gang) : (s.mapGang uid k f).dbgPending = s.dbgPending := rfl

/-! `mapLaunch` changes `launches` only. -/

@[simp] theorem State.mapLaunch_agenda (s : State) (id : Nat) (f : Launch → Launch) : (s.mapLaunch id f).agenda = s.agenda := rfl
@[simp] theorem State.mapLaunch_cur (s : State) (id : Nat) (f : Launch → Launch) : (s.mapLaunch id f).cur = s.cur := rfl
@[simp] theorem State.mapLaunch_now (s : State) (id : Nat) (f : Launch → Launch) : (s.mapLaunch id f).now = s.now := rfl
@[simp] theorem State.mapLaunch_draws (s : State) (id : Nat) (f : Launch → Launch) : (s.mapLaunch id f).draws = s.draws := rfl
@[simp] theorem State.mapLaunch_bad (s : State) (id : Nat) (f : Launch → Launch) : (s.mapLaunch id f).bad = s.bad := rfl
@[simp] theorem State.mapLaunch_hbm (s : State) (id : Nat) (f : Launch → Launch) : (s.mapLaunch id f).hbm = s.hbm := rfl
@[simp] theorem State.mapLaunch_host (s : State) (id : Nat) (f : Launch → Launch) : (s.mapLaunch id f).host = s.host := rfl
@[simp] theorem State.mapLaunch_poisoned (s : State) (id : Nat) (f : Launch → Launch) : (s.mapLaunch id f).poisoned = s.poisoned := rfl
@[simp] theorem State.mapLaunch_spoiled (s : State) (id : Nat) (f : Launch → Launch) : (s.mapLaunch id f).spoiled = s.spoiled := rfl
@[simp] theorem State.mapLaunch_stores (s : State) (id : Nat) (f : Launch → Launch) : (s.mapLaunch id f).stores = s.stores := rfl
@[simp] theorem State.mapLaunch_crews (s : State) (id : Nat) (f : Launch → Launch) : (s.mapLaunch id f).crews = s.crews := rfl
@[simp] theorem State.mapLaunch_nextUid (s : State) (id : Nat) (f : Launch → Launch) : (s.mapLaunch id f).nextUid = s.nextUid := rfl
@[simp] theorem State.mapLaunch_windows (s : State) (id : Nat) (f : Launch → Launch) : (s.mapLaunch id f).windows = s.windows := rfl
@[simp] theorem State.mapLaunch_vaults (s : State) (id : Nat) (f : Launch → Launch) : (s.mapLaunch id f).vaults = s.vaults := rfl
@[simp] theorem State.mapLaunch_queues (s : State) (id : Nat) (f : Launch → Launch) : (s.mapLaunch id f).queues = s.queues := rfl
@[simp] theorem State.mapLaunch_strings (s : State) (id : Nat) (f : Launch → Launch) : (s.mapLaunch id f).strings = s.strings := rfl
@[simp] theorem State.mapLaunch_ctxs (s : State) (id : Nat) (f : Launch → Launch) : (s.mapLaunch id f).ctxs = s.ctxs := rfl
@[simp] theorem State.mapLaunch_funcs (s : State) (id : Nat) (f : Launch → Launch) : (s.mapLaunch id f).funcs = s.funcs := rfl
@[simp] theorem State.mapLaunch_nextLaunch (s : State) (id : Nat) (f : Launch → Launch) : (s.mapLaunch id f).nextLaunch = s.nextLaunch := rfl
@[simp] theorem State.mapLaunch_tlbs (s : State) (id : Nat) (f : Launch → Launch) : (s.mapLaunch id f).tlbs = s.tlbs := rfl
@[simp] theorem State.mapLaunch_walks (s : State) (id : Nat) (f : Launch → Launch) : (s.mapLaunch id f).walks = s.walks := rfl
@[simp] theorem State.mapLaunch_l1 (s : State) (id : Nat) (f : Launch → Launch) : (s.mapLaunch id f).l1 = s.l1 := rfl
@[simp] theorem State.mapLaunch_l2 (s : State) (id : Nat) (f : Launch → Launch) : (s.mapLaunch id f).l2 = s.l2 := rfl
@[simp] theorem State.mapLaunch_hits (s : State) (id : Nat) (f : Launch → Launch) : (s.mapLaunch id f).hits = s.hits := rfl
@[simp] theorem State.mapLaunch_misses (s : State) (id : Nat) (f : Launch → Launch) : (s.mapLaunch id f).misses = s.misses := rfl
@[simp] theorem State.mapLaunch_masks (s : State) (id : Nat) (f : Launch → Launch) : (s.mapLaunch id f).masks = s.masks := rfl
@[simp] theorem State.mapLaunch_ibuf (s : State) (id : Nat) (f : Launch → Launch) : (s.mapLaunch id f).ibuf = s.ibuf := rfl
@[simp] theorem State.mapLaunch_ranges (s : State) (id : Nat) (f : Launch → Launch) : (s.mapLaunch id f).ranges = s.ranges := rfl
@[simp] theorem State.mapLaunch_images (s : State) (id : Nat) (f : Launch → Launch) : (s.mapLaunch id f).images = s.images := rfl
@[simp] theorem State.mapLaunch_seals (s : State) (id : Nat) (f : Launch → Launch) : (s.mapLaunch id f).seals = s.seals := rfl
@[simp] theorem State.mapLaunch_nextHandle (s : State) (id : Nat) (f : Launch → Launch) : (s.mapLaunch id f).nextHandle = s.nextHandle := rfl
@[simp] theorem State.mapLaunch_admWait (s : State) (id : Nat) (f : Launch → Launch) : (s.mapLaunch id f).admWait = s.admWait := rfl
@[simp] theorem State.mapLaunch_admQueue (s : State) (id : Nat) (f : Launch → Launch) : (s.mapLaunch id f).admQueue = s.admQueue := rfl
@[simp] theorem State.mapLaunch_ringWait (s : State) (id : Nat) (f : Launch → Launch) : (s.mapLaunch id f).ringWait = s.ringWait := rfl
@[simp] theorem State.mapLaunch_keySlots (s : State) (id : Nat) (f : Launch → Launch) : (s.mapLaunch id f).keySlots = s.keySlots := rfl
@[simp] theorem State.mapLaunch_worldLines (s : State) (id : Nat) (f : Launch → Launch) : (s.mapLaunch id f).worldLines = s.worldLines := rfl
@[simp] theorem State.mapLaunch_versions (s : State) (id : Nat) (f : Launch → Launch) : (s.mapLaunch id f).versions = s.versions := rfl
@[simp] theorem State.mapLaunch_readymap (s : State) (id : Nat) (f : Launch → Launch) : (s.mapLaunch id f).readymap = s.readymap := rfl
@[simp] theorem State.mapLaunch_health (s : State) (id : Nat) (f : Launch → Launch) : (s.mapLaunch id f).health = s.health := rfl
@[simp] theorem State.mapLaunch_power (s : State) (id : Nat) (f : Launch → Launch) : (s.mapLaunch id f).power = s.power := rfl
@[simp] theorem State.mapLaunch_fabid (s : State) (id : Nat) (f : Launch → Launch) : (s.mapLaunch id f).fabid = s.fabid := rfl
@[simp] theorem State.mapLaunch_links (s : State) (id : Nat) (f : Launch → Launch) : (s.mapLaunch id f).links = s.links := rfl
@[simp] theorem State.mapLaunch_routes (s : State) (id : Nat) (f : Launch → Launch) : (s.mapLaunch id f).routes = s.routes := rfl
@[simp] theorem State.mapLaunch_fgrp (s : State) (id : Nat) (f : Launch → Launch) : (s.mapLaunch id f).fgrp = s.fgrp := rfl
@[simp] theorem State.mapLaunch_heldArr (s : State) (id : Nat) (f : Launch → Launch) : (s.mapLaunch id f).heldArr = s.heldArr := rfl
@[simp] theorem State.mapLaunch_firmware (s : State) (id : Nat) (f : Launch → Launch) : (s.mapLaunch id f).firmware = s.firmware := rfl
@[simp] theorem State.mapLaunch_dbgValue (s : State) (id : Nat) (f : Launch → Launch) : (s.mapLaunch id f).dbgValue = s.dbgValue := rfl
@[simp] theorem State.mapLaunch_dbgPending (s : State) (id : Nat) (f : Launch → Launch) : (s.mapLaunch id f).dbgPending = s.dbgPending := rfl

/-! `mapFunc` changes `funcs` only. -/

@[simp] theorem State.mapFunc_agenda (s : State) (vf : Nat) (f : Func → Func) : (s.mapFunc vf f).agenda = s.agenda := rfl
@[simp] theorem State.mapFunc_cur (s : State) (vf : Nat) (f : Func → Func) : (s.mapFunc vf f).cur = s.cur := rfl
@[simp] theorem State.mapFunc_now (s : State) (vf : Nat) (f : Func → Func) : (s.mapFunc vf f).now = s.now := rfl
@[simp] theorem State.mapFunc_draws (s : State) (vf : Nat) (f : Func → Func) : (s.mapFunc vf f).draws = s.draws := rfl
@[simp] theorem State.mapFunc_bad (s : State) (vf : Nat) (f : Func → Func) : (s.mapFunc vf f).bad = s.bad := rfl
@[simp] theorem State.mapFunc_hbm (s : State) (vf : Nat) (f : Func → Func) : (s.mapFunc vf f).hbm = s.hbm := rfl
@[simp] theorem State.mapFunc_host (s : State) (vf : Nat) (f : Func → Func) : (s.mapFunc vf f).host = s.host := rfl
@[simp] theorem State.mapFunc_poisoned (s : State) (vf : Nat) (f : Func → Func) : (s.mapFunc vf f).poisoned = s.poisoned := rfl
@[simp] theorem State.mapFunc_spoiled (s : State) (vf : Nat) (f : Func → Func) : (s.mapFunc vf f).spoiled = s.spoiled := rfl
@[simp] theorem State.mapFunc_stores (s : State) (vf : Nat) (f : Func → Func) : (s.mapFunc vf f).stores = s.stores := rfl
@[simp] theorem State.mapFunc_crews (s : State) (vf : Nat) (f : Func → Func) : (s.mapFunc vf f).crews = s.crews := rfl
@[simp] theorem State.mapFunc_nextUid (s : State) (vf : Nat) (f : Func → Func) : (s.mapFunc vf f).nextUid = s.nextUid := rfl
@[simp] theorem State.mapFunc_windows (s : State) (vf : Nat) (f : Func → Func) : (s.mapFunc vf f).windows = s.windows := rfl
@[simp] theorem State.mapFunc_vaults (s : State) (vf : Nat) (f : Func → Func) : (s.mapFunc vf f).vaults = s.vaults := rfl
@[simp] theorem State.mapFunc_queues (s : State) (vf : Nat) (f : Func → Func) : (s.mapFunc vf f).queues = s.queues := rfl
@[simp] theorem State.mapFunc_strings (s : State) (vf : Nat) (f : Func → Func) : (s.mapFunc vf f).strings = s.strings := rfl
@[simp] theorem State.mapFunc_ctxs (s : State) (vf : Nat) (f : Func → Func) : (s.mapFunc vf f).ctxs = s.ctxs := rfl
@[simp] theorem State.mapFunc_launches (s : State) (vf : Nat) (f : Func → Func) : (s.mapFunc vf f).launches = s.launches := rfl
@[simp] theorem State.mapFunc_nextLaunch (s : State) (vf : Nat) (f : Func → Func) : (s.mapFunc vf f).nextLaunch = s.nextLaunch := rfl
@[simp] theorem State.mapFunc_tlbs (s : State) (vf : Nat) (f : Func → Func) : (s.mapFunc vf f).tlbs = s.tlbs := rfl
@[simp] theorem State.mapFunc_walks (s : State) (vf : Nat) (f : Func → Func) : (s.mapFunc vf f).walks = s.walks := rfl
@[simp] theorem State.mapFunc_l1 (s : State) (vf : Nat) (f : Func → Func) : (s.mapFunc vf f).l1 = s.l1 := rfl
@[simp] theorem State.mapFunc_l2 (s : State) (vf : Nat) (f : Func → Func) : (s.mapFunc vf f).l2 = s.l2 := rfl
@[simp] theorem State.mapFunc_hits (s : State) (vf : Nat) (f : Func → Func) : (s.mapFunc vf f).hits = s.hits := rfl
@[simp] theorem State.mapFunc_misses (s : State) (vf : Nat) (f : Func → Func) : (s.mapFunc vf f).misses = s.misses := rfl
@[simp] theorem State.mapFunc_masks (s : State) (vf : Nat) (f : Func → Func) : (s.mapFunc vf f).masks = s.masks := rfl
@[simp] theorem State.mapFunc_ibuf (s : State) (vf : Nat) (f : Func → Func) : (s.mapFunc vf f).ibuf = s.ibuf := rfl
@[simp] theorem State.mapFunc_ranges (s : State) (vf : Nat) (f : Func → Func) : (s.mapFunc vf f).ranges = s.ranges := rfl
@[simp] theorem State.mapFunc_images (s : State) (vf : Nat) (f : Func → Func) : (s.mapFunc vf f).images = s.images := rfl
@[simp] theorem State.mapFunc_seals (s : State) (vf : Nat) (f : Func → Func) : (s.mapFunc vf f).seals = s.seals := rfl
@[simp] theorem State.mapFunc_nextHandle (s : State) (vf : Nat) (f : Func → Func) : (s.mapFunc vf f).nextHandle = s.nextHandle := rfl
@[simp] theorem State.mapFunc_admWait (s : State) (vf : Nat) (f : Func → Func) : (s.mapFunc vf f).admWait = s.admWait := rfl
@[simp] theorem State.mapFunc_admQueue (s : State) (vf : Nat) (f : Func → Func) : (s.mapFunc vf f).admQueue = s.admQueue := rfl
@[simp] theorem State.mapFunc_ringWait (s : State) (vf : Nat) (f : Func → Func) : (s.mapFunc vf f).ringWait = s.ringWait := rfl
@[simp] theorem State.mapFunc_keySlots (s : State) (vf : Nat) (f : Func → Func) : (s.mapFunc vf f).keySlots = s.keySlots := rfl
@[simp] theorem State.mapFunc_worldLines (s : State) (vf : Nat) (f : Func → Func) : (s.mapFunc vf f).worldLines = s.worldLines := rfl
@[simp] theorem State.mapFunc_versions (s : State) (vf : Nat) (f : Func → Func) : (s.mapFunc vf f).versions = s.versions := rfl
@[simp] theorem State.mapFunc_readymap (s : State) (vf : Nat) (f : Func → Func) : (s.mapFunc vf f).readymap = s.readymap := rfl
@[simp] theorem State.mapFunc_health (s : State) (vf : Nat) (f : Func → Func) : (s.mapFunc vf f).health = s.health := rfl
@[simp] theorem State.mapFunc_power (s : State) (vf : Nat) (f : Func → Func) : (s.mapFunc vf f).power = s.power := rfl
@[simp] theorem State.mapFunc_fabid (s : State) (vf : Nat) (f : Func → Func) : (s.mapFunc vf f).fabid = s.fabid := rfl
@[simp] theorem State.mapFunc_links (s : State) (vf : Nat) (f : Func → Func) : (s.mapFunc vf f).links = s.links := rfl
@[simp] theorem State.mapFunc_routes (s : State) (vf : Nat) (f : Func → Func) : (s.mapFunc vf f).routes = s.routes := rfl
@[simp] theorem State.mapFunc_fgrp (s : State) (vf : Nat) (f : Func → Func) : (s.mapFunc vf f).fgrp = s.fgrp := rfl
@[simp] theorem State.mapFunc_heldArr (s : State) (vf : Nat) (f : Func → Func) : (s.mapFunc vf f).heldArr = s.heldArr := rfl
@[simp] theorem State.mapFunc_firmware (s : State) (vf : Nat) (f : Func → Func) : (s.mapFunc vf f).firmware = s.firmware := rfl
@[simp] theorem State.mapFunc_dbgValue (s : State) (vf : Nat) (f : Func → Func) : (s.mapFunc vf f).dbgValue = s.dbgValue := rfl
@[simp] theorem State.mapFunc_dbgPending (s : State) (vf : Nat) (f : Func → Func) : (s.mapFunc vf f).dbgPending = s.dbgPending := rfl

/-! `mapWindow` changes `windows` only. -/

@[simp] theorem State.mapWindow_agenda (s : State) (home entry : Nat) (f : Window → Window) : (s.mapWindow home entry f).agenda = s.agenda := rfl
@[simp] theorem State.mapWindow_cur (s : State) (home entry : Nat) (f : Window → Window) : (s.mapWindow home entry f).cur = s.cur := rfl
@[simp] theorem State.mapWindow_now (s : State) (home entry : Nat) (f : Window → Window) : (s.mapWindow home entry f).now = s.now := rfl
@[simp] theorem State.mapWindow_draws (s : State) (home entry : Nat) (f : Window → Window) : (s.mapWindow home entry f).draws = s.draws := rfl
@[simp] theorem State.mapWindow_bad (s : State) (home entry : Nat) (f : Window → Window) : (s.mapWindow home entry f).bad = s.bad := rfl
@[simp] theorem State.mapWindow_hbm (s : State) (home entry : Nat) (f : Window → Window) : (s.mapWindow home entry f).hbm = s.hbm := rfl
@[simp] theorem State.mapWindow_host (s : State) (home entry : Nat) (f : Window → Window) : (s.mapWindow home entry f).host = s.host := rfl
@[simp] theorem State.mapWindow_poisoned (s : State) (home entry : Nat) (f : Window → Window) : (s.mapWindow home entry f).poisoned = s.poisoned := rfl
@[simp] theorem State.mapWindow_spoiled (s : State) (home entry : Nat) (f : Window → Window) : (s.mapWindow home entry f).spoiled = s.spoiled := rfl
@[simp] theorem State.mapWindow_stores (s : State) (home entry : Nat) (f : Window → Window) : (s.mapWindow home entry f).stores = s.stores := rfl
@[simp] theorem State.mapWindow_crews (s : State) (home entry : Nat) (f : Window → Window) : (s.mapWindow home entry f).crews = s.crews := rfl
@[simp] theorem State.mapWindow_nextUid (s : State) (home entry : Nat) (f : Window → Window) : (s.mapWindow home entry f).nextUid = s.nextUid := rfl
@[simp] theorem State.mapWindow_vaults (s : State) (home entry : Nat) (f : Window → Window) : (s.mapWindow home entry f).vaults = s.vaults := rfl
@[simp] theorem State.mapWindow_queues (s : State) (home entry : Nat) (f : Window → Window) : (s.mapWindow home entry f).queues = s.queues := rfl
@[simp] theorem State.mapWindow_strings (s : State) (home entry : Nat) (f : Window → Window) : (s.mapWindow home entry f).strings = s.strings := rfl
@[simp] theorem State.mapWindow_ctxs (s : State) (home entry : Nat) (f : Window → Window) : (s.mapWindow home entry f).ctxs = s.ctxs := rfl
@[simp] theorem State.mapWindow_funcs (s : State) (home entry : Nat) (f : Window → Window) : (s.mapWindow home entry f).funcs = s.funcs := rfl
@[simp] theorem State.mapWindow_launches (s : State) (home entry : Nat) (f : Window → Window) : (s.mapWindow home entry f).launches = s.launches := rfl
@[simp] theorem State.mapWindow_nextLaunch (s : State) (home entry : Nat) (f : Window → Window) : (s.mapWindow home entry f).nextLaunch = s.nextLaunch := rfl
@[simp] theorem State.mapWindow_tlbs (s : State) (home entry : Nat) (f : Window → Window) : (s.mapWindow home entry f).tlbs = s.tlbs := rfl
@[simp] theorem State.mapWindow_walks (s : State) (home entry : Nat) (f : Window → Window) : (s.mapWindow home entry f).walks = s.walks := rfl
@[simp] theorem State.mapWindow_l1 (s : State) (home entry : Nat) (f : Window → Window) : (s.mapWindow home entry f).l1 = s.l1 := rfl
@[simp] theorem State.mapWindow_l2 (s : State) (home entry : Nat) (f : Window → Window) : (s.mapWindow home entry f).l2 = s.l2 := rfl
@[simp] theorem State.mapWindow_hits (s : State) (home entry : Nat) (f : Window → Window) : (s.mapWindow home entry f).hits = s.hits := rfl
@[simp] theorem State.mapWindow_misses (s : State) (home entry : Nat) (f : Window → Window) : (s.mapWindow home entry f).misses = s.misses := rfl
@[simp] theorem State.mapWindow_masks (s : State) (home entry : Nat) (f : Window → Window) : (s.mapWindow home entry f).masks = s.masks := rfl
@[simp] theorem State.mapWindow_ibuf (s : State) (home entry : Nat) (f : Window → Window) : (s.mapWindow home entry f).ibuf = s.ibuf := rfl
@[simp] theorem State.mapWindow_ranges (s : State) (home entry : Nat) (f : Window → Window) : (s.mapWindow home entry f).ranges = s.ranges := rfl
@[simp] theorem State.mapWindow_images (s : State) (home entry : Nat) (f : Window → Window) : (s.mapWindow home entry f).images = s.images := rfl
@[simp] theorem State.mapWindow_seals (s : State) (home entry : Nat) (f : Window → Window) : (s.mapWindow home entry f).seals = s.seals := rfl
@[simp] theorem State.mapWindow_nextHandle (s : State) (home entry : Nat) (f : Window → Window) : (s.mapWindow home entry f).nextHandle = s.nextHandle := rfl
@[simp] theorem State.mapWindow_admWait (s : State) (home entry : Nat) (f : Window → Window) : (s.mapWindow home entry f).admWait = s.admWait := rfl
@[simp] theorem State.mapWindow_admQueue (s : State) (home entry : Nat) (f : Window → Window) : (s.mapWindow home entry f).admQueue = s.admQueue := rfl
@[simp] theorem State.mapWindow_ringWait (s : State) (home entry : Nat) (f : Window → Window) : (s.mapWindow home entry f).ringWait = s.ringWait := rfl
@[simp] theorem State.mapWindow_keySlots (s : State) (home entry : Nat) (f : Window → Window) : (s.mapWindow home entry f).keySlots = s.keySlots := rfl
@[simp] theorem State.mapWindow_worldLines (s : State) (home entry : Nat) (f : Window → Window) : (s.mapWindow home entry f).worldLines = s.worldLines := rfl
@[simp] theorem State.mapWindow_versions (s : State) (home entry : Nat) (f : Window → Window) : (s.mapWindow home entry f).versions = s.versions := rfl
@[simp] theorem State.mapWindow_readymap (s : State) (home entry : Nat) (f : Window → Window) : (s.mapWindow home entry f).readymap = s.readymap := rfl
@[simp] theorem State.mapWindow_health (s : State) (home entry : Nat) (f : Window → Window) : (s.mapWindow home entry f).health = s.health := rfl
@[simp] theorem State.mapWindow_power (s : State) (home entry : Nat) (f : Window → Window) : (s.mapWindow home entry f).power = s.power := rfl
@[simp] theorem State.mapWindow_fabid (s : State) (home entry : Nat) (f : Window → Window) : (s.mapWindow home entry f).fabid = s.fabid := rfl
@[simp] theorem State.mapWindow_links (s : State) (home entry : Nat) (f : Window → Window) : (s.mapWindow home entry f).links = s.links := rfl
@[simp] theorem State.mapWindow_routes (s : State) (home entry : Nat) (f : Window → Window) : (s.mapWindow home entry f).routes = s.routes := rfl
@[simp] theorem State.mapWindow_fgrp (s : State) (home entry : Nat) (f : Window → Window) : (s.mapWindow home entry f).fgrp = s.fgrp := rfl
@[simp] theorem State.mapWindow_heldArr (s : State) (home entry : Nat) (f : Window → Window) : (s.mapWindow home entry f).heldArr = s.heldArr := rfl
@[simp] theorem State.mapWindow_firmware (s : State) (home entry : Nat) (f : Window → Window) : (s.mapWindow home entry f).firmware = s.firmware := rfl
@[simp] theorem State.mapWindow_dbgValue (s : State) (home entry : Nat) (f : Window → Window) : (s.mapWindow home entry f).dbgValue = s.dbgValue := rfl
@[simp] theorem State.mapWindow_dbgPending (s : State) (home entry : Nat) (f : Window → Window) : (s.mapWindow home entry f).dbgPending = s.dbgPending := rfl

/-! `mapVault` changes `vaults` only. -/

@[simp] theorem State.mapVault_agenda (s : State) (launch camp : Nat) (f : VaultWin → VaultWin) : (s.mapVault launch camp f).agenda = s.agenda := rfl
@[simp] theorem State.mapVault_cur (s : State) (launch camp : Nat) (f : VaultWin → VaultWin) : (s.mapVault launch camp f).cur = s.cur := rfl
@[simp] theorem State.mapVault_now (s : State) (launch camp : Nat) (f : VaultWin → VaultWin) : (s.mapVault launch camp f).now = s.now := rfl
@[simp] theorem State.mapVault_draws (s : State) (launch camp : Nat) (f : VaultWin → VaultWin) : (s.mapVault launch camp f).draws = s.draws := rfl
@[simp] theorem State.mapVault_bad (s : State) (launch camp : Nat) (f : VaultWin → VaultWin) : (s.mapVault launch camp f).bad = s.bad := rfl
@[simp] theorem State.mapVault_hbm (s : State) (launch camp : Nat) (f : VaultWin → VaultWin) : (s.mapVault launch camp f).hbm = s.hbm := rfl
@[simp] theorem State.mapVault_host (s : State) (launch camp : Nat) (f : VaultWin → VaultWin) : (s.mapVault launch camp f).host = s.host := rfl
@[simp] theorem State.mapVault_poisoned (s : State) (launch camp : Nat) (f : VaultWin → VaultWin) : (s.mapVault launch camp f).poisoned = s.poisoned := rfl
@[simp] theorem State.mapVault_spoiled (s : State) (launch camp : Nat) (f : VaultWin → VaultWin) : (s.mapVault launch camp f).spoiled = s.spoiled := rfl
@[simp] theorem State.mapVault_stores (s : State) (launch camp : Nat) (f : VaultWin → VaultWin) : (s.mapVault launch camp f).stores = s.stores := rfl
@[simp] theorem State.mapVault_crews (s : State) (launch camp : Nat) (f : VaultWin → VaultWin) : (s.mapVault launch camp f).crews = s.crews := rfl
@[simp] theorem State.mapVault_nextUid (s : State) (launch camp : Nat) (f : VaultWin → VaultWin) : (s.mapVault launch camp f).nextUid = s.nextUid := rfl
@[simp] theorem State.mapVault_windows (s : State) (launch camp : Nat) (f : VaultWin → VaultWin) : (s.mapVault launch camp f).windows = s.windows := rfl
@[simp] theorem State.mapVault_queues (s : State) (launch camp : Nat) (f : VaultWin → VaultWin) : (s.mapVault launch camp f).queues = s.queues := rfl
@[simp] theorem State.mapVault_strings (s : State) (launch camp : Nat) (f : VaultWin → VaultWin) : (s.mapVault launch camp f).strings = s.strings := rfl
@[simp] theorem State.mapVault_ctxs (s : State) (launch camp : Nat) (f : VaultWin → VaultWin) : (s.mapVault launch camp f).ctxs = s.ctxs := rfl
@[simp] theorem State.mapVault_funcs (s : State) (launch camp : Nat) (f : VaultWin → VaultWin) : (s.mapVault launch camp f).funcs = s.funcs := rfl
@[simp] theorem State.mapVault_launches (s : State) (launch camp : Nat) (f : VaultWin → VaultWin) : (s.mapVault launch camp f).launches = s.launches := rfl
@[simp] theorem State.mapVault_nextLaunch (s : State) (launch camp : Nat) (f : VaultWin → VaultWin) : (s.mapVault launch camp f).nextLaunch = s.nextLaunch := rfl
@[simp] theorem State.mapVault_tlbs (s : State) (launch camp : Nat) (f : VaultWin → VaultWin) : (s.mapVault launch camp f).tlbs = s.tlbs := rfl
@[simp] theorem State.mapVault_walks (s : State) (launch camp : Nat) (f : VaultWin → VaultWin) : (s.mapVault launch camp f).walks = s.walks := rfl
@[simp] theorem State.mapVault_l1 (s : State) (launch camp : Nat) (f : VaultWin → VaultWin) : (s.mapVault launch camp f).l1 = s.l1 := rfl
@[simp] theorem State.mapVault_l2 (s : State) (launch camp : Nat) (f : VaultWin → VaultWin) : (s.mapVault launch camp f).l2 = s.l2 := rfl
@[simp] theorem State.mapVault_hits (s : State) (launch camp : Nat) (f : VaultWin → VaultWin) : (s.mapVault launch camp f).hits = s.hits := rfl
@[simp] theorem State.mapVault_misses (s : State) (launch camp : Nat) (f : VaultWin → VaultWin) : (s.mapVault launch camp f).misses = s.misses := rfl
@[simp] theorem State.mapVault_masks (s : State) (launch camp : Nat) (f : VaultWin → VaultWin) : (s.mapVault launch camp f).masks = s.masks := rfl
@[simp] theorem State.mapVault_ibuf (s : State) (launch camp : Nat) (f : VaultWin → VaultWin) : (s.mapVault launch camp f).ibuf = s.ibuf := rfl
@[simp] theorem State.mapVault_ranges (s : State) (launch camp : Nat) (f : VaultWin → VaultWin) : (s.mapVault launch camp f).ranges = s.ranges := rfl
@[simp] theorem State.mapVault_images (s : State) (launch camp : Nat) (f : VaultWin → VaultWin) : (s.mapVault launch camp f).images = s.images := rfl
@[simp] theorem State.mapVault_seals (s : State) (launch camp : Nat) (f : VaultWin → VaultWin) : (s.mapVault launch camp f).seals = s.seals := rfl
@[simp] theorem State.mapVault_nextHandle (s : State) (launch camp : Nat) (f : VaultWin → VaultWin) : (s.mapVault launch camp f).nextHandle = s.nextHandle := rfl
@[simp] theorem State.mapVault_admWait (s : State) (launch camp : Nat) (f : VaultWin → VaultWin) : (s.mapVault launch camp f).admWait = s.admWait := rfl
@[simp] theorem State.mapVault_admQueue (s : State) (launch camp : Nat) (f : VaultWin → VaultWin) : (s.mapVault launch camp f).admQueue = s.admQueue := rfl
@[simp] theorem State.mapVault_ringWait (s : State) (launch camp : Nat) (f : VaultWin → VaultWin) : (s.mapVault launch camp f).ringWait = s.ringWait := rfl
@[simp] theorem State.mapVault_keySlots (s : State) (launch camp : Nat) (f : VaultWin → VaultWin) : (s.mapVault launch camp f).keySlots = s.keySlots := rfl
@[simp] theorem State.mapVault_worldLines (s : State) (launch camp : Nat) (f : VaultWin → VaultWin) : (s.mapVault launch camp f).worldLines = s.worldLines := rfl
@[simp] theorem State.mapVault_versions (s : State) (launch camp : Nat) (f : VaultWin → VaultWin) : (s.mapVault launch camp f).versions = s.versions := rfl
@[simp] theorem State.mapVault_readymap (s : State) (launch camp : Nat) (f : VaultWin → VaultWin) : (s.mapVault launch camp f).readymap = s.readymap := rfl
@[simp] theorem State.mapVault_health (s : State) (launch camp : Nat) (f : VaultWin → VaultWin) : (s.mapVault launch camp f).health = s.health := rfl
@[simp] theorem State.mapVault_power (s : State) (launch camp : Nat) (f : VaultWin → VaultWin) : (s.mapVault launch camp f).power = s.power := rfl
@[simp] theorem State.mapVault_fabid (s : State) (launch camp : Nat) (f : VaultWin → VaultWin) : (s.mapVault launch camp f).fabid = s.fabid := rfl
@[simp] theorem State.mapVault_links (s : State) (launch camp : Nat) (f : VaultWin → VaultWin) : (s.mapVault launch camp f).links = s.links := rfl
@[simp] theorem State.mapVault_routes (s : State) (launch camp : Nat) (f : VaultWin → VaultWin) : (s.mapVault launch camp f).routes = s.routes := rfl
@[simp] theorem State.mapVault_fgrp (s : State) (launch camp : Nat) (f : VaultWin → VaultWin) : (s.mapVault launch camp f).fgrp = s.fgrp := rfl
@[simp] theorem State.mapVault_heldArr (s : State) (launch camp : Nat) (f : VaultWin → VaultWin) : (s.mapVault launch camp f).heldArr = s.heldArr := rfl
@[simp] theorem State.mapVault_firmware (s : State) (launch camp : Nat) (f : VaultWin → VaultWin) : (s.mapVault launch camp f).firmware = s.firmware := rfl
@[simp] theorem State.mapVault_dbgValue (s : State) (launch camp : Nat) (f : VaultWin → VaultWin) : (s.mapVault launch camp f).dbgValue = s.dbgValue := rfl
@[simp] theorem State.mapVault_dbgPending (s : State) (launch camp : Nat) (f : VaultWin → VaultWin) : (s.mapVault launch camp f).dbgPending = s.dbgPending := rfl

/-! `mapQueue` changes `queues` only. -/

@[simp] theorem State.mapQueue_agenda (s : State) (launch camp num : Nat) (f : Queue → Queue) : (s.mapQueue launch camp num f).agenda = s.agenda := rfl
@[simp] theorem State.mapQueue_cur (s : State) (launch camp num : Nat) (f : Queue → Queue) : (s.mapQueue launch camp num f).cur = s.cur := rfl
@[simp] theorem State.mapQueue_now (s : State) (launch camp num : Nat) (f : Queue → Queue) : (s.mapQueue launch camp num f).now = s.now := rfl
@[simp] theorem State.mapQueue_draws (s : State) (launch camp num : Nat) (f : Queue → Queue) : (s.mapQueue launch camp num f).draws = s.draws := rfl
@[simp] theorem State.mapQueue_bad (s : State) (launch camp num : Nat) (f : Queue → Queue) : (s.mapQueue launch camp num f).bad = s.bad := rfl
@[simp] theorem State.mapQueue_hbm (s : State) (launch camp num : Nat) (f : Queue → Queue) : (s.mapQueue launch camp num f).hbm = s.hbm := rfl
@[simp] theorem State.mapQueue_host (s : State) (launch camp num : Nat) (f : Queue → Queue) : (s.mapQueue launch camp num f).host = s.host := rfl
@[simp] theorem State.mapQueue_poisoned (s : State) (launch camp num : Nat) (f : Queue → Queue) : (s.mapQueue launch camp num f).poisoned = s.poisoned := rfl
@[simp] theorem State.mapQueue_spoiled (s : State) (launch camp num : Nat) (f : Queue → Queue) : (s.mapQueue launch camp num f).spoiled = s.spoiled := rfl
@[simp] theorem State.mapQueue_stores (s : State) (launch camp num : Nat) (f : Queue → Queue) : (s.mapQueue launch camp num f).stores = s.stores := rfl
@[simp] theorem State.mapQueue_crews (s : State) (launch camp num : Nat) (f : Queue → Queue) : (s.mapQueue launch camp num f).crews = s.crews := rfl
@[simp] theorem State.mapQueue_nextUid (s : State) (launch camp num : Nat) (f : Queue → Queue) : (s.mapQueue launch camp num f).nextUid = s.nextUid := rfl
@[simp] theorem State.mapQueue_windows (s : State) (launch camp num : Nat) (f : Queue → Queue) : (s.mapQueue launch camp num f).windows = s.windows := rfl
@[simp] theorem State.mapQueue_vaults (s : State) (launch camp num : Nat) (f : Queue → Queue) : (s.mapQueue launch camp num f).vaults = s.vaults := rfl
@[simp] theorem State.mapQueue_strings (s : State) (launch camp num : Nat) (f : Queue → Queue) : (s.mapQueue launch camp num f).strings = s.strings := rfl
@[simp] theorem State.mapQueue_ctxs (s : State) (launch camp num : Nat) (f : Queue → Queue) : (s.mapQueue launch camp num f).ctxs = s.ctxs := rfl
@[simp] theorem State.mapQueue_funcs (s : State) (launch camp num : Nat) (f : Queue → Queue) : (s.mapQueue launch camp num f).funcs = s.funcs := rfl
@[simp] theorem State.mapQueue_launches (s : State) (launch camp num : Nat) (f : Queue → Queue) : (s.mapQueue launch camp num f).launches = s.launches := rfl
@[simp] theorem State.mapQueue_nextLaunch (s : State) (launch camp num : Nat) (f : Queue → Queue) : (s.mapQueue launch camp num f).nextLaunch = s.nextLaunch := rfl
@[simp] theorem State.mapQueue_tlbs (s : State) (launch camp num : Nat) (f : Queue → Queue) : (s.mapQueue launch camp num f).tlbs = s.tlbs := rfl
@[simp] theorem State.mapQueue_walks (s : State) (launch camp num : Nat) (f : Queue → Queue) : (s.mapQueue launch camp num f).walks = s.walks := rfl
@[simp] theorem State.mapQueue_l1 (s : State) (launch camp num : Nat) (f : Queue → Queue) : (s.mapQueue launch camp num f).l1 = s.l1 := rfl
@[simp] theorem State.mapQueue_l2 (s : State) (launch camp num : Nat) (f : Queue → Queue) : (s.mapQueue launch camp num f).l2 = s.l2 := rfl
@[simp] theorem State.mapQueue_hits (s : State) (launch camp num : Nat) (f : Queue → Queue) : (s.mapQueue launch camp num f).hits = s.hits := rfl
@[simp] theorem State.mapQueue_misses (s : State) (launch camp num : Nat) (f : Queue → Queue) : (s.mapQueue launch camp num f).misses = s.misses := rfl
@[simp] theorem State.mapQueue_masks (s : State) (launch camp num : Nat) (f : Queue → Queue) : (s.mapQueue launch camp num f).masks = s.masks := rfl
@[simp] theorem State.mapQueue_ibuf (s : State) (launch camp num : Nat) (f : Queue → Queue) : (s.mapQueue launch camp num f).ibuf = s.ibuf := rfl
@[simp] theorem State.mapQueue_ranges (s : State) (launch camp num : Nat) (f : Queue → Queue) : (s.mapQueue launch camp num f).ranges = s.ranges := rfl
@[simp] theorem State.mapQueue_images (s : State) (launch camp num : Nat) (f : Queue → Queue) : (s.mapQueue launch camp num f).images = s.images := rfl
@[simp] theorem State.mapQueue_seals (s : State) (launch camp num : Nat) (f : Queue → Queue) : (s.mapQueue launch camp num f).seals = s.seals := rfl
@[simp] theorem State.mapQueue_nextHandle (s : State) (launch camp num : Nat) (f : Queue → Queue) : (s.mapQueue launch camp num f).nextHandle = s.nextHandle := rfl
@[simp] theorem State.mapQueue_admWait (s : State) (launch camp num : Nat) (f : Queue → Queue) : (s.mapQueue launch camp num f).admWait = s.admWait := rfl
@[simp] theorem State.mapQueue_admQueue (s : State) (launch camp num : Nat) (f : Queue → Queue) : (s.mapQueue launch camp num f).admQueue = s.admQueue := rfl
@[simp] theorem State.mapQueue_ringWait (s : State) (launch camp num : Nat) (f : Queue → Queue) : (s.mapQueue launch camp num f).ringWait = s.ringWait := rfl
@[simp] theorem State.mapQueue_keySlots (s : State) (launch camp num : Nat) (f : Queue → Queue) : (s.mapQueue launch camp num f).keySlots = s.keySlots := rfl
@[simp] theorem State.mapQueue_worldLines (s : State) (launch camp num : Nat) (f : Queue → Queue) : (s.mapQueue launch camp num f).worldLines = s.worldLines := rfl
@[simp] theorem State.mapQueue_versions (s : State) (launch camp num : Nat) (f : Queue → Queue) : (s.mapQueue launch camp num f).versions = s.versions := rfl
@[simp] theorem State.mapQueue_readymap (s : State) (launch camp num : Nat) (f : Queue → Queue) : (s.mapQueue launch camp num f).readymap = s.readymap := rfl
@[simp] theorem State.mapQueue_health (s : State) (launch camp num : Nat) (f : Queue → Queue) : (s.mapQueue launch camp num f).health = s.health := rfl
@[simp] theorem State.mapQueue_power (s : State) (launch camp num : Nat) (f : Queue → Queue) : (s.mapQueue launch camp num f).power = s.power := rfl
@[simp] theorem State.mapQueue_fabid (s : State) (launch camp num : Nat) (f : Queue → Queue) : (s.mapQueue launch camp num f).fabid = s.fabid := rfl
@[simp] theorem State.mapQueue_links (s : State) (launch camp num : Nat) (f : Queue → Queue) : (s.mapQueue launch camp num f).links = s.links := rfl
@[simp] theorem State.mapQueue_routes (s : State) (launch camp num : Nat) (f : Queue → Queue) : (s.mapQueue launch camp num f).routes = s.routes := rfl
@[simp] theorem State.mapQueue_fgrp (s : State) (launch camp num : Nat) (f : Queue → Queue) : (s.mapQueue launch camp num f).fgrp = s.fgrp := rfl
@[simp] theorem State.mapQueue_heldArr (s : State) (launch camp num : Nat) (f : Queue → Queue) : (s.mapQueue launch camp num f).heldArr = s.heldArr := rfl
@[simp] theorem State.mapQueue_firmware (s : State) (launch camp num : Nat) (f : Queue → Queue) : (s.mapQueue launch camp num f).firmware = s.firmware := rfl
@[simp] theorem State.mapQueue_dbgValue (s : State) (launch camp num : Nat) (f : Queue → Queue) : (s.mapQueue launch camp num f).dbgValue = s.dbgValue := rfl
@[simp] theorem State.mapQueue_dbgPending (s : State) (launch camp num : Nat) (f : Queue → Queue) : (s.mapQueue launch camp num f).dbgPending = s.dbgPending := rfl

/-! `setFillMask` changes `masks` only. -/

@[simp] theorem State.setFillMask_agenda (s : State) (tract cls : Nat) (m : BitVec 16) : (s.setFillMask tract cls m).agenda = s.agenda := rfl
@[simp] theorem State.setFillMask_cur (s : State) (tract cls : Nat) (m : BitVec 16) : (s.setFillMask tract cls m).cur = s.cur := rfl
@[simp] theorem State.setFillMask_now (s : State) (tract cls : Nat) (m : BitVec 16) : (s.setFillMask tract cls m).now = s.now := rfl
@[simp] theorem State.setFillMask_draws (s : State) (tract cls : Nat) (m : BitVec 16) : (s.setFillMask tract cls m).draws = s.draws := rfl
@[simp] theorem State.setFillMask_bad (s : State) (tract cls : Nat) (m : BitVec 16) : (s.setFillMask tract cls m).bad = s.bad := rfl
@[simp] theorem State.setFillMask_hbm (s : State) (tract cls : Nat) (m : BitVec 16) : (s.setFillMask tract cls m).hbm = s.hbm := rfl
@[simp] theorem State.setFillMask_host (s : State) (tract cls : Nat) (m : BitVec 16) : (s.setFillMask tract cls m).host = s.host := rfl
@[simp] theorem State.setFillMask_poisoned (s : State) (tract cls : Nat) (m : BitVec 16) : (s.setFillMask tract cls m).poisoned = s.poisoned := rfl
@[simp] theorem State.setFillMask_spoiled (s : State) (tract cls : Nat) (m : BitVec 16) : (s.setFillMask tract cls m).spoiled = s.spoiled := rfl
@[simp] theorem State.setFillMask_stores (s : State) (tract cls : Nat) (m : BitVec 16) : (s.setFillMask tract cls m).stores = s.stores := rfl
@[simp] theorem State.setFillMask_crews (s : State) (tract cls : Nat) (m : BitVec 16) : (s.setFillMask tract cls m).crews = s.crews := rfl
@[simp] theorem State.setFillMask_nextUid (s : State) (tract cls : Nat) (m : BitVec 16) : (s.setFillMask tract cls m).nextUid = s.nextUid := rfl
@[simp] theorem State.setFillMask_windows (s : State) (tract cls : Nat) (m : BitVec 16) : (s.setFillMask tract cls m).windows = s.windows := rfl
@[simp] theorem State.setFillMask_vaults (s : State) (tract cls : Nat) (m : BitVec 16) : (s.setFillMask tract cls m).vaults = s.vaults := rfl
@[simp] theorem State.setFillMask_queues (s : State) (tract cls : Nat) (m : BitVec 16) : (s.setFillMask tract cls m).queues = s.queues := rfl
@[simp] theorem State.setFillMask_strings (s : State) (tract cls : Nat) (m : BitVec 16) : (s.setFillMask tract cls m).strings = s.strings := rfl
@[simp] theorem State.setFillMask_ctxs (s : State) (tract cls : Nat) (m : BitVec 16) : (s.setFillMask tract cls m).ctxs = s.ctxs := rfl
@[simp] theorem State.setFillMask_funcs (s : State) (tract cls : Nat) (m : BitVec 16) : (s.setFillMask tract cls m).funcs = s.funcs := rfl
@[simp] theorem State.setFillMask_launches (s : State) (tract cls : Nat) (m : BitVec 16) : (s.setFillMask tract cls m).launches = s.launches := rfl
@[simp] theorem State.setFillMask_nextLaunch (s : State) (tract cls : Nat) (m : BitVec 16) : (s.setFillMask tract cls m).nextLaunch = s.nextLaunch := rfl
@[simp] theorem State.setFillMask_tlbs (s : State) (tract cls : Nat) (m : BitVec 16) : (s.setFillMask tract cls m).tlbs = s.tlbs := rfl
@[simp] theorem State.setFillMask_walks (s : State) (tract cls : Nat) (m : BitVec 16) : (s.setFillMask tract cls m).walks = s.walks := rfl
@[simp] theorem State.setFillMask_l1 (s : State) (tract cls : Nat) (m : BitVec 16) : (s.setFillMask tract cls m).l1 = s.l1 := rfl
@[simp] theorem State.setFillMask_l2 (s : State) (tract cls : Nat) (m : BitVec 16) : (s.setFillMask tract cls m).l2 = s.l2 := rfl
@[simp] theorem State.setFillMask_hits (s : State) (tract cls : Nat) (m : BitVec 16) : (s.setFillMask tract cls m).hits = s.hits := rfl
@[simp] theorem State.setFillMask_misses (s : State) (tract cls : Nat) (m : BitVec 16) : (s.setFillMask tract cls m).misses = s.misses := rfl
@[simp] theorem State.setFillMask_ibuf (s : State) (tract cls : Nat) (m : BitVec 16) : (s.setFillMask tract cls m).ibuf = s.ibuf := rfl
@[simp] theorem State.setFillMask_ranges (s : State) (tract cls : Nat) (m : BitVec 16) : (s.setFillMask tract cls m).ranges = s.ranges := rfl
@[simp] theorem State.setFillMask_images (s : State) (tract cls : Nat) (m : BitVec 16) : (s.setFillMask tract cls m).images = s.images := rfl
@[simp] theorem State.setFillMask_seals (s : State) (tract cls : Nat) (m : BitVec 16) : (s.setFillMask tract cls m).seals = s.seals := rfl
@[simp] theorem State.setFillMask_nextHandle (s : State) (tract cls : Nat) (m : BitVec 16) : (s.setFillMask tract cls m).nextHandle = s.nextHandle := rfl
@[simp] theorem State.setFillMask_admWait (s : State) (tract cls : Nat) (m : BitVec 16) : (s.setFillMask tract cls m).admWait = s.admWait := rfl
@[simp] theorem State.setFillMask_admQueue (s : State) (tract cls : Nat) (m : BitVec 16) : (s.setFillMask tract cls m).admQueue = s.admQueue := rfl
@[simp] theorem State.setFillMask_ringWait (s : State) (tract cls : Nat) (m : BitVec 16) : (s.setFillMask tract cls m).ringWait = s.ringWait := rfl
@[simp] theorem State.setFillMask_keySlots (s : State) (tract cls : Nat) (m : BitVec 16) : (s.setFillMask tract cls m).keySlots = s.keySlots := rfl
@[simp] theorem State.setFillMask_worldLines (s : State) (tract cls : Nat) (m : BitVec 16) : (s.setFillMask tract cls m).worldLines = s.worldLines := rfl
@[simp] theorem State.setFillMask_versions (s : State) (tract cls : Nat) (m : BitVec 16) : (s.setFillMask tract cls m).versions = s.versions := rfl
@[simp] theorem State.setFillMask_readymap (s : State) (tract cls : Nat) (m : BitVec 16) : (s.setFillMask tract cls m).readymap = s.readymap := rfl
@[simp] theorem State.setFillMask_health (s : State) (tract cls : Nat) (m : BitVec 16) : (s.setFillMask tract cls m).health = s.health := rfl
@[simp] theorem State.setFillMask_power (s : State) (tract cls : Nat) (m : BitVec 16) : (s.setFillMask tract cls m).power = s.power := rfl
@[simp] theorem State.setFillMask_fabid (s : State) (tract cls : Nat) (m : BitVec 16) : (s.setFillMask tract cls m).fabid = s.fabid := rfl
@[simp] theorem State.setFillMask_links (s : State) (tract cls : Nat) (m : BitVec 16) : (s.setFillMask tract cls m).links = s.links := rfl
@[simp] theorem State.setFillMask_routes (s : State) (tract cls : Nat) (m : BitVec 16) : (s.setFillMask tract cls m).routes = s.routes := rfl
@[simp] theorem State.setFillMask_fgrp (s : State) (tract cls : Nat) (m : BitVec 16) : (s.setFillMask tract cls m).fgrp = s.fgrp := rfl
@[simp] theorem State.setFillMask_heldArr (s : State) (tract cls : Nat) (m : BitVec 16) : (s.setFillMask tract cls m).heldArr = s.heldArr := rfl
@[simp] theorem State.setFillMask_firmware (s : State) (tract cls : Nat) (m : BitVec 16) : (s.setFillMask tract cls m).firmware = s.firmware := rfl
@[simp] theorem State.setFillMask_dbgValue (s : State) (tract cls : Nat) (m : BitVec 16) : (s.setFillMask tract cls m).dbgValue = s.dbgValue := rfl
@[simp] theorem State.setFillMask_dbgPending (s : State) (tract cls : Nat) (m : BitVec 16) : (s.setFillMask tract cls m).dbgPending = s.dbgPending := rfl

/-! `setCtx` changes `ctxs` only. -/

@[simp] theorem State.setCtx_agenda (s : State) (c : Ctx) : (s.setCtx c).agenda = s.agenda := by unfold State.setCtx; split <;> rfl
@[simp] theorem State.setCtx_cur (s : State) (c : Ctx) : (s.setCtx c).cur = s.cur := by unfold State.setCtx; split <;> rfl
@[simp] theorem State.setCtx_now (s : State) (c : Ctx) : (s.setCtx c).now = s.now := by unfold State.setCtx; split <;> rfl
@[simp] theorem State.setCtx_draws (s : State) (c : Ctx) : (s.setCtx c).draws = s.draws := by unfold State.setCtx; split <;> rfl
@[simp] theorem State.setCtx_bad (s : State) (c : Ctx) : (s.setCtx c).bad = s.bad := by unfold State.setCtx; split <;> rfl
@[simp] theorem State.setCtx_hbm (s : State) (c : Ctx) : (s.setCtx c).hbm = s.hbm := by unfold State.setCtx; split <;> rfl
@[simp] theorem State.setCtx_host (s : State) (c : Ctx) : (s.setCtx c).host = s.host := by unfold State.setCtx; split <;> rfl
@[simp] theorem State.setCtx_poisoned (s : State) (c : Ctx) : (s.setCtx c).poisoned = s.poisoned := by unfold State.setCtx; split <;> rfl
@[simp] theorem State.setCtx_spoiled (s : State) (c : Ctx) : (s.setCtx c).spoiled = s.spoiled := by unfold State.setCtx; split <;> rfl
@[simp] theorem State.setCtx_stores (s : State) (c : Ctx) : (s.setCtx c).stores = s.stores := by unfold State.setCtx; split <;> rfl
@[simp] theorem State.setCtx_crews (s : State) (c : Ctx) : (s.setCtx c).crews = s.crews := by unfold State.setCtx; split <;> rfl
@[simp] theorem State.setCtx_nextUid (s : State) (c : Ctx) : (s.setCtx c).nextUid = s.nextUid := by unfold State.setCtx; split <;> rfl
@[simp] theorem State.setCtx_windows (s : State) (c : Ctx) : (s.setCtx c).windows = s.windows := by unfold State.setCtx; split <;> rfl
@[simp] theorem State.setCtx_vaults (s : State) (c : Ctx) : (s.setCtx c).vaults = s.vaults := by unfold State.setCtx; split <;> rfl
@[simp] theorem State.setCtx_queues (s : State) (c : Ctx) : (s.setCtx c).queues = s.queues := by unfold State.setCtx; split <;> rfl
@[simp] theorem State.setCtx_strings (s : State) (c : Ctx) : (s.setCtx c).strings = s.strings := by unfold State.setCtx; split <;> rfl
@[simp] theorem State.setCtx_funcs (s : State) (c : Ctx) : (s.setCtx c).funcs = s.funcs := by unfold State.setCtx; split <;> rfl
@[simp] theorem State.setCtx_launches (s : State) (c : Ctx) : (s.setCtx c).launches = s.launches := by unfold State.setCtx; split <;> rfl
@[simp] theorem State.setCtx_nextLaunch (s : State) (c : Ctx) : (s.setCtx c).nextLaunch = s.nextLaunch := by unfold State.setCtx; split <;> rfl
@[simp] theorem State.setCtx_tlbs (s : State) (c : Ctx) : (s.setCtx c).tlbs = s.tlbs := by unfold State.setCtx; split <;> rfl
@[simp] theorem State.setCtx_walks (s : State) (c : Ctx) : (s.setCtx c).walks = s.walks := by unfold State.setCtx; split <;> rfl
@[simp] theorem State.setCtx_l1 (s : State) (c : Ctx) : (s.setCtx c).l1 = s.l1 := by unfold State.setCtx; split <;> rfl
@[simp] theorem State.setCtx_l2 (s : State) (c : Ctx) : (s.setCtx c).l2 = s.l2 := by unfold State.setCtx; split <;> rfl
@[simp] theorem State.setCtx_hits (s : State) (c : Ctx) : (s.setCtx c).hits = s.hits := by unfold State.setCtx; split <;> rfl
@[simp] theorem State.setCtx_misses (s : State) (c : Ctx) : (s.setCtx c).misses = s.misses := by unfold State.setCtx; split <;> rfl
@[simp] theorem State.setCtx_masks (s : State) (c : Ctx) : (s.setCtx c).masks = s.masks := by unfold State.setCtx; split <;> rfl
@[simp] theorem State.setCtx_ibuf (s : State) (c : Ctx) : (s.setCtx c).ibuf = s.ibuf := by unfold State.setCtx; split <;> rfl
@[simp] theorem State.setCtx_ranges (s : State) (c : Ctx) : (s.setCtx c).ranges = s.ranges := by unfold State.setCtx; split <;> rfl
@[simp] theorem State.setCtx_images (s : State) (c : Ctx) : (s.setCtx c).images = s.images := by unfold State.setCtx; split <;> rfl
@[simp] theorem State.setCtx_seals (s : State) (c : Ctx) : (s.setCtx c).seals = s.seals := by unfold State.setCtx; split <;> rfl
@[simp] theorem State.setCtx_nextHandle (s : State) (c : Ctx) : (s.setCtx c).nextHandle = s.nextHandle := by unfold State.setCtx; split <;> rfl
@[simp] theorem State.setCtx_admWait (s : State) (c : Ctx) : (s.setCtx c).admWait = s.admWait := by unfold State.setCtx; split <;> rfl
@[simp] theorem State.setCtx_admQueue (s : State) (c : Ctx) : (s.setCtx c).admQueue = s.admQueue := by unfold State.setCtx; split <;> rfl
@[simp] theorem State.setCtx_ringWait (s : State) (c : Ctx) : (s.setCtx c).ringWait = s.ringWait := by unfold State.setCtx; split <;> rfl
@[simp] theorem State.setCtx_keySlots (s : State) (c : Ctx) : (s.setCtx c).keySlots = s.keySlots := by unfold State.setCtx; split <;> rfl
@[simp] theorem State.setCtx_worldLines (s : State) (c : Ctx) : (s.setCtx c).worldLines = s.worldLines := by unfold State.setCtx; split <;> rfl
@[simp] theorem State.setCtx_versions (s : State) (c : Ctx) : (s.setCtx c).versions = s.versions := by unfold State.setCtx; split <;> rfl
@[simp] theorem State.setCtx_readymap (s : State) (c : Ctx) : (s.setCtx c).readymap = s.readymap := by unfold State.setCtx; split <;> rfl
@[simp] theorem State.setCtx_health (s : State) (c : Ctx) : (s.setCtx c).health = s.health := by unfold State.setCtx; split <;> rfl
@[simp] theorem State.setCtx_power (s : State) (c : Ctx) : (s.setCtx c).power = s.power := by unfold State.setCtx; split <;> rfl
@[simp] theorem State.setCtx_fabid (s : State) (c : Ctx) : (s.setCtx c).fabid = s.fabid := by unfold State.setCtx; split <;> rfl
@[simp] theorem State.setCtx_links (s : State) (c : Ctx) : (s.setCtx c).links = s.links := by unfold State.setCtx; split <;> rfl
@[simp] theorem State.setCtx_routes (s : State) (c : Ctx) : (s.setCtx c).routes = s.routes := by unfold State.setCtx; split <;> rfl
@[simp] theorem State.setCtx_fgrp (s : State) (c : Ctx) : (s.setCtx c).fgrp = s.fgrp := by unfold State.setCtx; split <;> rfl
@[simp] theorem State.setCtx_heldArr (s : State) (c : Ctx) : (s.setCtx c).heldArr = s.heldArr := by unfold State.setCtx; split <;> rfl
@[simp] theorem State.setCtx_firmware (s : State) (c : Ctx) : (s.setCtx c).firmware = s.firmware := by unfold State.setCtx; split <;> rfl
@[simp] theorem State.setCtx_dbgValue (s : State) (c : Ctx) : (s.setCtx c).dbgValue = s.dbgValue := by unfold State.setCtx; split <;> rfl
@[simp] theorem State.setCtx_dbgPending (s : State) (c : Ctx) : (s.setCtx c).dbgPending = s.dbgPending := by unfold State.setCtx; split <;> rfl

/-! `mapCtx` changes `ctxs` only. -/

@[simp] theorem State.mapCtx_agenda (s : State) (vf ctx : Nat) (f : Ctx → Ctx) : (s.mapCtx vf ctx f).agenda = s.agenda := State.setCtx_agenda _ _
@[simp] theorem State.mapCtx_cur (s : State) (vf ctx : Nat) (f : Ctx → Ctx) : (s.mapCtx vf ctx f).cur = s.cur := State.setCtx_cur _ _
@[simp] theorem State.mapCtx_now (s : State) (vf ctx : Nat) (f : Ctx → Ctx) : (s.mapCtx vf ctx f).now = s.now := State.setCtx_now _ _
@[simp] theorem State.mapCtx_draws (s : State) (vf ctx : Nat) (f : Ctx → Ctx) : (s.mapCtx vf ctx f).draws = s.draws := State.setCtx_draws _ _
@[simp] theorem State.mapCtx_bad (s : State) (vf ctx : Nat) (f : Ctx → Ctx) : (s.mapCtx vf ctx f).bad = s.bad := State.setCtx_bad _ _
@[simp] theorem State.mapCtx_hbm (s : State) (vf ctx : Nat) (f : Ctx → Ctx) : (s.mapCtx vf ctx f).hbm = s.hbm := State.setCtx_hbm _ _
@[simp] theorem State.mapCtx_host (s : State) (vf ctx : Nat) (f : Ctx → Ctx) : (s.mapCtx vf ctx f).host = s.host := State.setCtx_host _ _
@[simp] theorem State.mapCtx_poisoned (s : State) (vf ctx : Nat) (f : Ctx → Ctx) : (s.mapCtx vf ctx f).poisoned = s.poisoned := State.setCtx_poisoned _ _
@[simp] theorem State.mapCtx_spoiled (s : State) (vf ctx : Nat) (f : Ctx → Ctx) : (s.mapCtx vf ctx f).spoiled = s.spoiled := State.setCtx_spoiled _ _
@[simp] theorem State.mapCtx_stores (s : State) (vf ctx : Nat) (f : Ctx → Ctx) : (s.mapCtx vf ctx f).stores = s.stores := State.setCtx_stores _ _
@[simp] theorem State.mapCtx_crews (s : State) (vf ctx : Nat) (f : Ctx → Ctx) : (s.mapCtx vf ctx f).crews = s.crews := State.setCtx_crews _ _
@[simp] theorem State.mapCtx_nextUid (s : State) (vf ctx : Nat) (f : Ctx → Ctx) : (s.mapCtx vf ctx f).nextUid = s.nextUid := State.setCtx_nextUid _ _
@[simp] theorem State.mapCtx_windows (s : State) (vf ctx : Nat) (f : Ctx → Ctx) : (s.mapCtx vf ctx f).windows = s.windows := State.setCtx_windows _ _
@[simp] theorem State.mapCtx_vaults (s : State) (vf ctx : Nat) (f : Ctx → Ctx) : (s.mapCtx vf ctx f).vaults = s.vaults := State.setCtx_vaults _ _
@[simp] theorem State.mapCtx_queues (s : State) (vf ctx : Nat) (f : Ctx → Ctx) : (s.mapCtx vf ctx f).queues = s.queues := State.setCtx_queues _ _
@[simp] theorem State.mapCtx_strings (s : State) (vf ctx : Nat) (f : Ctx → Ctx) : (s.mapCtx vf ctx f).strings = s.strings := State.setCtx_strings _ _
@[simp] theorem State.mapCtx_funcs (s : State) (vf ctx : Nat) (f : Ctx → Ctx) : (s.mapCtx vf ctx f).funcs = s.funcs := State.setCtx_funcs _ _
@[simp] theorem State.mapCtx_launches (s : State) (vf ctx : Nat) (f : Ctx → Ctx) : (s.mapCtx vf ctx f).launches = s.launches := State.setCtx_launches _ _
@[simp] theorem State.mapCtx_nextLaunch (s : State) (vf ctx : Nat) (f : Ctx → Ctx) : (s.mapCtx vf ctx f).nextLaunch = s.nextLaunch := State.setCtx_nextLaunch _ _
@[simp] theorem State.mapCtx_tlbs (s : State) (vf ctx : Nat) (f : Ctx → Ctx) : (s.mapCtx vf ctx f).tlbs = s.tlbs := State.setCtx_tlbs _ _
@[simp] theorem State.mapCtx_walks (s : State) (vf ctx : Nat) (f : Ctx → Ctx) : (s.mapCtx vf ctx f).walks = s.walks := State.setCtx_walks _ _
@[simp] theorem State.mapCtx_l1 (s : State) (vf ctx : Nat) (f : Ctx → Ctx) : (s.mapCtx vf ctx f).l1 = s.l1 := State.setCtx_l1 _ _
@[simp] theorem State.mapCtx_l2 (s : State) (vf ctx : Nat) (f : Ctx → Ctx) : (s.mapCtx vf ctx f).l2 = s.l2 := State.setCtx_l2 _ _
@[simp] theorem State.mapCtx_hits (s : State) (vf ctx : Nat) (f : Ctx → Ctx) : (s.mapCtx vf ctx f).hits = s.hits := State.setCtx_hits _ _
@[simp] theorem State.mapCtx_misses (s : State) (vf ctx : Nat) (f : Ctx → Ctx) : (s.mapCtx vf ctx f).misses = s.misses := State.setCtx_misses _ _
@[simp] theorem State.mapCtx_masks (s : State) (vf ctx : Nat) (f : Ctx → Ctx) : (s.mapCtx vf ctx f).masks = s.masks := State.setCtx_masks _ _
@[simp] theorem State.mapCtx_ibuf (s : State) (vf ctx : Nat) (f : Ctx → Ctx) : (s.mapCtx vf ctx f).ibuf = s.ibuf := State.setCtx_ibuf _ _
@[simp] theorem State.mapCtx_ranges (s : State) (vf ctx : Nat) (f : Ctx → Ctx) : (s.mapCtx vf ctx f).ranges = s.ranges := State.setCtx_ranges _ _
@[simp] theorem State.mapCtx_images (s : State) (vf ctx : Nat) (f : Ctx → Ctx) : (s.mapCtx vf ctx f).images = s.images := State.setCtx_images _ _
@[simp] theorem State.mapCtx_seals (s : State) (vf ctx : Nat) (f : Ctx → Ctx) : (s.mapCtx vf ctx f).seals = s.seals := State.setCtx_seals _ _
@[simp] theorem State.mapCtx_nextHandle (s : State) (vf ctx : Nat) (f : Ctx → Ctx) : (s.mapCtx vf ctx f).nextHandle = s.nextHandle := State.setCtx_nextHandle _ _
@[simp] theorem State.mapCtx_admWait (s : State) (vf ctx : Nat) (f : Ctx → Ctx) : (s.mapCtx vf ctx f).admWait = s.admWait := State.setCtx_admWait _ _
@[simp] theorem State.mapCtx_admQueue (s : State) (vf ctx : Nat) (f : Ctx → Ctx) : (s.mapCtx vf ctx f).admQueue = s.admQueue := State.setCtx_admQueue _ _
@[simp] theorem State.mapCtx_ringWait (s : State) (vf ctx : Nat) (f : Ctx → Ctx) : (s.mapCtx vf ctx f).ringWait = s.ringWait := State.setCtx_ringWait _ _
@[simp] theorem State.mapCtx_keySlots (s : State) (vf ctx : Nat) (f : Ctx → Ctx) : (s.mapCtx vf ctx f).keySlots = s.keySlots := State.setCtx_keySlots _ _
@[simp] theorem State.mapCtx_worldLines (s : State) (vf ctx : Nat) (f : Ctx → Ctx) : (s.mapCtx vf ctx f).worldLines = s.worldLines := State.setCtx_worldLines _ _
@[simp] theorem State.mapCtx_versions (s : State) (vf ctx : Nat) (f : Ctx → Ctx) : (s.mapCtx vf ctx f).versions = s.versions := State.setCtx_versions _ _
@[simp] theorem State.mapCtx_readymap (s : State) (vf ctx : Nat) (f : Ctx → Ctx) : (s.mapCtx vf ctx f).readymap = s.readymap := State.setCtx_readymap _ _
@[simp] theorem State.mapCtx_health (s : State) (vf ctx : Nat) (f : Ctx → Ctx) : (s.mapCtx vf ctx f).health = s.health := State.setCtx_health _ _
@[simp] theorem State.mapCtx_power (s : State) (vf ctx : Nat) (f : Ctx → Ctx) : (s.mapCtx vf ctx f).power = s.power := State.setCtx_power _ _
@[simp] theorem State.mapCtx_fabid (s : State) (vf ctx : Nat) (f : Ctx → Ctx) : (s.mapCtx vf ctx f).fabid = s.fabid := State.setCtx_fabid _ _
@[simp] theorem State.mapCtx_links (s : State) (vf ctx : Nat) (f : Ctx → Ctx) : (s.mapCtx vf ctx f).links = s.links := State.setCtx_links _ _
@[simp] theorem State.mapCtx_routes (s : State) (vf ctx : Nat) (f : Ctx → Ctx) : (s.mapCtx vf ctx f).routes = s.routes := State.setCtx_routes _ _
@[simp] theorem State.mapCtx_fgrp (s : State) (vf ctx : Nat) (f : Ctx → Ctx) : (s.mapCtx vf ctx f).fgrp = s.fgrp := State.setCtx_fgrp _ _
@[simp] theorem State.mapCtx_heldArr (s : State) (vf ctx : Nat) (f : Ctx → Ctx) : (s.mapCtx vf ctx f).heldArr = s.heldArr := State.setCtx_heldArr _ _
@[simp] theorem State.mapCtx_firmware (s : State) (vf ctx : Nat) (f : Ctx → Ctx) : (s.mapCtx vf ctx f).firmware = s.firmware := State.setCtx_firmware _ _
@[simp] theorem State.mapCtx_dbgValue (s : State) (vf ctx : Nat) (f : Ctx → Ctx) : (s.mapCtx vf ctx f).dbgValue = s.dbgValue := State.setCtx_dbgValue _ _
@[simp] theorem State.mapCtx_dbgPending (s : State) (vf ctx : Nat) (f : Ctx → Ctx) : (s.mapCtx vf ctx f).dbgPending = s.dbgPending := State.setCtx_dbgPending _ _

/-! `setEndpoint` changes `strings` only. -/

@[simp] theorem State.setEndpoint_agenda (s : State) (e : Endpoint) : (s.setEndpoint e).agenda = s.agenda := by unfold State.setEndpoint; split <;> rfl
@[simp] theorem State.setEndpoint_cur (s : State) (e : Endpoint) : (s.setEndpoint e).cur = s.cur := by unfold State.setEndpoint; split <;> rfl
@[simp] theorem State.setEndpoint_now (s : State) (e : Endpoint) : (s.setEndpoint e).now = s.now := by unfold State.setEndpoint; split <;> rfl
@[simp] theorem State.setEndpoint_draws (s : State) (e : Endpoint) : (s.setEndpoint e).draws = s.draws := by unfold State.setEndpoint; split <;> rfl
@[simp] theorem State.setEndpoint_bad (s : State) (e : Endpoint) : (s.setEndpoint e).bad = s.bad := by unfold State.setEndpoint; split <;> rfl
@[simp] theorem State.setEndpoint_hbm (s : State) (e : Endpoint) : (s.setEndpoint e).hbm = s.hbm := by unfold State.setEndpoint; split <;> rfl
@[simp] theorem State.setEndpoint_host (s : State) (e : Endpoint) : (s.setEndpoint e).host = s.host := by unfold State.setEndpoint; split <;> rfl
@[simp] theorem State.setEndpoint_poisoned (s : State) (e : Endpoint) : (s.setEndpoint e).poisoned = s.poisoned := by unfold State.setEndpoint; split <;> rfl
@[simp] theorem State.setEndpoint_spoiled (s : State) (e : Endpoint) : (s.setEndpoint e).spoiled = s.spoiled := by unfold State.setEndpoint; split <;> rfl
@[simp] theorem State.setEndpoint_stores (s : State) (e : Endpoint) : (s.setEndpoint e).stores = s.stores := by unfold State.setEndpoint; split <;> rfl
@[simp] theorem State.setEndpoint_crews (s : State) (e : Endpoint) : (s.setEndpoint e).crews = s.crews := by unfold State.setEndpoint; split <;> rfl
@[simp] theorem State.setEndpoint_nextUid (s : State) (e : Endpoint) : (s.setEndpoint e).nextUid = s.nextUid := by unfold State.setEndpoint; split <;> rfl
@[simp] theorem State.setEndpoint_windows (s : State) (e : Endpoint) : (s.setEndpoint e).windows = s.windows := by unfold State.setEndpoint; split <;> rfl
@[simp] theorem State.setEndpoint_vaults (s : State) (e : Endpoint) : (s.setEndpoint e).vaults = s.vaults := by unfold State.setEndpoint; split <;> rfl
@[simp] theorem State.setEndpoint_queues (s : State) (e : Endpoint) : (s.setEndpoint e).queues = s.queues := by unfold State.setEndpoint; split <;> rfl
@[simp] theorem State.setEndpoint_ctxs (s : State) (e : Endpoint) : (s.setEndpoint e).ctxs = s.ctxs := by unfold State.setEndpoint; split <;> rfl
@[simp] theorem State.setEndpoint_funcs (s : State) (e : Endpoint) : (s.setEndpoint e).funcs = s.funcs := by unfold State.setEndpoint; split <;> rfl
@[simp] theorem State.setEndpoint_launches (s : State) (e : Endpoint) : (s.setEndpoint e).launches = s.launches := by unfold State.setEndpoint; split <;> rfl
@[simp] theorem State.setEndpoint_nextLaunch (s : State) (e : Endpoint) : (s.setEndpoint e).nextLaunch = s.nextLaunch := by unfold State.setEndpoint; split <;> rfl
@[simp] theorem State.setEndpoint_tlbs (s : State) (e : Endpoint) : (s.setEndpoint e).tlbs = s.tlbs := by unfold State.setEndpoint; split <;> rfl
@[simp] theorem State.setEndpoint_walks (s : State) (e : Endpoint) : (s.setEndpoint e).walks = s.walks := by unfold State.setEndpoint; split <;> rfl
@[simp] theorem State.setEndpoint_l1 (s : State) (e : Endpoint) : (s.setEndpoint e).l1 = s.l1 := by unfold State.setEndpoint; split <;> rfl
@[simp] theorem State.setEndpoint_l2 (s : State) (e : Endpoint) : (s.setEndpoint e).l2 = s.l2 := by unfold State.setEndpoint; split <;> rfl
@[simp] theorem State.setEndpoint_hits (s : State) (e : Endpoint) : (s.setEndpoint e).hits = s.hits := by unfold State.setEndpoint; split <;> rfl
@[simp] theorem State.setEndpoint_misses (s : State) (e : Endpoint) : (s.setEndpoint e).misses = s.misses := by unfold State.setEndpoint; split <;> rfl
@[simp] theorem State.setEndpoint_masks (s : State) (e : Endpoint) : (s.setEndpoint e).masks = s.masks := by unfold State.setEndpoint; split <;> rfl
@[simp] theorem State.setEndpoint_ibuf (s : State) (e : Endpoint) : (s.setEndpoint e).ibuf = s.ibuf := by unfold State.setEndpoint; split <;> rfl
@[simp] theorem State.setEndpoint_ranges (s : State) (e : Endpoint) : (s.setEndpoint e).ranges = s.ranges := by unfold State.setEndpoint; split <;> rfl
@[simp] theorem State.setEndpoint_images (s : State) (e : Endpoint) : (s.setEndpoint e).images = s.images := by unfold State.setEndpoint; split <;> rfl
@[simp] theorem State.setEndpoint_seals (s : State) (e : Endpoint) : (s.setEndpoint e).seals = s.seals := by unfold State.setEndpoint; split <;> rfl
@[simp] theorem State.setEndpoint_nextHandle (s : State) (e : Endpoint) : (s.setEndpoint e).nextHandle = s.nextHandle := by unfold State.setEndpoint; split <;> rfl
@[simp] theorem State.setEndpoint_admWait (s : State) (e : Endpoint) : (s.setEndpoint e).admWait = s.admWait := by unfold State.setEndpoint; split <;> rfl
@[simp] theorem State.setEndpoint_admQueue (s : State) (e : Endpoint) : (s.setEndpoint e).admQueue = s.admQueue := by unfold State.setEndpoint; split <;> rfl
@[simp] theorem State.setEndpoint_ringWait (s : State) (e : Endpoint) : (s.setEndpoint e).ringWait = s.ringWait := by unfold State.setEndpoint; split <;> rfl
@[simp] theorem State.setEndpoint_keySlots (s : State) (e : Endpoint) : (s.setEndpoint e).keySlots = s.keySlots := by unfold State.setEndpoint; split <;> rfl
@[simp] theorem State.setEndpoint_worldLines (s : State) (e : Endpoint) : (s.setEndpoint e).worldLines = s.worldLines := by unfold State.setEndpoint; split <;> rfl
@[simp] theorem State.setEndpoint_versions (s : State) (e : Endpoint) : (s.setEndpoint e).versions = s.versions := by unfold State.setEndpoint; split <;> rfl
@[simp] theorem State.setEndpoint_readymap (s : State) (e : Endpoint) : (s.setEndpoint e).readymap = s.readymap := by unfold State.setEndpoint; split <;> rfl
@[simp] theorem State.setEndpoint_health (s : State) (e : Endpoint) : (s.setEndpoint e).health = s.health := by unfold State.setEndpoint; split <;> rfl
@[simp] theorem State.setEndpoint_power (s : State) (e : Endpoint) : (s.setEndpoint e).power = s.power := by unfold State.setEndpoint; split <;> rfl
@[simp] theorem State.setEndpoint_fabid (s : State) (e : Endpoint) : (s.setEndpoint e).fabid = s.fabid := by unfold State.setEndpoint; split <;> rfl
@[simp] theorem State.setEndpoint_links (s : State) (e : Endpoint) : (s.setEndpoint e).links = s.links := by unfold State.setEndpoint; split <;> rfl
@[simp] theorem State.setEndpoint_routes (s : State) (e : Endpoint) : (s.setEndpoint e).routes = s.routes := by unfold State.setEndpoint; split <;> rfl
@[simp] theorem State.setEndpoint_fgrp (s : State) (e : Endpoint) : (s.setEndpoint e).fgrp = s.fgrp := by unfold State.setEndpoint; split <;> rfl
@[simp] theorem State.setEndpoint_heldArr (s : State) (e : Endpoint) : (s.setEndpoint e).heldArr = s.heldArr := by unfold State.setEndpoint; split <;> rfl
@[simp] theorem State.setEndpoint_firmware (s : State) (e : Endpoint) : (s.setEndpoint e).firmware = s.firmware := by unfold State.setEndpoint; split <;> rfl
@[simp] theorem State.setEndpoint_dbgValue (s : State) (e : Endpoint) : (s.setEndpoint e).dbgValue = s.dbgValue := by unfold State.setEndpoint; split <;> rfl
@[simp] theorem State.setEndpoint_dbgPending (s : State) (e : Endpoint) : (s.setEndpoint e).dbgPending = s.dbgPending := by unfold State.setEndpoint; split <;> rfl

/-! `noStorage` changes `bad` only. -/

@[simp] theorem State.noStorage_agenda (s : State) (pa : Nat) : (s.noStorage pa).agenda = s.agenda := by unfold State.noStorage; split <;> rfl
@[simp] theorem State.noStorage_cur (s : State) (pa : Nat) : (s.noStorage pa).cur = s.cur := by unfold State.noStorage; split <;> rfl
@[simp] theorem State.noStorage_now (s : State) (pa : Nat) : (s.noStorage pa).now = s.now := by unfold State.noStorage; split <;> rfl
@[simp] theorem State.noStorage_draws (s : State) (pa : Nat) : (s.noStorage pa).draws = s.draws := by unfold State.noStorage; split <;> rfl
@[simp] theorem State.noStorage_hbm (s : State) (pa : Nat) : (s.noStorage pa).hbm = s.hbm := by unfold State.noStorage; split <;> rfl
@[simp] theorem State.noStorage_host (s : State) (pa : Nat) : (s.noStorage pa).host = s.host := by unfold State.noStorage; split <;> rfl
@[simp] theorem State.noStorage_poisoned (s : State) (pa : Nat) : (s.noStorage pa).poisoned = s.poisoned := by unfold State.noStorage; split <;> rfl
@[simp] theorem State.noStorage_spoiled (s : State) (pa : Nat) : (s.noStorage pa).spoiled = s.spoiled := by unfold State.noStorage; split <;> rfl
@[simp] theorem State.noStorage_stores (s : State) (pa : Nat) : (s.noStorage pa).stores = s.stores := by unfold State.noStorage; split <;> rfl
@[simp] theorem State.noStorage_crews (s : State) (pa : Nat) : (s.noStorage pa).crews = s.crews := by unfold State.noStorage; split <;> rfl
@[simp] theorem State.noStorage_nextUid (s : State) (pa : Nat) : (s.noStorage pa).nextUid = s.nextUid := by unfold State.noStorage; split <;> rfl
@[simp] theorem State.noStorage_windows (s : State) (pa : Nat) : (s.noStorage pa).windows = s.windows := by unfold State.noStorage; split <;> rfl
@[simp] theorem State.noStorage_vaults (s : State) (pa : Nat) : (s.noStorage pa).vaults = s.vaults := by unfold State.noStorage; split <;> rfl
@[simp] theorem State.noStorage_queues (s : State) (pa : Nat) : (s.noStorage pa).queues = s.queues := by unfold State.noStorage; split <;> rfl
@[simp] theorem State.noStorage_strings (s : State) (pa : Nat) : (s.noStorage pa).strings = s.strings := by unfold State.noStorage; split <;> rfl
@[simp] theorem State.noStorage_ctxs (s : State) (pa : Nat) : (s.noStorage pa).ctxs = s.ctxs := by unfold State.noStorage; split <;> rfl
@[simp] theorem State.noStorage_funcs (s : State) (pa : Nat) : (s.noStorage pa).funcs = s.funcs := by unfold State.noStorage; split <;> rfl
@[simp] theorem State.noStorage_launches (s : State) (pa : Nat) : (s.noStorage pa).launches = s.launches := by unfold State.noStorage; split <;> rfl
@[simp] theorem State.noStorage_nextLaunch (s : State) (pa : Nat) : (s.noStorage pa).nextLaunch = s.nextLaunch := by unfold State.noStorage; split <;> rfl
@[simp] theorem State.noStorage_tlbs (s : State) (pa : Nat) : (s.noStorage pa).tlbs = s.tlbs := by unfold State.noStorage; split <;> rfl
@[simp] theorem State.noStorage_walks (s : State) (pa : Nat) : (s.noStorage pa).walks = s.walks := by unfold State.noStorage; split <;> rfl
@[simp] theorem State.noStorage_l1 (s : State) (pa : Nat) : (s.noStorage pa).l1 = s.l1 := by unfold State.noStorage; split <;> rfl
@[simp] theorem State.noStorage_l2 (s : State) (pa : Nat) : (s.noStorage pa).l2 = s.l2 := by unfold State.noStorage; split <;> rfl
@[simp] theorem State.noStorage_hits (s : State) (pa : Nat) : (s.noStorage pa).hits = s.hits := by unfold State.noStorage; split <;> rfl
@[simp] theorem State.noStorage_misses (s : State) (pa : Nat) : (s.noStorage pa).misses = s.misses := by unfold State.noStorage; split <;> rfl
@[simp] theorem State.noStorage_masks (s : State) (pa : Nat) : (s.noStorage pa).masks = s.masks := by unfold State.noStorage; split <;> rfl
@[simp] theorem State.noStorage_ibuf (s : State) (pa : Nat) : (s.noStorage pa).ibuf = s.ibuf := by unfold State.noStorage; split <;> rfl
@[simp] theorem State.noStorage_ranges (s : State) (pa : Nat) : (s.noStorage pa).ranges = s.ranges := by unfold State.noStorage; split <;> rfl
@[simp] theorem State.noStorage_images (s : State) (pa : Nat) : (s.noStorage pa).images = s.images := by unfold State.noStorage; split <;> rfl
@[simp] theorem State.noStorage_seals (s : State) (pa : Nat) : (s.noStorage pa).seals = s.seals := by unfold State.noStorage; split <;> rfl
@[simp] theorem State.noStorage_nextHandle (s : State) (pa : Nat) : (s.noStorage pa).nextHandle = s.nextHandle := by unfold State.noStorage; split <;> rfl
@[simp] theorem State.noStorage_admWait (s : State) (pa : Nat) : (s.noStorage pa).admWait = s.admWait := by unfold State.noStorage; split <;> rfl
@[simp] theorem State.noStorage_admQueue (s : State) (pa : Nat) : (s.noStorage pa).admQueue = s.admQueue := by unfold State.noStorage; split <;> rfl
@[simp] theorem State.noStorage_ringWait (s : State) (pa : Nat) : (s.noStorage pa).ringWait = s.ringWait := by unfold State.noStorage; split <;> rfl
@[simp] theorem State.noStorage_keySlots (s : State) (pa : Nat) : (s.noStorage pa).keySlots = s.keySlots := by unfold State.noStorage; split <;> rfl
@[simp] theorem State.noStorage_worldLines (s : State) (pa : Nat) : (s.noStorage pa).worldLines = s.worldLines := by unfold State.noStorage; split <;> rfl
@[simp] theorem State.noStorage_versions (s : State) (pa : Nat) : (s.noStorage pa).versions = s.versions := by unfold State.noStorage; split <;> rfl
@[simp] theorem State.noStorage_readymap (s : State) (pa : Nat) : (s.noStorage pa).readymap = s.readymap := by unfold State.noStorage; split <;> rfl
@[simp] theorem State.noStorage_health (s : State) (pa : Nat) : (s.noStorage pa).health = s.health := by unfold State.noStorage; split <;> rfl
@[simp] theorem State.noStorage_power (s : State) (pa : Nat) : (s.noStorage pa).power = s.power := by unfold State.noStorage; split <;> rfl
@[simp] theorem State.noStorage_fabid (s : State) (pa : Nat) : (s.noStorage pa).fabid = s.fabid := by unfold State.noStorage; split <;> rfl
@[simp] theorem State.noStorage_links (s : State) (pa : Nat) : (s.noStorage pa).links = s.links := by unfold State.noStorage; split <;> rfl
@[simp] theorem State.noStorage_routes (s : State) (pa : Nat) : (s.noStorage pa).routes = s.routes := by unfold State.noStorage; split <;> rfl
@[simp] theorem State.noStorage_fgrp (s : State) (pa : Nat) : (s.noStorage pa).fgrp = s.fgrp := by unfold State.noStorage; split <;> rfl
@[simp] theorem State.noStorage_heldArr (s : State) (pa : Nat) : (s.noStorage pa).heldArr = s.heldArr := by unfold State.noStorage; split <;> rfl
@[simp] theorem State.noStorage_firmware (s : State) (pa : Nat) : (s.noStorage pa).firmware = s.firmware := by unfold State.noStorage; split <;> rfl
@[simp] theorem State.noStorage_dbgValue (s : State) (pa : Nat) : (s.noStorage pa).dbgValue = s.dbgValue := by unfold State.noStorage; split <;> rfl
@[simp] theorem State.noStorage_dbgPending (s : State) (pa : Nat) : (s.noStorage pa).dbgPending = s.dbgPending := by unfold State.noStorage; split <;> rfl

/-! Crews, gangs and lanes. -/

@[simp] theorem Crew.mapGang_uid (c : Crew) (k : Nat) (f : Gang → Gang) : (c.mapGang k f).uid = c.uid := rfl
@[simp] theorem Crew.mapGang_launch (c : Crew) (k : Nat) (f : Gang → Gang) : (c.mapGang k f).launch = c.launch := rfl
@[simp] theorem Crew.mapGang_crewid (c : Crew) (k : Nat) (f : Gang → Gang) : (c.mapGang k f).crewid = c.crewid := rfl
@[simp] theorem Crew.mapGang_stage (c : Crew) (k : Nat) (f : Gang → Gang) : (c.mapGang k f).stage = c.stage := rfl
@[simp] theorem Crew.mapGang_entry (c : Crew) (k : Nat) (f : Gang → Gang) : (c.mapGang k f).entry = c.entry := rfl
@[simp] theorem Crew.mapGang_place (c : Crew) (k : Nat) (f : Gang → Gang) : (c.mapGang k f).place = c.place := rfl
@[simp] theorem Crew.mapGang_home (c : Crew) (k : Nat) (f : Gang → Gang) : (c.mapGang k f).home = c.home := rfl
@[simp] theorem Crew.mapGang_lvl (c : Crew) (k : Nat) (f : Gang → Gang) : (c.mapGang k f).lvl = c.lvl := rfl
@[simp] theorem Crew.mapGang_regs (c : Crew) (k : Nat) (f : Gang → Gang) : (c.mapGang k f).regs = c.regs := rfl
@[simp] theorem Crew.mapGang_ngangs (c : Crew) (k : Nat) (f : Gang → Gang) : (c.mapGang k f).ngangs = c.ngangs := rfl
@[simp] theorem Crew.mapGang_ssize (c : Crew) (k : Nat) (f : Gang → Gang) : (c.mapGang k f).ssize = c.ssize := rfl
@[simp] theorem Crew.mapGang_alloc (c : Crew) (k : Nat) (f : Gang → Gang) : (c.mapGang k f).alloc = c.alloc := rfl
@[simp] theorem Crew.mapGang_sbase (c : Crew) (k : Nat) (f : Gang → Gang) : (c.mapGang k f).sbase = c.sbase := rfl
@[simp] theorem Crew.mapGang_scratch (c : Crew) (k : Nat) (f : Gang → Gang) : (c.mapGang k f).scratch = c.scratch := rfl
@[simp] theorem Crew.mapGang_pbase (c : Crew) (k : Nat) (f : Gang → Gang) : (c.mapGang k f).pbase = c.pbase := rfl
@[simp] theorem Crew.mapGang_barPhase (c : Crew) (k : Nat) (f : Gang → Gang) : (c.mapGang k f).barPhase = c.barPhase := rfl
@[simp] theorem Crew.mapGang_garr (c : Crew) (k : Nat) (f : Gang → Gang) : (c.mapGang k f).garr = c.garr := rfl
@[simp] theorem Crew.mapGang_channels (c : Crew) (k : Nat) (f : Gang → Gang) : (c.mapGang k f).channels = c.channels := rfl
@[simp] theorem Crew.mapGang_tasks (c : Crew) (k : Nat) (f : Gang → Gang) : (c.mapGang k f).tasks = c.tasks := rfl
@[simp] theorem Crew.mapGang_ops (c : Crew) (k : Nat) (f : Gang → Gang) : (c.mapGang k f).ops = c.ops := rfl
@[simp] theorem Crew.mapGang_nextOp (c : Crew) (k : Nat) (f : Gang → Gang) : (c.mapGang k f).nextOp = c.nextOp := rfl
@[simp] theorem Crew.mapGang_past (c : Crew) (k : Nat) (f : Gang → Gang) : (c.mapGang k f).past = c.past := rfl
@[simp] theorem Crew.mapGang_req (c : Crew) (k : Nat) (f : Gang → Gang) : (c.mapGang k f).req = c.req := rfl
@[simp] theorem Crew.mapGang_force (c : Crew) (k : Nat) (f : Gang → Gang) : (c.mapGang k f).force = c.force := rfl
@[simp] theorem Crew.mapGang_deadline (c : Crew) (k : Nat) (f : Gang → Gang) : (c.mapGang k f).deadline = c.deadline := rfl
@[simp] theorem Crew.mapGang_count (c : Crew) (k : Nat) (f : Gang → Gang) : (c.mapGang k f).count = c.count := rfl
@[simp] theorem Crew.mapGang_reqAt (c : Crew) (k : Nat) (f : Gang → Gang) : (c.mapGang k f).reqAt = c.reqAt := rfl
@[simp] theorem Crew.mapGang_saveAt (c : Crew) (k : Nat) (f : Gang → Gang) : (c.mapGang k f).saveAt = c.saveAt := rfl
@[simp] theorem Crew.mapGang_forced (c : Crew) (k : Nat) (f : Gang → Gang) : (c.mapGang k f).forced = c.forced := rfl
@[simp] theorem Crew.mapGang_succ (c : Crew) (k : Nat) (f : Gang → Gang) : (c.mapGang k f).succ = c.succ := rfl
@[simp] theorem Crew.mapGang_succSet (c : Crew) (k : Nat) (f : Gang → Gang) : (c.mapGang k f).succSet = c.succSet := rfl
@[simp] theorem Crew.mapGang_succSite (c : Crew) (k : Nat) (f : Gang → Gang) : (c.mapGang k f).succSite = c.succSite := rfl
@[simp] theorem Crew.mapGang_noGang (c : Crew) (k : Nat) (f : Gang → Gang) : (c.mapGang k f).noGang = c.noGang := rfl
@[simp] theorem Crew.mapGang_fullAtStart (c : Crew) (k : Nat) (f : Gang → Gang) : (c.mapGang k f).fullAtStart = c.fullAtStart := rfl
@[simp] theorem Crew.mapGang_slice (c : Crew) (k : Nat) (f : Gang → Gang) : (c.mapGang k f).slice = c.slice := rfl
@[simp] theorem Crew.mapGang_turn (c : Crew) (k : Nat) (f : Gang → Gang) : (c.mapGang k f).turn = c.turn := rfl
@[simp] theorem Crew.mapGang_named (c : Crew) (k : Nat) (f : Gang → Gang) : (c.mapGang k f).named = c.named := rfl
@[simp] theorem Crew.mapGang_terminating (c : Crew) (k : Nat) (f : Gang → Gang) : (c.mapGang k f).terminating = c.terminating := rfl

@[simp] theorem Crew.setGang_uid (c : Crew) (k : Nat) (g : Gang) : (c.setGang k g).uid = c.uid := rfl
@[simp] theorem Crew.setGang_launch (c : Crew) (k : Nat) (g : Gang) : (c.setGang k g).launch = c.launch := rfl
@[simp] theorem Crew.setGang_crewid (c : Crew) (k : Nat) (g : Gang) : (c.setGang k g).crewid = c.crewid := rfl
@[simp] theorem Crew.setGang_stage (c : Crew) (k : Nat) (g : Gang) : (c.setGang k g).stage = c.stage := rfl
@[simp] theorem Crew.setGang_entry (c : Crew) (k : Nat) (g : Gang) : (c.setGang k g).entry = c.entry := rfl
@[simp] theorem Crew.setGang_place (c : Crew) (k : Nat) (g : Gang) : (c.setGang k g).place = c.place := rfl
@[simp] theorem Crew.setGang_home (c : Crew) (k : Nat) (g : Gang) : (c.setGang k g).home = c.home := rfl
@[simp] theorem Crew.setGang_lvl (c : Crew) (k : Nat) (g : Gang) : (c.setGang k g).lvl = c.lvl := rfl
@[simp] theorem Crew.setGang_regs (c : Crew) (k : Nat) (g : Gang) : (c.setGang k g).regs = c.regs := rfl
@[simp] theorem Crew.setGang_ngangs (c : Crew) (k : Nat) (g : Gang) : (c.setGang k g).ngangs = c.ngangs := rfl
@[simp] theorem Crew.setGang_ssize (c : Crew) (k : Nat) (g : Gang) : (c.setGang k g).ssize = c.ssize := rfl
@[simp] theorem Crew.setGang_alloc (c : Crew) (k : Nat) (g : Gang) : (c.setGang k g).alloc = c.alloc := rfl
@[simp] theorem Crew.setGang_sbase (c : Crew) (k : Nat) (g : Gang) : (c.setGang k g).sbase = c.sbase := rfl
@[simp] theorem Crew.setGang_scratch (c : Crew) (k : Nat) (g : Gang) : (c.setGang k g).scratch = c.scratch := rfl
@[simp] theorem Crew.setGang_pbase (c : Crew) (k : Nat) (g : Gang) : (c.setGang k g).pbase = c.pbase := rfl
@[simp] theorem Crew.setGang_barPhase (c : Crew) (k : Nat) (g : Gang) : (c.setGang k g).barPhase = c.barPhase := rfl
@[simp] theorem Crew.setGang_garr (c : Crew) (k : Nat) (g : Gang) : (c.setGang k g).garr = c.garr := rfl
@[simp] theorem Crew.setGang_channels (c : Crew) (k : Nat) (g : Gang) : (c.setGang k g).channels = c.channels := rfl
@[simp] theorem Crew.setGang_tasks (c : Crew) (k : Nat) (g : Gang) : (c.setGang k g).tasks = c.tasks := rfl
@[simp] theorem Crew.setGang_ops (c : Crew) (k : Nat) (g : Gang) : (c.setGang k g).ops = c.ops := rfl
@[simp] theorem Crew.setGang_nextOp (c : Crew) (k : Nat) (g : Gang) : (c.setGang k g).nextOp = c.nextOp := rfl
@[simp] theorem Crew.setGang_past (c : Crew) (k : Nat) (g : Gang) : (c.setGang k g).past = c.past := rfl
@[simp] theorem Crew.setGang_req (c : Crew) (k : Nat) (g : Gang) : (c.setGang k g).req = c.req := rfl
@[simp] theorem Crew.setGang_force (c : Crew) (k : Nat) (g : Gang) : (c.setGang k g).force = c.force := rfl
@[simp] theorem Crew.setGang_deadline (c : Crew) (k : Nat) (g : Gang) : (c.setGang k g).deadline = c.deadline := rfl
@[simp] theorem Crew.setGang_count (c : Crew) (k : Nat) (g : Gang) : (c.setGang k g).count = c.count := rfl
@[simp] theorem Crew.setGang_reqAt (c : Crew) (k : Nat) (g : Gang) : (c.setGang k g).reqAt = c.reqAt := rfl
@[simp] theorem Crew.setGang_saveAt (c : Crew) (k : Nat) (g : Gang) : (c.setGang k g).saveAt = c.saveAt := rfl
@[simp] theorem Crew.setGang_forced (c : Crew) (k : Nat) (g : Gang) : (c.setGang k g).forced = c.forced := rfl
@[simp] theorem Crew.setGang_succ (c : Crew) (k : Nat) (g : Gang) : (c.setGang k g).succ = c.succ := rfl
@[simp] theorem Crew.setGang_succSet (c : Crew) (k : Nat) (g : Gang) : (c.setGang k g).succSet = c.succSet := rfl
@[simp] theorem Crew.setGang_succSite (c : Crew) (k : Nat) (g : Gang) : (c.setGang k g).succSite = c.succSite := rfl
@[simp] theorem Crew.setGang_noGang (c : Crew) (k : Nat) (g : Gang) : (c.setGang k g).noGang = c.noGang := rfl
@[simp] theorem Crew.setGang_fullAtStart (c : Crew) (k : Nat) (g : Gang) : (c.setGang k g).fullAtStart = c.fullAtStart := rfl
@[simp] theorem Crew.setGang_slice (c : Crew) (k : Nat) (g : Gang) : (c.setGang k g).slice = c.slice := rfl
@[simp] theorem Crew.setGang_turn (c : Crew) (k : Nat) (g : Gang) : (c.setGang k g).turn = c.turn := rfl
@[simp] theorem Crew.setGang_named (c : Crew) (k : Nat) (g : Gang) : (c.setGang k g).named = c.named := rfl
@[simp] theorem Crew.setGang_terminating (c : Crew) (k : Nat) (g : Gang) : (c.setGang k g).terminating = c.terminating := rfl

@[simp] theorem Gang.mapLane_frontier (g : Gang) (l : Nat) (f : Lane → Lane) : (g.mapLane l f).frontier = g.frontier := rfl
@[simp] theorem Gang.mapLane_chosen (g : Gang) (l : Nat) (f : Lane → Lane) : (g.mapLane l f).chosen = g.chosen := rfl
@[simp] theorem Gang.mapLane_paired (g : Gang) (l : Nat) (f : Lane → Lane) : (g.mapLane l f).paired = g.paired := rfl
@[simp] theorem Gang.mapLane_g (g : Gang) (l : Nat) (f : Lane → Lane) : (g.mapLane l f).g = g.g := rfl
@[simp] theorem Gang.mapLane_latches (g : Gang) (l : Nat) (f : Lane → Lane) : (g.mapLane l f).latches = g.latches := rfl
@[simp] theorem Gang.mapLane_latchLive (g : Gang) (l : Nat) (f : Lane → Lane) : (g.mapLane l f).latchLive = g.latchLive := rfl
@[simp] theorem Gang.mapLane_regioncnt (g : Gang) (l : Nat) (f : Lane → Lane) : (g.mapLane l f).regioncnt = g.regioncnt := rfl
@[simp] theorem Gang.mapLane_barPhase (g : Gang) (l : Nat) (f : Lane → Lane) : (g.mapLane l f).barPhase = g.barPhase := rfl
@[simp] theorem Gang.mapLane_arrived (g : Gang) (l : Nat) (f : Lane → Lane) : (g.mapLane l f).arrived = g.arrived := rfl
@[simp] theorem Gang.mapLane_waits (g : Gang) (l : Nat) (f : Lane → Lane) : (g.mapLane l f).waits = g.waits := rfl
@[simp] theorem Gang.mapLane_pages (g : Gang) (l : Nat) (f : Lane → Lane) : (g.mapLane l f).pages = g.pages := rfl
@[simp] theorem Gang.mapLane_sys (g : Gang) (l : Nat) (f : Lane → Lane) : (g.mapLane l f).sys = g.sys := rfl
@[simp] theorem Gang.mapLane_parked (g : Gang) (l : Nat) (f : Lane → Lane) : (g.mapLane l f).parked = g.parked := rfl
@[simp] theorem Gang.mapLane_line (g : Gang) (l : Nat) (f : Lane → Lane) : (g.mapLane l f).line = g.line := rfl
@[simp] theorem Gang.mapLane_linePa (g : Gang) (l : Nat) (f : Lane → Lane) : (g.mapLane l f).linePa = g.linePa := rfl
@[simp] theorem Gang.mapLane_retired (g : Gang) (l : Nat) (f : Lane → Lane) : (g.mapLane l f).retired = g.retired := rfl
@[simp] theorem Gang.mapLane_stopReq (g : Gang) (l : Nat) (f : Lane → Lane) : (g.mapLane l f).stopReq = g.stopReq := rfl
@[simp] theorem Gang.mapLane_stopped (g : Gang) (l : Nat) (f : Lane → Lane) : (g.mapLane l f).stopped = g.stopped := rfl
@[simp] theorem Gang.mapLane_stoppedAt (g : Gang) (l : Nat) (f : Lane → Lane) : (g.mapLane l f).stoppedAt = g.stoppedAt := rfl
@[simp] theorem Gang.mapLane_halted (g : Gang) (l : Nat) (f : Lane → Lane) : (g.mapLane l f).halted = g.halted := rfl
@[simp] theorem Gang.mapLane_fbarPending (g : Gang) (l : Nat) (f : Lane → Lane) : (g.mapLane l f).fbarPending = g.fbarPending := rfl
@[simp] theorem Gang.mapLane_illegal (g : Gang) (l : Nat) (f : Lane → Lane) : (g.mapLane l f).illegal = g.illegal := rfl
@[simp] theorem Gang.mapLane_counted (g : Gang) (l : Nat) (f : Lane → Lane) : (g.mapLane l f).counted = g.counted := rfl

@[simp] theorem Gang.mapLanes_frontier (g : Gang) (m : LaneMask) (f : Nat → Lane → Lane) : (g.mapLanes m f).frontier = g.frontier := rfl
@[simp] theorem Gang.mapLanes_chosen (g : Gang) (m : LaneMask) (f : Nat → Lane → Lane) : (g.mapLanes m f).chosen = g.chosen := rfl
@[simp] theorem Gang.mapLanes_paired (g : Gang) (m : LaneMask) (f : Nat → Lane → Lane) : (g.mapLanes m f).paired = g.paired := rfl
@[simp] theorem Gang.mapLanes_g (g : Gang) (m : LaneMask) (f : Nat → Lane → Lane) : (g.mapLanes m f).g = g.g := rfl
@[simp] theorem Gang.mapLanes_latches (g : Gang) (m : LaneMask) (f : Nat → Lane → Lane) : (g.mapLanes m f).latches = g.latches := rfl
@[simp] theorem Gang.mapLanes_latchLive (g : Gang) (m : LaneMask) (f : Nat → Lane → Lane) : (g.mapLanes m f).latchLive = g.latchLive := rfl
@[simp] theorem Gang.mapLanes_regioncnt (g : Gang) (m : LaneMask) (f : Nat → Lane → Lane) : (g.mapLanes m f).regioncnt = g.regioncnt := rfl
@[simp] theorem Gang.mapLanes_barPhase (g : Gang) (m : LaneMask) (f : Nat → Lane → Lane) : (g.mapLanes m f).barPhase = g.barPhase := rfl
@[simp] theorem Gang.mapLanes_arrived (g : Gang) (m : LaneMask) (f : Nat → Lane → Lane) : (g.mapLanes m f).arrived = g.arrived := rfl
@[simp] theorem Gang.mapLanes_waits (g : Gang) (m : LaneMask) (f : Nat → Lane → Lane) : (g.mapLanes m f).waits = g.waits := rfl
@[simp] theorem Gang.mapLanes_pages (g : Gang) (m : LaneMask) (f : Nat → Lane → Lane) : (g.mapLanes m f).pages = g.pages := rfl
@[simp] theorem Gang.mapLanes_sys (g : Gang) (m : LaneMask) (f : Nat → Lane → Lane) : (g.mapLanes m f).sys = g.sys := rfl
@[simp] theorem Gang.mapLanes_parked (g : Gang) (m : LaneMask) (f : Nat → Lane → Lane) : (g.mapLanes m f).parked = g.parked := rfl
@[simp] theorem Gang.mapLanes_line (g : Gang) (m : LaneMask) (f : Nat → Lane → Lane) : (g.mapLanes m f).line = g.line := rfl
@[simp] theorem Gang.mapLanes_linePa (g : Gang) (m : LaneMask) (f : Nat → Lane → Lane) : (g.mapLanes m f).linePa = g.linePa := rfl
@[simp] theorem Gang.mapLanes_retired (g : Gang) (m : LaneMask) (f : Nat → Lane → Lane) : (g.mapLanes m f).retired = g.retired := rfl
@[simp] theorem Gang.mapLanes_stopReq (g : Gang) (m : LaneMask) (f : Nat → Lane → Lane) : (g.mapLanes m f).stopReq = g.stopReq := rfl
@[simp] theorem Gang.mapLanes_stopped (g : Gang) (m : LaneMask) (f : Nat → Lane → Lane) : (g.mapLanes m f).stopped = g.stopped := rfl
@[simp] theorem Gang.mapLanes_stoppedAt (g : Gang) (m : LaneMask) (f : Nat → Lane → Lane) : (g.mapLanes m f).stoppedAt = g.stoppedAt := rfl
@[simp] theorem Gang.mapLanes_halted (g : Gang) (m : LaneMask) (f : Nat → Lane → Lane) : (g.mapLanes m f).halted = g.halted := rfl
@[simp] theorem Gang.mapLanes_fbarPending (g : Gang) (m : LaneMask) (f : Nat → Lane → Lane) : (g.mapLanes m f).fbarPending = g.fbarPending := rfl
@[simp] theorem Gang.mapLanes_illegal (g : Gang) (m : LaneMask) (f : Nat → Lane → Lane) : (g.mapLanes m f).illegal = g.illegal := rfl
@[simp] theorem Gang.mapLanes_counted (g : Gang) (m : LaneMask) (f : Nat → Lane → Lane) : (g.mapLanes m f).counted = g.counted := rfl

@[simp] theorem Lane.setReg_preds (l : Lane) (r : Nat) (w : Word) : (l.setReg r w).preds = l.preds := rfl
@[simp] theorem Lane.setReg_mode (l : Lane) (r : Nat) (w : Word) : (l.setReg r w).mode = l.mode := rfl
@[simp] theorem Lane.setReg_frames (l : Lane) (r : Nat) (w : Word) : (l.setReg r w).frames = l.frames := rfl
@[simp] theorem Lane.setReg_scnt (l : Lane) (r : Nat) (w : Word) : (l.setReg r w).scnt = l.scnt := rfl
@[simp] theorem Lane.setReg_fpstat (l : Lane) (r : Nat) (w : Word) : (l.setReg r w).fpstat = l.fpstat := rfl
@[simp] theorem Lane.setReg_run (l : Lane) (r : Nat) (w : Word) : (l.setReg r w).run = l.run := rfl
@[simp] theorem Lane.setReg_pc (l : Lane) (r : Nat) (w : Word) : (l.setReg r w).pc = l.pc := rfl

@[simp] theorem Lane.setPred_regs (l : Lane) (p : Nat) (b : Bool) : (l.setPred p b).regs = l.regs := rfl
@[simp] theorem Lane.setPred_mode (l : Lane) (p : Nat) (b : Bool) : (l.setPred p b).mode = l.mode := rfl
@[simp] theorem Lane.setPred_frames (l : Lane) (p : Nat) (b : Bool) : (l.setPred p b).frames = l.frames := rfl
@[simp] theorem Lane.setPred_scnt (l : Lane) (p : Nat) (b : Bool) : (l.setPred p b).scnt = l.scnt := rfl
@[simp] theorem Lane.setPred_fpstat (l : Lane) (p : Nat) (b : Bool) : (l.setPred p b).fpstat = l.fpstat := rfl
@[simp] theorem Lane.setPred_run (l : Lane) (p : Nat) (b : Bool) : (l.setPred p b).run = l.run := rfl
@[simp] theorem Lane.setPred_pc (l : Lane) (p : Nat) (b : Bool) : (l.setPred p b).pc = l.pc := rfl

@[simp] theorem Lane.count_regs (l : Lane) (st up down : Nat) : (l.count st up down).regs = l.regs := rfl
@[simp] theorem Lane.count_preds (l : Lane) (st up down : Nat) : (l.count st up down).preds = l.preds := rfl
@[simp] theorem Lane.count_mode (l : Lane) (st up down : Nat) : (l.count st up down).mode = l.mode := rfl
@[simp] theorem Lane.count_frames (l : Lane) (st up down : Nat) : (l.count st up down).frames = l.frames := rfl
@[simp] theorem Lane.count_fpstat (l : Lane) (st up down : Nat) : (l.count st up down).fpstat = l.fpstat := rfl
@[simp] theorem Lane.count_run (l : Lane) (st up down : Nat) : (l.count st up down).run = l.run := rfl
@[simp] theorem Lane.count_pc (l : Lane) (st up down : Nat) : (l.count st up down).pc = l.pc := rfl

/-! Reads of a crew and a gang after a write. -/

/-- The crew found after a crew is replaced. -/
theorem State.crew?_setCrew (s : State) (c : Crew) (uid : Nat) :
    (s.setCrew c).crew? uid = if uid = c.uid then (s.crew? c.uid).map (fun _ => c) else s.crew? uid := by
  simp only [State.crew?, State.setCrew, State.mapCrew]
  rw [find_mapCrew c.uid uid (fun _ => c) s.crews (fun _ => rfl)]

theorem State.setCrew_setCrew (s : State) (c d : Crew) (h : d.uid = c.uid) : (s.setCrew c).setCrew d = s.setCrew d := by
  simp only [State.setCrew, State.mapCrew, h]
  rw [mapCrew_mapCrew _ _ _ _ (fun _ => rfl)]

@[simp] theorem Lane.reg_setReg (l : Lane) (r q : Nat) (w : Word) : (l.setReg r w).reg q = if q = r then w else l.reg q := by
  simp [Lane.reg, Lane.setReg]

@[simp] theorem Lane.reg_setPred (l : Lane) (p q : Nat) (b : Bool) : (l.setPred p b).reg q = l.reg q := rfl
@[simp] theorem Lane.pred_setReg (l : Lane) (p q : Nat) (w : Word) : (l.setReg q w).pred p = l.pred p := rfl

theorem Lane.pred_setPred (l : Lane) (p q : Nat) (b : Bool) (h : q < 15) :
    (l.setPred p b).pred q = if p = q then b else l.pred q := by
  simp only [Lane.pred, Lane.setPred]
  by_cases hpq : p = q
  · subst hpq; cases b <;> simp [h]
  · have h1 : ¬ (p ≤ q ∧ q - p = 0) := by omega
    cases b <;> simp [h, hpq] <;> omega

end Sys2Proof.Machine
end

