-- ==== Sys2Proof/Laws/Issue.lean ====
section
/-!
SUPPORT. What issuing does, once for every instruction: the results of an instruction that is no switch point, and the end of a
switch point that traps no lane.
-/

namespace Sys2Proof.Machine

/-! What issues. -/

theorem State.crew?_uid {s : State} {uid : Nat} {c : Crew} (h : s.crew? uid = some c) : c.uid = uid := by
  have := List.find?_some h; simpa using this

/-- The issuing crew is found under its uid, its gang exists, and the entry heads that gang's frontier. -/
theorem issuing_spec {s : State} {x : Issue} (h : issuing s = some x) :
    s.crew? x.c.uid = some x.c ∧ x.g = x.c.gang x.k ∧ x.k < x.c.gangs.length ∧ ∃ es, x.g.frontier = x.e :: es := by
  unfold issuing at h
  split at h
  · cases h
  · split at h
    · cases h
    · split at h
      · cases h
      · rename_i uid k _ c hc _ e es hf
        cases h
        refine ⟨by rw [State.crew?_uid hc]; exact hc, rfl, ?_, es, hf⟩
        refine Decidable.byContradiction fun hk => ?_
        rw [Crew.gang_of_ge _ _ (by simpa using hk)] at hf
        simp [Gang.blank] at hf

/-- The gang of a crew that was put in place of the issuing one. -/
theorem gang_setCrew {s : State} {x : Issue} (h : issuing s = some x) (c : Crew) (hc : c.uid = x.c.uid) (j : Nat) :
    (s.setCrew c).gang x.c.uid j = c.gang j := by
  have hx := (issuing_spec h).1
  simp [State.gang, State.crew?_setCrew, hc, hx]

/-- The issuing gang after it was replaced. -/
theorem now_setGang {s : State} {x : Issue} (h : issuing s = some x) (g : Gang) :
    (s.setCrew (x.c.setGang x.k g)).gang x.c.uid x.k = g := by
  have hk := (issuing_spec h).2.2.1
  rw [gang_setCrew h (x.c.setGang x.k g) rfl]
  simp [Crew.setGang, Crew.mapGang_gang, hk]

/-! Results. -/

theorem writeRegs_reg (x : Lane) (r q : Nat) (ws : List Word) :
    (writeRegs x r ws).reg q = if r ≤ q ∧ q < r + ws.length then ws.getD (q - r) 0#32 else x.reg q := by
  induction ws generalizing x r with
  | nil =>
    have : ¬ (r ≤ q ∧ q < r + 0) := by omega
    simp only [writeRegs, List.length_nil, if_neg this]
  | cons w ws ih =>
    simp only [writeRegs, ih, Lane.reg_setReg, List.length_cons]
    by_cases hq : q = r
    · subst hq; rw [if_neg (by omega), if_pos rfl, if_pos (by omega)]; simp
    · by_cases hr : r + 1 ≤ q ∧ q < r + 1 + ws.length
      · have e : q - r = (q - (r + 1)) + 1 := by omega
        rw [if_pos hr, if_pos (by omega), e]; simp
      · rw [if_neg hr, if_neg hq, if_neg (by omega)]

theorem writeRegs_same (x : Lane) (r : Nat) (ws : List Word) :
    (writeRegs x r ws).preds = x.preds ∧ (writeRegs x r ws).mode = x.mode ∧ (writeRegs x r ws).frames = x.frames ∧
    (writeRegs x r ws).scnt = x.scnt ∧ (writeRegs x r ws).fpstat = x.fpstat ∧ (writeRegs x r ws).run = x.run ∧
    (writeRegs x r ws).pc = x.pc := by
  induction ws generalizing x r with
  | nil => simp [writeRegs]
  | cons w ws ih => simpa [writeRegs] using ih (x.setReg r w) (r + 1)

theorem writePreds_pred (x : Lane) (ps : List (Nat × Bool)) (p : Nat) (h : p < 15) :
    (writePreds x ps).pred p = predAfter ps (x.pred p) p := by
  induction ps generalizing x with
  | nil => rfl
  | cons q t ih => obtain ⟨q, b⟩ := q; simp [writePreds, predAfter, ih, Lane.pred_setPred _ _ _ _ h]

theorem writePreds_same (x : Lane) (ps : List (Nat × Bool)) :
    (writePreds x ps).regs = x.regs ∧ (writePreds x ps).mode = x.mode ∧ (writePreds x ps).frames = x.frames ∧
    (writePreds x ps).scnt = x.scnt ∧ (writePreds x ps).fpstat = x.fpstat ∧ (writePreds x ps).run = x.run ∧
    (writePreds x ps).pc = x.pc := by
  induction ps generalizing x with
  | nil => simp [writePreds]
  | cons q t ih => obtain ⟨q, b⟩ := q; simpa [writePreds] using ih (x.setPred q b)

/-- What one lane's results leave of that lane. -/
def laneAfter (h : Hdr) (d : Opnd) (o : LaneOut) (x : Lane) : Lane :=
  let y : Lane := { writePreds x o.preds with fpstat := x.fpstat ||| o.flags }
  if h.nwb then y
  else match d with
    | .v r => writeRegs y r.val o.words
    | _ => y

theorem laneAfter_reg (h : Hdr) (d : Opnd) (o : LaneOut) (x : Lane) (r : Nat) :
    (laneAfter h d o x).reg r = regAfter h d true o.words (x.reg r) r := by
  have e : ({ writePreds x o.preds with fpstat := x.fpstat ||| o.flags } : Lane).reg r = x.reg r := by
    simp [Lane.reg, (writePreds_same x o.preds).1]
  unfold laneAfter regAfter
  cases hn : h.nwb <;> cases d <;> simp [e, writeRegs_reg]

theorem laneAfter_same (h : Hdr) (d : Opnd) (o : LaneOut) (x : Lane) :
    (laneAfter h d o x).preds = (writePreds x o.preds).preds ∧ (laneAfter h d o x).fpstat = x.fpstat ||| o.flags ∧
    (laneAfter h d o x).mode = x.mode ∧ (laneAfter h d o x).frames = x.frames ∧ (laneAfter h d o x).scnt = x.scnt ∧
    (laneAfter h d o x).run = x.run ∧ (laneAfter h d o x).pc = x.pc := by
  obtain ⟨_, hm, hf, hs, _, hr, hp⟩ := writePreds_same x o.preds
  unfold laneAfter
  cases hn : h.nwb <;> cases d <;> simp [hm, hf, hs, hr, hp, writeRegs_same]

/-- One lane's results, as a change of that lane and of the gang-uniform registers. -/
theorem writeOuts_cons (g : Gang) (h : Hdr) (low : Nat) (d : Opnd) (l : Nat) (o : LaneOut) (t : List (Nat × LaneOut)) :
    ∃ gs, writeOuts g h low d ((l, o) :: t) = writeOuts { g.mapLane l (laneAfter h d o) with g := gs } h low d t ∧
      ∀ r, sget 0#32 gs r = if l = low then gregAfter h d true o.words (sget 0#32 g.g r) r else sget 0#32 g.g r := by
  have wg : ∀ (t : List (Nat × Word)) (q r : Nat) (ws : List Word), sget 0#32 (writeG t q ws) r =
      if q ≤ r ∧ r < q + ws.length then ws.getD (r - q) 0#32 else sget 0#32 t r := by
    intro t q r ws
    induction ws generalizing t q with
    | nil =>
      have : ¬ (q ≤ r ∧ r < q + 0) := by omega
      simp only [writeG, List.length_nil, if_neg this]
    | cons w ws ih =>
      simp only [writeG, ih, sget_sput, List.length_cons]
      by_cases hq : r = q
      · subst hq; rw [if_neg (by omega), if_pos rfl, if_pos (by omega)]; simp
      · by_cases hr : q + 1 ≤ r ∧ r < q + 1 + ws.length
        · have e : r - q = (r - (q + 1)) + 1 := by omega
          rw [if_pos hr, if_pos (by omega), e]; simp
        · rw [if_neg hr, if_neg hq, if_neg (by omega)]
  have e0 : ∀ g1, (if h.nwb then (g.mapLane l fun x => { writePreds x o.preds with fpstat := x.fpstat ||| o.flags })
      else writeOpnd (g.mapLane l fun x => { writePreds x o.preds with fpstat := x.fpstat ||| o.flags }) low l d o.words) = g1 →
        writeOuts g h low d ((l, o) :: t) = writeOuts g1 h low d t := fun g1 e => by rw [← e]; rfl
  have ef : ∀ f, (∀ x, f x = laneAfter h d o x) → modifyNth g.lanes l f = modifyNth g.lanes l (laneAfter h d o) :=
    fun f hf => by rw [funext hf]
  cases hn : h.nwb
  · cases d with
    | v q =>
      refine ⟨g.g, e0 _ ?_, by simp [gregAfter]⟩
      simp only [hn, Bool.false_eq_true, if_false, writeOpnd, Gang.mapLane, modifyNth_modifyNth]
      rw [ef _ fun x => by simp [laneAfter, hn]]
    | b q =>
      refine ⟨g.g, e0 _ ?_, by simp [gregAfter]⟩
      simp only [hn, Bool.false_eq_true, if_false, writeOpnd, Gang.mapLane]
      rw [ef _ fun x => by simp [laneAfter, hn]]
    | vz =>
      refine ⟨g.g, e0 _ ?_, by simp [gregAfter]⟩
      simp only [hn, Bool.false_eq_true, if_false, writeOpnd, Gang.mapLane]
      rw [ef _ fun x => by simp [laneAfter, hn]]
    | g q =>
      refine ⟨if l = low then writeG g.g q.val o.words else g.g, e0 _ ?_, ?_⟩
      · simp only [hn, Bool.false_eq_true, if_false, writeOpnd, Gang.mapLane]
        rw [ef _ fun x => by simp [laneAfter, hn]]
        split <;> rfl
      · intro r
        split
        · simp [wg, gregAfter, hn]
        · rfl
  · refine ⟨g.g, e0 _ ?_, ?_⟩
    · simp only [hn, if_true, Gang.mapLane]
      rw [ef _ fun x => by simp [laneAfter, hn]]
    · intro r; cases d <;> simp [gregAfter, hn]

/-- What the results of several lanes leave of a gang: its lanes and gang-uniform registers change, and nothing else. -/
theorem writeOuts_spec (g : Gang) (h : Hdr) (low : Nat) (d : Opnd) (ls : List Nat) (out : Nat → LaneOut) (hn : ls.Nodup) :
    ∃ lanes gs, writeOuts g h low d (ls.map fun l => (l, out l)) = { g with lanes := lanes, g := gs } ∧
      lanes.length = g.lanes.length ∧
      (∀ j, lanes.getD j Lane.blank = if j ∈ ls ∧ j < g.lanes.length then laneAfter h d (out j) (g.lane j) else g.lane j) ∧
      ∀ r, sget 0#32 gs r = if low ∈ ls then gregAfter h d true (out low).words (sget 0#32 g.g r) r else sget 0#32 g.g r := by
  induction ls generalizing g with
  | nil => exact ⟨g.lanes, g.g, rfl, rfl, by simp [Gang.lane], by simp⟩
  | cons l ls ih =>
    obtain ⟨hl, hn'⟩ := List.nodup_cons.mp hn
    obtain ⟨gs0, e0, hg0⟩ := writeOuts_cons g h low d l (out l) (ls.map fun l => (l, out l))
    obtain ⟨lanes, gs, e1, hlen, hlane, hgr⟩ := ih { g.mapLane l (laneAfter h d (out l)) with g := gs0 } hn'
    refine ⟨lanes, gs, ?_, ?_, ?_, ?_⟩
    · rw [List.map_cons, e0, e1]; rfl
    · rw [hlen]; simp [Gang.mapLane]
    · intro j
      rw [hlane]
      have e : ({ g.mapLane l (laneAfter h d (out l)) with g := gs0 } : Gang).lane j =
          (g.mapLane l (laneAfter h d (out l))).lane j := rfl
      rw [e, Gang.mapLane_lane]
      simp only [Gang.mapLane, modifyNth_length, List.mem_cons]
      by_cases hj : j = l
      · subst hj; simp [hl]
      · simp [hj]
    · intro r
      rw [hgr]
      simp only [List.mem_cons, hg0]
      by_cases e : low = l
      · subst e; simp [hl]
      · have e' : ¬ l = low := fun h => e h.symm
        simp [e, e']

/-! Latches. -/

/-- Latch LATN after the results of the executing lanes `ls`, among the lanes of the entry's mask. -/
theorem writeLatch_spec (g : Gang) (h : Hdr) (mask : LaneMask) (ls : List Nat) (out : Nat → LaneOut) :
    ∃ lats live, writeLatch g h mask (ls.map fun l => (l, out l)) = { g with latches := lats, latchLive := live } ∧
      live = (if h.late then g.latchLive ||| (1#8 <<< h.latn.toNat) else g.latchLive) ∧
      ∀ l b, l < 32 → sget 0#32 lats (32 * b + l) =
        latchAfter h b (mask.getLsbD l) (decide (l ∈ ls)) (out l).words (sget 0#32 g.latches (32 * b + l)) := by
  have find : ∀ l, ((ls.map fun l => (l, out l)).find? fun o => o.1 == l) = if l ∈ ls then some (l, out l) else none := by
    intro l
    induction ls with
    | nil => rfl
    | cons a as ih =>
      by_cases e : a = l
      · subst e; simp
      · have e' : ¬ l = a := fun h => e h.symm
        simp [e, e', ih]
  have fold : ∀ (as : List Nat) (f : Nat → Word) (n : Nat) (t : List (Nat × Word)) (key : Nat), as.Nodup →
      sget 0#32 (as.foldl (fun t l => sput 0#32 t (32 * n + l) (f l)) t) key =
        if 32 * n ≤ key ∧ key - 32 * n ∈ as then f (key - 32 * n) else sget 0#32 t key := by
    intro as f n
    induction as with
    | nil => simp
    | cons a as ih =>
      intro t key hd
      obtain ⟨ha, hd'⟩ := List.nodup_cons.mp hd
      simp only [List.foldl_cons, ih _ _ hd', sget_sput, List.mem_cons]
      by_cases hk : key = 32 * n + a
      · subst hk
        have e : 32 * n + a - 32 * n = a := by omega
        rw [e]; simp [ha]
      · rw [if_neg hk]
        by_cases hm : 32 * n ≤ key ∧ key - 32 * n ∈ as
        · rw [if_pos hm, if_pos ⟨hm.1, .inr hm.2⟩]
        · rw [if_neg hm, if_neg]
          rintro ⟨h1, h2 | h2⟩
          · omega
          · exact hm ⟨h1, h2⟩
  unfold writeLatch latchAfter
  cases hl : h.late
  · exact ⟨g.latches, g.latchLive, rfl, rfl, by simp⟩
  · refine ⟨_, _, rfl, rfl, ?_⟩
    intro l b hlt
    rw [fold _ _ _ _ _ (LaneMask.nodup_lanes mask)]
    by_cases hb : b = h.latn.toNat
    · have e : 32 * b + l - 32 * b = l := by omega
      rw [← hb, e]
      by_cases hm : mask.getLsbD l = true
      · simp [LaneMask.mem_lanes, hm, find]
        split <;> simp
      · simp [LaneMask.mem_lanes, hm]
    · rw [if_neg, if_neg]
      · simp [hb]
      · rintro ⟨h1, h2⟩
        have h3 := (LaneMask.mem_lanes _ _).mp h2
        have h4 : 32 * b + l - 32 * h.latn.toNat < 32 := by
          refine Decidable.byContradiction fun hh => ?_
          rw [BitVec.getLsbD_of_ge mask (32 * b + l - 32 * h.latn.toNat) (by omega)] at h3
          cases h3
        exact hb (by omega)

/-! Instructions that are no switch point. -/

/-- Moving the entry on changes the frontier and the pairing only. -/
theorem advance_spec (g : Gang) (e : Entry) (prio : Nat) (pair : Bool) :
    advance g e prio pair = { g with frontier := (advance g e prio pair).frontier, paired := pair } := by
  cases pair <;> rfl

theorem advance_with (g : Gang) (e : Entry) (prio : Nat) (pair : Bool) (lanes : List Lane) (gs lats : List (Nat × Word)) (live : BitVec 8) :
    advance { g with lanes := lanes, g := gs, latches := lats, latchLive := live } e prio pair =
      { advance g e prio pair with lanes := lanes, g := gs, latches := lats, latchLive := live } := by
  cases pair <;> rfl

theorem lowest_mem {m : LaneMask} (h : m ≠ 0#32) : lowest m ∈ LaneMask.lanes m := by
  have hex : ∃ l, l ∈ laneNumbers ∧ m.getLsbD l = true := by
    refine Decidable.byContradiction fun hh => h ?_
    apply BitVec.eq_of_getLsbD_eq
    intro i hi
    simp only [BitVec.getLsbD_zero]
    rw [Bool.eq_false_iff]
    exact fun hb => hh ⟨i, List.mem_range.mpr hi, hb⟩
  obtain ⟨l, hl, hb⟩ := hex
  cases hf : laneNumbers.find? (fun l => m.getLsbD l) with
  | none => rw [List.find?_eq_none] at hf; exact absurd hb (hf l hl)
  | some a =>
    have ha := List.find?_some hf
    simp only [lowest, hf, Option.getD_some]
    exact (LaneMask.mem_lanes _ _).mpr ha

/-- An instruction that is no switch point and is ready completes: its executing lanes take what `out` gives them. -/
theorem issueWith_computes {s : State} {x : Issue} {h : Hdr} {uses : List (Opnd × Nat)} {preds : List PredOpt} (d : Opnd)
    (F : Crew → Gang → Nat → LaneMask → List (Nat × LaneOut)) (out : Nat → LaneOut) (hr : Ready s x h uses preds)
    (hF : F x.c x.g s.draws (x.execs h) = (x.execs h).lanes.map fun l => (l, out l)) :
    ∃ t, issueWith s h d uses preds F = .next t ∧ Computed s t x h d out := by
  obtain ⟨hi, hs, hb⟩ := hr
  have hx := issuing_spec hi
  obtain ⟨lanes, gs, e1, hlen, hlane, hg⟩ :=
    writeOuts_spec x.g h (lowest (x.execs h)) d (x.execs h).lanes out (LaneMask.nodup_lanes _)
  obtain ⟨lats, live, e2, hlive, hlat⟩ := writeLatch_spec { x.g with lanes := lanes, g := gs } h x.e.mask (x.execs h).lanes out
  have e3 : issueWith s h d uses preds F = .next { s.setCrew (x.c.setGang x.k
      { advance x.g x.e (nextPrio s x.c x.e) (pairsNext x.g x.e) with lanes := lanes, g := gs, latches := lats, latchLive := live }) with
        draws := s.draws + 1 } := by
    have hF' : F x.c x.g s.draws (execMask x.g x.e h) = (x.execs h).lanes.map fun l => (l, out l) := hF
    have ew : writeLatch (writeOuts x.g h (lowest (execMask x.g x.e h)) d (F x.c x.g s.draws (execMask x.g x.e h))) h x.e.mask
        (F x.c x.g s.draws (execMask x.g x.e h)) = { x.g with lanes := lanes, g := gs, latches := lats, latchLive := live } := by
      rw [hF']; exact (congrArg (fun w => writeLatch w h x.e.mask _) e1).trans e2
    simp only [issueWith, hi, hs, ew, advance_with, finish, State.setCrew_bad, hb]
    rfl
  refine ⟨_, e3, ?_⟩
  have hn : ∀ g : Gang, x.now { s.setCrew (x.c.setGang x.k g) with draws := s.draws + 1 } = g := fun g => now_setGang hi g
  have hnow := hn { advance x.g x.e (nextPrio s x.c x.e) (pairsNext x.g x.e) with
    lanes := lanes, g := gs, latches := lats, latchLive := live }
  have hlane' : ∀ j, ({ advance x.g x.e (nextPrio s x.c x.e) (pairsNext x.g x.e) with
      lanes := lanes, g := gs, latches := lats, latchLive := live } : Gang).lane j =
        if (x.execs h).getLsbD j = true ∧ j < x.g.lanes.length then laneAfter h d (out j) (x.g.lane j) else x.g.lane j := by
    intro j
    have := hlane j
    simp only [LaneMask.mem_lanes] at this
    exact this
  constructor
  · exact ⟨_, _, _, _, rfl⟩
  · rw [hnow]; exact hlen
  · intro l r hl
    rw [hnow, hlane']
    cases hm : (x.execs h).getLsbD l
    · simp [regAfter]; cases d <;> simp
    · simp [hl, laneAfter_reg]
  · intro l p hl hp
    rw [hnow, hlane']
    cases hm : (x.execs h).getLsbD l
    · simp
    · simp [hl, Lane.pred, (laneAfter_same h d (out l) (x.g.lane l)).1]
      exact writePreds_pred _ _ _ hp
  · intro l hl
    rw [hnow, hlane']
    cases hm : (x.execs h).getLsbD l
    · simp
    · simp [hl, (laneAfter_same h d (out l) (x.g.lane l)).2.1]
  · intro l
    rw [hnow, hlane']
    split
    · obtain ⟨_, _, a, b, c, e, f⟩ := laneAfter_same h d (out l) (x.g.lane l)
      exact ⟨a, b, c, e, f⟩
    · exact ⟨rfl, rfl, rfl, rfl, rfl⟩
  · intro r
    rw [hnow]
    refine (hg r).trans ?_
    by_cases hz : x.execs h = 0#32
    · simp [hz, gregAfter]; cases d <;> simp
    · rw [if_pos (lowest_mem hz)]
      have : (x.execs h != 0#32) = true := by simpa using hz
      rw [this]
  · intro l b hl _
    rw [hnow]
    refine (hlat l b hl).trans ?_
    congr 1
    simp [LaneMask.mem_lanes]
  · rw [hnow]; exact hlive

/-- The same for an instruction whose lanes act each on its own operands. -/
theorem issueLanes_computes {s : State} {x : Issue} {h : Hdr} {uses : List (Opnd × Nat)} {preds : List PredOpt} (d : Opnd)
    (f : Bool → Lane → Reader → LaneOut) (hr : Ready s x h uses preds) :
    ∃ t, issueLanes s h d uses preds f = .next t ∧
      Computed s t x h d fun l => f x.c.lvl (x.g.lane l) (readWide x.g s.draws l) :=
  issueWith_computes d _ _ hr rfl

/-! Switch points. -/

/-- A switch point that is ready acts on its executing lanes. -/
theorem issueSwitch_ready {s : State} {x : Issue} {h : Hdr} {uses : List (Opnd × Nat)} {preds : List PredOpt}
    (F : Issue → LaneMask → State) (hr : ReadySwitch s x h uses preds) :
    issueSwitch s h uses preds F = finish (F x (x.execs h)) := by
  obtain ⟨⟨hi, hs, _⟩, h1, h2⟩ := hr
  simp [issueSwitch, issueSwitchWith, hi, heldBack, h1, h2, hs, Issue.execs]

theorem dropLanes_zero (fr : List Entry) : dropLanes 0#32 fr = fr.filter fun e => e.mask != 0#32 := by
  unfold dropLanes
  congr 1
  induction fr with
  | nil => rfl
  | cons e fr ih =>
    have h : e.mask &&& ~~~0#32 = e.mask := by
      rw [show ~~~0#32 = BitVec.allOnes 32 from rfl, BitVec.and_allOnes]
    rw [List.map_cons, ih, h]

/-- A producer with no record goes on at once. -/
@[simp] theorem giveRecords_nil (s : State) (r : Ring) (crew : Nat) (gang : Option Nat) (fate : Fate) (done : State → State) :
    giveRecords s r crew gang fate [] done = done s := by
  simp [giveRecords, writeRecords]

/-- With no lane to trap, taking traps only removes empty entries. -/
theorem takeTraps_nil (s : State) (c : Crew) (k : Nat) (prio : Nat) :
    takeTraps s c k prio [] = some (s.setCrew (c.setGang k { c.gang k with
      frontier := (c.gang k).frontier.filter (fun e => e.mask != 0#32), chosen := false, paired := false })) := by
  simp [takeTraps, trapRecords, LaneMask.ofList, dropLanes_zero]

/-- The end of a switch point that traps no lane. -/
theorem finishSwitch_nil (s0 s : State) (x : Issue) (c : Crew) (groups : List Entry) :
    finishSwitch s0 s x c groups [] = switched s x c groups := by
  simp only [finishSwitch, takeTraps_nil, switched]
  have e : (c.mapGang x.k fun g => regroup g groups).setGang x.k { (c.mapGang x.k fun g => regroup g groups).gang x.k with
        frontier := ((c.mapGang x.k fun g => regroup g groups).gang x.k).frontier.filter (fun e => e.mask != 0#32)
        chosen := false, paired := false } =
      c.mapGang x.k fun g => { regroup g groups with frontier := (addEntries groups g.frontier.tail).filter fun e => e.mask != 0#32 } := by
    simp only [Crew.setGang, Crew.mapGang_mapGang]
    simp only [Crew.mapGang, Crew.gang]
    congr 1
    apply modifyNth_congr _ _ _ _ Gang.blank
    intro hk
    rw [modifyNth_getD]
    simp [hk, regroup]
  rw [e]
  simp only [State.setCrew_draws]
  rw [State.setCrew_setCrew _ _ _ (by rfl)]

@[simp] theorem switched_bad (s : State) (x : Issue) (c : Crew) (groups : List Entry) : (switched s x c groups).bad = s.bad := rfl

theorem finish_next {s : State} (h : s.bad = none) : finish s = .next s := by simp [finish, h]

/-- A switch point that traps no lane completes. -/
theorem issueSwitch_switched {s : State} {x : Issue} {h : Hdr} {uses : List (Opnd × Nat)} {preds : List PredOpt}
    (F : Issue → LaneMask → State) (t : State) (hr : ReadySwitch s x h uses preds) (hF : F x (x.execs h) = t) (hb : t.bad = none) :
    issueSwitch s h uses preds F = .next t := by
  rw [issueSwitch_ready F hr, hF, finish_next hb]

theorem exhausted_false {x : Issue} {h : Hdr} {cl : Clause} (hc : CountFree x h cl) : exhausted x.g (x.execs h) cl.stream = false := by
  simp only [exhausted, List.any_eq_false]
  intro l hl
  have := hc l hl
  simp; omega

/-- A counted instruction that is ready completes: each executing lane counts its operation. -/
theorem issueCounted_switched {s : State} {x : Issue} {h : Hdr} {uses : List (Opnd × Nat)} {preds : List PredOpt} {cl : Clause}
    (scope : Nat) (f : State → Issue → Nat → OpKind) (hr : ReadySwitch s x h uses preds) (hc : CountFree x h cl) :
    issueCounted s h uses preds cl scope f =
      .next (switched s x (counted s x h cl scope (f s x)) [nextGroup s x x.e.mask]) := by
  refine issueSwitch_switched _ _ hr ?_ (by simp [hr.ready.stored])
  simp only [exhausted_false hc, finishSwitch_nil]
  rfl

end Sys2Proof.Machine
end

