-- ==== Sys2Proof/Laws/Control.lean ====
section
/-!
SUPPORT. The frontier after groups join it, and what transfers leave when every target is legal (R89 to R91, R157 to R159).
-/

namespace Sys2Proof.Machine

/-! Where lanes stand. -/

/-- Some entry of a frontier holds a lane at a PC. -/
def standsAt (fr : List Entry) (l : Nat) (pc : Pc) : Prop := ∃ e ∈ fr, e.mask.getLsbD l = true ∧ e.pc = pc

theorem ne_zero_of_lane {m : LaneMask} {l : Nat} (h : m.getLsbD l = true) : m ≠ 0#32 := by
  rintro rfl; simp at h

theorem addEntry_standsAt (e : Entry) (fr : List Entry) (l : Nat) (pc : Pc) :
    standsAt (addEntry e fr) l pc ↔ (e.mask.getLsbD l = true ∧ e.pc = pc) ∨ standsAt fr l pc := by
  unfold standsAt
  induction fr with
  | nil =>
    simp only [addEntry]
    by_cases h : e.mask = 0#32
    · simp [h]
    · simp [h]
  | cons x xs ih =>
    simp only [addEntry]
    by_cases h : e.mask = 0#32
    · simp [h]
    · rw [if_neg h]
      split
      · rename_i hm
        simp only [List.mem_cons, exists_eq_or_imp, BitVec.getLsbD_or, Bool.or_eq_true]
        constructor
        · rintro (⟨h1 | h1, rfl⟩ | h2)
          · exact .inr (.inl ⟨h1, rfl⟩)
          · exact .inl ⟨h1, hm.1.symm⟩
          · exact .inr (.inr h2)
        · rintro (⟨h1, rfl⟩ | ⟨h1, rfl⟩ | h2)
          · exact .inl ⟨.inr h1, hm.1⟩
          · exact .inl ⟨.inl h1, rfl⟩
          · exact .inr h2
      · simp only [List.mem_cons, exists_eq_or_imp, ih]
        constructor
        · rintro (h1 | h1 | h1)
          · exact .inr (.inl h1)
          · exact .inl h1
          · exact .inr (.inr h1)
        · rintro (h1 | h1 | h1)
          · exact .inr (.inl h1)
          · exact .inl h1
          · exact .inr (.inr h1)

theorem addEntries_cons (e : Entry) (es fr : List Entry) : addEntries (e :: es) fr = addEntries es (addEntry e fr) := rfl

theorem addEntries_append (as bs fr : List Entry) : addEntries (as ++ bs) fr = addEntries bs (addEntries as fr) := by
  simp [addEntries]

theorem addEntries_standsAt (es fr : List Entry) (l : Nat) (pc : Pc) :
    standsAt (addEntries es fr) l pc ↔ standsAt es l pc ∨ standsAt fr l pc := by
  induction es generalizing fr with
  | nil => simp [addEntries, standsAt]
  | cons e es ih =>
    rw [addEntries_cons, ih, addEntry_standsAt]
    unfold standsAt
    simp only [List.mem_cons, exists_eq_or_imp]
    constructor
    · rintro (h | h | h)
      · exact .inl (.inr h)
      · exact .inl (.inl h)
      · exact .inr h
    · rintro ((h | h) | h)
      · exact .inr (.inl h)
      · exact .inl h
      · exact .inr (.inr h)

theorem filter_standsAt (fr : List Entry) (l : Nat) (pc : Pc) :
    standsAt (fr.filter fun e => e.mask != 0#32) l pc ↔ standsAt fr l pc := by
  unfold standsAt
  constructor
  · rintro ⟨e, he, h⟩; exact ⟨e, (List.mem_filter.mp he).1, h⟩
  · rintro ⟨e, he, h⟩; exact ⟨e, List.mem_filter.mpr ⟨he, by simpa using ne_zero_of_lane h.1⟩, h⟩

/-- An entry keeps its PC and its lanes while groups join a frontier. -/
theorem addEntry_keeps (e x : Entry) (fr : List Entry) (h : x ∈ fr) :
    ∃ y ∈ addEntry e fr, y.pc = x.pc ∧ y.band = x.band ∧ y.busy = x.busy ∧ ∀ l, x.mask.getLsbD l = true → y.mask.getLsbD l = true := by
  induction fr with
  | nil => cases h
  | cons a as ih =>
    simp only [addEntry]
    split
    · exact ⟨x, h, rfl, rfl, rfl, fun _ hl => hl⟩
    · split
      · rcases List.mem_cons.mp h with rfl | h
        · exact ⟨_, List.mem_cons_self, rfl, rfl, rfl, fun l hl => by simp [hl]⟩
        · exact ⟨x, List.mem_cons_of_mem _ h, rfl, rfl, rfl, fun _ hl => hl⟩
      · rcases List.mem_cons.mp h with rfl | h
        · exact ⟨x, List.mem_cons_self, rfl, rfl, rfl, fun _ hl => hl⟩
        · obtain ⟨y, hy, hp⟩ := ih h
          exact ⟨y, List.mem_cons_of_mem _ hy, hp⟩

theorem addEntries_keeps (es : List Entry) (x : Entry) (fr : List Entry) (h : x ∈ fr) :
    ∃ y ∈ addEntries es fr, y.pc = x.pc ∧ y.band = x.band ∧ y.busy = x.busy ∧ ∀ l, x.mask.getLsbD l = true → y.mask.getLsbD l = true := by
  induction es generalizing x fr with
  | nil => exact ⟨x, h, rfl, rfl, rfl, fun _ hl => hl⟩
  | cons e es ih =>
    obtain ⟨y, hy, h1, h2, h3, h4⟩ := addEntry_keeps e x fr h
    obtain ⟨z, hz, g1, g2, g3, g4⟩ := ih y _ hy
    exact ⟨z, hz, g1.trans h1, g2.trans h2, g3.trans h3, fun l hl => g4 l (h4 l hl)⟩

/-- The first entry at a PC, of a band, that is not busy: groups of that PC and band join it. -/
theorem addEntry_same (e : Entry) (fr : List Entry) (hm : e.mask ≠ 0#32) (hb : e.busy = false) :
    ∃ y, (addEntry e fr).find? (fun x => decide (x.pc = e.pc ∧ x.band = e.band ∧ x.busy = false)) = some y ∧
      (∀ l, e.mask.getLsbD l = true → y.mask.getLsbD l = true) ∧
      ∀ x, fr.find? (fun x => decide (x.pc = e.pc ∧ x.band = e.band ∧ x.busy = false)) = some x →
        ∀ l, x.mask.getLsbD l = true → y.mask.getLsbD l = true := by
  induction fr with
  | nil => exact ⟨e, by simp [addEntry, hm, hb], fun _ h => h, by simp⟩
  | cons a as ih =>
    simp only [addEntry, if_neg hm]
    by_cases h : a.pc = e.pc ∧ a.band = e.band ∧ a.busy = false
    · have h' : a.pc = e.pc ∧ a.band = e.band ∧ a.busy = false ∧ e.busy = false := ⟨h.1, h.2.1, h.2.2, hb⟩
      rw [if_pos h']
      refine ⟨{ a with mask := a.mask ||| e.mask }, by simp [h], fun l hl => by simp [hl], ?_⟩
      intro x hx l hl
      simp [h] at hx
      subst hx; simp [hl]
    · have h' : ¬ (a.pc = e.pc ∧ a.band = e.band ∧ a.busy = false ∧ e.busy = false) := fun w => h ⟨w.1, w.2.1, w.2.2.1⟩
      rw [if_neg h']
      obtain ⟨y, hy, h1, h2⟩ := ih
      refine ⟨y, by rw [List.find?_cons, decide_eq_false h]; exact hy, h1, ?_⟩
      intro x hx
      rw [List.find?_cons, decide_eq_false h] at hx
      exact h2 x hx

/-- Groups of one PC and band end in one entry. -/
theorem addEntries_same (es fr : List Entry) (pc : Pc) (band : Nat)
    (h : ∀ e ∈ es, e.mask ≠ 0#32 ∧ e.busy = false ∧ e.pc = pc ∧ e.band = band) (hne : es ≠ []) :
    ∃ y ∈ addEntries es fr, y.pc = pc ∧ ∀ e ∈ es, ∀ l, e.mask.getLsbD l = true → y.mask.getLsbD l = true := by
  have gen : ∀ (es : List Entry) (fr : List Entry) (x : Entry),
      (∀ e ∈ es, e.mask ≠ 0#32 ∧ e.busy = false ∧ e.pc = pc ∧ e.band = band) →
      fr.find? (fun x => decide (x.pc = pc ∧ x.band = band ∧ x.busy = false)) = some x →
      ∃ y, (addEntries es fr).find? (fun x => decide (x.pc = pc ∧ x.band = band ∧ x.busy = false)) = some y ∧
        (∀ l, x.mask.getLsbD l = true → y.mask.getLsbD l = true) ∧
        ∀ e ∈ es, ∀ l, e.mask.getLsbD l = true → y.mask.getLsbD l = true := by
    intro es
    induction es with
    | nil => intro fr x _ hx; exact ⟨x, hx, fun _ h => h, by simp⟩
    | cons e es ih =>
      intro fr x h hx
      obtain ⟨hm, hb, rfl, rfl⟩ := h e List.mem_cons_self
      obtain ⟨y, hy, h1, h2⟩ := addEntry_same e fr hm hb
      obtain ⟨z, hz, g1, g2⟩ := ih (addEntry e fr) y (fun e' he' => h e' (List.mem_cons_of_mem _ he')) hy
      refine ⟨z, hz, fun l hl => g1 l (h2 x hx l hl), ?_⟩
      intro e' he' l hl
      rcases List.mem_cons.mp he' with rfl | he'
      · exact g1 l (h1 l hl)
      · exact g2 e' he' l hl
  cases es with
  | nil => exact absurd rfl hne
  | cons e es =>
    obtain ⟨hm, hb, rfl, rfl⟩ := h e List.mem_cons_self
    obtain ⟨y, hy, h1, _⟩ := addEntry_same e fr hm hb
    obtain ⟨z, hz, g1, g2⟩ := gen es (addEntry e fr) y (fun e' he' => h e' (List.mem_cons_of_mem _ he')) hy
    have hz' := List.find?_some hz
    simp only [decide_eq_true_eq] at hz'
    refine ⟨z, List.mem_of_find?_eq_some hz, hz'.1, ?_⟩
    intro e' he' l hl
    rcases List.mem_cons.mp he' with rfl | he'
    · exact g1 l (h1 l hl)
    · exact g2 e' he' l hl

/-! The crew and the gang after a switch point. -/

/-- The issuing gang once its groups have joined the frontier. -/
def joined (gs : List Entry) (g : Gang) : Gang :=
  { regroup g gs with frontier := (addEntries gs g.frontier.tail).filter fun e => e.mask != 0#32 }

theorem switched_crew {s : State} {x : Issue} (hi : issuing s = some x) (c : Crew) (hc : c.uid = x.c.uid) (gs : List Entry) :
    (switched s x c gs).crew? x.c.uid = some (c.mapGang x.k (joined gs)) := by
  show (s.setCrew (c.mapGang x.k (joined gs))).crew? x.c.uid = _
  rw [State.crew?_setCrew, if_pos (by simpa [Crew.mapGang] using hc.symm)]
  have : (c.mapGang x.k (joined gs)).uid = x.c.uid := hc
  rw [this, (issuing_spec hi).1]; rfl

theorem switched_now {s : State} {x : Issue} (hi : issuing s = some x) (c : Crew) (hc : c.uid = x.c.uid) (hk : x.k < c.gangs.length)
    (gs : List Entry) : x.now (switched s x c gs) = joined gs (c.gang x.k) := by
  unfold Issue.now State.gang
  rw [switched_crew hi c hc]
  simp [Crew.mapGang_gang, hk]

theorem joined_at (gs : List Entry) (g : Gang) (l : Nat) (pc : Pc) :
    (joined gs g).at l pc ↔ standsAt gs l pc ∨ standsAt g.frontier.tail l pc := by
  unfold joined
  exact (filter_standsAt _ _ _).trans (addEntries_standsAt _ _ _ _)

/-- Changing the issuing crew after a switch point. -/
theorem switched_mapCrew {s : State} {x : Issue} (hi : issuing s = some x) (c : Crew) (hc : c.uid = x.c.uid) (gs : List Entry)
    (f : Crew → Crew) (hf : ∀ c, (f c).uid = c.uid) :
    (switched s x c gs).mapCrew x.c.uid f = (switched s x c gs).setCrew (f (c.mapGang x.k (joined gs))) := by
  have h := switched_crew hi c hc gs
  unfold State.setCrew State.mapCrew
  rw [hf, show (c.mapGang x.k (joined gs)).uid = x.c.uid from hc]
  congr 1
  apply mapCrew_congr
  intro d hd
  have : (switched s x c gs).crew? x.c.uid = some d := hd
  rw [h] at this; cases this; rfl

/-! What settling changes. -/

/-- `t` differs from `s` in its crews, barrier endpoints and held arrivals only. -/
def OnlySettles (s t : State) : Prop := ∃ crews strings held, t = { s with crews := crews, strings := strings, heldArr := held }

theorem OnlySettles.refl (s : State) : OnlySettles s s := ⟨_, _, _, rfl⟩

theorem OnlySettles.trans {s t u : State} (h : OnlySettles s t) (k : OnlySettles t u) : OnlySettles s u := by
  obtain ⟨a1, a2, a3, rfl⟩ := h; obtain ⟨b1, b2, b3, rfl⟩ := k; exact ⟨_, _, _, rfl⟩

theorem OnlySettles.bad {s t : State} (h : OnlySettles s t) : t.bad = s.bad := by obtain ⟨_, _, _, rfl⟩ := h; rfl
theorem OnlySettles.hbm {s t : State} (h : OnlySettles s t) : t.hbm = s.hbm := by obtain ⟨_, _, _, rfl⟩ := h; rfl
theorem OnlySettles.host {s t : State} (h : OnlySettles s t) : t.host = s.host := by obtain ⟨_, _, _, rfl⟩ := h; rfl

theorem foldl_settles {α : Type} (f : State → α → State) (hf : ∀ s a, OnlySettles s (f s a)) (s : State) (xs : List α) :
    OnlySettles s (xs.foldl f s) := by
  induction xs generalizing s with
  | nil => exact .refl s
  | cons a as ih => exact (hf s a).trans (ih _)

theorem settleCrew_settles (s : State) (uid : Nat) : OnlySettles s (settleCrew s uid) := by
  unfold settleCrew
  dsimp only
  split
  · exact ⟨_, _, _, rfl⟩
  · refine OnlySettles.trans ⟨_, _, _, rfl⟩ (foldl_settles _ ?_ _ _)
    intro s a
    split
    · exact .refl _
    · split
      · exact ⟨_, _, _, rfl⟩
      · unfold State.setEndpoint; split <;> exact ⟨_, _, _, rfl⟩

theorem settleExit_settles (s : State) (uid : Nat) : OnlySettles s (settleExit s uid) := by
  unfold settleExit
  split
  · exact .refl s
  · split
    · exact foldl_settles _ (fun _ _ => ⟨_, _, _, rfl⟩) _ _
    · exact .refl s

/-- Settling touches no memory. -/
theorem settle_settles (s : State) (uid : Nat) : OnlySettles s (settle s uid) :=
  (settleExit_settles _ _).trans (settleCrew_settles _ _)

/-! Transfers. -/

theorem and_not_ofList_nil (m : LaneMask) : m &&& ~~~(LaneMask.ofList []) = m := by
  have : LaneMask.ofList [] = 0#32 := rfl
  rw [this, show ~~~0#32 = BitVec.allOnes 32 from rfl, BitVec.and_allOnes]

theorem trapMask_nil : trapMask [] = LaneMask.ofList [] := rfl

/-- A transfer all of whose targets are legal only splits the entry, after the links are written. -/
theorem transfer_legal {s : State} {x : Issue} {h : Hdr} (link : Option Opnd) (nwb : Bool) (target : Nat → Option Pc)
    (hl : ∀ l ∈ (x.execs h).lanes, ∀ pc, target l = some pc → x.legal s h pc) :
    transfer s x (x.execs h) link nwb target =
      switched s x (x.c.setGang x.k (match link with
        | some d => if nwb then x.g else writeLink x.g (x.execs h) d x.e.pc
        | none => x.g)) (splits s x h target) := by
  have ht : badTargets s x (x.execs h) target = [] := by
    unfold badTargets
    rw [List.filterMap_eq_nil_iff]
    intro l hm
    cases e : target l with
    | none => rfl
    | some pc => simp [show legalTarget s _ _ _ pc = true from hl l hm pc e]
  simp only [transfer, ht, trapMask_nil, and_not_ofList_nil, finishSwitch_nil, splits, Issue.others]
  all_goals (cases link <;> rfl)

/-- The issuing gang put back in its crew. -/
theorem setGang_self {s : State} {x : Issue} (h : issuing s = some x) : x.c.setGang x.k x.g = x.c := by
  obtain ⟨_, hg, hk, _⟩ := issuing_spec h
  simp only [Crew.setGang, Crew.mapGang, hg, Crew.gang]
  congr 1
  have : ∀ (xs : List Gang) (n : Nat) (d : Gang), modifyNth xs n (fun _ => xs.getD n d) = xs := by
    intro xs
    induction xs with
    | nil => intro n d; cases n <;> rfl
    | cons a as ih =>
      intro n d
      cases n with
      | zero => rfl
      | succ n => simpa [modifyNth] using ih n d
  exact this _ _ _

/-- Changing one gang by a function puts the changed gang in its place. -/
theorem mapGang_setGang (c : Crew) (k : Nat) (f : Gang → Gang) : c.mapGang k f = c.setGang k (f (c.gang k)) := by
  simp only [Crew.setGang, Crew.mapGang, Crew.gang]
  congr 1
  exact modifyNth_congr _ _ _ _ Gang.blank fun _ => rfl

theorem one_ne_zero {l : Nat} (h : l < 32) : LaneMask.one l ≠ 0#32 := by
  apply ne_zero_of_lane (l := l)
  simp [LaneMask.one, h]

theorem getLsbD_one (l j : Nat) : (LaneMask.one l).getLsbD j = (decide (j < 32) && decide (j = l)) := by
  have := LaneMask.getLsbD_ofList [l] j
  simpa [LaneMask.ofList] using this

/-- The lanes of one writer each take a link, of two words; no other register changes. -/
theorem writeLink_reg (g : Gang) (m : LaneMask) (q : Fin 1536) (pc : Pc) (j r : Nat) (hj : j < g.lanes.length) :
    ((writeLink g m (.v q) pc).lane j).reg r =
      if m.getLsbD j = true ∧ q.val ≤ r ∧ r < q.val + 2 then (wordsOf 2 (pcNext pc).toNat).getD (r - q.val) 0#32
      else (g.lane j).reg r := by
  have gen : ∀ (ls : List Nat) (g : Gang) (low : Nat), ls.Nodup → j < g.lanes.length →
      ((ls.foldl (fun g l => writeOpnd g low l (.v q) (wordsOf 2 (pcNext pc).toNat)) g).lane j).reg r =
        if j ∈ ls ∧ q.val ≤ r ∧ r < q.val + 2 then (wordsOf 2 (pcNext pc).toNat).getD (r - q.val) 0#32
        else (g.lane j).reg r := by
    intro ls
    induction ls with
    | nil => simp
    | cons a as ih =>
      intro g low hd hj
      obtain ⟨ha, hd'⟩ := List.nodup_cons.mp hd
      simp only [List.foldl_cons]
      rw [ih _ _ hd' (by simpa [writeOpnd] using hj)]
      simp only [writeOpnd, Gang.mapLane_lane, List.mem_cons]
      by_cases e : j = a
      · subst e
        simp only [ha, false_and, if_false, hj, and_self, if_true, writeRegs_reg, wordsOf_length, true_or, true_and]
      · simp [e]
  simp only [writeLink]
  rw [gen _ _ _ (LaneMask.nodup_lanes _) hj]
  simp only [LaneMask.mem_lanes]

end Sys2Proof.Machine
end

