-- ==== Sys2Proof/Laws/Dispatch.lean ====
section
/-!
SUPPORT. The arms of `exec`, one lemma each.
-/

namespace Sys2Proof.Machine

theorem exec_add (h : Hdr) (t : ElTy) (d a : Opnd) (b : SrcB) (s : State) : exec (.add h t d a b) s = execAdd h t d a b s := rfl
theorem exec_sub (h : Hdr) (t : ElTy) (d a : Opnd) (b : SrcB) (s : State) : exec (.sub h t d a b) s = execSub h t d a b s := rfl
theorem exec_addc (h : Hdr) (t : ElTy) (d a : Opnd) (b : SrcB) (cin cout : PredOpt) (s : State) : exec (.addc h t d a b cin cout) s = execAddc h t d a b cin cout s := rfl
theorem exec_subb (h : Hdr) (t : ElTy) (d a : Opnd) (b : SrcB) (cin cout : PredOpt) (s : State) : exec (.subb h t d a b cin cout) s = execSubb h t d a b cin cout s := rfl
theorem exec_mul (h : Hdr) (t : ElTy) (d a : Opnd) (b : SrcB) (s : State) : exec (.mul h t d a b) s = execMul h t d a b s := rfl
theorem exec_mulh (h : Hdr) (t : ElTy) (d a : Opnd) (b : SrcB) (s : State) : exec (.mulh h t d a b) s = execMulh h t d a b s := rfl
theorem exec_mad (h : Hdr) (t : ElTy) (d a b c : Opnd) (s : State) : exec (.mad h t d a b c) s = execMad h t d a b c s := rfl
theorem exec_madh (h : Hdr) (t : ElTy) (d a b c : Opnd) (s : State) : exec (.madh h t d a b c) s = execMadh h t d a b c s := rfl
theorem exec_min (h : Hdr) (t : ElTy) (d a : Opnd) (b : SrcB) (s : State) : exec (.min h t d a b) s = execMin h t d a b s := rfl
theorem exec_max (h : Hdr) (t : ElTy) (d a : Opnd) (b : SrcB) (s : State) : exec (.max h t d a b) s = execMax h t d a b s := rfl
theorem exec_abs (h : Hdr) (t : ElTy) (d a : Opnd) (s : State) : exec (.abs h t d a) s = execAbs h t d a s := rfl
theorem exec_neg (h : Hdr) (t : ElTy) (d a : Opnd) (s : State) : exec (.neg h t d a) s = execNeg h t d a s := rfl
theorem exec_adds (h : Hdr) (t : ElTy) (d a : Opnd) (b : SrcB) (s : State) : exec (.adds h t d a b) s = execAdds h t d a b s := rfl
theorem exec_subs (h : Hdr) (t : ElTy) (d a : Opnd) (b : SrcB) (s : State) : exec (.subs h t d a b) s = execSubs h t d a b s := rfl
theorem exec_sad (h : Hdr) (t : ElTy) (d a b c : Opnd) (s : State) : exec (.sad h t d a b c) s = execSad h t d a b c s := rfl
theorem exec_cmp (h : Hdr) (t : ElTy) (d a : Opnd) (b : SrcB) (cc : CmpCC) (op : Comb) (pd : PredOpt) (s : State) : exec (.cmp h t d a b cc op pd) s = execCmp h t d a b cc op pd s := rfl
theorem exec_and (h : Hdr) (t : ElTy) (d a : Opnd) (b : SrcB) (s : State) : exec (.and h t d a b) s = execAnd h t d a b s := rfl
theorem exec_or (h : Hdr) (t : ElTy) (d a : Opnd) (b : SrcB) (s : State) : exec (.or h t d a b) s = execOr h t d a b s := rfl
theorem exec_xor (h : Hdr) (t : ElTy) (d a : Opnd) (b : SrcB) (s : State) : exec (.xor h t d a b) s = execXor h t d a b s := rfl
theorem exec_andn (h : Hdr) (t : ElTy) (d a : Opnd) (b : SrcB) (s : State) : exec (.andn h t d a b) s = execAndn h t d a b s := rfl
theorem exec_not (h : Hdr) (t : ElTy) (d a : Opnd) (s : State) : exec (.not h t d a) s = execNot h t d a s := rfl
theorem exec_lop3 (h : Hdr) (t : ElTy) (d a b c : Opnd) (table : BitVec 8) (s : State) : exec (.lop3 h t d a b c table) s = execLop3 h t d a b c table s := rfl
theorem exec_shl (h : Hdr) (t : ElTy) (d a : Opnd) (b : SrcB) (s : State) : exec (.shl h t d a b) s = execShl h t d a b s := rfl
theorem exec_shr (h : Hdr) (t : ElTy) (d a : Opnd) (b : SrcB) (s : State) : exec (.shr h t d a b) s = execShr h t d a b s := rfl
theorem exec_sar (h : Hdr) (t : ElTy) (d a : Opnd) (b : SrcB) (s : State) : exec (.sar h t d a b) s = execSar h t d a b s := rfl
theorem exec_rot (h : Hdr) (t : ElTy) (d a : Opnd) (b : SrcB) (s : State) : exec (.rot h t d a b) s = execRot h t d a b s := rfl
theorem exec_bfx (h : Hdr) (t : ElTy) (d a : Opnd) (b : SrcB) (s : State) : exec (.bfx h t d a b) s = execBfx h t d a b s := rfl
theorem exec_bfi (h : Hdr) (t : ElTy) (d a b c : Opnd) (s : State) : exec (.bfi h t d a b c) s = execBfi h t d a b c s := rfl
theorem exec_popc (h : Hdr) (t : ElTy) (d a : Opnd) (s : State) : exec (.popc h t d a) s = execPopc h t d a s := rfl
theorem exec_clz (h : Hdr) (t : ElTy) (d a : Opnd) (s : State) : exec (.clz h t d a) s = execClz h t d a s := rfl
theorem exec_ctz (h : Hdr) (t : ElTy) (d a : Opnd) (s : State) : exec (.ctz h t d a) s = execCtz h t d a s := rfl
theorem exec_brev (h : Hdr) (t : ElTy) (d a : Opnd) (s : State) : exec (.brev h t d a) s = execBrev h t d a s := rfl
theorem exec_sel (h : Hdr) (t : ElTy) (d a b c : Opnd) (s : State) : exec (.sel h t d a b c) s = execSel h t d a b c s := rfl
theorem exec_mov (h : Hdr) (t : ElTy) (d a : Opnd) (s : State) : exec (.mov h t d a) s = execMov h t d a s := rfl
theorem exec_movi (h : Hdr) (t : ElTy) (d : Opnd) (imm : BitVec 32) (s : State) : exec (.movi h t d imm) s = execMovi h t d imm s := rfl
theorem exec_lea (h : Hdr) (t : ElTy) (d a : Opnd) (b : SrcB) (natural : Bool) (scale : Fin 5) (s : State) : exec (.lea h t d a b natural scale) s = execLea h t d a b natural scale s := rfl
theorem exec_dp4 (h : Hdr) (t : ElTy) (d a b c : Opnd) (xs : Bool) (s : State) : exec (.dp4 h t d a b c xs) s = execDp4 h t d a b c xs s := rfl
theorem exec_fadd (h : Hdr) (r : Rnd) (d a : Opnd) (b : SrcB) (m : Mods) (s : State) : exec (.fadd h r d a b m) s = execFadd h r d a b m s := rfl
theorem exec_fsub (h : Hdr) (r : Rnd) (d a : Opnd) (b : SrcB) (m : Mods) (s : State) : exec (.fsub h r d a b m) s = execFsub h r d a b m s := rfl
theorem exec_fmul (h : Hdr) (r : Rnd) (d a : Opnd) (b : SrcB) (m : Mods) (s : State) : exec (.fmul h r d a b m) s = execFmul h r d a b m s := rfl
theorem exec_fma (h : Hdr) (r : Rnd) (d a b c : Opnd) (m : Mods) (s : State) : exec (.fma h r d a b c m) s = execFma h r d a b c m s := rfl
theorem exec_fmin (h : Hdr) (d a : Opnd) (b : SrcB) (m : Mods) (nanp : Bool) (s : State) : exec (.fmin h d a b m nanp) s = execFmin h d a b m nanp s := rfl
theorem exec_fmax (h : Hdr) (d a : Opnd) (b : SrcB) (m : Mods) (nanp : Bool) (s : State) : exec (.fmax h d a b m nanp) s = execFmax h d a b m nanp s := rfl
theorem exec_fcmp (h : Hdr) (t : FlTy) (d a : Opnd) (b : SrcB) (cc : FcmpCC) (op : Comb) (pd : PredOpt) (s : State) : exec (.fcmp h t d a b cc op pd) s = execFcmp h t d a b cc op pd s := rfl
theorem exec_frnd (h : Hdr) (t : FlTy) (r : Rnd) (d a : Opnd) (exact : Bool) (s : State) : exec (.frnd h t r d a exact) s = execFrnd h t r d a exact s := rfl
theorem exec_fclass (h : Hdr) (t : FlTy) (d a : Opnd) (mask : BitVec 10) (pd : PredOpt) (s : State) : exec (.fclass h t d a mask pd) s = execFclass h t d a mask pd s := rfl
theorem exec_rcp (h : Hdr) (r : Rnd) (d a : Opnd) (s : State) : exec (.rcp h r d a) s = execRcp h r d a s := rfl
theorem exec_rsqrt (h : Hdr) (r : Rnd) (d a : Opnd) (s : State) : exec (.rsqrt h r d a) s = execRsqrt h r d a s := rfl
theorem exec_sqrt (h : Hdr) (r : Rnd) (d a : Opnd) (s : State) : exec (.sqrt h r d a) s = execSqrt h r d a s := rfl
theorem exec_exp2 (h : Hdr) (r : Rnd) (d a : Opnd) (s : State) : exec (.exp2 h r d a) s = execExp2 h r d a s := rfl
theorem exec_log2 (h : Hdr) (r : Rnd) (d a : Opnd) (s : State) : exec (.log2 h r d a) s = execLog2 h r d a s := rfl
theorem exec_sinpi (h : Hdr) (r : Rnd) (d a : Opnd) (s : State) : exec (.sinpi h r d a) s = execSinpi h r d a s := rfl
theorem exec_cospi (h : Hdr) (r : Rnd) (d a : Opnd) (s : State) : exec (.cospi h r d a) s = execCospi h r d a s := rfl
theorem exec_fscale (h : Hdr) (r : Rnd) (d a : Opnd) (b : SrcB) (s : State) : exec (.fscale h r d a b) s = execFscale h r d a b s := rfl
theorem exec_fexp (h : Hdr) (d a : Opnd) (s : State) : exec (.fexp h d a) s = execFexp h d a s := rfl
theorem exec_hadd2 (h : Hdr) (t : FlTy) (r : Rnd) (d a : Opnd) (b : SrcB) (m : Mods) (s : State) : exec (.hadd2 h t r d a b m) s = execHadd2 h t r d a b m s := rfl
theorem exec_hmul2 (h : Hdr) (t : FlTy) (r : Rnd) (d a : Opnd) (b : SrcB) (m : Mods) (s : State) : exec (.hmul2 h t r d a b m) s = execHmul2 h t r d a b m s := rfl
theorem exec_hfma2 (h : Hdr) (t : FlTy) (r : Rnd) (d a b c : Opnd) (m : Mods) (s : State) : exec (.hfma2 h t r d a b c m) s = execHfma2 h t r d a b c m s := rfl
theorem exec_hmin2 (h : Hdr) (t : FlTy) (d a : Opnd) (b : SrcB) (m : Mods) (nanp : Bool) (s : State) : exec (.hmin2 h t d a b m nanp) s = execHmin2 h t d a b m nanp s := rfl
theorem exec_hmax2 (h : Hdr) (t : FlTy) (d a : Opnd) (b : SrcB) (m : Mods) (nanp : Bool) (s : State) : exec (.hmax2 h t d a b m nanp) s = execHmax2 h t d a b m nanp s := rfl
theorem exec_fdot2 (h : Hdr) (t : FlTy) (r : Rnd) (d a b c : Opnd) (m : Mods) (s : State) : exec (.fdot2 h t r d a b c m) s = execFdot2 h t r d a b c m s := rfl
theorem exec_fdot4 (h : Hdr) (r : Rnd) (d a b c : Opnd) (m : Mods) (fa fb : Bool) (s : State) : exec (.fdot4 h r d a b c m fa fb) s = execFdot4 h r d a b c m fa fb s := rfl
theorem exec_cvt (h : Hdr) (dst src : CvtTy) (elem : Fin 8) (sat dflt : Bool) (r : Rnd) (d a : Opnd) (s : State) : exec (.cvt h dst src elem sat dflt r d a) s = execCvt h dst src elem sat dflt r d a s := rfl
theorem exec_pack (h : Hdr) (t : PackTy) (r : Rnd) (d a b : Opnd) (s : State) : exec (.pack h t r d a b) s = execPack h t r d a b s := rfl
theorem exec_unpack (h : Hdr) (t : PackTy) (part : Fin 4) (d a : Opnd) (s : State) : exec (.unpack h t part d a) s = execUnpack h t part d a s := rfl
theorem exec_plsplit (h : Hdr) (n : Fin 8) (p : Fin 8) (d a : Opnd) (s : State) : exec (.plsplit h n p d a) s = execPlsplit h n p d a s := rfl
theorem exec_plmerge (h : Hdr) (n : Fin 8) (k : Fin 8) (d a : Opnd) (s : State) : exec (.plmerge h n k d a) s = execPlmerge h n k d a s := rfl
theorem exec_quant (h : Hdr) (nat : Bool) (r : Rnd) (n : Fin 8) (elem : Fin 4) (d a b c : Opnd) (s : State) : exec (.quant h nat r n elem d a b c) s = execQuant h nat r n elem d a b c s := rfl
theorem exec_dequant (h : Hdr) (nat : Bool) (r : Rnd) (elem : Fin 4) (d a b : Opnd) (s : State) : exec (.dequant h nat r elem d a b) s = execDequant h nat r elem d a b s := rfl
theorem exec_prmt (h : Hdr) (d a b : Opnd) (ctl : PrmtCtl) (s : State) : exec (.prmt h d a b ctl) s = execPrmt h d a b ctl s := rfl
theorem exec_bra (h : Hdr) (t : Target) (s : State) : exec (.bra h t) s = execBra h t s := rfl
theorem exec_brx (h : Hdr) (a : Opnd) (table : BitVec 16) (count : BitVec 8) (s : State) : exec (.brx h a table count) s = execBrx h a table count s := rfl
theorem exec_call (h : Hdr) (d : Opnd) (t : Target) (s : State) : exec (.call h d t) s = execCall h d t s := rfl
theorem exec_callImp (h : Hdr) (d : Opnd) (index : BitVec 32) (s : State) : exec (.callImp h d index) s = execCallImp h d index s := rfl
theorem exec_ret (h : Hdr) (a : Opnd) (s : State) : exec (.ret h a) s = execRet h a s := rfl
theorem exec_exit (h : Hdr) (s : State) : exec (.exit h) s = execExit h s := rfl
theorem exec_exitTo (h : Hdr) (a : Opnd) (s : State) : exec (.exitTo h a) s = execExitTo h a s := rfl
theorem exec_region (h : Hdr) (s : State) : exec (.region h) s = execRegion h s := rfl
theorem exec_yield (h : Hdr) (s : State) : exec (.yield h) s = execYield h s := rfl
theorem exec_nop (pred : BitVec 4) (pneg : Bool) (s : State) : exec (.nop pred pneg) s = execNop pred pneg s := rfl
theorem exec_trap (h : Hdr) (n : BitVec 16) (s : State) : exec (.trap h n) s = execTrap h n s := rfl
theorem exec_syscall (h : Hdr) (n : BitVec 16) (s : State) : exec (.syscall h n) s = execSyscall h n s := rfl
theorem exec_hcall (h : Hdr) (n : BitVec 16) (s : State) : exec (.hcall h n) s = execHcall h n s := rfl
theorem exec_brk (h : Hdr) (n : BitVec 16) (s : State) : exec (.brk h n) s = execBrk h n s := rfl
theorem exec_shfl (h : Hdr) (m : ShflMode) (d a : Opnd) (k : ShflK) (grp : Fin 6) (pd : PredOpt) (s : State) : exec (.shfl h m d a k grp pd) s = execShfl h m d a k grp pd s := rfl
theorem exec_vote (h : Hdr) (m : VoteMode) (d : Opnd) (ps : PredOpt) (psn : Bool) (pd : PredOpt) (s : State) : exec (.vote h m d ps psn pd) s = execVote h m d ps psn pd s := rfl
theorem exec_redux (h : Hdr) (op : RedOp) (d a : Opnd) (s : State) : exec (.redux h op d a) s = execRedux h op d a s := rfl
theorem exec_scan (h : Hdr) (op : RedOp) (excl : Bool) (d a : Opnd) (s : State) : exec (.scan h op excl d a) s = execScan h op excl d a s := rfl
theorem exec_matchq (h : Hdr) (wide : Bool) (d a : Opnd) (pd : PredOpt) (s : State) : exec (.matchq h wide d a pd) s = execMatchq h wide d a pd s := rfl
theorem exec_barArrive (h : Hdr) (c : Clause) (l : BarLevel) (num : BitVec 6) (pr : PredOpt) (s : State) : exec (.barArrive h c l num pr) s = execBarArrive h c l num pr s := rfl
theorem exec_barWait (h : Hdr) (c : Clause) (l : BarLevel) (num : BitVec 6) (pr : PredOpt) (s : State) : exec (.barWait h c l num pr) s = execBarWait h c l num pr s := rfl
theorem exec_barSync (h : Hdr) (c : Clause) (l : BarLevel) (num : BitVec 6) (s : State) : exec (.barSync h c l num) s = execBarSync h c l num s := rfl
theorem exec_wait (h : Hdr) (all : Bool) (n : Fin 4) (d a : Opnd) (c : Clause) (wmask : BitVec 4) (pt : PredOpt) (s : State) : exec (.wait h all n d a c wmask pt) s = execWait h all n d a c wmask pt s := rfl
theorem exec_waits (h : Hdr) (stream : Fin 8) (n : BitVec 6) (s : State) : exec (.waits h stream n) s = execWaits h stream n s := rfl
theorem exec_chkb (h : Hdr) (signed : Bool) (s0 : Size) (a b c : Opnd) (s : State) : exec (.chkb h signed s0 a b c) s = execChkb h signed s0 a b c s := rfl
theorem exec_chkt (h : Hdr) (a : Opnd) (b : SrcB) (s : State) : exec (.chkt h a b) s = execChkt h a b s := rfl
theorem exec_chkl (h : Hdr) (a b : Opnd) (s : State) : exec (.chkl h a b) s = execChkl h a b s := rfl
theorem exec_ldP (h : Hdr) (p : Policy) (s0 : Size) (d : Opnd) (m : MemArg) (s : State) : exec (.ldP h p s0 d m) s = execLdP h p s0 d m s := rfl
theorem exec_stP (h : Hdr) (p : Policy) (s0 : Size) (b : Opnd) (m : MemArg) (s : State) : exec (.stP h p s0 b m) s = execStP h p s0 b m s := rfl
theorem exec_ldS (h : Hdr) (s0 : Size) (d : Opnd) (m : MemArg) (s : State) : exec (.ldS h s0 d m) s = execLdS h s0 d m s := rfl
theorem exec_stS (h : Hdr) (s0 : Size) (b : Opnd) (m : MemArg) (s : State) : exec (.stS h s0 b m) s = execStS h s0 b m s := rfl
theorem exec_atomS (h : Hdr) (op : AtomOp) (w : AWidth) (d b : Opnd) (m : MemArg) (s : State) : exec (.atomS h op w d b m) s = execAtomS h op w d b m s := rfl
theorem exec_casS (h : Hdr) (w : AWidth) (d b : Opnd) (pd : PredOpt) (m : MemArg) (s : State) : exec (.casS h w d b pd m) s = execCasS h w d b pd m s := rfl
theorem exec_ldK (h : Hdr) (s0 : Size) (d : Opnd) (m : MemArg) (s : State) : exec (.ldK h s0 d m) s = execLdK h s0 d m s := rfl
theorem exec_copy (h : Hdr) (src : CopySrc) (win : Option (Fin 64)) (chan : Fin 8) (a b : Opnd) (e : EngArg) (s : State) : exec (.copy h src win chan a b e) s = execCopy h src win chan a b e s := rfl
theorem exec_cpwp (h : Hdr) (chan : Fin 8) (d : Opnd) (s : State) : exec (.cpwp h chan d) s = execCpwp h chan d s := rfl
theorem exec_cpcancel (h : Hdr) (chan : Fin 8) (e : EngArg) (s : State) : exec (.cpcancel h chan e) s = execCpcancel h chan e s := rfl
theorem exec_ldN (h : Hdr) (s0 : Size) (d : Opnd) (m : MemArg) (s : State) : exec (.ldN h s0 d m) s = execLdN h s0 d m s := rfl
theorem exec_stN (h : Hdr) (s0 : Size) (b : Opnd) (m : MemArg) (s : State) : exec (.stN h s0 b m) s = execStN h s0 b m s := rfl
theorem exec_ldV (h : Hdr) (shd : Bool) (s0 : Size) (d : Opnd) (m : MemArg) (s : State) : exec (.ldV h shd s0 d m) s = execLdV h shd s0 d m s := rfl
theorem exec_stV (h : Hdr) (shd : Bool) (s0 : Size) (b : Opnd) (m : MemArg) (s : State) : exec (.stV h shd s0 b m) s = execStV h shd s0 b m s := rfl
theorem exec_atomV (h : Hdr) (op : AtomOp) (w : AWidth) (d b : Opnd) (m : MemArg) (s : State) : exec (.atomV h op w d b m) s = execAtomV h op w d b m s := rfl
theorem exec_casV (h : Hdr) (w : AWidth) (d b : Opnd) (pd : PredOpt) (m : MemArg) (s : State) : exec (.casV h w d b pd m) s = execCasV h w d b pd m s := rfl
theorem exec_taskPost (h : Hdr) (d a : Opnd) (e : EngArg) (s : State) : exec (.taskPost h d a e) s = execTaskPost h d a e s := rfl
theorem exec_taskDec (h : Hdr) (a : Opnd) (e : EngArg) (s : State) : exec (.taskDec h a e) s = execTaskDec h a e s := rfl
theorem exec_taskStatT (h : Hdr) (d a : Opnd) (s : State) : exec (.taskStatT h d a) s = execTaskStatT h d a s := rfl
theorem exec_taskStatW (h : Hdr) (d : Opnd) (win : Fin 64) (s : State) : exec (.taskStatW h d win) s = execTaskStatW h d win s := rfl
theorem exec_taskStatQ (h : Hdr) (d : Opnd) (q : Fin 7) (s : State) : exec (.taskStatQ h d q) s = execTaskStatQ h d q s := rfl
theorem exec_emit (h : Hdr) (a : Opnd) (pd : PredOpt) (e : EngArg) (s : State) : exec (.emit h a pd e) s = execEmit h a pd e s := rfl
theorem exec_pubw (h : Hdr) (win : Fin 64) (e : EngArg) (s : State) : exec (.pubw h win e) s = execPubw h win e s := rfl
theorem exec_ldG (h : Hdr) (p : Policy) (shd : Bool) (s0 : Size) (d : Opnd) (m : MemArg) (s : State) : exec (.ldG h p shd s0 d m) s = execLdG h p shd s0 d m s := rfl
theorem exec_stG (h : Hdr) (p : Policy) (shd : Bool) (s0 : Size) (b : Opnd) (m : MemArg) (s : State) : exec (.stG h p shd s0 b m) s = execStG h p shd s0 b m s := rfl
theorem exec_atomG (h : Hdr) (op : AtomOp) (w : AWidth) (d b : Opnd) (m : MemArg) (s : State) : exec (.atomG h op w d b m) s = execAtomG h op w d b m s := rfl
theorem exec_casG (h : Hdr) (w : AWidth) (d b : Opnd) (pd : PredOpt) (m : MemArg) (s : State) : exec (.casG h w d b pd m) s = execCasG h w d b pd m s := rfl
theorem exec_redG (h : Hdr) (op : AtomOp) (w : AWidth) (b : Opnd) (m : MemArg) (s : State) : exec (.redG h op w b m) s = execRedG h op w b m s := rfl
theorem exec_hintL2 (h : Hdr) (b : Opnd) (m : MemArg) (s : State) : exec (.hintL2 h b m) s = execHintL2 h b m s := rfl
theorem exec_hintL1 (h : Hdr) (b : Opnd) (m : MemArg) (s : State) : exec (.hintL1 h b m) s = execHintL1 h b m s := rfl
theorem exec_hintLru (h : Hdr) (b : Opnd) (m : MemArg) (s : State) : exec (.hintLru h b m) s = execHintLru h b m s := rfl
theorem exec_cwbL2 (h : Hdr) (b : Opnd) (m : MemArg) (s : State) : exec (.cwbL2 h b m) s = execCwbL2 h b m s := rfl
theorem exec_cwbMem (h : Hdr) (b : Opnd) (m : MemArg) (s : State) : exec (.cwbMem h b m) s = execCwbMem h b m s := rfl
theorem exec_cinvL1 (h : Hdr) (b : Opnd) (m : MemArg) (s : State) : exec (.cinvL1 h b m) s = execCinvL1 h b m s := rfl
theorem exec_cinvL2 (h : Hdr) (b : Opnd) (m : MemArg) (s : State) : exec (.cinvL2 h b m) s = execCinvL2 h b m s := rfl
theorem exec_iinv (h : Hdr) (b : Opnd) (m : MemArg) (s : State) : exec (.iinv h b m) s = execIinv h b m s := rfl
theorem exec_fbar (h : Hdr) (c : Clause) (s : State) : exec (.fbar h c) s = execFbar h c s := rfl
theorem exec_ldH (h : Hdr) (s0 : Size) (d : Opnd) (m : MemArg) (s : State) : exec (.ldH h s0 d m) s = execLdH h s0 d m s := rfl
theorem exec_stH (h : Hdr) (s0 : Size) (b : Opnd) (m : MemArg) (s : State) : exec (.stH h s0 b m) s = execStH h s0 b m s := rfl
theorem exec_atomH (h : Hdr) (op : HostOp) (d b : Opnd) (pd : PredOpt) (m : MemArg) (s : State) : exec (.atomH h op d b pd m) s = execAtomH h op d b pd m s := rfl
theorem exec_ldF (h : Hdr) (s0 : Size) (d : Opnd) (m : MemArg) (s : State) : exec (.ldF h s0 d m) s = execLdF h s0 d m s := rfl
theorem exec_stF (h : Hdr) (s0 : Size) (b : Opnd) (m : MemArg) (s : State) : exec (.stF h s0 b m) s = execStF h s0 b m s := rfl
theorem exec_atomF (h : Hdr) (op : FabOp) (w : AWidth) (d b : Opnd) (pd : PredOpt) (m : MemArg) (s : State) : exec (.atomF h op w d b pd m) s = execAtomF h op w d b pd m s := rfl
theorem exec_copyFGet (h : Hdr) (chan : Fin 8) (a b : Opnd) (e : EngArg) (s : State) : exec (.copyFGet h chan a b e) s = execCopyFGet h chan a b e s := rfl
theorem exec_copyFGetw (h : Hdr) (win : Fin 64) (chan : Fin 8) (a b : Opnd) (e : EngArg) (s : State) : exec (.copyFGetw h win chan a b e) s = execCopyFGetw h win chan a b e s := rfl
theorem exec_copyFPut (h : Hdr) (chan : Fin 8) (a b : Opnd) (e : EngArg) (s : State) : exec (.copyFPut h chan a b e) s = execCopyFPut h chan a b e s := rfl
theorem exec_rdsr (h : Hdr) (d : Opnd) (r : SReg) (s : State) : exec (.rdsr h d r) s = execRdsr h d r s := rfl
theorem exec_wrsr (h : Hdr) (r : SReg) (a : Opnd) (s : State) : exec (.wrsr h r a) s = execWrsr h r a s := rfl
theorem exec_sret (h : Hdr) (s : State) : exec (.sret h) s = execSret h s := rfl
theorem exec_hret (h : Hdr) (s : State) : exec (.hret h) s = execHret h s := rfl
theorem exec_tlbinvVa (h : Hdr) (a b : Opnd) (s : State) : exec (.tlbinvVa h a b) s = execTlbinvVa h a b s := rfl
theorem exec_tlbinvCtx (h : Hdr) (s : State) : exec (.tlbinvCtx h) s = execTlbinvCtx h s := rfl
theorem exec_tlbinvGpa (h : Hdr) (a b : Opnd) (s : State) : exec (.tlbinvGpa h a b) s = execTlbinvGpa h a b s := rfl
theorem exec_tlbinvVf (h : Hdr) (s : State) : exec (.tlbinvVf h) s = execTlbinvVf h s := rfl
theorem exec_ctxsave (h : Hdr) (force : Bool) (d a c : Opnd) (s : State) : exec (.ctxsave h force d a c) s = execCtxsave h force d a c s := rfl
theorem exec_ctxload (h : Hdr) (d a c : Opnd) (s : State) : exec (.ctxload h d a c) s = execCtxload h d a c s := rfl
theorem exec_launchRun (h : Hdr) (d a b : Opnd) (s : State) : exec (.launchRun h d a b) s = execLaunchRun h d a b s := rfl
theorem exec_launchAdm (h : Hdr) (d a : Opnd) (s : State) : exec (.launchAdm h d a) s = execLaunchAdm h d a s := rfl
theorem exec_frmset (h : Hdr) (d a b : Opnd) (s : State) : exec (.frmset h d a b) s = execFrmset h d a b s := rfl
theorem exec_l2partSet (h : Hdr) (d a b : Opnd) (s : State) : exec (.l2partSet h d a b) s = execL2partSet h d a b s := rfl
theorem exec_l2partMask (h : Hdr) (d a : Opnd) (s : State) : exec (.l2partMask h d a) s = execL2partMask h d a s := rfl
theorem exec_l2partOcc (h : Hdr) (d a b : Opnd) (s : State) : exec (.l2partOcc h d a b) s = execL2partOcc h d a b s := rfl
theorem exec_l2partHit (h : Hdr) (d a b : Opnd) (s : State) : exec (.l2partHit h d a b) s = execL2partHit h d a b s := rfl
theorem exec_l2partMiss (h : Hdr) (d a b : Opnd) (s : State) : exec (.l2partMiss h d a b) s = execL2partMiss h d a b s := rfl
theorem exec_l2partClr (h : Hdr) (m : L2Mode) (d a b : Opnd) (s : State) : exec (.l2partClr h m d a b) s = execL2partClr h m d a b s := rfl
theorem exec_keyopLoad (h : Hdr) (d a b : Opnd) (s : State) : exec (.keyopLoad h d a b) s = execKeyopLoad h d a b s := rfl
theorem exec_keyopErase (h : Hdr) (d a b : Opnd) (s : State) : exec (.keyopErase h d a b) s = execKeyopErase h d a b s := rfl
theorem exec_keyopAttest (h : Hdr) (d a b : Opnd) (s : State) : exec (.keyopAttest h d a b) s = execKeyopAttest h d a b s := rfl
theorem exec_halt (h : Hdr) (s0 : BitVec 8) (s : State) : exec (.halt h s0) s = execHalt h s0 s := rfl
theorem exec_lanepc (h : Hdr) (a b : Opnd) (s : State) : exec (.lanepc h a b) s = execLanepc h a b s := rfl
theorem exec_lanestRel (h : Hdr) (a : Opnd) (s : State) : exec (.lanestRel h a) s = execLanestRel h a s := rfl
theorem exec_lanestHold (h : Hdr) (a : Opnd) (s : State) : exec (.lanestHold h a) s = execLanestHold h a s := rfl
theorem exec_lanestExit (h : Hdr) (a : Opnd) (s : State) : exec (.lanestExit h a) s = execLanestExit h a s := rfl
theorem exec_lineFetch (core gang : Nat) (s : State) : exec (.lineFetch core gang) s = execLineFetch core gang s := rfl
theorem exec_memoryOpComplete (crew op : Nat) (s : State) : exec (.memoryOpComplete crew op) s = execMemoryOpComplete crew op s := rfl
theorem exec_barrierPhaseComplete (bar : BarId) (s : State) : exec (.barrierPhaseComplete bar) s = execBarrierPhaseComplete bar s := rfl
theorem exec_waitConditionMet (crew gang lane : Nat) (s : State) : exec (.waitConditionMet crew gang lane) s = execWaitConditionMet crew gang lane s := rfl
theorem exec_waitTimeout (crew gang lane : Nat) (s : State) : exec (.waitTimeout crew gang lane) s = execWaitTimeout crew gang lane s := rfl
theorem exec_copyBegin (crew chan : Nat) (s : State) : exec (.copyBegin crew chan) s = execCopyBegin crew chan s := rfl
theorem exec_copyDelivery (crew chan bytes : Nat) (s : State) : exec (.copyDelivery crew chan bytes) s = execCopyDelivery crew chan bytes s := rfl
theorem exec_copyComplete (crew chan : Nat) (s : State) : exec (.copyComplete crew chan) s = execCopyComplete crew chan s := rfl
theorem exec_taskIssue (camp engine : Nat) (s : State) : exec (.taskIssue camp engine) s = execTaskIssue camp engine s := rfl
theorem exec_mmaF (crew entry : Nat) (s : State) : exec (.mmaF crew entry) s = execMmaF crew entry s := rfl
theorem exec_mmaQ (crew entry : Nat) (s : State) : exec (.mmaQ crew entry) s = execMmaQ crew entry s := rfl
theorem exec_hadam (crew entry : Nat) (s : State) : exec (.hadam crew entry) s = execHadam crew entry s := rfl
theorem exec_tileQuant (crew entry : Nat) (s : State) : exec (.tileQuant crew entry) s = execTileQuant crew entry s := rfl
theorem exec_xpose (crew entry : Nat) (s : State) : exec (.xpose crew entry) s = execXpose crew entry s := rfl
theorem exec_acc (crew entry : Nat) (s : State) : exec (.acc crew entry) s = execAcc crew entry s := rfl
theorem exec_fill (crew entry : Nat) (s : State) : exec (.fill crew entry) s = execFill crew entry s := rfl
theorem exec_stage (crew entry : Nat) (s : State) : exec (.stage crew entry) s = execStage crew entry s := rfl
theorem exec_stagingAdmit (crew entry w : Nat) (s : State) : exec (.stagingAdmit crew entry w) s = execStagingAdmit crew entry w s := rfl
theorem exec_stagingArrive (crew entry w : Nat) (s : State) : exec (.stagingArrive crew entry w) s = execStagingArrive crew entry w s := rfl
theorem exec_emitPushHeld (crew op : Nat) (s : State) : exec (.emitPushHeld crew op) s = execEmitPushHeld crew op s := rfl
theorem exec_crewPlace (launch core : Nat) (s : State) : exec (.crewPlace launch core) s = execCrewPlace launch core s := rfl
theorem exec_crewResume (crew core : Nat) (s : State) : exec (.crewResume crew core) s = execCrewResume crew core s := rfl
theorem exec_gangRetire (crew gang : Nat) (s : State) : exec (.gangRetire crew gang) s = execGangRetire crew gang s := rfl
theorem exec_successorStart (crew : Nat) (s : State) : exec (.successorStart crew) s = execSuccessorStart crew s := rfl
theorem exec_quantumExpiry (crew : Nat) (s : State) : exec (.quantumExpiry crew) s = execQuantumExpiry crew s := rfl
theorem exec_deadlineExpiry (crew : Nat) (s : State) : exec (.deadlineExpiry crew) s = execDeadlineExpiry crew s := rfl
theorem exec_crewSave (crew : Nat) (s : State) : exec (.crewSave crew) s = execCrewSave crew s := rfl
theorem exec_pageRequestSend (vf : Nat) (s : State) : exec (.pageRequestSend vf) s = execPageRequestSend vf s := rfl
theorem exec_pageResponseSuccess (vf prg : Nat) (s : State) : exec (.pageResponseSuccess vf prg) s = execPageResponseSuccess vf prg s := rfl
theorem exec_pageResponseInvalid (vf prg : Nat) (s : State) : exec (.pageResponseInvalid vf prg) s = execPageResponseInvalid vf prg s := rfl
theorem exec_pageResponseFailure (vf prg : Nat) (s : State) : exec (.pageResponseFailure vf prg) s = execPageResponseFailure vf prg s := rfl
theorem exec_hostCompletion (crew op : Nat) (how : HostEnd) (s : State) : exec (.hostCompletion crew op how) s = execHostCompletion crew op how s := rfl
theorem exec_hostCompletionTimeout (crew op : Nat) (s : State) : exec (.hostCompletionTimeout crew op) s = execHostCompletionTimeout crew op s := rfl
theorem exec_fabricTimeout (crew op : Nat) (s : State) : exec (.fabricTimeout crew op) s = execFabricTimeout crew op s := rfl
theorem exec_fabricResponse (crew op : Nat) (how : FabEnd) (s : State) : exec (.fabricResponse crew op how) s = execFabricResponse crew op how s := rfl
theorem exec_flitCheckFail (link : Nat) (s : State) : exec (.flitCheckFail link) s = execFlitCheckFail link s := rfl
theorem exec_linkDown (link : Nat) (s : State) : exec (.linkDown link) s = execLinkDown link s := rfl
theorem exec_linkTrained (link : Nat) (s : State) : exec (.linkTrained link) s = execLinkTrained link s := rfl
theorem exec_trapRingRoom (vf ctx : Nat) (s : State) : exec (.trapRingRoom vf ctx) s = execTrapRingRoom vf ctx s := rfl
theorem exec_bindingComplete (vf ctx index : Nat) (s : State) : exec (.bindingComplete vf ctx index) s = execBindingComplete vf ctx index s := rfl
theorem exec_graderWalk (tract : Nat) (s : State) : exec (.graderWalk tract) s = execGraderWalk tract s := rfl
theorem exec_readmit (tract : Nat) (s : State) : exec (.readmit tract) s = execReadmit tract s := rfl
theorem exec_release (tract : Nat) (s : State) : exec (.release tract) s = execRelease tract s := rfl
theorem exec_launchTake (vf ctx queue : Nat) (s : State) : exec (.launchTake vf ctx queue) s = execLaunchTake vf ctx queue s := rfl
theorem exec_launchCompletion (launch : Nat) (s : State) : exec (.launchCompletion launch) s = execLaunchCompletion launch s := rfl
theorem exec_gcmCheckFail (launch va : Nat) (s : State) : exec (.gcmCheckFail launch va) s = execGcmCheckFail launch va s := rfl
theorem exec_admprod (vf value : Nat) (s : State) : exec (.admprod vf value) s = execAdmprod vf value s := rfl
theorem exec_lqdb (vf value : Nat) (s : State) : exec (.lqdb vf value) s = execLqdb vf value s := rfl
theorem exec_priclr (vf value : Nat) (s : State) : exec (.priclr vf value) s = execPriclr vf value s := rfl
theorem exec_linkctl (link value : Nat) (s : State) : exec (.linkctl link value) s = execLinkctl link value s := rfl
theorem exec_linkstFailedClear (link value : Nat) (s : State) : exec (.linkstFailedClear link value) s = execLinkstFailedClear link value s := rfl
theorem exec_logctlEn (vf value : Nat) (s : State) : exec (.logctlEn vf value) s = execLogctlEn vf value s := rfl
theorem exec_logctlOvfClear (vf value : Nat) (s : State) : exec (.logctlOvfClear vf value) s = execLogctlOvfClear vf value s := rfl
theorem exec_logctlAlldirtyClear (vf value : Nat) (s : State) : exec (.logctlAlldirtyClear vf value) s = execLogctlAlldirtyClear vf value s := rfl
theorem exec_logctlStop (vf value : Nat) (s : State) : exec (.logctlStop vf value) s = execLogctlStop vf value s := rfl
theorem exec_vfControlWrite (vf : Nat) (r : VfReg) (value : Nat) (s : State) : exec (.vfControlWrite vf r value) s = execVfControlWrite vf r value s := rfl
theorem exec_registerWrite (vf offset value : Nat) (s : State) : exec (.registerWrite vf offset value) s = execRegisterWrite vf offset value s := rfl
theorem exec_hostInboundWrite (pa : Nat) (bytes : List (BitVec 8)) (s : State) : exec (.hostInboundWrite pa bytes) s = execHostInboundWrite pa bytes s := rfl
theorem exec_debugStop (core gang : Nat) (s : State) : exec (.debugStop core gang) s = execDebugStop core gang s := rfl
theorem exec_debugResume (core gang : Nat) (s : State) : exec (.debugResume core gang) s = execDebugResume core gang s := rfl
theorem exec_debugRead (core gang : Nat) (item : DbgItem) (s : State) : exec (.debugRead core gang item) s = execDebugRead core gang item s := rfl
theorem exec_debugWrite (core gang : Nat) (item : DbgItem) (value : Nat) (s : State) : exec (.debugWrite core gang item value) s = execDebugWrite core gang item value s := rfl
theorem exec_lockInterfaceRequest (vf : Nat) (s : State) : exec (.lockInterfaceRequest vf) s = execLockInterfaceRequest vf s := rfl
theorem exec_startInterfaceRequest (vf : Nat) (s : State) : exec (.startInterfaceRequest vf) s = execStartInterfaceRequest vf s := rfl
theorem exec_stopInterfaceRequest (vf : Nat) (s : State) : exec (.stopInterfaceRequest vf) s = execStopInterfaceRequest vf s := rfl
theorem exec_ideStreamFailure (vf : Nat) (s : State) : exec (.ideStreamFailure vf) s = execIdeStreamFailure vf s := rfl
theorem exec_functionLevelReset (vf : Nat) (s : State) : exec (.functionLevelReset vf) s = execFunctionLevelReset vf s := rfl
theorem exec_reset (s : State) : exec .reset s = execReset s := rfl
theorem exec_systemInstructionComplete (crew gang lane : Nat) (s : State) : exec (.systemInstructionComplete crew gang lane) s = execSystemInstructionComplete crew gang lane s := rfl
theorem exec_launchCancel (launch : Nat) (s : State) : exec (.launchCancel launch) s = execLaunchCancel launch s := rfl
theorem exec_unitReady (unit : Nat) (s : State) : exec (.unitReady unit) s = execUnitReady unit s := rfl
theorem exec_healthPredictionUpdate (item value : Nat) (s : State) : exec (.healthPredictionUpdate item value) s = execHealthPredictionUpdate item value s := rfl
theorem exec_firmwareImageLoad (image : List (BitVec 8)) (s : State) : exec (.firmwareImageLoad image) s = execFirmwareImageLoad image s := rfl

end Sys2Proof.Machine
end

