-- ==== Sys2Proof/Laws/Walk.lean ====
section
/-!
SUPPORT. What accesses, translations and ring records change of the state, and that they neither read nor change the crews.
-/

namespace Sys2Proof.Machine

/-- The state with other crews. -/
def State.withCrews (s : State) (cs : List Crew) : State := { s with crews := cs }

theorem setCrew_withCrews (s : State) (c : Crew) : s.setCrew c = s.withCrews (mapCrew c.uid (fun _ => c) s.crews) := rfl

/-! A translation changes translations held, cached lines, their counters and page versions, and may note a missing storage. -/

/-- `t` differs from `s` in nothing but what a walk changes. -/
def OnlyWalks (s t : State) : Prop :=
  ∃ bad tlbs walks l2 hits misses versions,
    t = { s with bad := bad, tlbs := tlbs, walks := walks, l2 := l2, hits := hits, misses := misses, versions := versions }

theorem OnlyWalks.refl (s : State) : OnlyWalks s s := ⟨_, _, _, _, _, _, _, rfl⟩

theorem OnlyWalks.trans {s t u : State} (h : OnlyWalks s t) (k : OnlyWalks t u) : OnlyWalks s u := by
  obtain ⟨_, _, _, _, _, _, _, rfl⟩ := h
  obtain ⟨a, b, c, d, e, f, g, rfl⟩ := k
  exact ⟨a, b, c, d, e, f, g, rfl⟩

theorem OnlyWalks.hbm {s t : State} (h : OnlyWalks s t) : t.hbm = s.hbm := by obtain ⟨_, _, _, _, _, _, _, rfl⟩ := h; rfl
theorem OnlyWalks.host {s t : State} (h : OnlyWalks s t) : t.host = s.host := by obtain ⟨_, _, _, _, _, _, _, rfl⟩ := h; rfl
theorem OnlyWalks.crews {s t : State} (h : OnlyWalks s t) : t.crews = s.crews := by obtain ⟨_, _, _, _, _, _, _, rfl⟩ := h; rfl
theorem OnlyWalks.draws {s t : State} (h : OnlyWalks s t) : t.draws = s.draws := by obtain ⟨_, _, _, _, _, _, _, rfl⟩ := h; rfl
theorem OnlyWalks.launches {s t : State} (h : OnlyWalks s t) : t.launches = s.launches := by obtain ⟨_, _, _, _, _, _, _, rfl⟩ := h; rfl
theorem OnlyWalks.ctxs {s t : State} (h : OnlyWalks s t) : t.ctxs = s.ctxs := by obtain ⟨_, _, _, _, _, _, _, rfl⟩ := h; rfl

theorem noStorage_walked (s : State) (pa : Nat) : OnlyWalks s (s.noStorage pa) := by
  unfold State.noStorage; split <;> exact ⟨_, _, _, _, _, _, _, rfl⟩

theorem touch_walked (s : State) (pas : List Nat) : OnlyWalks s (touch s pas) := by
  induction pas generalizing s with
  | nil => exact .refl s
  | cons a as ih => simp only [touch]; split; exact ih s; exact noStorage_walked _ _

theorem writeBack_walked (s : State) (l : L2Line) : OnlyWalks s (writeBack s l) := by
  unfold writeBack; split <;> exact ⟨_, _, _, _, _, _, _, rfl⟩

theorem l2Drop_walked (s : State) (line : Nat) : OnlyWalks s (l2Drop s line) := by
  unfold l2Drop
  split
  · exact (writeBack_walked s _).trans ⟨_, _, _, _, _, _, _, rfl⟩
  · exact .refl s

theorem countLookup_walked (s : State) (line cls : Nat) (hit : Bool) : OnlyWalks s (countLookup s line cls hit) := by
  unfold countLookup; cases hit <;> exact ⟨_, _, _, _, _, _, _, rfl⟩

theorem fillL2_walked (s : State) (line cls : Nat) (lru dirty : Bool) (w : Option Nat) : OnlyWalks s (fillL2 s line cls lru dirty w) := by
  unfold fillL2
  cases fillWay s line cls with
  | none => dsimp only; split <;> exact ⟨_, _, _, _, _, _, _, rfl⟩
  | some v =>
    dsimp only
    cases s.l2.find? (fun l => homeOf l.line == homeOf line && l.way == v) with
    | none => cases lru <;> exact ⟨_, _, _, _, _, _, _, rfl⟩
    | some l => cases lru <;> exact (writeBack_walked s l).trans ⟨_, _, _, _, _, _, _, rfl⟩

/-- A lookup that may be counted. -/
theorem counted_walked (s : State) (line : Nat) (counted : Option Nat) (hit : Bool) :
    OnlyWalks s (match counted with
      | some k => countLookup s line k hit
      | none => s) := by
  cases counted
  · exact .refl s
  · exact countLookup_walked s line _ hit

theorem accessL2_walked (s : State) (line cls : Nat) (lru dirty : Bool) (counted w : Option Nat) :
    OnlyWalks s (accessL2 s line cls lru dirty counted w) := by
  unfold accessL2
  dsimp only
  split
  · split
    · exact (counted_walked s line counted true).trans ((l2Drop_walked _ _).trans (fillL2_walked _ _ _ _ _ _))
    · exact (counted_walked s line counted true).trans ⟨_, _, _, _, _, _, _, rfl⟩
  · exact (counted_walked s line counted false).trans (fillL2_walked _ _ _ _ _ _)

theorem walkRead_walked (s : State) (k : WalkKey) (cls pa : Nat) : OnlyWalks s (walkRead s k cls pa).1 := by
  unfold walkRead
  split
  · exact .refl s
  · exact ((touch_walked s [pa]).trans (accessL2_walked _ _ _ _ _ _ _)).trans ⟨_, _, _, _, _, _, _, rfl⟩

theorem stage2_walked (s : State) (vf cls gpa : Nat) : OnlyWalks s (stage2 s vf cls gpa).1 := by
  unfold stage2
  split
  · exact .refl s
  · have h1 := walkRead_walked s (walkKey vf none gpa (2 ^ 40)) cls ((s.func vf).s2root + 8 * (gpa / 2 ^ 40 % 4096))
    generalize walkRead s (walkKey vf none gpa (2 ^ 40)) cls ((s.func vf).s2root + 8 * (gpa / 2 ^ 40 % 4096)) = r at h1 ⊢
    rcases r with ⟨s1, v1⟩
    have h2 := OnlyWalks.trans h1 (walkRead_walked s1 (walkKey vf none gpa (2 ^ 28)) cls (oa v1 + 8 * (gpa / 2 ^ 28 % 4096)))
    dsimp only at h1 h2 ⊢
    generalize walkRead s1 (walkKey vf none gpa (2 ^ 28)) cls (oa v1 + 8 * (gpa / 2 ^ 28 % 4096)) = r at h2 ⊢
    rcases r with ⟨s2, v2⟩
    have h3 := OnlyWalks.trans h2 (walkRead_walked s2 (walkKey vf none gpa (2 ^ 16)) cls (oa v2 + 8 * (gpa / 2 ^ 16 % 4096)))
    dsimp only at h2 h3 ⊢
    generalize walkRead s2 (walkKey vf none gpa (2 ^ 16)) cls (oa v2 + 8 * (gpa / 2 ^ 16 % 4096)) = r at h3 ⊢
    rcases r with ⟨s3, v3⟩
    dsimp only at h3 ⊢
    repeat' split
    all_goals first | exact h1 | exact h2 | exact h3

theorem walkEntry_walked (s : State) (k : WalkKey) (vf cls acc gpa : Nat) : OnlyWalks s (walkEntry s k vf cls acc gpa).1 := by
  unfold walkEntry
  have h := stage2_walked s vf cls gpa
  generalize stage2 s vf cls gpa = r at h ⊢
  rcases r with ⟨s1, ⟨e, l, pa⟩ | l | l⟩
  · have h2 := OnlyWalks.trans h (walkRead_walked s1 k cls pa)
    dsimp only at h h2 ⊢
    split
    · exact h2
    · exact h
  · exact h
  · exact h

theorem tlbAdd_walked (s : State) (t : TlbEntry) : OnlyWalks s (tlbAdd s t) := ⟨_, _, _, _, _, _, _, rfl⟩

theorem walkLeaf_walked (s : State) (holder vf ctx root cls : Nat) (user : Bool) (acc va e lvl gpa : Nat) :
    OnlyWalks s (walkLeaf s holder vf ctx root cls user acc va e lvl gpa).1 := by
  unfold walkLeaf
  split
  · exact .refl s
  · have h := stage2_walked s vf cls gpa
    generalize stage2 s vf cls gpa = r at h ⊢
    rcases r with ⟨s1, ⟨e2, l2, pa⟩ | l | l⟩
    · exact OnlyWalks.trans h (tlbAdd_walked _ _)
    · exact h
    · exact h

theorem walk_walked (s : State) (holder vf ctx root cls : Nat) (user : Bool) (acc va : Nat) :
    OnlyWalks s (walk s holder vf ctx root cls user acc va).1 := by
  unfold walk
  have h1 := walkEntry_walked s (walkKey vf (some ctx) va (2 ^ 42)) vf cls acc (root + 8 * (va / 2 ^ 42 % 8192))
  generalize walkEntry s (walkKey vf (some ctx) va (2 ^ 42)) vf cls acc (root + 8 * (va / 2 ^ 42 % 8192)) = r at h1 ⊢
  rcases r with ⟨s1, e1 | x⟩
  · have h2 := OnlyWalks.trans h1 (walkEntry_walked s1 (walkKey vf (some ctx) va (2 ^ 29)) vf cls acc (oa e1 + 8 * (va / 2 ^ 29 % 8192)))
    dsimp only at h1 h2 ⊢
    generalize walkEntry s1 (walkKey vf (some ctx) va (2 ^ 29)) vf cls acc (oa e1 + 8 * (va / 2 ^ 29 % 8192)) = r at h2 ⊢
    rcases r with ⟨s2, e2 | x⟩
    · have h3 := OnlyWalks.trans h2 (walkEntry_walked s2 (walkKey vf (some ctx) va (2 ^ 16)) vf cls acc (oa e2 + 8 * (va / 2 ^ 16 % 8192)))
      have l2 := OnlyWalks.trans h2 (walkLeaf_walked s2 holder vf ctx root cls user acc va e2 2 (oa e2 + va % 2 ^ 29))
      dsimp only at h2 h3 ⊢
      generalize walkEntry s2 (walkKey vf (some ctx) va (2 ^ 16)) vf cls acc (oa e2 + 8 * (va / 2 ^ 16 % 8192)) = r at h3 ⊢
      rcases r with ⟨s3, e3 | x⟩
      · have l3 := OnlyWalks.trans h3 (walkLeaf_walked s3 holder vf ctx root cls user acc va e3 3 (oa e3 + va % 2 ^ 16))
        dsimp only at h3 l3 ⊢
        repeat' split
        all_goals first | exact h1 | exact h2 | exact h3 | exact l2 | exact l3
      · dsimp only at h3 ⊢
        repeat' split
        all_goals first | exact h1 | exact h2 | exact h3 | exact l2
    · dsimp only at h2 ⊢
      repeat' split
      all_goals first | exact h1 | exact h2
  · exact h1

theorem translate_walked (s : State) (w : Who) (acc va : Nat) : OnlyWalks s (translate s w acc va).1 := by
  unfold translate
  split
  · exact .refl s
  · cases s.tlbs.find? (fun t => t.holder == w.holder && t.vf == w.vf && t.ctx == w.ctx && t.root == w.root && t.vpage == va / 65536) with
    | some t => dsimp only; cases permit t w.user acc va <;> exact .refl s
    | none =>
      have h := walk_walked s w.holder w.vf w.ctx w.root w.cls w.user acc va
      dsimp only
      generalize walk s w.holder w.vf w.ctx w.root w.cls w.user acc va = r at h ⊢
      rcases r with ⟨s1, x⟩
      cases x <;> exact h

theorem translateN_walked (s : State) (w : Who) (acc va n : Nat) : OnlyWalks s (translateN s w acc va n).1 := by
  induction n generalizing s va with
  | zero => exact .refl s
  | succ n ih =>
    simp only [translateN]
    have h := translate_walked s w acc va
    split <;> rename_i e <;> rw [e] at h
    · rename_i s1 l
      have h2 := ih s1 (va + 1)
      split
      · rename_i e2; rw [e2] at h2; exact h.trans h2
      · exact h.trans h2
    · exact h

/-! A write through translations changes HBM besides, the lines of worlds, the dirty logs and L1. -/

/-- `t` differs from `s` in nothing but what a walk or a write of physical memory changes. -/
def OnlyWrites (s t : State) : Prop :=
  ∃ bad tlbs walks l1 l2 hits misses versions hbm worldLines funcs,
    t = { s with bad := bad, tlbs := tlbs, walks := walks, l1 := l1, l2 := l2, hits := hits, misses := misses, versions := versions, hbm := hbm
                 worldLines := worldLines, funcs := funcs }

theorem OnlyWrites.refl (s : State) : OnlyWrites s s := ⟨_, _, _, _, _, _, _, _, _, _, _, rfl⟩

theorem OnlyWrites.trans {s t u : State} (h : OnlyWrites s t) (k : OnlyWrites t u) : OnlyWrites s u := by
  obtain ⟨_, _, _, _, _, _, _, _, _, _, _, rfl⟩ := h
  obtain ⟨a, b, c, d, e, f, g, i, j, l, m, rfl⟩ := k
  exact ⟨a, b, c, d, e, f, g, i, j, l, m, rfl⟩

theorem OnlyWalks.writes {s t : State} (h : OnlyWalks s t) : OnlyWrites s t := by
  obtain ⟨_, _, _, _, _, _, _, rfl⟩ := h
  exact ⟨_, _, _, _, _, _, _, _, _, _, _, rfl⟩

theorem OnlyWrites.crews {s t : State} (h : OnlyWrites s t) : t.crews = s.crews := by obtain ⟨_, _, _, _, _, _, _, _, _, _, _, rfl⟩ := h; rfl
theorem OnlyWrites.draws {s t : State} (h : OnlyWrites s t) : t.draws = s.draws := by obtain ⟨_, _, _, _, _, _, _, _, _, _, _, rfl⟩ := h; rfl
theorem OnlyWrites.host {s t : State} (h : OnlyWrites s t) : t.host = s.host := by obtain ⟨_, _, _, _, _, _, _, _, _, _, _, rfl⟩ := h; rfl
theorem OnlyWrites.launches {s t : State} (h : OnlyWrites s t) : t.launches = s.launches := by
  obtain ⟨_, _, _, _, _, _, _, _, _, _, _, rfl⟩ := h; rfl
theorem OnlyWrites.ctxs {s t : State} (h : OnlyWrites s t) : t.ctxs = s.ctxs := by obtain ⟨_, _, _, _, _, _, _, _, _, _, _, rfl⟩ := h; rfl

theorem resealLine_writes (s : State) (line : Nat) (w : Option WorldLine) : OnlyWrites s (resealLine s line w) :=
  ⟨_, _, _, _, _, _, _, _, _, _, _, rfl⟩

theorem sealLine_writes (s : State) (w : WorldLine) : OnlyWrites s (sealLine s w) := by
  unfold sealLine
  split
  · exact .refl s
  · exact (l2Drop_walked s w.line).writes.trans ⟨_, _, _, _, _, _, _, _, _, _, _, rfl⟩

theorem writeByte_writes (s : State) (v : Option (Nat × Nat)) (pa : Nat) (b : Byte) : OnlyWrites s (writeByte s v pa b) := by
  unfold writeByte
  split
  · split
    · cases v with
      | none => exact ⟨_, _, _, _, _, _, _, _, _, _, _, rfl⟩
      | some p => dsimp only; split <;> exact ⟨_, _, _, _, _, _, _, _, _, _, _, rfl⟩
    · split
      · split
        · exact ⟨_, _, _, _, _, _, _, _, _, _, _, rfl⟩
        · exact .refl s
      · rename_i w _ _
        have h := sealLine_writes s w
        cases v with
        | none => exact h.trans ⟨_, _, _, _, _, _, _, _, _, _, _, rfl⟩
        | some p => exact (h.trans (resealLine_writes _ _ _)).trans ⟨_, _, _, _, _, _, _, _, _, _, _, rfl⟩
  · exact (noStorage_walked s pa).writes

theorem writeLeaves_writes (s : State) (w : Who) (ls : List Leaf) (bs : List Byte) : OnlyWrites s (writeLeaves s w ls bs) := by
  induction ls generalizing s bs with
  | nil => exact .refl s
  | cons l ls ih =>
    cases bs with
    | nil => exact .refl s
    | cons b bs =>
      simp only [writeLeaves]
      split
      · exact (accessL2_walked _ _ _ _ _ _ _).writes.trans ((writeByte_writes _ _ _ _).trans (ih _ _))
      · exact (writeByte_writes _ _ _ _).trans (ih _ _)

theorem writeBytes_writes (s : State) (v : Option (Nat × Nat)) (ls : List Nat) (bs : List Byte) : OnlyWrites s (writeBytes s v ls bs) := by
  induction ls generalizing s bs with
  | nil => exact .refl s
  | cons l ls ih =>
    cases bs with
    | nil => exact .refl s
    | cons b bs => exact (writeByte_writes _ _ _ _).trans (ih _ _)

theorem logDirty_writes (s : State) (vf gpa : Nat) : OnlyWrites s (logDirty s vf gpa) := by
  unfold logDirty
  dsimp only
  split
  · exact .refl s
  · split
    · exact ⟨_, _, _, _, _, _, _, _, _, _, _, rfl⟩
    · exact (writeBytes_writes _ _ _ _).trans ⟨_, _, _, _, _, _, _, _, _, _, _, rfl⟩

theorem foldl_writes {α : Type} (f : State → α → State) (hf : ∀ s a, OnlyWrites s (f s a)) (s : State) (xs : List α) :
    OnlyWrites s (xs.foldl f s) := by
  induction xs generalizing s with
  | nil => exact .refl s
  | cons a as ih => exact (hf s a).trans (ih _)

theorem deviceWrite_writes {s t : State} {w : Who} {va : Nat} {bs : List Byte} (h : deviceWrite s w va bs = some t) : OnlyWrites s t := by
  unfold deviceWrite at h
  have h1 := (translateN_walked s w 1 va bs.length).writes
  generalize translateN s w 1 va bs.length = r at h h1
  rcases r with ⟨s1, ls | y⟩
  · dsimp only at h
    split at h
    · cases h
    cases h
    exact h1.trans (((foldl_writes _ (fun s p => logDirty_writes s _ _) _ _).trans (writeLeaves_writes _ _ _ _)).trans
      (foldl_writes _ (fun s l => ⟨_, _, _, _, _, _, _, _, _, _, _, rfl⟩) _ _))
  · cases h

theorem deviceWrite_getD_writes (s : State) (w : Who) (va : Nat) (bs : List Byte) : OnlyWrites s ((deviceWrite s w va bs).getD s) := by
  cases h : deviceWrite s w va bs with
  | none => exact .refl s
  | some t => exact deviceWrite_writes h

theorem putRecord_writes (s : State) (r : Ring) (x : List Byte) : OnlyWrites s (putRecord s r x) := by
  unfold putRecord
  dsimp only
  split
  · exact .refl s
  · split
    · split
      · rename_i s1 e1
        exact (deviceWrite_writes e1).trans (deviceWrite_getD_writes _ _ _ _)
      · exact .refl s
    · exact .refl s

theorem writeRecords_writes (s : State) (r : Ring) (xs : List Record) : OnlyWrites s (writeRecords s r xs) :=
  foldl_writes _ (fun _ _ => putRecord_writes _ _ _) s xs

/-! None of this reads the crews. -/

theorem noStorage_withCrews (s : State) (cs : List Crew) (pa : Nat) : (s.withCrews cs).noStorage pa = (s.noStorage pa).withCrews cs := by
  unfold State.noStorage
  have e : (s.withCrews cs).bad = s.bad := rfl
  rw [e]; cases s.bad <;> rfl

theorem touch_withCrews (s : State) (cs : List Crew) (pas : List Nat) : touch (s.withCrews cs) pas = (touch s pas).withCrews cs := by
  induction pas with
  | nil => rfl
  | cons a as ih =>
    simp only [touch]
    have : aliasAt (s.withCrews cs) a = aliasAt s a := rfl
    rw [this]
    split
    · exact ih
    · exact noStorage_withCrews s cs a

theorem writeBack_withCrews (s : State) (cs : List Crew) (l : L2Line) : writeBack (s.withCrews cs) l = (writeBack s l).withCrews cs := by
  unfold writeBack; split <;> rfl

theorem l2Drop_withCrews (s : State) (cs : List Crew) (line : Nat) : l2Drop (s.withCrews cs) line = (l2Drop s line).withCrews cs := by
  unfold l2Drop
  have e : (s.withCrews cs).l2 = s.l2 := rfl
  rw [e]
  split
  · rw [writeBack_withCrews]; rfl
  · rfl

theorem fillL2_withCrews (s : State) (cs : List Crew) (line cls : Nat) (lru dirty : Bool) (w : Option Nat) :
    fillL2 (s.withCrews cs) line cls lru dirty w = (fillL2 s line cls lru dirty w).withCrews cs := by
  unfold fillL2
  have : fillWay (s.withCrews cs) line cls = fillWay s line cls := rfl
  rw [this]
  cases fillWay s line cls with
  | none => dsimp only; split <;> rfl
  | some v =>
    dsimp only
    have e : (s.withCrews cs).l2 = s.l2 := rfl
    rw [e]
    cases s.l2.find? (fun l => homeOf l.line == homeOf line && l.way == v) with
    | none => cases lru <;> rfl
    | some l => dsimp only; rw [writeBack_withCrews]; cases lru <;> rfl

theorem countLookup_withCrews (s : State) (cs : List Crew) (line k : Nat) (hit : Bool) :
    countLookup (s.withCrews cs) line k hit = (countLookup s line k hit).withCrews cs := by
  cases hit <;> rfl

theorem accessL2_withCrews (s : State) (cs : List Crew) (line cls : Nat) (lru dirty : Bool) (counted w : Option Nat) :
    accessL2 (s.withCrews cs) line cls lru dirty counted w = (accessL2 s line cls lru dirty counted w).withCrews cs := by
  unfold accessL2
  have e : (s.withCrews cs).l2 = s.l2 := rfl
  cases counted with
  | none =>
    dsimp only
    rw [e]
    split
    · split
      · rw [l2Drop_withCrews, fillL2_withCrews]
      · rfl
    · exact fillL2_withCrews ..
  | some k =>
    dsimp only
    simp only [countLookup_withCrews]
    rw [e]
    split
    · split
      · rw [l2Drop_withCrews, fillL2_withCrews]
      · rfl
    · exact fillL2_withCrews ..

theorem walkRead_withCrews (s : State) (cs : List Crew) (k : WalkKey) (cls pa : Nat) :
    walkRead (s.withCrews cs) k cls pa = ((walkRead s k cls pa).1.withCrews cs, (walkRead s k cls pa).2) := by
  unfold walkRead
  have e : (s.withCrews cs).walks = s.walks := rfl
  rw [e]
  split
  · rfl
  · rw [touch_withCrews, accessL2_withCrews]; rfl

theorem stage2_withCrews (s : State) (cs : List Crew) (vf cls gpa : Nat) :
    stage2 (s.withCrews cs) vf cls gpa = ((stage2 s vf cls gpa).1.withCrews cs, (stage2 s vf cls gpa).2) := by
  unfold stage2
  have e : (s.withCrews cs).func vf = s.func vf := rfl
  simp only [e, walkRead_withCrews]
  repeat' split
  all_goals rfl

theorem walkEntry_withCrews (s : State) (cs : List Crew) (k : WalkKey) (vf cls acc gpa : Nat) :
    walkEntry (s.withCrews cs) k vf cls acc gpa = ((walkEntry s k vf cls acc gpa).1.withCrews cs, (walkEntry s k vf cls acc gpa).2) := by
  unfold walkEntry
  rw [stage2_withCrews]
  rcases stage2 s vf cls gpa with ⟨s1, e | e | e⟩
  · dsimp only; simp only [walkRead_withCrews]; split <;> rfl
  · rfl
  · rfl

theorem walkLeaf_withCrews (s : State) (cs : List Crew) (holder vf ctx root cls : Nat) (user : Bool) (acc va e lvl gpa : Nat) :
    walkLeaf (s.withCrews cs) holder vf ctx root cls user acc va e lvl gpa =
      ((walkLeaf s holder vf ctx root cls user acc va e lvl gpa).1.withCrews cs,
        (walkLeaf s holder vf ctx root cls user acc va e lvl gpa).2) := by
  unfold walkLeaf
  rw [stage2_withCrews]
  split
  · rfl
  · rcases stage2 s vf cls gpa with ⟨s1, e | e | e⟩ <;> rfl

theorem walk_withCrews (s : State) (cs : List Crew) (holder vf ctx root cls : Nat) (user : Bool) (acc va : Nat) :
    walk (s.withCrews cs) holder vf ctx root cls user acc va =
      ((walk s holder vf ctx root cls user acc va).1.withCrews cs, (walk s holder vf ctx root cls user acc va).2) := by
  unfold walk
  rw [walkEntry_withCrews]
  rcases walkEntry s (walkKey vf (some ctx) va (2 ^ 42)) vf cls acc (root + 8 * (va / 2 ^ 42 % 8192)) with ⟨s1, e1 | x⟩
  · dsimp only
    rw [walkEntry_withCrews]
    rcases walkEntry s1 (walkKey vf (some ctx) va (2 ^ 29)) vf cls acc (oa e1 + 8 * (va / 2 ^ 29 % 8192)) with ⟨s2, e2 | x⟩
    · dsimp only
      rw [walkEntry_withCrews, walkLeaf_withCrews]
      rcases walkEntry s2 (walkKey vf (some ctx) va (2 ^ 16)) vf cls acc (oa e2 + 8 * (va / 2 ^ 16 % 8192)) with ⟨s3, e3 | x⟩
      · dsimp only
        rw [walkLeaf_withCrews]
        repeat' split
        all_goals rfl
      · dsimp only
        repeat' split
        all_goals rfl
    · dsimp only
      repeat' split
      all_goals rfl
  · rfl

theorem translate_withCrews (s : State) (cs : List Crew) (w : Who) (acc va : Nat) :
    translate (s.withCrews cs) w acc va = ((translate s w acc va).1.withCrews cs, (translate s w acc va).2) := by
  unfold translate
  have e : (s.withCrews cs).tlbs = s.tlbs := rfl
  have hg : ∀ s l, guardPage (State.withCrews s cs) w acc l = guardPage s w acc l := fun _ _ => rfl
  split
  · rfl
  · rw [e]
    cases s.tlbs.find? (fun t => t.holder == w.holder && t.vf == w.vf && t.ctx == w.ctx && t.root == w.root && t.vpage == va / 65536) with
    | some t => dsimp only; cases permit t w.user acc va <;> simp only [hg]
    | none =>
      dsimp only
      rw [walk_withCrews]
      rcases walk s w.holder w.vf w.ctx w.root w.cls w.user acc va with ⟨s1, x⟩
      cases x <;> simp only [hg]

theorem translateN_withCrews (s : State) (cs : List Crew) (w : Who) (acc va n : Nat) :
    translateN (s.withCrews cs) w acc va n = ((translateN s w acc va n).1.withCrews cs, (translateN s w acc va n).2) := by
  induction n generalizing s va with
  | zero => rfl
  | succ n ih =>
    simp only [translateN]
    rw [translate_withCrews]
    rcases translate s w acc va with ⟨s1, x⟩
    cases x with
    | ok l =>
      dsimp only
      rw [ih]
      rcases translateN s1 w acc (va + 1) n with ⟨s2, ls | y⟩ <;> rfl
    | fault a b => rfl
    | miss a b => rfl

theorem sealLine_withCrews (s : State) (cs : List Crew) (w : WorldLine) : sealLine (s.withCrews cs) w = (sealLine s w).withCrews cs := by
  unfold sealLine
  split
  · rfl
  · rw [l2Drop_withCrews]; rfl

theorem writeByte_withCrews (s : State) (cs : List Crew) (v : Option (Nat × Nat)) (pa : Nat) (b : Byte) :
    writeByte (s.withCrews cs) v pa b = (writeByte s v pa b).withCrews cs := by
  unfold writeByte
  have e : sealedFor (s.withCrews cs) (v.map (·.2)) pa = sealedFor s (v.map (·.2)) pa := rfl
  have e2 : (s.withCrews cs).worldLines = s.worldLines := rfl
  have e3 : ∀ w, sealIntact (s.withCrews cs) w = sealIntact s w := fun _ => rfl
  simp only [e, e2, e3, sealLine_withCrews]
  split
  · split
    · cases v with
      | none => rfl
      | some p => dsimp only; split <;> rfl
    · split
      · split <;> rfl
      · cases v <;> rfl
  · exact noStorage_withCrews s cs pa

theorem writeLeaves_withCrews (s : State) (cs : List Crew) (w : Who) (ls : List Leaf) (bs : List Byte) :
    writeLeaves (s.withCrews cs) w ls bs = (writeLeaves s w ls bs).withCrews cs := by
  induction ls generalizing s bs with
  | nil => rfl
  | cons l ls ih =>
    cases bs with
    | nil => rfl
    | cons b bs =>
      simp only [writeLeaves, accessL2_withCrews]
      split <;> simp only [writeByte_withCrews, ih]

theorem writeBytes_withCrews (s : State) (cs : List Crew) (v : Option (Nat × Nat)) (ls : List Nat) (bs : List Byte) :
    writeBytes (s.withCrews cs) v ls bs = (writeBytes s v ls bs).withCrews cs := by
  induction ls generalizing s bs with
  | nil => rfl
  | cons l ls ih =>
    cases bs with
    | nil => rfl
    | cons b bs => simp only [writeBytes, writeByte_withCrews, ih]

theorem logDirty_withCrews (s : State) (cs : List Crew) (vf gpa : Nat) : logDirty (s.withCrews cs) vf gpa = (logDirty s vf gpa).withCrews cs := by
  unfold logDirty
  have e : (s.withCrews cs).func vf = s.func vf := rfl
  dsimp only
  rw [e, writeBytes_withCrews]
  repeat' split
  all_goals rfl

theorem foldl_withCrews {α : Type} (f : State → α → State) (cs : List Crew) (hf : ∀ s a, f (State.withCrews s cs) a = (f s a).withCrews cs)
    (s : State) (xs : List α) : xs.foldl f (s.withCrews cs) = (xs.foldl f s).withCrews cs := by
  induction xs generalizing s with
  | nil => rfl
  | cons a as ih => simp only [List.foldl_cons, hf, ih]

theorem deviceRead_withCrews (s : State) (cs : List Crew) (w : Who) (va n : Nat) : deviceRead (s.withCrews cs) w va n = deviceRead s w va n := by
  unfold deviceRead
  rw [translateN_withCrews]
  rcases translateN s w 0 va n with ⟨s1, x | x⟩ <;> rfl

theorem deviceWrite_withCrews (s : State) (cs : List Crew) (w : Who) (va : Nat) (bs : List Byte) :
    deviceWrite (s.withCrews cs) w va bs = (deviceWrite s w va bs).map fun t => t.withCrews cs := by
  unfold deviceWrite
  rw [translateN_withCrews]
  rcases translateN s w 1 va bs.length with ⟨s1, x | x⟩
  · have e : x.any (leafBroken (s1.withCrews cs) w) = x.any (leafBroken s1 w) := rfl
    dsimp only
    rw [e, foldl_withCrews _ _ (fun s a => logDirty_withCrews s cs _ _), writeLeaves_withCrews,
      foldl_withCrews (fun s l => l1Drop s l) _ (fun _ _ => rfl)]
    split <;> rfl
  · rfl

/-! Ring records. -/

theorem ringSpace_withCrews (s : State) (cs : List Crew) (r : Ring) : ringSpace (s.withCrews cs) r = ringSpace s r := by
  unfold ringSpace
  have e : (s.withCrews cs).ctxAt r.vf r.ctx = s.ctxAt r.vf r.ctx := rfl
  rw [e]; simp only [deviceRead_withCrews]

theorem ringRoom_withCrews (s : State) (cs : List Crew) (r : Ring) (n : Nat) : ringRoom (s.withCrews cs) r n = ringRoom s r n := by
  unfold ringRoom; rw [ringSpace_withCrews]

theorem putRecord_withCrews (s : State) (cs : List Crew) (r : Ring) (x : List Byte) :
    putRecord (s.withCrews cs) r x = (putRecord s r x).withCrews cs := by
  unfold putRecord
  have e : (s.withCrews cs).ctxAt r.vf r.ctx = s.ctxAt r.vf r.ctx := rfl
  rw [e]; dsimp only
  rw [deviceRead_withCrews]
  split
  · rfl
  · split
    · rw [deviceWrite_withCrews]
      rename_i bs _
      rcases deviceWrite s r.who (ringBase (s.ctxAt r.vf r.ctx) + 64 + 64 * (natOfBytes bs % ringLen (s.ctxAt r.vf r.ctx))) x with _ | s1
      · rfl
      · simp only [Option.map_some, deviceWrite_withCrews]
        rcases deviceWrite s1 r.who (ringBase (s.ctxAt r.vf r.ctx)) (bytesOf 4 ((natOfBytes bs + 1) % 2 ^ 32)) with _ | s2 <;> rfl
    · rfl

theorem putRecord_crews (s : State) (r : Ring) (x : List Byte) : (putRecord s r x).crews = s.crews := (putRecord_writes s r x).crews

/-- A record put while a crew is replaced: the record, and then the crew. -/
theorem putRecord_setCrew (s : State) (c : Crew) (r : Ring) (x : List Byte) :
    putRecord (s.setCrew c) r x = (putRecord s r x).setCrew c := by
  rw [setCrew_withCrews, setCrew_withCrews, putRecord_withCrews, putRecord_crews]

theorem ringRoom_setCrew (s : State) (c : Crew) (r : Ring) (n : Nat) : ringRoom (s.setCrew c) r n = ringRoom s r n := by
  rw [setCrew_withCrews, ringRoom_withCrews]

end Sys2Proof.Machine
end

