-- ==== Sys2Proof/Laws/Keeps.lean ====
section
/-!
SUPPORT. Every operation that writes a byte memory keeps the canonical form of both memories.
-/

namespace Sys2Proof.Machine

/-- From a state whose two byte memories are canonical, the other's are. -/
def KeepsMem (s t : State) : Prop :=
  Memory.wf s.hbm = true → Memory.wf s.host = true → Memory.wf t.hbm = true ∧ Memory.wf t.host = true

theorem KeepsMem.refl (s : State) : KeepsMem s s := fun a b => ⟨a, b⟩

theorem KeepsMem.trans {s t u : State} (h : KeepsMem s t) (k : KeepsMem t u) : KeepsMem s u :=
  fun a b => k (h a b).1 (h a b).2

/-- Equal memories. -/
theorem KeepsMem.same {s t : State} (h : t.hbm = s.hbm) (k : t.host = s.host) : KeepsMem s t :=
  fun a b => ⟨h ▸ a, k ▸ b⟩

theorem OnlyWalks.keeps {s t : State} (h : OnlyWalks s t) : KeepsMem s t := .same h.hbm h.host

theorem keeps_pokeHost (s t : State) (a : Nat) (bs : List Byte) (h : t.hbm = s.hbm) (k : t.host = pokeN s.host a bs) : KeepsMem s t :=
  fun x y => ⟨h ▸ x, k ▸ Memory.wf_pokeN _ _ _ y⟩

theorem sealLine_keeps (s : State) (w : WorldLine) : KeepsMem s (sealLine s w) := by
  unfold sealLine
  split
  · exact .refl s
  · exact (l2Drop_walked s w.line).keeps.trans fun a b => ⟨Memory.wf_pokeN _ _ _ a, b⟩

theorem writeByte_keeps (s : State) (v : Option (Nat × Nat)) (pa : Nat) (b : Byte) : KeepsMem s (writeByte s v pa b) := by
  unfold writeByte
  split
  · split
    · cases v with
      | none => exact fun x y => ⟨Memory.wf_poke _ _ _ x, y⟩
      | some p => dsimp only; split <;> exact fun x y => ⟨Memory.wf_poke _ _ _ x, y⟩
    · split
      · split
        · exact fun x y => ⟨Memory.wf_poke _ _ _ (Memory.wf_pokeN _ _ _ x), y⟩
        · exact .refl s
      · rename_i w _ _
        refine (sealLine_keeps s w).trans ?_
        cases v with
        | none => exact fun x y => ⟨Memory.wf_poke _ _ _ x, y⟩
        | some p => exact fun x y => ⟨Memory.wf_poke _ _ _ x, y⟩
  · exact (noStorage_walked s pa).keeps

theorem writeBytes_keeps (s : State) (v : Option (Nat × Nat)) (ls : List Nat) (bs : List Byte) : KeepsMem s (writeBytes s v ls bs) := by
  induction ls generalizing s bs with
  | nil => exact .refl s
  | cons l ls ih =>
    cases bs with
    | nil => exact .refl s
    | cons b bs => exact (writeByte_keeps _ _ _ _).trans (ih _ _)

theorem writeLeaves_keeps (s : State) (w : Who) (ls : List Leaf) (bs : List Byte) : KeepsMem s (writeLeaves s w ls bs) := by
  induction ls generalizing s bs with
  | nil => exact .refl s
  | cons l ls ih =>
    cases bs with
    | nil => exact .refl s
    | cons b bs =>
      simp only [writeLeaves]
      split
      · exact (accessL2_walked _ _ _ _ _ _ _).keeps.trans ((writeByte_keeps _ _ _ _).trans (ih _ _))
      · exact (writeByte_keeps _ _ _ _).trans (ih _ _)

theorem foldl_keeps {α : Type} (f : State → α → State) (hf : ∀ s a, KeepsMem s (f s a)) (s : State) (xs : List α) :
    KeepsMem s (xs.foldl f s) := by
  induction xs generalizing s with
  | nil => exact .refl s
  | cons a as ih => exact (hf s a).trans (ih _)

theorem logDirty_keeps (s : State) (vf gpa : Nat) : KeepsMem s (logDirty s vf gpa) := by
  unfold logDirty
  dsimp only
  split
  · exact .refl s
  · split
    · exact .same rfl rfl
    · exact (writeBytes_keeps _ _ _ _).trans (.same rfl rfl)

theorem deviceWrite_keeps {s t : State} {w : Who} {va : Nat} {bs : List Byte} (h : deviceWrite s w va bs = some t) : KeepsMem s t := by
  unfold deviceWrite at h
  have h1 := (translateN_walked s w 1 va bs.length).keeps
  generalize translateN s w 1 va bs.length = r at h h1
  rcases r with ⟨s1, ls | y⟩
  · dsimp only at h
    split at h
    · cases h
    cases h
    exact h1.trans (((foldl_keeps _ (fun s p => logDirty_keeps s _ _) _ _).trans (writeLeaves_keeps _ _ _ _)).trans
      (foldl_keeps _ (fun s l => KeepsMem.same (t := l1Drop s l) rfl rfl) _ _))
  · cases h

theorem deviceWrite_getD_keeps (s : State) (w : Who) (va : Nat) (bs : List Byte) : KeepsMem s ((deviceWrite s w va bs).getD s) := by
  cases h : deviceWrite s w va bs with
  | none => exact .refl s
  | some t => exact deviceWrite_keeps h

theorem putRecord_keeps (s : State) (r : Ring) (x : List Byte) : KeepsMem s (putRecord s r x) := by
  unfold putRecord
  dsimp only
  split
  · exact .refl s
  · split
    · split
      · rename_i s1 e1
        exact (deviceWrite_keeps e1).trans (deviceWrite_getD_keeps _ _ _ _)
      · exact .refl s
    · exact .refl s

theorem writeRecords_keeps (s : State) (r : Ring) (xs : List Record) : KeepsMem s (writeRecords s r xs) :=
  foldl_keeps _ (fun _ _ => putRecord_keeps _ _ _) s xs

theorem writeLoc_keeps (s : State) (world : Option (Nat × Nat)) (l : Loc) (b : Byte) : KeepsMem s (writeLoc s world l b) := by
  cases l with
  | scratch uid off => exact .same rfl rfl
  | vault launch camp off => exact .same rfl rfl
  | phys pa prot raw => exact writeByte_keeps _ _ _ _
  | host a => exact fun x y => ⟨x, Memory.wf_poke _ _ _ y⟩
  | konst h e => exact .refl s
  | nowhere => exact .refl s

theorem writeLocs_keeps (s : State) (world : Option (Nat × Nat)) (ls : List Loc) (bs : List Byte) : KeepsMem s (writeLocs s world ls bs) := by
  induction ls generalizing s bs with
  | nil => exact .refl s
  | cons l ls ih =>
    cases bs with
    | nil => exact .refl s
    | cons b bs => exact (writeLoc_keeps _ _ _ _).trans (ih _ _)

theorem writeCompletion_keeps (s : State) (l : Launch) (code : Nat) : KeepsMem s (writeCompletion s l code) := by
  unfold writeCompletion
  dsimp only
  split
  · exact keeps_pokeHost _ _ _ _ rfl rfl
  · exact deviceWrite_getD_keeps _ _ _ _

theorem undoLine_keeps (s : State) (l : L2Line) : KeepsMem s (undoLine s l) := by
  unfold undoLine
  split
  · exact fun x y => ⟨Memory.wf_pokeN _ _ _ x, y⟩
  · exact .refl s

theorem turnTo_keeps (s : State) (uid k : Nat) : KeepsMem s (turnTo s uid k) := by
  unfold turnTo
  split
  · exact .same rfl rfl
  · split
    · split <;> exact .same rfl rfl
    · exact .same rfl rfl

/-- A move that performs nothing pending. -/
theorem applyMove_keeps (m : Move) (s : State) (hm : match m with
    | .part _ _ _ | .stale _ _ _ | .millWrite _ _ _ | .stagePart _ _ _ | .fabTranslated _ _ => False
    | _ => True) : KeepsMem s (applyMove m s) := by
  cases m with
  | hostMemory a bs => exact keeps_pokeHost _ _ _ _ rfl rfl
  | issue uid k => exact turnTo_keeps s uid k
  | millRead uid e x =>
    show KeepsMem s (millRead s uid e x)
    unfold millRead
    split
    · exact .refl s
    · dsimp only; split <;> exact .same rfl rfl
  | part | stale | millWrite | stagePart | fabTranslated => exact hm.elim
  | _ => exact .same rfl rfl

theorem execReset_keeps {s t : State} (h : execReset s = .next t) : KeepsMem s t := by
  have k := foldl_keeps sealLine sealLine_keeps s s.worldLines
  unfold execReset finish at h
  cases h
  exact fun x y => ⟨(k x y).1, y⟩

end Sys2Proof.Machine
end

