-- ==== Sys2Proof/Laws/Memory.lean ====
section
/-!
SUPPORT. Memory instructions: what their issue leaves when no executing lane traps or waits on a page request.
-/

namespace Sys2Proof.Machine

/-- Lanes whose addresses need no translation. -/
theorem memLanes_plain (k : Nat → OpKind) (s : State) (ls : List Nat) :
    memLanes (plainLane k) s ls = (s, ls.map fun l => (l, .op (k l))) := by
  induction ls with
  | nil => rfl
  | cons l ls ih => simp [memLanes, plainLane] at *; simp [ih]

/-- Lanes whose operations are known and leave the state as it is. -/
theorem memLanes_same (f : State → Nat → State × MemLane) (out : Nat → MemLane) (s : State) (ls : List Nat)
    (hf : ∀ l ∈ ls, f s l = (s, out l)) : memLanes f s ls = (s, ls.map fun l => (l, out l)) := by
  induction ls with
  | nil => rfl
  | cons l ls ih =>
    have h := ih fun j hj => hf j (List.mem_cons_of_mem _ hj)
    simp [memLanes, hf l (List.mem_cons_self ..), h]

/-- Lanes whose addresses resolve. -/
theorem memLanes_resolves {x : Issue} {shd : Bool} {acc n : Nat} {who : State → Nat → Who} {va : Nat → Nat} {addr : Nat → Addr} {s t : State}
    {ls : List Nat} (f : State → Nat → State × MemLane) (k : Nat → Addr → OpKind)
    (hf : ∀ u v l, l ∈ ls → globResolve u x.c (who u l) (.lane x.c.uid x.k l) shd acc (va l) n = (v, .addr (addr l)) →
      u.fabid = s.fabid → f u l = (v, .op (k l (addr l))))
    (hfab : ∀ u v l, globResolve u x.c (who u l) (.lane x.c.uid x.k l) shd acc (va l) n = (v, .addr (addr l)) → v.fabid = u.fabid)
    (h : Resolves x shd acc n who va addr s ls t) : memLanes f s ls = (t, ls.map fun l => (l, .op (k l (addr l)))) := by
  suffices H : ∀ (u : State), u.fabid = s.fabid → Resolves x shd acc n who va addr u ls t →
      memLanes f u ls = (t, ls.map fun l => (l, .op (k l (addr l)))) from H s rfl h
  clear h
  induction ls with
  | nil => intro u _ h; cases h; rfl
  | cons l ls ih =>
    rintro u hu ⟨v, h1, h2⟩
    have e := ih (fun a b j hj => hf a b j (List.mem_cons_of_mem _ hj)) v ((hfab _ _ _ h1).trans hu) h2
    simp [memLanes, hf u v l (List.mem_cons_self ..) h1 hu, e]

/-- Of a `g` destination only the first lane keeps it. -/
theorem lowestWrites_map (d : Opnd) (k : Nat → OpKind) (l : Nat) (ls : List Nat) (hl : l ∉ ls) :
    lowestWrites d ((l :: ls).map fun j => (j, k j)) = (l :: ls).map fun j => (j, if isG d ∧ j ≠ l then (k j).quiet else k j) := by
  have e : ∀ j ∈ ls, j ≠ l := fun j hj h => hl (h ▸ hj)
  cases hd : isG d
  · simp [lowestWrites, hd]
  · simp only [List.map_cons, lowestWrites, hd, if_true, List.map_map, true_and]
    simp only [ne_eq, not_true_eq_false, if_false]
    congr 1
    apply List.map_congr_left
    intro j hj
    simp [e j hj]

theorem head_lowest (m : LaneMask) (l : Nat) (ls : List Nat) (h : m.lanes = l :: ls) : lowest m = l := by
  have e : m.lanes.head? = some l := by rw [h]; rfl
  unfold LaneMask.lanes at e
  rw [List.head?_filter] at e
  unfold lowest
  rw [e]; rfl

/-- The operations of the lanes of a memory instruction. -/
theorem destOps_lanes (x : Issue) (h : Hdr) (d : Opnd) (k : Nat → OpKind) :
    destOps h d ((x.execs h).lanes.map fun l => (l, k l)) = (x.execs h).lanes.map fun l => (l, writerKind x h d k l) := by
  have hn := LaneMask.nodup_lanes (x.execs h)
  by_cases hw : h.nwb = true
  · simp [destOps, writerKind, hw]
  simp only [destOps, hw, if_false, Bool.false_eq_true]
  cases e : (x.execs h).lanes with
  | nil => rfl
  | cons l ls =>
    rw [e] at hn
    rw [lowestWrites_map d k l ls (List.nodup_cons.mp hn).1]
    unfold writerKind
    rw [head_lowest _ _ _ e]
    simp [hw]

theorem mapGang_same (c : Crew) (k : Nat) (f : Gang → Gang) (h : ∀ g, f g = g) : c.mapGang k f = c := by
  have e : ∀ (gs : List Gang) (n : Nat), modifyNth gs n f = gs := by
    intro gs
    induction gs with
    | nil => intro n; rfl
    | cons g gs ih => intro n; cases n <;> simp [modifyNth, h, ih]
  simp [Crew.mapGang, e]

theorem filterMap_ops {α : Type} (ls : List Nat) (k : Nat → OpKind) (f : Nat × MemLane → Option α)
    (hf : ∀ l o, f (l, .op o) = none) : (ls.map fun l => (l, MemLane.op (k l))).filterMap f = [] := by
  rw [List.filterMap_eq_nil_iff]
  intro y hy
  obtain ⟨l, _, rfl⟩ := List.mem_map.mp hy
  exact hf _ _

theorem filterMap_kinds (ls : List Nat) (k : Nat → OpKind) :
    ((ls.map fun l => (l, MemLane.op (k l))).filterMap fun x => x.2.kind?.map fun o => (x.1, o)) = ls.map fun l => (l, k l) := by
  induction ls with
  | nil => rfl
  | cons l ls ih => simpa [MemLane.kind?] using ih

/-- A memory instruction whose executing lanes all count their operations completes. -/
theorem issueMemory_issued {s s1 : State} {x : Issue} {h : Hdr} {uses : List (Opnd × Nat)} {preds : List PredOpt} {m : MemArg}
    (d : Opnd) (mod : Nat) (f : Issue → State → Nat → State × MemLane) (k : Nat → OpKind) (hr : ReadySwitch s x h uses preds)
    (hc : CountFree x h m.clause) (hl : memLanes (f x) s (x.execs h).lanes = (s1, (x.execs h).lanes.map fun l => (l, .op (k l))))
    (hs : s1.bad = none) :
    issueMemory s h uses preds d m.clause (scopeCode m.scope) mod f =
      .next (switched s1 x (issued s x h m d mod k) [nextGroup s x x.e.mask]) := by
  refine issueSwitch_switched _ _ hr ?_ (by exact hs)
  simp only [exhausted_false hc, Bool.false_eq_true, if_false, hl]
  rw [filterMap_kinds, filterMap_ops _ _ _ (by intros; rfl), filterMap_ops _ _ _ (by intros; rfl),
    filterMap_ops _ _ _ (by intros; rfl), destOps_lanes]
  simp only [List.append_nil, trapMask_nil, and_not_ofList_nil, List.isEmpty_nil, Bool.and_self, if_true]
  rw [finishSwitch_nil]
  rw [mapGang_same _ _ _ fun _ => rfl]
  rfl

end Sys2Proof.Machine
end

