-- ==== Sys2Proof/Laws/PerInstr.lean ====
section
/-!
SUPPORT. The family `FieldsFit`, instruction by instruction: every field of a well-formed instruction's word has the width that R53 gives it,
so that no field spills into its neighbour when the word is formed.
-/

namespace Sys2Proof

/-- Every field of a word has the width that R53 gives it. -/
structure Laws.Fits (r : Raw) : Prop where
  op : r.op < 2 ^ 10
  mod : r.mod < 2 ^ 6
  pred : r.pred < 2 ^ 4
  pneg : r.pneg < 2
  late : r.late < 2
  latn : r.latn < 2 ^ 3
  nwb : r.nwb < 2
  ret : r.ret < 2 ^ 2
  d : r.d < 2 ^ 11
  a : r.a < 2 ^ 11
  b : r.b < 2 ^ 11
  c : r.c < 2 ^ 11
  x : r.x < 2 ^ 24

/-- The fields of a word made of fields that fit are those fields. -/
theorem Laws.ofWord_toWord (r : Raw) (h : Laws.Fits r) : Raw.ofWord (r.toWord % 2 ^ 96) = r := by
  obtain ⟨_, _, _, _, _, _, _, _, _, _, _, _, _⟩ := h
  cases r
  simp only [Raw.ofWord, Raw.toWord, bits, Raw.mk.injEq] at *
  refine ⟨?_, ?_, ?_, ?_, ?_, ?_, ?_, ?_, ?_, ?_, ?_, ?_, ?_⟩ <;> omega

/-! Widths of the codes. -/

theorem Opnd.code_lt (o : Opnd) : o.code < 2048 := by cases o <;> simp only [Opnd.code] <;> omega
theorem ElTy.code_lt (t : ElTy) : t.code < 8 := by cases t <;> decide
theorem FlTy.code_lt (t : FlTy) : t.code < 3 := by cases t <;> decide
theorem Rnd.code_lt (t : Rnd) : t.code < 5 := by cases t <;> decide
theorem Scope.code_lt (t : Scope) : t.code < 8 := by cases t <;> decide
theorem CmpCC.code_lt (t : CmpCC) : t.code < 16 := by cases t <;> decide
theorem FcmpCC.code_lt (t : FcmpCC) : t.code < 16 := by cases t <;> decide
theorem Comb.code_lt (t : Comb) : t.code < 2 ^ 14 ∧ t.code % 2 ^ 8 = 0 := by cases t <;> simp only [Comb.code] <;> first | decide | omega
theorem PredOpt.code_le (p : PredOpt) : p.code ≤ 15 := by cases p <;> simp only [PredOpt.code] <;> omega
theorem CvtTy.code_lt (t : CvtTy) : t.code < 16 := by cases t <;> decide
theorem PackTy.code_lt (t : PackTy) : t.code < 16 := by cases t <;> decide
theorem ShflMode.code_lt (t : ShflMode) : t.code < 4 := by cases t <;> decide
theorem VoteMode.code_lt (t : VoteMode) : t.code < 4 := by cases t <;> decide
theorem RedOp.code_lt (t : RedOp) : t.code < 16 := by cases t <;> decide
theorem BarLevel.code_lt (t : BarLevel) : t.code < 8 := by cases t <;> decide
theorem Size.code_lt (t : Size) : t.code < 8 := by cases t <;> decide
theorem Policy.code_lt (t : Policy) : t.code < 4 := by cases t <;> decide
theorem AtomOp.code_lt (t : AtomOp) : t.code < 16 := by cases t <;> decide
theorem AWidth.code_lt (t : AWidth) : t.code < 8 := by cases t <;> decide
theorem HostOp.code_lt (t : HostOp) : t.code < 4 := by cases t <;> simp only [HostOp.code] <;> decide
theorem HostOp.size_lt (t : HostOp) : t.size < 8 := by
  cases t <;> simp only [HostOp.size] <;> first | exact AWidth.code_lt _ | exact Size.code_lt _
theorem FabOp.code_lt (t : FabOp) : t.code < 16 := by
  cases t <;> simp only [FabOp.code] <;> first | exact AtomOp.code_lt _ | decide
theorem CopySrc.code_lt (t : CopySrc) : t.code < 4 := by cases t <;> decide
theorem SReg.code_lt (r : SReg) : r.code < 64 := by cases r <;> simp only [SReg.code] <;> omega
theorem L2Mode.code_lt (t : L2Mode) : t.code < 8 := by cases t <;> decide
theorem Mods.code_lt (m : Mods) : m.code < 64 := by
  have h := Bool.toNat_lt m.na; have h := Bool.toNat_lt m.nb; have h := Bool.toNat_lt m.nc
  have h := Bool.toNat_lt m.aa; have h := Bool.toNat_lt m.ab; have h := Bool.toNat_lt m.ac
  simp only [Mods.code]; omega
theorem Clause.code_lt (c : Clause) : c.code < 2 ^ 24 ∧ c.code % 2 ^ 13 = 0 := by
  have h := c.stream.isLt; have h := c.mask.isLt
  simp only [Clause.code]; omega
theorem EngArg.code_lt (e : EngArg) : e.code < 2 ^ 24 ∧ e.code % 2 ^ 10 = 0 := by
  have h := Clause.code_lt e.clause; have h := Scope.code_lt e.scope
  simp only [EngArg.code]; omega

theorem FlTy.modOf_lt (t : FlTy) (r : Rnd) : t.modOf r < 24 := by
  have := FlTy.code_lt t; have := Rnd.code_lt r
  simp only [FlTy.modOf]; omega
theorem cmpX_lt (cc : Nat) (op : Comb) (pd : PredOpt) (h : cc < 16) : cmpX cc op pd < 2 ^ 14 := by
  have := Comb.code_lt op; have := PredOpt.code_le pd
  simp only [cmpX]; omega

/-! The forms of words. -/

theorem Laws.fits_mk' {h : Hdr} {op mod d a b c x : Nat} (h1 : op < 2 ^ 10) (h2 : mod < 2 ^ 6) (h3 : d < 2 ^ 11) (h4 : a < 2 ^ 11)
    (h5 : b < 2 ^ 11) (h6 : c < 2 ^ 11) (h7 : x < 2 ^ 24) : Laws.Fits (Raw.mk' h op mod d a b c x) :=
  ⟨h1, h2, h.pred.isLt, Bool.toNat_lt _, Bool.toNat_lt _, h.latn.isLt, Bool.toNat_lt _, h.ret.isLt, h3, h4, h5, h6, h7⟩

theorem Laws.fits_mkI {h : Hdr} {op mod d a imm x : Nat} (h1 : op < 2 ^ 10) (h2 : mod < 2 ^ 6) (h3 : d < 2 ^ 11) (h4 : a < 2 ^ 11)
    (h5 : imm < 2 ^ 32) (h6 : x < 2 ^ 14) : Laws.Fits (Raw.mkI h op mod d a imm x) :=
  Laws.fits_mk' h1 h2 h3 h4 (by omega) (by omega) (by omega)

theorem Laws.fits_mkB {h : Hdr} {op mod x : Nat} {d a : Opnd} {b : SrcB} (h1 : op < 2 ^ 10) (h2 : mod < 2 ^ 5) (h3 : x < 2 ^ 14) :
    Laws.Fits (Raw.mkB h op mod d a b x) := by
  cases b with
  | reg o => exact Laws.fits_mk' h1 (by omega) (Opnd.code_lt _) (Opnd.code_lt _) (Opnd.code_lt _) (by decide) (by omega)
  | imm i => exact Laws.fits_mkI h1 (by omega) (Opnd.code_lt _) (Opnd.code_lt _) i.isLt h3

theorem Laws.fits_mk2 {h : Hdr} {op mod x : Nat} {d a : Opnd} (h1 : op < 2 ^ 10) (h2 : mod < 2 ^ 6) (h3 : x < 2 ^ 24) :
    Laws.Fits (Raw.mk2 h op mod d a x) := Laws.fits_mk' h1 h2 (Opnd.code_lt _) (Opnd.code_lt _) (by decide) (by decide) h3

theorem Laws.fits_mk3 {h : Hdr} {op mod x : Nat} {d a b : Opnd} (h1 : op < 2 ^ 10) (h2 : mod < 2 ^ 6) (h3 : x < 2 ^ 24) :
    Laws.Fits (Raw.mk3 h op mod d a b x) := Laws.fits_mk' h1 h2 (Opnd.code_lt _) (Opnd.code_lt _) (Opnd.code_lt _) (by decide) h3

theorem Laws.fits_mk4 {h : Hdr} {op mod x : Nat} {d a b c : Opnd} (h1 : op < 2 ^ 10) (h2 : mod < 2 ^ 6) (h3 : x < 2 ^ 24) :
    Laws.Fits (Raw.mk4 h op mod d a b c x) :=
  Laws.fits_mk' h1 h2 (Opnd.code_lt _) (Opnd.code_lt _) (Opnd.code_lt _) (Opnd.code_lt _) h3

theorem Laws.fits_mk0 {h : Hdr} {op mod x : Nat} (h1 : op < 2 ^ 10) (h2 : mod < 2 ^ 6) (h3 : x < 2 ^ 24) :
    Laws.Fits (Raw.mk0 h op mod x) := Laws.fits_mk' h1 h2 (by decide) (by decide) (by decide) (by decide) h3

theorem Laws.fits_mkM {h : Hdr} {op mod d b size low : Nat} {m : MemArg} (h1 : op < 2 ^ 10) (h2 : mod < 2 ^ 5) (h3 : d < 2 ^ 11)
    (h4 : b < 2 ^ 11) (h5 : size < 16) (h6 : low < 64) : Laws.Fits (Raw.mkM h op mod d b size low m) := by
  have e := Clause.code_lt m.clause
  have e := Scope.code_lt m.scope
  unfold Raw.mkM
  split
  · exact Laws.fits_mk' h1 (by omega) h3 (Opnd.code_lt _) h4 (Opnd.code_lt _) (by omega)
  · exact Laws.fits_mk' h1 (by omega) h3 (Opnd.code_lt _) h4 (BitVec.isLt _) (by omega)

/-- An instruction whose word's fields fit. -/
def Laws.FieldsFit.Statement (i : Instr) : Prop := ∀ regs r, i.wf regs = true → i.raw = some r → Laws.Fits r

namespace Laws

theorem fits_event {i : Instr} (h : i.raw = none) : FieldsFit.Statement i := fun _ _ _ e => by rw [h] at e; cases e

theorem fits_lane {i : Instr} {r : Raw} (h : i.raw = some r) (hf : ∀ regs, i.wf regs = true → Fits r) :
    FieldsFit.Statement i := fun regs _ hw e => by rw [h] at e; cases e; exact hf regs hw

namespace FieldsFit

theorem add (h : Hdr) (t : ElTy) (d a : Opnd) (b : SrcB) : Statement (.add h t d a b) := fits_lane rfl fun _ _ => by
  have := ElTy.code_lt t
  refine fits_mkB ?_ ?_ ?_ <;> first | exact Opnd.code_lt _ | decide | omega
theorem sub (h : Hdr) (t : ElTy) (d a : Opnd) (b : SrcB) : Statement (.sub h t d a b) := fits_lane rfl fun _ _ => by
  have := ElTy.code_lt t
  refine fits_mkB ?_ ?_ ?_ <;> first | exact Opnd.code_lt _ | decide | omega
theorem addc (h : Hdr) (t : ElTy) (d a : Opnd) (b : SrcB) (cin cout : PredOpt) : Statement (.addc h t d a b cin cout) :=
    fits_lane rfl fun _ _ => by
  have := ElTy.code_lt t; have := PredOpt.code_le cin; have := PredOpt.code_le cout
  refine fits_mkB ?_ ?_ ?_ <;> first | exact Opnd.code_lt _ | decide | omega
theorem subb (h : Hdr) (t : ElTy) (d a : Opnd) (b : SrcB) (cin cout : PredOpt) : Statement (.subb h t d a b cin cout) :=
    fits_lane rfl fun _ _ => by
  have := ElTy.code_lt t; have := PredOpt.code_le cin; have := PredOpt.code_le cout
  refine fits_mkB ?_ ?_ ?_ <;> first | exact Opnd.code_lt _ | decide | omega
theorem mul (h : Hdr) (t : ElTy) (d a : Opnd) (b : SrcB) : Statement (.mul h t d a b) := fits_lane rfl fun _ _ => by
  have := ElTy.code_lt t
  refine fits_mkB ?_ ?_ ?_ <;> first | exact Opnd.code_lt _ | decide | omega
theorem mulh (h : Hdr) (t : ElTy) (d a : Opnd) (b : SrcB) : Statement (.mulh h t d a b) := fits_lane rfl fun _ _ => by
  have := ElTy.code_lt t
  refine fits_mkB ?_ ?_ ?_ <;> first | exact Opnd.code_lt _ | decide | omega
theorem mad (h : Hdr) (t : ElTy) (d a b c : Opnd) : Statement (.mad h t d a b c) := fits_lane rfl fun _ _ => by
  have := ElTy.code_lt t
  refine fits_mk4 ?_ ?_ ?_ <;> first | exact Opnd.code_lt _ | decide | omega
theorem madh (h : Hdr) (t : ElTy) (d a b c : Opnd) : Statement (.madh h t d a b c) := fits_lane rfl fun _ _ => by
  have := ElTy.code_lt t
  refine fits_mk4 ?_ ?_ ?_ <;> first | exact Opnd.code_lt _ | decide | omega
theorem min (h : Hdr) (t : ElTy) (d a : Opnd) (b : SrcB) : Statement (.min h t d a b) := fits_lane rfl fun _ _ => by
  have := ElTy.code_lt t
  refine fits_mkB ?_ ?_ ?_ <;> first | exact Opnd.code_lt _ | decide | omega
theorem max (h : Hdr) (t : ElTy) (d a : Opnd) (b : SrcB) : Statement (.max h t d a b) := fits_lane rfl fun _ _ => by
  have := ElTy.code_lt t
  refine fits_mkB ?_ ?_ ?_ <;> first | exact Opnd.code_lt _ | decide | omega
theorem abs (h : Hdr) (t : ElTy) (d a : Opnd) : Statement (.abs h t d a) := fits_lane rfl fun _ _ => by
  have := ElTy.code_lt t
  refine fits_mk2 ?_ ?_ ?_ <;> first | exact Opnd.code_lt _ | decide | omega
theorem neg (h : Hdr) (t : ElTy) (d a : Opnd) : Statement (.neg h t d a) := fits_lane rfl fun _ _ => by
  have := ElTy.code_lt t
  refine fits_mk2 ?_ ?_ ?_ <;> first | exact Opnd.code_lt _ | decide | omega
theorem adds (h : Hdr) (t : ElTy) (d a : Opnd) (b : SrcB) : Statement (.adds h t d a b) := fits_lane rfl fun _ _ => by
  have := ElTy.code_lt t
  refine fits_mkB ?_ ?_ ?_ <;> first | exact Opnd.code_lt _ | decide | omega
theorem subs (h : Hdr) (t : ElTy) (d a : Opnd) (b : SrcB) : Statement (.subs h t d a b) := fits_lane rfl fun _ _ => by
  have := ElTy.code_lt t
  refine fits_mkB ?_ ?_ ?_ <;> first | exact Opnd.code_lt _ | decide | omega
theorem sad (h : Hdr) (t : ElTy) (d a b c : Opnd) : Statement (.sad h t d a b c) := fits_lane rfl fun _ _ => by
  have := ElTy.code_lt t
  refine fits_mk4 ?_ ?_ ?_ <;> first | exact Opnd.code_lt _ | decide | omega
theorem cmp (h : Hdr) (t : ElTy) (d a : Opnd) (b : SrcB) (cc : CmpCC) (op : Comb) (pd : PredOpt) : Statement (.cmp h t d a b cc op pd) :=
    fits_lane rfl fun _ _ => by
  have := ElTy.code_lt t; have := cmpX_lt _ op pd (CmpCC.code_lt cc)
  refine fits_mkB ?_ ?_ ?_ <;> first | exact Opnd.code_lt _ | decide | omega
theorem and (h : Hdr) (t : ElTy) (d a : Opnd) (b : SrcB) : Statement (.and h t d a b) := fits_lane rfl fun _ _ => by
  have := ElTy.code_lt t
  refine fits_mkB ?_ ?_ ?_ <;> first | exact Opnd.code_lt _ | decide | omega
theorem or (h : Hdr) (t : ElTy) (d a : Opnd) (b : SrcB) : Statement (.or h t d a b) := fits_lane rfl fun _ _ => by
  have := ElTy.code_lt t
  refine fits_mkB ?_ ?_ ?_ <;> first | exact Opnd.code_lt _ | decide | omega
theorem xor (h : Hdr) (t : ElTy) (d a : Opnd) (b : SrcB) : Statement (.xor h t d a b) := fits_lane rfl fun _ _ => by
  have := ElTy.code_lt t
  refine fits_mkB ?_ ?_ ?_ <;> first | exact Opnd.code_lt _ | decide | omega
theorem andn (h : Hdr) (t : ElTy) (d a : Opnd) (b : SrcB) : Statement (.andn h t d a b) := fits_lane rfl fun _ _ => by
  have := ElTy.code_lt t
  refine fits_mkB ?_ ?_ ?_ <;> first | exact Opnd.code_lt _ | decide | omega
theorem not (h : Hdr) (t : ElTy) (d a : Opnd) : Statement (.not h t d a) := fits_lane rfl fun _ _ => by
  have := ElTy.code_lt t
  refine fits_mk2 ?_ ?_ ?_ <;> first | exact Opnd.code_lt _ | decide | omega
theorem lop3 (h : Hdr) (t : ElTy) (d a b c : Opnd) (table : BitVec 8) : Statement (.lop3 h t d a b c table) := fits_lane rfl fun _ _ => by
  have := ElTy.code_lt t; have := table.isLt
  refine fits_mk4 ?_ ?_ ?_ <;> first | exact Opnd.code_lt _ | decide | omega
theorem shl (h : Hdr) (t : ElTy) (d a : Opnd) (b : SrcB) : Statement (.shl h t d a b) := fits_lane rfl fun _ _ => by
  have := ElTy.code_lt t
  refine fits_mkB ?_ ?_ ?_ <;> first | exact Opnd.code_lt _ | decide | omega
theorem shr (h : Hdr) (t : ElTy) (d a : Opnd) (b : SrcB) : Statement (.shr h t d a b) := fits_lane rfl fun _ _ => by
  have := ElTy.code_lt t
  refine fits_mkB ?_ ?_ ?_ <;> first | exact Opnd.code_lt _ | decide | omega
theorem sar (h : Hdr) (t : ElTy) (d a : Opnd) (b : SrcB) : Statement (.sar h t d a b) := fits_lane rfl fun _ _ => by
  have := ElTy.code_lt t
  refine fits_mkB ?_ ?_ ?_ <;> first | exact Opnd.code_lt _ | decide | omega
theorem rot (h : Hdr) (t : ElTy) (d a : Opnd) (b : SrcB) : Statement (.rot h t d a b) := fits_lane rfl fun _ _ => by
  have := ElTy.code_lt t
  refine fits_mkB ?_ ?_ ?_ <;> first | exact Opnd.code_lt _ | decide | omega
theorem bfx (h : Hdr) (t : ElTy) (d a : Opnd) (b : SrcB) : Statement (.bfx h t d a b) := fits_lane rfl fun _ _ => by
  have := ElTy.code_lt t
  refine fits_mkB ?_ ?_ ?_ <;> first | exact Opnd.code_lt _ | decide | omega
theorem bfi (h : Hdr) (t : ElTy) (d a b c : Opnd) : Statement (.bfi h t d a b c) := fits_lane rfl fun _ _ => by
  have := ElTy.code_lt t
  refine fits_mk4 ?_ ?_ ?_ <;> first | exact Opnd.code_lt _ | decide | omega
theorem popc (h : Hdr) (t : ElTy) (d a : Opnd) : Statement (.popc h t d a) := fits_lane rfl fun _ _ => by
  have := ElTy.code_lt t
  refine fits_mk2 ?_ ?_ ?_ <;> first | exact Opnd.code_lt _ | decide | omega
theorem clz (h : Hdr) (t : ElTy) (d a : Opnd) : Statement (.clz h t d a) := fits_lane rfl fun _ _ => by
  have := ElTy.code_lt t
  refine fits_mk2 ?_ ?_ ?_ <;> first | exact Opnd.code_lt _ | decide | omega
theorem ctz (h : Hdr) (t : ElTy) (d a : Opnd) : Statement (.ctz h t d a) := fits_lane rfl fun _ _ => by
  have := ElTy.code_lt t
  refine fits_mk2 ?_ ?_ ?_ <;> first | exact Opnd.code_lt _ | decide | omega
theorem brev (h : Hdr) (t : ElTy) (d a : Opnd) : Statement (.brev h t d a) := fits_lane rfl fun _ _ => by
  have := ElTy.code_lt t
  refine fits_mk2 ?_ ?_ ?_ <;> first | exact Opnd.code_lt _ | decide | omega
theorem sel (h : Hdr) (t : ElTy) (d a b c : Opnd) : Statement (.sel h t d a b c) := fits_lane rfl fun _ _ => by
  have := ElTy.code_lt t
  refine fits_mk4 ?_ ?_ ?_ <;> first | exact Opnd.code_lt _ | decide | omega
theorem mov (h : Hdr) (t : ElTy) (d a : Opnd) : Statement (.mov h t d a) := fits_lane rfl fun _ _ => by
  have := ElTy.code_lt t
  refine fits_mk2 ?_ ?_ ?_ <;> first | exact Opnd.code_lt _ | decide | omega
theorem movi (h : Hdr) (t : ElTy) (d : Opnd) (imm : BitVec 32) : Statement (.movi h t d imm) := fits_lane rfl fun _ _ => by
  have := ElTy.code_lt t; have := imm.isLt
  refine fits_mkI ?_ ?_ ?_ ?_ ?_ ?_ <;> first | exact Opnd.code_lt _ | decide | omega
theorem lea (h : Hdr) (t : ElTy) (d a : Opnd) (b : SrcB) (natural : Bool) (scale : Fin 5) : Statement (.lea h t d a b natural scale) :=
    fits_lane rfl fun _ _ => by
  have := ElTy.code_lt t; have := Bool.toNat_lt natural; have := scale.isLt
  refine fits_mkB ?_ ?_ ?_ <;> first | exact Opnd.code_lt _ | decide | omega
theorem dp4 (h : Hdr) (t : ElTy) (d a b c : Opnd) (xs : Bool) : Statement (.dp4 h t d a b c xs) := fits_lane rfl fun _ _ => by
  have := ElTy.code_lt t; have := Bool.toNat_lt xs
  refine fits_mk4 ?_ ?_ ?_ <;> first | exact Opnd.code_lt _ | decide | omega
theorem fadd (h : Hdr) (r : Rnd) (d a : Opnd) (b : SrcB) (m : Mods) : Statement (.fadd h r d a b m) := fits_lane rfl fun _ _ => by
  have := Rnd.code_lt r; have := Mods.code_lt m
  refine fits_mkB ?_ ?_ ?_ <;> first | exact Opnd.code_lt _ | decide | omega
theorem fsub (h : Hdr) (r : Rnd) (d a : Opnd) (b : SrcB) (m : Mods) : Statement (.fsub h r d a b m) := fits_lane rfl fun _ _ => by
  have := Rnd.code_lt r; have := Mods.code_lt m
  refine fits_mkB ?_ ?_ ?_ <;> first | exact Opnd.code_lt _ | decide | omega
theorem fmul (h : Hdr) (r : Rnd) (d a : Opnd) (b : SrcB) (m : Mods) : Statement (.fmul h r d a b m) := fits_lane rfl fun _ _ => by
  have := Rnd.code_lt r; have := Mods.code_lt m
  refine fits_mkB ?_ ?_ ?_ <;> first | exact Opnd.code_lt _ | decide | omega
theorem fma (h : Hdr) (r : Rnd) (d a b c : Opnd) (m : Mods) : Statement (.fma h r d a b c m) := fits_lane rfl fun _ _ => by
  have := Rnd.code_lt r; have := Mods.code_lt m
  refine fits_mk4 ?_ ?_ ?_ <;> first | exact Opnd.code_lt _ | decide | omega
theorem fmin (h : Hdr) (d a : Opnd) (b : SrcB) (m : Mods) (nanp : Bool) : Statement (.fmin h d a b m nanp) := fits_lane rfl fun _ _ => by
  have := Mods.code_lt m; have := Bool.toNat_lt nanp
  refine fits_mkB ?_ ?_ ?_ <;> first | exact Opnd.code_lt _ | decide | omega
theorem fmax (h : Hdr) (d a : Opnd) (b : SrcB) (m : Mods) (nanp : Bool) : Statement (.fmax h d a b m nanp) := fits_lane rfl fun _ _ => by
  have := Mods.code_lt m; have := Bool.toNat_lt nanp
  refine fits_mkB ?_ ?_ ?_ <;> first | exact Opnd.code_lt _ | decide | omega
theorem fcmp (h : Hdr) (t : FlTy) (d a : Opnd) (b : SrcB) (cc : FcmpCC) (op : Comb) (pd : PredOpt) : Statement (.fcmp h t d a b cc op pd) :=
    fits_lane rfl fun _ _ => by
  have := FlTy.modOf_lt t .rn; have := cmpX_lt _ op pd (FcmpCC.code_lt cc)
  refine fits_mkB ?_ ?_ ?_ <;> first | exact Opnd.code_lt _ | decide | omega
theorem frnd (h : Hdr) (t : FlTy) (r : Rnd) (d a : Opnd) (exact : Bool) : Statement (.frnd h t r d a exact) := fits_lane rfl fun _ _ => by
  have := Bool.toNat_lt exact; have := FlTy.modOf_lt t r
  refine fits_mk2 ?_ ?_ ?_ <;> first | exact Opnd.code_lt _ | decide | omega
theorem fclass (h : Hdr) (t : FlTy) (d a : Opnd) (mask : BitVec 10) (pd : PredOpt) : Statement (.fclass h t d a mask pd) :=
    fits_lane rfl fun _ _ => by
  have := mask.isLt; have := PredOpt.code_le pd; have := FlTy.modOf_lt t .rn
  refine fits_mk2 ?_ ?_ ?_ <;> first | exact Opnd.code_lt _ | decide | omega
theorem rcp (h : Hdr) (r : Rnd) (d a : Opnd) : Statement (.rcp h r d a) := fits_lane rfl fun _ _ => by
  have := Rnd.code_lt r
  refine fits_mk2 ?_ ?_ ?_ <;> first | exact Opnd.code_lt _ | decide | omega
theorem rsqrt (h : Hdr) (r : Rnd) (d a : Opnd) : Statement (.rsqrt h r d a) := fits_lane rfl fun _ _ => by
  have := Rnd.code_lt r
  refine fits_mk2 ?_ ?_ ?_ <;> first | exact Opnd.code_lt _ | decide | omega
theorem sqrt (h : Hdr) (r : Rnd) (d a : Opnd) : Statement (.sqrt h r d a) := fits_lane rfl fun _ _ => by
  have := Rnd.code_lt r
  refine fits_mk2 ?_ ?_ ?_ <;> first | exact Opnd.code_lt _ | decide | omega
theorem exp2 (h : Hdr) (r : Rnd) (d a : Opnd) : Statement (.exp2 h r d a) := fits_lane rfl fun _ _ => by
  have := Rnd.code_lt r
  refine fits_mk2 ?_ ?_ ?_ <;> first | exact Opnd.code_lt _ | decide | omega
theorem log2 (h : Hdr) (r : Rnd) (d a : Opnd) : Statement (.log2 h r d a) := fits_lane rfl fun _ _ => by
  have := Rnd.code_lt r
  refine fits_mk2 ?_ ?_ ?_ <;> first | exact Opnd.code_lt _ | decide | omega
theorem sinpi (h : Hdr) (r : Rnd) (d a : Opnd) : Statement (.sinpi h r d a) := fits_lane rfl fun _ _ => by
  have := Rnd.code_lt r
  refine fits_mk2 ?_ ?_ ?_ <;> first | exact Opnd.code_lt _ | decide | omega
theorem cospi (h : Hdr) (r : Rnd) (d a : Opnd) : Statement (.cospi h r d a) := fits_lane rfl fun _ _ => by
  have := Rnd.code_lt r
  refine fits_mk2 ?_ ?_ ?_ <;> first | exact Opnd.code_lt _ | decide | omega
theorem fscale (h : Hdr) (r : Rnd) (d a : Opnd) (b : SrcB) : Statement (.fscale h r d a b) := fits_lane rfl fun _ _ => by
  have := Rnd.code_lt r
  refine fits_mkB ?_ ?_ ?_ <;> first | exact Opnd.code_lt _ | decide | omega
theorem fexp (h : Hdr) (d a : Opnd) : Statement (.fexp h d a) := fits_lane rfl fun _ _ => by
  refine fits_mk2 ?_ ?_ ?_ <;> first | exact Opnd.code_lt _ | decide
theorem hadd2 (h : Hdr) (t : FlTy) (r : Rnd) (d a : Opnd) (b : SrcB) (m : Mods) : Statement (.hadd2 h t r d a b m) :=
    fits_lane rfl fun _ _ => by
  have := Mods.code_lt m; have := FlTy.modOf_lt t r
  refine fits_mkB ?_ ?_ ?_ <;> first | exact Opnd.code_lt _ | decide | omega
theorem hmul2 (h : Hdr) (t : FlTy) (r : Rnd) (d a : Opnd) (b : SrcB) (m : Mods) : Statement (.hmul2 h t r d a b m) :=
    fits_lane rfl fun _ _ => by
  have := Mods.code_lt m; have := FlTy.modOf_lt t r
  refine fits_mkB ?_ ?_ ?_ <;> first | exact Opnd.code_lt _ | decide | omega
theorem hfma2 (h : Hdr) (t : FlTy) (r : Rnd) (d a b c : Opnd) (m : Mods) : Statement (.hfma2 h t r d a b c m) := fits_lane rfl fun _ _ => by
  have := Mods.code_lt m; have := FlTy.modOf_lt t r
  refine fits_mk4 ?_ ?_ ?_ <;> first | exact Opnd.code_lt _ | decide | omega
theorem hmin2 (h : Hdr) (t : FlTy) (d a : Opnd) (b : SrcB) (m : Mods) (nanp : Bool) : Statement (.hmin2 h t d a b m nanp) :=
    fits_lane rfl fun _ _ => by
  have := Mods.code_lt m; have := Bool.toNat_lt nanp; have := FlTy.modOf_lt t .rn
  refine fits_mkB ?_ ?_ ?_ <;> first | exact Opnd.code_lt _ | decide | omega
theorem hmax2 (h : Hdr) (t : FlTy) (d a : Opnd) (b : SrcB) (m : Mods) (nanp : Bool) : Statement (.hmax2 h t d a b m nanp) :=
    fits_lane rfl fun _ _ => by
  have := Mods.code_lt m; have := Bool.toNat_lt nanp; have := FlTy.modOf_lt t .rn
  refine fits_mkB ?_ ?_ ?_ <;> first | exact Opnd.code_lt _ | decide | omega
theorem fdot2 (h : Hdr) (t : FlTy) (r : Rnd) (d a b c : Opnd) (m : Mods) : Statement (.fdot2 h t r d a b c m) := fits_lane rfl fun _ _ => by
  have := Mods.code_lt m; have := FlTy.modOf_lt t r
  refine fits_mk4 ?_ ?_ ?_ <;> first | exact Opnd.code_lt _ | decide | omega
theorem fdot4 (h : Hdr) (r : Rnd) (d a b c : Opnd) (m : Mods) (fa fb : Bool) : Statement (.fdot4 h r d a b c m fa fb) :=
    fits_lane rfl fun _ _ => by
  have := Rnd.code_lt r; have := Mods.code_lt m; have := Bool.toNat_lt fa; have := Bool.toNat_lt fb
  refine fits_mk4 ?_ ?_ ?_ <;> first | exact Opnd.code_lt _ | decide | omega
theorem cvt (h : Hdr) (dst src : CvtTy) (elem : Fin 8) (sat dflt : Bool) (r : Rnd) (d a : Opnd)
    : Statement (.cvt h dst src elem sat dflt r d a) := fits_lane rfl fun _ _ => by
  have := CvtTy.code_lt dst; have := CvtTy.code_lt src; have := elem.isLt; have := Bool.toNat_lt sat; have := Bool.toNat_lt dflt; have := Rnd.code_lt r
  refine fits_mk2 ?_ ?_ ?_ <;> first | exact Opnd.code_lt _ | decide | omega
theorem pack (h : Hdr) (t : PackTy) (r : Rnd) (d a b : Opnd) : Statement (.pack h t r d a b) := fits_lane rfl fun _ _ => by
  have := PackTy.code_lt t; have := Rnd.code_lt r
  refine fits_mk3 ?_ ?_ ?_ <;> first | exact Opnd.code_lt _ | decide | omega
theorem unpack (h : Hdr) (t : PackTy) (part : Fin 4) (d a : Opnd) : Statement (.unpack h t part d a) := fits_lane rfl fun _ _ => by
  have := PackTy.code_lt t; have := part.isLt
  refine fits_mk2 ?_ ?_ ?_ <;> first | exact Opnd.code_lt _ | decide | omega
theorem plsplit (h : Hdr) (n p : Fin 8) (d a : Opnd) : Statement (.plsplit h n p d a) := fits_lane rfl fun _ _ => by
  have := n.isLt; have := p.isLt
  refine fits_mk2 ?_ ?_ ?_ <;> first | exact Opnd.code_lt _ | decide | omega
theorem plmerge (h : Hdr) (n k : Fin 8) (d a : Opnd) : Statement (.plmerge h n k d a) := fits_lane rfl fun _ _ => by
  have := n.isLt; have := k.isLt
  refine fits_mk2 ?_ ?_ ?_ <;> first | exact Opnd.code_lt _ | decide | omega
theorem quant (h : Hdr) (nat : Bool) (r : Rnd) (n : Fin 8) (elem : Fin 4) (d a b c : Opnd) : Statement (.quant h nat r n elem d a b c) :=
    fits_lane rfl fun _ _ => by
  have := Bool.toNat_lt nat; have := Rnd.code_lt r; have := n.isLt; have := elem.isLt
  refine fits_mk4 ?_ ?_ ?_ <;> first | exact Opnd.code_lt _ | decide | omega
theorem dequant (h : Hdr) (nat : Bool) (r : Rnd) (elem : Fin 4) (d a b : Opnd) : Statement (.dequant h nat r elem d a b) :=
    fits_lane rfl fun _ _ => by
  have := Bool.toNat_lt nat; have := Rnd.code_lt r; have := elem.isLt
  refine fits_mk3 ?_ ?_ ?_ <;> first | exact Opnd.code_lt _ | decide | omega
theorem prmt (h : Hdr) (d a b : Opnd) (ctl : PrmtCtl) : Statement (.prmt h d a b ctl) := fits_lane rfl fun _ _ => by
  cases ctl with
  | const k => exact fits_mk3 (by decide) (by decide) (Nat.lt_trans k.isLt (by decide))
  | reg o => exact fits_mk4 (by decide) (by decide) (by decide)
theorem bra (h : Hdr) (t : Target) : Statement (.bra h t) := fits_lane rfl fun _ _ => by
  have := t.slot.isLt
  exact fits_mkI (by decide) (by decide) (by decide) (by decide) t.offset.isLt (by omega)
theorem brx (h : Hdr) (a : Opnd) (table : BitVec 16) (count : BitVec 8) : Statement (.brx h a table count) := fits_lane rfl fun _ _ => by
  have := table.isLt; have := count.isLt
  refine fits_mk' ?_ ?_ ?_ ?_ ?_ ?_ ?_ <;> first | exact Opnd.code_lt _ | decide | omega
theorem call (h : Hdr) (d : Opnd) (t : Target) : Statement (.call h d t) := fits_lane rfl fun _ _ => by
  have := t.slot.isLt
  exact fits_mkI (by decide) (by decide) (Opnd.code_lt _) (by decide) t.offset.isLt (by omega)
theorem callImp (h : Hdr) (d : Opnd) (index : BitVec 32) : Statement (.callImp h d index) :=
    fits_lane rfl fun _ _ => fits_mkI (by decide) (by decide) (Opnd.code_lt _) (by decide) index.isLt (by decide)
theorem ret (h : Hdr) (a : Opnd) : Statement (.ret h a) := fits_lane rfl fun _ _ => by
  refine fits_mk' ?_ ?_ ?_ ?_ ?_ ?_ ?_ <;> first | exact Opnd.code_lt _ | decide
theorem exit (h : Hdr) : Statement (.exit h) := fits_lane rfl fun _ _ => by
  refine fits_mk0 ?_ ?_ ?_ <;> first | exact Opnd.code_lt _ | decide
theorem exitTo (h : Hdr) (a : Opnd) : Statement (.exitTo h a) := fits_lane rfl fun _ _ => by
  refine fits_mk' ?_ ?_ ?_ ?_ ?_ ?_ ?_ <;> first | exact Opnd.code_lt _ | decide
theorem region (h : Hdr) : Statement (.region h) := fits_lane rfl fun _ _ => by
  refine fits_mk0 ?_ ?_ ?_ <;> first | exact Opnd.code_lt _ | decide
theorem yield (h : Hdr) : Statement (.yield h) := fits_lane rfl fun _ _ => by
  refine fits_mk0 ?_ ?_ ?_ <;> first | exact Opnd.code_lt _ | decide
theorem nop (pred : BitVec 4) (pneg : Bool) : Statement (.nop pred pneg) := fits_lane rfl fun _ _ => by
  have := pred.isLt; have := Bool.toNat_lt pneg
  refine fits_mk0 ?_ ?_ ?_ <;> first | exact Opnd.code_lt _ | decide | omega
theorem trap (h : Hdr) (n : BitVec 16) : Statement (.trap h n) := fits_lane rfl fun _ _ => by
  have := n.isLt
  refine fits_mk0 ?_ ?_ ?_ <;> first | exact Opnd.code_lt _ | decide | omega
theorem syscall (h : Hdr) (n : BitVec 16) : Statement (.syscall h n) := fits_lane rfl fun _ _ => by
  have := n.isLt
  refine fits_mk0 ?_ ?_ ?_ <;> first | exact Opnd.code_lt _ | decide | omega
theorem hcall (h : Hdr) (n : BitVec 16) : Statement (.hcall h n) := fits_lane rfl fun _ _ => by
  have := n.isLt
  refine fits_mk0 ?_ ?_ ?_ <;> first | exact Opnd.code_lt _ | decide | omega
theorem brk (h : Hdr) (n : BitVec 16) : Statement (.brk h n) := fits_lane rfl fun _ _ => by
  have := n.isLt
  refine fits_mk0 ?_ ?_ ?_ <;> first | exact Opnd.code_lt _ | decide | omega
theorem shfl (h : Hdr) (m : ShflMode) (d a : Opnd) (k : ShflK) (grp : Fin 6) (pd : PredOpt) : Statement (.shfl h m d a k grp pd) :=
    fits_lane rfl fun _ _ => by
  have := ShflMode.code_lt m; have := grp.isLt; have := PredOpt.code_le pd; 
  cases k with
  | reg o => exact fits_mk3 (by decide) (by omega) (by omega)
  | const c => have := c.isLt; exact fits_mk2 (by decide) (by omega) (by omega)
theorem vote (h : Hdr) (m : VoteMode) (d : Opnd) (ps : PredOpt) (psn : Bool) (pd : PredOpt) : Statement (.vote h m d ps psn pd) :=
    fits_lane rfl fun _ _ => by
  have := VoteMode.code_lt m; have := PredOpt.code_le ps; have := Bool.toNat_lt psn; have := PredOpt.code_le pd
  refine fits_mk' ?_ ?_ ?_ ?_ ?_ ?_ ?_ <;> first | exact Opnd.code_lt _ | decide | omega
theorem redux (h : Hdr) (op : RedOp) (d a : Opnd) : Statement (.redux h op d a) := fits_lane rfl fun _ _ => by
  have := RedOp.code_lt op
  refine fits_mk2 ?_ ?_ ?_ <;> first | exact Opnd.code_lt _ | decide | omega
theorem scan (h : Hdr) (op : RedOp) (excl : Bool) (d a : Opnd) : Statement (.scan h op excl d a) := fits_lane rfl fun _ _ => by
  have := RedOp.code_lt op; have := Bool.toNat_lt excl
  refine fits_mk2 ?_ ?_ ?_ <;> first | exact Opnd.code_lt _ | decide | omega
theorem matchq (h : Hdr) (wide : Bool) (d a : Opnd) (pd : PredOpt) : Statement (.matchq h wide d a pd) := fits_lane rfl fun _ _ => by
  have := Bool.toNat_lt wide; have := PredOpt.code_le pd
  refine fits_mk2 ?_ ?_ ?_ <;> first | exact Opnd.code_lt _ | decide | omega
theorem barArrive (h : Hdr) (c : Clause) (l : BarLevel) (num : BitVec 6) (pr : PredOpt) : Statement (.barArrive h c l num pr) :=
    fits_lane rfl fun _ _ => by
  have := Clause.code_lt c; have := BarLevel.code_lt l; have := num.isLt; have := PredOpt.code_le pr
  refine fits_mk0 ?_ ?_ ?_ <;> first | exact Opnd.code_lt _ | decide | omega
theorem barWait (h : Hdr) (c : Clause) (l : BarLevel) (num : BitVec 6) (pr : PredOpt) : Statement (.barWait h c l num pr) :=
    fits_lane rfl fun _ _ => by
  have := Clause.code_lt c; have := BarLevel.code_lt l; have := num.isLt; have := PredOpt.code_le pr
  refine fits_mk0 ?_ ?_ ?_ <;> first | exact Opnd.code_lt _ | decide | omega
theorem barSync (h : Hdr) (c : Clause) (l : BarLevel) (num : BitVec 6) : Statement (.barSync h c l num) := fits_lane rfl fun _ _ => by
  have := Clause.code_lt c; have := BarLevel.code_lt l; have := num.isLt
  refine fits_mk0 ?_ ?_ ?_ <;> first | exact Opnd.code_lt _ | decide | omega
theorem wait (h : Hdr) (all : Bool) (n : Fin 4) (d a : Opnd) (c : Clause) (wmask : BitVec 4) (pt : PredOpt)
    : Statement (.wait h all n d a c wmask pt) := fits_lane rfl fun _ _ => by
  have := Bool.toNat_lt all; have := n.isLt; have := Clause.code_lt c; have := wmask.isLt; have := PredOpt.code_le pt
  refine fits_mk2 ?_ ?_ ?_ <;> first | exact Opnd.code_lt _ | decide | omega
theorem waits (h : Hdr) (stream : Fin 8) (n : BitVec 6) : Statement (.waits h stream n) := fits_lane rfl fun _ _ => by
  have := stream.isLt; have := n.isLt
  refine fits_mk0 ?_ ?_ ?_ <;> first | exact Opnd.code_lt _ | decide | omega
theorem chkb (h : Hdr) (signed : Bool) (s : Size) (a b c : Opnd) : Statement (.chkb h signed s a b c) := fits_lane rfl fun _ _ => by
  have := Bool.toNat_lt signed; have := Size.code_lt s
  refine fits_mk' ?_ ?_ ?_ ?_ ?_ ?_ ?_ <;> first | exact Opnd.code_lt _ | decide | omega
theorem chkt (h : Hdr) (a : Opnd) (b : SrcB) : Statement (.chkt h a b) := fits_lane rfl fun _ hw => by
  cases b with
  | reg o => exact fits_mk' (by decide) (by decide) (by decide) (Opnd.code_lt _) (Opnd.code_lt _) (by decide) (by decide)
  | imm i =>
    simp only [Instr.wf, chktOk, Bool.and_eq_true, decide_eq_true_eq] at hw
    exact fits_mk' (by decide) (by decide) (by decide) (Opnd.code_lt _) (by decide) (by decide) (by omega)
theorem chkl (h : Hdr) (a b : Opnd) : Statement (.chkl h a b) := fits_lane rfl fun _ _ => by
  refine fits_mk' ?_ ?_ ?_ ?_ ?_ ?_ ?_ <;> first | exact Opnd.code_lt _ | decide
theorem ldP (h : Hdr) (p : Policy) (s : Size) (d : Opnd) (m : MemArg) : Statement (.ldP h p s d m) := fits_lane rfl fun _ _ => by
  have := Policy.code_lt p; have := Size.code_lt s
  refine fits_mkM ?_ ?_ ?_ ?_ ?_ ?_ <;> first | exact Opnd.code_lt _ | decide | omega
theorem stP (h : Hdr) (p : Policy) (s : Size) (b : Opnd) (m : MemArg) : Statement (.stP h p s b m) := fits_lane rfl fun _ _ => by
  have := Policy.code_lt p; have := Size.code_lt s
  refine fits_mkM ?_ ?_ ?_ ?_ ?_ ?_ <;> first | exact Opnd.code_lt _ | decide | omega
theorem ldS (h : Hdr) (s : Size) (d : Opnd) (m : MemArg) : Statement (.ldS h s d m) := fits_lane rfl fun _ _ => by
  have := Size.code_lt s
  refine fits_mkM ?_ ?_ ?_ ?_ ?_ ?_ <;> first | exact Opnd.code_lt _ | decide | omega
theorem stS (h : Hdr) (s : Size) (b : Opnd) (m : MemArg) : Statement (.stS h s b m) := fits_lane rfl fun _ _ => by
  have := Size.code_lt s
  refine fits_mkM ?_ ?_ ?_ ?_ ?_ ?_ <;> first | exact Opnd.code_lt _ | decide | omega
theorem atomS (h : Hdr) (op : AtomOp) (w : AWidth) (d b : Opnd) (m : MemArg) : Statement (.atomS h op w d b m) :=
    fits_lane rfl fun _ _ => by
  have := AtomOp.code_lt op; have := AWidth.code_lt w
  refine fits_mkM ?_ ?_ ?_ ?_ ?_ ?_ <;> first | exact Opnd.code_lt _ | decide | omega
theorem casS (h : Hdr) (w : AWidth) (d b : Opnd) (pd : PredOpt) (m : MemArg) : Statement (.casS h w d b pd m) := fits_lane rfl fun _ _ => by
  have := AWidth.code_lt w; have := PredOpt.code_le pd
  refine fits_mkM ?_ ?_ ?_ ?_ ?_ ?_ <;> first | exact Opnd.code_lt _ | decide | omega
theorem ldK (h : Hdr) (s : Size) (d : Opnd) (m : MemArg) : Statement (.ldK h s d m) := fits_lane rfl fun _ _ => by
  have := Size.code_lt s
  refine fits_mkM ?_ ?_ ?_ ?_ ?_ ?_ <;> first | exact Opnd.code_lt _ | decide | omega
theorem copy (h : Hdr) (src : CopySrc) (win : Option (Fin 64)) (chan : Fin 8) (a b : Opnd) (e : EngArg)
    : Statement (.copy h src win chan a b e) := fits_lane rfl fun _ _ => by
  have := CopySrc.code_lt src; have := chan.isLt; have := EngArg.code_lt e; have := Bool.toNat_lt win.isSome
  cases win with
  | none => exact fits_mk' (by decide) (by omega) (by decide) (Opnd.code_lt _) (Opnd.code_lt _) (by decide) (by simp only []; omega)
  | some w => have := w.isLt; exact fits_mk' (by decide) (by omega) (by decide) (Opnd.code_lt _) (Opnd.code_lt _) (by decide) (by simp only []; omega)
theorem cpwp (h : Hdr) (chan : Fin 8) (d : Opnd) : Statement (.cpwp h chan d) := fits_lane rfl fun _ _ => by
  have := chan.isLt
  refine fits_mk' ?_ ?_ ?_ ?_ ?_ ?_ ?_ <;> first | exact Opnd.code_lt _ | decide | omega
theorem cpcancel (h : Hdr) (chan : Fin 8) (e : EngArg) : Statement (.cpcancel h chan e) := fits_lane rfl fun _ _ => by
  have := chan.isLt; have := EngArg.code_lt e
  refine fits_mk0 ?_ ?_ ?_ <;> first | exact Opnd.code_lt _ | decide | omega
theorem ldN (h : Hdr) (s : Size) (d : Opnd) (m : MemArg) : Statement (.ldN h s d m) := fits_lane rfl fun _ _ => by
  have := Size.code_lt s
  refine fits_mkM ?_ ?_ ?_ ?_ ?_ ?_ <;> first | exact Opnd.code_lt _ | decide | omega
theorem stN (h : Hdr) (s : Size) (b : Opnd) (m : MemArg) : Statement (.stN h s b m) := fits_lane rfl fun _ _ => by
  have := Size.code_lt s
  refine fits_mkM ?_ ?_ ?_ ?_ ?_ ?_ <;> first | exact Opnd.code_lt _ | decide | omega
theorem ldV (h : Hdr) (shd : Bool) (s : Size) (d : Opnd) (m : MemArg) : Statement (.ldV h shd s d m) := fits_lane rfl fun _ _ => by
  have := Bool.toNat_lt shd; have := Size.code_lt s
  refine fits_mkM ?_ ?_ ?_ ?_ ?_ ?_ <;> first | exact Opnd.code_lt _ | decide | omega
theorem stV (h : Hdr) (shd : Bool) (s : Size) (b : Opnd) (m : MemArg) : Statement (.stV h shd s b m) := fits_lane rfl fun _ _ => by
  have := Bool.toNat_lt shd; have := Size.code_lt s
  refine fits_mkM ?_ ?_ ?_ ?_ ?_ ?_ <;> first | exact Opnd.code_lt _ | decide | omega
theorem atomV (h : Hdr) (op : AtomOp) (w : AWidth) (d b : Opnd) (m : MemArg) : Statement (.atomV h op w d b m) :=
    fits_lane rfl fun _ _ => by
  have := AtomOp.code_lt op; have := AWidth.code_lt w
  refine fits_mkM ?_ ?_ ?_ ?_ ?_ ?_ <;> first | exact Opnd.code_lt _ | decide | omega
theorem casV (h : Hdr) (w : AWidth) (d b : Opnd) (pd : PredOpt) (m : MemArg) : Statement (.casV h w d b pd m) := fits_lane rfl fun _ _ => by
  have := AWidth.code_lt w; have := PredOpt.code_le pd
  refine fits_mkM ?_ ?_ ?_ ?_ ?_ ?_ <;> first | exact Opnd.code_lt _ | decide | omega
theorem taskPost (h : Hdr) (d a : Opnd) (e : EngArg) : Statement (.taskPost h d a e) := fits_lane rfl fun _ _ => by
  have := EngArg.code_lt e
  refine fits_mk2 ?_ ?_ ?_ <;> first | exact Opnd.code_lt _ | decide | omega
theorem taskDec (h : Hdr) (a : Opnd) (e : EngArg) : Statement (.taskDec h a e) := fits_lane rfl fun _ _ => by
  have := EngArg.code_lt e
  refine fits_mk' ?_ ?_ ?_ ?_ ?_ ?_ ?_ <;> first | exact Opnd.code_lt _ | decide | omega
theorem taskStatT (h : Hdr) (d a : Opnd) : Statement (.taskStatT h d a) := fits_lane rfl fun _ _ => by
  refine fits_mk2 ?_ ?_ ?_ <;> first | exact Opnd.code_lt _ | decide
theorem taskStatW (h : Hdr) (d : Opnd) (win : Fin 64) : Statement (.taskStatW h d win) := fits_lane rfl fun _ _ => by
  have := win.isLt
  refine fits_mk' ?_ ?_ ?_ ?_ ?_ ?_ ?_ <;> first | exact Opnd.code_lt _ | decide | omega
theorem taskStatQ (h : Hdr) (d : Opnd) (q : Fin 7) : Statement (.taskStatQ h d q) := fits_lane rfl fun _ _ => by
  have := q.isLt
  refine fits_mk' ?_ ?_ ?_ ?_ ?_ ?_ ?_ <;> first | exact Opnd.code_lt _ | decide | omega
theorem emit (h : Hdr) (a : Opnd) (pd : PredOpt) (e : EngArg) : Statement (.emit h a pd e) := fits_lane rfl fun _ _ => by
  have := PredOpt.code_le pd; have := EngArg.code_lt e
  refine fits_mk' ?_ ?_ ?_ ?_ ?_ ?_ ?_ <;> first | exact Opnd.code_lt _ | decide | omega
theorem pubw (h : Hdr) (win : Fin 64) (e : EngArg) : Statement (.pubw h win e) := fits_lane rfl fun _ _ => by
  have := win.isLt; have := EngArg.code_lt e
  refine fits_mk0 ?_ ?_ ?_ <;> first | exact Opnd.code_lt _ | decide | omega
theorem ldG (h : Hdr) (p : Policy) (shd : Bool) (s : Size) (d : Opnd) (m : MemArg) : Statement (.ldG h p shd s d m) :=
    fits_lane rfl fun _ _ => by
  have := Policy.code_lt p; have := Bool.toNat_lt shd; have := Size.code_lt s
  refine fits_mkM ?_ ?_ ?_ ?_ ?_ ?_ <;> first | exact Opnd.code_lt _ | decide | omega
theorem stG (h : Hdr) (p : Policy) (shd : Bool) (s : Size) (b : Opnd) (m : MemArg) : Statement (.stG h p shd s b m) :=
    fits_lane rfl fun _ _ => by
  have := Policy.code_lt p; have := Bool.toNat_lt shd; have := Size.code_lt s
  refine fits_mkM ?_ ?_ ?_ ?_ ?_ ?_ <;> first | exact Opnd.code_lt _ | decide | omega
theorem atomG (h : Hdr) (op : AtomOp) (w : AWidth) (d b : Opnd) (m : MemArg) : Statement (.atomG h op w d b m) :=
    fits_lane rfl fun _ _ => by
  have := AtomOp.code_lt op; have := AWidth.code_lt w
  refine fits_mkM ?_ ?_ ?_ ?_ ?_ ?_ <;> first | exact Opnd.code_lt _ | decide | omega
theorem casG (h : Hdr) (w : AWidth) (d b : Opnd) (pd : PredOpt) (m : MemArg) : Statement (.casG h w d b pd m) := fits_lane rfl fun _ _ => by
  have := AWidth.code_lt w; have := PredOpt.code_le pd
  refine fits_mkM ?_ ?_ ?_ ?_ ?_ ?_ <;> first | exact Opnd.code_lt _ | decide | omega
theorem redG (h : Hdr) (op : AtomOp) (w : AWidth) (b : Opnd) (m : MemArg) : Statement (.redG h op w b m) := fits_lane rfl fun _ _ => by
  have := AtomOp.code_lt op; have := AWidth.code_lt w
  refine fits_mkM ?_ ?_ ?_ ?_ ?_ ?_ <;> first | exact Opnd.code_lt _ | decide | omega
theorem hintL2 (h : Hdr) (b : Opnd) (m : MemArg) : Statement (.hintL2 h b m) := fits_lane rfl fun _ _ => by
  refine fits_mkM ?_ ?_ ?_ ?_ ?_ ?_ <;> first | exact Opnd.code_lt _ | decide
theorem hintL1 (h : Hdr) (b : Opnd) (m : MemArg) : Statement (.hintL1 h b m) := fits_lane rfl fun _ _ => by
  refine fits_mkM ?_ ?_ ?_ ?_ ?_ ?_ <;> first | exact Opnd.code_lt _ | decide
theorem hintLru (h : Hdr) (b : Opnd) (m : MemArg) : Statement (.hintLru h b m) := fits_lane rfl fun _ _ => by
  refine fits_mkM ?_ ?_ ?_ ?_ ?_ ?_ <;> first | exact Opnd.code_lt _ | decide
theorem cwbL2 (h : Hdr) (b : Opnd) (m : MemArg) : Statement (.cwbL2 h b m) := fits_lane rfl fun _ _ => by
  refine fits_mkM ?_ ?_ ?_ ?_ ?_ ?_ <;> first | exact Opnd.code_lt _ | decide
theorem cwbMem (h : Hdr) (b : Opnd) (m : MemArg) : Statement (.cwbMem h b m) := fits_lane rfl fun _ _ => by
  refine fits_mkM ?_ ?_ ?_ ?_ ?_ ?_ <;> first | exact Opnd.code_lt _ | decide
theorem cinvL1 (h : Hdr) (b : Opnd) (m : MemArg) : Statement (.cinvL1 h b m) := fits_lane rfl fun _ _ => by
  refine fits_mkM ?_ ?_ ?_ ?_ ?_ ?_ <;> first | exact Opnd.code_lt _ | decide
theorem cinvL2 (h : Hdr) (b : Opnd) (m : MemArg) : Statement (.cinvL2 h b m) := fits_lane rfl fun _ _ => by
  refine fits_mkM ?_ ?_ ?_ ?_ ?_ ?_ <;> first | exact Opnd.code_lt _ | decide
theorem iinv (h : Hdr) (b : Opnd) (m : MemArg) : Statement (.iinv h b m) := fits_lane rfl fun _ _ => by
  refine fits_mkM ?_ ?_ ?_ ?_ ?_ ?_ <;> first | exact Opnd.code_lt _ | decide
theorem fbar (h : Hdr) (c : Clause) : Statement (.fbar h c) := fits_lane rfl fun _ _ => by
  have := Clause.code_lt c
  refine fits_mk0 ?_ ?_ ?_ <;> first | exact Opnd.code_lt _ | decide | omega
theorem ldH (h : Hdr) (s : Size) (d : Opnd) (m : MemArg) : Statement (.ldH h s d m) := fits_lane rfl fun _ _ => by
  have := Size.code_lt s
  refine fits_mkM ?_ ?_ ?_ ?_ ?_ ?_ <;> first | exact Opnd.code_lt _ | decide | omega
theorem stH (h : Hdr) (s : Size) (b : Opnd) (m : MemArg) : Statement (.stH h s b m) := fits_lane rfl fun _ _ => by
  have := Size.code_lt s
  refine fits_mkM ?_ ?_ ?_ ?_ ?_ ?_ <;> first | exact Opnd.code_lt _ | decide | omega
theorem atomH (h : Hdr) (op : HostOp) (d b : Opnd) (pd : PredOpt) (m : MemArg) : Statement (.atomH h op d b pd m) :=
    fits_lane rfl fun _ _ => by
  have := HostOp.code_lt op; have := PredOpt.code_le pd; have := HostOp.size_lt op
  refine fits_mkM ?_ ?_ ?_ ?_ ?_ ?_ <;> first | exact Opnd.code_lt _ | decide | omega
theorem ldF (h : Hdr) (s : Size) (d : Opnd) (m : MemArg) : Statement (.ldF h s d m) := fits_lane rfl fun _ _ => by
  have := Size.code_lt s
  refine fits_mkM ?_ ?_ ?_ ?_ ?_ ?_ <;> first | exact Opnd.code_lt _ | decide | omega
theorem stF (h : Hdr) (s : Size) (b : Opnd) (m : MemArg) : Statement (.stF h s b m) := fits_lane rfl fun _ _ => by
  have := Size.code_lt s
  refine fits_mkM ?_ ?_ ?_ ?_ ?_ ?_ <;> first | exact Opnd.code_lt _ | decide | omega
theorem atomF (h : Hdr) (op : FabOp) (w : AWidth) (d b : Opnd) (pd : PredOpt) (m : MemArg) : Statement (.atomF h op w d b pd m) :=
    fits_lane rfl fun _ _ => by
  have := FabOp.code_lt op; have := AWidth.code_lt w; have := PredOpt.code_le pd
  refine fits_mkM ?_ ?_ ?_ ?_ ?_ ?_ <;> first | exact Opnd.code_lt _ | decide | omega
theorem copyFGet (h : Hdr) (chan : Fin 8) (a b : Opnd) (e : EngArg) : Statement (.copyFGet h chan a b e) := fits_lane rfl fun _ _ => by
  have := chan.isLt; have := EngArg.code_lt e
  refine fits_mk' ?_ ?_ ?_ ?_ ?_ ?_ ?_ <;> first | exact Opnd.code_lt _ | decide | omega
theorem copyFGetw (h : Hdr) (win : Fin 64) (chan : Fin 8) (a b : Opnd) (e : EngArg) : Statement (.copyFGetw h win chan a b e) :=
    fits_lane rfl fun _ _ => by
  have := win.isLt; have := chan.isLt; have := EngArg.code_lt e
  refine fits_mk' ?_ ?_ ?_ ?_ ?_ ?_ ?_ <;> first | exact Opnd.code_lt _ | decide | omega
theorem copyFPut (h : Hdr) (chan : Fin 8) (a b : Opnd) (e : EngArg) : Statement (.copyFPut h chan a b e) := fits_lane rfl fun _ _ => by
  have := chan.isLt; have := EngArg.code_lt e
  refine fits_mk' ?_ ?_ ?_ ?_ ?_ ?_ ?_ <;> first | exact Opnd.code_lt _ | decide | omega
theorem rdsr (h : Hdr) (d : Opnd) (r : SReg) : Statement (.rdsr h d r) := fits_lane rfl fun _ _ => by
  have := SReg.code_lt r
  refine fits_mk' ?_ ?_ ?_ ?_ ?_ ?_ ?_ <;> first | exact Opnd.code_lt _ | decide | omega
theorem wrsr (h : Hdr) (r : SReg) (a : Opnd) : Statement (.wrsr h r a) := fits_lane rfl fun _ _ => by
  have := SReg.code_lt r
  refine fits_mk' ?_ ?_ ?_ ?_ ?_ ?_ ?_ <;> first | exact Opnd.code_lt _ | decide | omega
theorem sret (h : Hdr) : Statement (.sret h) := fits_lane rfl fun _ _ => by
  refine fits_mk0 ?_ ?_ ?_ <;> first | exact Opnd.code_lt _ | decide
theorem hret (h : Hdr) : Statement (.hret h) := fits_lane rfl fun _ _ => by
  refine fits_mk0 ?_ ?_ ?_ <;> first | exact Opnd.code_lt _ | decide
theorem tlbinvVa (h : Hdr) (a b : Opnd) : Statement (.tlbinvVa h a b) := fits_lane rfl fun _ _ => by
  refine fits_mk' ?_ ?_ ?_ ?_ ?_ ?_ ?_ <;> first | exact Opnd.code_lt _ | decide
theorem tlbinvCtx (h : Hdr) : Statement (.tlbinvCtx h) := fits_lane rfl fun _ _ => by
  refine fits_mk0 ?_ ?_ ?_ <;> first | exact Opnd.code_lt _ | decide
theorem tlbinvGpa (h : Hdr) (a b : Opnd) : Statement (.tlbinvGpa h a b) := fits_lane rfl fun _ _ => by
  refine fits_mk' ?_ ?_ ?_ ?_ ?_ ?_ ?_ <;> first | exact Opnd.code_lt _ | decide
theorem tlbinvVf (h : Hdr) : Statement (.tlbinvVf h) := fits_lane rfl fun _ _ => by
  refine fits_mk0 ?_ ?_ ?_ <;> first | exact Opnd.code_lt _ | decide
theorem ctxsave (h : Hdr) (force : Bool) (d a c : Opnd) : Statement (.ctxsave h force d a c) := fits_lane rfl fun _ _ => by
  have := Bool.toNat_lt force
  refine fits_mk' ?_ ?_ ?_ ?_ ?_ ?_ ?_ <;> first | exact Opnd.code_lt _ | decide | omega
theorem ctxload (h : Hdr) (d a c : Opnd) : Statement (.ctxload h d a c) := fits_lane rfl fun _ _ => by
  refine fits_mk' ?_ ?_ ?_ ?_ ?_ ?_ ?_ <;> first | exact Opnd.code_lt _ | decide
theorem launchRun (h : Hdr) (d a b : Opnd) : Statement (.launchRun h d a b) := fits_lane rfl fun _ _ => by
  refine fits_mk3 ?_ ?_ ?_ <;> first | exact Opnd.code_lt _ | decide
theorem launchAdm (h : Hdr) (d a : Opnd) : Statement (.launchAdm h d a) := fits_lane rfl fun _ _ => by
  refine fits_mk2 ?_ ?_ ?_ <;> first | exact Opnd.code_lt _ | decide
theorem frmset (h : Hdr) (d a b : Opnd) : Statement (.frmset h d a b) := fits_lane rfl fun _ _ => by
  refine fits_mk3 ?_ ?_ ?_ <;> first | exact Opnd.code_lt _ | decide
theorem l2partSet (h : Hdr) (d a b : Opnd) : Statement (.l2partSet h d a b) := fits_lane rfl fun _ _ => by
  refine fits_mk3 ?_ ?_ ?_ <;> first | exact Opnd.code_lt _ | decide
theorem l2partMask (h : Hdr) (d a : Opnd) : Statement (.l2partMask h d a) := fits_lane rfl fun _ _ => by
  refine fits_mk2 ?_ ?_ ?_ <;> first | exact Opnd.code_lt _ | decide
theorem l2partOcc (h : Hdr) (d a b : Opnd) : Statement (.l2partOcc h d a b) := fits_lane rfl fun _ _ => by
  refine fits_mk3 ?_ ?_ ?_ <;> first | exact Opnd.code_lt _ | decide
theorem l2partHit (h : Hdr) (d a b : Opnd) : Statement (.l2partHit h d a b) := fits_lane rfl fun _ _ => by
  refine fits_mk3 ?_ ?_ ?_ <;> first | exact Opnd.code_lt _ | decide
theorem l2partMiss (h : Hdr) (d a b : Opnd) : Statement (.l2partMiss h d a b) := fits_lane rfl fun _ _ => by
  refine fits_mk3 ?_ ?_ ?_ <;> first | exact Opnd.code_lt _ | decide
theorem l2partClr (h : Hdr) (m : L2Mode) (d a b : Opnd) : Statement (.l2partClr h m d a b) := fits_lane rfl fun _ _ => by
  have := L2Mode.code_lt m
  refine fits_mk3 ?_ ?_ ?_ <;> first | exact Opnd.code_lt _ | decide | omega
theorem keyopLoad (h : Hdr) (d a b : Opnd) : Statement (.keyopLoad h d a b) := fits_lane rfl fun _ _ => by
  refine fits_mk3 ?_ ?_ ?_ <;> first | exact Opnd.code_lt _ | decide
theorem keyopErase (h : Hdr) (d a b : Opnd) : Statement (.keyopErase h d a b) := fits_lane rfl fun _ _ => by
  refine fits_mk3 ?_ ?_ ?_ <;> first | exact Opnd.code_lt _ | decide
theorem keyopAttest (h : Hdr) (d a b : Opnd) : Statement (.keyopAttest h d a b) := fits_lane rfl fun _ _ => by
  refine fits_mk3 ?_ ?_ ?_ <;> first | exact Opnd.code_lt _ | decide
theorem halt (h : Hdr) (s : BitVec 8) : Statement (.halt h s) := fits_lane rfl fun _ _ => by
  have := s.isLt
  refine fits_mk0 ?_ ?_ ?_ <;> first | exact Opnd.code_lt _ | decide | omega
theorem lanepc (h : Hdr) (a b : Opnd) : Statement (.lanepc h a b) := fits_lane rfl fun _ _ => by
  refine fits_mk' ?_ ?_ ?_ ?_ ?_ ?_ ?_ <;> first | exact Opnd.code_lt _ | decide
theorem lanestRel (h : Hdr) (a : Opnd) : Statement (.lanestRel h a) := fits_lane rfl fun _ _ => by
  refine fits_mk' ?_ ?_ ?_ ?_ ?_ ?_ ?_ <;> first | exact Opnd.code_lt _ | decide
theorem lanestHold (h : Hdr) (a : Opnd) : Statement (.lanestHold h a) := fits_lane rfl fun _ _ => by
  refine fits_mk' ?_ ?_ ?_ ?_ ?_ ?_ ?_ <;> first | exact Opnd.code_lt _ | decide
theorem lanestExit (h : Hdr) (a : Opnd) : Statement (.lanestExit h a) := fits_lane rfl fun _ _ => by
  refine fits_mk' ?_ ?_ ?_ ?_ ?_ ?_ ?_ <;> first | exact Opnd.code_lt _ | decide
theorem lineFetch (core gang : Nat) : Statement (.lineFetch core gang) := fits_event rfl
theorem memoryOpComplete (crew op : Nat) : Statement (.memoryOpComplete crew op) := fits_event rfl
theorem barrierPhaseComplete (bar : BarId) : Statement (.barrierPhaseComplete bar) := fits_event rfl
theorem waitConditionMet (crew gang lane : Nat) : Statement (.waitConditionMet crew gang lane) := fits_event rfl
theorem waitTimeout (crew gang lane : Nat) : Statement (.waitTimeout crew gang lane) := fits_event rfl
theorem copyBegin (crew chan : Nat) : Statement (.copyBegin crew chan) := fits_event rfl
theorem copyDelivery (crew chan bytes : Nat) : Statement (.copyDelivery crew chan bytes) := fits_event rfl
theorem copyComplete (crew chan : Nat) : Statement (.copyComplete crew chan) := fits_event rfl
theorem taskIssue (camp engine : Nat) : Statement (.taskIssue camp engine) := fits_event rfl
theorem mmaF (crew entry : Nat) : Statement (.mmaF crew entry) := fits_event rfl
theorem mmaQ (crew entry : Nat) : Statement (.mmaQ crew entry) := fits_event rfl
theorem hadam (crew entry : Nat) : Statement (.hadam crew entry) := fits_event rfl
theorem tileQuant (crew entry : Nat) : Statement (.tileQuant crew entry) := fits_event rfl
theorem xpose (crew entry : Nat) : Statement (.xpose crew entry) := fits_event rfl
theorem acc (crew entry : Nat) : Statement (.acc crew entry) := fits_event rfl
theorem fill (crew entry : Nat) : Statement (.fill crew entry) := fits_event rfl
theorem stage (crew entry : Nat) : Statement (.stage crew entry) := fits_event rfl
theorem stagingAdmit (crew entry w : Nat) : Statement (.stagingAdmit crew entry w) := fits_event rfl
theorem stagingArrive (crew entry w : Nat) : Statement (.stagingArrive crew entry w) := fits_event rfl
theorem emitPushHeld (crew op : Nat) : Statement (.emitPushHeld crew op) := fits_event rfl
theorem crewPlace (launch core : Nat) : Statement (.crewPlace launch core) := fits_event rfl
theorem crewResume (crew core : Nat) : Statement (.crewResume crew core) := fits_event rfl
theorem gangRetire (crew gang : Nat) : Statement (.gangRetire crew gang) := fits_event rfl
theorem successorStart (crew : Nat) : Statement (.successorStart crew) := fits_event rfl
theorem quantumExpiry (crew : Nat) : Statement (.quantumExpiry crew) := fits_event rfl
theorem deadlineExpiry (crew : Nat) : Statement (.deadlineExpiry crew) := fits_event rfl
theorem crewSave (crew : Nat) : Statement (.crewSave crew) := fits_event rfl
theorem pageRequestSend (vf : Nat) : Statement (.pageRequestSend vf) := fits_event rfl
theorem pageResponseSuccess (vf prg : Nat) : Statement (.pageResponseSuccess vf prg) := fits_event rfl
theorem pageResponseInvalid (vf prg : Nat) : Statement (.pageResponseInvalid vf prg) := fits_event rfl
theorem pageResponseFailure (vf prg : Nat) : Statement (.pageResponseFailure vf prg) := fits_event rfl
theorem hostCompletion (crew op : Nat) (how : HostEnd) : Statement (.hostCompletion crew op how) := fits_event rfl
theorem hostCompletionTimeout (crew op : Nat) : Statement (.hostCompletionTimeout crew op) := fits_event rfl
theorem fabricTimeout (crew op : Nat) : Statement (.fabricTimeout crew op) := fits_event rfl
theorem fabricResponse (crew op : Nat) (how : FabEnd) : Statement (.fabricResponse crew op how) := fits_event rfl
theorem flitCheckFail (link : Nat) : Statement (.flitCheckFail link) := fits_event rfl
theorem linkDown (link : Nat) : Statement (.linkDown link) := fits_event rfl
theorem linkTrained (link : Nat) : Statement (.linkTrained link) := fits_event rfl
theorem trapRingRoom (vf ctx : Nat) : Statement (.trapRingRoom vf ctx) := fits_event rfl
theorem bindingComplete (vf ctx index : Nat) : Statement (.bindingComplete vf ctx index) := fits_event rfl
theorem graderWalk (tract : Nat) : Statement (.graderWalk tract) := fits_event rfl
theorem readmit (tract : Nat) : Statement (.readmit tract) := fits_event rfl
theorem release (tract : Nat) : Statement (.release tract) := fits_event rfl
theorem launchTake (vf ctx queue : Nat) : Statement (.launchTake vf ctx queue) := fits_event rfl
theorem launchCompletion (launch : Nat) : Statement (.launchCompletion launch) := fits_event rfl
theorem gcmCheckFail (launch va : Nat) : Statement (.gcmCheckFail launch va) := fits_event rfl
theorem admprod (vf value : Nat) : Statement (.admprod vf value) := fits_event rfl
theorem lqdb (vf value : Nat) : Statement (.lqdb vf value) := fits_event rfl
theorem priclr (vf value : Nat) : Statement (.priclr vf value) := fits_event rfl
theorem linkctl (link value : Nat) : Statement (.linkctl link value) := fits_event rfl
theorem linkstFailedClear (link value : Nat) : Statement (.linkstFailedClear link value) := fits_event rfl
theorem logctlEn (vf value : Nat) : Statement (.logctlEn vf value) := fits_event rfl
theorem logctlOvfClear (vf value : Nat) : Statement (.logctlOvfClear vf value) := fits_event rfl
theorem logctlAlldirtyClear (vf value : Nat) : Statement (.logctlAlldirtyClear vf value) := fits_event rfl
theorem logctlStop (vf value : Nat) : Statement (.logctlStop vf value) := fits_event rfl
theorem vfControlWrite (vf : Nat) (r : VfReg) (value : Nat) : Statement (.vfControlWrite vf r value) := fits_event rfl
theorem registerWrite (vf offset value : Nat) : Statement (.registerWrite vf offset value) := fits_event rfl
theorem hostInboundWrite (pa : Nat) (bytes : List (BitVec 8)) : Statement (.hostInboundWrite pa bytes) := fits_event rfl
theorem debugStop (core gang : Nat) : Statement (.debugStop core gang) := fits_event rfl
theorem debugResume (core gang : Nat) : Statement (.debugResume core gang) := fits_event rfl
theorem debugRead (core gang : Nat) (item : DbgItem) : Statement (.debugRead core gang item) := fits_event rfl
theorem debugWrite (core gang : Nat) (item : DbgItem) (value : Nat) : Statement (.debugWrite core gang item value) := fits_event rfl
theorem lockInterfaceRequest (vf : Nat) : Statement (.lockInterfaceRequest vf) := fits_event rfl
theorem startInterfaceRequest (vf : Nat) : Statement (.startInterfaceRequest vf) := fits_event rfl
theorem stopInterfaceRequest (vf : Nat) : Statement (.stopInterfaceRequest vf) := fits_event rfl
theorem ideStreamFailure (vf : Nat) : Statement (.ideStreamFailure vf) := fits_event rfl
theorem functionLevelReset (vf : Nat) : Statement (.functionLevelReset vf) := fits_event rfl
theorem reset : Statement (.reset) := fits_event rfl
theorem systemInstructionComplete (crew gang lane : Nat) : Statement (.systemInstructionComplete crew gang lane) := fits_event rfl
theorem launchCancel (launch : Nat) : Statement (.launchCancel launch) := fits_event rfl
theorem unitReady (unit : Nat) : Statement (.unitReady unit) := fits_event rfl
theorem healthPredictionUpdate (item value : Nat) : Statement (.healthPredictionUpdate item value) := fits_event rfl
theorem firmwareImageLoad (image : List (BitVec 8)) : Statement (.firmwareImageLoad image) := fits_event rfl

end FieldsFit

end Laws

end Sys2Proof
end

