-- ==== Sys2Proof/Laws/System.lean ====
section
/-!
SUPPORT. What issuing a system instruction leaves.
-/

namespace Sys2Proof.Machine

/-- The lanes of a system instruction, each acting as `act` says. -/
theorem sysLanes_acts {f : State → Nat → SysOut} {act : State → Nat → SysOut → Prop} (hf : ∀ u l o, act u l o → o = f u l)
    {st : Nat → Option Nat} {wt : Nat → SysKind} {s : State} {ls : List Nat} {t : State} (h : Acts act st wt s ls t) :
    sysLanes f s ls = (t, ls.map (fun l => (l, ({ words := (st l).toList.map word32, preds := [], flags := 0#6 } : LaneOut))),
      ls.map fun l => { lane := l, kind := wt l }) := by
  induction ls generalizing s with
  | nil => cases h; rfl
  | cons l ls ih =>
    obtain ⟨u, hu, hr⟩ := h
    have := hf _ _ _ hu
    simp only [sysLanes, ← this, ih hr, List.map_cons]
    cases st l <;> rfl

/-- A lane that takes a status, and its registers as they stood, is the lane. -/
theorem laneAfter_status (h : Hdr) (d : Opnd) (ws : List Word) (x : Lane) :
    { laneAfter h d { words := ws, preds := [], flags := 0#6 } x with regs := x.regs } = x := by
  have e : ∀ r, ({ writeRegs x r ws with regs := x.regs } : Lane) = x := by
    intro r
    obtain ⟨h1, h2, h3, h4, h5, h6, h7⟩ := writeRegs_same x r ws
    cases x; simp_all
  unfold laneAfter
  have : ({ writePreds x [] with fpstat := x.fpstat ||| 0#6 } : Lane) = x := by simp [writePreds]
  simp only [this]
  cases h.nwb <;> cases d <;> simp [e]

/-- A system instruction whose lanes act as `act` says issues. -/
theorem issueSys_issues {i : Instr} {h : Hdr} {d : Opnd} {uses : List (Opnd × Nat)} {act : State → Issue → State → Nat → SysOut → Prop}
    (f : State → Issue → State → Nat → SysOut) (he : ∀ s, exec i s = issueSys s h d uses (f s))
    (hf : ∀ s x u l o, act s x u l o → o = f s x u l) : SysIssues i h d uses act := by
  intro s x t st wt hr ha hb
  have hs := sysLanes_acts (hf s x) ha
  rw [he, issueSys, issueSwitch_ready _ hr]
  simp only [hs]
  refine ⟨fun c hc ht => ?_, fun hc => ?_⟩
  · simp only [hc, ht, Bool.false_eq_true, if_false, finishSwitch_nil]
    obtain ⟨lanes, gs, e1, hlen, hlane, hg⟩ := writeOuts_spec (c.gang x.k) h (lowest (x.execs h)) d (x.execs h).lanes
      (fun l => { words := (st l).toList.map word32, preds := [], flags := 0#6 }) (LaneMask.nodup_lanes _)
    refine ⟨lanes, gs, ?_, hlen, ?_, ?_, ?_⟩
    · rw [e1, finish_next (by simpa using hb)]
    · intro l q hl
      have := hlane l
      unfold Gang.lane at *
      rw [this]
      by_cases hm : (x.execs h).getLsbD l = true
      · have := (LaneMask.mem_lanes (x.execs h) l).mpr hm
        rw [if_pos ⟨this, hl⟩, laneAfter_reg, hm]
      · have hn : ¬ l ∈ (x.execs h).lanes := fun k => hm ((LaneMask.mem_lanes _ _).mp k)
        rw [if_neg (fun k => hn k.1)]
        cases d <;> simp [regAfter, hm]
    · intro l hl
      rw [hlane l]
      split
      · exact laneAfter_status ..
      · rfl
    · intro q
      rw [hg]
      by_cases hm : x.execs h = 0#32
      · have : ¬ lowest (x.execs h) ∈ (x.execs h).lanes := by
          rw [hm]; simp [LaneMask.lanes]
        rw [if_neg this, hm]
        cases d <;> simp [gregAfter]
      · rw [if_pos (lowest_mem hm)]
        rw [show (x.execs h != 0#32) = true by simpa using hm]
  · cases hc' : t.crew? x.c.uid with
    | none => simp only; rw [finish_next (by simpa using hb)]
    | some c => simp only [hc c hc', if_true]; rw [finish_next (by simpa using hb)]

/-- The classes that a lane may name (R316). -/
theorem mayName_iff (s : State) (x : Issue) (l c : Nat) (set : Bool) : mayName s x l c set = true ↔
    c ≤ 15 ∧ ((x.g.lane l).mode = .hyper ∨ c = (s.launchOf x.c).desc.cls ∧ ¬(set = true ∧ c = 15)) := by
  cases set <;> simp [mayName]

end Sys2Proof.Machine
end

