-- ==== Sys2Proof/Laws/Traps.lean ====
section
/-!
SUPPORT. Taking traps that all enter a handler: what lanes, frontier and memory hold afterwards (R96).
-/

namespace Sys2Proof.Machine

/-- The traps of a list of lanes, each of which enters a vector in a mode, taken in turn. -/
theorem trapLanes_enter (ls : List Nat) (trap : Nat → Trap) (fin : Nat → TrapEnd) (prio : Nat) (g : Gang) (mode : Nat → Mode)
    (vec : Nat → Pc) (ht : ∀ l ∈ ls, (trap l).lane = l) (hf : ∀ l ∈ ls, ∃ vp legal, fin l = .enter (mode l) (vec l) vp legal)
    (hn : ls.Nodup) (h32 : ∀ l ∈ ls, l < 32) :
    ∃ lanes fr ill, (ls.map fun l => (trap l, fin l)).foldl (fun g e => trapLane g e.1 prio e.2) g =
        { g with lanes := lanes, frontier := fr, illegal := ill } ∧ lanes.length = g.lanes.length ∧
      (∀ j, lanes.getD j Lane.blank =
        if j ∈ ls ∧ j < g.lanes.length then (g.lane j).enter (trap j) prio (mode j) else g.lane j) ∧
      ∀ j pc, standsAt fr j pc ↔ (j ∈ ls ∧ pc = vec j) ∨ standsAt g.frontier j pc := by
  induction ls generalizing g with
  | nil => exact ⟨g.lanes, g.frontier, g.illegal, rfl, rfl, by simp [Gang.lane], by simp⟩
  | cons a as ih =>
    obtain ⟨ha, hn'⟩ := List.nodup_cons.mp hn
    obtain ⟨vp, legal, hfa⟩ := hf a List.mem_cons_self
    have hta := ht a List.mem_cons_self
    obtain ⟨lanes, fr, ill, e1, hlen, hl, hs⟩ := ih (trapLane g (trap a) prio (fin a)) (fun l h => ht l (List.mem_cons_of_mem _ h))
      (fun l h => hf l (List.mem_cons_of_mem _ h)) hn' (fun l h => h32 l (List.mem_cons_of_mem _ h))
    refine ⟨lanes, fr, ill, ?_, ?_, ?_, ?_⟩
    · rw [List.map_cons, List.foldl_cons, e1, hfa]; rfl
    · rw [hlen, hfa]; simp [trapLane, Gang.mapLane]
    · intro j
      rw [hl]
      have el : (trapLane g (trap a) prio (fin a)).lane j =
          if j = a ∧ j < g.lanes.length then (g.lane j).enter (trap a) prio (mode a) else g.lane j := by
        rw [hfa]; simp only [trapLane, hta]
        exact Gang.mapLane_lane g a j _
      have ell : (trapLane g (trap a) prio (fin a)).lanes.length = g.lanes.length := by
        rw [hfa]; simp [trapLane, Gang.mapLane]
      rw [el, ell]
      simp only [List.mem_cons]
      by_cases e : j = a
      · subst e; simp [ha]
      · simp [e]
    · intro j pc
      rw [hs]
      have ef : (trapLane g (trap a) prio (fin a)).frontier =
          addEntry { pc := vec a, band := (mode a).band, prio := vp, mask := LaneMask.one a, busy := false } g.frontier := by
        rw [hfa]; simp [trapLane, hta]
      rw [ef, addEntry_standsAt]
      simp only [getLsbD_one, List.mem_cons, Bool.and_eq_true, decide_eq_true_eq]
      have := h32 a List.mem_cons_self
      constructor
      · rintro (h | ⟨⟨_, rfl⟩, rfl⟩ | h)
        · exact .inl ⟨.inr h.1, h.2⟩
        · exact .inl ⟨.inl rfl, rfl⟩
        · exact .inr h
      · rintro (⟨rfl | h, rfl⟩ | h)
        · exact .inr (.inl ⟨⟨this, rfl⟩, rfl⟩)
        · exact .inl ⟨h, rfl⟩
        · exact .inr (.inr h)

theorem dropLanes_standsAt (m : LaneMask) (fr : List Entry) (l : Nat) (pc : Pc) :
    standsAt (dropLanes m fr) l pc ↔ m.getLsbD l = false ∧ standsAt fr l pc := by
  unfold dropLanes
  rw [filter_standsAt]
  unfold standsAt
  simp only [List.mem_map]
  constructor
  · rintro ⟨_, ⟨e, he, rfl⟩, h1, h2⟩
    simp only [BitVec.getLsbD_and, BitVec.getLsbD_not, Bool.and_eq_true, Bool.not_eq_true', decide_eq_true_eq] at h1
    exact ⟨h1.2.2, e, he, h1.1, h2⟩
  · rintro ⟨h0, e, he, h1, h2⟩
    refine ⟨_, ⟨e, he, rfl⟩, ?_, h2⟩
    have hlt : l < 32 := by
      refine Decidable.byContradiction fun hh => ?_
      rw [BitVec.getLsbD_of_ge _ _ (by omega)] at h1; cases h1
    simp only [BitVec.getLsbD_and, BitVec.getLsbD_not, h1, h0, hlt]; rfl

/-- A trap of a lane enters its handler: no more than depth 2, a vector, and registers enough for its block (R96 to R98, R357). -/
theorem trapEnd_enter {s : State} {c : Crew} {l : Lane} {t : Trap} (h : Handled s c l t.cause) :
    ∃ vp legal, trapEnd s c l t = .enter (trapMode t.cause l.mode) (handlerOf s c l t.cause) vp legal := by
  obtain ⟨hd, hv, hr⟩ := h
  unfold handlerOf at hv hr ⊢
  unfold trapEnd
  rw [if_neg (by omega), if_neg hv]
  cases e : blockAt s (s.launchOf c).vf (s.launchOf c).ctx
      (vectorOf (s.ctxAt (s.launchOf c).vf (s.launchOf c).ctx) (trapMode t.cause l.mode)) with
  | none => exact ⟨_, _, rfl⟩
  | some b =>
    cases eb : b.ventry with
    | none => refine ⟨b.prio, ?_⟩; simp only [eb]; exact ⟨_, rfl⟩
    | some r =>
      refine ⟨b.prio, ?_⟩
      simp only [eb]
      rw [if_neg (by have := hr b r e eb; omega)]
      exact ⟨_, rfl⟩

/-- The end of a switch point whose trapping lanes all enter a handler. -/
theorem finishSwitch_enter {s : State} {x : Issue} (c : Crew) (groups : List Entry) (m : LaneMask) (trap : Nat → Trap)
    (hk : x.k < c.gangs.length) (hl : c.launch = x.c.launch) (hr : c.regs = x.c.regs)
    (ht : ∀ l ∈ m.lanes, (trap l).lane = l) (hh : ∀ l ∈ m.lanes, Handled s x.c ((c.gang x.k).lane l) (trap l).cause) :
    ∃ g, finishSwitch s s x c groups (m.lanes.map trap) = { s.setCrew (c.setGang x.k g) with draws := s.draws + 1 } ∧
      g.lanes.length = (c.gang x.k).lanes.length ∧
      (∀ j, g.lane j = if m.getLsbD j = true ∧ j < (c.gang x.k).lanes.length then
        ((c.gang x.k).lane j).enter (trap j) x.e.prio (trapMode (trap j).cause ((c.gang x.k).lane j).mode)
        else (c.gang x.k).lane j) ∧
      ∀ j pc, g.at j pc ↔ (m.getLsbD j = true ∧ pc = handlerOf s x.c ((c.gang x.k).lane j) (trap j).cause) ∨
        (m.getLsbD j = false ∧ (standsAt groups j pc ∨ standsAt (c.gang x.k).frontier.tail j pc)) := by
  have h32 : ∀ l ∈ m.lanes, l < 32 := fun l hl => by simp [LaneMask.lanes, laneNumbers] at hl; exact hl.1
  let c1 := c.mapGang x.k fun g => regroup g groups
  have hg1 : c1.gang x.k = regroup (c.gang x.k) groups := by simp [c1, Crew.mapGang_gang, hk]
  have hlane : ∀ j, (c1.gang x.k).lane j = (c.gang x.k).lane j := by intro j; rw [hg1]; rfl
  have hend : ∀ l ∈ m.lanes, ∃ vp legal, trapEnd (s.setCrew c1) c1 ((c1.gang x.k).lane l) (trap l) =
      .enter (trapMode (trap l).cause ((c.gang x.k).lane l).mode) (handlerOf s x.c ((c.gang x.k).lane l) (trap l).cause) vp legal := by
    intro l hl'
    have e : trapEnd (s.setCrew c1) c1 ((c1.gang x.k).lane l) (trap l) = trapEnd s x.c ((c.gang x.k).lane l) (trap l) := by
      rw [hlane]
      unfold trapEnd
      have : (s.setCrew c1).launchOf c1 = s.launchOf x.c := by
        simp only [State.launchOf, c1, Crew.mapGang, hl]; rfl
      rw [this]
      have hr' : c1.regs = x.c.regs := hr
      rw [hr']
      rfl
    rw [e]; exact trapEnd_enter (hh l hl')
  have hm : (m.lanes.map trap).map (fun t => (t, trapEnd (s.setCrew c1) c1 ((c1.gang x.k).lane t.lane) t)) =
      m.lanes.map fun l => (trap l, trapEnd (s.setCrew c1) c1 ((c1.gang x.k).lane l) (trap l)) := by
    rw [List.map_map]
    apply List.map_congr_left
    intro l hl'; simp [ht l hl']
  have hmask : LaneMask.ofList ((m.lanes.map trap).map (·.lane)) = m := by
    apply BitVec.eq_of_getLsbD_eq
    intro j hj
    rw [LaneMask.getLsbD_ofList]
    have : j ∈ (m.lanes.map trap).map (·.lane) ↔ m.getLsbD j = true := by
      rw [← LaneMask.mem_lanes]
      simp only [List.mem_map]
      constructor
      · rintro ⟨_, ⟨l, hl', rfl⟩, rfl⟩; rw [ht l hl']; exact hl'
      · intro h; exact ⟨_, ⟨j, h, rfl⟩, ht j h⟩
    simp only [this, hj, decide_true, Bool.true_and, Bool.decide_eq_true]
  have hrec : ∀ es : List (Trap × TrapEnd), (∀ e ∈ es, ∃ a b c d, e.2 = .enter a b c d) → trapRecords c1 x.k es = [] := by
    intro es hes
    have : es.flatMap (fun e => trapRecord c1 x.k e.1 e.2) = [] := by
      rw [List.flatMap_eq_nil_iff]; intro e he; obtain ⟨a, b, c, d, h⟩ := hes e he; rw [h]; rfl
    simp [trapRecords, this]
  obtain ⟨lanes, fr, ill, e1, hlen, hla, hst⟩ := trapLanes_enter m.lanes trap
    (fun l => trapEnd (s.setCrew c1) c1 ((c1.gang x.k).lane l) (trap l)) x.e.prio
    { c1.gang x.k with frontier := dropLanes m (c1.gang x.k).frontier, chosen := false, paired := false }
    (fun l => trapMode (trap l).cause ((c.gang x.k).lane l).mode)
    (fun l => handlerOf s x.c ((c.gang x.k).lane l) (trap l).cause) ht hend (LaneMask.nodup_lanes _) h32
  refine ⟨{ c1.gang x.k with lanes := lanes, frontier := fr, illegal := ill, chosen := false, paired := false }, ?_, ?_, ?_, ?_⟩
  · show (match takeTraps (s.setCrew c1) c1 x.k x.e.prio (m.lanes.map trap) with
      | some t => _
      | none => _) = _
    have : takeTraps (s.setCrew c1) c1 x.k x.e.prio (m.lanes.map trap) = some ((s.setCrew c1).setCrew (c1.setGang x.k
        { c1.gang x.k with lanes := lanes, frontier := fr, illegal := ill, chosen := false, paired := false })) := by
      unfold takeTraps
      simp only [hm, hmask]
      rw [hrec _ (by
        intro e he; obtain ⟨l, hl', rfl⟩ := List.mem_map.mp he
        obtain ⟨a, b, h⟩ := hend l hl'; exact ⟨_, _, _, _, h⟩)]
      simp only [List.isEmpty_nil, Bool.true_or, if_true, giveRecords_nil, id]
      rw [e1]
    rw [this]
    simp only [State.setCrew_draws]
    rw [State.setCrew_setCrew _ _ _ (by rfl)]
    have e : ∀ G, c1.setGang x.k G = c.setGang x.k G := fun G => by simp only [Crew.setGang, c1, Crew.mapGang_mapGang]
    rw [e]
  · show lanes.length = _
    rw [hlen]; show (c1.gang x.k).lanes.length = _; rw [hg1]; rfl
  · intro j
    refine (hla j).trans ?_
    have e2 : ({ c1.gang x.k with frontier := dropLanes m (c1.gang x.k).frontier, chosen := false, paired := false } : Gang).lane j =
        (c.gang x.k).lane j := hlane j
    have e3 : ({ c1.gang x.k with frontier := dropLanes m (c1.gang x.k).frontier, chosen := false, paired := false } : Gang).lanes.length =
        (c.gang x.k).lanes.length := by show (c1.gang x.k).lanes.length = _; rw [hg1]; rfl
    rw [e2, e3]
    simp only [LaneMask.mem_lanes]
  · intro j pc
    refine (hst j pc).trans ?_
    simp only [LaneMask.mem_lanes]
    apply or_congr Iff.rfl
    rw [dropLanes_standsAt, hg1]
    apply and_congr Iff.rfl
    exact addEntries_standsAt _ _ _ _

/-! Which lanes trap. -/

theorem lanes_ofList_filter (m : LaneMask) (p : Nat → Bool) : (LaneMask.ofList (m.lanes.filter p)).lanes = m.lanes.filter p := by
  simp only [LaneMask.lanes, List.filter_filter]
  apply List.filter_congr
  intro l hl
  have : l < 32 := by simpa [laneNumbers] using hl
  rw [LaneMask.getLsbD_ofList]
  simp only [List.mem_filter, hl, true_and, this, decide_true, Bool.true_and]
  rw [Bool.and_comm]
  exact Bool.decide_eq_true

theorem which_lanes (x : Issue) (h : Hdr) (p : Nat → Bool) : (x.which h p).lanes = (x.execs h).lanes.filter p :=
  lanes_ofList_filter _ _

theorem which_getLsbD (x : Issue) (h : Hdr) (p : Nat → Bool) (l : Nat) :
    (x.which h p).getLsbD l = ((x.execs h).getLsbD l && p l) := by
  have h1 : l ∈ (x.which h p).lanes ↔ l ∈ (x.execs h).lanes.filter p := by rw [which_lanes]
  simp only [List.mem_filter, LaneMask.mem_lanes] at h1
  cases e : (x.which h p).getLsbD l <;> cases e1 : (x.execs h).getLsbD l <;> cases e2 : p l <;> simp_all

/-- Traps picked from the executing lanes are the traps of the lanes that a test picks. -/
theorem filterMap_which (x : Issue) (h : Hdr) (f : Nat → Option Trap) (p : Nat → Bool) (trap : Nat → Trap)
    (hf : ∀ l ∈ (x.execs h).lanes, f l = if p l then some (trap l) else none) :
    (x.execs h).lanes.filterMap f = (x.which h p).lanes.map trap := by
  rw [which_lanes]
  generalize (x.execs h).lanes = ls at hf
  induction ls with
  | nil => rfl
  | cons a as ih =>
    have h1 := hf a List.mem_cons_self
    have h2 := ih fun l hl => hf l (List.mem_cons_of_mem _ hl)
    cases e : p a
    · rw [e] at h1
      rw [List.filterMap_cons, h1, List.filter_cons, e]
      simpa using h2
    · rw [e] at h1
      rw [List.filterMap_cons, h1, List.filter_cons, e]
      simpa using h2

theorem trapMask_map (m : LaneMask) (trap : Nat → Trap) (ht : ∀ l ∈ m.lanes, (trap l).lane = l) : trapMask (m.lanes.map trap) = m := by
  apply BitVec.eq_of_getLsbD_eq
  intro j hj
  rw [trapMask, LaneMask.getLsbD_ofList]
  have : j ∈ (m.lanes.map trap).map (·.lane) ↔ m.getLsbD j = true := by
    rw [← LaneMask.mem_lanes]
    simp only [List.mem_map]
    constructor
    · rintro ⟨_, ⟨l, hl', rfl⟩, rfl⟩; rw [ht l hl']; exact hl'
    · intro h; exact ⟨_, ⟨j, h, rfl⟩, ht j h⟩
  simp only [this, hj, decide_true, Bool.true_and, Bool.decide_eq_true]

/-- An instruction at a switch point that ends in traps which all enter handlers. -/
theorem issueSwitch_traps {s : State} {x : Issue} {h : Hdr} {uses : List (Opnd × Nat)} (F : Issue → LaneMask → State)
    (g0 : Gang) (groups : List Entry) (m : LaneMask) (trap : Nat → Trap) (before : Nat → Lane) (rest : Nat → Pc → Prop)
    (hr : ReadySwitch s x h uses []) (hF : F x (x.execs h) = finishSwitch s s x (x.c.setGang x.k g0) groups (m.lanes.map trap))
    (ht : ∀ l ∈ m.lanes, (trap l).lane = l) (hh : ∀ l ∈ m.lanes, Handled s x.c (before l) (trap l).cause)
    (hlen : g0.lanes.length = x.g.lanes.length) (hb : ∀ l, g0.lane l = before l) (hf : g0.frontier = x.g.frontier)
    (hs : ∀ l pc, m.getLsbD l = false → (standsAt groups l pc ↔ rest l pc)) :
    ∃ t, issueSwitch s h uses [] F = .next t ∧ Trapped s t x m trap before rest := by
  have hx := issuing_spec hr.ready.issues
  have hk := hx.2.2.1
  have hg : (x.c.setGang x.k g0).gang x.k = g0 := by simp [Crew.setGang, Crew.mapGang_gang, hk]
  obtain ⟨g, e, h1, h2, h3⟩ := finishSwitch_enter (s := s) (x := x) (x.c.setGang x.k g0) groups m trap
    (by simpa [Crew.setGang] using hk) rfl rfl ht (by intro l hl; rw [hg, hb]; exact hh l hl)
  rw [hg] at h1 h2 h3
  have e2 : (x.c.setGang x.k g0).setGang x.k g = x.c.setGang x.k g := by simp only [Crew.setGang, Crew.mapGang_mapGang]
  rw [e2] at e
  have hn : x.now { s.setCrew (x.c.setGang x.k g) with draws := s.draws + 1 } = g := now_setGang hr.ready.issues g
  refine ⟨_, issueSwitch_switched F _ hr (hF.trans e) (by exact hr.ready.stored), ⟨g, rfl⟩, ?_, ?_⟩
  · intro l hl
    rw [hn, h2, hlen, hb]
    simp only [hl, and_true]
    rfl
  · intro l pc
    rw [hn, h3, hb, hf]
    constructor
    · rintro (h | ⟨ha, h | h⟩)
      · exact .inl h
      · exact .inr ⟨ha, .inl ((hs l pc ha).mp h)⟩
      · exact .inr ⟨ha, .inr h⟩
    · rintro (h | ⟨ha, h | h⟩)
      · exact .inl h
      · exact .inr ⟨ha, .inl ((hs l pc ha).mpr h)⟩
      · exact .inr ⟨ha, .inr h⟩

end Sys2Proof.Machine
end

