-- ==== Sys2Proof/Tests/Slice0.lean ====
section
/-!
SUPPORT. Tests: words that decode, terms that are no instructions, single steps, and for every statement a state and operands that meet
its hypotheses.
-/

namespace Sys2Proof.Machine.Tests

-- one theorem at a time: a kernel decision waits for every declaration before it
set_option Elab.async false


/-! Words that decode. Each is a row of the encoding tables with its fields put in their places, and stands for its constructor. -/

theorem test_words_0 : ∀ x ∈ (
    [ (0x0000F0000A004017FF000000, .add .plain .i32 (.v 5) (.v 1) (.reg (.v 2)))
    , (0x0063F0000C00BFFFFFFC0000, .sub .plain .n64 (.v 6) (.v 2) (.imm 0xFFFFFFF0))
    , (0x0083F00010000027FF0000F1, .addc .plain .n64 (.v 8) (.v 0) (.reg (.v 4)) none (some 1))
    , (0x00E0F000100000000001C02F, .subb .plain .i32 (.v 8) (.v 0) (.imm 7) (some 2) none)
    , (0x0104F0000791F03FFF000000, .mul .plain .i16x2 (.v 3) (.g 63) (.reg (.b 7)))
    , (0x0140F00FFF7FFFFFFF000000, .mulh .plain .i32 .vz (.v 1535) (.reg .vz))
    , (0x0185F0000200801804000000, .mad .plain .n16x2 (.v 1) (.v 2) (.v 3) (.v 4))
    , (0x01C3F0000401003008000000, .madh .plain .n64 (.v 2) (.v 4) (.v 6) (.v 8))
    , (0x0207F0000200801FFF000000, .min .plain .n8x4 (.v 1) (.v 2) (.reg (.v 3)))
    , (0x0266F0000200A00000004000, .max .plain .i8x4 (.v 1) (.v 2) (.imm 0x80000001))
    , (0x0282F00004013FFFFF000000, .abs .plain .i64 (.v 2) (.v 4))
    , (0x02C7F00004013FFFFF000000, .neg .plain .n8x4 (.v 2) (.v 4))
    , (0x0304F0000401004FFF000000, .adds .plain .i16x2 (.v 2) (.v 4) (.reg (.v 9)))
    , (0x0361F0000401000000014000, .subs .plain .n32 (.v 2) (.v 4) (.imm 5))
    , (0x0387F0000401002806000000, .sad .plain .n8x4 (.v 2) (.v 4) (.v 5) (.v 6))
    , (0x03E1F0000400400000000011, .cmp .plain .n32 (.v 2) (.v 1) (.imm 0) .ne .none (some 1))
    , (0x03C6F0000400401FFF003E5F, .cmp .plain .i8x4 (.v 2) (.v 1) (.reg (.v 3)) .ge (.xor 14) none)
    , (0x0422F00004013FFFFFFC0000, .and .plain .i64 (.v 2) (.v 4) (.imm 0xFFFFFFF0))
    , (0x0441F00004010037FF000000, .or .plain .n32 (.v 2) (.v 4) (.reg (.v 6)))
    , (0x0480F00004010037FF000000, .xor .plain .i32 (.v 2) (.v 4) (.reg (.v 6)))
    , (0x04C3F00004010037FF000000, .andn .plain .n64 (.v 2) (.v 4) (.reg (.v 6)))
    , (0x0501F00004013FFFFF000000, .not .plain .n32 (.v 2) (.v 4))] : List (Nat × Instr)), decodeTableWord 96 x.1 = some x.2 := by
  decide +kernel

theorem test_words_1 : ∀ x ∈ (
    [ (0x0541F0000A00401003000096, .lop3 .plain .n32 (.v 5) (.v 1) (.v 2) (.v 3) 0x96)
    , (0x05A7F000040100000000C000, .shl .plain .n8x4 (.v 2) (.v 4) (.imm 3))
    , (0x05C0F00004010037FF000000, .shr .plain .i32 (.v 2) (.v 4) (.reg (.v 6)))
    , (0x0601F00004010037FF000000, .sar .plain .n32 (.v 2) (.v 4) (.reg (.v 6)))
    , (0x0663F0000401000000104000, .rot .plain .n64 (.v 2) (.v 4) (.imm 65))
    , (0x06A1F0000401000001020000, .bfx .plain .n32 (.v 2) (.v 4) (.imm 0x0408))
    , (0x06C1F0000401002806000000, .bfi .plain .n32 (.v 2) (.v 4) (.v 5) (.v 6))
    , (0x0703F00004013FFFFF000000, .popc .plain .n64 (.v 2) (.v 4))
    , (0x0741F00004013FFFFF000000, .clz .plain .n32 (.v 2) (.v 4))
    , (0x0780F00004013FFFFF000000, .ctz .plain .i32 (.v 2) (.v 4))
    , (0x07C1F00004013FFFFF000000, .brev .plain .n32 (.v 2) (.v 4))
    , (0x0804F0000401002806000000, .sel .plain .i16x2 (.v 2) (.v 4) (.v 5) (.v 6))
    , (0x0841F00C10013FFFFF000000, .mov .plain .n32 (.g 0) (.v 4))
    , (0x08A1F0000FFFF7AB6FBBC000, .movi .plain .n32 (.v 7) 0xDEADBEEF)
    , (0x08C3F0001402001FFF000002, .lea .plain .n64 (.v 10) (.v 8) (.reg (.v 3)) false 2)
    , (0x08E1F00014023FFFFFFF800C, .lea .plain .n32 (.v 10) (.v 8) (.imm 0xFFFFFFFE) true 4)
    , (0x0906F0000200801804000001, .dp4 .plain .i8x4 (.v 1) (.v 2) (.v 3) (.v 4) true)
    , (0x2000F0001780002FFF000002, .fadd .plain .rn (.v 11) (.b 0) (.reg (.v 5)) ⟨false, true, false, false, false, false⟩)
    , (0x2061F00016004FE000000009, .fsub .plain .rz (.v 11) (.v 1) (.imm 0x3F800000) ⟨true, false, false, true, false, false⟩)
    , (0x2084F00016004017FF000000, .fmul .plain .ra (.v 11) (.v 1) (.reg (.v 2)) .none)
    , (0x20C3F0002800801804000021, .fma .plain .rm (.v 20) (.v 2) (.v 3) (.v 4) ⟨true, false, false, false, false, true⟩)
    , (0x2100F0000200801FFF000040, .fmin .plain (.v 1) (.v 2) (.reg (.v 3)) .none true)] : List (Nat × Instr)), decodeTableWord 96 x.1 = some x.2 := by
  decide +kernel

theorem test_words_2 : ∀ x ∈ (
    [ (0x2160F0000200901000000000, .fmax .plain (.v 1) (.v 2) (.imm 0x40400000) .none false)
    , (0x2190F0000200801FFF0014D5, .fcmp .plain .bf16x2 (.v 1) (.v 2) (.reg (.v 3)) .geu (.and 4) (some 5))
    , (0x21CAF0000200BFFFFF000040, .frnd .plain .f16x2 .rp (.v 1) (.v 2) true)
    , (0x2200F00FFE01FFFFFF000033, .fclass .plain .f32 .vz (.v 7) 3 (some 3))
    , (0x2240F0000200BFFFFF000000, .rcp .plain .rn (.v 1) (.v 2))
    , (0x2281F0000200BFFFFF000000, .rsqrt .plain .rz (.v 1) (.v 2))
    , (0x22C2F0000200BFFFFF000000, .sqrt .plain .rp (.v 1) (.v 2))
    , (0x2303F0000200BFFFFF000000, .exp2 .plain .rm (.v 1) (.v 2))
    , (0x2344F0000200BFFFFF000000, .log2 .plain .ra (.v 1) (.v 2))
    , (0x2380F0000200BFFFFF000000, .sinpi .plain .rn (.v 1) (.v 2))
    , (0x23C1F0000200BFFFFF000000, .cospi .plain .rz (.v 1) (.v 2))
    , (0x2420F0000A013FFFFFDAC000, .fscale .plain .rn (.v 5) (.v 4) (.imm 0xFFFFFF6B))
    , (0x2440F0000A013FFFFF000000, .fexp .plain (.v 5) (.v 4))
    , (0x2488F0000A01001FFF000000, .hadd2 .plain .f16x2 .rn (.v 5) (.v 4) (.reg (.v 3)) .none)
    , (0x24F2F0000A010FE00FE00000, .hmul2 .plain .bf16x2 .rp (.v 5) (.v 4) (.imm 0x3F803F80) .none)
    , (0x2513F0000A01001802000014, .hfma2 .plain .bf16x2 .rm (.v 5) (.v 4) (.v 3) (.v 2) ⟨false, false, true, false, true, false⟩)
    , (0x2548F0000A01001FFF000000, .hmin2 .plain .f16x2 (.v 5) (.v 4) (.reg (.v 3)) .none false)
    , (0x2590F0000A01001FFF000040, .hmax2 .plain .bf16x2 (.v 5) (.v 4) (.reg (.v 3)) .none true)
    , (0x25C9F0000A01001802000000, .fdot2 .plain .f16x2 .rz (.v 5) (.v 4) (.v 3) (.v 2) .none)
    , (0x2600F0000A01001802000080, .fdot4 .plain .rn (.v 5) (.v 4) (.v 3) (.v 2) .none false true)
    , (0x4008F0000600BFFFFF000008, .cvt .plain .i32 .f32 0 false true .rn (.v 3) (.v 2))
    , (0x4010F0000600BFFFFF000070, .cvt .plain .n8 .i32 0 true false .rn (.v 3) (.v 2))] : List (Nat × Instr)), decodeTableWord 96 x.1 = some x.2 := by
  decide +kernel

theorem test_words_3 : ∀ x ∈ (
    [ (0x4001F0000600BFFFFF00079F, .cvt .plain .f16 .f4e2 7 false false .rz (.v 3) (.v 2))
    , (0x4045F00008004017FF000001, .pack .plain .f32bf16 .rz (.v 4) (.v 1) (.v 2))
    , (0x4084F0000A013FFFFF000001, .unpack .plain .f32f16 1 (.v 5) (.v 4))
    , (0x408CF0000A013FFFFF000003, .unpack .plain .f16f4e2 3 (.v 5) (.v 4))
    , (0x40C3F00014003FFFFF000002, .plsplit .plain 3 2 (.v 10) (.v 0))
    , (0x4103F00020023FFFFF000001, .plmerge .plain 3 1 (.v 16) (.v 8))
    , (0x4140F000020080180400000E, .quant .plain false .rn 3 2 (.v 1) (.v 2) (.v 3) (.v 4))
    , (0x418AF0000200801FFF000003, .dequant .plain true .rp 3 (.v 1) (.v 2) (.v 3))
    , (0x41C0F0000200801FFF018820, .prmt .plain (.v 1) (.v 2) (.v 3) (.const 0x18820))
    , (0x41C0F0000200801804100000, .prmt .plain (.v 1) (.v 2) (.v 3) (.reg (.v 4)))
    , (0x5000F00FFFFFFFFFFFFFE000, .bra .plain ⟨0xFFFFFFFF, 4⟩)
    , (0x5040F00FFE027FFFFF012345, .brx .plain (.v 9) 0x123 0x45)
    , (0x5080F0003DFFC0000000D000, .call .plain (.v 30) ⟨3, 2⟩)
    , (0x5080F0003DFFC00000018400, .callImp .plain (.v 30) 6)
    , (0x50C0F00FFE07BFFFFF000000, .ret .plain (.v 30))
    , (0x5100F00FFFFFFFFFFF000000, .exit .plain)
    , (0x5140F00FFE00FFFFFF000000, .exitTo .plain (.v 3))
    , (0x5180F00FFFFFFFFFFF000000, .region .plain)
    , (0x51C0F00FFFFFFFFFFF000000, .yield .plain)
    , (0x5200F00FFFFFFFFFFF000000, .nop 15 false)
    , (0x5240F00FFFFFFFFFFF000011, .trap .plain 17)
    , (0x5280F00FFFFFFFFFFF000002, .syscall .plain 2)] : List (Nat × Instr)), decodeTableWord 96 x.1 = some x.2 := by
  decide +kernel

theorem test_words_4 : ∀ x ∈ (
    [ (0x52C0F00FFFFFFFFFFF000003, .hcall .plain 3)
    , (0x5300F00FFFFFFFFFFF00FFFF, .brk .plain 65535)
    , (0x6003F0000200BFFFFF00077F, .shfl .plain .swz (.v 1) (.v 2) (.const 0x1F) 5 (some 3))
    , (0x6001F0000200801FFF001E80, .shfl .plain .rot (.v 1) (.v 2) (.reg (.v 3)) 2 none)
    , (0x6043F00FFFFFFFFFFF000601, .vote .plain .odd .vz (some 1) false (some 6))
    , (0x6088F0000200BFFFFF000000, .redux .plain .fadd (.v 1) (.v 2))
    , (0x60C0F0000600BFFFFF000001, .scan .plain .add true (.v 3) (.v 2))
    , (0x6101F0000600BFFFFF000000, .matchq .plain true (.v 3) (.v 2) (some 0))
    , (0x6140F00FFFFFFFFFFF404404, .barArrive .plain ⟨2, 2⟩ .crew 0 (some 4))
    , (0x6180F00FFFFFFFFFFF6017F4, .barWait .plain ⟨3, 0⟩ .fabric 63 (some 4))
    , (0x61C0F00FFFFFFFFFFF20243F, .barSync .plain ⟨1, 1⟩ .crew 3)
    , (0x6203F00006013FFFFF208027, .wait .plain true 1 (.v 3) (.v 4) ⟨1, 4⟩ 2 (some 7))
    , (0x6240F00FFFFFFFFFFFA003FF, .waits .plain 5 63)
    , (0x6281F00FFE00401003000005, .chkb .plain true .b64 (.v 1) (.v 2) (.v 3))
    , (0x62C0F00FFE007FFFFF01ABCD, .chkt .plain (.v 1) (.imm 0xABCD))
    , (0x62C0F00FFE004017FF000000, .chkt .plain (.v 1) (.reg (.v 2)))
    , (0x6300F00FFE004017FF000000, .chkl .plain (.v 1) (.v 2))
    , (0x7021F0000200BFFFFF2020C0, .ldP .plain .strm .i16 (.v 1) ⟨.v 2, .imm 0x7FF, ⟨1, 1⟩, .gang⟩)
    , (0x7042F00FFE008027FF202180, .stP .plain .l2 .b128 (.v 4) ⟨.v 2, .reg .vz, ⟨1, 1⟩, .gang⟩)
    , (0x7080F0000E023FFFFF010500, .ldS .plain .b32 (.v 7) ⟨.v 8, .reg .vz, ⟨0, 8⟩, .crew⟩)
    , (0x70C0F00FFE02003003200800, .stS .plain .n8 (.v 6) ⟨.v 8, .reg (.v 3), ⟨1, 0⟩, .camp⟩)
    , (0x710BF0000A020037FF000500, .atomS .plain .fadd .w32 (.v 5) (.v 6) ⟨.v 8, .reg .vz, ⟨0, 0⟩, .crew⟩)] : List (Nat × Instr)), decodeTableWord 96 x.1 = some x.2 := by
  decide +kernel

theorem test_words_5 : ∀ x ∈ (
    [ (0x7160F0000803004002000541, .casS .plain .w64 (.v 4) (.v 8) (some 1) ⟨.v 12, .imm 2, ⟨0, 0⟩, .crew⟩)
    , (0x7260F00008033FF802FFF880, .ldK .plain .n16 (.v 4) ⟨.v 12, .imm 2, ⟨7, 255⟩, .system⟩)
    , (0x7180F00FFE0A0167FF400400, .copy .plain .g none 0 (.v 40) (.v 44) ⟨⟨2, 0⟩, .crew⟩)
    , (0x718AF00FFE0A0167FF400BF7, .copy .plain .n (some 63) 7 (.v 40) (.v 44) ⟨⟨2, 0⟩, .camp⟩)
    , (0x71C0F00009FFFFFFFF000003, .cpwp .plain 3 (.v 4))
    , (0x7200F00FFFFFFFFFFF204403, .cpcancel .plain 3 ⟨⟨1, 2⟩, .crew⟩)
    , (0x8000F00008033FFFFF000940, .ldN .plain .b64 (.v 4) ⟨.v 12, .reg .vz, ⟨0, 0⟩, .camp⟩)
    , (0x8040F00FFE030027FF000940, .stN .plain .b64 (.v 4) ⟨.v 12, .reg .vz, ⟨0, 0⟩, .camp⟩)
    , (0x80A1F0000A023FF804200D00, .ldV .plain true .b32 (.v 5) ⟨.v 8, .imm 4, ⟨1, 0⟩, .tract⟩)
    , (0x80C0F00FFE020037FF000D40, .stV .plain false .b64 (.v 6) ⟨.v 8, .reg .vz, ⟨0, 0⟩, .tract⟩)
    , (0x8104F0000A020037FF000D00, .atomV .plain .maxN .w32 (.v 5) (.v 6) ⟨.v 8, .reg .vz, ⟨0, 0⟩, .tract⟩)
    , (0x8140F0000A020037FF000D01, .casV .plain .w32 (.v 5) (.v 6) (some 1) ⟨.v 8, .reg .vz, ⟨0, 0⟩, .tract⟩)
    , (0x8180F0000A01BFFFFF204800, .taskPost .plain (.v 5) (.v 6) ⟨⟨1, 2⟩, .camp⟩)
    , (0x81C0F00FFE01BFFFFF204800, .taskDec .plain (.v 6) ⟨⟨1, 2⟩, .camp⟩)
    , (0x8200F0000A01BFFFFF000000, .taskStatT .plain (.v 5) (.v 6))
    , (0x8201F0000BFFFFFFFF000021, .taskStatW .plain (.v 5) 33)
    , (0x8202F0000BFFFFFFFF000006, .taskStatQ .plain (.v 5) 6)
    , (0x8240F00FFE043FFFFF204802, .emit .plain (.v 16) (some 2) ⟨⟨1, 2⟩, .camp⟩)
    , (0x8280F00FFFFFFFFFFF60D005, .pubw .plain 5 ⟨⟨3, 6⟩, .package⟩)
    , (0x9026F0000A023FFC00201840, .ldG .plain .l2 true .i8 (.v 5) ⟨.v 8, .imm 0x400, ⟨1, 0⟩, .system⟩)
    , (0x9040F00FFE020037FF20B100, .stG .plain .norm false .b32 (.v 6) ⟨.v 8, .reg .vz, ⟨1, 5⟩, .package⟩)
    , (0x9080F0000A020037FF405100, .atomG .plain .add .w32 (.v 5) (.v 6) ⟨.v 8, .reg .vz, ⟨2, 2⟩, .package⟩)] : List (Nat × Instr)), decodeTableWord 96 x.1 = some x.2 := by
  decide +kernel

theorem test_words_6 : ∀ x ∈ (
    [ (0x90C0F0000A020037FF40510F, .casG .plain .w32 (.v 5) (.v 6) none ⟨.v 8, .reg .vz, ⟨2, 2⟩, .package⟩)
    , (0x9109F00FFE020037FF405100, .redG .plain .inc .w32 (.v 6) ⟨.v 8, .reg .vz, ⟨2, 2⟩, .package⟩)
    , (0x9140F00FFE020037FF405000, .hintL2 .plain (.v 6) ⟨.v 8, .reg .vz, ⟨2, 2⟩, .package⟩)
    , (0x9141F00FFE020037FF405000, .hintL1 .plain (.v 6) ⟨.v 8, .reg .vz, ⟨2, 2⟩, .package⟩)
    , (0x9142F00FFE020037FF405000, .hintLru .plain (.v 6) ⟨.v 8, .reg .vz, ⟨2, 2⟩, .package⟩)
    , (0x9180F00FFE020037FF405000, .cwbL2 .plain (.v 6) ⟨.v 8, .reg .vz, ⟨2, 2⟩, .package⟩)
    , (0x9181F00FFE020037FF405000, .cwbMem .plain (.v 6) ⟨.v 8, .reg .vz, ⟨2, 2⟩, .package⟩)
    , (0x91E0F00FFE02003003405000, .cinvL1 .plain (.v 6) ⟨.v 8, .imm 3, ⟨2, 2⟩, .package⟩)
    , (0x91E1F00FFE02003003405000, .cinvL2 .plain (.v 6) ⟨.v 8, .imm 3, ⟨2, 2⟩, .package⟩)
    , (0x9200F00FFE020037FF405000, .iinv .plain (.v 6) ⟨.v 8, .reg .vz, ⟨2, 2⟩, .package⟩)
    , (0x9240F00FFFFFFFFFFFD02000, .fbar .plain ⟨6, 129⟩)
    , (0xA000F00008023FFFFF001980, .ldH .plain .b128 (.v 4) ⟨.v 8, .reg .vz, ⟨0, 0⟩, .system⟩)
    , (0xA040F00FFE020027FF001880, .stH .plain .n16 (.v 4) ⟨.v 8, .reg .vz, ⟨0, 0⟩, .system⟩)
    , (0xA082F00008020087FF001981, .atomH .plain (.cas .b128) (.v 4) (.v 16) (some 1) ⟨.v 8, .reg .vz, ⟨0, 0⟩, .system⟩)
    , (0xA081F00008020087FF00194F, .atomH .plain (.exch .w64) (.v 4) (.v 16) none ⟨.v 8, .reg .vz, ⟨0, 0⟩, .system⟩)
    , (0xA0C0F00008023FFFFF001500, .ldF .plain .b32 (.v 4) ⟨.v 8, .reg .vz, ⟨0, 0⟩, .fabric⟩)
    , (0xA100F00FFE020027FF001500, .stF .plain .b32 (.v 4) ⟨.v 8, .reg .vz, ⟨0, 0⟩, .fabric⟩)
    , (0xA14CF00008020067FF405541, .atomF .plain .cas .w64 (.v 4) (.v 12) (some 1) ⟨.v 8, .reg .vz, ⟨2, 2⟩, .fabric⟩)
    , (0xA180F00FFE010047FF201401, .copyFGet .plain 1 (.v 4) (.v 8) ⟨⟨1, 0⟩, .fabric⟩)
    , (0xA181F00FFE010047FF201491, .copyFGetw .plain 9 1 (.v 4) (.v 8) ⟨⟨1, 0⟩, .fabric⟩)
    , (0xA182F00FFE010047FF201401, .copyFPut .plain 1 (.v 4) (.v 8) ⟨⟨1, 0⟩, .fabric⟩)
    , (0xA800F00009FFFFFFFF000031, .rdsr .plain (.v 4) .tpc)] : List (Nat × Instr)), decodeTableWord 96 x.1 = some x.2 := by
  decide +kernel

theorem test_words_7 : ∀ x ∈ (
    [ (0xA840F00FFE013FFFFF00002A, .wrsr .plain .quantum (.v 4))
    , (0xA880F00FFFFFFFFFFF000000, .sret .plain)
    , (0xA8C0F00FFFFFFFFFFF000000, .hret .plain)
    , (0xA900F00FFE010037FF000000, .tlbinvVa .plain (.v 4) (.v 6))
    , (0xA901F00FFFFFFFFFFF000000, .tlbinvCtx .plain)
    , (0xA902F00FFE010037FF000000, .tlbinvGpa .plain (.v 4) (.v 6))
    , (0xA903F00FFFFFFFFFFF000000, .tlbinvVf .plain)
    , (0xA941F00002013FF806000000, .ctxsave .plain true (.v 1) (.v 4) (.v 6))
    , (0xA980F00002013FF806000000, .ctxload .plain (.v 1) (.v 4) (.v 6))
    , (0xA9C0F00002010037FF000000, .launchRun .plain (.v 1) (.v 4) (.v 6))
    , (0xA9C1F00002013FFFFF000000, .launchAdm .plain (.v 1) (.v 4))
    , (0xAA00F00002010037FF000000, .frmset .plain (.v 1) (.v 4) (.v 6))
    , (0xAA40F00002010037FF000000, .l2partSet .plain (.v 1) (.v 4) (.v 6))
    , (0xAA41F00002013FFFFF000000, .l2partMask .plain (.v 1) (.v 4))
    , (0xAA42F00002010037FF000000, .l2partOcc .plain (.v 1) (.v 4) (.v 6))
    , (0xAA43F00002010037FF000000, .l2partHit .plain (.v 1) (.v 4) (.v 6))
    , (0xAA44F00002010037FF000000, .l2partMiss .plain (.v 1) (.v 4) (.v 6))
    , (0xAA45F00002013FFFFF000000, .l2partClr .plain .clr (.v 1) (.v 4) .vz)
    , (0xAA80F00002010037FF000000, .keyopLoad .plain (.v 1) (.v 4) (.v 6))
    , (0xAA81F00002010037FF000000, .keyopErase .plain (.v 1) (.v 4) (.v 6))
    , (0xAA82F00002010037FF000000, .keyopAttest .plain (.v 1) (.v 4) (.v 6))
    , (0xAAC0F00FFFFFFFFFFF00005A, .halt .plain 0x5A)] : List (Nat × Instr)), decodeTableWord 96 x.1 = some x.2 := by
  decide +kernel

theorem test_words_8 : ∀ x ∈ (
    [ (0xAB00F00FFE0500F7FF000000, .lanepc .plain (.v 20) (.v 30))
    , (0xAB40F00FFE053FFFFF000000, .lanestRel .plain (.v 20))
    , (0xAB40F00FFE053FFFFF000001, .lanestHold .plain (.v 20))
    , (0xAB40F00FFE053FFFFF000002, .lanestExit .plain (.v 20))
    , (0x20C0F4401400801804000000, .fma ⟨15, false, true, 0, true, 0⟩ .rn (.v 10) (.v 2) (.v 3) (.v 4) .none)
    , (0x00003EA01400801FFF000000, .add ⟨3, true, true, 5, false, 2⟩ .i32 (.v 10) (.v 2) (.reg (.v 3)))] : List (Nat × Instr)), decodeTableWord 96 x.1 = some x.2 := by
  decide +kernel

/-! A small machine: one user gang of VF 1 on core 0, sealed code, a data page, and no trap ring. -/

/-- A translation of VA page `v` to PA page `p`, held by `holder`. -/
def tTlb (holder v p : Nat) : TlbEntry :=
  { holder := holder, vf := 1, ctx := 0, root := 0, vpage := v, gpa := p, pa := p, s1 := 0x39, lvl1 := 3, s2 := 0x39, lvl2 := 3 }

/-- Code: user at VA page 0, supervisor at 1, hypervisor at 2, constants at 3; all PA pages are one above. -/
def tSeal (v : Nat) (code : Bool) (mode : Mode) : SealPage :=
  { handle := 1, vf := 1, ctx := 0, vpage := v, pa := v + 1, code := code, mode := mode, pending := false }

def tImage : Image :=
  { handle := 1, vf := 1, ctx := 0, header := 0
    kerns := [{ pc := 0#64, regs := 64, gangs := 1, scratch := 4096, vector := false, mode := .user, sig := 7, cbar := 0#32, tbar := 0#64, fbar := 0#64 }]
    blocks := [{ pc := 0#64, prio := 1, ventry := none }, { pc := 64#64, prio := 5, ventry := none }
              , { pc := 0x10000#64, prio := 9, ventry := some 16 }, { pc := 0x20000#64, prio := 9, ventry := none }]
    exits := [], funcs := [], objs := [], imports := [{ hash := 1, index := 2, entry := [], back := [] }], constva := 0x30000, constsz := 16
    newer := none }

def tLaunch : Launch :=
  { Launch.blank with
    id := 1, vf := 1, handle := 1, ncrew := 1, regs := 64, gangs := 1, scratch := 4096, psize := 4096, camps := 1#64, cores := 0xFF#8
    nextCrew := [1], cbar := 0xFFFFFFFF#32
    desc := { CtxDesc.zero with bindbase := 0x40000, bindcnt := 4, lqbase := 0x1000, lqsz := 4 } }

/-- HBM: TGT bits of the code lines, and the constant 0x40, a PC. -/
def tHbm : List Host.Cell :=
  [(0x10000 + 60, 0x1F#8), (0x10000 + 124, 0x1F#8), (0x20000 + 60, 0x1F#8), (0x30000 + 60, 0x1F#8), (0x40000, 0x40#8)]

/-- The machine, with its gang and crew as `f` and `c` leave them. -/
def tState (f : Gang → Gang) (c : Crew → Crew) : State :=
  { State.reset with
    cur := some (1, 0), nextUid := 2, nextLaunch := 2, nextHandle := 2, hbm := tHbm
    crews := [c (Crew.fresh 1 1 0 0 0 0 64 4096 0 false [f { Gang.fresh .user 0#64 1 [] with
      frontier := [{ pc := 0#64, band := 0, prio := 1, mask := 3#32, busy := false }], chosen := true }])]
    launches := [tLaunch], images := [tImage]
    seals := [tSeal 0 true .user, tSeal 1 true .super, tSeal 2 true .hyper, tSeal 3 false .user]
    ctxs := [{ Ctx.fresh 1 0 with svec := 0x10000#64, hvec := 0x20000#64 }]
    funcs := (List.range 64).map fun v => if v ≤ 1 then { Func.fresh v with ready := true, vfshare := if v = 1 then 64#16 else 0#16, part := 1#64 } else Func.fresh v
    readymap := 0x3FFFFFFFFFFFFFFFFFFFFFFFF#98
    tlbs := [tTlb 0 0 1, tTlb 0 1 2, tTlb 0 4 5, tTlb 512 4 5, tTlb 576 4 5] }

/-- The machine with these registers in lane 0 and lane 1. -/
def tRegs (r0 r1 : List (Nat × BitVec 32)) : State :=
  tState (fun g => (g.mapLane 0 fun x => { x with regs := r0 }).mapLane 1 fun x => { x with regs := r1 }) id

/-- What issues, for a machine in which something does. -/
def issueOf (s : State) : Issue :=
  match issuing s with
  | some x => x
  | none => { c := wordCrew 0 0 0, k := 0, g := Gang.blank, e := { pc := 0#64, band := 0, prio := 0, mask := 0#32, busy := false } }

theorem ready_of {s : State} {h : Hdr} {uses : List (Opnd × Nat)} {preds : List PredOpt}
    (e : (issuing s == some (issueOf s) && !scoreboard (issueOf s).c (issueOf s).k (issueOf s).e h uses preds && s.bad.isNone) = true) :
    Ready s (issueOf s) h uses preds := by
  simp only [Bool.and_eq_true, beq_iff_eq, Bool.not_eq_true', Option.isNone_iff_eq_none] at e
  exact ⟨e.1.1, e.1.2, e.2⟩

theorem readySwitch_of {s : State} {h : Hdr} {uses : List (Opnd × Nat)} {preds : List PredOpt}
    (e : (issuing s == some (issueOf s) && !scoreboard (issueOf s).c (issueOf s).k (issueOf s).e h uses preds && s.bad.isNone) = true)
    (r : (!(issueOf s).g.stopReq && !preHalt (issueOf s).c (issueOf s).g) = true) : ReadySwitch s (issueOf s) h uses preds := by
  simp only [Bool.and_eq_true, Bool.not_eq_true'] at r
  exact ⟨ready_of e, r.1, r.2⟩

theorem handled_of {s : State} {c : Crew} {l : Lane} {cause : Nat}
    (e : (decide (l.depth < 3) && handlerOf s c l cause != 0#64 && (match blockAt s (s.launchOf c).vf (s.launchOf c).ctx (handlerOf s c l cause) with
      | some b => b.ventry.all fun r => decide (r ≤ c.regs)
      | none => true)) = true) : Handled s c l cause := by
  simp only [Bool.and_eq_true, decide_eq_true_eq, bne_iff_ne, ne_eq] at e
  refine ⟨e.1.1, e.1.2, fun b r hb hr => ?_⟩
  have h := e.2
  rw [hb] at h
  simpa [hr] using h

/-! Statements about lane instructions that are no switch point: ready, with the operands of the widest form. -/

/-- Guarded by p0, which no lane holds. -/
def tOff : Hdr := { Hdr.plain with pred := 0#4 }

theorem witness_IntegerArithmeticComputes : Ready (tRegs [] []) (issueOf (tRegs [] [])) .plain [(.v 0, 2), (.v 2, 2), (.g 4, 2), (.vz, 2)] [some 0, some 1] :=
  ready_of (by decide +kernel)
theorem witness_LogicAndMovesCompute : Ready (tRegs [] []) (issueOf (tRegs [] [])) .plain [(.v 62, 2), (.v 0, 2), (.v 1, 1), (.v 2, 2)] [] :=
  ready_of (by decide +kernel)
theorem witness_FloatingPointComputes : Ready (tRegs [] []) (issueOf (tRegs [] [])) .plain [(.v 0, 1), (.v 1, 1), (.v 2, 1), (.v 3, 1)] [some 14, none] :=
  ready_of (by decide +kernel)
theorem witness_ConversionComputes : Ready (tRegs [] []) (issueOf (tRegs [] [])) .plain [(.v 0, 8), (.v 8, 8)] [] :=
  ready_of (by decide +kernel)
theorem witness_GangOperationsCompute : Ready (tRegs [] []) (issueOf (tRegs [] [])) .plain [(.v 0, 1), (.v 1, 2), (.v 3, 1)] [some 3, some 4] :=
  ready_of (by decide +kernel)
theorem witness_ShiftsAndTableLogic : Ready (tRegs [] []) (issueOf (tRegs [] [])) .plain [(.v 0, 2), (.v 1, 2), (.v 2, 1), (.v 3, 2)] [] ∧
    31 < ElTy.w .n32 ∧ ElTy.k .i64 = 1 ∧ 3 < ElTy.k .n8x4 :=
  ⟨ready_of (by decide +kernel), by decide, by decide, by decide⟩

/-! Control flow. Lane 0 holds 0 in v1 and lane 1 holds 9; v2 and v3 of both hold the PC 0x40, v4 and v5 of lane 1 the PC 0x80, in no block. -/

def tFlow : State :=
  tRegs [(1, 0#32), (2, 0x40#32), (4, 0x40#32), (6, 1#32)] [(1, 9#32), (2, 0x40#32), (4, 0x80#32), (6, 1#32)]

/-- One line on, slot 0: the PC 0x40 of a gang at PC 0. -/
def tNear : Target := { offset := 1#32, slot := 0 }

def tFlowReady (h : Hdr) (uses : List (Opnd × Nat)) : Prop := ReadySwitch tFlow (issueOf tFlow) h uses []

theorem witness_TransfersComplete : let x := issueOf tFlow
    tFlowReady .plain [] ∧ tFlowReady tOff [] ∧ tFlowReady .plain [(.v 1, 1)] ∧ tFlowReady .plain [(.v 2, 2)] ∧
    x.execs tOff = 0#32 ∧ x.execs .plain = 3#32 ∧ x.legal tFlow .plain (pcTarget x.e.pc tNear) ∧
    (∀ l ∈ (x.execs .plain).lanes, brxTarget tFlow x (.v 1) 0#16 255#8 l ≠ none) ∧
    (∀ l ∈ (x.execs .plain).lanes, brxTarget tFlow x (.v 6) 0#16 0#8 l = none) ∧
    (∃ l ∈ (x.execs .plain).lanes, brxTarget tFlow x (.v 1) 0#16 0#8 l ≠ none) ∧
    brxTarget tFlow x (.v 1) 0#16 0#8 0 = some 0x40#64 ∧ brxTarget tFlow x (.v 1) 0#16 0#8 1 = none ∧ x.legal tFlow .plain 0x40#64 ∧
    ∀ l ∈ (x.execs .plain).lanes, x.legal tFlow .plain (BitVec.ofNat 64 (readWide x.g tFlow.draws l (.v 2) 2)) := by
  refine ⟨readySwitch_of ?_ ?_, readySwitch_of ?_ ?_, readySwitch_of ?_ ?_, readySwitch_of ?_ ?_, ?_⟩ <;> (try unfold Issue.legal) <;> decide +kernel

theorem witness_BranchesSplitAndCallsLink : let x := issueOf tFlow
    tFlowReady .plain [] ∧ x.execs .plain ≠ 0#32 ∧ x.legal tFlow .plain (pcTarget x.e.pc tNear) :=
  ⟨readySwitch_of (by decide +kernel) (by decide +kernel), by decide +kernel, by unfold Issue.legal; decide +kernel⟩

theorem witness_BranchesSplitAndCallsLink_call : let x := issueOf tFlow
    tFlowReady .plain [(.v 62, 2)] ∧ (62 : Nat) + 1 < 1536 ∧ Hdr.plain.nwb = false ∧ x.legal tFlow .plain (pcTarget x.e.pc tNear) :=
  ⟨readySwitch_of (by decide +kernel) (by decide +kernel), by decide, by decide, by unfold Issue.legal; decide +kernel⟩

theorem witness_SoftwareTrapsEnterHandler : let x := issueOf tFlow
    tFlowReady .plain [] ∧ ∀ l ∈ (x.execs .plain).lanes, Handled tFlow x.c (x.g.lane l) 0x30 ∧ Handled tFlow x.c (x.g.lane l) 8 ∧
      Handled tFlow x.c (x.g.lane l) 9 := by
  refine ⟨readySwitch_of (by decide +kernel) (by decide +kernel), fun l hl => ?_⟩
  refine ⟨handled_of ?_, handled_of ?_, handled_of ?_⟩ <;> revert l <;> decide +kernel

/-- Both lanes in supervisor mode, lane 0 with a frame whose TPC is the PC 0x40, lane 1 with one whose TPC lies in no sealed code. -/
def tBack : State :=
  tState (fun g => { (g.mapLane 0 (tIn 0x40#64)).mapLane 1 (tIn 0x90000#64) with
    frontier := [{ pc := 0x10000#64, band := 1, prio := 9, mask := 3#32, busy := false }] }) id
where
  tIn (pc : Pc) (x : Lane) : Lane :=
    { x with mode := .super
             frames := [{ tcause := tcauseWord 1 1 0x30 .user, tpc := pc, taddr := 0#64, tdet0 := 0#32, tdet1 := 0#32, rewritten := false }] }

/-- The same with the TPC 0x40 in both lanes. -/
def tBackBoth : State :=
  tState (fun g => { (g.mapLane 0 (tBack.tIn 0x40#64)).mapLane 1 (tBack.tIn 0x40#64) with
    frontier := [{ pc := 0x10000#64, band := 1, prio := 9, mask := 3#32, busy := false }] }) id

/-- Lane 1 of `tFlow` returns to no block; the lanes of `tBack` return from the supervisor's vector. -/
theorem witness_RefusedTransfersTrap : let x := issueOf tFlow
    let y := issueOf tBack
    (tFlowReady .plain [(.v 4, 2)] ∧ x.legal tFlow .plain (BitVec.ofNat 64 (readWide x.g tFlow.draws 0 (.v 4) 2)) ∧
      ¬x.legal tFlow .plain (BitVec.ofNat 64 (readWide x.g tFlow.draws 1 (.v 4) 2)) ∧ Handled tFlow x.c (x.g.lane 1) 2) ∧
    ReadySwitch tBack y .plain [] [] ∧ y.execs .plain = 3#32 ∧ returnOk tBack 1 0 (y.g.lane 0) .super = true ∧
      returnOk tBack 1 0 (y.g.lane 1) .super = false ∧ Handled tBack y.c (y.g.lane 1) 2 := by
  refine ⟨⟨readySwitch_of ?_ ?_, ?_, ?_, handled_of ?_⟩, readySwitch_of ?_ ?_, ?_, ?_, ?_, handled_of ?_⟩ <;>
    (try unfold Issue.legal) <;> decide +kernel

/-- Both lanes at depth 3. -/
def tDeep : State :=
  tState (fun g => { (g.mapLane 0 tAt).mapLane 1 tAt with
    frontier := [{ pc := 0x10000#64, band := 1, prio := 9, mask := 3#32, busy := false }] }) id
where
  tAt (x : Lane) : Lane := let y := tBack.tIn 0x40#64 x
    { y with frames := y.frames ++ y.frames ++ y.frames }

theorem putRecord_noRing {s : State} {r : Ring} (h : ringBase (s.ctxAt r.vf r.ctx) = 0) (bs : List Byte) : putRecord s r bs = s := by
  unfold putRecord
  simp [h]

theorem witness_TrapAtDepthThreeHolds : let x := issueOf tDeep
    ReadySwitch tDeep x .plain [] [] ∧ x.execs .plain ≠ 0#32 ∧ (∀ l ∈ (x.execs .plain).lanes, 3 ≤ (x.g.lane l).depth) ∧
      ringRoom tDeep (x.c.ring tDeep) (x.execs .plain).lanes.length = true ∧
      ∀ rec : Nat → List Byte, Stored ((x.execs .plain).lanes.foldl (fun u l => putRecord u (x.c.ring tDeep) (rec l)) tDeep) := by
  refine ⟨readySwitch_of ?_ ?_, ?_, ?_, ?_, ?_⟩
  case refine_6 =>
    intro rec
    have h : ringBase (tDeep.ctxAt ((issueOf tDeep).c.ring tDeep).vf ((issueOf tDeep).c.ring tDeep).ctx) = 0 := by decide +kernel
    rw [show ((issueOf tDeep).execs .plain).lanes = [0, 1] by decide +kernel]
    simp only [List.foldl, putRecord_noRing h]
    rfl
  all_goals decide +kernel

theorem witness_ReturnsPopFrames : let x := issueOf tBackBoth
    ReadySwitch tBackBoth x .plain [] [] ∧ x.execs .plain = 3#32 ∧
      ∀ l ∈ (x.execs .plain).lanes, returnOk tBackBoth (tBackBoth.launchOf x.c).vf (tBackBoth.launchOf x.c).ctx (x.g.lane l) .super = true := by
  refine ⟨readySwitch_of ?_ ?_, ?_, ?_⟩ <;> decide +kernel

/-- Lane 0 passes each check and lane 1 fails each: v1 holds 0 and 9, v6 holds 1 in both. -/
theorem witness_ChecksPassOrTrap : let x := issueOf tFlow
    tFlowReady .plain [(.v 1, 1), (.v 1, 1), (.v 2, 1)] ∧ tFlowReady .plain [(.v 6, 1), (.v 6, 1)] ∧ tFlowReady .plain [(.v 1, 1)] ∧
      readOpnd x.g 0 0 (.v 1) = 0#32 ∧ readOpnd x.g 0 1 (.v 1) = 9#32 ∧ readOpnd x.g 0 1 (.v 6) = 1#32 ∧
      ∀ l ∈ (x.execs .plain).lanes, Handled tFlow x.c (x.g.lane l) 0x10 ∧ Handled tFlow x.c (x.g.lane l) 0x11 ∧ Handled tFlow x.c (x.g.lane l) 0x12 := by
  refine ⟨readySwitch_of ?_ ?_, readySwitch_of ?_ ?_, readySwitch_of ?_ ?_, ?_, ?_, ?_, fun l hl => ⟨handled_of ?_, handled_of ?_, handled_of ?_⟩⟩ <;>
    (try revert l) <;> decide +kernel

theorem witness_ExitsAndYieldsComplete : let x := issueOf tFlow
    tFlowReady .plain [] ∧ tFlowReady .plain [(.v 1, 1)] ∧ tFlowReady tOff [(.v 1, 1)] ∧ x.execs .plain ≠ 0#32 ∧ x.execs tOff = 0#32 ∧
      x.g.stopReq = false ∧ x.c.force = false := by
  refine ⟨readySwitch_of ?_ ?_, readySwitch_of ?_ ?_, readySwitch_of ?_ ?_, ?_, ?_, ?_, ?_⟩ <;> decide +kernel

theorem witness_BreakAndHaltComplete : let x := issueOf tFlow
    tFlowReady .plain [] ∧ tFlowReady tOff [] ∧ x.execs .plain ≠ 0#32 ∧ x.execs tOff = 0#32 ∧ x.c.terminating = false ∧
      ringRoom tFlow (x.c.ring tFlow) 1 = true ∧ (∀ r, Stored (writeRecord tFlow (x.c.ring tFlow) r)) ∧
      Stored (terminate (passed tFlow x x.c) x.c.uid (some 255)) ∧ ∃ t, exec (.halt .plain 255#8) tFlow = .next t := by
  refine ⟨readySwitch_of ?_ ?_, readySwitch_of ?_ ?_, ?_, ?_, ?_, ?_, fun _ => by rfl, ?_, _, rfl⟩ <;> (try unfold Stored) <;> decide +kernel

theorem witness_StatusReadsComplete : tFlowReady .plain [(.v 0, 2), (.v 2, 1)] := readySwitch_of (by decide +kernel) (by decide +kernel)

theorem witness_StatusReadsComplete_values : ((issueOf tFlow).g.lane 0).frames = [] ∧ ∃ f fs, ((issueOf tBack).g.lane 0).frames = f :: fs :=
  ⟨by decide +kernel, _, _, rfl⟩

theorem witness_SpecialRegistersWritten : let x := issueOf tFlow
    tFlowReady .plain [(.v 2, 2)] ∧ tFlowReady tOff [(.v 2, 2)] ∧ Stored (requestPreempt (passed tFlow x x.c) x.c.uid none) ∧
      x.execs .plain ≠ 0#32 ∧ x.execs tOff = 0#32 := by
  refine ⟨readySwitch_of ?_ ?_, readySwitch_of ?_ ?_, ?_, ?_, ?_⟩ <;> (try unfold Stored) <;> decide +kernel

/-- Lane 0 names lane 1 and lane 1 names lane 9, which stands in no entry; lane 2 is named by none. -/
theorem witness_LaneControlCompletes : let x := issueOf (tRegs [(1, 1#32)] [(1, 9#32)])
    ReadySwitch (tRegs [(1, 1#32)] [(1, 9#32)]) x .plain [(.v 1, 1), (.v 2, 2)] [] ∧
      (∀ j ∈ (x.execs .plain).lanes, readWide x.g 0 j (.v 1) 1 ≠ 2 ∨ (x.g.lane j).mode.band < (x.g.lane 2).mode.band) := by
  refine ⟨readySwitch_of ?_ ?_, ?_⟩ <;> decide +kernel

/-! Imports, counted instructions and waits. -/

/-- The binding-table entry 2 of the context, at VA 0x40080, with a STATE and the TARGET 0x40. -/
def tBind (state : Nat) : State := { tFlow with hbm := poke (poke tFlow.hbm 0x50080 (BitVec.ofNat 8 state)) 0x50090 0x40#8 }

def tBindWho : Who := (issueOf tFlow).c.who tFlow .user

def tBindLeaves : List Leaf := (List.range 64).map fun i => { pa := 0x50080 + i, gpa := 0x50080 + i, cp := 0, ms := false, prot := false }

theorem witness_ImportCallsComplete : let x := fun b => issueOf (tBind b)
    tFlowReady tOff [(.v 62, 2)] ∧ (issueOf tFlow).execs tOff = 0#32 ∧
      (∀ b ∈ [0, 1, 2, 3], ReadySwitch (tBind b) (x b) .plain [(.v 62, 2)] [] ∧ (x b).execs .plain ≠ 0#32 ∧
        bindingVa (tBind b) (x b).c (x b).e.pc 0 = some (2, 0x40080) ∧
        laneXlat (tBind b) tBindWho 0 (.lane 1 0 0) 0 0x40080 64 = (tBind b, .ok tBindLeaves) ∧ Stored (tBind b) ∧
        natOfBytes ((readLeaves (tBind b) tBindWho tBindLeaves).take 4) % 4 = b) ∧
      (x 2).legal (tBind 2) .plain 0x40#64 ∧ ringRoom (tBind 0) ((x 0).c.ring (tBind 0)) 1 = true ∧
      (∃ u, deviceWrite (tBind 0) tBindWho 0x40080 (bytesOf 4 1) = some u ∧ ∀ r, Stored (writeRecord u ((x 0).c.ring (tBind 0)) r)) ∧
      ∀ l ∈ ((x 3).execs .plain).lanes, Handled (tBind 3) (x 3).c ((x 3).g.lane l) 2 := by
  refine ⟨readySwitch_of ?_ ?_, ?_, fun b hb => ⟨readySwitch_of ?_ ?_, ?_, ?_, ?_, ?_, ?_⟩, ?_, ?_, ⟨_, rfl, fun _ => by rfl⟩,
      fun l hl => handled_of ?_⟩ <;> (try unfold Issue.legal) <;> (try unfold Stored) <;> (try revert l) <;> (try revert b) <;> decide +kernel

/-- Crew 1 of a machine. -/
def tCrew (s : State) : Crew := (s.crew? 1).getD (wordCrew 0 0 0)

/-- Lane 0 has 62 operations on stream 1 and none on stream 2. -/
def tBusy : State := tState (fun g => g.mapLane 0 fun x => { x with scnt := [0, 62, 0, 0, 0, 0, 0, 0] }) id

def tStream (n : Fin 8) : Clause := { stream := n, mask := 0#8 }

theorem witness_CountedInstructionsComplete : let x := issueOf tBusy
    ReadySwitch tBusy x .plain [(.v 0, 16), (.v 16, 2), (.v 18, 1)] [some 0] ∧ CountFree x .plain (tStream 1) ∧ CountFree x .plain (tStream 2) ∧
      ReadySwitch tBusy x .plain [] [some 0] ∧ ReadySwitch tBusy x .plain [] [] ∧ ReadySwitch tBusy x .plain [(.v 0, 1), (.v 16, 2), (.v 18, 1)] [] ∧
      ReadySwitch tBusy x tOff [] [] ∧ x.execs tOff = 0#32 ∧ x.execs .plain ≠ 0#32 ∧ (x.g.lane 0).cnt 1 = 62 ∧
      ∃ t, exec (.fbar .plain (tStream 1)) tBusy = .next t := by
  refine ⟨readySwitch_of ?_ ?_, ?_, ?_, readySwitch_of ?_ ?_, readySwitch_of ?_ ?_, readySwitch_of ?_ ?_, readySwitch_of ?_ ?_, ?_, ?_, ?_, _, rfl⟩ <;>
    (try unfold CountFree) <;> decide +kernel

/-- Word 0 of the lanes' condition group in v8 asks for stream 0, then for a kind-5 word at VA 0x40080. -/
def tCond (kind : Nat) : State := let r := [(8, BitVec.ofNat 32 (kind * 2 ^ 28)), (10, 0x40080#32)]; tRegs r r

/-- Lanes 0 and 1 are blocked at a `waits`: lane 0 until its stream 1 is at most 62, lane 1 until its stream 2 is at most 0. -/
def tCounting : State :=
  tState (fun g => { g.mapLane 0 fun x => { x with scnt := [0, 62, 0, 0, 0, 0, 0, 0] } with
    counted := [(0, 1, 62), (1, 2, 0)], frontier := [{ pc := 0#64, band := 0, prio := 1, mask := 3#32, busy := true }] }) id

theorem witness_WaitsComplete_counted : let g := (tCrew tCounting).gang 0
    ∃ e ∈ g.frontier, e.busy = true ∧ (∃ y ∈ g.counted, e.mask.getLsbD y.1 = true) ∧
      (∀ y ∈ g.counted, e.mask.getLsbD y.1 = true → (g.lane y.1).cnt y.2.1 ≤ y.2.2) ∧
      (∀ j, e.mask.getLsbD j = true → g.parked.getLsbD j = false ∧ (∀ y ∈ g.pages, y.lane ≠ j) ∧ (∀ y ∈ g.sys, y.lane ≠ j) ∧
        ∀ y ∈ g.waits, y.lane = j → y.done ≠ none) ∧ e.mask.getLsbD 1 = true := by
  refine ⟨{ pc := 0#64, band := 0, prio := 1, mask := 3#32, busy := true }, ?_, ?_, ?_, ?_, fun j _ => ⟨?_, ?_, ?_, ?_⟩, ?_⟩
  case refine_5 => exact BitVec.getLsbD_zero
  case refine_6 => intro y hy; exact absurd hy List.not_mem_nil
  case refine_7 => intro y hy; exact absurd hy List.not_mem_nil
  case refine_8 => intro y hy; exact absurd hy List.not_mem_nil
  all_goals decide +kernel

theorem witness_WaitsComplete : let x := issueOf tBusy
    (ReadySwitch tBusy x .plain [] [] ∧ (∀ l ∈ (x.execs .plain).lanes, (x.g.lane l).cnt 1 ≤ (62#6).toNat) ∧
      ∃ l ∈ (x.execs .plain).lanes, (61#6).toNat < (x.g.lane l).cnt 1) ∧
    ∀ k ∈ [0, 5], let s := tCond k
      let y := issueOf s
      ReadySwitch s y .plain [(.v 2, 1), (.v 8, 4 * ((0 : Fin 4).val + 1))] [some 0] ∧ CountFree y .plain (tStream 1) ∧ Stored s ∧
      lanesXlat y.c (fun l => y.c.who s (y.g.lane l).mode) (fun l => .lane y.c.uid y.k l)
        (fun l => Cond.words (readConds y.g s.draws l (.v 8) 1#4 1)) s (y.execs .plain).lanes = (s, [(0, .ok []), (1, .ok [])]) := by
  refine ⟨⟨readySwitch_of ?_ ?_, ?_, ?_⟩, fun k hk => ⟨readySwitch_of ?_ ?_, ?_, ?_, ?_⟩⟩ <;>
    (try unfold CountFree) <;> (try unfold Stored) <;> (try revert k) <;> decide +kernel

/-- Lane 0 waits for `SCNT.s0` to be at most 0, or for that of stream 1, with a timeout of 0 ticks. -/
def tWaiting (n : Nat) : State :=
  tState (fun g => { g.mapLane 0 fun x => { x with scnt := [1, 0, 0, 0, 0, 0, 0, 0] } with
    waits := [{ lane := 0, issue := 0, pc := 0#64, op := 1, all := true, conds := [{ w0 := BitVec.ofNat 32 n, w1 := 0#32, va := 0#64, word := false }]
                timeout := 0#32, pt := none, start := some 0, done := none }] }) id

theorem witness_WaitsEnd : ∀ n ∈ [0, 1], let s := tWaiting n
    Stored s ∧ s.crew? 1 = some (tCrew s) ∧ (tCrew s).isResident = true ∧ ∃ w, waitOf (tCrew s) 0 0 = some w ∧
      ((tCrew s).gang 0).pages = [] ∧ wordsRead s (tCrew s) 0 w = true ∧ waitHolds s (tCrew s) 0 w = (n == 1) ∧ waitExpired s w = true := by
  intro n hn
  simp only [List.mem_cons, List.not_mem_nil, or_false] at hn
  rcases hn with rfl | rfl <;>
    exact ⟨by rfl, by decide +kernel, by decide +kernel, _, rfl, by decide +kernel, by decide +kernel, by decide +kernel, by decide +kernel⟩

/-- Lane 0 waits for a word that an earlier store of its own writes. -/
def tStoring : State :=
  tState (fun g => { g.mapLane 0 fun x => { x with scnt := [1, 0, 0, 0, 0, 0, 0, 0] } with
    waits := [{ lane := 0, issue := 0, pc := 0#64, op := 2, all := true, conds := [{ w0 := 0x50000000#32, w1 := 0#32, va := 0x40000#64, word := true }]
                timeout := 0#32, pt := none, start := some 0, done := none }] }) fun c =>
    { c with nextOp := 3, ops := [{ id := 1, gang := 0, lanes := 1#32, stream := 0, mask := 0, scope := 1, pc := 0#64, issue := 0, after := [], dropped := false
                                    looked := [], mod := 0, route := 0#64, got := [], kind := .store (.glob 4 0x40000 []) .b32 5 }] }

theorem witness_WaitsEnd_word : let s := tStoring
    Stored s ∧ s.crew? 1 = some (tCrew s) ∧ (tCrew s).isResident = true ∧ ∃ w, waitOf (tCrew s) 0 0 = some w ∧ wordPending s (tCrew s) 0 w = true :=
  ⟨by rfl, by decide +kernel, by decide +kernel, _, rfl, by decide +kernel⟩

/-- All lanes of the gang have arrived at its barrier 3, and at barrier 15 of the crew; the crew has arrived at barrier 31 of its camp. -/
def tArrived : State :=
  { tState (fun g => { (exitLanes g 0xFFFFFFFC#32) with arrived := [(3, 3#32), (79, 3#32)] }) (fun c => { c with garr := [(79, 1#16)] }) with
    strings := [{ bar := .camp 1 0 31, phase := false, crews := [1] }] }

theorem witness_BarrierPhasesFlip :
    Stored tArrived ∧ phaseReady tArrived (.camp 1 0 31) = true ∧ 2 ≤ barLevel (.camp 1 0 31) ∧ tArrived.crew? 1 = some (tCrew tArrived) ∧
      (tCrew tArrived).isResident = true ∧ barrierCrew (tCrew tArrived) = true ∧ (tCrew tArrived).arrivedAt (64 + 15) = true ∧
      ((tCrew tArrived).gang 0).allSent 3 = true ∧ (sget 0#16 (tCrew { tArrived with crews := [{ tCrew tArrived with garr := [(2, 1#16)] }] }).garr 2).getLsbD 0 = true := by
  unfold Stored; decide +kernel

/-! Memory and copies. Lanes 0 and 1 hold the VA 0x40000 in v8 and v9, 4092 in v10, and the highest `.h` address of a word in v12. -/

def tMem : State :=
  let r := [(8, 0x40000#32), (10, 4092#32), (12, 0xFFFFFFFC#32), (13, 0x7FFFFFFF#32), (20, 16#32), (22, 64#32), (23, 0x10000000#32)]
  tState (fun g => { ((g.mapLane 0 fun x => { x with regs := r }).mapLane 1 fun x => { x with regs := r }) with
    frontier := [{ pc := 0#64, band := 0, prio := 1, mask := 3#32, busy := false }] }) fun c => { c with pbase := 0x40000 }

def tArg (base : Opnd) (off : Int) : MemArg := { base := base, off := .imm (BitVec.ofInt 11 off), clause := tStream 1, scope := .crew }

theorem witness_AccessesWithoutTranslationIssue : let x := issueOf tMem
    ReadySwitch tMem x .plain [(.v 0, 4), (.v 4, 4), (.v 8, 2)] [some 14] ∧ CountFree x .plain (tStream 1) ∧
      offset32 x.g 0 0 (tArg (.v 10) 0) 4 true = 4092 := by
  refine ⟨readySwitch_of ?_ ?_, ?_, ?_⟩ <;> (try unfold CountFree) <;> decide +kernel

/-- The leaves of `n` bytes at the VA 0x40000 + `off`. -/
def tLeaves (off n : Nat) : List Leaf := (List.range n).map fun i => { pa := 0x50000 + off + i, gpa := 0x50000 + off + i, cp := 0, ms := false, prot := false }

def tGlob (off n : Nat) : Addr := .glob 4 (0x40000 + off) ((tLeaves off n).map GByte.plain)

theorem tMem_lanes : ((issueOf tMem).execs .plain).lanes = [0, 1] := by decide +kernel

theorem witness_TranslatedAccessesIssue : let x := issueOf tMem
    let who := fun (u : State) (l : Nat) => x.c.who u (x.g.lane l).mode
    ReadySwitch tMem x .plain [(.v 0, 4), (.v 8, 2), (.v 4, 4)] [some 0] ∧ CountFree x .plain (tStream 1) ∧ Stored tMem ∧
    Resolves x false 0 16 who (fun l => address64 x.g tMem.draws l (tArg (.v 8) 1) 16 false) (fun _ => tGlob 16 16) tMem (x.execs .plain).lanes tMem ∧
    Resolves x false 2 8 who (fun l => address64 x.g tMem.draws l (tArg (.v 8) 0) 8 true) (fun _ => tGlob 0 8) tMem (x.execs .plain).lanes tMem ∧
    Resolves x false 1 4 who (fun l => privVa tMem x.c x.k l (offset32 x.g tMem.draws l (tArg .vz 0) 4 false)) (fun l => tGlob (l * 4096) 4) tMem
      (x.execs .plain).lanes tMem ∧
    Resolves x false 1 4 (fun u l => { who u l with world := none, pri := false }) (fun l => (fabAddress x.g tMem.draws l (tArg (.v 8) 0) 4 false).2)
      (fun _ => tGlob 0 4) tMem (x.execs .plain).lanes tMem ∧
    ∀ l ∈ (x.execs .plain).lanes, (fabAddress x.g tMem.draws l (tArg (.v 8) 0) 4 false).1 = tMem.fabid.toNat ∧
      (fabAddress x.g tMem.draws l (tArg (.v 8) 0) 4 false).2 < 2 ^ 55 := by
  dsimp only
  rw [tMem_lanes]
  refine ⟨readySwitch_of ?_ ?_, ?_, rfl, ⟨tMem, ?_, tMem, ?_, rfl⟩, ⟨tMem, ?_, tMem, ?_, rfl⟩, ⟨tMem, ?_, tMem, ?_, rfl⟩,
    ⟨tMem, ?_, tMem, ?_, rfl⟩, ?_⟩ <;> (try unfold CountFree) <;> decide +kernel

/-- The registers v12 and v13 name a host address, v22 and v23 a fabric address of module 16. -/
theorem witness_RemoteAccessesIssue : let x := issueOf tMem
    ReadySwitch tMem x .plain [(.v 0, 4), (.v 12, 2), (.v 14, 4)] [some 0] ∧ CountFree x .plain (tStream 1) ∧ x.execs .plain ≠ 0#32 ∧
      ∀ l ∈ (x.execs .plain).lanes, (fabAddress x.g tMem.draws l (tArg (.v 22) 0) 4 true).1 ≠ tMem.fabid.toNat ∧
        (fabAddress x.g tMem.draws l (tArg (.v 22) 0) 4 true).2 < 2 ^ 55 := by
  refine ⟨readySwitch_of ?_ ?_, ?_, ?_, ?_⟩ <;> (try unfold CountFree) <;> decide +kernel

/-! Pending operations of lane 0. -/

def tOp (id : Nat) (kind : OpKind) : Op :=
  { id := id, gang := 0, lanes := 1#32, stream := 0, mask := 0, scope := 1, pc := 0#64, issue := 0, after := [], dropped := false, looked := []
    mod := 0, route := 0#64, got := [], kind := kind }

/-- A machine with one operation of lane 0. -/
def tDoes (kind : OpKind) : State :=
  tState (fun g => g.mapLane 0 fun x => { x with scnt := [1, 0, 0, 0, 0, 0, 0, 0] }) fun c => { c with ops := [tOp 1 kind], nextOp := 2 }

/-- The operation may perform. -/
def tPerforms (kind : OpKind) (a : Addr) (n : Nat) : Prop := Performs (tDoes kind) 1 1 (tCrew (tDoes kind)) (tOp 1 kind) a n

theorem tPerforms_of (kind : OpKind) (a : Addr) (n : Nat)
    (h : ((tDoes kind).crew? 1 == some (tCrew (tDoes kind)) && (tCrew (tDoes kind)).isResident && !(tCrew (tDoes kind)).terminating &&
      (tCrew (tDoes kind)).op? 1 == some (tOp 1 kind) && kind.addr? == some (a, n) && !(tOp 1 kind).remote (tDoes kind) && kind.fab? == none &&
      !owing (tDoes kind) 1 3 1 && opReady (tDoes kind) (tCrew (tDoes kind)) (tOp 1 kind)) = true) : tPerforms kind a n := by
  simp only [Bool.and_eq_true, beq_iff_eq, Bool.not_eq_true'] at h
  obtain ⟨⟨⟨⟨⟨⟨⟨⟨h1, h2⟩, h3⟩, h4⟩, h5⟩, h6⟩, h7⟩, h9⟩, h8⟩ := h
  exact ⟨h1, ⟨h2, h3⟩, h4, h5, ⟨h6, h7, h9⟩, h8⟩

/-- A load of the scratchpad's last word and one of sixteen bytes of HBM. -/
theorem witness_LoadsPerform :
    tPerforms (.load (.scr 4092) .norm .b32 (.v 0)) (.scr 4092) 4 ∧ tPerforms (.load (tGlob 0 16) .norm .b128 (.v 0)) (tGlob 0 16) 16 ∧
      Stored (tDoes (.load (tGlob 0 16) .norm .b128 (.v 0))) ∧
      Stored (cacheAccess (tDoes (.load (.scr 4092) .norm .b32 (.v 0))) (tCrew (tDoes (.load (.scr 4092) .norm .b32 (.v 0)))) (tOp 1 (.load (.scr 4092) .norm .b32 (.v 0)))) ∧
      Stored (cacheAccess (tDoes (.load (tGlob 0 16) .norm .b128 (.v 0))) (tCrew (tDoes (.load (tGlob 0 16) .norm .b128 (.v 0)))) (tOp 1 (.load (tGlob 0 16) .norm .b128 (.v 0)))) := by
  refine ⟨tPerforms_of _ _ _ ?_, tPerforms_of _ _ _ ?_, ?_, ?_, ?_⟩ <;> (try unfold Stored) <;> decide +kernel

/-- A store of sixteen bytes to HBM, an `add` on it, and a `cas` that finds its comparison on the scratchpad's last double word. -/
theorem witness_StoresAndAtomicsPerform :
    ∀ k ∈ [(OpKind.store (tGlob 0 16) .b128 5, tGlob 0 16, 16), (.atom (tGlob 0 4) .add .w32 1 (.v 0) (some 0), tGlob 0 4, 4)
      , (.cas (.scr 4088) 8 0 7 (.v 0) none, .scr 4088, 8)],
      let s := tDoes k.1
      let places := addrLocs (cacheAccess s (tCrew s) (tOp 1 k.1)) (tCrew s) k.2.1 k.2.2
      tPerforms k.1 k.2.1 k.2.2 ∧ (∀ p z d, k.1 ≠ .load k.2.1 p z d) ∧ Stored s ∧ Stored (cacheAccess s (tCrew s) (tOp 1 k.1)) ∧
        (∀ bs, bs = bytesOf k.2.2 9 → Stored (writeLocs (cacheAccess s (tCrew s) (tOp 1 k.1)) none places bs)) ∧
        sealsHold (cacheAccess s (tCrew s) (tOp 1 k.1)) (tCrew s) k.1 = true ∧
        ∀ l ∈ places, ∀ q ∈ places, l.inLine q = true → l.protected = q.protected := by
  intro k hk
  simp only [List.mem_cons, List.not_mem_nil, or_false] at hk
  rcases hk with rfl | rfl | rfl <;>
    exact ⟨tPerforms_of _ _ _ (by decide +kernel), nofun, rfl, by unfold Stored; decide +kernel,
      fun bs e => by subst e; unfold Stored; decide +kernel, by decide +kernel, by decide +kernel⟩

/-- A maintenance operation on the PA line 0x50000, which the gang does or does not issue from. -/
def tMaint (k : Maint) (issuing : Bool) : State :=
  tState (fun g => { g with line := if issuing then some (0, []) else none, linePa := 0x50000 })
    fun c => { c with ops := [tOp 1 (.maint k 0x40000 128)], nextOp := 2 }

theorem witness_MaintenancePerforms :
    (∀ k ∈ [Maint.hintL2, .hintL1, .hintLru, .cwbL2, .cwbMem, .cinvL1, .cinvL2, .iinv], let s := tMaint k false
      let c := tCrew s
      let o := tOp 1 (.maint k 0x40000 128)
      Stored s ∧ s.crew? 1 = some c ∧ c.op? 1 = some o ∧ c.isResident = true ∧ owing s 1 3 1 = false ∧ o.after = [] ∧
        (performMaint s c o k 0x40000 128).any (fun t => t.bad.isNone) = true ∧ Stored (rangeLines s c .user 0x40000 128).1 ∧
        stillIssuing s c 1 (rangeLines s c .user 0x40000 128).2.1 = false) ∧
    (let s := tMaint .iinv true;
      stillIssuing s (tCrew s) 1 (rangeLines s (tCrew s) .user 0x40000 128).2.1 = true) ∧
    (let s := tDoes .fbar;
      Stored s ∧ s.crew? 1 = some (tCrew s) ∧ (tCrew s).op? 1 = some (tOp 1 .fbar) ∧ (tCrew s).isResident = true ∧ owing s 1 3 1 = false) := by
  unfold Stored; decide +kernel

/-! Copies. Lane 0's v0 to v5 describe a copy of 16 bytes from the scratchpad's start to its offset 64. -/

def tCopyRegs : List (Nat × BitVec 32) := [(2, 64#32), (3, 16#32), (4, 1#32), (5, 16#32)]

/-- A slice of the gang on channel 0, of the crew's scratchpad, with `n` of its 16 bytes delivered. -/
def tSlice (n : Nat) : Slice :=
  { gang := 0, op := 1, lanes := 3#32, stream := 0, scope := 1, pc := 0#64, src := 3, fab := false, put := false, win := none
    words := [0#32, 0#32, 64#32, 16#32, 1#32, 16#32], done := n, empty := false }

/-- The machine with one copy on channel 0. -/
def tCopy (x : Copy) : State :=
  tState id fun c => { (c.mapChannel 0 fun ch => { ch with copies := [x], slices := [1], formed := 1 }) with ops := [tOp 1 (.copy 0 0)], nextOp := 2 }

def tOne (n : Nat) (begun : Bool) : Copy :=
  { seq := 0, slices := [tSlice n], formed := true, begun := begun, reserve := false, cancelled := false, lost := false }

def tCancelled : State :=
  tState (fun g => g.mapLane 0 fun x => { x with regs := tCopyRegs }) fun c =>
    c.mapChannel 0 fun ch => { ch with copies := [{ tOne 0 false with slices := [], formed := false, cancelled := true }] }

theorem witness_CopiesIssue : let s := tState (fun g => g.mapLane 0 fun x => { x with regs := tCopyRegs }) id
    let x := issueOf s
    let y := issueOf tCancelled
    ReadySwitch s x .plain [(.v 0, 4), (.v 4, 2)] [] ∧ x.execs .plain ≠ 0#32 ∧ CountFree x .plain (tStream 1) ∧ channelRoom (x.c.channel 0) x.k = true ∧
      joinsCancelled (x.c.channel 0) x.k = false ∧
    ReadySwitch tCancelled y .plain [(.v 0, 4), (.v 4, 2)] [] ∧ y.execs .plain ≠ 0#32 ∧ CountFree y .plain (tStream 1) ∧
      channelRoom (y.c.channel 0) y.k = true ∧ joinsCancelled (y.c.channel 0) y.k = true ∧
    ReadySwitch s x tOff [(.v 0, 4), (.v 4, 2)] [] ∧ x.execs tOff = 0#32 := by
  refine ⟨readySwitch_of ?_ ?_, ?_, ?_, ?_, ?_, readySwitch_of ?_ ?_, ?_, ?_, ?_, ?_, readySwitch_of ?_ ?_, ?_⟩ <;>
    (try unfold CountFree) <;> decide +kernel

/-- Link 0 is up. -/
def tLinks : List Link := { Link.fresh with state := 2 } :: List.replicate 17 Link.fresh

/-- The route over link 0, or no route. -/
def tRoute (on : Bool) : BitVec 64 := if on then 0x8000000000000001#64 else 0#64

/-- A get by a fabric address, with one byte to come, that began with or without a route. -/
def tGetSlice (on : Bool) : Slice :=
  { tSlice 15 with fab := true, src := 0, words := [0#32, 0x10000000#32, 64#32, 16#32, 1#32, 16#32], route := tRoute on }

/-- A copy that begins, one that shows a fault (its pitch is 65537 rows), one in delivery, and one whose bytes are all delivered. -/
theorem witness_CopiesRun :
    (let s := tCopy (tOne 0 false);
      Stored s ∧ s.crew? 1 = some (tCrew s) ∧ (tCrew s).isResident = true ∧ owing s 1 0 0 = false ∧ nextToBegin ((tCrew s).channel 0) = some (tOne 0 false) ∧
        (∀ y ∈ (tOne 0 false).slices, sliceReady (tCrew s) y = true) ∧ sharedFree s (tCrew s).camp 0 = true ∧
        ∀ y ∈ (tOne 0 false).ordered, beginFault s (tCrew s) y = none) ∧
    (let y := { tSlice 0 with words := [0#32, 0#32, 64#32, 16#32, 65537#32, 16#32] };
      let x := { tOne 0 false with slices := [y] };
      let s := tCopy x;
      Stored s ∧ s.crew? 1 = some (tCrew s) ∧ nextToBegin ((tCrew s).channel 0) = some x ∧ (∀ z ∈ x.slices, sliceReady (tCrew s) z = true) ∧
        x.ordered = [] ++ y :: [] ∧ beginFault s (tCrew s) y = some { sub := 1, addr := 0 } ∧ ringRoom s ((tCrew s).ring s) 1 = true ∧
        Stored (terminate (writeRecord s ((tCrew s).ring s) (faultRecord (tCrew s) 0 y { sub := 1, addr := 0 })) 1 none)) ∧
    (let s := tCopy (tOne 15 true);
      s.crew? 1 = some (tCrew s) ∧ (tCrew s).isResident = true ∧ (tCrew s).terminating = false ∧ nextSlice ((tCrew s).channel 0) = some (tOne 15 true, tSlice 15) ∧
        engineHeld s (tCrew s) 0 0 = false ∧ (tSlice 15).fab = false ∧ ∃ s1 b, moveByte s (tCrew s) 0 (tSlice 15) 15 = .ok s1 b) ∧
    (let s := tCopy (tOne 16 true);
      Stored s ∧ s.crew? 1 = some (tCrew s) ∧ completable s (tCrew s) 0 = some (tOne 16 true)) := by
  refine ⟨⟨rfl, ?_, ?_, ?_, ?_, ?_, ?_, ?_⟩, ⟨rfl, ?_, ?_, ?_, ?_, ?_, ?_, ?_⟩, ⟨?_, ?_, ?_, ?_, ?_, rfl, _, _, rfl⟩, rfl, ?_, ?_⟩ <;>
    (try unfold Stored) <;> decide +kernel

theorem witness_DeliveredByteIsCopied : let s := tCopy (tOne 15 true)
    s.crew? 1 = some (tCrew s) ∧ (tCrew s).isResident = true ∧ (tCrew s).terminating = false ∧ 0 < (tCrew s).channels.length ∧
      nextSlice ((tCrew s).channel 0) = some (tOne 15 true, tSlice 15) ∧ (tSlice 15).put = false ∧ (tSlice 15).win = none ∧
      (tSlice 15).fab = false ∧ engineHeld s (tCrew s) 0 0 = false ∧ (tSlice 15).near 15 < (tCrew s).ssize ∧
      farBound s (tCrew s) (tSlice 15) = some 4096 ∧ (tSlice 15).far 15 < 4096 ∧ readSlice s (tCrew s) 0 (tSlice 15) 15 = .ok s 0#8 ∧ Stored s := by
  refine ⟨?_, ?_, ?_, ?_, ?_, rfl, rfl, rfl, ?_, ?_, ?_, ?_, ?_, rfl⟩ <;> decide +kernel

/-- The same for a get by a fabric address that began with a route, and one of the module itself. -/
theorem witness_DeliveredByteIsCopied_fabric : ∀ homed ∈ [false, true], let y := { tGetSlice true with homed := homed }
    let x := { tOne 15 true with slices := [y] }
    let s := { tCopy x with links := tLinks, tlbs := [{ tTlb 576 0 5 with holder := 512 }] }
    nextSlice ((tCrew s).channel 0) = some (x, y) ∧ y.put = false ∧ y.win = none ∧ usable s y.route = true ∧ y.near 15 < (tCrew s).ssize ∧
      farBound s (tCrew s) y = none ∧ y.far 15 < 2 ^ 55 ∧ (match readSlice s (tCrew s) 0 y 15 with
        | .ok t _ => t.bad.isNone
        | _ => false) = true := by
  decide +kernel

/-! Windows, posts and the landing. -/

/-- The camp's window 63, of 16 bytes of the vault, and the vault window. -/
def tWin : Window :=
  { launch := 1, home := 0, entry := 63, glob := false, size := 16, woff := 0, back0 := 0, back1 := 16, cur := false, gen := 0xFFFFFFFF#32 }

def tPublish : State := { tDoes (.pubw 63) with windows := [tWin] }

theorem witness_PublishChangesOver :
    Stored tPublish ∧ tPublish.crew? 1 = some (tCrew tPublish) ∧ (tCrew tPublish).isResident = true ∧ (tCrew tPublish).op? 1 = some (tOp 1 (.pubw 63)) ∧ owing tPublish 1 3 1 = false ∧
      (tOp 1 (.pubw 63)).after = [] ∧ (tCrew tPublish).window? tPublish 63 = some tWin ∧ windowBusy tPublish 1 (tCrew tPublish).camp 63 = false := by
  unfold Stored; decide +kernel

theorem witness_PostsAndPublishesIssue : let x := issueOf tMem
    ReadySwitch tMem x .plain [(.v 10, 1), (.v 0, 1)] [] ∧ CountFree x .plain (tStream 1) ∧ (x.execs .plain).lanes.length ≤ x.c.freeTasks ∧
      landingUse tMem x.c.camp + (x.execs .plain).lanes.length ≤ 1024 ∧ ReadySwitch tMem x .plain [] [] ∧ x.execs .plain ≠ 0#32 ∧
      ReadySwitch tMem x tOff [] [] ∧ x.execs tOff = 0#32 := by
  refine ⟨readySwitch_of ?_ ?_, ?_, ?_, ?_, readySwitch_of ?_ ?_, ?_, readySwitch_of ?_ ?_, ?_⟩ <;> (try unfold CountFree) <;> decide +kernel

/-- A post of the last record that the scratchpad holds whole, and one of the first that it does not. -/
theorem witness_PostsAreReceived : ∀ off ∈ [3968, 3969, 4096], let s := tDoes (.taskPost off (.v 0) none)
    Stored s ∧ s.crew? 1 = some (tCrew s) ∧ (tCrew s).isResident = true ∧ (tCrew s).op? 1 = some (tOp 1 (.taskPost off (.v 0) none)) ∧ owing s 1 3 1 = false ∧
      mayReceive (tCrew s) (tOp 1 (.taskPost off (.v 0) none)) = true ∧ decide (off + 128 ≤ (tCrew s).ssize) = (off == 3968) := by
  unfold Stored; decide +kernel

/-! The landing and its engines. -/

/-- A task record with these words, by offset. -/
def tRecord (words : List (Nat × Nat)) : List Byte :=
  (List.range 32).flatMap fun n => bytesOf 4 (((words.find? fun x => x.1 == 4 * n).map (·.2)).getD 0)

/-- The machine with a task of this record in entry 63. -/
def tTask (words : List (Nat × Nat)) (f : Task → Task) : State :=
  tState id fun c => c.mapTask 63 fun t => f { t with record := tRecord words, state := .run, gen := 1 }

/-- A fill of 2 × 2 bytes with format 0 at 4092 of the crew's scratchpad. -/
def tFill : List (Nat × Nat) := [(0, 0x07000000), (0x40, 4088), (0x44, 0x10000002), (0x4C, 8), (0x70, 0x20002), (0x74, 9)]

theorem witness_LandingActs :
    let s := tTask tFill fun t => { t with state := .ready }
    let u := tTask [(0, 0x07000000), (0x10, 4096), (0x14, 0x10000000), (0x1C, 1)] fun t => { t with state := .ready }
    let w := tTask [(0, 0x01000000), (0x10, 0), (0x14, 0x10000000), (0x1C, 4)] fun t => { t with state := .ready }
    Stored s ∧ Stored u ∧ Stored w ∧ millFree s 0 3 = true ∧ nextTask s 0 false = some (1, 63) ∧ s.crew? 1 = some (tCrew s) ∧
      otherPasses s (tCrew s) ((tCrew s).task 63) = false ∧ kindBad s (tCrew s) ((tCrew s).task 63).record = false ∧
      nextTask u 0 false = some (1, 63) ∧ u.crew? 1 = some (tCrew u) ∧ otherPasses u (tCrew u) ((tCrew u).task 63) = true := by
  unfold Stored; decide +kernel

/-- A working set of one byte for L2, and one of a byte for the crew's scratchpad. -/
def tSet (tgt : Nat) (f : Task → Task) : State := tTask [(0x50, 0x40000), (0x58, 1), (0x5C, tgt)] fun t => f { t with state := .wait }

theorem witness_LandingActs_stage :
    (let s := tSet 1 fun t => { t with ws0 := .waiting };
      Stored s ∧ s.crew? 1 = some (tCrew s) ∧ (tCrew s).isResident = true ∧ (tCrew s).terminating = false ∧ (tCrew s).req = false ∧
        ((tCrew s).task 63).state ≠ .none ∧ ((tCrew s).task 63).ws 0 = .waiting ∧ sharedFree s (tCrew s).camp 1 = true ∧
        (recWset ((tCrew s).task 63).record 0).tgt = 1) ∧
    (let s := { tSet 2 fun t => { t with ws0 := .waiting } with launches := [{ tLaunch with stbsp := 1 }] };
      let x := recWset ((tCrew s).task 63).record 0;
      Stored s ∧ s.crew? 1 = some (tCrew s) ∧ (tCrew s).req = false ∧ ((tCrew s).task 63).state = .wait ∧ ((tCrew s).task 63).ws 0 = .waiting ∧
        sharedFree s (tCrew s).camp 1 = true ∧ x.tgt ≠ 1 ∧ (crewOn s (tCrew s).launch (tCrew s).camp x.core).isSome = true ∧
        stagingCharge s (tCrew s).launch (tCrew s).camp 2 + x.len ≤ (s.launchOf (tCrew s)).stbsp) ∧
    (let s := tSet 1 fun t => { t with ws0 := .moving 0 };
      ((tCrew s).task 63).ws 0 = .moving 0 ∧ engineHeld s (tCrew s) 2 126 = false ∧ stagingYields s (tCrew s) 63 0 = false ∧ Stored (stageL2 s (tCrew s) (recWset ((tCrew s).task 63).record 0))) := by
  unfold Stored; decide +kernel

theorem witness_LandingActs_deliver : let s := tSet 2 fun t => { t with ws0 := .moving 0 }
    ((tCrew s).task 63).ws 0 = .moving 0 ∧ engineHeld s (tCrew s) 2 126 = false ∧ stagingYields s (tCrew s) 63 0 = false ∧
      ∃ t, Delivers 1 63 0 (1 - 0) s t ∧ Stored t := by
  refine ⟨by decide +kernel, by decide +kernel, by decide +kernel, _, ⟨tCrew (tSet 2 fun t => { t with ws0 := .moving 0 }), tCrew (tSet 2 fun t => { t with ws0 := .moving 0 }), _, _,
    rfl, rfl, ?_, rfl, rfl⟩, ?_⟩ <;> (try unfold Stored) <;> decide +kernel

/-- An `emit` of lane 0, and the same in a pipeline with room in its queue. -/
def tEmit : State := tDoes (.emit [] (some 0) false)

def tPipe : State := { tEmit with launches := [{ tLaunch with pipe := true, qcap := [1] }], queues := [{ launch := 1, camp := 0, num := 0, recs := [], reserve := none }] }

theorem witness_LandingActs_push :
    tEmit.crew? 1 = some (tCrew tEmit) ∧ (tCrew tEmit).op? 1 = some (tOp 1 (.emit [] (some 0) false)) ∧ (tCrew tEmit).isResident = true ∧
      pushReady (tCrew tEmit) (tOp 1 (.emit [] (some 0) false)) = true ∧ queueAfter tEmit (tCrew tEmit) = none ∧
      Stored tPipe ∧ pushReady (tCrew tPipe) (tOp 1 (.emit [] (some 0) false)) = true ∧ queueAfter tPipe (tCrew tPipe) = some 1 ∧
      ∃ q, tPipe.queue? (tCrew tPipe).launch (tCrew tPipe).camp (tCrew tPipe).stage = some q ∧ q.recs.length < 1 := by
  refine ⟨?_, ?_, ?_, ?_, ?_, rfl, ?_, ?_, _, rfl, ?_⟩ <;> decide +kernel

theorem writeDests_bad (c : Crew) (e : Nat) {d : Desc} (h : d.space ≠ 4) (bs : List (Nat × Byte)) :
    ∀ s, (writeDests s c e d bs).bad = s.bad := by
  induction bs with
  | nil => exact fun _ => rfl
  | cons x xs ih =>
    intro s
    unfold writeDests writeDest
    rw [if_neg h]
    cases crewOn s c.launch c.camp (d.loc % 8) with
    | none => exact ih s
    | some y =>
      by_cases g : x.1 < y.ssize
      · simp only [g, if_true]
        exact (ih _).trans rfl
      · simp only [g, if_false]
        exact ih s

theorem completeTask_bad (s : State) (c : Crew) (e : Nat) (fl : FlagSet) (h : (recDesc (c.task e).record 3).space ≠ 4)
    (g : bit (recFlags (c.task e).record) 7 = false) : (completeTask s c e fl).bad = s.bad := by
  unfold completeTask writeXw taskDone
  simp [h, g, State.mapCrew]

/-- A running task of each mill kind, with its result in the crew's scratchpad. -/
def tMill (kind : Nat) : State := tTask [(0, kind * 2 ^ 24), (0x40, 0), (0x44, 0x10000040), (0x4C, 4096), (0x70, 128)] id

/-- The hypotheses of `EngineTasksComplete`, and those of `TileResultsWritten` with a scratchpad destination, for each kind. -/
theorem witness_EngineTasksComplete :
    ∀ kind ∈ [1, 2, 3, 4, 5, 6, 7], let s := tMill kind
      let c := tCrew s
      let k := c.task 63
      let r := k.record
      let out := millOut (withSeen s k) c r
      let rest := k.out.getD (out.rows.flatten, out.flags)
      Stored s ∧ s.crew? 1 = some c ∧ c.terminating = false ∧ k.state = .run ∧ recKind r = kind ∧ engineHeld s c 1 63 = false ∧
        millPoison s c r = none ∧ destXlat s c 63 (recDesc r 3) rest.1 = .ok ∧ publishWaits s c (recDesc r 3) = false ∧
        Stored (completeTask (writeDests s c 63 (recDesc r 3) rest.1) c 63 rest.2) ∧
        (recDesc r 3).space = 1 ∧ 63 < c.tasks.length ∧ crewOn s c.launch c.camp ((recDesc r 3).loc % 8) = some c ∧ s.crew? c.uid = some c := by
  have facts : ∀ kind ∈ [1, 2, 3, 4, 5, 6, 7], (tMill kind).crew? 1 = some (tCrew (tMill kind)) ∧ (tCrew (tMill kind)).terminating = false ∧
      ((tCrew (tMill kind)).task 63).state = .run ∧ recKind ((tCrew (tMill kind)).task 63).record = kind ∧
      engineHeld (tMill kind) (tCrew (tMill kind)) 1 63 = false ∧
      millPoison (tMill kind) (tCrew (tMill kind)) ((tCrew (tMill kind)).task 63).record = none ∧
      publishWaits (tMill kind) (tCrew (tMill kind)) (recDesc ((tCrew (tMill kind)).task 63).record 3) = false ∧
      (recDesc ((tCrew (tMill kind)).task 63).record 3).space = 1 ∧ 63 < (tCrew (tMill kind)).tasks.length ∧
      crewOn (tMill kind) 1 0 ((recDesc ((tCrew (tMill kind)).task 63).record 3).loc % 8) = some (tCrew (tMill kind)) ∧
      bit (recFlags ((tCrew (tMill kind)).task 63).record) 7 = false ∧ (tCrew (tMill kind)).launch = 1 ∧ (tCrew (tMill kind)).camp = 0 ∧
      (tMill kind).crew? (tCrew (tMill kind)).uid = some (tCrew (tMill kind)) := by
    decide +kernel
  intro kind h s c k r out rest
  obtain ⟨h1, h2, h3, h4, hh, h5, h6, hs, h8, h9, hb, h11, h12, h13⟩ := facts kind h
  have n4 : (recDesc r 3).space ≠ 4 := by rw [hs]; decide
  refine ⟨rfl, h1, h2, h3, h4, hh, h5, ?_, h6, ?_, hs, h8, ?_, h13⟩
  · unfold destXlat; rw [if_neg n4]
  · unfold Stored
    rw [completeTask_bad _ _ _ _ n4 hb, writeDests_bad _ _ n4]
    rfl
  · rw [h11, h12]; exact h9

/-- A `stage` of two bytes. -/
def tStage : State := tTask [(0, 0x08000000), (0x10, 0), (0x14, 0x10000001), (0x1C, 2), (0x40, 64), (0x44, 0x10000001), (0x4C, 2), (0x70, 2), (0x74, 1)] id

theorem witness_EngineTasksComplete_stage : recKind ((tCrew tStage).task 63).record = 8 ∧ ∃ t c', Stages 1 63 2 tStage t ∧ t.crew? 1 = some c' ∧
    publishWaits t c' (recDesc (c'.task 63).record 3) = false ∧ Stored (completeTask t c' 63 0#6) := by
  refine ⟨by decide +kernel, _, _, ⟨tCrew tStage, _, _, rfl, ?_, ?_, rfl, _, _, _, rfl, ?_, ?_, rfl, rfl⟩, rfl, ?_, ?_⟩ <;>
    (try unfold Stored) <;> decide +kernel

/-- A fill of 2 × 2 bytes with format 0 into the `.v` window 63, and into a `.g` window whose shadow is at VA 0x40000. -/
def tFillWin (glob : Bool) : State :=
  { tTask [(0, 0x07000000), (0x40, 0), (0x44, 0x40000002), (0x48, 63), (0x4C, 8), (0x70, 0x20002), (0x74, 9)] id with
    windows := [if glob then { tWin with glob := true, woff := 0x60000, back0 := 0x50000, back1 := 0x40000 } else tWin]
    vaults := [{ launch := 1, camp := 0, base := 0, size := 64, bytes := [] }] }

theorem witness_TileResultsWritten_v : let s := tFillWin false
    let c := tCrew s
    Stored s ∧ s.crew? 1 = some c ∧ c.terminating = false ∧ (c.task 63).state = .run ∧ recKind (c.task 63).record = 7 ∧ engineHeld s c 1 63 = false ∧
      (c.task 63).out = none ∧ millPoison s c (c.task 63).record = none ∧ publishWaits s c (recDesc (c.task 63).record 3) = false ∧
      (recDesc (c.task 63).record 3).space = 4 ∧ c.window? s (recDesc (c.task 63).record 3).loc = some tWin ∧ (s.vault? 1 0).isSome = true := by
  unfold Stored; decide +kernel

theorem witness_TileResultsWritten_g : let s := tFillWin true
    let c := tCrew s
    let d := recDesc (c.task 63).record 3
    let out := (millOut s c (c.task 63).record).rows.flatten
    let b := (out.getLastD (0, 0#8)).2
    let o := (out.getLastD (0, 0#8)).1
    publishWaits s c d = false ∧ out = out.dropLast ++ [(o, b)] ∧ destXlat s c 63 d out = .ok ∧ (∃ v, writeDest (writeDests s c 63 d out.dropLast) c 63 d o b = .ok v b ∧ Stored v) ∧
      ∃ w, c.window? s d.loc = some w ∧ w.glob = true ∧ ∃ lf lfs,
        (engineXlat (writeDests s c 63 d out.dropLast) c (.engine 1 1 63 o) true 1 (w.backing (!w.cur) (w.woff + o))).2 = .ok (lf :: lfs) ∧ hbmHas lf.pa = true := by
  refine ⟨?_, ?_, ?_, ⟨_, rfl, ?_⟩, _, rfl, ?_, _, _, rfl, ?_⟩ <;> (try unfold Stored) <;> decide +kernel

/-- The same `stage` towards the scratchpad of the crew on core 1. -/
def tStageFar : State :=
  let s := tTask [(0, 0x08000000), (0x10, 0), (0x14, 0x10000001), (0x1C, 2), (0x40, 64), (0x44, 0x10000001), (0x48, 1), (0x4C, 2), (0x70, 2), (0x74, 1)] id
  { s with crews := s.crews ++ [Crew.fresh 2 1 0 0 0 1 64 4096 0 false [Gang.fresh .user 0#64 1 []]] }

theorem witness_TileResultsWritten_stage : let s := tStageFar
    let c := tCrew s
    let r := (c.task 63).record
    Stored s ∧ s.crew? 1 = some c ∧ (c.task 63).state = .run ∧ engineHeld s c 1 63 = false ∧ recKind r = 8 ∧ (recDesc r 0).space = 1 ∧
      (recDesc r 3).space = 1 ∧ crewOn s c.launch c.camp ((recDesc r 0).loc % 8) = some c ∧ s.spoiled = [] ∧
      ((crewOn s c.launch c.camp ((recDesc r 3).loc % 8)).any fun d => s.crew? d.uid == some d && d.uid == 2) = true ∧
      ∀ j ∈ List.range (recParam r 0 * recParam r 1), stageFrom r j < (recDesc r 0).off + (recDesc r 0).len ∧
        stageTo r j < (recDesc r 3).off + (recDesc r 3).len := by
  unfold Stored; decide +kernel

/-! System instructions. Lane 0 is in hypervisor mode at VA 0x20000, with an address in v10, v11 and a number in v12. -/

/-- VA page 4 is PA page 5: format descriptors at 0x40100 and 0x40200, a launch record at 0x40300. -/
def tData : List Host.Cell := [(0x5010E, 2#8), (0x50208, 1#8), (0x5020E, 2#8), (0x503A4, 1#8)]

def tSys (va n : Nat) : State :=
  { tState (fun g => { (g.mapLane 0 fun x => { x with mode := .hyper, regs := [(10, word32 va), (12, word32 n)] }) with
      frontier := [{ pc := 0x20000#64, band := 2, prio := 9, mask := 1#32, busy := false }] }) id with
    hbm := tHbm ++ tData, host := [(8, 9#8)] }

/-- The arguments are read, lane 0 alone executes, and the crew goes on. -/
def tSysReady (s : State) : Prop :=
  ReadySwitch s (issueOf s) .plain [(.v 14, 1), (.v 10, 2), (.v 12, 1)] [] ∧ ((issueOf s).execs .plain).lanes = [0] ∧ Stored s ∧
    s.crew? (issueOf s).c.uid = some (issueOf s).c ∧ (issueOf s).c.terminating = false

theorem tSysReady_of {s : State}
    (h : (issuing s == some (issueOf s) && !scoreboard (issueOf s).c (issueOf s).k (issueOf s).e .plain [(.v 14, 1), (.v 10, 2), (.v 12, 1)] [] &&
      s.bad.isNone) = true)
    (g : (!(issueOf s).g.stopReq && !preHalt (issueOf s).c (issueOf s).g) = true)
    (k : (((issueOf s).execs .plain).lanes == [0] && s.crew? (issueOf s).c.uid == some (issueOf s).c && !(issueOf s).c.terminating) = true) :
    tSysReady s := by
  simp only [Bool.and_eq_true, beq_iff_eq, Bool.not_eq_true'] at k
  refine ⟨readySwitch_of h g, k.1.1, ?_, k.1.2, k.2⟩
  simp only [Bool.and_eq_true, Option.isNone_iff_eq_none] at h
  exact h.2

/-- What a lane reads for its instruction. -/
def tReads (s : State) (n : Nat) : Option (List Byte) :=
  laneRead s (issueOf s).c ((issueOf s).c.who s ((issueOf s).g.lane 0).mode) (readWide (issueOf s).g s.draws 0 (.v 10) 2) n

def tArgB (s : State) : Nat := readWide (issueOf s).g s.draws 0 (.v 12) 1

theorem witness_SystemInstructionsIssue :
    (∀ s ∈ [tSys 0x40000 0, tSys 0x40100 127, tSys 0x50000 16], tSysReady s) ∧
    Acts (fun u _ o => o = { state := tlbDrop u (.vf 1), status := none, wait := .tlbinv (tlbUses u (.vf 1)) }) (fun _ => none)
      (fun _ => .tlbinv (tlbUses (tSys 0x40000 0) (.vf 1))) (tSys 0x40000 0) [0] (tlbDrop (tSys 0x40000 0) (.vf 1)) ∧
    (tlbDrop (tSys 0x40000 0) (.vf 1)).bad = none := by
  refine ⟨fun s h => ?_, ⟨_, rfl, rfl⟩, rfl⟩
  simp only [List.mem_cons, List.not_mem_nil, or_false] at h
  rcases h with rfl | rfl | rfl <;> exact tSysReady_of (by decide +kernel) (by decide +kernel) (by decide +kernel)

/-- Each outcome of `frmset`, `launch.run` and `launch.adm`, and what they read. -/
theorem witness_SystemInstructionsIssue_reads :
    (127 < tArgB (tSys 0 128) ∧ tReads (tSys 0x50000 127) 32 = none ∧ tArgB (tSys 0x50000 127) = 127) ∧
    (tReads (tSys 0x40000 0) 32).any (fun r => !(rangeFields r).v) ∧
    (tReads (tSys 0x40200 0) 32).any (fun r => (rangeFields r).v && rangeBad 0 r) ∧
    (tReads (tSys 0x40100 0) 32).any (fun r => (rangeFields r).v && !rangeBad 0 r) ∧
    tReads (tSys 0x50000 0) 256 = none ∧ tReads (tSys 0x50000 0) 64 = none ∧
    (tReads (tSys 0x40000 0) 256).any (fun r => bits (fieldAt r 0xA4 4) 5 0 == 0) ∧
    (tReads (tSys 0x40300 0) 256).any (fun r => bits (fieldAt r 0xA4 4) 5 0 == 1 && bits (fieldAt r 0xA4 4) 31 16 == 0 &&
      decide (ringUsed ((tSys 0x40300 0).ctxAt 1 0) 0 < 2 ^ 4)) ∧
    (tReads (tSys 0x40000 0) 64).any fun r => fieldAt r 4 2 == 0 && decide (requestsOf (tSys 0x40000 0) 1 < 16) := by
  refine ⟨?_, ?_, ?_, ?_, ?_, ?_, ?_, ?_, ?_⟩ <;> decide +kernel

/-- The queue of the context, and the queues of its Grader, are full; and addresses that do not read. -/
theorem witness_SystemInstructionsIssue_full :
    (let s := { tSys 0x40300 0 with ctxs := [{ Ctx.fresh 1 0 with lqProd := 16 :: List.replicate 7 0 }] };
      tSysReady s ∧ 2 ^ ((readDesc s 1 0).getD tLaunch.desc).lqsz ≤ ringUsed (s.ctxAt 1 0) 0) ∧
    (let r := { vf := 1, words := [], priv := .super, desc := tLaunch.desc, bind := none, start := 0, pending := none, failed := false, result := none };
      let s := { tSys 0x40000 0 with admQueue := List.replicate 16 (0, r) };
      tSysReady s ∧ ¬requestsOf s 1 < 16 * 2 ^ ((s.func 1).admq.toNat % 16)) ∧
    tReads (tSys 0x50000 0) 96 = none ∧ (tReads { tSys 0x40100 0 with hbm := tHbm ++ [(0x50104, 1#8)] } 64).any fun r => fieldAt r 4 2 == 1 := by
  refine ⟨⟨tSysReady_of (by decide +kernel) (by decide +kernel) (by decide +kernel), ?_⟩,
    ⟨tSysReady_of (by decide +kernel) (by decide +kernel) (by decide +kernel), ?_⟩, ?_, ?_⟩ <;> decide +kernel

/-- The key slots of VF 1 are 5 and 6; a world of its launch uses slot 6; the VF runs; a load of the gang is pending. -/
def tKeys : State :=
  { tState (fun g => { (g.mapLane 0 fun x => { x with mode := .hyper, regs := [(10, 0x40000#32), (12, 6#32)] }) with
      frontier := [{ pc := 0x20000#64, band := 2, prio := 9, mask := 1#32, busy := false }] }) (fun c => { c with ops := [tOp 1 (.load (.scr 0) .norm .b32 (.v 0))] }) with
    launches := [{ tLaunch with world := true, wkey := 1, key := 6 }], keySlots := [(6, 1)]
    funcs := (List.range 64).map fun v => if v = 1 then { Func.fresh v with ready := true, tdisp := .run, keys := 0x20005#21 } else Func.fresh v }

theorem witness_SystemInstructionsIssue_keys : let s := tKeys
    let t := (worldsOn s 6).foldl tearDown { s with keySlots := s.keySlots.filter fun e => e.1 != 6 }
    tSysReady s ∧ keyVf s 1 .hyper 6 = some 1 ∧ keyVf s 1 .super 7 = none ∧ ((tSys 0 6).func 1).tdisp ≠ .run ∧ (s.func 1).tdisp = .run ∧ (tReads s 96).isSome = true ∧
      (tReads s 64).isSome = true ∧ t.bad = none ∧ (t.crew? (issueOf s).c.uid).any fun c => c.terminating := by
  refine ⟨tSysReady_of (by decide +kernel) (by decide +kernel) (by decide +kernel), ?_, ?_, ?_, ?_, ?_, ?_, ?_, ?_⟩ <;> decide +kernel

/-- Another crew of the context. -/
def tOther (y : Crew) : State :=
  let s := tSys 0x40000 1
  { s with crews := s.crews ++ [y], tlbs := s.tlbs ++ [tTlb 0 5 6, tTlb 0 6 7], vaults := [{ launch := 1, camp := 0, base := 0, size := 0, bytes := [] }] }

def tNext : Crew := Crew.fresh 2 1 0 0 0 1 64 4096 0 false [Gang.fresh .user 0#64 1 []]

theorem witness_SystemInstructionsIssue_save :
    tSysReady (tOther tNext) ∧ saveStatus (tOther tNext) (issueOf (tOther tNext)).c .hyper 0x40000 1 = 0 ∧ (tOther tNext).resident? 1 = some tNext ∧
      (takeSave (tOther tNext) 2 false 0x40000 1).bad = none ∧ ((takeSave (tOther tNext) 2 false 0x40000 1).crew? 1).any (fun c => !c.terminating) ∧
      saveStatus (tOther tNext) (issueOf (tOther tNext)).c .hyper 0x40001 1 ≠ 0 ∧
      (loadStatus (tOther tNext) (issueOf (tOther tNext)).c .hyper 0x40000 1).1 ≠ 0 := by
  refine ⟨tSysReady_of (by decide +kernel) (by decide +kernel) (by decide +kernel), ?_, ?_, ?_, ?_, ?_, ?_⟩ <;> decide +kernel

/-- A saved crew of no gangs, and the header of its area at VA 0x40000. -/
def tArea : State :=
  let y := { (Crew.fresh 2 1 0 0 0 1 0 0 0 false []) with place := .saved true 0x40000 }
  { tOther y with hbm := tHbm ++ [(0x50001, 2#8), (0x50002, 1#8), (0x50018, 1#8)] ++
      [0x50135, 0x50139, 0x5013D, 0x50141, 0x50145, 0x50149].map fun a => (a, 2#8) }

theorem witness_SystemInstructionsIssue_load : tSysReady tArea ∧ (loadStatus tArea (issueOf tArea).c .hyper 0x40000 1).1 = 0 ∧
    ((loadStatus tArea (issueOf tArea).c .hyper 0x40000 1).2).any fun y => y.1.uid == 2 := by
  refine ⟨tSysReady_of (by decide +kernel) (by decide +kernel) (by decide +kernel), ?_, ?_⟩ <;> decide +kernel

theorem witness_SystemInstructionsAct :
    let s := tState (fun g => { g with sys := [{ lane := 0, kind := .frmset 127 { State.reset.range 0 with v := true } }] }) id
    Stored s ∧ s.crew? 1 = some (tCrew s) ∧
      (((tCrew s).gang 0).sys.find? fun w => w.lane == 0 && sysDone s w.kind) =
        some { lane := 0, kind := .frmset 127 { State.reset.range 0 with v := true } } := by
  unfold Stored; decide +kernel

/-! Requests to the host and to other modules, links, page requests. -/

def tHostLoad : OpKind := .load (.host 0) .l2 .b32 (.v 63)

def tHostCas : OpKind := .cas (.host 8) 4 0 1 (.v 0) (some 0)

theorem witness_HostRequestsEnd :
    (∀ k ∈ [tHostLoad, tHostCas, .store (.host 4) .b32 5], (tDoes k).crew? 1 = some (tCrew (tDoes k)) ∧ (tCrew (tDoes k)).isResident = true ∧
      (tCrew (tDoes k)).terminating = false ∧ (tCrew (tDoes k)).op? 1 = some (tOp 1 k) ∧ k.host?.isSome = true ∧
      opReady (tDoes k) (tCrew (tDoes k)) (tOp 1 k) = true ∧ ended (tDoes k) (tCrew (tDoes k)) (tOp 1 k) = false ∧
      ringRoom (tDoes k) ((tCrew (tDoes k)).ring (tDoes k)) 1 = true) ∧
    (∀ k ∈ [tHostLoad, tHostCas], (lateTrap (tDoes k) (tCrew (tDoes k)) 0 1
      { lane := 0, cause := 0x60, pc := 0#64, tpc := 0#64, addr := 0, det0 := 0, det1 := 0 }).bad = none) ∧
    ∀ k ∈ [tHostLoad, tHostCas, .store (.host 4) .b32 5],
      (effect (tDoes k) none (addrLocs (tDoes k) (tCrew (tDoes k)) (.host 0) 4) k).st.bad = none := by
  refine ⟨?_, ?_, ?_⟩ <;> decide +kernel

/-- The get on channel 0. -/
def tGetCopy (on : Bool) : Copy := { tOne 15 true with slices := [tGetSlice on] }

def tGet (on : Bool) : State := { tCopy (tGetCopy on) with links := tLinks }

/-- A stopped copy leaves the machine well formed when it has one slice, with one byte to come, whose delivery would. -/
theorem stopCopy_bad {s : State} {uid chan : Nat} {x : Copy} {y : Slice} {c : Crew} (hc : s.crew? uid = some c)
    (h : (x.ordered == [y] && y.len - y.done == 1 && s.bad.isNone && match moveByte { s with draws := s.draws + 1 } c chan y (y.len - 1) with
      | .ok t _ => t.bad.isNone
      | _ => true) = true) : (stopCopy s uid chan x).bad = none := by
  simp only [Bool.and_eq_true, beq_iff_eq, Option.isNone_iff_eq_none] at h
  obtain ⟨⟨⟨ho, hn⟩, hb⟩, hm⟩ := h
  have hs : (spill uid chan y 1 s).bad = none := by
    simp only [spill, hc, Nat.zero_add]
    split
    · split
      · rename_i t b hk
        rw [hk] at hm
        exact Option.isNone_iff_eq_none.mp hm
      · exact hb
    · exact hb
  unfold stopCopy
  simp only [ho, List.foldl_cons, List.foldl_nil, hn, State.mapCrew]
  cases x.begun <;> first | exact hs | exact hb

/-- An atomic of lane 0 on module 16, and a machine whose lane waits for it. -/
def tFabOp (on : Bool) : Op := { tOp 1 (.cas (.fab 16 0x40000) 8 0 1 (.v 0) (some 14)) with route := tRoute on }

def tFab (on : Bool) : State :=
  { tState (fun g => { (g.mapLane 0 fun x => { x with scnt := [1, 0, 0, 0, 0, 0, 0, 0] }) with sys := [{ lane := 0, kind := .remote 1 }] })
      fun c => { c with ops := [tFabOp on], nextOp := 2 } with links := tLinks }

theorem witness_FabricRequestsEnd :
    (∀ on ∈ [false, true], let s := tFab on
      let c := tCrew s
      s.crew? 1 = some c ∧ c.isResident = true ∧ c.terminating = false ∧ c.op? 1 = some (tFabOp on) ∧ (tFabOp on).kind.fab? = some (16, 0x40000) ∧
        opReady s c (tFabOp on) = true ∧ ended s c (tFabOp on) = false ∧ sliceCopy c 1 = none ∧ usable s (tFabOp on).route = on ∧
        ringRoom s (c.ring s) 1 = true ∧ ((c.gang 0).sys.any fun w => w.kind == .remote 1) = true ∧
        (remoteDone (endOp (writeRecord s (c.ring s) (fabricRecord c 0 1#32 0#64 16 0x40000 0xFF 2 true 0)) 1 (tFabOp on)
          (failedWords (tFabOp on).kind) (failedPreds (tFabOp on).kind)) 1 (tFabOp on)).bad = none ∧
        (lateTrap s c 0 1
          { lane := 0, cause := 0x20, pc := 0#64, tpc := 0#64, addr := 16 * 2 ^ 56 + 0x40000, det0 := 0, det1 := 0 }).bad = none) ∧
    ∀ on ∈ [false, true], let s := tGet on
      let c := tCrew s
      s.crew? 1 = some c ∧ owing s 1 0 0 = false ∧ (sliceCopy c 1).any fun x => x.1 == 0 && usable s x.2.2.route == on &&
        x.2.1 == tGetCopy on && ringRoom s (c.ring s) (x.2.1.ordered.filter fun y => decide (y.done < y.len)).length &&
        (terminate (writeRecord s (c.ring s) (faultRecord c 0 x.2.2 { sub := 4, addr := 16 * 2 ^ 56 + 15 })) 1 none).bad.isNone := by
  refine ⟨?_, ?_⟩ <;> decide +kernel

theorem witness_FabricRequestsEnd_stop : ∀ on ∈ [false, true], let s := tGet on
    let c := tCrew s
    (stopCopy (writeRecord s (c.ring s) (fabricRecord c 0 3#32 0#64 16 15 0xFF 2 false 15)) 1 0 (tGetCopy on)).bad = none := by
  intro on h
  simp only [List.mem_cons, List.not_mem_nil, or_false] at h
  rcases h with rfl | rfl
  · exact stopCopy_bad (y := tGetSlice false) rfl (by decide +kernel)
  · exact stopCopy_bad (y := tGetSlice true) rfl (by decide +kernel)

/-- Link 17 in each state. -/
def tLink (n : Nat) : State := { State.reset with links := List.replicate 17 Link.fresh ++ [{ state := n, failed := n == 0, retries := 0xFFFFFFFF#32 }] }

theorem witness_LinksChangeState :
    ∀ n ∈ [0, 1, 2], Stored (tLink n) ∧ ∃ l, (tLink n).links[17]? = some l ∧ l.state = n := by
  intro n h
  refine ⟨rfl, _, rfl, ?_⟩
  rfl

/-- Channel 7 of crew 1 waits to tell of its fault. -/
def tOwes : RingWait :=
  { vf := 1, ctx := 0, crew := 1, gang := none, fate := .die 0 7, recs := [faultRecord (tCrew (tDoes .fbar)) 7 (tSlice 0) { sub := 4, addr := 0 }]
    org := (1, 0, 0) }

/-- A page request of VF 1 that lane 0's load waits on, sent or still to be sent. -/
def tPages (sent : Bool) : State :=
  let s := tDoes (.load (.page 4 0x40000 false) .norm .b32 (.v 0))
  { s.mapFunc 1 (fun f => { f with priOn := true, priAlloc := 1, nextPrg := 1, reqs := [{ prg := 0, gpa := 0x50000, pasid := 0, write := false, sent := sent
                                                                                         , joined := [.lane 1 0 0] }] }) with
    crews := s.crews.map fun c => c.mapGang 0 fun g => { g with
      pages := [{ lane := 0, op := 1, miss := { vf := 1, prg := 0, addr := 0x40000, det := 0 }, acc := 0, user := true, due := none }] }
    ringWait := [{ vf := 1, ctx := 0, crew := 1, gang := some 0 }, tOwes] }

theorem witness_PageRequestsResolve :
    (let s := tPages false;
      let f := s.func 1;
      f.reqs.find? (fun r => !r.sent) = f.reqs.head? ∧ f.reqs ≠ [] ∧ f.priOn = true ∧ f.prifail = false ∧ (f.reqs.filter fun r => r.sent).length < f.priAlloc) ∧
    (let s := tPages true;
      let f := s.func 1;
      f.reqs.find? (fun r => r.prg == 0 && r.sent) = f.reqs.head? ∧ f.reqs ≠ [] ∧ (waitersOf s 1 0).length = 1 ∧
        (settleAllDue ((waitersOf s 1 0).foldl (fun u x => replayLane u x.1 x.2.1 x.2.2) (s.mapFunc 1 fun f => { f with reqs := [] }))).bad = none ∧
        ∀ code ∈ [1, 2], let u := s.mapFunc 1 fun f => { f with reqs := [], prifail := code == 2 }
          (failLanes (([Joiner.lane 1 0 0] : List Joiner).eraseDups.foldl failJoiner u) 1 0 code).bad = none) ∧
    (let s := tPages true;
      (s.launches.find? fun l => l.vf == 1 && l.ctx == 0) = some tLaunch ∧ ringRoom s tLaunch.ring 1 = true ∧
      (s.ringWait.filter fun w => !w.recs.isEmpty) = [tOwes] ∧ ringRoom s tLaunch.ring tOwes.recs.length = true ∧
      (settleAllDue (giveOwed { s with ringWait := s.ringWait.filter fun w => !w.recs.isEmpty } tLaunch.ring tOwes)).bad = none) := by
  decide +kernel

/-! Crews. -/

/-- The machine before any crew, with its launch to be placed on cores 0 to 7. -/
def tReady : State :=
  { tState id id with crews := [], cur := none, launches := [{ tLaunch with nextCrew := [0], stages := [0], savesz := 0x40000 }] }

theorem witness_DispatchedCrewsStart :
    let l := { tLaunch with nextCrew := [0], stages := [0], savesz := 0x40000 }
    Stored tReady ∧ tReady.launch? 1 = some l ∧ tReady.resident? 0 = none ∧ mayPlace tReady l 0 = true ∧ stageFor tReady l 0 = some 0 ∧
      (freeCores tReady l).head? = some 0 ∧ launchKernel tReady l 0 = some (tImage.kerns.headD ⟨0#64, 0, 0, 0, false, .user, 0, 0#32, 0#64, 0#64⟩) ∧
      ∀ c ∈ tReady.crews, c.uid ≠ tReady.nextUid := by
  unfold Stored; decide +kernel

/-- A pipeline of two stages; its queue 0 in camp 0 holds these records. -/
def tPipeline (recs : List (List Word)) (crews : List Crew) : State :=
  { tReady with
    crews := crews, nextUid := 3
    launches := [{ tLaunch with nextCrew := [0, 0], stages := [0, 0], savesz := 0x100000, pipe := true, qcap := [1], begun := true }]
    vaults := [{ launch := 1, camp := 0, base := 0, size := 0, bytes := [] }]
    queues := [{ launch := 1, camp := 0, num := 0, recs := recs, reserve := none }] }

/-- Crews of stage 0 on every core of the camp; the one on core 7 waits to push. -/
def tFull : State :=
  tPipeline [[]] ((List.range 8).map fun k => { (Crew.fresh (10 + k) 1 k 0 0 k 64 4096 0 false [Gang.fresh .user 0#64 1 []]) with
    ops := if k = 7 then [tOp 1 (.emit [] none true)] else [] })

theorem witness_CrewsComeAndGo_placed :
    (let s := tPipeline [[]] [];
      let l := s.launches.headD Launch.blank;
      Stored s ∧ s.launch? 1 = some l ∧ s.resident? 7 = none ∧ mayPlace s l 7 = true ∧ stageFor s l 7 = some 1 ∧ tooLate s l 1 0 = false) ∧
    (let l := tFull.launches.headD Launch.blank;
      Stored tFull ∧ tFull.launch? 1 = some l ∧ (tFull.resident? 0).any (fun c => c.launch == 1) ∧ l.pipe = true ∧
        (pushHolder tFull l 0).isSome = true ∧ (tFull.resident? 7).map (·.uid) = (pushHolder tFull l 0).map (·.1) ∧ Stored (leaveFor tFull l 17 7 1)) := by
  unfold Stored; decide +kernel

/-- A crew of no gangs that the landing has saved at VA 0x40000, with its area. -/
def tSaved : State :=
  { tReady with
    crews := [{ (Crew.fresh 2 1 0 0 0 1 0 0 0 false []) with place := .saved false 0x40000 }]
    hbm := tHbm ++ [(0x50001, 2#8), (0x50002, 1#8), (0x50018, 1#8)] ++ [0x50135, 0x50139, 0x5013D, 0x50141, 0x50145, 0x50149].map fun a => (a, 2#8) }

theorem witness_CrewsComeAndGo_resumed : let s := tSaved
    let l := s.launches.headD Launch.blank
    let w := l.who 512
    let hd := (deviceRead s w 0x40000 512).getD []
    let bs := (deviceRead s w 0x40000 (headerOf hd).lay.total).getD []
    Stored s ∧ s.crew? 2 = s.crews.head? ∧ s.resident? 7 = none ∧ coreAllowed s l 7 = true ∧ tractReady s 7 = true ∧ campRoom s l 0 = true ∧
      (s.crews.all fun c => !earlierSaved s c 7 && s.launchOf c == l && sizesOk c (headerOf bs) && ((resumeAt (enterCamp (stopOver s 1) l 0) c bs 7).bad).isNone) ∧
      coopHolds s l 7 = false ∧ stopHolds s l.vf = false ∧ pledged s 7 none = false ∧ (s.func l.vf).vfshare ≠ 0#16 ∧ deviceRead s w 0x40000 512 = some hd ∧
      deviceRead s w 0x40000 (headerOf hd).lay.total = some bs := by
  unfold Stored; decide +kernel

/-- The gang has retired its lanes; a second gang has not. -/
def tOver (two : Bool) : State :=
  tState (fun g => { g with lanes := List.replicate 32 Lane.blank, frontier := [] }) fun c =>
    if two then { c with ngangs := 2, gangs := c.gangs ++ [Gang.fresh .user 0#64 1 []] } else c

theorem witness_CrewsComeAndGo_retired :
    (let s := tOver true;
      let c := tCrew s;
      s.crew? 1 = some c ∧ c.isResident = true ∧ c.terminating = false ∧ 0 < c.ngangs ∧ gangOver (c.gang 0) = true ∧
        ((retireGang s c 0).crew? 1).any (fun y => y.liveGangs != []) ∧ c.liveGangs ≠ [0]) ∧
    (let s := tOver false;
      let c := tCrew s;
      s.crew? 1 = some c ∧ gangOver (c.gang 0) = true ∧
        ((retireGang s c 0).crew? 1).any (fun y => y.liveGangs == [] && (retireCrew (retireGang s c 0) y).bad.isNone) ∧ c.succSet = false ∧
        ringRoom s (c.ring s) 1 = true) := by
  decide +kernel

/-- The crew's slot is held for the successor of entry 63. -/
def tSucc : State :=
  tState id fun c => { (c.mapTask 63 fun t => { t with state := .ready, gen := 1, record := tRecord [(0, 0x40000000)] }) with
    noGang := true, succ := 127#32, succSet := true, alloc := 4096 }

theorem witness_CrewsComeAndGo_succeeded :
    let c := tCrew tSucc
    tSucc.crew? 1 = some c ∧ c.place = .core 0 ∧ tidState c c.succ.toNat = .live 63 ∧ c.noGang = true ∧ c.terminating = false ∧ c.req = false ∧
      (c.task 63).state = .ready ∧ (kernelAt tSucc c (recParam (c.task 63).record 0)).isSome = true := by
  decide +kernel

/-- A crew asked to leave, its gang halted at the end of its quantum of 800000 cycles. -/
def tAsked (req : Bool) (crew : Crew) : State :=
  { tReady with now := 800000, launches := tReady.launches.map fun l => { l with savebase := 0x40000 }, crews := [{ crew with req := req, count := 800000 }] }

theorem witness_CrewsComeAndGo_saved :
    (let s := tAsked false (Crew.fresh 1 1 0 0 0 0 64 4096 0 false [Gang.fresh .user 0#64 1 []]);
      let c := tCrew s;
      s.crew? 1 = some c ∧ c.isResident = true ∧ c.terminating = false ∧ c.req = false ∧ c.slice + 8 * (s.ctxAt 1 0).quantum.toNat ≤ s.now ∧
        Stored (requestPreempt s 1 none)) ∧
    (let s := tAsked true (Crew.fresh 1 1 0 0 0 0 64 4096 0 false [{ Gang.fresh .user 0#64 1 [] with chosen := true }]);
      let c := tCrew s;
      c.req = true ∧ c.force = false ∧ c.reqAt + c.count ≤ s.now ∧ (expire s c).any fun t => t.bad.isNone) ∧
    (let s := tAsked true (Crew.fresh 1 1 0 0 0 0 0 0 0 false []);
      let c := tCrew s;
      mayWrite s c = true ∧ degrades s c = false ∧ (saveTarget s c).any fun x => (deviceWrite s x.2.2 x.2.1 (areaBytes s c (c.settled s.tick))).any
        fun u => u.bad.isNone) := by
  unfold Stored; decide +kernel

/-! Launches. Context 0 of VF 1 has its descriptor at host address 0, and its rings of one record from 0x1000. -/

/-- A launch record with these words, by offset. -/
def tLaunchRecord (words : List (Nat × Nat)) : List Host.Cell :=
  words.flatMap fun x => ((bytesOf 4 x.2).zip (List.range 4)).filterMap fun b => if b.1 = 0#8 then none else some (0x1000 + x.1 + b.2, b.1)

/-- The record of queue 0 is submitted. -/
def tSubmit (words : List (Nat × Nat)) : State :=
  { tReady with
    host := (0x21, 0x10#8) :: tLaunchRecord words, funcs := (List.range 64).map fun v => { Func.fresh v with ready := true, part := 1#64 }
    ctxs := [{ Ctx.fresh 1 0 with lqProd := 1 :: List.replicate 7 0 }] }

/-- One crew of kernel 0 of handle 1, on camp 0. -/
def tRun : List (Nat × Nat) := [(0, 1), (8, 1), (0x14, 1), (0x18, 1), (0x20, 1), (0x24, 0x10040), (0x28, 4096), (0x40, 0x40000), (0x50, 1), (0xB4, 0x80000000)]

def tDesc : CtxDesc := { s1root := 0, pasid := 0, cls := 0, ctxwt := 0, bindbase := 0, bindcnt := 0, lqbase := 0x1000, lqsz := 0 }

theorem witness_LaunchesRun :
    ∀ s ∈ [tSubmit tRun, tSubmit (tRun ++ [(4, 1)])], Stored s ∧ readDesc s 1 0 = some tDesc ∧ accepts s 1 = true ∧ ringUsed (s.ctxAt 1 0) 0 ≠ 0 := by
  unfold Stored; decide +kernel

theorem witness_LaunchesRun_codes :
    (launchAt (tSubmit tRun) 1 0 0 0 tDesc).2 = 0 ∧ (launchAt (tSubmit (tRun ++ [(4, 1)])) 1 0 0 0 tDesc).2 = 1 ∧
      (let l := (launchAt (tSubmit (tRun ++ [(4, 1)])) 1 0 0 0 tDesc).1;
        Stored (writeCompletion (tSubmit (tRun ++ [(4, 1)])) { l with status := 1 } 1)) := by
  unfold Stored; decide +kernel

/-- A launch with nothing left to run, and one in a world at VA 0x40000, whose page is protected. -/
def tOverState : State := { tReady with launches := tReady.launches.map fun l => { l with nextCrew := [1] } }

def tWorld : State :=
  { tReady with
    launches := tReady.launches.map fun l => { l with world := true }
    tlbs := [{ tTlb 576 4 5 with s1 := 0x439 }] }

theorem witness_LaunchesRun_ended :
    (let l := tOverState.launches.headD Launch.blank;
      tOverState.launch? 1 = some l ∧ l.done = false ∧ launchOver tOverState l = true ∧ Stored (endLaunch tOverState l) ∧ l.status = 0) ∧
    (let l := tWorld.launches.headD Launch.blank;
      tWorld.launch? 1 = some l ∧ l.world = true ∧ (match translate tWorld (l.who 576) 0 0x40000 with
        | (_, .ok lf) =>
          let bs := recordBytes l.ring tWorld.tick (deviceRecord 0x23 2 0x40000 (lf.pa % 2 ^ 32) (lf.pa / 2 ^ 32))
          let s1 := putRecord tWorld l.ring bs
          lf.prot && ringRoom s1 (pfRing s1) 1 && (tearDown (putRecord s1 (pfRing s1) bs) 1).bad.isNone
        | _ => false) = true ∧ ringRoom tWorld l.ring 1 = true) := by
  unfold Stored; decide +kernel

/-! The Grader of tract 0. -/

/-- A request of VF 1 with these words, submitted by its device code. -/
def tRequest (words : List (Nat × Nat)) : AdmReq :=
  { vf := 1, words := (List.range 16).map fun n => ((words.find? fun x => x.1 == n).map (·.2)).getD 0, priv := .super, desc := tDesc, bind := none
    start := 0, pending := none, failed := false, result := none }

def tAdmits (words : List (Nat × Nat)) : State :=
  { tReady with
    admQueue := [(0, tRequest words)], tlbs := [tTlb 576 4 5]
    hbm := tHbm ++ [(0x50000, 0x80#8), (0x50002, 1#8)] }

/-- An image at VA 0x40000 whose header has a version and nothing else; and one with a wrong version at 0x40100. -/
def tAdmit : List (Nat × Nat) := [(0, 1), (2, 0x40000)]

/-- A request that reads passes its checks where nothing that it names is wrong, and the tables have room, which the machine leaves open. -/
theorem checkRequest_passes {s : State} {r : AdmReq}
    (h : (!r.reserved && !oldBad s r && match readRequest s 0 r with
      | .ok (gs, _, code, consts) =>
        !(gs.any Grant.bad) && !((code ++ consts).any fun p => s.seals.any fun q => q.pa == p.2) && !storesTo s (code ++ consts)
      | .error _ => false) = true) :
    ∃ gs im code consts, readRequest s 0 r = .ok (gs, im, code, consts) ∧
      (Config.sealRoom (s.seals.length + code.length + consts.length) = true → checkRequest s 0 r = .pass im gs code consts) := by
  simp only [Bool.and_eq_true, Bool.not_eq_true'] at h
  obtain ⟨⟨h1, h2⟩, h3⟩ := h
  split at h3
  · rename_i gs im code consts hk
    simp only [Bool.and_eq_true, Bool.not_eq_true'] at h3
    obtain ⟨⟨h4, h5⟩, h6⟩ := h3
    refine ⟨gs, im, code, consts, hk, fun h => ?_⟩
    unfold checkRequest
    rw [h1, hk]
    dsimp only
    rw [h4, h5, h2, h6, h]
    rfl
  · exact absurd h3 Bool.false_ne_true

/-- What the walk of an image at a VA is given to check. -/
def tRead (va : Nat) : Option (List Grant × KImage) :=
  match readRequest (tAdmits []) 0 (tRequest [(0, 1), (2, va)]) with
  | .ok (gs, im, _, _) => some (gs, im)
  | .error _ => none

/-- A binding whose library's image, by the entry at VA 0x40200, is at 0x40000 or at 0. -/
def tBinding : AdmReq :=
  { tRequest [] with desc := { tDesc with bindbase := 0x40200, bindcnt := 1 }, bind := some { index := 0, handle := 1, imp := 9 } }

def tTakes (known far : Bool) : State :=
  let s := tAdmits []
  { s with admQueue := [(0, tBinding)], images := if known then [tImage] else [], hbm := if far then s.hbm ++ [(0x5020A, 4#8)] else s.hbm }

/-- The request that a binding makes of its library's image. -/
def tAsks (far : Bool) : AdmReq := { tBinding with words := [1, 0, if far then 0x40000 else 0, 0, 0, 0, 0, 0, 0, 0, 0, 0, 0, 0, 0, 0] }

theorem witness_GraderActs_binding :
    (∀ known ∈ [true, false], ∀ far ∈ [true, false], let s := tTakes known far
      graderReady s 0 = true ∧ inHand s 0 = none ∧ (nextRequest s 0).map (·.2) = some tBinding ∧
        (deviceRead s (tBinding.who 0) 0x40200 64).map (fun e => (fieldAt e 8 4, fieldAt e 12 4, fieldAt e 0x20 4, fieldAt e 0x24 4, fieldAt e 0x28 4)) =
          some (if far then 0x40000 else 0, 0, 0, 0, 0)) ∧
    ((tTakes true false).images.find? fun i => i.vf == 1 && i.ctx == 0 && i.header == (tAsks false).image) = some tImage ∧
    ((tTakes false true).images.find? fun i => i.vf == 1 && i.ctx == 0 && i.header == (tAsks true).image) = none ∧
    (match checkRequest (takeUp (tTakes false false) 0 (tAsks false)) 0 (tAsks false) with
      | .refuse 2 => true
      | _ => false) = true := by
  refine ⟨?_, ?_, ?_, ?_⟩ <;> decide +kernel

theorem witness_GraderActs_binding_pass : let v := takeUp (tTakes false true) 0 (tAsks true)
    ∃ gs im code consts, readRequest v 0 (tAsks true) = .ok (gs, im, code, consts) ∧
      (Config.sealRoom (v.seals.length + code.length + consts.length) = true → checkRequest v 0 (tAsks true) = .pass im gs code consts) :=
  checkRequest_passes (by decide +kernel)

theorem witness_GraderActs_pass : let v := takeUp (tAdmits tAdmit) 0 (tRequest tAdmit)
    ∃ gs im code consts, readRequest v 0 (tRequest tAdmit) = .ok (gs, im, code, consts) ∧
      (Config.sealRoom (v.seals.length + code.length + consts.length) = true → checkRequest v 0 (tRequest tAdmit) = .pass im gs code consts) :=
  checkRequest_passes (by decide +kernel)

/-- A request to admit the image again under handle 1. -/
def tAgain : List (Nat × Nat) := [(0, 2), (2, 0x40000), (10, 1)]

theorem witness_GraderActs_again : let v := takeUp (tAdmits tAgain) 0 (tRequest tAgain)
    ((nextRequest (tAdmits tAgain) 0).map (·.2) = some (tRequest tAgain) ∧ (tRequest tAgain).op = 2 ∧ inHand (tAdmits tAgain) 0 = none) ∧
    ∃ gs im code consts, readRequest v 0 (tRequest tAgain) = .ok (gs, im, code, consts) ∧
      (Config.sealRoom (v.seals.length + code.length + consts.length) = true → checkRequest v 0 (tRequest tAgain) = .pass im gs code consts) :=
  ⟨by decide +kernel, checkRequest_passes (by decide +kernel)⟩

/-- The next request, which `witness_GraderActs_pass` shows to pass; and one whose grant list does not read. -/
theorem witness_GraderActs :
    (let s := tAdmits tAdmit;
      let r := tRequest tAdmit;
      graderReady s 0 = true ∧ inHand s 0 = none ∧ (nextRequest s 0).map (·.2) = some r ∧ r.bind = none) ∧
    (let r := tRequest [(0, 1), (2, 0x50000)];
      (match checkRequest (takeUp (tAdmits [(0, 1), (2, 0x50000)]) 0 r) 0 r with
        | .refuse 2 => true
        | _ => false) = true) := by
  decide +kernel

/-- The request in hand, its pages pending under handle 2. -/
def tWalk (va : Nat) : State :=
  { tAdmits [] with admQueue := [], admWait := [(0, { tRequest [(0, 1), (2, va)] with pending := some 2, read := tRead va })], nextHandle := 3 }

theorem witness_GraderActs_walk :
    (let r := { tRequest [(0, 1), (2, 0x40000)] with pending := some 2, read := tRead 0x40000 };
      inHand (tWalk 0x40000) 0 = some r ∧ r.result = none ∧ r.read.any fun y => match gradeImage y.2 y.1 1 0 with
        | .ok x => (acceptRequest (tWalk 0x40000) 0 r 2 y.2 x).bad.isNone
        | .error _ => false) ∧
    (let r := { tRequest [(0, 1), (2, 0x40100)] with pending := some 2, read := tRead 0x40100 };
      inHand (tWalk 0x40100) 0 = some r ∧ r.read.any fun y => match gradeImage y.2 y.1 1 0 with
        | .ok _ => false
        | .error j => (rejectRequest (tWalk 0x40100) 0 r 2 y.2 j).bad.isNone) := by
  decide +kernel

/-- A release of handle 1, which no crew uses; and one of a handle that the context does not have. -/
theorem witness_GraderActs_release :
    ∀ x ∈ [(1, 0), (9, 4)], let r := tRequest [(0, 3), (10, x.1)]
      let s := { tAdmits [(0, 3), (10, x.1)] with launches := [] }
      (nextRequest s 0).map (·.2) = some r ∧ inHand s 0 = none ∧ r.op = 3 ∧ releaseRefusal s 0 r = x.2 := by
  decide +kernel

/-- A binding of index 0 whose library has been graded; its entry is at VA 0x40000. -/
def tGraded (x : Option Nat × Nat) : AdmReq :=
  { tRequest [] with desc := { tDesc with bindbase := 0x40000, bindcnt := 1 }, bind := some { index := 0, handle := 1, imp := 9 }, result := some x }

def tBinds (x : Option Nat × Nat) : State :=
  { tReady with
    admWait := [(0, tGraded x)], images := [{ tImage with funcs := [{ hash := 0, pc := 64#64, items := [], ret := none }] }], tlbs := [tTlb 576 4 5] }

theorem witness_GraderActs_bind :
    (let s := tBinds (some 1, 0);
      let r := tGraded (some 1, 0);
      (s.admWait.find? fun e => e.2.graded 1 0 0) = some (0, r) ∧ (deviceRead s (r.who 0) 0x40000 64).isSome = true ∧
        bindTo s { index := 0, handle := 1, imp := 9 } 1 0 = .inl 64#64 ∧
        Stored (unpark (bindStore (bindTarget (putDown s 0) (r.who 0) 0x40000 64#64 1) (r.who 0) 0x40000 4 2) 1 0)) ∧
    (let s := tBinds (none, 0x0201);
      let r := tGraded (none, 0x0201);
      (s.admWait.find? fun e => e.2.graded 1 0 0) = some (0, r) ∧ ringRoom s (r.ring 0) 1 = true) := by
  unfold Stored; decide +kernel

/-! The host's writes, TDISP, the debug port. -/

theorem witness_HostWritesTakeEffect :
    (let s := tSubmit [];
      answers s 1 = true ∧ accepts s 1 = true ∧ readDesc s 1 0 = some tDesc ∧ answers s 0 = true ∧ guarded s 63 = false ∧
        Stored (requestPreempt s 1 none)) ∧
    (let s := (tSubmit []).mapFunc 63 fun f => { f with tdisp := .locked };
      guarded s 63 = true ∧ Stored (enterError s 63)) ∧
    answers State.reset 1 = false ∧
    (∃ l ∈ (tPipeline [] []).launches, l.begun = true ∧ l.done = false ∧ ({ l with fbar := 2 ^ 63 } : Launch).fbar.getLsbD 63 = true) ∧
    (let s := tReady;
      hbmHas 0x5FFFF = true ∧ (aliasAt s 0x5FFFF).isNone = true ∧ pageSealed s 0x5FFFF true = false ∧ Stored (l1Drop (writeByte s none 0x5FFFF 7#8) 0xBFF)) := by
  unfold Stored; decide +kernel

theorem witness_TdispTransitions :
    ∀ v ∈ [1, 63], ∀ x ∈ [Tdisp.unlocked, .locked, .run, .error], ∀ q ∈ [true, false],
      let s := (tSubmit []).mapFunc v fun f => { f with tdisp := x, quiesced := q }
      Stored s ∧ (s.func v).ready = true ∧ (s.func v).tdisp = x ∧ (s.func v).resetting = false ∧ Stored (enterError s v) ∧ Stored (resetOrder s v) ∧
        (let u := s.mapFunc v fun f => { f with resetting := true };
          (u.func v).resetting = true ∧ resetWaits u v = false ∧ v < u.funcs.length) := by
  unfold Stored; decide +kernel

/-- A stopped gang with a load in flight to v0 of lane 0. -/
def tStopped (stopped : Bool) : State :=
  tState (fun g => { g with stopped := stopped, stoppedAt := 1#32 }) fun c => { c with ops := [tOp 1 (.load (.scr 0) .norm .b32 (.v 0))] }

theorem witness_DebugActs :
    (∀ b ∈ [true, false], let s := tStopped b
      let c := tCrew s
      Stored s ∧ s.resident? 0 = some c ∧ 0 < c.ngangs ∧ guarded s (s.launchOf c).vf = false ∧ (c.gang 0).retired = false ∧ (c.gang 0).stopped = b ∧
        (c.ops.any (inFlight 0 (.v 0 0))) = true) ∧
    (let s := (tStopped true).mapFunc 1 fun f => { f with tdisp := .run };
      guarded s (s.launchOf (tCrew s)).vf = true ∧ Stored (enterError s 1)) := by
  unfold Stored; decide +kernel

/-! Values, reset, and what a step runs. -/

/-- Each element type has elements 0 and its last; a packed result that is clipped. -/
theorem witness_ElementValues :
    (∀ t ∈ [ElTy.i32, .n32, .i64, .n64, .i16x2, .n16x2, .i8x4, .n8x4], 0 < ElTy.k t ∧ ElTy.k t - 1 < ElTy.k t) ∧
      (intSat .i8x4 (fun x y => x + y) 0x7F 1).2 = 32#6 ∧ (intSat .i8x4 (fun x y => x + y) 0x7E 1).2 = 0#6 ∧
      (∀ t ∈ [ElTy.i32, .n32, .i64, .n64], ElTy.k t = 1 ∧ 2 ^ ElTy.w t - 1 < 2 ^ ElTy.w t) ∧ (∀ t ∈ [ElTy.i8x4, .n8x4], ElTy.k t = 4) ∧
      (∀ t ∈ [ElTy.i32, .n32, .i64, .n64], 0 % 2 ^ ElTy.w t = 0 ∧ 1 % 2 ^ ElTy.w t ≠ 0 ∧ intClz t 2 < ElTy.w t - 1 ∧ 0 < intCtz t 2) ∧
      ∀ n ∈ [32, 64], 0 < n ∧ 2 ^ (n - 1) < 2 ^ n ∧ 2 ^ n - 1 < 2 ^ n := by
  decide +kernel

/-- Each format has its largest number, the codes beyond it, and its infinity where it has one; and a subnormal that Src flushes. -/
theorem witness_FloatingPointValues :
    (∀ F ∈ [Fmt.f32, .f16, .bf16, .f8e5, .f8e4, .f6e2, .f6e3, .f4e2], F.maxCode < 2 ^ (1 + F.eBits + F.mBits) ∧
      F.maxCode % 2 ^ (F.eBits + F.mBits) = F.maxCode ∧ (F.hasInf = true → F.infCode % 2 ^ (F.eBits + F.mBits) = F.infCode)) ∧
    (∀ F ∈ [Fmt.f32, .f16, .bf16, .f8e5, .f8e4], let top := 2 ^ (F.eBits + F.mBits) - 1
      top % 2 ^ (F.eBits + F.mBits) = top ∧ F.maxCode < top ∧ top ≠ F.infCode) ∧
    Fmt.f32.decode 0x7F7FFFFF = .fin false 0xFFFFFF 104 ∧ (∃ e, Fmt.f32.decode 0x80000000 = .fin true 0 e) ∧
    (∀ F ∈ [Fmt.f32, .f16, .bf16], (Fp.nan false 1).isNan = true ∧ 1 < 2 ^ F.mBits ∧ (1 : Nat).testBit (F.mBits - 1) = false ∧
      (F.decode F.infCode).isInf = true ∧ (F.decode 0).isZero = true ∧ (F.decode (2 ^ (F.eBits + F.mBits))).neg = true) := by
  refine ⟨?_, ?_, ?_, ⟨_, rfl⟩, ?_⟩ <;> decide +kernel

/-- Operands of a dot product: a zero by an infinity, infinities of both signs, one infinity, and a NaN after numbers. -/
theorem witness_FloatingPointValues_dot :
    let zero := Fp.fin false 0 0
    let one := Fp.fin false 1 0
    (∃ p ∈ [zero, one].zip [Fp.inf false, one], p.1.isZero = true ∧ p.2.isInf = true) ∧
    (∃ p ∈ [one, one].zip [Fp.inf true, one], (p.1.isNan = false ∧ p.2.isNan = false) ∧ p.2.isInf = true ∧ true = (p.1.neg != p.2.neg)) ∧
    ([one, Fp.nan true 5] = [one] ++ Fp.nan true 5 :: [] ∧ (∀ v ∈ [one], v.isNan = false)) ∧
    (4 : Nat) ≠ 0 ∧ 2 ^ (-(-2 : Int)).toNat ∣ 4 ∧ ((2 : Nat) : Int) + -2 = 0 ∧ ((3 : Nat) : Int) + -2 ≠ 0 ∧
    1 * 2 ^ ((-1 : Int) + 1).toNat = 1 * 2 ^ (-(-1 : Int) - 1).toNat ∧ (∃ n a e, Fmt.bf16.decode 0x3F80 = .fin n a e ∧ a ≠ 0) ∧
    (let top := 2 ^ 31; 0x7F800001 % top > Fmt.f32.infCode ∧ (0x7F800001 : Nat).testBit 22 = false ∧ 0xFFC00000 % top > Fmt.f32.infCode ∧
      (0xFFC00000 : Nat).testBit 22 = true ∧ 0xFFC00000 < 2 * top) := by
  refine ⟨?_, ?_, ?_, ?_, ?_, ?_, ?_, ?_, ⟨_, _, _, rfl, ?_⟩, ?_⟩ <;> decide +kernel

/-- Operands of `quant` and of `dequant`: numbers, a zero, infinities and a NaN; and integers below and above what a type holds. -/
theorem witness_ConversionValues :
    (∃ n a e, Fmt.f32.decode 0xC0000000 = .fin n a e ∧ a ≠ 0 ∧ n = true) ∧ (Fmt.f32.decode 0).isZero = true ∧
    Fmt.f32.decode 0x7F800000 = .inf false ∧ Fmt.f32.decode 0xFF800000 = .inf true ∧ Fmt.f32.decode 0x7FC00001 = .nan false 0x400001 ∧
    (∀ src ∈ [Fmt.f32, .f16, .bf16, .f8e5, .f8e4], 2 ^ src.mBits - 1 < 2 ^ src.mBits) ∧
    0 < 8 ∧ 3 < 4 ∧ 2 ^ 32 - 1 < 2 ^ 32 ∧ 7 < 8 ∧ 31 < 32 := by
  refine ⟨⟨_, _, _, rfl, ?_, ?_⟩, ?_, ?_, ?_, ?_, ?_, ?_, ?_, ?_, ?_⟩ <;> decide +kernel

theorem witness_ResetState : (State.reset.worldLines.foldl sealLine State.reset).bad = none ∧ State.reset.worldLines = [] ∧
    State.reset.links[17]? = some { state := 0, failed := false, retries := 0#32 } := by
  decide +kernel

/-- A gang that has not chosen an entry, with the line of its PC, whose first word is `w`; or with no line. -/
def tHeld (line : Option (List Byte)) : State :=
  tState (fun g => { g with chosen := false, line := line.map fun bs => (0, bs) }) id

theorem witness_StepRunsDecoded :
    (∀ line ∈ [some (bytesOf 12 0x0541F0000A00401003000096), none], let s := tHeld line
      let c := tCrew s
      s.agenda = [] ∧ s.cur = some (1, 0) ∧ s.crew? 1 = some c ∧ mayIssue s c 0 = true ∧ (chooseEntry (wakeCounted s c 0)).any (fun g =>
        match g.frontier with
        | e :: _ => e.mask &&& g.illegal == 0#32 && (match g.line with
          | some (p, bs) => p == pcLine e.pc && (match decode c.regs (natOfBytes ((bs.drop (12 * pcSlot e.pc)).take 12)) with
            | .ok _ => true
            | .error _ => false)
          | none => line.isNone)
        | [] => false)) ∧
    curIssue { tHeld none with cur := none } = none := by
  decide +kernel

/-- A line of `nop`, with its parity and the targets 0 to 4 (R51, R52). -/
def tLine : List Byte := (List.replicate 5 (bytesOf 12 0x5200F00FFFFFFFFFFF000000)).flatten ++ bytesOf 4 0x20FC1F

def tFetches (good : Bool) : State :=
  { tHeld none with hbm := ((if good then tLine else tLine.set 0 1#8).zip (List.range 64)).map fun x => (0x10000 + x.2, x.1) }

/-- A line of `nop`, and the same with a bit changed. -/
theorem witness_StepRunsDecoded_fetch :
    ∀ good ∈ [true, false], let s := tFetches good
      s.resident? 0 = some (tCrew s) ∧ (gangIssue s (tCrew s) 0).any fun x =>
        let mode := (x.g.lane (lowest x.e.mask)).mode
        fetchTarget s x.c mode x.e.pc && (match laneXlat s (x.c.who s mode) (s.launchOf x.c).desc.pasid (.lane x.c.uid 0 (lowest x.e.mask)) 3 (pcLine x.e.pc) 1 with
          | (u, .ok (lf :: _)) =>
            let v := takeLine u x (x.c.who u mode) lf
            sealedPage u x.c (pcLine x.e.pc) lf.pa && !leafBroken u (x.c.who u mode) lf && v.1.bad.isNone && (lineGood x.c.regs v.2 == good) &&
              (machineCheck v.1 x v.2).bad.isNone
          | _ => false) := by
  decide +kernel

theorem witness_EncodedInstructionsDecode :
    (∀ i ∈ [Instr.nop 14#4 true, .ldS Hdr.plain .b128 (.v 1532) (tArg (.v 1534) (-1024))
        , .lop3 Hdr.plain .n32 (.g 63) .vz (.v 0) (.g 0) 0xFF#8], i.wf 1536 = true ∧ (encode i).isSome = true) ∧
      decode 1536 0x5200F00FFFFFFFFFFF000000 = .ok (.nop 15#4 false) := by
  exact ⟨by decide +kernel, rfl⟩

/-- A step runs an event, one an instruction, from a state that is well-formed. -/
theorem witness_StepsKeepWellFormed :
    (tHeld (some (bytesOf 12 0x0541F0000A00401003000096))).wf = true ∧ (tHeld (some (bytesOf 12 0x0541F0000A00401003000096))).goesOn ∧
      ({ tHeld none with agenda := [.event (.hostInboundWrite 0x5FFFF [7#8])] } : State).wf = true ∧
      ({ tHeld none with agenda := [.event (.hostInboundWrite 0x5FFFF [7#8])] } : State).goesOn := by
  refine ⟨?_, ⟨_, rfl⟩, ?_, ⟨_, rfl⟩⟩ <;> decide +kernel

/-! Terms that are no instructions: one for each check of `Instr.wf`, under 64 registers. -/

def tMem0 : MemArg := tArg (.v 0) 0

theorem test_ill_formed :
    ∀ i ∈ ([.exit { Hdr.plain with pneg := true }, .nop 15#4 true, .neg .plain .n32 (.v 64) (.v 0), .neg .plain .n32 (.b 0) (.v 0)
      , .neg .plain .n32 (.v 0) (.v 64), .add .plain .n32 (.v 0) (.v 0) (.reg (.v 64)), .addc .plain .n16x2 (.v 0) (.v 0) (.imm 0#32) none none
      , .mul .plain .n8x4 (.v 0) (.v 0) (.imm 0#32), .mad .plain .i8x4 (.v 0) (.v 0) (.v 0) (.v 0), .madh .plain .i16x2 (.v 0) (.v 0) (.v 0) (.v 0)
      , .abs .plain .n32 (.v 0) (.v 0), .sad .plain .n64 (.v 0) (.v 0) (.v 0) (.v 0), .not .plain .n8x4 (.v 0) (.v 0)
      , .lea .plain .i32 (.v 0) (.v 0) (.imm 0#32) false 0, .dp4 .plain .n32 (.v 0) (.v 0) (.v 0) (.v 0) true] : List Instr), i.wf 64 = false := by
  decide +kernel

theorem test_ill_formed_values :
    ∀ i ∈ ([.cvt .plain .f32 .f32 0 false false .rn (.v 0) (.v 0), .cvt .plain .i32 .f32 1 false false .rn (.v 0) (.v 0)
      , .cvt .plain .f16 .f32 0 true false .rn (.v 0) (.v 0), .unpack .plain .f32f16 2 (.v 0) (.v 0)
      , .plsplit .plain 0 1 (.v 0) (.v 0), .plsplit .plain 7 0 (.v 0) (.v 57), .plmerge .plain 0 1 (.v 0) (.v 0)
      , .barSync .plain { stream := 0, mask := 0#8 } .gang 4#6, .barSync .plain { stream := 0, mask := 0#8 } .camp 32#6
      , .wait .plain true 0 (.v 0) (.v 61) { stream := 0, mask := 0#8 } 0#4 none, .wait .plain true 0 (.v 0) (.v 0) { stream := 0, mask := 0#8 } 2#4 none
      , .chkt .plain (.v 0) (.imm 0x10000#32), .stS .plain .i8 (.v 0) tMem0, .ldS .plain .b32 (.v 0) (tArg (.v 64) 0)
      , .atomG .plain .inc .w64 (.v 0) (.v 0) tMem0, .redG .plain .exch .w32 (.v 0) tMem0, .atomH .plain (.cas .n8) (.v 0) (.v 0) none tMem0
      , .wrsr .plain .laneid (.v 0), .l2partClr .plain .clr (.v 0) (.v 0) (.v 0), .fclass .plain .f32 (.v 0) (.v 0) 1#10 none
      , .fadd .plain .rn (.v 0) (.v 0) (.imm 0#32) { na := false, nb := true, nc := false, aa := false, ab := false, ac := false }] : List Instr),
      i.wf 64 = false := by
  decide +kernel

/-! Single steps. Expected values are worked out by hand from the rules named. -/

/-- A register of lane 0 after an instruction on these registers. -/
def tAfter (i : Instr) (regs : List (Nat × BitVec 32)) (r : Nat) : Option (BitVec 32 × BitVec 6) :=
  match exec i (tRegs regs []) with
  | .next t => some (((t.gang 1 0).lane 0).reg r, ((t.gang 1 0).lane 0).fpstat)
  | _ => none

/-- R112: a sum wraps, and a saturating sum of bytes 0x7F + 1 and 0x80 - 1 is clipped and sets SI. -/
theorem test_add_wraps :
    tAfter (.add .plain .i32 (.v 0) (.v 1) (.imm 1#32)) [(1, 0xFFFFFFFF#32)] 0 = some (0#32, 0#6) ∧
      tAfter (.adds .plain .i8x4 (.v 1) (.v 1) (.reg (.v 2))) [(1, 0x807F#32), (2, 0xFF01#32)] 1 = some (0x807F#32, 32#6) := by
  decide +kernel

/-- R120: a shift by the width gives 0 or the sign, and a rotation takes the remainder. -/
theorem test_shifts :
    tAfter (.shl .plain .n32 (.v 0) (.v 1) (.imm 32#32)) [(1, 5#32)] 0 = some (0#32, 0#6) ∧
      tAfter (.sar .plain .i32 (.v 0) (.v 1) (.imm 99#32)) [(1, 0x80000000#32)] 0 = some (0xFFFFFFFF#32, 0#6) ∧
      tAfter (.rot .plain .n32 (.v 0) (.v 1) (.imm 33#32)) [(1, 0x80000001#32)] 0 = some (3#32, 0#6) := by
  decide +kernel

/-- R145: 2^24 × 2^24 + 1 is 2^48 + 1, which rounds to 2^48 with NX; and infinity minus infinity is invalid. -/
theorem test_floats :
    tAfter (.fma .plain .rn (.v 0) (.v 1) (.v 1) (.v 2) ⟨false, false, false, false, false, false⟩) [(1, 0x4B800000#32), (2, 0x3F800000#32)] 0 =
        some (0x57800000#32, 1#6) ∧
      tAfter (.fsub .plain .rn (.v 0) (.v 1) (.reg (.v 1)) ⟨false, false, false, false, false, false⟩) [(1, 0x7F800000#32)] 0 =
        some (0x7FC00000#32, 16#6) := by
  decide +kernel

/-- The entries of the gang after an instruction: PC and mask. -/
def tEntries (i : Instr) (s : State) : Option (List (Nat × Nat)) :=
  match exec i s with
  | .next t => some ((t.gang 1 0).frontier.map fun e => (e.pc.toNat, e.mask.toNat))
  | _ => none

/-- R89: lane 0 branches to the target's line, and lane 1, whose predicate is false, goes to the next slot. -/
theorem test_branch_splits :
    tEntries (.bra { Hdr.plain with pred := 0#4 } { offset := 1#32, slot := 0 }) (tState (fun g => g.mapLane 0 fun x => x.setPred 0 true) id) =
      some [(64, 1), (1, 2)] := by
  decide +kernel

/-- R96, R163: `syscall` enters the supervisor handler at SVEC, with one frame that holds its cause and the next slot. -/
theorem test_syscall_enters :
    (match exec (.syscall .plain 7#16) (tState id id) with
      | .next t => ((t.gang 1 0).lane 1).mode == .super && (((t.gang 1 0).lane 1).frames.map fun f => (f.tcause.toNat % 256, f.tpc.toNat)) == [(0x08, 1)] &&
          (t.gang 1 0).frontier.map (fun e => e.pc.toNat) == [0x10000]
      | _ => false) = true := by
  decide +kernel

end Sys2Proof.Machine.Tests
end

section
/-!
SUPPORT. Shifts and table logic (R119, R120): the bits of a value made bit by bit, the elements of a packed result, and the shifts of
one element as the shifts of a bit vector.
-/

namespace Sys2Proof

/-- A wrapped integer is the bit pattern of that integer (R7). -/
theorem wrap_eq_toNat_ofInt (y : Int) (w : Nat) : wrap y w = (BitVec.ofInt w y).toNat := (BitVec.toNat_ofInt y).symm

theorem wrap_lt (y : Int) (w : Nat) : wrap y w < 2 ^ w := wrap_eq_toNat_ofInt y w ▸ BitVec.isLt _

@[simp] theorem wrap_natCast (x w : Nat) : wrap x w = x % 2 ^ w := by simp [wrap_eq_toNat_ofInt]

@[simp] theorem wrap_zero (w : Nat) : wrap 0 w = 0 := by simp [wrap]

/-- The sign extension of R111 is the signed value of the bit vector. -/
theorem signExt_eq_toInt (x w : Nat) : signExt x w = (BitVec.ofNat w x).toInt := by
  rw [signExt, BitVec.toInt_eq_toNat_cond, BitVec.toNat_ofNat]
  cases w with
  | zero => simp [Nat.mod_one]
  | succ n =>
    have half : 2 ^ (n + 1) / 2 = 2 ^ n := by omega
    by_cases neg : 2 ^ n ≤ x % 2 ^ (n + 1)
    · rw [if_pos (by omega), if_neg (by omega)]
    · rw [if_neg (by omega), if_pos (by omega)]

theorem bit_eq_testBit (x n : Nat) : bit x n = x.testBit n := by
  rw [bit, Nat.testBit_eq_decide_div_mod_eq, Bool.eq_iff_iff, beq_iff_eq, decide_eq_true_iff]

end Sys2Proof

namespace Sys2Proof.Machine

/-! A value made bit by bit. -/

theorem bitsFrom_succ (n : Nat) (f : Nat → Bool) : bitsFrom (n + 1) f = 2 ^ n * (f n).toNat + bitsFrom n f := by
  cases hf : f n <;> simp [bitsFrom, List.range_succ, hf, Nat.add_comm]

theorem bitsFrom_lt (n : Nat) (f : Nat → Bool) : bitsFrom n f < 2 ^ n := by
  induction n with
  | zero => exact Nat.one_pos
  | succ n ih =>
    have top : 2 ^ n * (f n).toNat ≤ 2 ^ n * 1 := Nat.mul_le_mul_left _ (Bool.toNat_le _)
    rw [bitsFrom_succ]; omega

theorem testBit_bitsFrom (n : Nat) (f : Nat → Bool) (j : Nat) (h : j < n) : (bitsFrom n f).testBit j = f j := by
  induction n with
  | zero => omega
  | succ n ih =>
    rw [bitsFrom_succ, Nat.testBit_two_pow_mul_add _ (bitsFrom_lt n f)]
    split
    case isTrue below => exact ih below
    case isFalse top =>
      obtain rfl : j = n := by omega
      cases f j <;> simp

theorem intLop3_lt (t : ElTy) (x y z : Nat) (table : BitVec 8) : intLop3 t x y z table < 2 ^ ElTy.w t := bitsFrom_lt _ _

theorem testBit_intLop3 (t : ElTy) (x y z : Nat) (table : BitVec 8) (j : Nat) (h : j < ElTy.w t) :
    (intLop3 t x y z table).testBit j =
      table.toNat.testBit ((x.testBit j).toNat + 2 * (y.testBit j).toNat + 4 * (z.testBit j).toNat) := by
  simp only [intLop3, testBit_bitsFrom _ _ j h, bit_eq_testBit]

/-! The elements of a packed result. -/

theorem packEls_lt (w : Nat) (ys : List Int) : packEls w ys < 2 ^ (w * ys.length) := by
  induction ys with
  | nil => simp [packEls]
  | cons y ys ih =>
    have low := wrap_lt y w
    calc packEls w (y :: ys) < 2 ^ w * (packEls w ys + 1) := by rw [packEls, Nat.mul_add]; omega
      _ ≤ 2 ^ w * 2 ^ (w * ys.length) := Nat.mul_le_mul_left _ ih
      _ = 2 ^ (w * (y :: ys).length) := by rw [← Nat.pow_add, List.length_cons, Nat.mul_succ, Nat.add_comm]

theorem packEls_element (w : Nat) (ys : List Int) (i : Nat) (h : i < ys.length) :
    packEls w ys / 2 ^ (w * i) % 2 ^ w = wrap ys[i] w := by
  induction ys generalizing i with
  | nil => simp at h
  | cons y ys ih =>
    have low := wrap_lt y w
    cases i with
    | zero => simp [packEls, Nat.mod_eq_of_lt low]
    | succ i =>
      have drop : packEls w (y :: ys) / 2 ^ w = packEls w ys := by
        rw [packEls, Nat.add_mul_div_left _ _ (Nat.two_pow_pos w), Nat.div_eq_of_lt low, Nat.zero_add]
      rw [Nat.mul_succ, Nat.add_comm, Nat.pow_add, ← Nat.div_div_eq_div_mul, drop]
      exact ih i (by simpa using h)

theorem mapEls_lt (t : ElTy) (f : Nat → Int) : mapEls t f < 2 ^ (ElTy.w t * ElTy.k t) := by
  simpa [mapEls] using packEls_lt (ElTy.w t) ((List.range (ElTy.k t)).map f)

/-- R112: element `i` of an element-wise result is that element's value, wrapped. -/
theorem mapEls_element (t : ElTy) (f : Nat → Int) (i : Nat) (h : i < ElTy.k t) :
    mapEls t f / 2 ^ (ElTy.w t * i) % 2 ^ ElTy.w t = wrap (f i) (ElTy.w t) := by
  simp [mapEls, packEls_element, h]

/-! The shifts of one element. -/

theorem ElTy.w_pos (t : ElTy) : 0 < ElTy.w t := by cases t <;> decide

theorem elN_lt (t : ElTy) (x i : Nat) : elN t x i < 2 ^ ElTy.w t := Nat.mod_lt _ (Nat.two_pow_pos _)

/-- A count past the width shifts as the width does: what is left is the sign. -/
theorem toInt_div_two_pow_min {w : Nat} (x : BitVec w) (s : Nat) : x.toInt / (2 ^ min s w : Nat) = x.toInt / (2 ^ s : Nat) := by
  rcases Nat.le_total s w with h | h
  · rw [Nat.min_eq_left h]
  · rw [Nat.min_eq_right h]
    have hi := BitVec.two_mul_toInt_lt (x := x)
    have lo := BitVec.le_two_mul_toInt (x := x)
    have wide : 2 ^ w ≤ 2 ^ s := Nat.pow_le_pow_right Nat.two_pos h
    have cast : (2 ^ w : Int) = (2 ^ w : Nat) := (Int.natCast_pow 2 w).symm
    rw [cast] at hi lo
    by_cases neg : x.toInt < 0
    · rw [Int.ediv_eq_neg_one_of_neg_of_le neg (by omega), Int.ediv_eq_neg_one_of_neg_of_le neg (by omega)]
    · rw [Int.ediv_eq_zero_of_lt (by omega) (by omega), Int.ediv_eq_zero_of_lt (by omega) (by omega)]

theorem wrap_signExt_div (x w s : Nat) :
    wrap (signExt x w / (2 ^ min s w : Nat)) w = ((BitVec.ofNat w x).sshiftRight s).toNat := by
  rw [signExt_eq_toInt, toInt_div_two_pow_min, wrap_eq_toNat_ofInt, ← Int.shiftRight_eq_div_pow, BitVec.sshiftRight]

/-- The two parts of a rotated value share no bit, so that their sum is their union. -/
theorem toNat_rotateLeft_eq_add {w : Nat} (x : BitVec w) (s : Nat) (h : 0 < w) :
    (x.rotateLeft s).toNat = x.toNat * 2 ^ (s % w) % 2 ^ w + x.toNat / 2 ^ (w - s % w) := by
  have hr := Nat.mod_lt s h
  rw [BitVec.toNat_rotateLeft]
  generalize s % w = r at hr ⊢
  have split : 2 ^ w = 2 ^ (w - r) * 2 ^ r := by rw [← Nat.pow_add, Nat.sub_add_cancel (Nat.le_of_lt hr)]
  have low : x.toNat / 2 ^ (w - r) < 2 ^ r := Nat.div_lt_of_lt_mul (split ▸ x.isLt)
  have high : x.toNat * 2 ^ r % 2 ^ w = (x.toNat % 2 ^ (w - r)) <<< r := by
    rw [split, Nat.shiftLeft_eq, Nat.mul_mod_mul_right]
  rw [Nat.shiftLeft_eq, Nat.shiftRight_eq_div_pow, high, ← Nat.shiftLeft_add_eq_or_of_lt low]

/-! The shift instructions' values. -/

theorem intShl_element (t : ElTy) (x s i : Nat) (h : i < ElTy.k t) :
    intShl t x s / 2 ^ (ElTy.w t * i) % 2 ^ ElTy.w t = if s < ElTy.w t then elN t x i * 2 ^ s % 2 ^ ElTy.w t else 0 := by
  rw [intShl, mapEls_element t _ i h]
  split
  · exact wrap_natCast _ _
  · exact wrap_zero _

theorem intShr_element (t : ElTy) (x s i : Nat) (h : i < ElTy.k t) :
    intShr t x s / 2 ^ (ElTy.w t * i) % 2 ^ ElTy.w t = if s < ElTy.w t then elN t x i / 2 ^ s else 0 := by
  have small : elN t x i / 2 ^ s < 2 ^ ElTy.w t := Nat.lt_of_le_of_lt (Nat.div_le_self _ _) (elN_lt t x i)
  rw [intShr, mapEls_element t _ i h]
  split
  · rw [wrap_natCast, Nat.mod_eq_of_lt small]
  · exact wrap_zero _

theorem intSar_element (t : ElTy) (x s i : Nat) (h : i < ElTy.k t) :
    intSar t x s / 2 ^ (ElTy.w t * i) % 2 ^ ElTy.w t = ((BitVec.ofNat (ElTy.w t) (elN t x i)).sshiftRight s).toNat := by
  rw [intSar, mapEls_element t _ i h, wrap_signExt_div]

theorem intRot_eq_rotateLeft (t : ElTy) (x s : Nat) : intRot t x s = ((BitVec.ofNat (ElTy.w t) x).rotateLeft s).toNat := by
  rw [toNat_rotateLeft_eq_add _ _ (ElTy.w_pos t), BitVec.toNat_ofNat, intRot]

/-! Completion. -/

/-- An instruction whose meaning is an issue of lanes that act each on its own operands computes what that issue computes. -/
theorem computesLanes_of_exec {i : Instr} {h : Hdr} {d : Opnd} {uses : List (Opnd × Nat)} {preds : List PredOpt}
    {f : Bool → Lane → Reader → LaneOut} (meaning : ∀ s, exec i s = issueLanes s h d uses preds f) :
    ComputesLanes i h d uses preds f := by
  intro s x ready
  rw [meaning]
  exact issueLanes_computes d f ready

/-- Settles O53: each instruction issues through the one meaning of its form, and its value is that of its bits or of its elements. -/
theorem shiftsAndTableLogic : Obligations.ShiftsAndTableLogic := by
  unfold Obligations.ShiftsAndTableLogic
  intro h t d a e c b table
  refine ⟨computesLanes_of_exec (exec_lop3 h t d a e c table), computesLanes_of_exec (exec_shl h t d a b),
    computesLanes_of_exec (exec_shr h t d a b), computesLanes_of_exec (exec_sar h t d a b),
    computesLanes_of_exec (exec_rot h t d a b), ?lop3, ?shifts⟩
  case lop3 => exact fun x y z => ⟨intLop3_lt t x y z table, testBit_intLop3 t x y z table⟩
  case shifts =>
    intro x s
    refine ⟨fun i hi => ⟨?_, ?_, ?_⟩, fun _ => intRot_eq_rotateLeft t x s, mapEls_lt t _, mapEls_lt t _, mapEls_lt t _⟩
    · exact intShl_element t x s i hi
    · exact intShr_element t x s i hi
    · exact intSar_element t x s i hi

end Sys2Proof.Machine
end

section
/-!
SUPPORT. Run-time checks (R185): the lanes that fail are picked by a test of each executing lane, and the rest of the entry goes on.
-/

namespace Sys2Proof.Machine

/-- A test that no executing lane meets picks no lane. -/
theorem which_eq_zero {x : Issue} {h : Hdr} {p : Nat → Bool} (hp : ∀ l ∈ (x.execs h).lanes, p l = false) : x.which h p = 0#32 := by
  have noLane : (x.execs h).lanes.filter p = [] := List.filter_eq_nil_iff.mpr fun l hl => by simp [hp l hl]
  rw [Issue.which, noLane]
  rfl

/-- When the executing lanes that a test picks are taken from an entry, the next slot gets its other executing lanes and the lanes that do
not execute (R89). -/
theorem nextGroup_without_which_standsAt (s : State) (x : Issue) (h : Hdr) (p : Nat → Bool) (l : Nat) (pc : Pc) :
    standsAt [nextGroup s x (x.e.mask &&& ~~~(x.which h p))] l pc ↔
      x.e.mask.getLsbD l = true ∧ ((x.execs h).getLsbD l = true → p l = false) ∧ pc = pcNext x.e.pc := by
  have stays : (x.e.mask &&& ~~~(x.which h p)).getLsbD l = true ↔
      x.e.mask.getLsbD l = true ∧ ((x.execs h).getLsbD l = true → p l = false) := by
    have lt : x.e.mask.getLsbD l = true → l < 32 := BitVec.lt_of_getLsbD
    simp only [BitVec.getLsbD_and, BitVec.getLsbD_not, which_getLsbD, Bool.and_eq_true, Bool.not_eq_true', Bool.and_eq_false_imp,
      decide_eq_true_eq]
    exact ⟨fun ⟨hm, _, hp⟩ => ⟨hm, hp⟩, fun ⟨hm, hp⟩ => ⟨hm, lt hm, hp⟩⟩
  simp only [standsAt, List.mem_singleton, exists_eq_left, nextGroup, stays, and_assoc, eq_comm (a := pc)]

/-- The traps that a check finds are those of the executing lanes that fail it. -/
theorem checkTraps_eq_map {s : State} {x : Issue} {h : Hdr} (cause : Nat) {f : Reader → Option (Nat × Nat)} {pass : Nat → Bool}
    {det0 det1 : Nat → Nat} (outcome : ∀ l, f (readWide x.g s.draws l) = if pass l then none else some (det0 l, det1 l)) :
    ((x.execs h).lanes.filterMap fun l => (f (readWide x.g s.draws l)).map fun d => faultAt x l cause 0 d.1 d.2) =
      (x.which h fun l => !pass l).lanes.map fun l => faultAt x l cause 0 (det0 l) (det1 l) := by
  refine filterMap_which x h _ _ _ fun l _ => ?_
  rw [outcome]
  cases pass l <;> rfl

/-- A check issues as a switch point that ends in the traps of the lanes that fail it, the others going on at the next slot. -/
theorem checkLanes_eq_issueSwitch {s : State} {x : Issue} {h : Hdr} {cause : Nat} {uses : List (Opnd × Nat)}
    {f : Reader → Option (Nat × Nat)} {pass : Nat → Bool} {det0 det1 : Nat → Nat}
    (outcome : ∀ l, f (readWide x.g s.draws l) = if pass l then none else some (det0 l, det1 l)) :
    ∃ F, checkLanes s h cause uses f = issueSwitch s h uses [] F ∧
      F x (x.execs h) = finishSwitch s s x x.c [nextGroup s x (x.e.mask &&& ~~~(x.which h fun l => !pass l))]
        ((x.which h fun l => !pass l).lanes.map fun l => faultAt x l cause 0 (det0 l) (det1 l)) := by
  refine ⟨_, rfl, ?_⟩
  simp only [checkTraps_eq_map cause outcome]
  rw [trapMask_map _ (fun l => faultAt x l cause 0 (det0 l) (det1 l)) fun _ _ => rfl]

/-- Where every executing lane passes a check, its entry moves to the next slot and nothing else happens. -/
theorem checkLanes_passes {s : State} {x : Issue} {h : Hdr} (cause : Nat) {uses : List (Opnd × Nat)} {f : Reader → Option (Nat × Nat)}
    {pass : Nat → Bool} {det0 det1 : Nat → Nat} (ready : ReadySwitch s x h uses [])
    (outcome : ∀ l, f (readWide x.g s.draws l) = if pass l then none else some (det0 l, det1 l))
    (all : ∀ l ∈ (x.execs h).lanes, pass l = true) : checkLanes s h cause uses f = .next (passed s x x.c) := by
  obtain ⟨F, issue, ends⟩ := checkLanes_eq_issueSwitch (h := h) (cause := cause) (uses := uses) outcome
  have noLane : x.which h (fun l => !pass l) = 0#32 := which_eq_zero fun l hl => by simp [all l hl]
  rw [noLane, LaneMask.lanes_zero, List.map_nil, finishSwitch_nil, BitVec.not_zero, BitVec.and_allOnes] at ends
  rw [issue]
  exact issueSwitch_switched F _ ready ends ready.ready.stored

/-- Where their handlers can be entered, the executing lanes that fail a check trap, and the entry's other lanes go on. -/
theorem checkLanes_traps {s : State} {x : Issue} {h : Hdr} {cause : Nat} {uses : List (Opnd × Nat)} {f : Reader → Option (Nat × Nat)}
    {pass : Nat → Bool} {det0 det1 : Nat → Nat} (ready : ReadySwitch s x h uses [])
    (outcome : ∀ l, f (readWide x.g s.draws l) = if pass l then none else some (det0 l, det1 l))
    (handled : ∀ l ∈ (x.which h fun l => !pass l).lanes, Handled s x.c (x.g.lane l) cause) :
    ∃ t, checkLanes s h cause uses f = .next t ∧
      Trapped s t x (x.which h fun l => !pass l) (fun l => faultAt x l cause 0 (det0 l) (det1 l)) x.g.lane
        fun l pc => x.e.mask.getLsbD l = true ∧ ((x.execs h).getLsbD l = true → pass l = true) ∧ pc = pcNext x.e.pc := by
  obtain ⟨F, issue, ends⟩ := checkLanes_eq_issueSwitch (h := h) (cause := cause) (uses := uses) outcome
  rw [← setGang_self ready.ready.issues] at ends
  rw [issue]
  refine issueSwitch_traps F x.g _ _ _ _ _ ready ends (fun _ _ => rfl) handled rfl (fun _ => rfl) rfl fun l pc _ => ?_
  simpa using nextGroup_without_which_standsAt s x h (fun l => !pass l) l pc

/-- An instruction whose meaning is a check completes where every executing lane passes, and traps the lanes that fail it. -/
theorem passes_and_traps_of_exec {i : Instr} {h : Hdr} {cause : Nat} {uses : List (Opnd × Nat)} {f : Reader → Option (Nat × Nat)}
    {pass : State → Issue → Nat → Bool} {det0 det1 : State → Issue → Nat → Nat} (meaning : ∀ s, exec i s = checkLanes s h cause uses f)
    (outcome : ∀ s x l, f (readWide x.g s.draws l) = if pass s x l then none else some (det0 s x l, det1 s x l)) :
    SwitchesTo i h uses [] (fun s x => ∀ l ∈ (x.execs h).lanes, pass s x l = true) (fun s x => passed s x x.c) ∧
      TrapsLanes i h uses (fun _ _ => True) (fun s x => x.which h fun l => !pass s x l)
        (fun s x l => faultAt x l cause 0 (det0 s x l) (det1 s x l)) (fun _ x l => x.g.lane l)
        (fun s x l pc => x.e.mask.getLsbD l = true ∧ ((x.execs h).getLsbD l = true → pass s x l = true) ∧ pc = pcNext x.e.pc) := by
  constructor
  · intro s x ready all
    rw [meaning]
    exact checkLanes_passes cause ready (outcome s x) all
  · intro s x ready _ handled
    rw [meaning]
    exact checkLanes_traps ready (outcome s x) handled

/-! What `chkt` compares with: a register, or the tag of the instruction (R185). -/

theorem exec_chkt_reg (h : Hdr) (a o : Opnd) (s : State) :
    exec (.chkt h a (.reg o)) s = checkLanes s h 0x11 [(a, 1), (o, 1)] fun rd =>
      if rd a 1 = rd o 1 then none else some (rd a 1, rd o 1) := rfl

theorem exec_chkt_imm (h : Hdr) (a : Opnd) (n : BitVec 32) (s : State) :
    exec (.chkt h a (.imm n)) s = checkLanes s h 0x11 [(a, 1)] fun rd =>
      if rd a 1 = n.toNat then none else some (rd a 1, n.toNat) := rfl

/-- Settles O13: each check issues through the one meaning of a check, and fails in a lane exactly where its test does. -/
theorem checksPassOrTrap : Obligations.ChecksPassOrTrap := by
  unfold Obligations.ChecksPassOrTrap
  intro h signed z a b c v
  refine ⟨?chkb, ?chkt, ?chkl⟩
  case chkb =>
    refine passes_and_traps_of_exec (exec_chkb h signed z a b c) fun s x l => ?_
    simp only [decide_eq_true_eq]
  case chkt =>
    cases v with
    | reg o =>
      refine passes_and_traps_of_exec (exec_chkt_reg h a o) fun s x l => ?_
      simp only [beq_iff_eq]
    | imm n =>
      refine passes_and_traps_of_exec (exec_chkt_imm h a n) fun s x l => ?_
      simp only [beq_iff_eq]
  case chkl =>
    refine passes_and_traps_of_exec (exec_chkl h a b) fun s x l => ?_
    simp only [Bool.and_eq_true, beq_iff_eq, bne_iff_ne]

end Sys2Proof.Machine
end

section
/-!
SUPPORT. Integer arithmetic, logic and moves complete (R109 to R126): each issues through the one meaning of its form.
-/

namespace Sys2Proof.Machine

/-- Settles O1: each instruction issues lanes that act on their own operands. -/
theorem integerArithmeticComputes : Obligations.IntegerArithmeticComputes := by
  unfold Obligations.IntegerArithmeticComputes
  intro h t d a e c b cin cout natural xs scale cc op pd
  exact ⟨computesLanes_of_exec (exec_add h t d a b), computesLanes_of_exec (exec_sub h t d a b),
    computesLanes_of_exec (exec_min h t d a b), computesLanes_of_exec (exec_max h t d a b),
    computesLanes_of_exec (exec_abs h t d a), computesLanes_of_exec (exec_neg h t d a),
    computesLanes_of_exec (exec_adds h t d a b), computesLanes_of_exec (exec_subs h t d a b),
    computesLanes_of_exec (exec_addc h t d a b cin cout), computesLanes_of_exec (exec_subb h t d a b cin cout),
    computesLanes_of_exec (exec_mul h t d a b), computesLanes_of_exec (exec_mulh h t d a b),
    computesLanes_of_exec (exec_mad h t d a e c), computesLanes_of_exec (exec_madh h t d a e c),
    computesLanes_of_exec (exec_sad h t d a e c), computesLanes_of_exec (exec_dp4 h t d a e c xs),
    computesLanes_of_exec (exec_cmp h t d a b cc op pd), computesLanes_of_exec (exec_lea h t d a b natural scale)⟩

/-- Settles O2: each instruction issues lanes that act on their own operands. -/
theorem logicAndMovesCompute : Obligations.LogicAndMovesCompute := by
  unfold Obligations.LogicAndMovesCompute
  intro h t d a e c b imm
  exact ⟨computesLanes_of_exec (exec_and h t d a b), computesLanes_of_exec (exec_or h t d a b),
    computesLanes_of_exec (exec_xor h t d a b), computesLanes_of_exec (exec_andn h t d a b),
    computesLanes_of_exec (exec_not h t d a), computesLanes_of_exec (exec_bfx h t d a b),
    computesLanes_of_exec (exec_bfi h t d a e c), computesLanes_of_exec (exec_popc h t d a),
    computesLanes_of_exec (exec_clz h t d a), computesLanes_of_exec (exec_ctz h t d a),
    computesLanes_of_exec (exec_brev h t d a), computesLanes_of_exec (exec_sel h t d a e c),
    computesLanes_of_exec (exec_mov h t d a), computesLanes_of_exec (exec_movi h t d imm)⟩

end Sys2Proof.Machine
end

section
/-!
SUPPORT. Floating-point instructions, conversions and gang operations complete (R128 to R154, R168 to R173).
-/

namespace Sys2Proof.Machine

/-- Settles O3: each instruction issues lanes that act on their own operands. -/
theorem floatingPointComputes : Obligations.FloatingPointComputes := by
  unfold Obligations.FloatingPointComputes
  intro h t r d a e c b m nanp exact_ fa fb cc op pd mask
  exact ⟨computesLanes_of_exec (exec_fadd h r d a b m), computesLanes_of_exec (exec_fsub h r d a b m),
    computesLanes_of_exec (exec_fmul h r d a b m), computesLanes_of_exec (exec_fma h r d a e c m),
    computesLanes_of_exec (exec_fmin h d a b m nanp), computesLanes_of_exec (exec_fmax h d a b m nanp),
    computesLanes_of_exec (exec_fcmp h t d a b cc op pd), computesLanes_of_exec (exec_frnd h t r d a exact_),
    computesLanes_of_exec (exec_fclass h t d a mask pd), computesLanes_of_exec (exec_rcp h r d a),
    computesLanes_of_exec (exec_rsqrt h r d a), computesLanes_of_exec (exec_sqrt h r d a),
    computesLanes_of_exec (exec_exp2 h r d a), computesLanes_of_exec (exec_log2 h r d a),
    computesLanes_of_exec (exec_sinpi h r d a), computesLanes_of_exec (exec_cospi h r d a),
    computesLanes_of_exec (exec_fscale h r d a b), computesLanes_of_exec (exec_fexp h d a),
    computesLanes_of_exec (exec_hadd2 h t r d a b m), computesLanes_of_exec (exec_hmul2 h t r d a b m),
    computesLanes_of_exec (exec_hfma2 h t r d a e c m), computesLanes_of_exec (exec_hmin2 h t d a b m nanp),
    computesLanes_of_exec (exec_hmax2 h t d a b m nanp), computesLanes_of_exec (exec_fdot2 h t r d a e c m),
    computesLanes_of_exec (exec_fdot4 h r d a e c m fa fb)⟩

/-! `prmt` takes its control from a register or from its word (R135). -/

theorem exec_prmt_reg (h : Hdr) (d a b o : Opnd) (s : State) :
    exec (.prmt h d a b (.reg o)) s = issueLanes s h d ([(d, 1), (a, 1), (b, 1)] ++ [(o, 1)]) [] fun _ _ rd =>
      outVal (prmtValue (rd a 1) (rd b 1) (rd o 1), 0#6) := rfl

theorem exec_prmt_const (h : Hdr) (d a b : Opnd) (k : BitVec 20) (s : State) :
    exec (.prmt h d a b (.const k)) s = issueLanes s h d ([(d, 1), (a, 1), (b, 1)] ++ []) [] fun _ _ rd =>
      outVal (prmtValue (rd a 1) (rd b 1) k.toNat, 0#6) := rfl

/-- Settles O4: each instruction issues lanes that act on their own operands. -/
theorem conversionComputes : Obligations.ConversionComputes := by
  unfold Obligations.ConversionComputes
  intro h dst src elem n p k part e4 sat dflt nat r t d a b c ctl
  refine ⟨computesLanes_of_exec (exec_cvt h dst src elem sat dflt r d a), computesLanes_of_exec (exec_pack h t r d a b),
    computesLanes_of_exec (exec_unpack h t part d a), computesLanes_of_exec (exec_plsplit h n p d a),
    computesLanes_of_exec (exec_plmerge h n k d a), computesLanes_of_exec (exec_quant h nat r n e4 d a b c),
    computesLanes_of_exec (exec_dequant h nat r e4 d a b), ?prmt⟩
  case prmt =>
    cases ctl with
    | reg o => exact computesLanes_of_exec (exec_prmt_reg h d a b o)
    | const k => exact computesLanes_of_exec (exec_prmt_const h d a b k)

/-! Gang operations: every executing lane's result is made from the executing lanes (R168). -/

/-- A gang operation computes what its meaning makes of the executing lanes. -/
theorem computes_of_gangOp {i : Instr} {h : Hdr} {d : Opnd} {uses : List (Opnd × Nat)} {preds : List PredOpt}
    {f : Bool → List Nat → (Nat → Lane) → (Nat → Reader) → Nat → LaneOut} (meaning : ∀ s, exec i s = gangOp s h d uses preds f) :
    Computes i h d uses preds fun s x m l => f x.c.lvl m.lanes x.g.lane (readWide x.g s.draws) l := by
  intro s x ready
  rw [meaning]
  exact issueWith_computes d _ _ ready rfl

theorem exec_shfl_reg (h : Hdr) (m : ShflMode) (d a o : Opnd) (grp : Fin 6) (pd : PredOpt) (s : State) :
    exec (.shfl h m d a (.reg o) grp pd) s = gangOp s h d ([(d, 1), (a, 1)] ++ [(o, 1)]) [pd] fun _ ls _ rd l =>
      let r := shflSource m (2 ^ grp.val) l (signExt (rd l o 1) 32)
      let ok := r.2 && ls.contains r.1
      { words := if ok then wordsOf 1 (rd r.1 a 1) else wordsOf 1 (rd l d 1), preds := predOut pd ok, flags := 0#6 } := rfl

theorem exec_shfl_const (h : Hdr) (m : ShflMode) (d a : Opnd) (c : BitVec 5) (grp : Fin 6) (pd : PredOpt) (s : State) :
    exec (.shfl h m d a (.const c) grp pd) s = gangOp s h d ([(d, 1), (a, 1)] ++ []) [pd] fun _ ls _ rd l =>
      let r := shflSource m (2 ^ grp.val) l c.toInt
      let ok := r.2 && ls.contains r.1
      { words := if ok then wordsOf 1 (rd r.1 a 1) else wordsOf 1 (rd l d 1), preds := predOut pd ok, flags := 0#6 } := rfl

theorem exec_matchq_gangOp (h : Hdr) (wide : Bool) (d a : Opnd) (pd : PredOpt) (s : State) :
    exec (.matchq h wide d a pd) s = gangOp s h d [(d, 1), (a, if wide then 2 else 1)] [pd] fun _ ls _ rd l =>
      { words := [LaneMask.ofList (ls.filter fun j => rd j a (if wide then 2 else 1) == rd l a (if wide then 2 else 1))]
        preds := predOut pd (ls.all fun j => rd j a (if wide then 2 else 1) == rd l a (if wide then 2 else 1)), flags := 0#6 } := rfl

/-- Settles O5: each gang operation issues through the one meaning of its form. -/
theorem gangOperationsCompute : Obligations.GangOperationsCompute := by
  unfold Obligations.GangOperationsCompute
  intro h m v op d a k grp ps pd psn excl wide
  refine ⟨?shfl, computes_of_gangOp (exec_vote h v d ps psn pd), computes_of_gangOp (exec_redux h op d a),
    computes_of_gangOp (exec_scan h op excl d a), computes_of_gangOp (exec_matchq_gangOp h wide d a pd)⟩
  case shfl =>
    cases k with
    | reg o => exact computes_of_gangOp (exec_shfl_reg h m d a o grp pd)
    | const c => exact computes_of_gangOp (exec_shfl_const h m d a c grp pd)

end Sys2Proof.Machine
end

section
/-!
SUPPORT. A move that performs a part of an access does not end in a fault where the access finds no storage, as `exec` does: the
step answers a next state that still notes the address.
-/

namespace Sys2Proof.Machine

/-- A load of one byte, pending at a PA of module number 8, where no tract has storage (R301). -/
def strayLoad : Op :=
  { id := 1, gang := 0, lanes := 1#32, stream := 0, mask := 0, scope := 1, pc := 0#64, issue := 0, after := [], dropped := false, looked := []
    mod := 0, route := 0#64, got := []
    kind := .load (.glob 4 0 [GByte.plain { pa := 2 ^ 41, gpa := 2 ^ 41, cp := 0, ms := false, prot := false }]) .norm .n8 (.v 0) }

/-- A machine with empty memories, whose next step performs a part of that load. -/
def strayPart : State :=
  { State.reset with
    agenda := [.part 1 1 0]
    crews := [{ Crew.fresh 1 1 0 0 0 0 64 4096 0 false [Gang.fresh .user 0#64 1 []] with ops := [strayLoad], nextOp := 2 }] }

theorem strayPart_wf : strayPart.wf = true := by decide

/-- The step answers the state after the move, which notes the address without storage. -/
theorem step_strayPart : step strayPart = .next (performPart { strayPart with agenda := [] } 1 1 0) := rfl

theorem performPart_stray_bad : (performPart { strayPart with agenda := [] } 1 1 0).bad = some (2 ^ 41) := by decide +kernel

/-- Refutes O60: performing a part of a load whose byte no HBM holds leaves the address noted, so the next state is not well formed. -/
theorem not_stepsKeepWellFormed : ¬ Obligations.StepsKeepWellFormed := by
  unfold Obligations.StepsKeepWellFormed
  intro keeps
  have wf := keeps _ _ strayPart_wf step_strayPart
  simp [State.wf, performPart_stray_bad] at wf

end Sys2Proof.Machine
end

section
/-!
SUPPORT. Closed facts: reset memory, and words written out (R53, R57).
-/

namespace Sys2Proof.Machine

/-- Settles O59: both memories are empty. -/
theorem resetIsWellFormed : Obligations.ResetIsWellFormed := by
  unfold Obligations.ResetIsWellFormed
  decide

/-- The outcome of decoding a word, compared with an expected one. -/
def decodesTo (regs w : Nat) (expected : Except EncErr Instr) : Bool :=
  match decode regs w, expected with
  | .ok i, .ok j => decide (i = j)
  | .error e, .error f => decide (e = f)
  | _, _ => false

theorem decode_of_decodesTo {regs w : Nat} {expected : Except EncErr Instr} (check : decodesTo regs w expected = true) :
    decode regs w = expected := by
  unfold decodesTo at check
  split at check
  · next i j read => rw [read, of_decide_eq_true check]
  · next e f read => rw [read, of_decide_eq_true check]
  · cases check

/-- Settles O57: each word is decoded. -/
theorem decodesWrittenWords : Obligations.DecodesWrittenWords := by
  unfold Obligations.DecodesWrittenWords
  refine ⟨?_, ?_, ?_, ?_, ?_, ?_, ?_, ?_, ?_, ?_, ?_, ?_, ?_, ?_, ?_, ?_, ?_, ?_, ?_, ?_⟩ <;>
    exact decode_of_decodesTo (by decide +kernel)

end Sys2Proof.Machine
end

section
/-!
SUPPORT. The values at reset, and what the RESET event leaves (R302, R374, R392, R395 to R397, R402).
-/

namespace Sys2Proof.Machine

theorem reset_func (v : Nat) : State.reset.func v = Func.fresh v := by
  rw [State.func, State.reset]
  by_cases h : v < 64
  · simp [h]
  · simp [h]

theorem reset_links (k : Nat) (h : k < 18) : State.reset.links[k]? = some Link.fresh := by
  show (List.replicate 18 Link.fresh)[k]? = some Link.fresh
  rw [List.getElem?_replicate, if_pos h]

/-- The RESET event leaves the state after reset, with what no reset touches. -/
theorem execReset_next (s : State) :
    execReset s = .next { State.reset with agenda := s.agenda, hbm := (s.worldLines.foldl sealLine s).hbm, host := s.host
                                           poisoned := s.poisoned, draws := s.draws, firmware := s.firmware } := rfl

/-- Settles O55: each register by its value in the state after reset; the event replaces all but what it names. -/
theorem resetState : Obligations.ResetState := by
  unfold Obligations.ResetState
  refine ⟨⟨rfl, rfl, rfl, rfl, rfl, rfl, rfl, rfl, rfl, rfl, ?funcs, fun _ _ _ => rfl, fun _ => rfl, fun _ => rfl, fun _ => rfl,
    reset_links, fun _ => rfl, fun _ => rfl, fun v c => ⟨rfl, rfl, rfl, rfl, rfl, rfl, rfl⟩⟩, ?event⟩
  case funcs =>
    intro v _
    rw [reset_func]
    exact ⟨rfl, rfl, rfl, rfl, rfl, rfl, rfl, rfl, rfl, rfl, rfl, rfl, rfl, rfl, rfl, rfl, rfl, rfl⟩
  case event =>
    intro s _
    refine ⟨_, (exec_reset s).trans (execReset_next s), rfl, rfl, fun noLines => ?_⟩
    show (s.worldLines.foldl sealLine s).hbm = s.hbm
    rw [noLines, List.foldl_nil]

end Sys2Proof.Machine
end

section
/-!
SUPPORT. Branches, calls and returns whose targets are legal (R69, R89, R90, R157 to R159).
-/

namespace Sys2Proof.Machine

/-- An instruction whose meaning is a switch point that leaves `after` where it is ready completes there. -/
theorem switchesTo_of_exec {i : Instr} {h : Hdr} {uses : List (Opnd × Nat)} {cond : State → Issue → Prop}
    {after : State → Issue → State} {F : State → Issue → LaneMask → State}
    (meaning : ∀ s, exec i s = issueSwitch s h uses [] (F s))
    (leaves : ∀ s x, ReadySwitch s x h uses [] → cond s x → F s x (x.execs h) = after s x)
    (stored : ∀ s x, s.bad = none → cond s x → (after s x).bad = none) : SwitchesTo i h uses [] cond after := by
  intro s x ready holds
  rw [meaning]
  exact issueSwitch_switched _ _ ready (leaves s x ready holds) (stored s x ready.ready.stored holds)

theorem moved_bad (s : State) (x : Issue) : (moved s x).bad = s.bad := rfl

/-- A transfer without a link, all of whose targets are legal, splits the entry. -/
theorem transfer_splits {s : State} {x : Issue} {h : Hdr} (target : Nat → Option Pc) (hi : issuing s = some x)
    (legal : ∀ l ∈ (x.execs h).lanes, ∀ pc, target l = some pc → x.legal s h pc) :
    transfer s x (x.execs h) none false target = switched s x x.c (splits s x h target) := by
  rw [transfer_legal none false target legal]
  exact congrArg (fun c => switched s x c _) (setGang_self hi)

/-- A taken branch to a legal target. -/
theorem exec_bra_splits {h : Hdr} {t : Target} {s : State} {x : Issue} (ready : ReadySwitch s x h [] []) (takes : x.execs h ≠ 0#32)
    (legal : x.legal s h (pcTarget x.e.pc t)) :
    exec (.bra h t) s = .next (switched s x x.c (splits s x h fun _ => some (pcTarget x.e.pc t))) := by
  rw [exec_bra, execBra]
  refine issueSwitch_switched _ _ ready ?_ (by exact ready.ready.stored)
  rw [if_neg takes]
  exact transfer_splits _ ready.ready.issues fun _ _ _ same => Option.some.inj same ▸ legal

/-- A call to a legal target. -/
theorem exec_call_links {h : Hdr} {d : Opnd} {t : Target} {s : State} {x : Issue} (ready : ReadySwitch s x h [(d, 2)] [])
    (legal : ∀ l ∈ (x.execs h).lanes, x.legal s h (pcTarget x.e.pc t)) :
    exec (.call h d t) s = .next (switched s x (x.c.setGang x.k (if h.nwb then x.g else writeLink x.g (x.execs h) d x.e.pc))
      (splits s x h fun _ => some (pcTarget x.e.pc t))) := by
  rw [exec_call, execCall]
  refine issueSwitch_switched _ _ ready ?_ (by exact ready.ready.stored)
  exact transfer_legal (some d) h.nwb _ fun l hl _ same => by cases same; exact legal l hl

/-- Settles O6: each transfer is a switch point, and splits the entry where its targets are legal. -/
theorem transfersComplete : Obligations.TransfersComplete := by
  unfold Obligations.TransfersComplete
  intro h t d a table count
  refine ⟨?nop, ?notTaken, ?taken, ?brxNone, ?brx, ?call, ?ret⟩
  case nop =>
    intro pred pneg s x ready
    rw [exec_nop, execNop, issueWith, ready.issues]
    simp only [ready.free, Bool.false_eq_true, if_false]
    exact finish_next ready.stored
  case notTaken =>
    refine switchesTo_of_exec (exec_bra h t) (fun s x _ none => ?_) (fun s x b _ => (moved_bad s x).trans b)
    rw [if_pos none]
    rfl
  case taken =>
    intro s x ready ⟨takes, legal⟩
    exact exec_bra_splits ready takes (legal _ (lowest_mem takes) _ rfl)
  case brxNone =>
    refine switchesTo_of_exec (exec_brx h a table count) (fun s x _ none => ?_) (fun s x b _ => (moved_bad s x).trans b)
    have all : (x.execs h).lanes.all (fun l => (brxTarget s x a table count l).isNone) = true :=
      List.all_eq_true.mpr fun l hl => by rw [none l hl]; rfl
    simp only [all, if_true]
    rfl
  case brx =>
    refine switchesTo_of_exec (exec_brx h a table count) (fun s x ready some => ?_) (fun s x b _ => (switched_bad s x _ _).trans b)
    obtain ⟨⟨l, hl, goes⟩, legal⟩ := some
    have notAll : ¬ (x.execs h).lanes.all (fun l => (brxTarget s x a table count l).isNone) = true := fun all =>
      goes (Option.isNone_iff_eq_none.mp (List.all_eq_true.mp all l hl))
    simp only [notAll]
    exact transfer_splits _ ready.ready.issues legal
  case call =>
    exact fun s x ready legal => exec_call_links ready fun l hl => legal l hl _ rfl
  case ret =>
    refine switchesTo_of_exec (exec_ret h a) (fun s x ready legal => ?_) (fun s x b _ => (switched_bad s x _ _).trans b)
    exact transfer_splits _ ready.ready.issues legal

/-! Where the lanes of a split stand. -/

theorem getLsbD_ofList_filter (m : LaneMask) (p : Nat → Bool) (l : Nat) :
    (LaneMask.ofList (m.lanes.filter p)).getLsbD l = true ↔ m.getLsbD l = true ∧ p l = true := by
  rw [← LaneMask.mem_lanes, lanes_ofList_filter, List.mem_filter, LaneMask.mem_lanes]

/-- Lanes that split go each to its target, and with the lanes that stay to the next slot where they have none. -/
theorem moveGroups_standsAt (s : State) (x : Issue) (m stay : LaneMask) (target : Nat → Option Pc) (l : Nat) (pc : Pc) :
    standsAt ((m.lanes.filterMap fun l => (target l).map fun pc => moveGroup s x pc (LaneMask.one l)) ++
        [nextGroup s x (stay ||| LaneMask.ofList (m.lanes.filter fun l => (target l).isNone))]) l pc ↔
      (m.getLsbD l = true ∧ target l = some pc) ∨
      (pc = pcNext x.e.pc ∧ (stay.getLsbD l = true ∨ (m.getLsbD l = true ∧ target l = none))) := by
  simp only [standsAt, List.mem_append, List.mem_singleton, or_and_right, exists_or, exists_eq_left, List.mem_filterMap,
    Option.map_eq_some_iff]
  refine or_congr ⟨?_, ?_⟩ ?_
  · rintro ⟨e, ⟨k, hk, q, ht, rfl⟩, hm, rfl⟩
    simp only [moveGroup, getLsbD_one, Bool.and_eq_true, decide_eq_true_eq] at hm
    obtain ⟨_, rfl⟩ := hm
    exact ⟨(LaneMask.mem_lanes _ _).mp hk, ht⟩
  · rintro ⟨hx, ht⟩
    exact ⟨_, ⟨l, (LaneMask.mem_lanes _ _).mpr hx, pc, ht, rfl⟩, by simp [moveGroup, getLsbD_one, BitVec.lt_of_getLsbD hx], rfl⟩
  · simp only [nextGroup, BitVec.getLsbD_or, Bool.or_eq_true, getLsbD_ofList_filter, Option.isNone_iff_eq_none,
      eq_comm (a := pcNext x.e.pc), and_comm (b := pc = pcNext x.e.pc)]

/-- A split stands each executing lane at its target, and every other lane of the entry, with those that have none, at the next slot. -/
theorem splits_standsAt (s : State) (x : Issue) (h : Hdr) (target : Nat → Option Pc) (l : Nat) (pc : Pc) :
    standsAt (splits s x h target) l pc ↔ ((x.execs h).getLsbD l = true ∧ target l = some pc) ∨
      (pc = pcNext x.e.pc ∧ ((x.others h).getLsbD l = true ∨ ((x.execs h).getLsbD l = true ∧ target l = none))) :=
  moveGroups_standsAt s x (x.execs h) (x.others h) target l pc

/-- Where every executing lane has the same target, the lanes that move stand together there. -/
theorem joined_splits_together {s : State} {x : Issue} {h : Hdr} (g : Gang) (pc : Pc) (takes : x.execs h ≠ 0#32) :
    ∃ e ∈ (joined (splits s x h fun _ => some pc) g).frontier, e.pc = pc ∧
      ∀ l, (x.execs h).getLsbD l = true → e.mask.getLsbD l = true := by
  let movers := (x.execs h).lanes.filterMap fun l => (some pc).map fun pc => moveGroup s x pc (LaneMask.one l)
  have inMovers : ∀ l, (x.execs h).getLsbD l = true → moveGroup s x pc (LaneMask.one l) ∈ movers := fun l hl =>
    List.mem_filterMap.mpr ⟨l, (LaneMask.mem_lanes _ _).mpr hl, rfl⟩
  have single : ∀ l, (x.execs h).getLsbD l = true → (LaneMask.one l).getLsbD l = true := fun l hl => by
    simp [getLsbD_one, BitVec.lt_of_getLsbD hl]
  have alike : ∀ e ∈ movers, e.mask ≠ 0#32 ∧ e.busy = false ∧ e.pc = pc ∧ e.band = x.e.band := by
    intro e he
    obtain ⟨l, hl, same⟩ := List.mem_filterMap.mp he
    obtain rfl := Option.some.inj same
    exact ⟨ne_zero_of_lane (single l ((LaneMask.mem_lanes _ _).mp hl)), rfl, rfl, rfl⟩
  have low := lowest_mem takes
  obtain ⟨y, hy, hpc, hmask⟩ := addEntries_same movers g.frontier.tail pc x.e.band alike
    (List.ne_nil_of_mem (inMovers _ ((LaneMask.mem_lanes _ _).mp low)))
  obtain ⟨z, hz, hzpc, _, _, hzmask⟩ := addEntries_keeps
    [nextGroup s x (x.others h ||| LaneMask.ofList ((x.execs h).lanes.filter fun _ => (some pc).isNone))] y _ hy
  have holds : ∀ l, (x.execs h).getLsbD l = true → z.mask.getLsbD l = true := fun l hl =>
    hzmask l (hmask _ (inMovers l hl) l (single l hl))
  refine ⟨z, ?_, hzpc.trans hpc, holds⟩
  simp only [joined, splits, List.mem_filter, bne_iff_ne]
  refine ⟨?_, ne_zero_of_lane (holds _ ((LaneMask.mem_lanes _ _).mp low))⟩
  rw [addEntries_append]
  exact hz

/-- Two words hold a PC: its low and its high half. -/
theorem wordsOf_two_pc (pc : Pc) : wordsOf 2 pc.toNat = [pc.setWidth 32, (pc >>> 32).setWidth 32] := by
  simp only [wordsOf, List.cons.injEq, and_true]
  constructor <;> apply BitVec.eq_of_toNat_eq <;> simp [Nat.shiftRight_eq_div_pow]

theorem writeLink_g (g : Gang) (m : LaneMask) (q : Fin 1536) (pc : Pc) : (writeLink g m (.v q) pc).g = g.g := by
  unfold writeLink
  generalize lowest m = low
  induction m.lanes generalizing g with
  | nil => rfl
  | cons l ls ih => exact ih _

/-- Settles O7: a taken branch and a call split the entry, by where the lanes of a split stand. -/
theorem branchesSplitAndCallsLink : Obligations.BranchesSplitAndCallsLink := by
  unfold Obligations.BranchesSplitAndCallsLink
  constructor
  · intro h t s x ready takes legal
    have hi := ready.ready.issues
    have stands := fun l pc => (joined_at (splits s x h fun _ => some (pcTarget x.e.pc t)) x.g l pc).trans
      (or_congr (splits_standsAt s x h _ l pc) Iff.rfl)
    refine ⟨_, joined (splits s x h fun _ => some (pcTarget x.e.pc t)) x.g, ?_, rfl, joined_splits_together x.g _ takes, ?_, ?_, ?_, ?_, rfl⟩
    · rw [exec_bra_splits ready takes legal, switched, mapGang_setGang, ← (issuing_spec hi).2.1]
      rfl
    · exact fun l hl => (stands l _).mpr (.inl (.inr ⟨rfl, .inl hl⟩))
    · exact fun e he l hl => (stands l _).mpr (.inr ⟨e, he, hl, rfl⟩)
    · intro l pc at_
      rcases (stands l pc).mp at_ with (⟨hx, same⟩ | ⟨hp, ho | ⟨_, none⟩⟩) | ⟨e, he, hl, hp⟩
      · exact .inl ⟨hx, (Option.some.inj same).symm⟩
      · exact .inr (.inl ⟨ho, hp⟩)
      · exact absurd none (Option.some_ne_none _)
      · exact .inr (.inr ⟨e, he, hl, hp.symm⟩)
    · intro e he
      simpa using (List.mem_filter.mp he).2
  · intro h t d s x _ link ready legal
    have hi := ready.ready.issues
    obtain ⟨_, _, hk, _⟩ := issuing_spec hi
    have linked := fun l r hl => writeLink_reg x.g (x.execs h) d x.e.pc l r hl
    refine ⟨_, exec_call_links ready fun _ _ => legal, ?_, ?_⟩
    all_goals
      rw [switched_now hi (x.c.setGang x.k _) rfl (by simpa [Crew.setGang] using hk), link]
      simp only [Bool.false_eq_true, if_false, Crew.setGang, Crew.mapGang_gang, hk, and_self, if_true]
    · exact writeLink_g x.g (x.execs h) d x.e.pc
    · intro l hl r
      refine (linked l r hl).trans ?_
      rw [wordsOf_two_pc]
      by_cases low : r = d.val
      · simp [low]
      · by_cases high : r = d.val + 1
        · simp [high]
        · have out : ¬ (d.val ≤ r ∧ r < d.val + 2) := by omega
          simp [low, high, out]

end Sys2Proof.Machine
end

section
/-!
SUPPORT. Traps raised by instruction, transfers and returns that are refused, returns, and lanes held at depth 3 (R95 to R100, R163, R188).
-/

namespace Sys2Proof.Machine

theorem nextGroup_standsAt (s : State) (x : Issue) (m : LaneMask) (l : Nat) (pc : Pc) :
    standsAt [nextGroup s x m] l pc ↔ m.getLsbD l = true ∧ pc = pcNext x.e.pc := by
  simp only [standsAt, List.mem_singleton, exists_eq_left, nextGroup, eq_comm (a := pc)]

/-- An instruction that its executing lanes trap at enters their handlers where these can be entered; the entry's other lanes go on. -/
theorem trapsLanes_of_trapInstr {i : Instr} {h : Hdr} {n : BitVec 16} {cause : Nat} {next : Bool}
    (meaning : ∀ s, exec i s = trapInstr s h cause next n) :
    TrapsLanes i h [] (fun _ _ => True) (fun _ x => x.execs h)
      (fun _ x l => { lane := l, cause := cause, pc := x.e.pc, tpc := if next then pcNext x.e.pc else x.e.pc, addr := 0
                      det0 := n.toNat, det1 := 0 })
      (fun _ x l => x.g.lane l) (fun _ x l pc => (x.others h).getLsbD l = true ∧ pc = pcNext x.e.pc) := by
  intro s x ready _ handled
  rw [meaning, trapInstr]
  refine issueSwitch_traps _ x.g [nextGroup s x (x.others h)] _ _ _ _ ready ?_ (fun _ _ => rfl) handled rfl (fun _ => rfl) rfl
    fun l pc _ => nextGroup_standsAt s x _ l pc
  rw [setGang_self ready.ready.issues]
  rfl

/-- Settles O9: the three instructions differ in cause and return PC alone. -/
theorem softwareTrapsEnterHandler : Obligations.SoftwareTrapsEnterHandler := by
  unfold Obligations.SoftwareTrapsEnterHandler
  intro h n
  exact ⟨trapsLanes_of_trapInstr (next := false) (exec_trap h n), trapsLanes_of_trapInstr (next := true) (exec_syscall h n),
    trapsLanes_of_trapInstr (next := true) (exec_hcall h n)⟩

/-! Transfers to targets that are not legal. -/

/-- The executing lanes that name a target which is not legal (R95). -/
def Issue.illegal (x : Issue) (s : State) (h : Hdr) (target : Nat → Option Pc) : LaneMask :=
  x.which h fun l => match target l with
    | some pc => !legalTarget s (s.launchOf x.c).vf (s.launchOf x.c).ctx (x.g.lane (lowest (x.execs h))).mode pc
    | none => false

theorem badTargets_eq_map (s : State) (x : Issue) (h : Hdr) (target : Nat → Option Pc) :
    badTargets s x (x.execs h) target = (x.illegal s h target).lanes.map fun l => badTarget x l ((target l).getD 0#64) := by
  refine filterMap_which x h _ _ _ fun l _ => ?_
  cases target l with
  | none => rfl
  | some pc =>
    cases ok : legalTarget s (s.launchOf x.c).vf (s.launchOf x.c).ctx (x.g.lane (lowest (x.execs h))).mode pc <;> simp [ok]

theorem getLsbD_without (m b : LaneMask) (l : Nat) :
    (m &&& ~~~b).getLsbD l = true ↔ m.getLsbD l = true ∧ b.getLsbD l = false := by
  have lt : m.getLsbD l = true → l < 32 := BitVec.lt_of_getLsbD
  simp only [BitVec.getLsbD_and, BitVec.getLsbD_not, Bool.and_eq_true, Bool.not_eq_true', decide_eq_true_eq]
  exact ⟨fun ⟨hm, _, hb⟩ => ⟨hm, hb⟩, fun ⟨hm, hb⟩ => ⟨hm, lt hm, hb⟩⟩

theorem writeLink_zero (g : Gang) (d : Opnd) (pc : Pc) : writeLink g 0#32 d pc = g := by
  unfold writeLink
  rw [LaneMask.lanes_zero, List.foldl_nil]

/-- A transfer whose lanes with a legal target take no link: the others trap, and those move. -/
theorem transfer_refuses {s : State} {x : Issue} {h : Hdr} {target : Nat → Option Pc} {link : Option Opnd} {nwb : Bool} {go : LaneMask}
    (rest : go = x.execs h &&& ~~~(x.illegal s h target)) (noLink : ∀ d, link = some d → go = 0#32) :
    transfer s x (x.execs h) link nwb target = finishSwitch s s x (x.c.setGang x.k x.g)
      ((go.lanes.filterMap fun l => (target l).map fun pc => moveGroup s x pc (LaneMask.one l)) ++
        [nextGroup s x (x.others h ||| LaneMask.ofList (go.lanes.filter fun l => (target l).isNone))])
      ((x.illegal s h target).lanes.map fun l => badTarget x l ((target l).getD 0#64)) := by
  have lanes := trapMask_map (x.illegal s h target) (fun l => badTarget x l ((target l).getD 0#64)) fun _ _ => rfl
  simp only [transfer, badTargets_eq_map, lanes, ← rest]
  cases link with
  | none => rfl
  | some d =>
    simp only [noLink d rfl, writeLink_zero, ite_self]
    rfl

/-- An instruction whose meaning is a transfer traps the lanes with a target that is not legal, where their handlers can be entered. -/
theorem trapsLanes_of_transfer {i : Instr} {h : Hdr} {uses : List (Opnd × Nat)} {target : State → Issue → Nat → Option Pc}
    {F : State → Issue → LaneMask → State} {link : Option Opnd} {nwb : Bool} (meaning : ∀ s, exec i s = issueSwitch s h uses [] (F s))
    (moves : ∀ s x, x.illegal s h (target s x) ≠ 0#32 → F s x (x.execs h) = transfer s x (x.execs h) link nwb (target s x))
    (noLink : ∀ (s : State) (x : Issue) d, link = some d → x.illegal s h (target s x) ≠ 0#32 → x.illegal s h (target s x) = x.execs h) :
    TrapsLanes i h uses (fun s x => x.illegal s h (target s x) ≠ 0#32) (fun s x => x.illegal s h (target s x))
      (fun s x l => badTarget x l ((target s x l).getD 0#64)) (fun _ x l => x.g.lane l)
      (fun s x l pc => ((x.execs h).getLsbD l = true ∧ target s x l = some pc) ∨
        (pc = pcNext x.e.pc ∧ ((x.others h).getLsbD l = true ∨ ((x.execs h).getLsbD l = true ∧ target s x l = none)))) := by
  intro s x ready refuses handled
  have unlinked : ∀ d, link = some d → x.execs h &&& ~~~(x.illegal s h (target s x)) = 0#32 := fun d hd => by
    rw [noLink s x d hd refuses, BitVec.and_not_self]; rfl
  rw [meaning]
  refine issueSwitch_traps _ x.g _ _ _ _ _ ready ((moves s x refuses).trans (transfer_refuses rfl unlinked)) (fun _ _ => rfl) handled rfl
    (fun _ => rfl) rfl fun l pc hl => ?_
  rw [moveGroups_standsAt, getLsbD_without, and_iff_left hl]

end Sys2Proof.Machine
end

section
namespace Sys2Proof.Machine

theorem getD_of_le {α : Type} {xs : List α} {i : Nat} (d : α) (le : xs.length ≤ i) : xs.getD i d = d := by
  rw [List.getD_eq_getElem?_getD, List.getElem?_eq_none le, Option.getD_none]

theorem getD_of_lt {α : Type} {xs : List α} {i : Nat} (d : α) (lt : i < xs.length) : xs.getD i d = xs[i] := by
  rw [List.getD_eq_getElem?_getD, List.getElem?_eq_getElem lt, Option.getD_some]

/-- Some executing lane names a target that is not legal. -/
theorem exists_of_illegal {x : Issue} {s : State} {h : Hdr} {target : Nat → Option Pc} (some : x.illegal s h target ≠ 0#32) :
    ∃ l ∈ (x.execs h).lanes, target l ≠ none := by
  refine Classical.byContradiction fun nobody => some (which_eq_zero fun l hl => ?_)
  have unnamed : target l = none := Classical.byContradiction fun named => nobody ⟨l, hl, named⟩
  rw [unnamed]

/-- Where all executing lanes have one target, none or all of them refuse it. -/
theorem illegal_const {x : Issue} {s : State} {h : Hdr} {pc : Pc} (refuses : x.illegal s h (fun _ => some pc) ≠ 0#32) :
    x.illegal s h (fun _ => some pc) = x.execs h := by
  have notLegal : legalTarget s (s.launchOf x.c).vf (s.launchOf x.c).ctx (x.g.lane (lowest (x.execs h))).mode pc = false := by
    refine Classical.byContradiction fun legal => refuses (which_eq_zero fun _ _ => ?_)
    simp [legal]
  apply BitVec.eq_of_getLsbD_eq
  intro l _
  simp [Issue.illegal, which_getLsbD, notLegal]

/-! Returns. -/

/-- The executing lanes whose top frame does not allow the return (R100). -/
def Issue.refused (x : Issue) (s : State) (h : Hdr) (mode : Mode) : LaneMask :=
  x.which h fun l => !returnOk s (s.launchOf x.c).vf (s.launchOf x.c).ctx (x.g.lane l) mode

/-- The executing lanes whose top frame allows the return. -/
def Issue.returning (x : Issue) (s : State) (h : Hdr) (mode : Mode) : LaneMask := x.execs h &&& ~~~(x.refused s h mode)

/-- The trap of a lane whose return is refused: the target that failed, or 0 where the lane has no frame or is in another mode. -/
def refusedReturn (x : Issue) (mode : Mode) (l : Nat) : Trap :=
  let y := x.g.lane l
  let pc := if y.depth = 0 ∨ y.mode ≠ mode then 0 else y.top.tpc.toNat
  { lane := l, cause := 2, pc := x.e.pc, tpc := x.e.pc, addr := 0, det0 := pc % 2 ^ 32, det1 := pc / 2 ^ 32 }

/-- The gang once the lanes whose return is allowed have left their frames. -/
def Issue.left (x : Issue) (s : State) (h : Hdr) (mode : Mode) : Gang := x.g.mapLanes (x.returning s h mode) fun _ y => y.leave

/-- The entries of the lanes that return, and of the lanes that go on at the next slot. -/
def returnGroups (s : State) (x : Issue) (h : Hdr) (mode : Mode) : List Entry :=
  (x.returning s h mode).lanes.map (returnEntry s (s.launchOf x.c).vf (s.launchOf x.c).ctx x.g) ++ [nextGroup s x (x.others h)]

theorem getLsbD_returning (x : Issue) (s : State) (h : Hdr) (mode : Mode) (l : Nat) : (x.returning s h mode).getLsbD l = true ↔
    (x.execs h).getLsbD l = true ∧ returnOk s (s.launchOf x.c).vf (s.launchOf x.c).ctx (x.g.lane l) mode = true := by
  rw [Issue.returning, getLsbD_without, Issue.refused, which_getLsbD]
  cases (x.execs h).getLsbD l <;> simp

theorem left_lane (x : Issue) (s : State) (h : Hdr) (mode : Mode) (l : Nat) : (x.left s h mode).lane l =
    if (x.execs h).getLsbD l && returnOk s (s.launchOf x.c).vf (s.launchOf x.c).ctx (x.g.lane l) mode then (x.g.lane l).leave
    else x.g.lane l := by
  have back := getLsbD_returning x s h mode l
  rw [Issue.left, Gang.mapLanes_lane]
  simp only [Bool.and_eq_true, ← back]
  by_cases hl : l < x.g.lanes.length
  · simp only [hl, true_and]
  · simp only [hl, false_and, if_false, Gang.lane, getD_of_le _ (Nat.le_of_not_lt hl)]
    exact (ite_self Lane.blank).symm

theorem returnGroups_standsAt (s : State) (x : Issue) (h : Hdr) (mode : Mode) (l : Nat) (pc : Pc) :
    standsAt (returnGroups s x h mode) l pc ↔
      ((x.execs h).getLsbD l = true ∧ returnOk s (s.launchOf x.c).vf (s.launchOf x.c).ctx (x.g.lane l) mode = true ∧
        pc = (x.g.lane l).backTo) ∨ ((x.others h).getLsbD l = true ∧ pc = pcNext x.e.pc) := by
  have split : standsAt (returnGroups s x h mode) l pc ↔
      standsAt ((x.returning s h mode).lanes.map (returnEntry s (s.launchOf x.c).vf (s.launchOf x.c).ctx x.g)) l pc ∨
        standsAt [nextGroup s x (x.others h)] l pc := by
    simp only [standsAt, returnGroups, List.mem_append, or_and_right, exists_or]
  rw [split, nextGroup_standsAt, ← and_assoc, ← getLsbD_returning]
  refine or_congr_left ⟨?_, ?_⟩
  · rintro ⟨e, he, hm, rfl⟩
    obtain ⟨k, hk, rfl⟩ := List.mem_map.mp he
    simp only [returnEntry, getLsbD_one, Bool.and_eq_true, decide_eq_true_eq] at hm
    obtain ⟨_, rfl⟩ := hm
    exact ⟨(LaneMask.mem_lanes _ _).mp hk, rfl⟩
  · rintro ⟨hl, rfl⟩
    exact ⟨_, List.mem_map.mpr ⟨l, (LaneMask.mem_lanes _ _).mpr hl, rfl⟩, by simp [returnEntry, getLsbD_one, BitVec.lt_of_getLsbD hl], rfl⟩

/-- What a return issues: the lanes whose return is allowed leave, and the others trap. -/
theorem returnInstr_eq (s : State) (h : Hdr) (mode : Mode) : ∃ F, returnInstr s h mode = issueSwitch s h [] [] F ∧
    ∀ x, issuing s = some x → F x (x.execs h) =
      finishSwitch s s x (x.c.setGang x.k (x.left s h mode)) (returnGroups s x h mode) ((x.refused s h mode).lanes.map (refusedReturn x mode)) := by
  refine ⟨_, rfl, fun x hi => ?_⟩
  have traps : (((x.execs h).lanes.filter fun l => !returnOk s (s.launchOf x.c).vf (s.launchOf x.c).ctx (x.g.lane l) mode).map fun l =>
      if (x.g.lane l).depth = 0 ∨ (x.g.lane l).mode ≠ mode then faultAt x l 2 0 0 0 else badTarget x l (x.g.lane l).top.tpc) =
      (x.refused s h mode).lanes.map (refusedReturn x mode) := by
    rw [Issue.refused, which_lanes]
    refine List.map_congr_left fun l _ => ?_
    by_cases noFrame : (x.g.lane l).depth = 0 ∨ (x.g.lane l).mode ≠ mode
    · rw [if_pos noFrame]; simp only [refusedReturn, if_pos noFrame]; rfl
    · rw [if_neg noFrame]; simp only [refusedReturn, if_neg noFrame]; rfl
  simp only [traps, trapMask_map (x.refused s h mode) (refusedReturn x mode) fun _ _ => rfl]
  rw [mapGang_setGang, ← (issuing_spec hi).2.1]
  rfl

/-- An instruction whose meaning is a return traps the lanes whose top frame does not allow it; the others return. -/
theorem trapsLanes_of_return {i : Instr} {h : Hdr} {mode : Mode} (meaning : ∀ s, exec i s = returnInstr s h mode) :
    TrapsLanes i h [] (fun _ _ => True) (fun s x => x.refused s h mode) (fun _ x l => refusedReturn x mode l)
      (fun s x l => if (x.execs h).getLsbD l && returnOk s (s.launchOf x.c).vf (s.launchOf x.c).ctx (x.g.lane l) mode
        then (x.g.lane l).leave else x.g.lane l)
      (fun s x l pc => ((x.execs h).getLsbD l = true ∧ returnOk s (s.launchOf x.c).vf (s.launchOf x.c).ctx (x.g.lane l) mode = true ∧
          pc = (x.g.lane l).backTo) ∨ ((x.others h).getLsbD l = true ∧ pc = pcNext x.e.pc)) := by
  intro s x ready _ handled
  obtain ⟨F, issue, ends⟩ := returnInstr_eq s h mode
  rw [meaning, issue]
  exact issueSwitch_traps F (x.left s h mode) _ _ _ _ _ ready (ends x ready.ready.issues) (fun _ _ => rfl) handled
    (mapLanesFrom_length _ _ _ _)
    (left_lane x s h mode) rfl fun l pc _ => returnGroups_standsAt s x h mode l pc

/-- Settles O10: a refused transfer or return ends its switch point with the traps of the lanes that refuse. -/
theorem refusedTransfersTrap : Obligations.RefusedTransfersTrap := by
  unfold Obligations.RefusedTransfersTrap
  refine ⟨fun h t d a table count => ⟨?bra, ?brx, ?call, ?ret⟩, fun h => ⟨trapsLanes_of_return (exec_sret h), trapsLanes_of_return (exec_hret h)⟩⟩
  case bra =>
    refine trapsLanes_of_transfer (link := none) (nwb := false) (exec_bra h t) (fun s x refuses => if_neg ?_) (fun _ _ _ e => nomatch e)
    intro none
    obtain ⟨l, hl, _⟩ := exists_of_illegal refuses
    simp [none] at hl
  case brx =>
    refine trapsLanes_of_transfer (link := none) (nwb := false) (exec_brx h a table count) (fun s x refuses => if_neg ?_)
      (fun _ _ _ e => nomatch e)
    intro none
    obtain ⟨l, hl, goes⟩ := exists_of_illegal refuses
    exact goes (Option.isNone_iff_eq_none.mp (List.all_eq_true.mp none l hl))
  case call =>
    exact trapsLanes_of_transfer (link := some d) (nwb := h.nwb) (exec_call h d t) (fun s x _ => rfl) (fun _ _ _ _ refuses => illegal_const refuses)
  case ret =>
    exact trapsLanes_of_transfer (link := none) (nwb := false) (exec_ret h a) (fun s x _ => rfl) (fun _ _ _ e => nomatch e)

/-! Returns that are allowed. -/

/-- A switch point that puts a gang in place and traps no lane leaves that gang with its groups. -/
theorem switched_setGang (s : State) (x : Issue) (g : Gang) (groups : List Entry) :
    switched s x (x.c.setGang x.k g) groups =
      { s.setCrew (x.c.setGang x.k (joined groups g)) with draws := s.draws + 1 } := by
  simp only [switched, Crew.setGang, Crew.mapGang_mapGang]
  rfl

/-- Settles O12: no lane's return is refused, so that the switch point ends without a trap. -/
theorem returnsPopFrames : Obligations.ReturnsPopFrames := by
  unfold Obligations.ReturnsPopFrames
  intro h returns
  have completes : ∀ i mode, (∀ s, exec i s = returnInstr s h mode) → returns i mode := by
    intro i mode meaning s x ready allowed
    have hi := ready.ready.issues
    have hg := (issuing_spec hi).2.1
    obtain ⟨F, issue, ends⟩ := returnInstr_eq s h mode
    have nobody : x.refused s h mode = 0#32 := which_eq_zero fun l hl => by simp [allowed l hl]
    have ok : ∀ l, (x.execs h).getLsbD l = true →
        returnOk s (s.launchOf x.c).vf (s.launchOf x.c).ctx (x.g.lane l) mode = true := fun l hl =>
      allowed l ((LaneMask.mem_lanes _ _).mpr hl)
    have ended := ends x hi
    rw [nobody, LaneMask.lanes_zero, List.map_nil, finishSwitch_nil] at ended
    refine ⟨joined (returnGroups s x h mode) (x.left s h mode), ?_, fun l _ => ?_, fun l pc => ?_⟩
    · rw [meaning, issue, issueSwitch_switched F _ ready ended (by exact ready.ready.stored), switched_setGang]
    · refine (left_lane x s h mode l).trans ?_
      by_cases hx : (x.execs h).getLsbD l = true
      · have leaves : ∀ y : Lane, y.leave = match y.frames with
            | f :: fs => { y with frames := fs, mode := Mode.ofCode (bits f.tcause.toNat 9 8) }
            | [] => y := fun _ => rfl
        simp only [hx, ok l hx, Bool.and_self, if_true, leaves]
        cases (x.g.lane l).frames <;> rfl
      · simp only [hx, Bool.false_and, Bool.false_eq_true, if_false]
    · rw [joined_at, returnGroups_standsAt, or_assoc]
      refine or_congr ⟨fun ⟨hx, _, hp⟩ => ⟨hx, hp⟩, fun ⟨hx, hp⟩ => ⟨hx, ok l hx, hp⟩⟩ Iff.rfl
  exact ⟨completes _ _ (exec_sret h), completes _ _ (exec_hret h)⟩

end Sys2Proof.Machine
end

section
/-!
SUPPORT. Lanes at depth 3 that trap: each is held, with a record of its own (R98).
-/

namespace Sys2Proof.Machine

/-- The record of a lane that traps at depth 3 (R98). -/
def depthRecord (x : Issue) (l : Nat) : Record :=
  { cause := 3, sev := 1, core := x.c.coreOf, gang := x.k, lanes := LaneMask.one l, pc := x.e.pc, addr := 0, region := x.g.regioncnt
    scnt := (x.g.lane l).scnt, det0 := (x.g.lane l).tcause.toNat, det1 := 0 }

theorem lowest_one {l : Nat} (h : l < 32) : lowest (LaneMask.one l) = l := by
  have mem := lowest_mem (one_ne_zero h)
  rw [LaneMask.mem_lanes, getLsbD_one] at mem
  simp only [Bool.and_eq_true, decide_eq_true_eq] at mem
  exact mem.2

/-- A record of cause 3 is never joined with another. -/
theorem addRecord_depth (r : Record) (rs : List Record) (h : r.cause = 3) : addRecord r rs = rs ++ [r] := by
  induction rs with
  | nil => rfl
  | cons x xs ih => simp only [addRecord, h, ne_eq, not_true_eq_false, and_false, if_false, ih, List.cons_append]

theorem foldl_addRecord_depth (rs acc : List Record) (h : ∀ r ∈ rs, r.cause = 3) :
    rs.foldl (fun rs r => addRecord r rs) acc = acc ++ rs := by
  induction rs generalizing acc with
  | nil => simp
  | cons r rs ih =>
    rw [List.foldl_cons, addRecord_depth r acc (h r List.mem_cons_self), ih _ fun q hq => h q (List.mem_cons_of_mem _ hq),
      List.append_assoc, List.singleton_append]

/-- Traps that hold their lanes leave the gang but for these lanes' run states and PCs. -/
theorem foldl_trapLane_hold (ls : List Nat) (trap : Nat → Trap) (fin : Nat → TrapEnd) (prio : Nat) (g : Gang)
    (own : ∀ l, (trap l).lane = l) (hold : ∀ l ∈ ls, ∃ c a b, fin l = .hold c a b) :
    ∃ lanes, (ls.map fun l => (trap l, fin l)).foldl (fun g e => trapLane g e.1 prio e.2) g = { g with lanes := lanes } ∧
      lanes.length = g.lanes.length ∧ ∀ j, j < g.lanes.length → lanes.getD j Lane.blank =
        if j ∈ ls then { g.lane j with run := .held, pc := (trap j).pc } else g.lane j := by
  induction ls generalizing g with
  | nil => exact ⟨g.lanes, rfl, rfl, fun _ _ => rfl⟩
  | cons a as ih =>
    obtain ⟨c, d0, d1, held⟩ := hold a List.mem_cons_self
    let g1 := g.mapLane a fun l => { l with run := .held, pc := (trap a).pc }
    have first : trapLane g (trap a) prio (fin a) = g1 := by rw [held, trapLane, own]
    have len : g1.lanes.length = g.lanes.length := Gang.mapLane_lanes_length _ _ _
    obtain ⟨lanes, run, hlen, lane⟩ := ih g1 fun l hl => hold l (List.mem_cons_of_mem _ hl)
    refine ⟨lanes, ?_, hlen.trans len, fun j hj => ?_⟩
    · rw [List.map_cons, List.foldl_cons, first, run]
      rfl
    · rw [lane j (by rw [len]; exact hj), show g1.lane j = _ from Gang.mapLane_lane g a j _]
      by_cases same : j = a
      · subst same
        simp [hj]
      · simp [same]

theorem trapRecords_depth (c : Crew) (k : Nat) (ls : List Nat) (trap : Nat → Trap) (fin : Nat → TrapEnd) (rec : Nat → Record)
    (each : ∀ l ∈ ls, trapRecord c k (trap l) (fin l) = [rec l]) (depth : ∀ l, (rec l).cause = 3) :
    trapRecords c k (ls.map fun l => (trap l, fin l)) = ls.map rec := by
  have flat : (ls.map fun l => (trap l, fin l)).flatMap (fun e => trapRecord c k e.1 e.2) = ls.map rec := by
    rw [List.flatMap_map]
    induction ls with
    | nil => rfl
    | cons a as ih =>
      rw [List.flatMap_cons, each a List.mem_cons_self, ih fun l hl => each l (List.mem_cons_of_mem _ hl)]
      rfl
  rw [trapRecords, flat, foldl_addRecord_depth _ _ fun r hr => ?_, List.nil_append]
  obtain ⟨l, _, rfl⟩ := List.mem_map.mp hr
  exact depth l

/-! Records of a producer that all find room. -/

theorem OnlyWrites.tick {s t : State} (h : OnlyWrites s t) : t.tick = s.tick := by
  obtain ⟨_, _, _, _, _, _, _, _, _, _, _, rfl⟩ := h; rfl

theorem giveRecords_room {s : State} {r : Ring} {recs : List Record} (crew : Nat) (gang : Option Nat) (fate : Fate) (done : State → State)
    (room : ringRoom s r recs.length = true) : giveRecords s r crew gang fate recs done = done (writeRecords s r recs) := by
  have fits : recs.length ≤ (ringSpace s r).getD recs.length := by
    unfold ringRoom at room
    cases sp : ringSpace s r with
    | none => exact Nat.le_refl _
    | some m => rw [sp] at room; exact of_decide_eq_true room
  simp only [giveRecords, if_pos fits, List.take_of_length_le fits]

/-- Records are written one after another, each with the time at which the first was. -/
theorem writeRecords_eq_foldl (s : State) (r : Ring) (ls : List Nat) (rec : Nat → Record) :
    writeRecords s r (ls.map rec) = ls.foldl (fun u l => putRecord u r (recordBytes r s.tick (rec l))) s := by
  have gen : ∀ u : State, u.tick = s.tick → writeRecords u r (ls.map rec) =
      ls.foldl (fun u l => putRecord u r (recordBytes r s.tick (rec l))) u := by
    induction ls with
    | nil => exact fun _ _ => rfl
    | cons a as ih =>
      intro u hu
      have next := ih (putRecord u r (recordBytes r s.tick (rec a))) ((putRecord_writes u r _).tick.trans hu)
      simp only [writeRecords, List.map_cons, List.foldl_cons, writeRecord, hu] at next ⊢
      exact next
  exact gen s rfl

theorem foldl_putRecord_setCrew (s : State) (c : Crew) (r : Ring) (ls : List Nat) (bytes : Nat → List Byte) :
    ls.foldl (fun u l => putRecord u r (bytes l)) (s.setCrew c) = (ls.foldl (fun u l => putRecord u r (bytes l)) s).setCrew c := by
  induction ls generalizing s with
  | nil => rfl
  | cons a as ih => simp only [List.foldl_cons, putRecord_setCrew, ih]

theorem foldl_putRecord_writes (s : State) (r : Ring) (ls : List Nat) (bytes : Nat → List Byte) :
    OnlyWrites s (ls.foldl (fun u l => putRecord u r (bytes l)) s) :=
  foldl_writes _ (fun _ _ => putRecord_writes _ _ _) s ls

theorem ringRoom_mono {s : State} {r : Ring} {m n : Nat} (le : m ≤ n) (room : ringRoom s r n = true) : ringRoom s r m = true := by
  unfold ringRoom at room ⊢
  cases sp : ringSpace s r with
  | none => rfl
  | some k => rw [sp] at room; exact decide_eq_true (Nat.le_trans le (of_decide_eq_true room))

theorem trapEnd_depth {s : State} {c : Crew} {l : Lane} (t : Trap) (deep : 3 ≤ l.depth) : trapEnd s c l t = .hold 3 l.tcause.toNat 0 :=
  if_pos deep

/-- Traps whose records all find room are taken, and their records written. -/
theorem takeTraps_room {s : State} {c : Crew} {k prio : Nat} {ts : List Trap} {ends : List (Trap × TrapEnd)} {m : LaneMask} {g : Gang}
    {recs : List Record} (each : (ts.map fun t => (t, trapEnd s c ((c.gang k).lane t.lane) t)) = ends) (mask : trapMask ts = m)
    (told : trapRecords c k ends = recs)
    (gang : ends.foldl (fun g e => trapLane g e.1 prio e.2)
      { c.gang k with frontier := dropLanes m (c.gang k).frontier, chosen := false, paired := false } = g)
    (room : ringRoom s (c.ring s) recs.length = true) :
    takeTraps s c k prio ts = some (writeRecords (s.setCrew (c.setGang k g)) (c.ring s) recs) := by
  have first : (recs.isEmpty || ringRoom s (c.ring s) 1) = true := by
    cases recs with
    | nil => rfl
    | cons a as => rw [ringRoom_mono (m := 1) (by simp) room, Bool.or_true]
  have mask' : LaneMask.ofList (ts.map (·.lane)) = m := mask
  simp only [takeTraps, each, told, mask', gang, first, if_true]
  rw [giveRecords_room _ _ _ _ (by rw [ringRoom_setCrew]; exact room)]
  rfl

theorem finishSwitch_taken {s0 s t : State} {x : Issue} {c : Crew} {groups : List Entry} {ts : List Trap}
    (taken : takeTraps (s.setCrew (c.mapGang x.k fun g => regroup g groups)) (c.mapGang x.k fun g => regroup g groups) x.k x.e.prio ts = some t) :
    finishSwitch s0 s x c groups ts = { t with draws := t.draws + 1 } := by
  simp only [finishSwitch, taken]

/-- Records written with a gang put in place twice: the records, and then the gang that was put last. -/
theorem writeRecords_setGang (s : State) (c : Crew) (k : Nat) (f : Gang → Gang) (g : Gang) (r : Ring) (ls : List Nat) (rec : Nat → Record) :
    writeRecords ((s.setCrew (c.mapGang k f)).setCrew ((c.mapGang k f).setGang k g)) r (ls.map rec) =
      (ls.foldl (fun u l => putRecord u r (recordBytes r s.tick (rec l))) s).setCrew (c.setGang k g) := by
  have put : (c.mapGang k f).setGang k g = c.setGang k g := by simp only [Crew.setGang, Crew.mapGang_mapGang]
  rw [put, State.setCrew_setCrew _ _ _ (by rfl), writeRecords_eq_foldl, foldl_putRecord_setCrew]
  rfl

/-- The end of a switch point all of whose executing lanes trap at depth 3. -/
theorem allTrap_depth {s : State} {x : Issue} {h : Hdr} (hi : issuing s = some x) (trap : Nat → Trap)
    (own : ∀ l, (trap l).lane = l ∧ (trap l).pc = x.e.pc) (deep : ∀ l ∈ (x.execs h).lanes, 3 ≤ (x.g.lane l).depth)
    (room : ringRoom s (x.c.ring s) (x.execs h).lanes.length = true) :
    ∃ g, allTrap s x (x.execs h) trap =
      { ((x.execs h).lanes.foldl (fun u l => putRecord u (x.c.ring s) (recordBytes (x.c.ring s) s.tick (depthRecord x l))) s).setCrew
          (x.c.setGang x.k g) with draws := s.draws + 1 } ∧
      (∀ l, l < x.g.lanes.length → g.lane l =
        if (x.execs h).getLsbD l then { x.g.lane l with run := .held, pc := x.e.pc } else x.g.lane l) ∧
      ∀ l pc, g.at l pc ↔ ((x.others h).getLsbD l = true ∧ pc = pcNext x.e.pc) ∨
        ((x.execs h).getLsbD l = false ∧ ∃ e ∈ x.g.frontier.tail, e.mask.getLsbD l = true ∧ e.pc = pc) := by
  obtain ⟨_, hg, hk, _⟩ := issuing_spec hi
  let m := x.execs h
  let groups := [nextGroup s x (x.others h)]
  let c1 := x.c.mapGang x.k fun g => regroup g groups
  have gang1 : c1.gang x.k = regroup x.g groups := by simp only [c1, Crew.mapGang_gang, hk, and_self, if_true, hg]
  let fin := fun l => trapEnd (s.setCrew c1) c1 ((c1.gang x.k).lane l) (trap l)
  have held : ∀ l ∈ m.lanes, fin l = .hold 3 (x.g.lane l).tcause.toNat 0 := fun l hl => by
    simp only [fin, gang1]
    exact trapEnd_depth (l := x.g.lane l) _ (deep l hl)
  have recs : trapRecords c1 x.k (m.lanes.map fun l => (trap l, fin l)) = m.lanes.map (depthRecord x) := by
    refine trapRecords_depth _ _ _ _ _ _ (fun l hl => ?_) fun _ => rfl
    have bound : l < 32 := BitVec.lt_of_getLsbD ((LaneMask.mem_lanes _ _).mp hl)
    rw [held l hl]
    simp only [trapRecord, laneRecord, gang1, own l, one_ne_zero bound, lowest_one bound, if_true, if_false, Bool.true_or, decide_true,
      depthRecord]
    rfl
  obtain ⟨lanes, run, len, lane⟩ := foldl_trapLane_hold m.lanes trap fin x.e.prio
    { c1.gang x.k with frontier := dropLanes m (c1.gang x.k).frontier, chosen := false, paired := false } (fun l => (own l).1)
    fun l hl => ⟨_, _, _, held l hl⟩
  refine ⟨{ regroup x.g groups with lanes := lanes, frontier := dropLanes m (addEntries groups x.g.frontier.tail) }, ?_, ?_, ?_⟩
  · have ends : (m.lanes.map trap).map (fun t => (t, trapEnd (s.setCrew c1) c1 ((c1.gang x.k).lane t.lane) t)) =
        m.lanes.map fun l => (trap l, fin l) := by
      rw [List.map_map]
      exact List.map_congr_left fun l _ => by simp only [Function.comp, (own l).1, fin]
    have mask : LaneMask.ofList ((m.lanes.map trap).map (·.lane)) = m := trapMask_map m trap fun l _ => (own l).1
    have taken := takeTraps_room ends (trapMask_map m trap fun l _ => (own l).1) recs run
      (by rw [List.length_map, ringRoom_setCrew]; exact room)
    rw [writeRecords_setGang] at taken
    refine (finishSwitch_taken taken).trans ?_
    rw [gang1, State.setCrew_draws, (foldl_putRecord_writes _ _ _ _).draws]
    rfl
  · intro l hl
    refine (lane l (by rw [gang1]; exact hl)).trans ?_
    simp only [LaneMask.mem_lanes, (own l).2, gang1]
    rfl
  · intro l pc
    refine (dropLanes_standsAt _ _ _ _).trans ?_
    rw [addEntries_standsAt, nextGroup_standsAt]
    have apart : (x.others h).getLsbD l = true → m.getLsbD l = false := fun ho => ((getLsbD_without _ _ _).mp ho).2
    exact ⟨fun ⟨hm, at_⟩ => at_.imp id fun t => ⟨hm, t⟩, fun at_ => at_.elim (fun a => ⟨apart a.1, .inl a⟩) fun ⟨hm, t⟩ => ⟨hm, .inr t⟩⟩

/-- Settles O11: the traps of lanes at depth 3 hold them, and their records are written in the order of the lanes. -/
theorem trapAtDepthThreeHolds : Obligations.TrapAtDepthThreeHolds := by
  unfold Obligations.TrapAtDepthThreeHolds
  intro h n i mem s x ready _ deep r record told room stored
  have hi := ready.ready.issues
  have ends : ∀ cause next, (∀ s, exec i s = trapInstr s h cause next n) →
      ∃ g, exec i s = .next { told.setCrew (x.c.setGang x.k g) with draws := s.draws + 1 } ∧
        (∀ l, l < x.g.lanes.length → g.lane l =
          if (x.execs h).getLsbD l then { x.g.lane l with run := .held, pc := x.e.pc } else x.g.lane l) ∧
        ∀ l pc, g.at l pc ↔ ((x.others h).getLsbD l = true ∧ pc = pcNext x.e.pc) ∨
          ((x.execs h).getLsbD l = false ∧ ∃ e ∈ x.g.frontier.tail, e.mask.getLsbD l = true ∧ e.pc = pc) := by
    intro cause next meaning
    obtain ⟨g, ended, lane, stands⟩ := allTrap_depth hi
      (fun l => { faultAt x l cause 0 n.toNat 0 with tpc := if next then pcNext x.e.pc else x.e.pc }) (fun _ => ⟨rfl, rfl⟩) deep room
    refine ⟨g, ?_, lane, stands⟩
    rw [meaning, trapInstr]
    exact issueSwitch_switched _ _ ready ended (by exact stored)
  simp only [List.mem_cons, List.not_mem_nil, or_false] at mem
  rcases mem with rfl | rfl | rfl
  · exact ends 0x30 false (exec_trap h n)
  · exact ends 8 true (exec_syscall h n)
  · exact ends 9 true (exec_hcall h n)

end Sys2Proof.Machine
end

section
/-!
SUPPORT. What the settling that follows lanes' leaving keeps of them: it changes no lane but in its stream counters, and no frontier
(R175, R288).
-/

namespace Sys2Proof.Machine

/-! Gangs, crews and states that agree but for the counters of lanes. -/

/-- Two gangs agree in their frontiers and, but for the stream counters, in their lanes. -/
structure Gang.Alike (g g' : Gang) : Prop where
  frontier : g'.frontier = g.frontier
  length : g'.lanes.length = g.lanes.length
  lane : ∀ l, { g'.lane l with scnt := (g.lane l).scnt } = g.lane l

theorem Gang.Alike.refl (g : Gang) : g.Alike g := ⟨rfl, rfl, fun _ => rfl⟩

theorem Gang.Alike.trans {g g' g'' : Gang} (h : g.Alike g') (k : g'.Alike g'') : g.Alike g'' :=
  ⟨k.frontier.trans h.frontier, k.length.trans h.length, fun l => by
    have a := h.lane l
    have b := k.lane l
    rw [← b] at a
    exact a⟩

/-- A lane is in one run state, in one mode, with the same registers, predicates and frames, in gangs that agree. -/
theorem Gang.Alike.fields {g g' : Gang} (h : g.Alike g') (l : Nat) : (g'.lane l).regs = (g.lane l).regs ∧
    (g'.lane l).preds = (g.lane l).preds ∧ (g'.lane l).mode = (g.lane l).mode ∧ (g'.lane l).run = (g.lane l).run ∧
    (g'.lane l).frames = (g.lane l).frames := by
  rw [← h.lane l]
  exact ⟨rfl, rfl, rfl, rfl, rfl⟩

theorem Gang.alike_mapLanes_count (g : Gang) (m : LaneMask) (st up down : Nat) : g.Alike (g.mapLanes m fun _ x => x.count st up down) := by
  refine ⟨rfl, mapLanesFrom_length _ _ _ _, fun l => ?_⟩
  rw [Gang.mapLanes_lane]
  split <;> rfl

/-- Two crews agree in every gang. -/
def Crew.Alike (c c' : Crew) : Prop := ∀ k, (c.gang k).Alike (c'.gang k)

theorem Crew.Alike.trans {c c' c'' : Crew} (h : c.Alike c') (k : c'.Alike c'') : c.Alike c'' := fun n => (h n).trans (k n)

theorem Crew.alike_of_gangs {c c' : Crew} (h : c'.gangs = c.gangs) : c.Alike c' := fun k => by
  rw [Crew.gang, Crew.gang, h]
  exact .refl _

theorem Crew.alike_mapGang {c : Crew} {k : Nat} {f : Gang → Gang} (h : ∀ g : Gang, g.Alike (f g)) : c.Alike (c.mapGang k f) := fun j => by
  rw [Crew.mapGang_gang]
  split
  · exact h _
  · exact .refl _

/-- Changing every gang of a crew alike. -/
theorem Crew.alike_map {c : Crew} {f : Gang → Gang} (h : ∀ g : Gang, g.Alike (f g)) : c.Alike { c with gangs := c.gangs.map f } := fun k => by
  by_cases hk : k < c.gangs.length
  · have : ({ c with gangs := c.gangs.map f } : Crew).gang k = f (c.gang k) := by simp [Crew.gang, hk]
    rw [this]
    exact h _
  · have : ({ c with gangs := c.gangs.map f } : Crew).gang k = c.gang k := by simp [Crew.gang, hk]
    rw [this]
    exact .refl _

theorem Crew.alike_complete (c : Crew) (tick : Nat) (o : Op) : c.Alike (c.complete tick o) := by
  have first : c.Alike { c with ops := c.ops.filter (fun p => p.id != o.id) } := Crew.alike_of_gangs rfl
  have counts := Crew.alike_mapGang (c := { c with ops := c.ops.filter (fun p => p.id != o.id) }) (k := o.gang)
    fun g => Gang.alike_mapLanes_count g o.lanes o.stream 0 1
  exact (first.trans counts).trans (Crew.alike_map fun _ => ⟨rfl, rfl, fun _ => rfl⟩)

theorem Crew.alike_completeId (c : Crew) (tick id : Nat) : c.Alike (c.completeId tick id) := by
  unfold Crew.completeId
  split
  · exact c.alike_complete tick _
  · exact Crew.alike_of_gangs rfl

@[simp] theorem Crew.complete_uid (c : Crew) (tick : Nat) (o : Op) : (c.complete tick o).uid = c.uid := rfl

@[simp] theorem Crew.completeId_uid (c : Crew) (tick id : Nat) : (c.completeId tick id).uid = c.uid := by
  unfold Crew.completeId
  split <;> rfl

/-- Every crew of a state is there in the other, and agrees. -/
def State.Alike (s t : State) : Prop := ∀ u c, s.crew? u = some c → ∃ c', t.crew? u = some c' ∧ c.Alike c'

theorem State.Alike.trans {s t u : State} (h : s.Alike t) (k : t.Alike u) : s.Alike u := fun v c hc => by
  obtain ⟨c', hc', same⟩ := h v c hc
  obtain ⟨c'', hc'', same'⟩ := k v c' hc'
  exact ⟨c'', hc'', same.trans same'⟩

theorem State.alike_of_crews {s t : State} (h : t.crews = s.crews) : s.Alike t := fun u c hc =>
  ⟨c, by rw [State.crew?, h]; exact hc, Crew.alike_of_gangs rfl⟩

theorem State.crew?_mapCrew (s : State) (u v : Nat) (f : Crew → Crew) (hf : ∀ c, (f c).uid = c.uid) :
    (s.mapCrew u f).crew? v = if v = u then (s.crew? u).map f else s.crew? v := by
  let named := fun c => { f c with uid := u }
  have same : ∀ c, s.crew? u = some c → f c = named c := fun c hc => by
    have own : (f c).uid = u := (hf c).trans (State.crew?_uid hc)
    simp only [named, ← own]
  have put : Machine.mapCrew u f s.crews = Machine.mapCrew u named s.crews := mapCrew_congr u f named s.crews same
  have found := find_mapCrew u v named s.crews fun _ => rfl
  have maps : (s.crew? u).map named = (s.crew? u).map f := Option.map_congr fun c hc => (same c hc).symm
  rw [← put] at found
  rw [← maps]
  exact found

theorem State.alike_mapCrew {s : State} {u : Nat} {f : Crew → Crew} (hu : ∀ c, (f c).uid = c.uid) (hf : ∀ c : Crew, c.Alike (f c)) :
    s.Alike (s.mapCrew u f) := fun v c hc => by
  rw [State.crew?_mapCrew s u v f hu]
  by_cases same : v = u
  · subst same
    exact ⟨f c, by rw [if_pos rfl, hc]; rfl, hf c⟩
  · exact ⟨c, by rw [if_neg same]; exact hc, Crew.alike_of_gangs rfl⟩

theorem State.alike_foldl {α : Type} {f : State → α → State} (hf : ∀ (s : State) a, s.Alike (f s a)) (s : State) (xs : List α) :
    s.Alike (xs.foldl f s) := by
  induction xs generalizing s with
  | nil => exact State.alike_of_crews rfl
  | cons a as ih => exact (hf s a).trans (ih _)

theorem settleExit_alike (s : State) (u : Nat) : s.Alike (settleExit s u) := by
  unfold settleExit
  split
  · exact State.alike_of_crews rfl
  · split
    · exact State.alike_foldl (fun _ _ => State.alike_mapCrew (fun c => c.completeId_uid _ _) fun c => c.alike_completeId _ _) _ _
    · exact State.alike_of_crews rfl

theorem settleCrew_alike (s : State) (u : Nat) : s.Alike (settleCrew s u) := by
  have gangs : s.Alike (s.mapCrew u settleGangs) := State.alike_mapCrew (fun _ => rfl) fun _ => Crew.alike_of_gangs rfl
  unfold settleCrew
  dsimp only
  split
  · exact gangs
  · refine gangs.trans (State.alike_foldl (fun t key => ?_) _ _)
    split
    · exact State.alike_of_crews rfl
    · split
      · exact State.alike_of_crews rfl
      · exact State.alike_of_crews (State.setEndpoint_crews _ _)

/-- What follows lanes' leaving keeps every crew, and each of its lanes but for the counters. -/
theorem settle_alike (s : State) (u : Nat) : s.Alike (settle s u) := (settleExit_alike s u).trans (settleCrew_alike _ u)

end Sys2Proof.Machine
end

section
/-!
SUPPORT. Lanes that exit, regions and yields (R103, R160 to R162, R165).
-/

namespace Sys2Proof.Machine

/-- What an exit leaves, before what follows lanes' leaving. -/
def exited (s : State) (x : Issue) (h : Hdr) (c : Crew) : State :=
  settle (switched s x (c.mapGang x.k fun g => exitLanes g (x.execs h)) [nextGroup s x (x.others h)]) x.c.uid

theorem exited_settles (s : State) (x : Issue) (h : Hdr) (c : Crew) :
    OnlySettles (switched s x (c.mapGang x.k fun g => exitLanes g (x.execs h)) [nextGroup s x (x.others h)]) (exited s x h c) :=
  settle_settles _ _

theorem exited_bad (s : State) (x : Issue) (h : Hdr) (c : Crew) : (exited s x h c).bad = s.bad := (exited_settles s x h c).bad

theorem exec_exit_leaves {s : State} {x : Issue} {h : Hdr} (ready : ReadySwitch s x h [] []) :
    exec (.exit h) s = .next (exited s x h x.c) := by
  rw [exec_exit, execExit]
  refine issueSwitch_switched _ _ ready ?_ ((exited_bad s x h x.c).trans ready.ready.stored)
  rw [finishSwitch_nil]
  rfl

theorem exitLanes_lane (g : Gang) (m : LaneMask) (l : Nat) : (exitLanes g m).lane l =
    if l < g.lanes.length ∧ m.getLsbD l = true then { g.lane l with run := .exited, frames := [] } else g.lane l :=
  Gang.mapLanes_lane g m _ l

/-- A gang after a switch point and what settling does: as it joined, but for the counters of its lanes. -/
theorem now_alike {s t : State} {x : Issue} {c : Crew} {groups : List Entry} (hi : issuing s = some x) (hu : c.uid = x.c.uid)
    (hk : x.k < c.gangs.length) (same : (switched s x c groups).Alike t) : (joined groups (c.gang x.k)).Alike (x.now t) := by
  obtain ⟨c', hc', gangs⟩ := same _ _ (switched_crew hi c hu groups)
  have gang := gangs x.k
  rw [Crew.mapGang_gang, if_pos ⟨rfl, hk⟩] at gang
  unfold Issue.now State.gang
  rw [hc']
  exact gang

/-- Putting a crew in place after a switch point of that crew. -/
theorem switched_setCrew (s : State) (x : Issue) (c d : Crew) (groups : List Entry) (h : d.uid = c.uid) :
    (switched s x c groups).setCrew d = { s.setCrew d with draws := s.draws + 1 } :=
  congrArg (fun t : State => { t with draws := s.draws + 1 }) (State.setCrew_setCrew s (c.mapGang x.k (joined groups)) d h)

theorem yieldHalt_switched {s : State} {x : Issue} (hi : issuing s = some x) :
    yieldHalt (passed s x x.c) x.c.uid x.k = if x.c.req && reconverged (x.now (passed s x x.c)) then
      passed s x (x.c.mapGang x.k fun g => { g with halted := true }) else passed s x x.c := by
  obtain ⟨_, hg, hk, _⟩ := issuing_spec hi
  let groups := [nextGroup s x x.e.mask]
  let halts := x.c.req && reconverged (joined groups x.g)
  have now : x.now (passed s x x.c) = joined groups x.g := by rw [passed, switched_now hi x.c rfl hk, hg]
  have halted : yieldHalt (passed s x x.c) x.c.uid x.k = (passed s x x.c).setCrew
      (x.c.setGang x.k (if halts then { joined groups x.g with halted := true } else joined groups x.g)) := by
    rw [yieldHalt, passed, switched_mapCrew hi x.c rfl _ _ (fun _ => by rfl)]
    refine congrArg (switched s x x.c groups).setCrew ?_
    rw [Crew.mapGang_mapGang, mapGang_setGang, ← hg]
    rfl
  have put : ∀ g : Gang, (passed s x x.c).setCrew (x.c.setGang x.k (joined groups g)) = passed s x (x.c.setGang x.k g) := fun g => by
    rw [passed, passed, switched_setGang, switched_setCrew s x x.c _ _ (by rfl)]
  rw [now, halted]
  by_cases stops : halts = true
  · rw [if_pos stops, if_pos stops, mapGang_setGang, ← hg]
    exact put { x.g with halted := true }
  · rw [if_neg stops, if_neg stops, put, setGang_self hi]

/-- Settles O14: each is a switch point that traps no lane; what follows an exit changes no lane but in its counters. -/
theorem exitsAndYieldsComplete : Obligations.ExitsAndYieldsComplete := by
  unfold Obligations.ExitsAndYieldsComplete
  refine ⟨fun h a => ⟨?exit, ?exitTo, ?exitToNone, ?region, ?yield⟩, ?leave⟩
  case exit => exact fun s x ready _ => exec_exit_leaves ready
  case exitTo =>
    refine switchesTo_of_exec (exec_exitTo h a) (fun s x _ takes => ?_) fun s x b _ => (exited_bad s x h _).trans b
    simp only [if_neg takes, finishSwitch_nil]
    rfl
  case exitToNone =>
    refine switchesTo_of_exec (exec_exitTo h a) (fun s x _ none => ?_) fun s x b _ => (exited_bad s x h _).trans b
    simp only [if_pos none, finishSwitch_nil]
    rfl
  case region =>
    refine switchesTo_of_exec (exec_region h) (fun s x _ _ => ?_) fun s x b _ => b
    rw [finishSwitch_nil]
    by_cases none : x.execs h = 0#32
    · simp only [none, if_true, BitVec.add_zero]; rfl
    · simp only [none, if_false]; rfl
  case yield =>
    intro s x ready goes calm
    have step := yieldHalt_switched ready.issues
    rw [exec_yield, execYield, issueSwitchWith, ready.issues]
    simp only [heldBack, goes, calm, ready.free, Bool.false_eq_true, if_false, finishSwitch_nil]
    refine (congrArg finish step).trans ?_
    split <;> exact finish_next ready.stored
  case leave =>
    intro h s x ready
    have hi := ready.ready.issues
    obtain ⟨_, hg, hk, _⟩ := issuing_spec hi
    have same := now_alike hi (by rfl) (by simpa using hk)
      (settle_alike (switched s x (x.c.mapGang x.k fun g => exitLanes g (x.execs h)) [nextGroup s x (x.others h)]) x.c.uid)
    rw [Crew.mapGang_gang, if_pos ⟨rfl, hk⟩, ← hg] at same
    refine ⟨_, exec_exit_leaves ready, (exited_settles s x h x.c).hbm, (exited_settles s x h x.c).host, fun l hl => ?_, fun l pc => ?_⟩
    · obtain ⟨regs, preds, mode, run, frames⟩ := same.fields l
      have lane : (joined [nextGroup s x (x.others h)] (exitLanes x.g (x.execs h))).lane l =
          if (x.execs h).getLsbD l = true then { x.g.lane l with run := .exited, frames := [] } else x.g.lane l := by
        refine (exitLanes_lane x.g (x.execs h) l).trans ?_
        simp only [hl, true_and]
      rw [lane] at regs preds mode run frames
      refine ⟨regs.trans ?_, preds.trans ?_, mode.trans ?_, run.trans ?_, frames.trans ?_⟩ <;> split <;> rfl
    · have stands := joined_at [nextGroup s x (x.others h)] (exitLanes x.g (x.execs h)) l pc
      rw [nextGroup_standsAt] at stands
      unfold Gang.at at stands ⊢
      rw [← same.frontier] at stands
      exact stands

end Sys2Proof.Machine
end

section
/-!
SUPPORT. Reads into a destination at a switch point, and writes of special registers (R104 to R108, R187, R232, R255).
-/

namespace Sys2Proof.Machine

/-- What words written to the destination in the lanes of a mask leave of a gang. -/
theorem writeOuts_words (g : Gang) (h : Hdr) (d : Opnd) (m : LaneMask) (value : Nat → List Word) :
    ∃ lanes gs, writeOuts g h (lowest m) d (m.lanes.map fun l => (l, { words := value l, preds := [], flags := 0#6 })) =
        { g with lanes := lanes, g := gs } ∧ lanes.length = g.lanes.length ∧
      (∀ l q, l < g.lanes.length →
        (lanes.getD l Lane.blank).reg q = regAfter h d (m.getLsbD l) (value l) ((g.lane l).reg q) q) ∧
      (∀ l, l < g.lanes.length → { lanes.getD l Lane.blank with regs := (g.lane l).regs } = g.lane l) ∧
      ∀ q, sget 0#32 gs q = gregAfter h d (m != 0#32) (value (lowest m)) (sget 0#32 g.g q) q := by
  obtain ⟨lanes, gs, put, len, lane, greg⟩ := writeOuts_spec g h (lowest m) d m.lanes
    (fun l => { words := value l, preds := [], flags := 0#6 }) (LaneMask.nodup_lanes _)
  refine ⟨lanes, gs, put, len, fun l q hl => ?_, fun l hl => ?_, fun q => ?_⟩
  · rw [lane l]
    by_cases takes : m.getLsbD l = true
    · rw [if_pos ⟨(LaneMask.mem_lanes _ _).mpr takes, hl⟩, laneAfter_reg, takes]
    · rw [if_neg fun k => takes ((LaneMask.mem_lanes _ _).mp k.1)]
      cases d <;> simp [regAfter, takes]
  · rw [lane l]
    split
    · exact laneAfter_status ..
    · rfl
  · rw [greg]
    by_cases none : m = 0#32
    · rw [none, if_neg (by simp [LaneMask.lanes_zero])]
      cases d <;> simp [gregAfter]
    · rw [if_pos (lowest_mem none), show (m != 0#32) = true by simpa using none]

/-- An instruction whose meaning is a switch point that writes words in its executing lanes reads these words into its destination. -/
theorem readsInto_of_exec {i : Instr} {h : Hdr} {d : Opnd} {uses : List (Opnd × Nat)} {value : State → Issue → Nat → List Word}
    (meaning : ∀ s, exec i s = issueSwitch s h uses [] fun x m => switchWrite s x h d m (value s x)) : ReadsInto i h d uses value := by
  intro s x ready
  obtain ⟨lanes, gs, put, rest⟩ := writeOuts_words x.g h d (x.execs h) (value s x)
  refine ⟨lanes, gs, ?_, rest⟩
  rw [meaning]
  refine issueSwitch_switched _ _ ready ?_ (by exact ready.ready.stored)
  simp only [switchWrite, put, finishSwitch_nil]
  rfl

/-- Settles O16: each read is a switch point that writes one value; a special register reads as its case says. -/
theorem statusReadsComplete : Obligations.StatusReadsComplete := by
  unfold Obligations.StatusReadsComplete
  refine ⟨fun h d a r chan win q => ⟨readsInto_of_exec (exec_rdsr h d r), readsInto_of_exec (exec_cpwp h chan d),
    readsInto_of_exec (exec_taskStatT h d a), readsInto_of_exec (exec_taskStatW h d win), readsInto_of_exec (exec_taskStatQ h d q)⟩, ?_⟩
  intro s x l n y cx v
  refine ⟨rfl, rfl, Nat.add_comm _ _, rfl, rfl, rfl, ?mode, rfl, rfl, rfl, rfl, ?frontier, rfl, rfl, rfl, rfl, rfl, rfl, rfl, ?none, ?top⟩
  case mode =>
    show y.frames.length * 4 + y.mode.band = _
    omega
  case frontier =>
    show x.e.prio * 2 ^ 16 + x.e.band * 2 ^ 14 + x.g.frontier.length = _
    omega
  case none =>
    intro bare
    have top : y.top = { tcause := 0#32, tpc := 0#64, taddr := 0#64, tdet0 := 0#32, tdet1 := 0#32, rewritten := false } := by
      rw [Lane.top, bare]
    have reads : v .tcause = y.top.tcause.toNat ∧ v .tpc = y.top.tpc.toNat ∧ v .taddr = y.top.taddr.toNat ∧
        v .tdet0 = y.top.tdet0.toNat ∧ v .tdet1 = y.top.tdet1.toNat := ⟨rfl, rfl, rfl, rfl, rfl⟩
    rw [top] at reads
    exact reads
  case top =>
    intro f fs frames
    have top : y.top = f := by rw [Lane.top, frames]
    rw [← top]
    exact ⟨rfl, rfl, rfl, rfl, rfl⟩

/-! Writes. -/

theorem passed_crew {s : State} {x : Issue} (hi : issuing s = some x) :
    (passed s x x.c).crew? x.c.uid = some (x.c.mapGang x.k (joined [nextGroup s x x.e.mask])) :=
  switched_crew hi x.c rfl _

/-- Setting the issuing crew after its instruction passed, by a function of that crew. -/
theorem passed_setCrew {s : State} {x : Issue} (hi : issuing s = some x) (f : Crew → Crew) (hf : ∀ c, (f c).uid = c.uid) :
    (passed s x x.c).setCrew (f (x.c.mapGang x.k (joined [nextGroup s x x.e.mask]))) = (passed s x x.c).mapCrew x.c.uid f :=
  (switched_mapCrew hi x.c rfl _ f hf).symm

theorem pcFields_eq (v : Nat) : pcFields v = BitVec.ofNat 64 (v / 64 % 2 ^ 49 * 64 + v % 8) := by
  simp [pcFields, bits]

theorem bit_zero_eq (v : Nat) : bit v 0 = (v % 2 == 1) := by
  simp [bit]

/-- A write of a special register other than `FPSTAT` writes it from the lowest-numbered executing lane, once the entry has moved on. -/
theorem exec_wrsr_uniform {h : Hdr} {r : SReg} {a : Opnd} {s : State} {x : Issue} (ready : ReadySwitch s x h [(a, sregWords r)] [])
    (uniform : r ≠ .fpstat) : exec (.wrsr h r a) s = finish (if x.execs h = 0#32 then passed s x x.c
      else writeSreg (passed s x x.c) (x.c.mapGang x.k (joined [nextGroup s x x.e.mask])) r
        (readWide x.g s.draws (lowest (x.execs h)) a (sregWords r))) := by
  rw [exec_wrsr, execWrsr, issueSwitch_ready _ ready]
  have crew := passed_crew ready.ready.issues
  unfold passed at crew ⊢
  cases r with
  | fpstat => exact absurd rfl uniform
  | _ => simp only [finishSwitch_nil, crew]

theorem writeSreg_cmpl {s : State} {x : Issue} (hi : issuing s = some x) (v : Nat) :
    writeSreg (passed s x x.c) (x.c.mapGang x.k (joined [nextGroup s x x.e.mask])) .cmpl v =
      ((passed s x x.c).mapCrew x.c.uid fun c => { c with lvl := v % 2 == 1 }).mapCtx (s.launchOf x.c).vf (s.launchOf x.c).ctx
        fun c => { c with cmpl := BitVec.ofNat 1 v } := by
  rw [← passed_setCrew hi (fun c => { c with lvl := v % 2 == 1 }) fun _ => rfl, ← bit_zero_eq]
  rfl

theorem writeSreg_deadline {s : State} {x : Issue} (hi : issuing s = some x) (v : Nat) :
    writeSreg (passed s x x.c) (x.c.mapGang x.k (joined [nextGroup s x x.e.mask])) .deadline v =
      (passed s x x.c).mapCrew x.c.uid fun c => { c with deadline := BitVec.ofNat 32 v } := by
  rw [← passed_setCrew hi (fun c => { c with deadline := BitVec.ofNat 32 v }) fun _ => rfl]
  rfl

theorem writeSreg_preempt {s : State} {x : Issue} (v : Nat) :
    writeSreg (passed s x x.c) (x.c.mapGang x.k (joined [nextGroup s x x.e.mask])) .preempt v =
      if v % 2 = 1 then requestPreempt (passed s x x.c) x.c.uid none else passed s x x.c := by
  simp only [writeSreg, bit_zero_eq, beq_iff_eq]
  rfl

/-- Settles O18: after its entry has moved on, the issuing crew's register takes the value as its kind says. -/
theorem specialRegistersWritten : Obligations.SpecialRegistersWritten := by
  unfold Obligations.SpecialRegistersWritten
  intro h r a s x ready stored
  have hi := ready.ready.issues
  have quiet : (passed s x x.c).bad = none := ready.ready.stored
  have ofCtx := fun (t : State) (same : t.bad = none) f => finish_next
    ((State.mapCtx_bad t (s.launchOf x.c).vf (s.launchOf x.c).ctx f).trans same)
  by_cases fp : r = .fpstat
  · subst fp
    rw [exec_wrsr, execWrsr, issueSwitch_ready _ ready]
    simp only [finishSwitch_nil, if_true]
    exact finish_next quiet
  · rw [exec_wrsr_uniform ready fp]
    simp only [if_neg fp]
    by_cases none : x.execs h = 0#32
    · simp only [if_pos none]
      exact finish_next quiet
    · simp only [if_neg none]
      generalize readWide x.g s.draws (lowest (x.execs h)) a (sregWords r) = v
      cases r with
      | cmpl =>
        rw [writeSreg_cmpl hi]
        exact ofCtx _ (by exact quiet) _
      | svec =>
        simp only [← pcFields_eq]
        exact ofCtx _ quiet _
      | hvec =>
        simp only [← pcFields_eq]
        exact ofCtx _ quiet _
      | trapring => exact ofCtx _ quiet _
      | hintdrop => exact ofCtx _ quiet _
      | quantum => exact ofCtx _ quiet _
      | deadline =>
        rw [writeSreg_deadline hi]
        exact finish_next quiet
      | preempt =>
        rw [writeSreg_preempt]
        split
        · exact finish_next (stored rfl)
        · exact finish_next quiet
      | fpstat => exact absurd rfl fp
      | _ => exact finish_next quiet

end Sys2Proof.Machine
end

section
/-!
SUPPORT. Breaks and halts (R164, R191, R215, R379).
-/

namespace Sys2Proof.Machine

/-! What the end of a crew leaves. -/

theorem ringLost_writes (s : State) (r : Ring) (n : Nat) : OnlyWrites s (ringLost s r n) := by
  unfold ringLost
  dsimp only
  split
  · exact .refl s
  · split
    · exact deviceWrite_getD_writes _ _ _ _
    · exact .refl s

/-- A crew that ends: nothing of it issues again (R215). -/
structure Crew.Ended (c : Crew) : Prop where
  ends : c.terminating = true
  noEntry : ∀ k, (c.gang k).frontier = []

/-- A launch once one of its crews has halted (R379). -/
def Launch.afterHalt (l : Launch) (now : Nat) (c : Crew) (st : Nat) : Launch :=
  { l with retired := l.retired + 1, halted := l.halted + 1
           haltFirst := if haltsFirst l now c.coreOf then some (st, crewidWord c) else l.haltFirst
           haltAt := if haltsFirst l now c.coreOf then (now, c.coreOf) else l.haltAt }

theorem settleEnd_launches (s : State) (u : Nat) : (settleEnd s u).launches = s.launches := by
  unfold settleEnd
  split
  · split <;> rfl
  · rfl

/-- Once everything that an ended crew started has ended it is gone; until then it stays ended. -/
theorem settleEnd_crew {s : State} {u : Nat} {P : Crew → Prop} (h : ∀ c, s.crew? u = some c → P c) :
    ∀ c, (settleEnd s u).crew? u = some c → P c := by
  intro c hc
  unfold settleEnd at hc
  split at hc
  · split at hc
    · have gone : (dropCrew s u).crew? u = none := by simp [dropCrew, State.crew?, List.find?_eq_none]
      rw [gone] at hc
      cases hc
    · exact h c hc
  · exact h c hc

/-- A halt of a crew that is not ending yet ends it, and counts in its launch. -/
theorem terminate_halt {s : State} {u : Nat} {c : Crew} {st : Nat} (hc : s.crew? u = some c) (goes : c.terminating = false) :
    (∀ d, (terminate s u (some st)).crew? u = some d → d.Ended) ∧
      (terminate s u (some st)).launches = s.launches.map fun l => if l.id = c.launch then l.afterHalt s.now c st else l := by
  have own : c.uid = u := State.crew?_uid hc
  unfold terminate
  simp only [hc, goes, Bool.false_eq_true, if_false]
  constructor
  · refine settleEnd_crew fun d hd => ?_
    rw [State.crew?, State.mapLaunch_crews, ← State.crew?, State.crew?_setCrew, if_pos own.symm] at hd
    obtain ⟨_, _, rfl⟩ := Option.map_eq_some_iff.mp hd
    refine ⟨rfl, fun k => ?_⟩
    simp only [Crew.gang, List.getD_eq_getElem?_getD, List.getElem?_map]
    cases c.gangs[k]? <;> rfl
  · rw [settleEnd_launches]
    simp only [State.mapLaunch, State.setCrew_launches, (ringLost_writes _ _ _).launches]
    rfl

theorem finish_eq_next {s t : State} (h : finish s = .next t) : t = s := by
  unfold finish at h
  split at h
  · exact (Host.Outcome.next.inj h).symm
  · cases h

/-- Finding a launch after each launch of one number changed. -/
theorem find_launch_map (ls : List Launch) (id : Nat) (f : Launch → Launch) (hf : ∀ l, (f l).id = l.id) :
    (ls.map fun l => if l.id = id then f l else l).find? (fun l => l.id == id) = (ls.find? fun l => l.id == id).map f := by
  induction ls with
  | nil => rfl
  | cons l ls ih =>
    by_cases same : l.id = id
    · simp [same, hf]
    · simp only [List.map_cons, if_neg same, List.find?_cons, beq_eq_false_iff_ne.mpr same, ih]

/-- Settles O15: each is a switch point, and a halt ends the crew as it stands after its entry has moved on. -/
theorem breakAndHaltComplete : Obligations.BreakAndHaltComplete := by
  unfold Obligations.BreakAndHaltComplete
  refine ⟨fun h n st => ⟨?brkNone, ?brk, ?haltNone, ?halt⟩, ?ended⟩
  case brkNone =>
    refine switchesTo_of_exec (exec_brk h n) (fun s x _ none => ?_) fun s x b _ => b
    rw [if_pos none, finishSwitch_nil]
    rfl
  case brk =>
    refine switchesTo_of_exec (exec_brk h n) (fun s x ready ⟨takes, room, _⟩ => ?_) fun s x _ ⟨_, _, stored⟩ => stored
    have gang := (issuing_spec ready.ready.issues).2.1
    simp only [if_neg takes, room, if_true, finishSwitch_nil, laneRecord, ← gang]
    rfl
  case haltNone =>
    refine switchesTo_of_exec (exec_halt h st) (fun s x _ none => ?_) fun s x b _ => b
    simp only [if_pos none, finishSwitch_nil]
    rfl
  case halt =>
    refine switchesTo_of_exec (exec_halt h st) (fun s x _ ⟨takes, _⟩ => ?_) fun s x _ ⟨_, stored⟩ => stored
    simp only [if_neg takes, finishSwitch_nil]
    rfl
  case ended =>
    intro h st s t x ready takes goes run
    have hi := ready.ready.issues
    rw [exec_halt, execHalt, issueSwitch_ready _ ready] at run
    simp only [if_neg takes, finishSwitch_nil] at run
    obtain ⟨crews, launches⟩ := terminate_halt (st := st.toNat) (passed_crew hi) goes
    rw [finish_eq_next run]
    refine ⟨fun c hc => ⟨(crews c hc).ends, (crews c hc).noEntry⟩, fun l hl => ⟨l.afterHalt s.now x.c st.toNat, ?_, rfl, rfl, ?_⟩⟩
    · rw [State.launch?]
      refine (congrArg (List.find? _) launches).trans ((find_launch_map s.launches x.c.launch
        (fun l => l.afterHalt s.now (x.c.mapGang x.k (joined [nextGroup s x x.e.mask])) st.toNat) fun _ => rfl).trans ?_)
      exact (congrArg (Option.map _) hl).trans rfl
    · have first : haltsFirst l s.now x.c.coreOf = true ↔ l.haltFirst = none ∨ l.haltAt.1 = s.now ∧ x.c.coreOf < l.haltAt.2 := by
        simp [haltsFirst]
      simp only [Launch.afterHalt, first, crewidWord, Nat.add_comm]

end Sys2Proof.Machine
end

section
/-!
SUPPORT. The instructions by which a handler changes sibling lanes (R101 to R103, R189, R190), and readiness for an instruction that
uses less.
-/

namespace Sys2Proof.Machine

/-! Readiness with more uses is readiness with fewer. -/

/-- Every register group and predicate of an instruction is among those of another. -/
structure UsesLess (uses uses' : List (Opnd × Nat)) (preds preds' : List PredOpt) : Prop where
  regs : ∀ u ∈ uses, ∃ v ∈ uses', u.1 = v.1 ∧ u.2 ≤ v.2
  preds : ∀ p ∈ preds, p ∈ preds'

theorem regsMeet_mono {a b : Opnd} {n n' m : Nat} (le : n ≤ n') (meet : regsMeet a n b m = true) : regsMeet a n' b m = true := by
  cases a with
  | v x => cases b with
    | v y => simp only [regsMeet, Bool.and_eq_true, decide_eq_true_eq] at meet ⊢; omega
    | _ => simp [regsMeet] at meet
  | g x => cases b with
    | g y => simp only [regsMeet, Bool.and_eq_true, decide_eq_true_eq] at meet ⊢; omega
    | _ => simp [regsMeet] at meet
  | _ => simp [regsMeet] at meet

theorem scoreboard_mono {c : Crew} {k : Nat} {e : Entry} {h : Hdr} {uses uses' : List (Opnd × Nat)} {preds preds' : List PredOpt}
    (less : UsesLess uses uses' preds preds') (free : scoreboard c k e h uses' preds' = false) : scoreboard c k e h uses preds = false := by
  simp only [scoreboard, List.any_eq_false, awaits, Bool.not_eq_true, Bool.and_eq_false_imp, Bool.or_eq_false_iff] at free ⊢
  intro o ho here
  obtain ⟨regs, ps⟩ := free o ho here
  refine ⟨fun u hu => ?_, fun meets => ?_⟩
  · obtain ⟨v, hv, same, le⟩ := less.regs u hu
    intro meets
    have clear := regs v hv
    rw [← same] at clear
    refine Classical.byContradiction fun hit => ?_
    exact Bool.false_ne_true ((clear meets).symm.trans (regsMeet_mono le (by simpa using hit)))
  · have clear := ps meets
    cases dst : o.kind.predDst with
    | none => rfl
    | some p =>
      rw [dst] at clear
      simp only [List.any_append, Bool.or_eq_false_iff, List.any_eq_false] at clear ⊢
      refine ⟨clear.1, fun q hq => clear.2 q ?_⟩
      obtain ⟨r, hr, hqr⟩ := List.mem_flatMap.mp hq
      exact List.mem_flatMap.mpr ⟨r, less.preds r hr, hqr⟩

theorem ReadySwitch.mono {s : State} {x : Issue} {h : Hdr} {uses uses' : List (Opnd × Nat)} {preds preds' : List PredOpt}
    (ready : ReadySwitch s x h uses' preds') (less : UsesLess uses uses' preds preds') : ReadySwitch s x h uses preds :=
  ⟨⟨ready.ready.issues, scoreboard_mono less ready.ready.free, ready.ready.stored⟩, ready.runs, ready.goes⟩

/-! What the change of one target leaves of the other lanes. -/

theorem lanepcOn_lane {s : State} {vf ctx : Nat} (g : Gang) {t l : Nat} (pc : Pc) (other : l ≠ t) :
    (lanepcOn s vf ctx g t pc).lane l = g.lane l := by
  unfold lanepcOn
  dsimp only
  split
  · rw [Gang.mapLane_lane, if_neg fun k => other k.1]
  · split
    · rfl
    · rw [Gang.mapLane_lane, if_neg fun k => other k.1]
      rfl

theorem exitLanes_one_lane (g : Gang) {t l : Nat} (other : l ≠ t) : (exitLanes g (LaneMask.one t)).lane l = g.lane l := by
  rw [exitLanes_lane, if_neg]
  rw [getLsbD_one]
  simp [other]

theorem lanestOn_lane {s : State} {vf ctx : Nat} (act : LaneAct) (g : Gang) {t l : Nat} (other : l ≠ t) :
    (lanestOn s vf ctx act g t).lane l = g.lane l := by
  unfold lanestOn
  dsimp only
  split
  · exact (Gang.mapLane_lane g t l _).trans (if_neg fun k => other k.1)
  · exact (Gang.mapLane_lane g t l _).trans (if_neg fun k => other k.1)
  · exact exitLanes_one_lane g other
  · exact exitLanes_one_lane g other
  · rfl

theorem foldl_targets_lane {f : Gang → Nat × Nat → Gang} {l : Nat} (hf : ∀ (g : Gang) (p : Nat × Nat), l ≠ p.2 → (f g p).lane l = g.lane l)
    (ps : List (Nat × Nat))
    (g : Gang) (others : ∀ p ∈ ps, l ≠ p.2) : (ps.foldl f g).lane l = g.lane l := by
  induction ps generalizing g with
  | nil => rfl
  | cons p ps ih =>
    rw [List.foldl_cons, ih _ fun q hq => others q (List.mem_cons_of_mem _ hq), hf g p (others p List.mem_cons_self)]

/-- A target is a lane that its actor, an executing lane, names, that does not rank above it, and that has not exited. -/
theorem mem_targets {g : Gang} {draw : Nat} {m : LaneMask} {a : Opnd} {p : Nat × Nat} (hp : p ∈ targets g draw m a) :
    p.1 ∈ m.lanes ∧ readWide g draw p.1 a 1 = p.2 ∧ (g.lane p.2).mode.band ≤ (g.lane p.1).mode.band ∧ (g.lane p.2).run ≠ .exited := by
  unfold targets at hp
  obtain ⟨mem, rank⟩ := List.mem_filter.mp hp
  obtain ⟨t, _, named⟩ := List.mem_filterMap.mp mem
  obtain ⟨q, found, rfl⟩ := Option.map_eq_some_iff.mp named
  obtain ⟨j, hj, rfl⟩ := List.mem_map.mp (List.mem_of_find?_eq_some found)
  simp only [Bool.and_eq_true, decide_eq_true_eq, bne_iff_ne] at rank
  exact ⟨hj, by simpa using List.find?_some found, rank⟩

/-- The lanes that no executing lane names or outranks, and those that have exited, are no target. -/
theorem not_target {x : Issue} {s : State} {h : Hdr} {a : Opnd} {l : Nat}
    (spared : (∀ j ∈ (x.execs h).lanes, readWide x.g s.draws j a 1 ≠ l ∨ (x.g.lane j).mode.band < (x.g.lane l).mode.band) ∨
      (x.g.lane l).run = .exited) : ∀ p ∈ targets x.g s.draws (x.execs h) a, l ≠ p.2 := by
  rintro p hp rfl
  obtain ⟨acts, names, rank, stays⟩ := mem_targets hp
  rcases spared with none | gone
  · rcases none p.1 acts with other | above
    · exact other names
    · exact absurd rank (Nat.not_le.mpr above)
  · exact stays gone

/-- The gang after each target in turn has been changed. -/
def Issue.changed (x : Issue) (s : State) (h : Hdr) (a : Opnd) (f : Gang → Nat × Nat → Gang) : Gang :=
  (targets x.g s.draws (x.execs h) a).foldl f (regroup x.g [nextGroup s x x.e.mask])

/-- The state after a switch point that changes targets. -/
def changedLanes (s : State) (x : Issue) (h : Hdr) (a : Opnd) (f : Gang → Nat × Nat → Gang) : State :=
  { s.setCrew (x.c.setGang x.k (x.changed s h a f)) with draws := s.draws + 1 }

theorem exec_lanepc_changed {s : State} {x : Issue} {h : Hdr} {a b : Opnd} (ready : ReadySwitch s x h [(a, 1), (b, 2)] []) :
    exec (.lanepc h a b) s = .next (changedLanes s x h a fun g p =>
      lanepcOn s (s.launchOf x.c).vf (s.launchOf x.c).ctx g p.2 (BitVec.ofNat 64 (readWide x.g s.draws p.1 b 2))) := by
  rw [exec_lanepc, execLanepc]
  exact issueSwitch_switched _ _ ready (by rfl) ready.ready.stored

theorem lanestInstr_changed {s : State} {x : Issue} {h : Hdr} {a : Opnd} {act : LaneAct} (ready : ReadySwitch s x h [(a, 1)] []) :
    lanestInstr s h act a = .next (settle (changedLanes s x h a fun g p =>
      lanestOn s (s.launchOf x.c).vf (s.launchOf x.c).ctx act g p.2) x.c.uid) :=
  issueSwitch_switched _ _ ready (by rfl) ((settle_settles _ _).bad.trans ready.ready.stored)

theorem changed_lane {x : Issue} {s : State} {h : Hdr} {a : Opnd} {f : Gang → Nat × Nat → Gang} {l : Nat}
    (hf : ∀ (g : Gang) (p : Nat × Nat), l ≠ p.2 → (f g p).lane l = g.lane l)
    (others : ∀ p ∈ targets x.g s.draws (x.execs h) a, l ≠ p.2) : (x.changed s h a f).lane l = x.g.lane l :=
  foldl_targets_lane hf _ _ others

theorem changedLanes_now {s : State} {x : Issue} (hi : issuing s = some x) (h : Hdr) (a : Opnd) (f : Gang → Nat × Nat → Gang) :
    x.now (changedLanes s x h a f) = x.changed s h a f := now_setGang hi _

/-- What `lanest` leaves of the lanes that are no target. -/
theorem lanestInstr_keeps {s : State} {x : Issue} {h : Hdr} {a : Opnd} {act : LaneAct} (ready : ReadySwitch s x h [(a, 1)] []) :
    ∃ t, lanestInstr s h act a = .next t ∧ t.hbm = s.hbm ∧ t.host = s.host ∧ ∀ l,
      (∀ p ∈ targets x.g s.draws (x.execs h) a, l ≠ p.2) → { (x.now t).lane l with scnt := (x.g.lane l).scnt } = x.g.lane l := by
  have hi := ready.ready.issues
  refine ⟨_, lanestInstr_changed ready, (settle_settles _ _).hbm, (settle_settles _ _).host, fun l others => ?_⟩
  let f := fun (g : Gang) (p : Nat × Nat) => lanestOn s (s.launchOf x.c).vf (s.launchOf x.c).ctx act g p.2
  have crew : (changedLanes s x h a f).crew? x.c.uid = some (x.c.setGang x.k (x.changed s h a f)) := by
    show (s.setCrew _).crew? _ = _
    rw [State.crew?_setCrew, if_pos (by rfl), Crew.setGang_uid, (issuing_spec hi).1]
    rfl
  obtain ⟨c', hc', same⟩ := settle_alike (changedLanes s x h a f) x.c.uid _ _ crew
  have gang : (x.c.setGang x.k (x.changed s h a f)).gang x.k = x.changed s h a f := by
    simp only [Crew.setGang, Crew.mapGang_gang, (issuing_spec hi).2.2.1, and_self, if_true]
  have alike := (same x.k).lane l
  rw [gang, changed_lane (fun g p => lanestOn_lane act g) others] at alike
  unfold Issue.now State.gang
  rw [hc']
  exact alike

/-- Settles O19: the targets are changed in turn, and none of these changes touches another lane. -/
theorem laneControlCompletes : Obligations.LaneControlCompletes := by
  unfold Obligations.LaneControlCompletes
  refine ⟨fun h a b => ⟨fun s x ready _ => exec_lanepc_changed ready, fun s x ready _ => lanestInstr_changed ready,
    fun s x ready _ => lanestInstr_changed ready, fun s x ready _ => lanestInstr_changed ready⟩, ?_⟩
  intro h a b i mem s x ready
  have hi := ready.ready.issues
  have lanest : ∀ act, (∀ s, exec i s = lanestInstr s h act a) → ∃ t, exec i s = .next t ∧ t.hbm = s.hbm ∧ t.host = s.host ∧
      ∀ l, l < x.g.lanes.length → ((∀ j ∈ (x.execs h).lanes, readWide x.g s.draws j a 1 ≠ l ∨
          (x.g.lane j).mode.band < (x.g.lane l).mode.band) ∨ (x.g.lane l).run = .exited) →
        { (x.now t).lane l with scnt := (x.g.lane l).scnt } = x.g.lane l := by
    intro act meaning
    obtain ⟨t, run, hbm, host, keeps⟩ := lanestInstr_keeps (act := act) (ready.mono (uses := [(a, 1)]) (preds := [])
      ⟨fun u hu => ⟨u, List.mem_cons.mpr (.inl (List.mem_singleton.mp hu)), rfl, Nat.le_refl _⟩, fun _ hp => hp⟩)
    exact ⟨t, (meaning s).trans run, hbm, host, fun l _ spared => keeps l (not_target spared)⟩
  simp only [List.mem_cons, List.not_mem_nil, or_false] at mem
  rcases mem with rfl | rfl | rfl | rfl
  · refine ⟨_, exec_lanepc_changed ready, rfl, rfl, fun l _ spared => ?_⟩
    rw [changedLanes_now hi, changed_lane (fun g p => lanepcOn_lane g _) (not_target spared)]
  · exact lanest .rel (exec_lanestRel h a)
  · exact lanest .hold (exec_lanestHold h a)
  · exact lanest .exit (exec_lanestExit h a)

end Sys2Proof.Machine
end

section
/-!
SUPPORT. Calls of imports (R157, R365): what writing the entry's state and a record leave of the admission queue's producer, and the
traps of a failed entry.
-/

namespace Sys2Proof.Machine

/-! Writes of bytes keep every register of the functions; the dirty log changes its own alone. -/

theorem OnlyWalks.funcs {s t : State} (h : OnlyWalks s t) : t.funcs = s.funcs := by obtain ⟨_, _, _, _, _, _, _, rfl⟩ := h; rfl

theorem sealLine_funcs (s : State) (w : WorldLine) : (sealLine s w).funcs = s.funcs := by
  unfold sealLine
  split
  · rfl
  · exact (l2Drop_walked s w.line).funcs

theorem writeByte_funcs (s : State) (v : Option (Nat × Nat)) (pa : Nat) (b : Byte) : (writeByte s v pa b).funcs = s.funcs := by
  unfold writeByte
  split
  · split
    · cases v with
      | none => rfl
      | some p => dsimp only; split <;> rfl
    · split
      · split <;> rfl
      · rename_i w _ _
        cases v with
        | none => exact sealLine_funcs s w
        | some p => exact sealLine_funcs s w
  · exact (noStorage_walked s pa).funcs

theorem writeBytes_funcs (s : State) (v : Option (Nat × Nat)) (ls : List Nat) (bs : List Byte) : (writeBytes s v ls bs).funcs = s.funcs := by
  induction ls generalizing s bs with
  | nil => rfl
  | cons l ls ih =>
    cases bs with
    | nil => rfl
    | cons b bs => exact (ih _ _).trans (writeByte_funcs _ _ _ _)

theorem writeLeaves_funcs (s : State) (w : Who) (ls : List Leaf) (bs : List Byte) : (writeLeaves s w ls bs).funcs = s.funcs := by
  induction ls generalizing s bs with
  | nil => rfl
  | cons l ls ih =>
    cases bs with
    | nil => rfl
    | cons b bs =>
      simp only [writeLeaves]
      refine (ih _ _).trans ((writeByte_funcs _ _ _ _).trans ?_)
      split
      · exact (accessL2_walked _ _ _ _ _ _ _).funcs
      · rfl

/-- The producer index of every function's admission queue is as it was. -/
def SameProd (s t : State) : Prop := ∀ v, (t.func v).admprod = (s.func v).admprod

theorem SameProd.of_funcs {s t : State} (h : t.funcs = s.funcs) : SameProd s t := fun v => by rw [State.func, State.func, h]

theorem SameProd.trans {s t u : State} (h : SameProd s t) (k : SameProd t u) : SameProd s u := fun v => (k v).trans (h v)

theorem SameProd.mapFunc (s : State) (vf : Nat) (f : Func → Func) (hf : ∀ x, (f x).admprod = x.admprod) : SameProd s (s.mapFunc vf f) := fun v => by
  rw [State.func, State.mapFunc, modifyNth_getD]
  split
  · exact hf _
  · rfl

theorem foldl_sameProd {α : Type} {f : State → α → State} (hf : ∀ s a, SameProd s (f s a)) (s : State) (xs : List α) :
    SameProd s (xs.foldl f s) := by
  induction xs generalizing s with
  | nil => exact fun _ => rfl
  | cons a as ih => exact (hf s a).trans (ih _)

theorem logDirty_sameProd (s : State) (vf gpa : Nat) : SameProd s (logDirty s vf gpa) := by
  unfold logDirty
  dsimp only
  split
  · exact fun _ => rfl
  · split
    · exact .mapFunc _ _ _ fun _ => rfl
    · exact (SameProd.of_funcs (writeBytes_funcs _ _ _ _)).trans (.mapFunc _ _ _ fun _ => rfl)

theorem deviceWrite_sameProd {s t : State} {w : Who} {va : Nat} {bs : List Byte} (h : deviceWrite s w va bs = some t) : SameProd s t := by
  unfold deviceWrite at h
  have walks := (translateN_walked s w 1 va bs.length).funcs
  generalize translateN s w 1 va bs.length = r at h walks
  rcases r with ⟨s1, ls | y⟩
  · dsimp only at h
    split at h
    · cases h
    · cases h
      exact (SameProd.of_funcs walks).trans (((foldl_sameProd (fun s _ => logDirty_sameProd s _ _) _ _).trans
        (.of_funcs (writeLeaves_funcs _ _ _ _))).trans (foldl_sameProd (f := fun s l => l1Drop s l) (fun _ _ _ => rfl) _ _))
  · cases h

theorem deviceWrite_getD_sameProd (s : State) (w : Who) (va : Nat) (bs : List Byte) : SameProd s ((deviceWrite s w va bs).getD s) := by
  cases h : deviceWrite s w va bs with
  | none => exact fun _ => rfl
  | some t => exact deviceWrite_sameProd h

theorem writeRecord_sameProd (s : State) (r : Ring) (x : Record) : SameProd s (writeRecord s r x) := by
  unfold writeRecord putRecord
  dsimp only
  split
  · exact fun _ => rfl
  · split
    · split
      · rename_i s1 e1
        exact (deviceWrite_sameProd e1).trans (deviceWrite_getD_sameProd _ _ _ _)
      · exact fun _ => rfl
    · exact fun _ => rfl

/-! A call of an import. -/

theorem laneXlat_ok_walked {s s1 : State} {w : Who} {pasid : Nat} {j : Joiner} {acc va n : Nat} {ls : List Leaf}
    (h : laneXlat s w pasid j acc va n = (s1, .ok ls)) : OnlyWalks s s1 := by
  unfold laneXlat at h
  have walks := translateN_walked s w acc va n
  generalize translateN s w acc va n = r at h walks
  rcases r with ⟨t, ls' | ⟨a, x⟩⟩
  · cases h
    exact walks
  · cases x with
    | ok => cases h
    | fault => cases h
    | miss gpa lvl =>
      dsimp only at h
      generalize (if w.pri = true then requestPage t w.vf pasid gpa (acc == 1 || acc == 2) j else none) = r at h
      cases r <;> cases h

/-- The issuing gang after it was replaced in a state with the same crews. -/
theorem now_setGang_crews {s s1 : State} {x : Issue} (hi : issuing s = some x) (crews : s1.crews = s.crews) (g : Gang) :
    x.now { s1.setCrew (x.c.setGang x.k g) with draws := s1.draws + 1 } = g := by
  have same : (s1.setCrew (x.c.setGang x.k g)).crews = (s.setCrew (x.c.setGang x.k g)).crews := by
    simp only [State.setCrew, State.mapCrew, crews]
  have put := now_setGang hi g
  unfold Issue.now State.gang State.crew? at *
  rw [← same] at put
  exact put

/-- Executing lanes that all trap after a walk, each into its handler; the entry's other lanes go on. -/
theorem allTrap_enter {s s1 : State} {x : Issue} {h : Hdr} {trap : Nat → Trap} (hi : issuing s = some x) (crews : s1.crews = s.crews)
    (own : ∀ l, (trap l).lane = l) (handled : ∀ l ∈ (x.execs h).lanes, Handled s1 x.c (x.g.lane l) (trap l).cause) :
    ∃ t, allTrap s1 x (x.execs h) trap = t ∧ t.bad = s1.bad ∧ Trapped s1 t x (x.execs h) trap (fun l => x.g.lane l)
      fun l pc => (x.others h).getLsbD l = true ∧ pc = pcNext x.e.pc := by
  obtain ⟨_, hg, hk, _⟩ := issuing_spec hi
  obtain ⟨g, ends, _, lane, stands⟩ := finishSwitch_enter (s := s1) x.c [nextGroup s1 x (x.others h)] (x.execs h) trap hk rfl rfl
    (fun l _ => own l) (by rw [← hg]; exact handled)
  have now := now_setGang_crews hi crews g
  rw [← hg] at lane stands
  refine ⟨_, ends, rfl, ⟨g, rfl⟩, fun l hl => ?_, fun l pc => ?_⟩
  · rw [now, lane]
    simp only [hl, and_true]
    rfl
  · rw [now, stands, nextGroup_standsAt]
    rfl

/-- Settles O20: the state that the entry shows picks what the call does. -/
theorem importCallsComplete : Obligations.ImportCallsComplete := by
  unfold Obligations.ImportCallsComplete
  intro h d index
  refine ⟨?none, ?calls⟩
  case none =>
    refine switchesTo_of_exec (exec_callImp h d index) (fun s x _ none => ?_) fun s x b _ => b
    rw [if_pos none, finishSwitch_nil]
    rfl
  case calls =>
    intro s s1 x n va ls ready takes entry w reads stored bs stateField target parked linked
    have run : ∀ t : State, t.bad = none → (match stateField with
        | 0 => bindStart s1 x (x.execs h) w index.toNat n va
        | 1 => park s s1 x (x.execs h)
        | 2 => transfer s1 x (x.execs h) (some d) h.nwb fun _ => some target
        | _ => allTrap s1 x (x.execs h) fun l => badTarget x l 0#64) = t → exec (.callImp h d index) s = .next t := by
      intro t quiet leaves
      rw [exec_callImp, execCallImp]
      refine issueSwitch_switched _ _ ready ?_ quiet
      have found : laneXlat s (x.c.who s (x.g.lane (lowest (x.execs h))).mode) (s.launchOf x.c).desc.pasid
          (.lane x.c.uid x.k (lowest (x.execs h))) 0 va 64 = (s1, .ok ls) := reads
      simp only [if_neg takes, entry, found]
      exact leaves
    have gang := (issuing_spec ready.ready.issues).2.1
    refine ⟨?bound, ?admits, ?unbound, ?fails⟩
    case bound =>
      intro bound legal
      refine run _ (by exact stored) ?_
      rw [bound]
      exact transfer_legal (some d) h.nwb _ fun _ _ _ same => by cases same; exact legal
    case admits =>
      intro admits
      refine run _ (by exact stored) ?_
      rw [admits]
      exact finishSwitch_nil _ _ _ _ _
    case fails =>
      intro fails handled
      obtain ⟨t, ends, quiet, trapped⟩ := allTrap_enter (h := h) (trap := fun l => badTarget x l 0#64) ready.ready.issues
        (laneXlat_ok_walked reads).crews (fun _ => rfl) handled
      refine ⟨t, run t (quiet.trans stored) ?_, trapped⟩
      rw [fails]
      exact ends
    case unbound =>
      intro unbound room s2 wrote la s3 req told
      refine run _ (by exact told) ?_
      rw [unbound]
      have producer : (s1.func la.vf).admprod = (s3.func la.vf).admprod :=
        (((deviceWrite_sameProd wrote).trans (writeRecord_sameProd _ _ _)) la.vf).symm
      simp only [bindStart, room, if_true, wrote, park, finishSwitch_nil]
      rw [show (s1.launchOf x.c) = la from rfl, producer]
      simp only [laneRecord, takes, if_false]
      rfl

end Sys2Proof.Machine
end

section
/-!
SUPPORT. Counted instructions (R175, R177, R198, R200, R312): the operations that they add, and what counting changes in a gang.
-/

namespace Sys2Proof.Machine

/-! Adding operations counts one in each lane, and changes nothing else of the gang. -/

@[simp] theorem Crew.addOp_uid (c : Crew) (k issue : Nat) (pc : Pc) (lanes : LaneMask) (cl : Clause) (scope : Nat) (kind : OpKind) :
    (c.addOp k issue pc lanes cl scope kind).uid = c.uid := rfl

theorem Crew.addOp_gangs (c : Crew) (k issue : Nat) (pc : Pc) (lanes : LaneMask) (cl : Clause) (scope : Nat) (kind : OpKind) :
    (c.addOp k issue pc lanes cl scope kind).gangs =
      (c.mapGang k fun g => g.mapLanes lanes fun _ x => x.count cl.stream.val 1 0).gangs := rfl

theorem Crew.addOps_uid (c : Crew) (k issue : Nat) (pc : Pc) (cl : Clause) (scope : Nat) (ks : List (Nat × OpKind)) :
    (c.addOps k issue pc cl scope ks).uid = c.uid := by
  induction ks generalizing c with
  | nil => rfl
  | cons x ks ih => exact ih _

theorem Crew.addOps_gangs_length (c : Crew) (k issue : Nat) (pc : Pc) (cl : Clause) (scope : Nat) (ks : List (Nat × OpKind)) :
    (c.addOps k issue pc cl scope ks).gangs.length = c.gangs.length := by
  induction ks generalizing c with
  | nil => rfl
  | cons x ks ih => exact (ih _).trans (by rw [Crew.addOp_gangs, Crew.mapGang_gangs_length])

/-- The gang after operations of its lanes were added: each of these lanes has counted its own. -/
theorem Crew.addOps_gang (c : Crew) (k issue : Nat) (pc : Pc) (cl : Clause) (scope : Nat) (ls : List Nat) (kind : Nat → OpKind)
    (hk : k < c.gangs.length) (nodup : ls.Nodup) (bound : ∀ l ∈ ls, l < 32) :
    ∃ lanes, (c.addOps k issue pc cl scope (ls.map fun l => (l, kind l))).gang k = { c.gang k with lanes := lanes } ∧
      lanes.length = (c.gang k).lanes.length ∧ ∀ j, lanes.getD j Lane.blank =
        if j ∈ ls ∧ j < (c.gang k).lanes.length then ((c.gang k).lane j).count cl.stream.val 1 0 else (c.gang k).lane j := by
  induction ls generalizing c with
  | nil => exact ⟨(c.gang k).lanes, rfl, rfl, fun j => by simp [Gang.lane]⟩
  | cons a as ih =>
    obtain ⟨fresh, rest⟩ := List.nodup_cons.mp nodup
    let c1 := c.addOp k issue pc (LaneMask.one a) cl scope (kind a)
    have gang1 : c1.gang k = (c.gang k).mapLanes (LaneMask.one a) fun _ x => x.count cl.stream.val 1 0 := by
      have moved := Crew.mapGang_gang c k k fun g => g.mapLanes (LaneMask.one a) fun _ x => x.count cl.stream.val 1 0
      rw [if_pos ⟨rfl, hk⟩] at moved
      exact moved
    have len1 : (c1.gang k).lanes.length = (c.gang k).lanes.length := by rw [gang1]; exact mapLanesFrom_length _ _ _ _
    have hk1 : k < c1.gangs.length := by rw [Crew.addOp_gangs, Crew.mapGang_gangs_length]; exact hk
    obtain ⟨lanes, put, len, lane⟩ := ih c1 hk1 rest fun l hl => bound l (List.mem_cons_of_mem _ hl)
    refine ⟨lanes, ?_, len.trans len1, fun j => ?_⟩
    · refine put.trans ?_
      rw [gang1]
      rfl
    · have own := bound a List.mem_cons_self
      rw [lane j, len1, gang1, Gang.mapLanes_lane, getLsbD_one]
      by_cases same : j = a
      · subst same
        simp [fresh, own]
      · simp [same]

/-! Completion. -/

/-- An instruction whose meaning is a counted one counts one operation in each executing lane. -/
theorem switchesTo_of_counted {i : Instr} {h : Hdr} {uses : List (Opnd × Nat)} {preds : List PredOpt} {cl : Clause} {scope : Nat}
    {f : State → Issue → Nat → OpKind} (meaning : ∀ s, exec i s = issueCounted s h uses preds cl scope f) :
    SwitchesTo i h uses preds (fun _ x => CountFree x h cl) (fun s x => passed s x (counted s x h cl scope (f s x))) := by
  intro s x ready free
  rw [meaning]
  exact issueCounted_switched scope f ready free

/-- The counter of a stream after its lane has counted one operation. -/
theorem Lane.cnt_count (y : Lane) (st n : Nat) :
    (y.count st 1 0).cnt n = y.cnt n + if n = st ∧ n < y.scnt.length then 1 else 0 := by
  simp only [Lane.cnt, Lane.count, modifyNth_getD]
  split <;> rfl

/-- The gang after a counted instruction. -/
theorem counted_now {s : State} {x : Issue} (hi : issuing s = some x) (h : Hdr) (cl : Clause) (scope : Nat) (kind : Nat → OpKind) :
    ∃ lanes, x.now (passed s x (counted s x h cl scope kind)) = joined [nextGroup s x x.e.mask] { x.g with lanes := lanes } ∧
      ∀ j, j < x.g.lanes.length → lanes.getD j Lane.blank =
        if (x.execs h).getLsbD j = true then (x.g.lane j).count cl.stream.val 1 0 else x.g.lane j := by
  obtain ⟨_, hg, hk, _⟩ := issuing_spec hi
  obtain ⟨lanes, put, _, lane⟩ := Crew.addOps_gang x.c x.k s.draws x.e.pc cl scope (x.execs h).lanes kind hk (LaneMask.nodup_lanes _)
    fun l hl => BitVec.lt_of_getLsbD ((LaneMask.mem_lanes _ _).mp hl)
  have now := switched_now hi (counted s x h cl scope kind) (Crew.addOps_uid _ _ _ _ _ _ _)
    (by rw [counted, Crew.addOps_gangs_length]; exact hk) [nextGroup s x x.e.mask]
  refine ⟨lanes, ?_, fun j hj => ?_⟩
  · rw [passed, now, counted, put, ← hg]
  · rw [lane, ← hg]
    simp only [hj, and_true, LaneMask.mem_lanes]

/-- What a counted instruction leaves of its gang and of the memories, ready with no more than a row of registers and one predicate. -/
theorem counted_keeps {i : Instr} {h : Hdr} {uses uses' : List (Opnd × Nat)} {preds preds' : List PredOpt} {cl : Clause} {scope : Nat}
    {f : State → Issue → Nat → OpKind} (meaning : ∀ s, exec i s = issueCounted s h uses preds cl scope f)
    (less : UsesLess uses uses' preds preds') {s : State} {x : Issue} (ready : ReadySwitch s x h uses' preds')
    (free : ∀ lane ∈ (x.execs h).lanes, (x.g.lane lane).cnt cl.stream.val < 63) :
    ∃ t, exec i s = .next t ∧ t.hbm = s.hbm ∧ t.host = s.host ∧ t.vaults = s.vaults ∧ (x.now t).g = x.g.g ∧
      ∀ lane, lane < x.g.lanes.length → { (x.now t).lane lane with scnt := (x.g.lane lane).scnt } = x.g.lane lane ∧
        ∀ n, ((x.now t).lane lane).cnt n = (x.g.lane lane).cnt n +
          if (x.execs h).getLsbD lane = true ∧ n = cl.stream.val ∧ n < (x.g.lane lane).scnt.length then 1 else 0 := by
  obtain ⟨lanes, now, lane⟩ := counted_now ready.ready.issues h cl scope (f s x)
  refine ⟨_, switchesTo_of_counted meaning s x (ready.mono less) free, rfl, rfl, rfl, ?_, fun j hj => ?_⟩
  · rw [now]
    rfl
  · have after : (x.now (passed s x (counted s x h cl scope (f s x)))).lane j =
        if (x.execs h).getLsbD j = true then (x.g.lane j).count cl.stream.val 1 0 else x.g.lane j := by
      rw [now]
      exact lane j hj
    rw [after]
    by_cases takes : (x.execs h).getLsbD j = true
    · simp only [takes, if_true, true_and]
      exact ⟨rfl, fun n => Lane.cnt_count _ _ _⟩
    · simp only [takes]
      exact ⟨rfl, fun _ => rfl⟩

theorem usesLess_nil (uses' : List (Opnd × Nat)) (preds' : List PredOpt) : UsesLess [] uses' [] preds' :=
  ⟨fun _ hu => (List.not_mem_nil hu).elim, fun _ hp => (List.not_mem_nil hp).elim⟩

/-- The instruction of a pair counts through a stream, the second of the pair, and uses no more than is given. -/
def CountsWithin (h : Hdr) (uses' : List (Opnd × Nat)) (preds' : List PredOpt) (q : Instr × Fin 8) : Prop :=
  ∃ uses preds cl scope f, (∀ s, exec q.1 s = issueCounted s h uses preds cl scope f) ∧ UsesLess uses uses' preds preds' ∧
    q.2 = cl.stream

theorem CountsWithin.of {i : Instr} {h : Hdr} {uses uses' : List (Opnd × Nat)} {preds preds' : List PredOpt} {cl : Clause} {scope : Nat}
    {f : State → Issue → Nat → OpKind} (less : UsesLess uses uses' preds preds')
    (meaning : ∀ s, exec i s = issueCounted s h uses preds cl scope f) : CountsWithin h uses' preds' (i, cl.stream) :=
  ⟨uses, preds, cl, scope, f, meaning, less, rfl⟩

/-- `fbar` counts one operation for all its lanes, and its gang then waits (R312). -/
theorem exec_fbar_waits {h : Hdr} {cl : Clause} {s : State} {x : Issue} (ready : ReadySwitch s x h [] []) (takes : x.execs h ≠ 0#32)
    (free : CountFree x h cl) : exec (.fbar h cl) s =
      .next (passed s x ((x.c.addOp x.k s.draws x.e.pc (x.execs h) cl 0 .fbar).mapGang x.k fun g =>
        { g with line := none, fbarPending := true })) := by
  rw [exec_fbar, execFbar]
  refine issueSwitch_switched _ _ ready ?_ (by exact ready.ready.stored)
  simp only [exhausted_false free, takes, Bool.false_eq_true, if_false, finishSwitch_nil]
  rfl

/-- Settles O21: each counts through the one meaning of a counted instruction, but `fbar`, which counts one for all its lanes. -/
theorem countedInstructionsComplete : Obligations.CountedInstructionsComplete := by
  unfold Obligations.CountedInstructionsComplete
  refine ⟨?completes, ?keeps⟩
  case completes =>
    intro h cl e l num p a m chan
    refine ⟨switchesTo_of_counted (exec_barArrive h cl l num p), switchesTo_of_counted (exec_barWait h cl l num p),
      switchesTo_of_counted (exec_barSync h cl l num), switchesTo_of_counted (exec_taskDec h a e),
      switchesTo_of_counted (exec_emit h a p e), switchesTo_of_counted (exec_cpcancel h chan e),
      switchesTo_of_counted (exec_hintL2 h a m), switchesTo_of_counted (exec_hintL1 h a m), switchesTo_of_counted (exec_hintLru h a m),
      switchesTo_of_counted (exec_cwbL2 h a m), switchesTo_of_counted (exec_cwbMem h a m), switchesTo_of_counted (exec_cinvL1 h a m),
      switchesTo_of_counted (exec_cinvL2 h a m), switchesTo_of_counted (exec_iinv h a m), ?none, ?fbar, ?pending⟩
    case none =>
      refine switchesTo_of_exec (exec_fbar h cl) (fun s x _ none => ?_) fun s x b _ => b
      simp only [none, if_true, finishSwitch_nil]
      rfl
    case fbar => exact fun s x ready ⟨takes, free⟩ => exec_fbar_waits ready takes free
    case pending =>
      intro s t x ready takes free run c hc
      have hi := ready.ready.issues
      obtain ⟨_, _, hk, _⟩ := issuing_spec hi
      obtain rfl := Host.Outcome.next.inj ((exec_fbar_waits ready takes free).symm.trans run)
      rw [passed, switched_crew hi _ (by rfl)] at hc
      obtain rfl := Option.some.inj hc
      have barred : ((((x.c.addOp x.k s.draws x.e.pc (x.execs h) cl 0 .fbar).mapGang x.k fun g =>
          { g with line := none, fbarPending := true }).mapGang x.k (joined [nextGroup s x x.e.mask])).gang x.k).fbarPending = true := by
        simp only [Crew.mapGang_gang, Crew.mapGang_gangs_length, Crew.addOp_gangs, hk, and_self, if_true]
        rfl
      simp only [mayIssue, barred, Bool.not_true, Bool.and_false, Bool.false_and]
  case keeps =>
    intro h cl e l num p a m chan i st mem s x ready free
    have maint : UsesLess ((a, 1) :: memUses m true) ((a, 16) :: memUses m true) [] [p] :=
      ⟨fun u hu => by
        rcases List.mem_cons.mp hu with rfl | rest
        · exact ⟨_, List.mem_cons_self, rfl, show 1 ≤ 16 by decide⟩
        · exact ⟨u, List.mem_cons_of_mem _ rest, rfl, Nat.le_refl _⟩, fun _ hp => (List.not_mem_nil hp).elim⟩
    have onePred : UsesLess [] ((a, 16) :: memUses m true) [p] [p] := ⟨fun _ hu => (List.not_mem_nil hu).elim, fun _ hp => hp⟩
    have row : ∀ n ≤ 16, UsesLess [(a, n)] ((a, 16) :: memUses m true) [p] [p] := fun n hn =>
      ⟨fun u hu => ⟨_, List.mem_cons_self, by rw [List.mem_singleton.mp hu], by rw [List.mem_singleton.mp hu]; exact hn⟩, fun _ hp => hp⟩
    have one : UsesLess [(a, 1)] ((a, 16) :: memUses m true) [] [p] :=
      ⟨(row 1 (by decide)).regs, fun _ hp => (List.not_mem_nil hp).elim⟩
    have each : ∀ q ∈ ([(.barArrive h cl l num p, cl.stream), (.barWait h cl l num p, cl.stream), (.barSync h cl l num, cl.stream)
        , (.taskDec h a e, e.clause.stream), (.emit h a p e, e.clause.stream), (.cpcancel h chan e, e.clause.stream)
        , (.hintL2 h a m, m.clause.stream), (.hintL1 h a m, m.clause.stream), (.hintLru h a m, m.clause.stream)
        , (.cwbL2 h a m, m.clause.stream), (.cwbMem h a m, m.clause.stream), (.cinvL1 h a m, m.clause.stream)
        , (.cinvL2 h a m, m.clause.stream), (.iinv h a m, m.clause.stream)] : List (Instr × Fin 8)),
        CountsWithin h ((a, 16) :: memUses m true) [p] q := by
      simp only [List.forall_mem_cons, List.not_mem_nil, false_imp_iff, implies_true, and_true]
      exact ⟨.of onePred (exec_barArrive h cl l num p), .of onePred (exec_barWait h cl l num p),
        .of (usesLess_nil _ _) (exec_barSync h cl l num), .of one (exec_taskDec h a e), .of (row 16 (by decide)) (exec_emit h a p e),
        .of (usesLess_nil _ _) (exec_cpcancel h chan e), .of maint (exec_hintL2 h a m), .of maint (exec_hintL1 h a m),
        .of maint (exec_hintLru h a m), .of maint (exec_cwbL2 h a m), .of maint (exec_cwbMem h a m), .of maint (exec_cinvL1 h a m),
        .of maint (exec_cinvL2 h a m), .of maint (exec_iinv h a m)⟩
    obtain ⟨uses, preds, c, scope, f, meaning, less, stream⟩ := each _ mem
    simp only [show st = c.stream from stream] at free ⊢
    exact counted_keeps meaning less ready free

end Sys2Proof.Machine
end

section
/-!
SUPPORT. Waits: how `waits` and `wait` issue, when a held entry goes on, and how a waiting lane ends (R180, R181, R183, R195).
-/

namespace Sys2Proof.Machine

/-! Entries that a `waits` holds. -/

theorem getLsbD_ofList_true (ls : List Nat) (l : Nat) : (LaneMask.ofList ls).getLsbD l = true ↔ l < 32 ∧ l ∈ ls := by
  simp only [LaneMask.getLsbD_ofList, Bool.and_eq_true, decide_eq_true_eq]

theorem and_eq_zero_iff (m b : LaneMask) : m &&& b = 0#32 ↔ ∀ l, m.getLsbD l = true → b.getLsbD l = false := by
  constructor
  · intro none l hl
    have both : (m &&& b).getLsbD l = false := by rw [none]; simp
    simpa [hl] using both
  · intro apart
    apply BitVec.eq_of_getLsbD_eq
    intro l _
    cases hl : m.getLsbD l
    · simp [hl]
    · simp [hl, apart l hl]

/-- Nothing of a gang holds a lane that no page request, system instruction, wait or admission does, and whose counts are at most their
bounds. -/
theorem not_blocked {g : Gang} {j : Nat} (parked : g.parked.getLsbD j = false) (pages : ∀ y ∈ g.pages, y.lane ≠ j)
    (sys : ∀ y ∈ g.sys, y.lane ≠ j) (waits : ∀ y ∈ g.waits, y.lane = j → y.done ≠ none)
    (counts : ∀ y ∈ g.counted, y.1 = j → (g.lane y.1).cnt y.2.1 ≤ y.2.2) : g.blocked.getLsbD j = false := by
  have held : ∀ ls : List Nat, j ∉ ls → (LaneMask.ofList ls).getLsbD j = false := fun ls out => by
    rw [← Bool.not_eq_true, getLsbD_ofList_true]
    exact fun k => out k.2
  simp only [Gang.blocked, Gang.overCount, BitVec.getLsbD_or, parked, Bool.or_false, Bool.or_eq_false_iff]
  refine ⟨held _ fun mem => ?_, held _ fun mem => ?_⟩
  · simp only [List.mem_append, List.mem_map, List.mem_filter] at mem
    rcases mem with (⟨y, hy, same⟩ | ⟨y, hy, same⟩) | ⟨y, ⟨hy, going⟩, same⟩
    · exact pages y hy same
    · exact sys y hy same
    · exact waits y hy same (Option.isNone_iff_eq_none.mp going)
  · obtain ⟨y, hy, same⟩ := List.mem_map.mp mem
    obtain ⟨hy, above⟩ := List.mem_filter.mp hy
    exact absurd (counts y hy same) (Nat.not_le.mpr (of_decide_eq_true above))

/-- A busy entry with a counted lane goes on once nothing holds its lanes. -/
theorem wakeCounted_at {s : State} {c : Crew} {k l : Nat} {e : Entry} (he : e ∈ (c.gang k).frontier) (busy : e.busy = true)
    (counted : ∃ y ∈ (c.gang k).counted, e.mask.getLsbD y.1 = true)
    (free : ∀ j, e.mask.getLsbD j = true → (c.gang k).blocked.getLsbD j = false) (hl : e.mask.getLsbD l = true) :
    (wakeCounted s c k).at l (pcNext e.pc) := by
  obtain ⟨y, hy, lane⟩ := counted
  have some : (c.gang k).counted.isEmpty = false := by
    rw [List.isEmpty_eq_false_iff]
    exact List.ne_nil_of_mem hy
  have shared : e.mask &&& LaneMask.ofList ((c.gang k).counted.map (·.1)) ≠ 0#32 := fun none =>
    Bool.false_ne_true (((and_eq_zero_iff _ _).mp none y.1 lane).symm.trans
      ((getLsbD_ofList_true _ _).mpr ⟨BitVec.lt_of_getLsbD lane, List.mem_map_of_mem hy⟩))
  unfold wakeCounted
  simp only [some, Bool.false_eq_true, if_false]
  refine (addEntries_standsAt _ _ _ _).mpr (.inl ⟨_, List.mem_map_of_mem (List.mem_filter.mpr ⟨he, ?_⟩), hl, rfl⟩)
  simp only [busy, (and_eq_zero_iff _ _).mpr free, Bool.true_and, beq_self_eq_true, Bool.and_true, bne_iff_ne, ne_eq]
  exact shared

/-! The issue of a `wait`. -/

/-- No trap and no page request comes of words that all translate. -/
theorem filterMap_ok {α : Type} {rs : List (Nat × LaneXlat)} {f : Nat × LaneXlat → Option α} (ok : ∀ r ∈ rs, ∃ ls, r.2 = .ok ls)
    (hf : ∀ l ls, f (l, .ok ls) = none) : rs.filterMap f = [] := by
  rw [List.filterMap_eq_nil_iff]
  rintro ⟨l, r⟩ hr
  obtain ⟨ls, rfl⟩ := ok _ hr
  exact hf l ls

/-- Settles O22: each is a switch point without a trap; the entry goes on once none of its lanes is blocked. -/
theorem waitsComplete : Obligations.WaitsComplete := by
  unfold Obligations.WaitsComplete
  intro h st bound all n d a cl wmask pt
  refine ⟨?pass, ?hold, ?wake, ?wait⟩
  case pass =>
    refine switchesTo_of_exec (exec_waits h st bound) (fun s x _ low => ?_) fun s x b _ => b
    have every : (x.execs h).lanes.all (fun l => decide ((x.g.lane l).cnt st.val ≤ bound.toNat)) = true :=
      List.all_eq_true.mpr fun l hl => decide_eq_true (low l hl)
    simp only [every, if_true, finishSwitch_nil]
    rfl
  case hold =>
    refine switchesTo_of_exec (exec_waits h st bound) (fun s x _ high => ?_) fun s x b _ => b
    obtain ⟨l, hl, above⟩ := high
    have notEvery : ¬ (x.execs h).lanes.all (fun l => decide ((x.g.lane l).cnt st.val ≤ bound.toNat)) = true := fun every =>
      absurd (of_decide_eq_true (List.all_eq_true.mp every l hl)) (Nat.not_le.mpr above)
    simp only [notEvery, finishSwitch_nil]
    rfl
  case wake =>
    intro s c k l e g he busy counted low clear hl
    refine wakeCounted_at he busy counted (fun j hj => ?_) hl
    obtain ⟨parked, pages, sys, waits⟩ := clear j hj
    exact not_blocked parked pages sys waits fun y hy same => low y hy (by rw [same]; exact hj)
  case wait =>
    intro s s1 x rs ready free reads ok stored
    rw [exec_wait, execWait]
    refine issueSwitch_switched _ _ ready ?_ (by exact stored)
    simp only [exhausted_false free, reads, filterMap_ok ok, implies_true, trapMask_nil, and_not_ofList_nil, List.isEmpty_nil,
      finishSwitch_nil]
    rfl

/-! The end of a wait. -/

theorem finishWaits_bad (s : State) (u k issue : Nat) : (finishWaits s u k issue).bad = s.bad := by
  unfold finishWaits
  split
  · rfl
  · dsimp only
    split <;> rfl

theorem waitDone_bad (s : State) (u k l : Nat) (timeout : Bool) : (waitDone s u k l timeout).bad = s.bad := by
  unfold waitDone
  split
  · rfl
  · split
    · rfl
    · exact finishWaits_bad _ _ _ _

/-- At a tick of a waiting lane whose words can be read its conditions are evaluated. -/
theorem waitTick_reads {s : State} {u k l : Nat} {c : Crew} {w : WaitRec} (hc : s.crew? u = some c) (resident : c.isResident = true)
    (waits : waitOf c k l = some w) (clear : ∀ p ∈ (c.gang k).pages, p.op ≠ w.op) (reads : wordsRead s c k w = true)
    (f : Crew → WaitRec → State) : waitTick u k l s f = finish (f c w) := by
  have noPage : (c.gang k).pages.any (fun p => p.op == w.op) = false := List.any_eq_false.mpr fun p hp => by simpa using clear p hp
  simp only [waitTick, hc, waits, resident, noPage, reads, Bool.not_true, Bool.or_self, Bool.false_eq_true, if_false, if_true]

theorem waitTick_pending {s : State} {u k l : Nat} {c : Crew} {w : WaitRec} (hc : s.crew? u = some c)
    (waits : waitOf c k l = some w) (pending : wordPending s c k w = true) (f : Crew → WaitRec → State) :
    waitTick u k l s f = finish s := by
  have unread : wordsRead s c k w = false := by simp only [wordsRead, pending, Bool.not_true, Bool.false_and]
  simp only [waitTick, hc, waits, unread, pending, Bool.false_eq_true, if_false, if_true, ite_self]

/-- Settles O23: a tick of the lane that reads its words ends it by its conditions, or by its timeout without them. -/
theorem waitsEnd : Obligations.WaitsEnd := by
  unfold Obligations.WaitsEnd
  intro s u k l c w stored hc resident waits
  have still := finish_next stored
  have done := fun t => finish_next ((waitDone_bad s u k l t).trans stored)
  refine ⟨fun pending => ⟨?_, ?_⟩, fun clear reads => ?_⟩
  · exact (waitTick_pending hc waits pending _).trans still
  · exact (waitTick_pending hc waits pending _).trans still
  · have met : exec (.waitConditionMet u k l) s = finish (if waitHolds s c k w then waitDone s u k l false else s) :=
      waitTick_reads hc resident waits clear reads _
    have timed : exec (.waitTimeout u k l) s = finish (if !waitHolds s c k w && waitExpired s w then waitDone s u k l true else s) :=
      waitTick_reads hc resident waits clear reads _
    rw [met, timed]
    refine ⟨fun holds => ?_, fun fails => ?_, fun fails due => ?_, fun idle => ?_⟩
    · rw [if_pos holds]
      exact done false
    · rw [fails]
      exact still
    · rw [fails, due]
      exact done true
    · rw [if_neg]
      · exact still
      · rcases idle with holds | early
        · simp [holds]
        · simp [early]

end Sys2Proof.Machine
end

section
/-!
SUPPORT. The issue of memory instructions: without translation, at the addresses that they resolve to, and as requests that wait for an
answer (R216 to R224, R240, R241, R290, R298, R385, R386, R403 to R405).
-/

namespace Sys2Proof.Machine

/-! Accesses without translation. -/

/-- A memory instruction whose lanes' operations are known counts one in each. -/
theorem switchesTo_of_memory {i : Instr} {h : Hdr} {uses : List (Opnd × Nat)} {preds : List PredOpt} {d : Opnd} {m : MemArg} {mod : Nat}
    {f : State → Issue → State → Nat → State × MemLane} {kind : State → Issue → Nat → OpKind}
    (meaning : ∀ s, exec i s = issueMemory s h uses preds d m.clause (scopeCode m.scope) mod (f s))
    (lane : ∀ s x l, f s x s l = (s, .op (kind s x l))) :
    SwitchesTo i h uses preds (fun _ x => CountFree x h m.clause) (fun s x => passed s x (issued s x h m d mod (kind s x))) := by
  intro s x ready free
  rw [meaning]
  exact issueMemory_issued d mod (f s) (kind s x) ready free (memLanes_same _ _ _ _ fun l _ => lane s x l) ready.ready.stored

/-- Settles O25: each access is a memory instruction whose lanes count their operations at once. -/
theorem accessesWithoutTranslationIssue : Obligations.AccessesWithoutTranslationIssue := by
  unfold Obligations.AccessesWithoutTranslationIssue
  intro h z w op shd d b pd m
  exact ⟨switchesTo_of_memory (exec_ldS h z d m) fun _ _ _ => rfl, switchesTo_of_memory (exec_stS h z b m) fun _ _ _ => rfl,
    switchesTo_of_memory (exec_atomS h op w d b m) fun _ _ _ => rfl, switchesTo_of_memory (exec_casS h w d b pd m) fun _ _ _ => rfl,
    switchesTo_of_memory (exec_ldK h z d m) fun _ _ _ => rfl, switchesTo_of_memory (exec_ldN h z d m) fun _ _ _ => rfl,
    switchesTo_of_memory (exec_stN h z b m) fun _ _ _ => rfl, switchesTo_of_memory (exec_ldV h shd z d m) fun _ _ _ => rfl,
    switchesTo_of_memory (exec_stV h shd z b m) fun _ _ _ => rfl, switchesTo_of_memory (exec_atomV h op w d b m) fun _ _ _ => rfl,
    switchesTo_of_memory (exec_casV h w d b pd m) fun _ _ _ => rfl, switchesTo_of_memory (exec_stH h z b m) fun _ _ _ => rfl⟩

/-! Addresses that a translation resolves (R290, R298). -/

/-- Where every byte of a list translates, only the walks' own reads change the state. -/
theorem xlatBytes_ok_walked {w : Who} {pasid : Nat} {j : Joiner} {acc : Nat} (vas : List (Option Nat)) :
    ∀ {s t : State} {n : Nat} {ls : List (Option Leaf)}, xlatBytes w pasid j acc s n vas = (t, .inl ls) → OnlyWalks s t := by
  induction vas with
  | nil => intro s t n ls found; cases found; exact .refl s
  | cons a vas ih =>
    intro s t n ls found
    cases a with
    | none =>
      rw [xlatBytes] at found
      generalize rest : xlatBytes w pasid j acc s (n + 1) vas = r at found
      obtain ⟨u, r | r⟩ := r <;> cases found
      exact ih rest
    | some va =>
      rw [xlatBytes] at found
      generalize first : laneXlat s w pasid j acc va 1 = r at found
      obtain ⟨s1, x⟩ := r
      cases x with
      | ok leaves =>
        dsimp only at found
        generalize rest : xlatBytes w pasid j acc s1 (n + 1) vas = r at found
        obtain ⟨u, r | r⟩ := r <;> cases found
        exact (laneXlat_ok_walked first).trans (ih rest)
      | trap cause ad d0 d1 => cases found
      | page y => cases found

/-- An address that resolves leaves all but what walks change, and is nowhere or of the space `.g`. -/
theorem globResolve_addr {s t : State} {c : Crew} {w : Who} {j : Joiner} {shd : Bool} {acc va n : Nat} {a : Addr}
    (found : globResolve s c w j shd acc va n = (t, .addr a)) : OnlyWalks s t ∧ a.inSpace 4 = a := by
  unfold globResolve at found
  split at found
  · cases found
  dsimp only at found
  split at found
  · cases found
    exact ⟨.refl s, rfl⟩
  generalize bytes : xlatBytes w _ j acc s 0 _ = r at found
  obtain ⟨s1, ls | ⟨k, x⟩⟩ := r
  · dsimp only at found
    split at found <;> cases found
    exact ⟨xlatBytes_ok_walked _ bytes, rfl⟩
  · cases x <;> cases found

/-- The module of a state does not change where an address resolves. -/
theorem globResolve_fabid {s t : State} {c : Crew} {w : Who} {j : Joiner} {shd : Bool} {acc va n : Nat} {a : Addr}
    (found : globResolve s c w j shd acc va n = (t, .addr a)) : t.fabid = s.fabid := by
  obtain ⟨⟨_, _, _, _, _, _, _, rfl⟩, _⟩ := globResolve_addr found
  rfl

/-- A memory instruction whose lanes' addresses resolve counts an access in each at its address. -/
theorem memory_resolved {i : Instr} {h : Hdr} {uses : List (Opnd × Nat)} {preds : List PredOpt} {d : Opnd} {m : MemArg} {mod : Nat}
    {f : Issue → State → Nat → State × MemLane} {s t : State} {x : Issue} {shd : Bool} {acc n : Nat} {who : State → Nat → Who}
    {va : Nat → Nat} {addr : Nat → Addr} (k : Nat → Addr → OpKind)
    (meaning : exec i s = issueMemory s h uses preds d m.clause (scopeCode m.scope) mod f) (ready : ReadySwitch s x h uses preds)
    (free : CountFree x h m.clause) (resolved : Resolves x shd acc n who va addr s (x.execs h).lanes t) (stored : Stored t)
    (lane : ∀ u v l, l ∈ (x.execs h).lanes → globResolve u x.c (who u l) (.lane x.c.uid x.k l) shd acc (va l) n = (v, .addr (addr l)) →
      u.fabid = s.fabid → f x u l = (v, .op (k l (addr l)))) :
    exec i s = .next (switched t x (issued s x h m d mod fun l => k l (addr l)) [nextGroup s x x.e.mask]) := by
  rw [meaning]
  exact issueMemory_issued d mod f (fun l => k l (addr l)) ready free
    (memLanes_resolves (f x) k lane (fun _ _ _ found => globResolve_fabid found) resolved) stored

/-- A lane of a `.g` or `.p` access whose address resolves has its operation there. -/
theorem globLane_addr {x : Issue} {shd : Bool} {acc n l : Nat} {va : Nat → Nat} {u v : State} {a : Addr} (k : Nat → Addr → OpKind)
    (found : globResolve u x.c (x.c.who u (x.g.lane l).mode) (.lane x.c.uid x.k l) shd acc (va l) n = (v, .addr a)) :
    globLane x shd acc n va k u l = (v, .op (k l a)) := by
  simp only [globLane, found]

section
variable {i : Instr} {h : Hdr} {uses : List (Opnd × Nat)} {preds : List PredOpt} {d : Opnd} {m : MemArg} {acc n : Nat} {s t : State}
  {x : Issue} {addr : Nat → Addr} (va : State → Issue → Nat → Nat) (kind : State → Issue → Nat → Addr → OpKind)

/-- A `.g` access whose addresses resolve counts its operations there. -/
theorem glob_issues {shd : Bool}
    (meaning : exec i s = issueMemory s h uses preds d m.clause (scopeCode m.scope) 0 fun x => globLane x shd acc n (va s x) (kind s x))
    (ready : ReadySwitch s x h uses preds) (free : CountFree x h m.clause)
    (resolved : Resolves x shd acc n (fun u l => x.c.who u (x.g.lane l).mode) (va s x) addr s (x.execs h).lanes t) (stored : Stored t) :
    exec i s = .next (switched t x (issued s x h m d 0 fun l => kind s x l ((addr l).inSpace 4)) [nextGroup s x x.e.mask]) := by
  refine memory_resolved (fun l a => kind s x l (a.inSpace 4)) meaning ready free resolved stored fun u v l _ found _ => ?_
  rw [globLane_addr _ found, (globResolve_addr found).2]

/-- A `.p` access whose addresses resolve counts its operations there. -/
theorem priv_issues
    (meaning : exec i s = issueMemory s h uses preds d m.clause (scopeCode m.scope) 0 fun x =>
      globLane x false acc n (va s x) fun l a => kind s x l (a.inSpace 8))
    (ready : ReadySwitch s x h uses preds) (free : CountFree x h m.clause)
    (resolved : Resolves x false acc n (fun u l => x.c.who u (x.g.lane l).mode) (va s x) addr s (x.execs h).lanes t) (stored : Stored t) :
    exec i s = .next (switched t x (issued s x h m d 0 fun l => kind s x l ((addr l).inSpace 8)) [nextGroup s x x.e.mask]) :=
  memory_resolved (fun l a => kind s x l (a.inSpace 8)) meaning ready free resolved stored fun _ _ _ _ found _ => globLane_addr _ found

/-- A `.f` access of a module to itself, whose addresses resolve, counts its operations there. -/
theorem fab_issues {mod : Nat} {aligned : Bool}
    (meaning : exec i s = issueMemory s h uses preds d m.clause (scopeCode m.scope) mod fun x =>
      fabLane x acc n (fun l => fabAddress x.g s.draws l m n aligned) (kind s x))
    (ready : ReadySwitch s x h uses preds) (free : CountFree x h m.clause)
    (own : ∀ l ∈ (x.execs h).lanes, (fabAddress x.g s.draws l m n aligned).1 = s.fabid.toNat ∧ (fabAddress x.g s.draws l m n aligned).2 < 2 ^ 55)
    (resolved : Resolves x false acc n (fun u l => { x.c.who u (x.g.lane l).mode with world := none, pri := false })
      (fun l => (fabAddress x.g s.draws l m n aligned).2) addr s (x.execs h).lanes t) (stored : Stored t) :
    exec i s = .next (switched t x (issued s x h m d mod fun l => kind s x l ((addr l).inSpace 7)) [nextGroup s x x.e.mask]) := by
  refine memory_resolved (fun l a => kind s x l (a.inSpace 7)) meaning ready free resolved stored fun u v l executes found module => ?_
  obtain ⟨here, low⟩ := own l executes
  simp only [fabLane, ge_iff_le, Nat.not_le.mpr low, here, module, if_true, if_false, found]

end

/-- Settles O26: the addresses resolve, so that the instruction counts an access in each lane. -/
theorem translatedAccessesIssue : Obligations.TranslatedAccessesIssue := by
  unfold Obligations.TranslatedAccessesIssue
  intro h p z w op shd d b pd m issues word n priv glob load store atom cas
  refine ⟨?ldP, ?stP, ?ldG, ?stG, ?atomG, ?redG, ?casG, ?ldF, ?stF, ?atomF, ?casF⟩
  case ldP => exact fun s t x addr ready free _ => priv_issues priv (load p) (exec_ldP h p z d m s) ready free
  case stP => exact fun s t x addr ready free _ => priv_issues priv store (exec_stP h p z b m s) ready free
  case ldG => exact fun s t x addr ready free _ => glob_issues (glob _ _) (load p) (exec_ldG h p shd z d m s) ready free
  case stG => exact fun s t x addr ready free _ => glob_issues (glob _ _) store (exec_stG h p shd z b m s) ready free
  case atomG => exact fun s t x addr ready free _ => glob_issues (glob _ _) (atom op d none) (exec_atomG h op w d b m s) ready free
  case redG => exact fun s t x addr ready free _ => glob_issues (glob _ _) (atom op .vz none) (exec_redG h op w b m s) ready free
  case casG => exact fun s t x addr ready free _ => glob_issues (glob _ _) cas (exec_casG h w d b pd m s) ready free
  case ldF => exact fun s t x addr ready free own => fab_issues (load .l2) (exec_ldF h z d m s) ready free (own rfl)
  case stF => exact fun s t x addr ready free own => fab_issues store (exec_stF h z b m s) ready free (own rfl)
  case atomF => exact fun s t x addr ready free own => fab_issues (atom op d pd) (exec_atomF h (.rmw op) w d b pd m s) ready free (own rfl)
  case casF => exact fun s t x addr ready free own => fab_issues cas (exec_atomF h .cas w d b pd m s) ready free (own rfl)

/-! Requests that wait for an answer (R385, R403). -/

/-- The keys before one in a list of pairs are those before its place among the keys. -/
theorem length_takeWhile_ne {α : Type} (f : Nat → α) (l : Nat) (ls : List Nat) :
    ((ls.map fun j => (j, f j)).takeWhile fun x => x.1 != l).length = ls.idxOf l := by
  induction ls with
  | nil => rfl
  | cons j js ih =>
    by_cases same : j = l
    · simp [same]
    · have other : (j == l) = false := beq_false_of_ne same
      have keeps : (j != l) = true := bne_iff_ne.mpr same
      simp only [List.map_cons, List.takeWhile_cons, keeps, if_true, List.length_cons, ih, List.idxOf_cons, other, cond_false]

theorem filterMap_nothing {α β : Type} (xs : List α) : (xs.filterMap fun _ => (none : Option β)) = [] :=
  List.filterMap_eq_nil_iff.mpr fun _ _ => rfl

/-- The executing lanes with their places. -/
theorem lanes_zip_range (m : LaneMask) : m.lanes.zip (List.range 32) = m.lanes.map fun l => (l, m.lanes.idxOf l) := by
  have short : m.lanes.length ≤ 32 := Nat.le_trans (List.length_filter_le _ _) (Nat.le_of_eq List.length_range)
  refine List.ext_getElem (by simp only [List.length_zip, List.length_range, List.length_map, Nat.min_eq_left short]) fun n h k => ?_
  have distinct : m.lanes.Nodup := List.nodup_range.filter _
  rw [List.length_map] at k
  simp [distinct.idxOf_getElem n k]

/-- A memory instruction whose lanes all wait for an answer counts a request in each and stays at the instruction. -/
theorem switchesTo_of_remote {i : Instr} {h : Hdr} {uses : List (Opnd × Nat)} {preds : List PredOpt} {d : Opnd} {m : MemArg} {mod : Nat}
    {f : State → Issue → State → Nat → State × MemLane} (cond : State → Issue → Nat → Prop) (kind : State → Issue → Nat → OpKind)
    (meaning : ∀ s, exec i s = issueMemory s h uses preds d m.clause (scopeCode m.scope) mod (f s))
    (lane : ∀ s x l, cond s x l → f s x s l = (s, .remote (kind s x l))) :
    SwitchesTo i h uses preds (fun s x => CountFree x h m.clause ∧ x.execs h ≠ 0#32 ∧ ∀ l ∈ (x.execs h).lanes, cond s x l)
      (fun s x => switched s x ((issued s x h m d mod (kind s x)).mapGang x.k fun g => { g with
        sys := g.sys ++ ((x.execs h).lanes.zip (List.range 32)).map fun y =>
          { lane := y.1, kind := .remote (x.c.nextOp + y.2) } }) [stayGroup x x.e.mask]) := by
  rintro s x ready ⟨free, takes, holds⟩
  rw [meaning]
  refine issueSwitch_switched _ _ ready ?_ (by exact ready.ready.stored)
  have asked := memLanes_same (f s x) (fun l => .remote (kind s x l)) s (x.execs h).lanes fun l hl => lane s x l (holds l hl)
  simp only [exhausted_false free, Bool.false_eq_true, if_false, asked]
  simp only [List.filterMap_map, Function.comp_def, MemLane.kind?, Option.map_some]
  have asks : (x.execs h).lanes.isEmpty = false := List.isEmpty_eq_false_iff.mpr (List.ne_nil_of_mem (lowest_mem takes))
  simp only [filterMap_nothing, List.filterMap_eq_map', destOps_lanes, length_takeWhile_ne, trapMask_nil, and_not_ofList_nil, List.isEmpty_nil,
    Bool.true_and, List.append_nil, List.isEmpty_map, asks, Bool.false_eq_true, if_false, finishSwitch_nil, lanes_zip_range, List.map_map]
  rfl

/-- A lane of a `.f` access to another module asks for an answer. -/
theorem fabLane_remote {x : Issue} {acc n l : Nat} {far : Nat → Nat × Nat} {k : Nat → Addr → OpKind} {s : State}
    (away : (far l).1 ≠ s.fabid.toNat ∧ (far l).2 < 2 ^ 55) : fabLane x acc n far k s l = (s, .remote (k l (.fab (far l).1 (far l).2))) := by
  obtain ⟨other, low⟩ := away
  simp only [fabLane, ge_iff_le, Nat.not_le.mpr low, other, if_false]

/-- Settles O27: the requests are counted and awaited. -/
theorem remoteAccessesIssue : Obligations.RemoteAccessesIssue := by
  unfold Obligations.RemoteAccessesIssue
  intro h z w op d b pd m
  refine ⟨?ldH, ?addH, ?exchH, ?casH, ?ldF, ?stF, ?atomF, ?casF⟩
  case ldH => exact switchesTo_of_remote _ _ (exec_ldH h z d m) fun _ _ _ _ => rfl
  case addH => exact switchesTo_of_remote _ _ (exec_atomH h (.add w) d b pd m) fun _ _ _ _ => rfl
  case exchH => exact switchesTo_of_remote _ _ (exec_atomH h (.exch w) d b pd m) fun _ _ _ _ => rfl
  case casH => exact switchesTo_of_remote _ _ (exec_atomH h (.cas z) d b pd m) fun _ _ _ _ => rfl
  case ldF => exact switchesTo_of_remote _ _ (exec_ldF h z d m) fun _ _ _ away => fabLane_remote away
  case stF => exact switchesTo_of_remote _ _ (exec_stF h z b m) fun _ _ _ away => fabLane_remote away
  case atomF => exact switchesTo_of_remote _ _ (exec_atomF h (.rmw op) w d b pd m) fun _ _ _ away => fabLane_remote away
  case casF => exact switchesTo_of_remote _ _ (exec_atomF h .cas w d b pd m) fun _ _ _ away => fabLane_remote away

end Sys2Proof.Machine
end

section
/-!
SUPPORT. The issue of copies, posts and publishes (R226, R228, R247, R252, R254, R407).
-/

namespace Sys2Proof.Machine

/-- A copy that no lane executes moves on; one with room contributes its slice, and counts an operation unless it joins a cancelled copy. -/
theorem issueCopy_switches (h : Hdr) (chan : Fin 8) (a b : Opnd) (e : EngArg) (src : Nat) (fab put : Bool) (win : Option Nat) {i : Instr}
    (meaning : ∀ s, exec i s = issueCopy s h chan a b e src fab put win) {s : State} {x : Issue} {t : State}
    (ready : ReadySwitch s x h [(a, 4), (b, 2)] [])
    (leaves : (x.execs h = 0#32 ∧ t = passed s x x.c) ∨
      x.execs h ≠ 0#32 ∧ CountFree x h e.clause ∧ channelRoom (x.c.channel chan.val) x.k = true ∧
      t = passed s x (contribute (if joinsCancelled (x.c.channel chan.val) x.k then x.c
        else x.c.addOp x.k s.draws x.e.pc (x.execs h) e.clause (scopeCode e.scope)
          (.copy chan.val ((x.c.channel chan.val).slices.getD x.k 0))) chan.val
        { gang := x.k, op := x.c.nextOp, lanes := x.execs h, stream := e.clause.stream.val, scope := scopeCode e.scope, pc := x.e.pc
          src := src, fab := fab, put := put, win := win
          words := (List.range 4).map (fun j => readOpnd x.g s.draws (lowest (x.execs h)) (Opnd.plus a j)) ++
            (List.range 2).map fun j => readOpnd x.g s.draws (lowest (x.execs h)) (Opnd.plus b j)
          done := 0, empty := false })) : exec i s = .next t := by
  rw [meaning]
  rcases leaves with ⟨idle, rfl⟩ | ⟨takes, free, room, rfl⟩ <;>
    refine issueSwitch_switched _ _ ready ?_ (by exact ready.ready.stored)
  · simp only [idle, if_true, finishSwitch_nil]
    rfl
  · simp only [takes, if_false, exhausted_false free, room, Bool.not_true, Bool.or_self, Bool.false_eq_true, finishSwitch_nil]
    rfl

/-- Settles O31: each form is a collective copy with its own source. -/
theorem copiesIssue : Obligations.CopiesIssue := by
  unfold Obligations.CopiesIssue
  intro h src win w chan a b e issues
  have each : ∀ {i : Instr} {src : Nat} {fab put : Bool} {win : Option Nat},
      (∀ s, exec i s = issueCopy s h chan a b e src fab put win) → issues i src fab put win := fun meaning => by
    refine ⟨fun s x ready idle => ?_, fun s x ready ⟨⟨takes, free, room⟩, joins⟩ => ?_, fun s x ready ⟨⟨takes, free, room⟩, joins⟩ => ?_⟩
    · exact issueCopy_switches h chan a b e _ _ _ _ meaning ready (.inl ⟨idle, rfl⟩)
    · exact issueCopy_switches h chan a b e _ _ _ _ meaning ready (.inr ⟨takes, free, room, by rw [joins]; rfl⟩)
    · exact issueCopy_switches h chan a b e _ _ _ _ meaning ready (.inr ⟨takes, free, room, by rw [joins]; rfl⟩)
  exact ⟨each (exec_copy h src win chan a b e), each (exec_copyFGet h chan a b e), each (exec_copyFGetw h w chan a b e),
    each (exec_copyFPut h chan a b e)⟩

/-- Settles O34: with counters and entries free, the operations are counted. -/
theorem postsAndPublishesIssue : Obligations.PostsAndPublishesIssue := by
  unfold Obligations.PostsAndPublishesIssue
  intro h d a win e
  refine ⟨fun s x ready ⟨free, entries, slots⟩ => ?_, fun s x ready idle => ?_, fun s x ready ⟨takes, free⟩ => ?_⟩
  · rw [exec_taskPost, execTaskPost]
    refine issueSwitch_switched _ _ ready ?_ (by exact ready.ready.stored)
    simp only [exhausted_false free, Nat.not_lt.mpr entries, Nat.not_lt.mpr slots, decide_false, Bool.or_self, Bool.false_eq_true, if_false,
      finishSwitch_nil, destOps_lanes]
    rfl
  · rw [exec_pubw, execPubw]
    refine issueSwitch_switched _ _ ready ?_ (by exact ready.ready.stored)
    simp only [idle, if_true, finishSwitch_nil]
    rfl
  · rw [exec_pubw, execPubw]
    refine issueSwitch_switched _ _ ready ?_ (by exact ready.ready.stored)
    simp only [takes, exhausted_false free, Bool.false_eq_true, if_false, finishSwitch_nil]
    rfl

end Sys2Proof.Machine
end

section
/-!
SUPPORT. The end of an operation (R199), and what the landing does with posts, pushes, tasks and working sets (R246, R252 to R256, R261 to R265).
-/

namespace Sys2Proof.Machine

/-! The end of an operation changes the crews, and the gang that issues where a crew leaves its core. -/

/-- Nothing but the crews and the choice of the issuing gang changes. -/
def OnlyEnds (s t : State) : Prop := ∃ crews cur, t = { s with crews := crews, cur := cur }

theorem OnlyEnds.refl (s : State) : OnlyEnds s s := ⟨_, _, rfl⟩

theorem OnlyEnds.trans {s t u : State} (h : OnlyEnds s t) (k : OnlyEnds t u) : OnlyEnds s u := by
  obtain ⟨_, _, rfl⟩ := h
  obtain ⟨_, _, rfl⟩ := k
  exact ⟨_, _, rfl⟩

theorem OnlyEnds.bad {s t : State} (h : OnlyEnds s t) : t.bad = s.bad := by obtain ⟨_, _, rfl⟩ := h; rfl
theorem OnlyEnds.hbm {s t : State} (h : OnlyEnds s t) : t.hbm = s.hbm := by obtain ⟨_, _, rfl⟩ := h; rfl
theorem OnlyEnds.host {s t : State} (h : OnlyEnds s t) : t.host = s.host := by obtain ⟨_, _, rfl⟩ := h; rfl
theorem OnlyEnds.vaults {s t : State} (h : OnlyEnds s t) : t.vaults = s.vaults := by obtain ⟨_, _, rfl⟩ := h; rfl
theorem OnlyEnds.windows {s t : State} (h : OnlyEnds s t) : t.windows = s.windows := by obtain ⟨_, _, rfl⟩ := h; rfl

theorem settleEnd_ends (s : State) (uid : Nat) : OnlyEnds s (settleEnd s uid) := by
  unfold settleEnd dropCrew
  split
  · split <;> exact ⟨_, _, rfl⟩
  · exact .refl s

theorem mapCrew_ends (s : State) (uid : Nat) (f : Crew → Crew) : OnlyEnds s (s.mapCrew uid f) := ⟨_, _, rfl⟩

theorem endOp_ends (s : State) (uid : Nat) (o : Op) (words : List Word) (preds : List (Nat × Bool)) :
    OnlyEnds s (endOp s uid o words preds) := (mapCrew_ends s uid _).trans (settleEnd_ends _ uid)

@[simp] theorem endOp_bad (s : State) (uid : Nat) (o : Op) (words : List Word) (preds : List (Nat × Bool)) :
    (endOp s uid o words preds).bad = s.bad := (endOp_ends s uid o words preds).bad

/-- Updates that mark no lack of storage mark none one after another. -/
theorem foldl_bad {α : Type} {f : State → α → State} (hf : ∀ s a, (f s a).bad = s.bad) (xs : List α) (s : State) :
    (xs.foldl f s).bad = s.bad := by
  induction xs generalizing s with
  | nil => rfl
  | cons x xs ih => exact (ih _).trans (hf s x)

@[simp] theorem taskDone_bad (s : State) (uid e status detail : Nat) : (taskDone s uid e status detail).bad = s.bad := rfl

/-! What a pending operation does. -/

/-- An operation of a resident crew that no other module answers is performed. -/
theorem exec_performs {s : State} {uid op : Nat} {c : Crew} {o : Op} (crew : s.crew? uid = some c) (pending : c.op? op = some o)
    (resident : c.isResident = true) (owes : owing s uid 3 op = false) (near : o.remote s = false) (notFab : o.kind.fab? = none) :
    exec (.memoryOpComplete uid op) s = finish (performAny s c o) := by
  rw [exec_memoryOpComplete, execMemoryOpComplete]
  simp only [crew, pending, resident, near, owes, notFab, Bool.not_true, Bool.or_self, Bool.false_eq_true, if_false]

/-- What an operation follows is performed. -/
theorem afterDone_of_none {c : Crew} {o : Op} (done : ∀ i ∈ o.after, ∀ p ∈ c.ops, p.id ≠ i) : afterDone c o = true := by
  simpa [afterDone] using done

/-! Publishing. -/

/-- A window is found after an update that keeps its place: the updated one at the place named, every other as it was. -/
theorem State.mapWindow_window? (s : State) (home entry h e : Nat) (f : Window → Window) (place : ∀ w, (f w).home = w.home ∧ (f w).entry = w.entry) :
    (s.mapWindow home entry f).window? h e = if (h, e) = (home, entry) then (s.window? h e).map f else s.window? h e := by
  have same : ((fun w : Window => w.home == h && w.entry == e) ∘ fun w => if w.home = home ∧ w.entry = entry then f w else w) =
      fun w => w.home == h && w.entry == e := by
    funext w
    obtain ⟨atHome, atEntry⟩ := place w
    simp only [Function.comp_apply]
    split
    · rw [atHome, atEntry]
    · rfl
  rw [State.window?, State.mapWindow, List.find?_map, same, State.window?]
  cases found : s.windows.find? fun w => w.home == h && w.entry == e with
  | none => simp
  | some w =>
    obtain ⟨rfl, rfl⟩ : w.home = h ∧ w.entry = e := by simpa using List.find?_some found
    simp only [Option.map_some, Prod.mk.injEq]
    split <;> rfl

/-- A window that a crew holds stands at its own place. -/
theorem Crew.window?_place {s : State} {c : Crew} {win : Nat} {w : Window} (held : c.window? s win = some w) :
    s.window? w.home w.entry = some w := by
  unfold Crew.window? at held
  split at held
  case h_1 v found =>
    split at held
    · obtain rfl := Option.some.inj held
      obtain ⟨home, entry⟩ : v.home = c.camp ∧ v.entry = win := by simpa using List.find?_some found
      rw [home, entry, found]
    · cases held
  case h_2 => cases held

/-- Settles O35: the publish changes one window, and the end of its operation none. -/
theorem publishChangesOver : Obligations.PublishChangesOver := by
  unfold Obligations.PublishChangesOver
  intro s uid op win c o w stored crew resident pending owes isPubw done held quiet
  have near : o.remote s = false := by simp [Op.remote, isPubw]
  have performs := exec_performs crew pending resident owes near (by simp [OpKind.fab?, OpKind.addr?, isPubw])
  simp only [performAny, isPubw, performPubw, afterDone_of_none done, Bool.not_true, Bool.false_eq_true, if_false, held, quiet] at performs
  have ends := endOp_ends (publish s w.home w.entry) c.uid o [] []
  have after := fun h e => State.mapWindow_window? s w.home w.entry h e (fun w => { w with cur := !w.cur, gen := w.gen + 1#32 })
    fun _ => ⟨rfl, rfl⟩
  refine ⟨_, performs.trans (finish_next (ends.bad.trans stored)), ends.hbm, ends.host, ends.vaults, ?_, fun h e other => ?_⟩
  · rw [State.window?, ends.windows]
    exact (after _ _).trans (by rw [if_pos rfl, Crew.window?_place held, Option.map_some])
  · rw [State.window?, ends.windows]
    exact (after h e).trans (if_neg other)

/-- Settles O36: the post takes the lowest free entry; the landing refuses it or lets it wait. -/
theorem postsAreReceived : Obligations.PostsAreReceived := by
  unfold Obligations.PostsAreReceived
  intro s uid op off c o d stored crew resident pending owes isPost may e inside r code t0 c1 s1
  have near : o.remote s = false := by simp [Op.remote, isPost]
  have performs := exec_performs crew pending resident owes near (by simp [OpKind.fab?, OpKind.addr?, isPost])
  simp only [performAny, isPost, may, if_true] at performs
  rw [performs]
  obtain rfl := State.crew?_uid crew
  have received : receivePost s c o off d = if code = 0 then
      settleExit (s1.mapCrew c.uid fun c => c.mapTask e (Task.settle s.now)) c.uid else taskDone s1 c.uid e 1 code := by
    rw [← ite_not]
    rfl
  rw [received]
  refine finish_next ?_
  split
  · exact (settleExit_settles _ _).bad.trans stored
  · exact stored

/-- Bytes of a working set that are delivered one after another: at the end it has arrived. -/
theorem stageBytes_delivers {uid e w : Nat} (n : Nat) : ∀ {s t : State}, Delivers uid e w n s t →
    stageBytes uid e w n s = t.mapCrew uid fun c => c.mapTask e fun k => Task.settle t.now (k.setWs w .arrived) := by
  induction n with
  | zero => rintro s t rfl; rfl
  | succ n ih =>
    rintro s t ⟨c, d, s1, b, crew, target, inside, read, rest⟩
    simp only [stageBytes, crew, target, Nat.not_le.mpr inside, if_false, read]
    exact ih rest

/-- The landing issues a ready task that finds a free engine. -/
theorem exec_taskIssue_next {s : State} {camp engine uid e : Nat} {c : Crew} (low : engine < 6)
    (free : (if engine < 4 then millFree s camp engine else sharedFree s camp (engine - 4)) = true)
    (next : nextTask s camp (decide (4 ≤ engine)) = some (uid, e)) (crew : s.crew? uid = some c) :
    exec (.taskIssue camp engine) s = if otherPasses s c (c.task e) then finish (taskDone s uid e 1 3)
      else if kindBad s c (c.task e).record then finish (taskDone s uid e 1 6)
      else finish (s.setCrew (c.mapTask e fun t => { t with state := .run, engine := engine })) := by
  rw [exec_taskIssue, execTaskIssue]
  simp only [ge_iff_le, Nat.not_le.mpr low, decide_false, free, Bool.not_true, Bool.or_self, Bool.false_eq_true, if_false, next, crew]

/-- The landing considers a working set that waits. -/
theorem exec_stagingAdmit_waiting {s : State} {uid e w : Nat} {c : Crew} (crew : s.crew? uid = some c) (resident : c.isResident = true)
    (lives : c.terminating = false) (kept : c.req = false) (low : w < 2) (held : (c.task e).state ≠ .none) (waits : (c.task e).ws w = .waiting)
    (free : sharedFree s c.camp (e % 2) = true) :
    exec (.stagingAdmit uid e w) s =
      let x := recWset (c.task e).record w
      let set := fun v => finish (s.setCrew (c.mapTask e fun t => t.setWs w v))
      if x.tgt = 1 then
        if stagingCharge s c.launch c.camp 1 + x.len ≤ (s.launchOf c).stbl2 then set (.moving 0) else set .unused
      else if (c.task e).state == .wait && (crewOn s c.launch c.camp x.core).isSome &&
          (decide (stagingCharge s c.launch c.camp 2 + x.len ≤ (s.launchOf c).stbsp) ||
            (oldestStaging s c.camp).map (·.2.2) == some (uid, e) && (oldestStaging s c.camp).map (·.2.1) == some w) then set (.moving 0)
      else finish s := by
  rw [exec_stagingAdmit, execStagingAdmit]
  have some : ((c.task e).state == .none) = false := by simpa using held
  simp only [crew, resident, lives, kept, some, waits, free, ge_iff_le, Nat.not_le.mpr low, decide_false, bne_self_eq_false, Bool.not_true,
    Bool.or_self, Bool.false_eq_true, if_false]

/-- A transfer that nothing holds, and that no other goes before, arrives. -/
theorem exec_stagingArrive_moving {s : State} {uid e w j : Nat} {c : Crew} (crew : s.crew? uid = some c) (resident : c.isResident = true)
    (lives : c.terminating = false) (moving : (c.task e).ws w = .moving j) (free : engineHeld s c 2 (2 * e + w) = false)
    (first : stagingYields s c e w = false) :
    exec (.stagingArrive uid e w) s =
      let x := recWset (c.task e).record w
      if x.tgt = 1 then finish ((stageL2 s c x).mapCrew uid fun c => c.mapTask e fun t => t.setWs w .arrived)
      else finish (stageBytes uid e w (x.len - j) s) := by
  rw [exec_stagingArrive, execStagingArrive]
  simp only [crew, moving, resident, lives, free, first, Bool.not_true, Bool.or_self, Bool.false_eq_true, if_false]

/-- A pending push of a resident crew takes its place in the queue. -/
theorem exec_emitPushHeld_pending {s : State} {uid op : Nat} {c : Crew} {o : Op} (crew : s.crew? uid = some c) (pending : c.op? op = some o)
    (resident : c.isResident = true) : exec (.emitPushHeld uid op) s = finish (pushRecord s c o) := by
  rw [exec_emitPushHeld, execEmitPushHeld]
  simp only [crew, pending, resident, if_true]

/-- Settles O37: the landing's four events, each where its condition holds. -/
theorem landingActs : Obligations.LandingActs := by
  unfold Obligations.LandingActs
  intro s stored
  refine ⟨fun camp engine uid e c low free next crew => ⟨fun passes bad => ?_, fun passes => ?_⟩, fun uid e w c crew resident lives => ?_,
    fun uid op c o r pd waiting crew pending resident isEmit ready => ⟨fun last => ?_, fun cap q follows queue room => ?_⟩⟩
  · rw [exec_taskIssue_next low free next crew, passes, bad]
    exact finish_next stored
  · rw [exec_taskIssue_next low free next crew, passes]
    exact finish_next stored
  · refine ⟨fun kept low held waits free => ⟨fun intoL2 => ?_, fun scratch waiting target fits => ?_⟩,
      fun j moving free first => ⟨fun intoL2 stored' => ?_, fun scratch t delivers stored' => ?_⟩⟩
    · rw [exec_stagingAdmit_waiting crew resident lives kept low held waits free]
      simp only [intoL2, if_true]
      split <;> exact finish_next stored
    · rw [exec_stagingAdmit_waiting crew resident lives kept low held waits free]
      simp only [scratch, if_false, waiting, target, fits, decide_true, beq_self_eq_true, Bool.true_or, Bool.and_self, if_true]
      exact finish_next stored
    · rw [exec_stagingArrive_moving crew resident lives moving free first]
      simp only [intoL2, if_true]
      exact finish_next stored'
    · rw [exec_stagingArrive_moving crew resident lives moving free first]
      simp only [scratch, if_false, stageBytes_delivers _ delivers]
      exact finish_next stored'
  · rw [exec_emitPushHeld_pending crew pending resident]
    simp only [pushRecord, isEmit, ready, Bool.not_true, Bool.false_eq_true, if_false, last, State.crew?_uid crew]
    exact finish_next ((endOp_bad ..).trans stored)
  · rw [exec_emitPushHeld_pending crew pending resident]
    simp only [pushRecord, isEmit, ready, Bool.not_true, Bool.false_eq_true, if_false, follows, queue, room, if_true, State.crew?_uid crew]
    exact finish_next ((endOp_bad ..).trans stored)

end Sys2Proof.Machine
end

section
/-!
SUPPORT. Copies as they begin, deliver their bytes and complete (R229 to R231, R265, R402).
-/

namespace Sys2Proof.Machine

/-! Beginning. -/

/-- The first slice with a fault, after slices without. -/
theorem findSome_first {α β : Type} {f : α → Option β} {ys zs : List α} {y : α} {b : β} (before : ∀ z ∈ ys, f z = none)
    (at_ : f y = some b) : (ys ++ y :: zs).findSome? f = some b := by
  rw [List.findSome?_append, List.findSome?_eq_none_iff.mpr before, Option.none_or, List.findSome?_cons, at_]

section
variable {s : State} {uid chan : Nat} {c : Crew} {x : Copy} (crew : s.crew? uid = some c) (resident : c.isResident = true)
  (owes : owing s uid 0 chan = false) (next : nextToBegin (c.channel chan) = some x) (ready : ∀ y ∈ x.slices, sliceReady c y = true)
  (entry : sharedFree s c.camp (chan % 2) = true ∨ reserveFree s c (chan % 2) = true)
include crew resident owes next ready entry

/-- A formed copy whose slices are ready and show no fault takes an entry and begins. -/
theorem exec_copyBegin_sound (sound : ∀ y ∈ x.ordered, beginFault s c y = none) :
    exec (.copyBegin uid chan) s = finish (s.setCrew (c.mapChannel chan fun ch => ch.mapCopy x.seq fun x =>
      { x with begun := true, reserve := !sharedFree s c.camp (chan % 2), slices := x.slices.map (·.begin_ s) })) := by
  rw [exec_copyBegin, execCopyBegin]
  have free : (sharedFree s c.camp (chan % 2) || reserveFree s c (chan % 2)) = true := by simpa using entry
  have none : x.ordered.findSome? (fun y => (beginFault s c y).map fun f => (y, f)) = none :=
    List.findSome?_eq_none_iff.mpr fun y hy => by rw [sound y hy, Option.map_none]
  simp only [crew, next, resident, owes, List.all_eq_true.mpr ready, free, none, Bool.not_true, Bool.or_self, Bool.false_eq_true, if_false]

/-- A formed copy whose slices are ready raises the first fault that they show. -/
theorem exec_copyBegin_faulty {y : Slice} {f : CopyFault} {ys zs : List Slice} (order : x.ordered = ys ++ y :: zs)
    (before : ∀ z ∈ ys, beginFault s c z = none) (faulty : beginFault s c y = some f) :
    exec (.copyBegin uid chan) s = finish (raiseCopyFault s c chan y f) := by
  rw [exec_copyBegin, execCopyBegin]
  have free : (sharedFree s c.camp (chan % 2) || reserveFree s c (chan % 2)) = true := by simpa using entry
  have first : x.ordered.findSome? (fun y => (beginFault s c y).map fun f => (y, f)) = some (y, f) := by
    rw [order]
    exact findSome_first (fun z hz => by rw [before z hz, Option.map_none]) (by rw [faulty, Option.map_some])
  simp only [crew, next, resident, owes, List.all_eq_true.mpr ready, free, first, Bool.not_true, Bool.or_self, Bool.false_eq_true, if_false]

end

/-! Delivery. -/

/-- The next byte of a channel is moved and counted; the rest follows. -/
theorem deliver_next {s s1 : State} {uid chan n : Nat} {c : Crew} {x : Copy} {y : Slice} {b : Byte} (crew : s.crew? uid = some c)
    (resident : c.isResident = true) (lives : c.terminating = false) (free : engineHeld s c 0 chan = false)
    (next : nextSlice (c.channel chan) = some (x, y)) (route : y.fab = true → y.homed = false → usable s y.route = true)
    (moved : moveByte s c chan y y.done = .ok s1 b) :
    deliver uid chan (n + 1) s = deliver uid chan n (s1.mapCrew uid fun c => countByte c chan x.seq y.op) := by
  have reaches : (y.fab && !y.homed && !usable s y.route) = false := by
    cases hf : y.fab <;> cases hh : y.homed <;> simp_all
  simp only [deliver, crew, resident, lives, free, next, reaches, moved, Bool.not_true, Bool.or_self, Bool.false_eq_true, if_false]

/-- Settles O32: the copy begins or faults, its bytes follow one another, and its end publishes its windows. -/
theorem copiesRun : Obligations.CopiesRun := by
  unfold Obligations.CopiesRun
  intro s uid chan c stored crew resident shared
  refine ⟨fun x owes next ready entry => ⟨fun sound => ?_, fun y f ys zs order before faulty room stored' => ?_⟩,
    fun n x y s1 b lives free next route moved => ?_, finish_next stored, fun x complete => ?_⟩
  · rw [exec_copyBegin_sound crew resident owes next ready entry sound]
    exact finish_next stored
  · rw [exec_copyBegin_faulty crew resident owes next ready entry order before faulty, raiseCopyFault,
      giveRecords_room c.uid none (.die 0 chan) _ room, State.crew?_uid crew]
    exact finish_next stored'
  · rw [exec_copyDelivery, exec_copyDelivery, execCopyDelivery, execCopyDelivery, deliver_next crew resident lives free next route moved]
  · rw [exec_copyComplete, execCopyComplete]
    simp only [crew, complete]
    exact finish_next ((foldl_bad (f := fun s w => publish s c.camp w) (fun _ _ => rfl) _ _).trans stored)

/-! The byte that is delivered (R229). -/

/-- What an engine translates, only walks change the state. -/
theorem engineXlat_ok_walked {s t : State} {c : Crew} {j : Joiner} {pri : Bool} {acc va : Nat} {ls : List Leaf}
    (found : engineXlat s c j pri acc va = (t, .ok ls)) : OnlyWalks s t := by
  unfold engineXlat at found
  have walks := translateN_walked s (engineWho s c !pri) acc va 1
  dsimp only at found
  split at found
  · exact laneXlat_ok_walked found
  · split at found <;> cases found
    case h_1 inHand =>
      rw [inHand] at walks
      exact walks

theorem engineLine_walked (s : State) (c : Crew) (lf : Leaf) (dirty : Bool) : OnlyWalks s (engineLine s c lf dirty) := by
  unfold engineLine
  split
  · exact .refl s
  · exact accessL2_walked ..

/-- An engine's read leaves all but what walks and caches change. -/
theorem engineRead_ok_walked {s t : State} {c : Crew} {j : Joiner} {pri : Bool} {va errAddr : Nat} {b : Byte}
    (read : engineRead s c j pri va errAddr = .ok t b) : OnlyWalks s t := by
  unfold engineRead at read
  split at read
  case h_1 s1 lf lfs found =>
    split at read
    · cases read
    · dsimp only at read
      split at read <;> cases read
      exact (engineXlat_ok_walked found).trans ((touch_walked _ _).trans (engineLine_walked ..))
  all_goals cases read

theorem onChip_ok {s t : State} {world : Option Nat} {l : Loc} {a : Nat} {b : Byte} (read : onChip s world l a = .ok t b) : t = s := by
  unfold onChip at read
  split at read <;> cases read
  rfl

/-- The read of a slice's byte leaves every crew as it was. -/
theorem readSlice_ok_crews {s t : State} {c : Crew} {chan j : Nat} {x : Slice} {b : Byte} (read : readSlice s c chan x j = .ok t b) :
    t.crews = s.crews := by
  unfold readSlice at read
  dsimp only at read
  split at read
  · rw [onChip_ok read]
  · split at read
    · split at read
      · exact (engineRead_ok_walked read).crews
      · cases read
        rfl
    · split at read
      · exact (engineRead_ok_walked read).crews
      all_goals rw [onChip_ok read]

/-- Settles O33: the byte read is written at its place, and one byte is counted. -/
theorem deliveredByteIsCopied : Obligations.DeliveredByteIsCopied := by
  unfold Obligations.DeliveredByteIsCopied
  intro s s1 uid chan c x y b crew resident lives free exists_ next get scratch route near far va read stored
  obtain rfl := State.crew?_uid crew
  have inside : (nearBound s c y).bind (fun nb => boundFault nb (farBound s c y) y y.done) = none := by
    simp only [nearBound, scratch, Option.bind_some, boundFault, ge_iff_le, Nat.not_le.mpr near, if_false]
    split
    case h_1 n bound => rw [if_neg (Nat.not_le.mpr (far n bound))]
    case h_2 => rfl
  have low : (y.fab && decide (y.far y.done ≥ 2 ^ 55)) = false := by
    cases fab : y.fab with
    | false => rfl
    | true => simpa using va fab
  have moved : moveByte s c chan y y.done = .ok (writeLoc s1 none (.scratch c.uid (y.near y.done)) b) b := by
    simp only [moveByte, inside, low, Bool.false_eq_true, if_false, read, writeSlice, get, scratch]
  have step := deliver_next (n := 0) crew resident lives free next route moved
  let wrote := fun d : Crew => { d with scratch := poke d.scratch (y.near y.done) b }
  let t := (s1.mapCrew c.uid wrote).mapCrew c.uid fun c => countByte c chan x.seq y.op
  have crew1 : s1.crew? c.uid = some c := by rw [State.crew?, readSlice_ok_crews read]; exact crew
  have after : ∀ u, t.crew? u = if u = c.uid then some (countByte (wrote c) chan x.seq y.op) else s1.crew? u := fun u => by
    have counted := State.crew?_mapCrew (s1.mapCrew c.uid wrote) c.uid u (fun c => countByte c chan x.seq y.op) fun _ => rfl
    have written := State.crew?_mapCrew s1 c.uid
    rw [written c.uid wrote fun _ => rfl, written u wrote fun _ => rfl, if_pos rfl, crew1] at counted
    refine counted.trans ?_
    by_cases same : u = c.uid
    · rw [if_pos same, if_pos same]
      rfl
    · rw [if_neg same, if_neg same, if_neg same]
  have channels : ∀ n, (countByte (wrote c) chan x.seq y.op).channel n =
      if n = chan ∧ n < c.channels.length then
        { (c.channel n).mapCopy x.seq fun x => { x with slices := x.slices.map fun z => if z.op = y.op then { z with done := z.done + 1 } else z }
          with wp := (c.channel n).wp + 1#32 }
      else c.channel n := fun n => modifyNth_getD ..
  refine ⟨t, countByte (wrote c) chan x.seq y.op, (congrArg finish step).trans (finish_next stored), ?crew, ?byte, ?others, ?pointer, ?channels⟩
  case crew => rw [after, if_pos rfl]
  case byte =>
    simp only [State.raw, after, if_true]
    exact (peek_poke ..).trans (if_pos rfl)
  case others =>
    intro q other
    cases q with
    | scratch u off =>
      simp only [State.raw, after]
      by_cases same : u = c.uid
      · subst same
        simp only [if_true, crew1]
        exact (peek_poke ..).trans (if_neg fun h => other (by rw [h]))
      · simp only [same, if_false]
    | _ => rfl
  case pointer => rw [channels, if_pos ⟨rfl, exists_⟩]
  case channels =>
    intro n other
    rw [channels, if_neg fun h => other h.1]

end Sys2Proof.Machine
end

section
/-!
SUPPORT. How requests to the host and to other modules end, how links change state, and how page requests and full rings resolve (R295, R296,
R330, R386, R401 to R408).
-/

namespace Sys2Proof.Machine

/-! Ends that mark no lack of storage. -/

theorem goOn_bad (s : State) (uid k : Nat) (lanes : LaneMask) (again : Bool) : (goOn s uid k lanes again).bad = s.bad := by
  unfold goOn
  split <;> rfl

@[simp] theorem remoteDone_bad (s : State) (uid : Nat) (o : Op) : (remoteDone s uid o).bad = s.bad := by
  unfold remoteDone
  split
  · rfl
  · split
    · exact goOn_bad ..
    · rfl

/-- An operation found under a number has it. -/
theorem Crew.op?_id {c : Crew} {n : Nat} {o : Op} (found : c.op? n = some o) : o.id = n := by
  simpa [Crew.op?] using List.find?_some found

/-- A request that fails where the ring has room writes its record and ends. -/
theorem failOp_room {s : State} {c : Crew} (o : Op) (r : Record) (lives : c.terminating = false) (room : ringRoom s (c.ring s) 1 = true) :
    failOp s c o r = endFailed (writeRecord s (c.ring s) r) c.uid o := by
  rw [failOp, lives, giveRecords_room c.uid none (.failed o.id) _ room]
  rfl

/-! Host requests. -/

/-- A host request of a crew that is not ending, and which may end, does so. -/
theorem hostEnd_ready {s : State} {uid op a n : Nat} {c : Crew} {o : Op} (f : Crew → Op → Nat → Nat → State) (crew : s.crew? uid = some c)
    (resident : c.isResident = true) (lives : c.terminating = false) (pending : c.op? op = some o) (host : o.kind.host? = some (a, n))
    (ready : opReady s c o = true) (owes : ended s c o = false) : hostEnd uid op s f = finish (f c o a n) := by
  simp only [hostEnd, crew, pending, host, resident, ready, owes, lives, Bool.not_true, Bool.or_self, Bool.false_and, Bool.false_eq_true,
    if_false]

/-- Settles O42: each end of a request is one branch of its table. -/
theorem hostRequestsEnd : Obligations.HostRequestsEnd := by
  unfold Obligations.HostRequestsEnd
  intro s uid op c o a n stored crew own resident lives pending host ready owes
  subst own
  have ends := fun f => hostEnd_ready f crew resident lives pending host ready owes
  refine ⟨fun stored' => ?ok, fun i hi x z v isStore stored' => ?store,
    fun room => ⟨fun x p z d isLoad => ?load, fun pd isAtomic => ?atomic, fun _ _ => ⟨rfl, rfl, rfl, rfl, rfl, rfl, rfl⟩⟩,
    fun notStore stored' => ?poison⟩
  case ok =>
    rw [exec_hostCompletion, execHostCompletion, ends]
    exact finish_next stored'
  case store =>
    simp only [List.mem_cons, List.not_mem_nil, or_false] at hi
    rcases hi with rfl | rfl | rfl | rfl | rfl
    all_goals
      simp only [exec_hostCompletion, execHostCompletion, exec_hostCompletionTimeout, execHostCompletionTimeout, ends, hostFail, isStore]
      exact finish_next stored'
  case load =>
    refine ⟨fun stored' => ?_, fun stored' => ?_, fun stored' => ?_, fun stored' => ?_⟩
    all_goals
      simp only [exec_hostCompletion, execHostCompletion, exec_hostCompletionTimeout, execHostCompletionTimeout, ends, hostFail, isLoad,
        failOp_room o _ lives room, endFailed, failedWords, failedPreds]
      exact finish_next stored'
  case atomic =>
    have fails : ∀ cause det0, hostFail s c o a cause det0 =
        remoteDone (endOp (writeRecord s (c.ring s) (hostRecord c o cause a det0)) c.uid o [] (predOut pd false)) c.uid o := fun cause det0 => by
      rcases isAtomic with ⟨_, _, _, _, _, kind⟩ | ⟨_, _, _, _, _, kind⟩ <;>
        simp only [hostFail, kind, failOp_room o _ lives room, endFailed, failedWords, failedPreds]
    refine ⟨fun stored' => ?_, fun stored' => ?_, fun stored' => ?_, fun stored' => ?_⟩
    all_goals
      simp only [exec_hostCompletion, execHostCompletion, exec_hostCompletionTimeout, execHostCompletionTimeout, ends, fails]
      exact finish_next stored'
  case poison =>
    rw [exec_hostCompletion, execHostCompletion, ends]
    dsimp only
    split
    · exact absurd ‹_› (notStore _ _ _)
    · exact finish_next stored'

/-! Requests to other modules. -/

/-- A pending request of a resident crew, of no copy, that has not ended. -/
theorem fabEnd_pending {s : State} {uid op m va : Nat} {c : Crew} {o : Op} (f : Crew → Op → Nat → Nat → State) (crew : s.crew? uid = some c)
    (resident : c.isResident = true) (pending : c.op? op = some o) (fab : o.kind.fab? = some (m, va)) (owes : ended s c o = false) :
    fabEnd uid op s f = if usable s o.route then finish (f c o m va) else finish (if opReady s c o then failFabric s c o 0xFF 0 false else s) := by
  simp only [fabEnd, crew, pending, fab, resident, owes, Bool.not_true, Bool.or_self, Bool.false_eq_true, if_false]

/-- A request to another module fails where the ring has room. -/
theorem failFabric_room {s : State} {c : Crew} {o : Op} {m va : Nat} (link reason : Nat) (sent : Bool) (fab : o.kind.fab? = some (m, va))
    (lives : c.terminating = false) (room : ringRoom s (c.ring s) 1 = true) : failFabric s c o link reason sent =
      endFailed (writeRecord s (c.ring s) (fabricRecord c o.gang o.lanes o.pc m va link reason (sent && o.kind.writes) 0)) c.uid o := by
  simp only [failFabric, fab, failOp_room o _ lives room]

/-- A request that no route carries waits for no answer. -/
theorem remote_of_fab {s : State} {o : Op} {m va : Nat} (fab : o.kind.fab? = some (m, va)) : o.remote s = usable s o.route := by
  unfold Op.remote
  unfold OpKind.fab? OpKind.addr? at fab
  cases kind : o.kind <;> simp only [kind] at fab ⊢
  case load a _ _ _ => cases a <;> simp at fab ⊢
  case store a _ _ => cases a <;> simp at fab ⊢
  case atom a _ _ _ _ _ => cases a <;> simp at fab ⊢
  case cas a _ _ _ _ _ => cases a <;> simp at fab ⊢
  all_goals simp at fab

/-- Settles O43: requests of operations end by `fabEnd`, those of copies by their slice. -/
theorem fabricRequestsEnd : Obligations.FabricRequestsEnd := by
  unfold Obligations.FabricRequestsEnd
  intro s uid op c stored crew own resident lives
  subst own
  refine ⟨fun o m va pending fab ready owes single => ?single, fun chan x y inCopy owes => ?copy, fun _ _ _ _ _ => ⟨rfl, rfl⟩,
    fun _ _ _ _ _ _ _ => ⟨rfl, rfl⟩⟩
  case single =>
    have noSlice : ((s.crew? c.uid).bind fun c => (sliceCopy c op).map fun x => (c, x)) = none := by
      rw [crew, Option.bind_some, single, Option.map_none]
    have ends := fun f => fabEnd_pending f crew resident pending fab owes
    have fails := fun link reason sent => failFabric_room (s := s) link reason sent fab lives
    refine ⟨fun away room stored' i hi => ?lost, fun reaches room stored' => ?timeout, fun reaches data stored' => ?answer,
      fun reaches waits cause hc det0 stored' => ?fault⟩
    case lost =>
      simp only [List.mem_cons, List.not_mem_nil, or_false] at hi
      rcases hi with rfl | rfl
      · simp only [exec_fabricTimeout, execFabricTimeout, noSlice, ends, away, ready, Bool.false_eq_true, if_false, if_true, fails 0xFF 0 false room]
        exact finish_next stored'
      · have quiet : owing s c.uid 3 op = false := by
          rw [ended, Crew.op?_id pending, Bool.or_eq_false_iff] at owes
          exact owes.1
        have after : afterDone c o = true := by
          simp only [opReady, Bool.and_eq_true] at ready
          exact ready.1.1.1
        simp only [exec_memoryOpComplete, execMemoryOpComplete, crew, pending, resident, remote_of_fab fab, away, quiet, fab, after,
          Bool.not_true, Bool.or_self, Bool.false_eq_true, if_false, if_true, fails 0xFF 0 false room]
        exact finish_next stored'
    case timeout =>
      simp only [exec_fabricTimeout, execFabricTimeout, noSlice, ends, reaches, ready, if_true, fails 0xFF 2 true room]
      exact finish_next stored'
    case answer =>
      simp only [exec_fabricResponse, execFabricResponse, noSlice, ends, reaches, ready, if_true]
      exact finish_next stored'
    case fault =>
      have known : (cause == 0x20 || cause == 0x21 || cause == 0x22) = true := by simpa [or_assoc] using hc
      simp only [exec_fabricResponse, execFabricResponse, noSlice, ends, reaches, if_true, fabFault, lives, waits, known, Bool.and_self,
        Bool.false_eq_true, if_false]
      exact finish_next stored'
  case copy =>
    have slice : ((s.crew? c.uid).bind fun c => (sliceCopy c op).map fun x => (c, x)) = some (c, chan, x, y) := by
      rw [crew, Option.bind_some, inCopy, Option.map_some]
    refine ⟨fun reaches room stored' => ?_, fun away room stored' => ?_, fun reaches room cause det0 stored' => ?_⟩
    · simp only [exec_fabricTimeout, execFabricTimeout, slice, resident, lives, owes, reaches, Bool.not_false, Bool.and_self, if_true,
        failCopy, giveRecords_room _ _ _ _ ((congrArg (ringRoom s (c.ring s)) (List.length_map _)).trans room)]
      exact finish_next stored'
    · simp only [exec_fabricTimeout, execFabricTimeout, slice, resident, lives, owes, away, Bool.not_false, Bool.and_self, if_true,
        Bool.false_eq_true, if_false,
        failCopy, giveRecords_room _ _ _ _ ((congrArg (ringRoom s (c.ring s)) (List.length_map _)).trans room)]
      exact finish_next stored'
    · have told := giveRecords_room (s := s) (r := c.ring s) (recs := [faultRecord c chan y { sub := 4, addr := y.farWord y.done }]) c.uid none
        (.die 0 chan) (fun s => terminate s c.uid none) room
      simp only [exec_fabricResponse, execFabricResponse, slice, resident, lives, owes, reaches, Bool.not_false, Bool.and_self, if_true,
        raiseCopyFault, told]
      exact finish_next stored'

/-! Links. -/

theorem modifyNth_set {α : Type} {xs : List α} {k : Nat} {a : α} {f : α → α} (found : xs[k]? = some a) :
    modifyNth xs k f = xs.set k (f a) := by
  induction xs generalizing k with
  | nil => cases found
  | cons x xs ih =>
    cases k with
    | zero =>
      obtain rfl : x = a := by simpa using found
      rfl
    | succ k => rw [modifyNth, List.set_cons_succ, ih (by simpa using found)]

/-- A link that exists is replaced. -/
theorem mapLink_set {s : State} {k : Nat} {l : Link} (f : Link → Link) (found : s.links[k]? = some l) :
    mapLink s k f = { s with links := s.links.set k (f l) } := by
  rw [mapLink, modifyNth_set found]

theorem resendHeld_bad (s : State) : (resendHeld s).bad = s.bad := by
  exact foldl_bad (fun _ _ => State.setEndpoint_bad _ _) _ _

/-- Settles O44: each event is one branch of the link's table. -/
theorem linksChangeState : Obligations.LinksChangeState := by
  unfold Obligations.LinksChangeState
  intro s k value l stored found put
  have upIff : linkUp s k = (l.state == 2) := by simp only [linkUp, found]
  have puts : ∀ f, mapLink s k f = put (f l) := fun f => mapLink_set f found
  refine ⟨?flit, fun up stored' => ?down, fun notUp => ?stays, ?starts, ?trained, ?clears⟩
  case flit =>
    simp only [exec_flitCheckFail, execFlitCheckFail, upIff, beq_iff_eq, puts]
    split <;> exact finish_next stored
  case down =>
    simp only [exec_linkDown, execLinkDown, upIff, up, beq_self_eq_true, Bool.not_true, Bool.false_eq_true, if_false, puts]
    exact finish_next stored'
  case stays =>
    have off : (l.state == 2) = false := by simpa using notUp
    simp only [exec_linkDown, execLinkDown, upIff, off, Bool.not_false, if_true]
    exact finish_next stored
  case starts =>
    simp only [exec_linkctl, execLinkctl, found, bit, Nat.pow_zero, Nat.div_one, Bool.and_eq_true, beq_iff_eq, puts]
    split <;> exact finish_next stored
  case trained =>
    simp only [exec_linkTrained, execLinkTrained, found, puts]
    split
    · exact finish_next ((resendHeld_bad _).trans stored)
    · exact finish_next stored
  case clears =>
    simp only [exec_linkstFailedClear, execLinkstFailedClear, bit, Nat.reducePow, beq_iff_eq, puts]
    split <;> exact finish_next stored

/-! Page requests, and rings that have room again. -/

/-- A producer that has room for all that it still has to tell writes it and goes on. -/
theorem giveOwed_room {s : State} {r : Ring} {w : RingWait} (waits : w ∈ s.ringWait) (room : ringRoom s r w.recs.length = true) :
    giveOwed s r w =
      let told := { r with vf := w.org.1, ctx := w.org.2.1, tenant := w.org.2.2 }
      let u := w.recs.foldl (fun s x => putRecord s r (recordBytes told s.tick (x.now s w))) s
      w.fate.act { u with ringWait := u.ringWait.filter (· != w) } w.crew := by
  have fits : w.recs.length ≤ (ringSpace s r).getD w.recs.length := by
    unfold ringRoom at room
    cases space : ringSpace s r with
    | none => exact Nat.le_refl _
    | some m => rw [space] at room; exact of_decide_eq_true room
  simp only [giveOwed, List.contains_iff_mem.mpr waits, Bool.not_true, Bool.false_eq_true, if_false, if_pos fits, List.take_of_length_le fits]

/-- Settles O45: requests are sent and answered, and producers that waited for room go on. -/
theorem pageRequestsResolve : Obligations.PageRequestsResolve := by
  unfold Obligations.PageRequestsResolve
  intro s vf prg stored
  refine ⟨fun r first on works room => ?send, fun r sent => ?answered, fun ctx l launch room => ⟨fun stored' => ?ring, fun w hw fits => ?told⟩⟩
  case send =>
    simp only [exec_pageRequestSend, execPageRequestSend, first, on, works, room, Bool.not_false, decide_true, Bool.and_self, if_true]
    exact finish_next stored
  case answered =>
    have found : sentReq s vf prg = some r := sent
    refine ⟨fun stored' => ?_, fun stored' => ?_, fun stored' => ?_⟩
    · simp only [exec_pageResponseSuccess, execPageResponseSuccess, found]
      exact finish_next stored'
    · simp only [exec_pageResponseInvalid, execPageResponseInvalid, found]
      exact finish_next stored'
    · simp only [exec_pageResponseFailure, execPageResponseFailure, found]
      exact finish_next stored'
  case ring =>
    simp only [exec_trapRingRoom, execTrapRingRoom, launch, room, if_true]
    exact finish_next stored'
  case told => exact giveOwed_room (List.mem_filter.mp hw).1 fits

end Sys2Proof.Machine
end

section
/-!
SUPPORT. How crews are dispatched, resumed, retired, succeeded and saved (R85, R103, R212 to R214, R236, R237, R260, R318 to R321).
-/

namespace Sys2Proof.Machine

/-! What a launch's entry into its camps changes. -/

/-- Nothing but the windows, queues and vaults of launches, the launches and the functions changes. -/
def OnlyEnters (s t : State) : Prop :=
  ∃ vaults queues windows launches funcs,
    t = { s with vaults := vaults, queues := queues, windows := windows, launches := launches, funcs := funcs }

theorem OnlyEnters.refl (s : State) : OnlyEnters s s := ⟨_, _, _, _, _, rfl⟩

theorem OnlyEnters.trans {s t u : State} (h : OnlyEnters s t) (k : OnlyEnters t u) : OnlyEnters s u := by
  obtain ⟨_, _, _, _, _, rfl⟩ := h
  obtain ⟨_, _, _, _, _, rfl⟩ := k
  exact ⟨_, _, _, _, _, rfl⟩

theorem OnlyEnters.bad {s t : State} (h : OnlyEnters s t) : t.bad = s.bad := by obtain ⟨_, _, _, _, _, rfl⟩ := h; rfl

theorem enterCamp_enters (s : State) (l : Launch) (camp : Nat) : OnlyEnters s (enterCamp s l camp) := by
  unfold enterCamp
  split
  · exact .refl s
  · exact ⟨_, _, _, _, _, rfl⟩

theorem foldl_enters {α : Type} {f : State → α → State} (hf : ∀ s a, OnlyEnters s (f s a)) (xs : List α) (s : State) :
    OnlyEnters s (xs.foldl f s) := by
  induction xs generalizing s with
  | nil => exact .refl s
  | cons x xs ih => exact (hf s x).trans (ih _)

theorem beginLaunch_enters (s : State) (l : Launch) : OnlyEnters s (beginLaunch s l) := by
  have opened : OnlyEnters s { s with windows := s.windows ++ l.decls } := ⟨_, _, _, _, _, rfl⟩
  exact (opened.trans (foldl_enters (fun s k => enterCamp_enters s l k) _ _)).trans ⟨_, _, _, _, _, rfl⟩

/-- The state in which a crew of a launch is dispatched in a camp: the launch has begun and entered the camp. -/
def entered (s : State) (l : Launch) (camp : Nat) : State := enterCamp (stopOver (if l.begun then s else beginLaunch s l) l.vf) l camp

theorem entered_enters (s : State) (l : Launch) (camp : Nat) : OnlyEnters s (entered s l camp) := by
  have begins : OnlyEnters s (if l.begun then s else beginLaunch s l) := by
    split
    · exact .refl s
    · exact beginLaunch_enters s l
  exact (begins.trans ⟨_, _, _, _, _, rfl⟩).trans (enterCamp_enters ..)

theorem dispatch_bad (s : State) (l : Launch) (stage core : Nat) : (dispatch s l stage core).bad = s.bad := by
  unfold dispatch
  dsimp only
  split
  · rfl
  · split <;> exact (entered_enters s l (core / 8)).bad

/-! Dispatch. -/

/-- A dispatched crew of stage 0 is the fresh crew of its kernel. -/
theorem dispatch_crews {s : State} {l : Launch} {core : Nat} {k : Kern} (kernel : launchKernel s l (nth0 l.stages 0) = some k) :
    (dispatch s l 0 core).crews = s.crews ++ [newCrew s l 0 (nth0 l.nextCrew 0) (nth0 l.stages 0) core k []] := by
  obtain ⟨_, _, _, _, _, same⟩ := entered_enters s l (core / 8)
  unfold entered at same
  simp only [dispatch, kernel, if_true, same]
  rfl

theorem getD_replicate_lt {α : Type} (x d : α) {n i : Nat} (lt : i < n) : (List.replicate n x).getD i d = x := by
  rw [List.getD_eq_getElem?_getD, List.getElem?_replicate_of_lt lt, Option.getD_some]

theorem getD_replicate_same {α : Type} (d : α) (n i : Nat) : (List.replicate n d).getD i d = d := by
  rcases Nat.lt_or_ge i n with lt | ge
  · exact getD_replicate_lt d d lt
  · exact getD_of_le d (by rwa [List.length_replicate])

/-- Every gang of a new crew stands at the kernel's entry. -/
theorem newCrew_gang (s : State) (l : Launch) (stage num entry core : Nat) {k : Kern} {j : Nat} (hj : j < k.gangs) :
    (newCrew s l stage num entry core k []).gang j = Gang.fresh k.mode k.pc (prioEnter s l.vf l.ctx k.pc 0) [] :=
  getD_replicate_lt _ _ hj

/-- Every lane of a fresh gang is fresh. -/
theorem freshGang_lane (mode : Mode) (pc : Pc) (prio : Nat) (g : List (Nat × BitVec 32)) {n : Nat} (hn : n < 32) :
    (Gang.fresh mode pc prio g).lane n = Lane.fresh mode pc :=
  getD_replicate_lt _ _ hn

/-- Every channel of a new crew is fresh. -/
theorem newCrew_channel (s : State) (l : Launch) (stage num entry core : Nat) (k : Kern) (r : List (BitVec 32)) (n : Nat) :
    (newCrew s l stage num entry core k r).channel n = Channel.fresh := by
  exact getD_replicate_same _ 8 n

/-- Settles O46: the crew that the landing adds is the fresh one. -/
theorem dispatchedCrewsStart : Obligations.DispatchedCrewsStart := by
  unfold Obligations.DispatchedCrewsStart
  intro s id core l k stored launch free may first lowest kernel fresh
  have runs : exec (.crewPlace id core) s = finish (dispatch s l 0 core) := by
    simp only [exec_crewPlace, execCrewPlace, launch, free, may, first, lowest, Bool.not_true, Bool.false_eq_true, if_false, if_true]
  have crews := dispatch_crews (core := core) kernel
  let c := newCrew s l 0 (nth0 l.nextCrew 0) (nth0 l.stages 0) core k []
  refine ⟨_, c, runs.trans (finish_next ((dispatch_bad ..).trans stored)), crews, rfl, rfl, rfl, rfl, rfl, List.length_replicate, rfl, rfl, rfl,
    fun o => ?scratch, fun n => ?channel, fun j hj => ?gang⟩
  case scratch =>
    have none : s.crews.find? (fun d => d.uid == c.uid) = none :=
      List.find?_eq_none.mpr fun d hd => fun same => fresh d hd (eq_of_beq same)
    have found : (dispatch s l 0 core).crew? c.uid = some c := by
      rw [State.crew?, crews, List.find?_append, none, Option.none_or, List.find?_cons_of_pos (by simp [c])]
    simp only [State.raw, found]
    rfl
  case channel =>
    rw [newCrew_channel]
    exact ⟨rfl, rfl⟩
  case gang =>
    rw [newCrew_gang s l 0 _ _ core hj]
    refine ⟨fun _ => rfl, List.length_replicate, ⟨_, rfl, rfl, rfl, rfl⟩, fun n hn => ?_⟩
    rw [freshGang_lane _ _ _ _ hn]
    refine ⟨rfl, rfl, rfl, rfl, fun _ => rfl, fun p _ => BitVec.getLsbD_zero, fun st => ?_⟩
    exact getD_replicate_same 0 8 st

/-! Retirement. -/

@[simp] theorem formCopies_uid (c : Crew) : (formCopies c).uid = c.uid := rfl

/-- The crew of a gang that retires. -/
def withoutGang (c : Crew) (k : Nat) : Crew := settleGangs (formCopies (c.setGang k { Gang.blank with arrived := [] }))

theorem foldl_crews {α : Type} {f : State → α → State} (hf : ∀ s a, (f s a).crews = s.crews) (xs : List α) (s : State) :
    (xs.foldl f s).crews = s.crews := by
  induction xs generalizing s with
  | nil => rfl
  | cons x xs ih => exact (ih _).trans (hf s x)

theorem State.setEndpoint_crews' (s : State) (e : Endpoint) : (s.setEndpoint e).crews = s.crews := by
  unfold State.setEndpoint
  split <;> rfl

/-- Settling changes a crew's own arrivals only. -/
theorem settleCrew_crews (s : State) (uid : Nat) : (settleCrew s uid).crews = (s.mapCrew uid settleGangs).crews := by
  unfold settleCrew
  dsimp only
  split
  · rfl
  · refine foldl_crews (fun t a => ?_) _ _
    split
    · rfl
    · split
      · rfl
      · exact State.setEndpoint_crews' ..

/-- The crew whose gang retires, after that. -/
theorem retireGang_crew {s : State} {uid k : Nat} {c : Crew} (crew : s.crew? uid = some c) :
    (retireGang s c k).crew? uid = some (withoutGang c k) := by
  let c1 := formCopies (c.setGang k { Gang.blank with arrived := [] })
  have uid : c1.uid = c.uid := rfl
  obtain rfl := State.crew?_uid crew
  have settles : (settleCrew (s.setCrew c1) c.uid).crew? c.uid = ((s.setCrew c1).mapCrew c.uid settleGangs).crew? c.uid := by
    rw [State.crew?, settleCrew_crews]
    rfl
  have put := State.crew?_setCrew s c1 c.uid
  rw [uid, if_pos rfl, crew] at put
  exact settles.trans ((State.crew?_mapCrew _ _ _ settleGangs fun _ => rfl).trans (by rw [if_pos rfl, put]; rfl))

/-- A gang of a resident crew that is not ending retires, unless its crew's record finds no room. -/
theorem exec_gangRetire_over {s : State} {uid k : Nat} {c : Crew} (crew : s.crew? uid = some c) (resident : c.isResident = true)
    (lives : c.terminating = false) (low : k < c.ngangs) (ended : gangOver (c.gang k) = true)
    (told : (decide (c.liveGangs = [k]) && c.succSet && successorCheck s c != 0 && !ringRoom s (c.ring s) 1) = false) :
    exec (.gangRetire uid k) s = finish (if (withoutGang c k).liveGangs.isEmpty then retireCrew (retireGang s c k) (withoutGang c k)
      else retireGang s c k) := by
  simp only [exec_gangRetire, execGangRetire, crew, resident, lives, ge_iff_le, Nat.not_le.mpr low, decide_false, ended, told,
    retireGang_crew crew, Bool.not_true, Bool.or_self, Bool.false_eq_true, if_false]

/-- A crew at rest keeps its uid. -/
theorem Crew.settled_uid (c : Crew) (tick : Nat) : (c.settled tick).uid = c.uid := by
  have completes : ∀ (os : List Op) (d : Crew), (os.foldl (fun c o => c.complete tick o) d).uid = d.uid := fun os => by
    induction os with
    | nil => exact fun _ => rfl
    | cons o os ih => exact fun d => (ih _).trans (Crew.complete_uid d tick o)
  exact completes _ _

/-- A crew as it stands in its save area, its slot freed. -/
def savedCrew (s : State) (c : Crew) (soft : Bool) (va : Nat) : Crew :=
  let c1 := c.settled s.tick
  { c1 with
    place := .saved soft va, home := c.camp, req := false, force := false, forced := 0#16, saveAt := none, slice := s.now, scratch := []
    channels := c1.channels.map Channel.afterSave
    gangs := c1.gangs.map fun g => { g with frontier := [], line := none, latchLive := 0#8, latches := [] } }

theorem savedCrew_uid (s : State) (c : Crew) (soft : Bool) (va : Nat) : (savedCrew s c soft va).uid = c.uid := Crew.settled_uid c s.tick

/-- Where the area can be written, the crew is saved there. -/
theorem saveCrew_written {s u : State} {c : Crew} {soft : Bool} {va : Nat} {w : Who} (target : saveTarget s c = some (soft, va, w))
    (written : deviceWrite s w va (areaBytes s c (c.settled s.tick)) = some u) :
    saveCrew s c = { u.setCrew (savedCrew s c soft va) with ringWait := u.ringWait.filter fun x => x.crew != c.uid || !x.recs.isEmpty } := by
  simp only [saveCrew, target, written, savedCrew]

/-- Settles O47: each event of the landing is one branch of its definition. -/
theorem crewsComeAndGo : Obligations.CrewsComeAndGo := by
  unfold Obligations.CrewsComeAndGo
  intro s stored
  refine ⟨fun id core l k launch free may stage early => ?later, fun id core l c k t launch holder pipe mine push leaves stored' => ?leave,
    fun uid core c va hd bs crew place lives free => ?resume, fun uid k c c1 crew resident lives low ended found => ?retire,
    fun uid c core e k crew place live waits lives kept ready => ?succeed,
    fun uid c crew resident lives => ⟨fun kept spent => ⟨fun wanted t asks stored' => ?wanted, fun unwanted allowed => ?unwanted⟩,
      fun req notForced due t expires stored' => ?deadline, fun may whole soft va w u target written stored' => ?save⟩⟩
  case later =>
    simp only [exec_crewPlace, execCrewPlace, launch, free, may, stage, early, Bool.not_true, Bool.false_eq_true, if_false]
    exact finish_next ((dispatch_bad ..).trans stored)
  case leave =>
    simp only [exec_crewPlace, execCrewPlace, launch, holder, push, pipe, mine, beq_self_eq_true, Bool.and_self, if_true, leaves]
    exact finish_next stored'
  case resume =>
    intro l w allowed tract camp earlier coop stop pledge share header area sizes t stored'
    have shared : (l.vf != 0 && (s.func l.vf).vfshare == 0#16) = false := by
      rcases share with zero | some
      · simp [zero]
      · simp [some]
    simp only [exec_crewResume, execCrewResume, crew, place]
    rw [if_neg (by simp [l, lives, free, allowed, tract, camp, earlier, coop, stop, pledge, shared])]
    dsimp only [l, w] at header area
    simp only [header, area, sizes, if_true]
    exact finish_next stored'
  case retire =>
    obtain rfl : withoutGang c k = c1 := Option.some.inj ((retireGang_crew crew).symm.trans found)
    have settled : (retireGang s c k).bad = none := (settleCrew_settles _ _).bad.trans stored
    refine ⟨fun more several => ?_, fun last none => ?_, fun last tells stored' => ?_⟩
    · rw [exec_gangRetire_over crew resident lives low ended (by simp [several]), if_neg (by simpa using more)]
      exact finish_next settled
    · rw [exec_gangRetire_over crew resident lives low ended (by simp [none]), if_pos (by simpa using last), retireCrew,
        if_pos (by rw [show (withoutGang c k).succSet = c.succSet from rfl, none]; rfl), ← State.crew?_uid crew]
      exact finish_next settled
    · rw [exec_gangRetire_over crew resident lives low ended (by rcases tells with h | h <;> simp [h]), if_pos (by simpa using last)]
      exact finish_next stored'
  case succeed =>
    intro r (kernel : kernelAt s c (recParam (c.task e).record 0) = some k)
    simp only [exec_successorStart, execSuccessorStart, crew, place, live, waits, lives, kept, ready, kernel, Bool.not_true, Bool.or_self,
      bne_self_eq_false, Bool.false_eq_true, if_false]
    exact finish_next stored
  case wanted =>
    have asked : (crewWaits s c.camp || !coreAllowed s (s.launchOf c) c.coreOf) = true := by simpa using wanted
    simp only [exec_quantumExpiry, execQuantumExpiry, crew, resident, lives, kept, Nat.not_lt.mpr spent, decide_false, asked, asks,
      Bool.not_true, Bool.or_self, Bool.false_eq_true, if_false, if_true]
    exact finish_next stored'
  case unwanted =>
    simp only [exec_quantumExpiry, execQuantumExpiry, crew, resident, lives, kept, Nat.not_lt.mpr spent, decide_false, unwanted, allowed,
      Bool.not_true, Bool.or_self, Bool.false_eq_true, if_false]
    exact finish_next stored
  case deadline =>
    simp only [exec_deadlineExpiry, execDeadlineExpiry, crew, resident, req, notForced, lives, due, expires, decide_true, Bool.not_false,
      Bool.and_self, if_true, Option.getD_some]
    exact finish_next stored'
  case save =>
    have saves : exec (.crewSave uid) s = finish (saveCrew s c) := by
      simp only [exec_crewSave, execCrewSave, crew, may, whole, Bool.not_true, Bool.not_false, Bool.false_eq_true, if_false, if_true]
    rw [saveCrew_written target written] at saves
    refine ⟨_, savedCrew s c soft va, saves.trans (finish_next stored'), ?_, rfl, rfl, rfl, rfl⟩
    refine (State.crew?_setCrew u (savedCrew s c soft va) uid).trans ?_
    rw [savedCrew_uid, if_pos (State.crew?_uid crew).symm, State.crew?, (deviceWrite_writes written).crews, State.crew?_uid crew]
    exact congrArg (Option.map _) crew

end Sys2Proof.Machine
end

section
/-!
SUPPORT. How launches are taken, complete, are cancelled and fail (R215, R376, R379, R380, R390).
-/

namespace Sys2Proof.Machine

/-- A record that a queue holds is taken. -/
theorem exec_launchTake_held {s : State} {vf ctx queue : Nat} {desc : CtxDesc} (table : readDesc s vf ctx = some desc)
    (works : accepts s vf = true) (low : queue < 8) (held : ringUsed (s.ctxAt vf ctx) queue ≠ 0) :
    exec (.launchTake vf ctx queue) s = finish (takeLaunch s vf ctx queue desc) := by
  simp only [exec_launchTake, execLaunchTake, table, works, low, held, ne_eq, not_false_eq_true, decide_true, Bool.and_self, if_true]

/-- Where both rings have room, a page of a world that fails its check writes its record in each, and the world ends. -/
theorem exec_gcmCheckFail_room {s u : State} {id va : Nat} {l : Launch} {lf : Leaf} (launch : s.launch? id = some l) (runs : l.done = false)
    (world : l.world = true) (page : translate s (l.who 576) 0 va = (u, .ok lf)) (prot : lf.prot = true) (room : ringRoom s l.ring 1 = true)
    (roomPf : ringRoom (putRecord s l.ring (recordBytes l.ring s.tick (deviceRecord 0x23 2 va (lf.pa % 2 ^ 32) (lf.pa / 2 ^ 32))))
      (pfRing (putRecord s l.ring (recordBytes l.ring s.tick (deviceRecord 0x23 2 va (lf.pa % 2 ^ 32) (lf.pa / 2 ^ 32))))) 1 = true) :
    exec (.gcmCheckFail id va) s =
      let bs := recordBytes l.ring s.tick (deviceRecord 0x23 2 va (lf.pa % 2 ^ 32) (lf.pa / 2 ^ 32))
      let s1 := putRecord s l.ring bs
      finish (tearDown (putRecord s1 (pfRing s1) bs) id) := by
  have told := giveRecords_room (s := s) (r := l.ring) (recs := [deviceRecord 0x23 2 va (lf.pa % 2 ^ 32) (lf.pa / 2 ^ 32)]) 0 none .notice
    (fun s => s) room
  have sameTick := (putRecord_writes s l.ring (recordBytes l.ring s.tick (deviceRecord 0x23 2 va (lf.pa % 2 ^ 32) (lf.pa / 2 ^ 32)))).tick
  simp only [exec_gcmCheckFail, execGcmCheckFail, launch, world, runs, page, prot, told, Bool.not_true, Bool.or_self, Bool.false_eq_true,
    if_false, writeRecords, List.foldl_cons, List.foldl_nil, writeRecord, tellPf, roomPf, if_true, sameTick]

/-- Settles O48: each event of a launch is one branch of its definition. -/
theorem launchesRun : Obligations.LaunchesRun := by
  unfold Obligations.LaunchesRun
  intro s stored
  refine ⟨fun vf ctx queue desc table works low held => ⟨fun passes => ?taken, fun fails stored' => ?refused⟩, fun id l launch runs =>
    ⟨fun spent stored' => ?completed, fun alive t stops stored' => ?cancelled, fun va u lf world page prot room roomPf stored' => ?failed⟩⟩
  case taken =>
    rw [exec_launchTake_held table works low held, takeLaunch, if_pos passes]
    exact finish_next ((State.setCtx_bad _ _).trans stored)
  case refused =>
    rw [exec_launchTake_held table works low held, takeLaunch, if_neg fails]
    exact finish_next stored'
  case completed =>
    simp only [exec_launchCompletion, execLaunchCompletion, launch, runs, spent, Bool.not_false, Bool.and_self, if_true]
    exact finish_next stored'
  case cancelled =>
    simp only [exec_launchCancel, execLaunchCancel, launch, runs, alive, bne_self_eq_false, Bool.or_self, Bool.false_eq_true, if_false]
    rw [show stopCrews _ id = t from stops]
    exact finish_next stored'
  case failed =>
    rw [exec_gcmCheckFail_room launch runs world page prot room roomPf]
    exact finish_next stored'

end Sys2Proof.Machine
end

section
/-!
SUPPORT. The debug port, the TDISP machine and function-level reset (R164, R333, R334, R375, R392, R393).
-/

namespace Sys2Proof.Machine

/-! The debug port. -/

/-- A debug operation on a gang of the crew resident on a core. -/
theorem debugOn_resident {s : State} {core k : Nat} {c : Crew} (f : Crew → Gang → State) (resident : s.resident? core = some c) (low : k < c.ngangs) :
    debugOn s core k f = if guarded s (s.launchOf c).vf then finish (enterError s (s.launchOf c).vf) else finish (f c (c.gang k)) := by
  simp only [debugOn, resident, ge_iff_le, Nat.not_le.mpr low, if_false]

/-- Settles O52: each operation acts on the resident gang, unless its VF is guarded. -/
theorem debugActs : Obligations.DebugActs := by
  unfold Obligations.DebugActs
  intro s core k item value c stored resident low
  have acts := fun f => debugOn_resident f resident low
  refine ⟨fun unguarded => ⟨fun live runs => ?stop, fun stopped => ?resume, fun runs => ?withdraw, ?read, fun runs => ?refused,
    fun stopped live lane => ?write⟩, fun guards stored' i hi => ?guarded⟩
  case stop =>
    simp only [exec_debugStop, execDebugStop, acts, unguarded, live, runs, Bool.or_self, Bool.false_eq_true, if_false]
    exact finish_next stored
  case resume =>
    simp only [exec_debugResume, execDebugResume, acts, unguarded, stopped, if_true, Bool.false_eq_true, if_false]
    exact finish_next stored
  case withdraw =>
    simp only [exec_debugResume, execDebugResume, acts, unguarded, runs, Bool.false_eq_true, if_false]
    exact finish_next stored
  case read =>
    simp only [exec_debugRead, execDebugRead, acts, unguarded, Bool.false_eq_true, if_false]
    exact finish_next stored
  case refused =>
    simp only [exec_debugWrite, execDebugWrite, acts, unguarded, runs, Bool.not_false, Bool.true_or, if_true, Bool.false_eq_true, if_false]
    exact finish_next stored
  case write =>
    simp only [exec_debugWrite, execDebugWrite, acts, unguarded, stopped, live, Nat.not_le.mpr lane, decide_false, Bool.not_true, Bool.or_self,
      Bool.false_eq_true, if_false]
    exact finish_next stored
  case guarded =>
    simp only [List.mem_cons, List.not_mem_nil, or_false] at hi
    rcases hi with rfl | rfl | rfl | rfl
    all_goals
      simp only [exec_debugStop, execDebugStop, exec_debugResume, execDebugResume, exec_debugRead, execDebugRead, exec_debugWrite,
        execDebugWrite, acts, guards, if_true]
      exact finish_next stored'

/-! The end of a function-level reset. -/

/-- What an update keeps it keeps one after another. -/
theorem foldl_view {α β : Type} (view : State → β) {f : State → α → State} (hf : ∀ s a, view (f s a) = view s) (xs : List α) (s : State) :
    view (xs.foldl f s) = view s := by
  induction xs generalizing s with
  | nil => rfl
  | cons x xs ih => exact (ih _).trans (hf s x)

/-- The crews that stay where some are dropped by their uids. -/
theorem mem_foldl_dropCrew {cs : List Crew} {s : State} {c : Crew} :
    c ∈ (cs.foldl (fun s c => dropCrew s c.uid) s).crews ↔ c ∈ s.crews ∧ ∀ d ∈ cs, c.uid ≠ d.uid := by
  induction cs generalizing s with
  | nil => simp
  | cons d ds ih =>
    rw [List.foldl_cons, ih]
    simp [dropCrew, and_assoc]

/-- What a reset leaves alone until its end: functions, crews and keys. -/
def State.held (s : State) : List Func × List Crew × List (Nat × Nat) := (s.funcs, s.crews, s.keySlots)

theorem dropWorld_held (s : State) (id : Nat) : (dropWorld s id false).held = s.held := by
  have undo : ∀ (s : State) (l : L2Line), (undoLine s l).held = s.held := fun s l => by
    unfold undoLine
    split <;> rfl
  exact foldl_view State.held undo (s.l2.filter fun x => x.world == some id) s

theorem ownsSlot_congr {s t : State} (funcs : t.funcs = s.funcs) (vf slot : Nat) : ownsSlot t vf slot = ownsSlot s vf slot := by
  have same : t.func vf = s.func vf := by simp only [State.func, funcs]
  rw [ownsSlot, same]
  rfl

/-- The last steps of a reset: the VF's crews and keys go, and its function is quiescent. -/
theorem resetRest_held (s : State) (vf : Nat) : (resetRest s vf).held =
    (modifyNth s.funcs vf fun f => { f with
        resetting := false, quiesced := true, reqs := [], err := f.tdisp != .unlocked
        tdisp := match f.tdisp with
          | .unlocked => .unlocked
          | _ => .error },
      ((crewsOf s vf).foldl (fun s c => dropCrew s c.uid) s).crews, s.keySlots.filter fun e => !(ownsSlot s vf e.1)) := by
  let s1 := (crewsOf s vf).foldl (fun s c => dropCrew s c.uid) s
  let ls := s1.launches.filter fun l => l.vf == vf && !l.done
  let s2 := ls.foldl (fun s l => if l.world then dropWorld s l.id false else s) s1
  let s3 := { s2 with keySlots := s2.keySlots.filter fun e => !(ownsSlot s2 vf e.1) }
  let s4 := ls.foldl (fun s l => releaseLaunch s l.id) (tlbDrop s3 (.vf vf))
  have dropped : (s1.funcs, s1.keySlots) = (s.funcs, s.keySlots) :=
    foldl_view (fun s => (s.funcs, s.keySlots)) (f := fun s c => dropCrew s c.uid) (fun _ _ => rfl) (crewsOf s vf) s
  have worlds : s2.held = s1.held := by
    refine foldl_view State.held (fun s l => ?_) ls s1
    split
    · exact dropWorld_held ..
    · rfl
  have released : s4.held = s3.held :=
    foldl_view State.held (f := fun s l => releaseLaunch s l.id) (fun _ _ => rfl) ls (tlbDrop s3 (.vf vf))
  obtain ⟨funcs1, keys1⟩ := Prod.ext_iff.mp dropped
  simp only [State.held, Prod.ext_iff] at worlds released
  obtain ⟨funcs2, crews2, keys2⟩ := worlds
  obtain ⟨funcs4, crews4, keys4⟩ := released
  have funcs : s2.funcs = s.funcs := funcs2.trans funcs1
  have keys : s3.keySlots = s.keySlots.filter fun e => !(ownsSlot s vf e.1) := by
    simp only [s3, keys2.trans keys1, ownsSlot_congr funcs]
  refine Prod.ext ?_ (Prod.ext (crews4.trans crews2) (keys4.trans keys))
  exact congrArg (fun fs => modifyNth fs vf _) (funcs4.trans funcs)

/-- Settles O51: each request is one branch of the table, and the last steps of a reset leave what they say. -/
theorem tdispTransitions : Obligations.TdispTransitions := by
  unfold Obligations.TdispTransitions
  intro s vf stored low high ready
  have here : isVf s vf = true := by simp [isVf, low, high, ready]
  refine ⟨fun state calm => ?lock, fun state => ?lockNot, fun state calm => ?start, fun state => ?startNot, fun state => ?leave,
    fun state => ?stopNot, fun state => ?ideNot, fun state stored' => ?error, fun stored' => ?reset, fun resets calm known => ?ends⟩
  case lock =>
    simp only [exec_lockInterfaceRequest, execLockInterfaceRequest, here, state, calm, beq_self_eq_true, Bool.not_false, Bool.and_self, if_true]
    exact finish_next stored
  case lockNot =>
    simp only [exec_lockInterfaceRequest, execLockInterfaceRequest, beq_eq_false_iff_ne.mpr state, Bool.and_false, Bool.false_and,
      Bool.false_eq_true, if_false]
    exact finish_next stored
  case start =>
    simp only [exec_startInterfaceRequest, execStartInterfaceRequest, here, state, calm, beq_self_eq_true, Bool.not_false, Bool.and_self,
      if_true]
    exact finish_next stored
  case startNot =>
    simp only [exec_startInterfaceRequest, execStartInterfaceRequest, beq_eq_false_iff_ne.mpr state, Bool.and_false, Bool.false_and,
      Bool.false_eq_true, if_false]
    exact finish_next stored
  case leave =>
    simp only [exec_stopInterfaceRequest, execStopInterfaceRequest, here, guarded, state, beq_self_eq_true, Bool.true_and]
    cases (s.func vf).quiesced <;> exact finish_next stored
  case stopNot =>
    simp only [exec_stopInterfaceRequest, execStopInterfaceRequest, here, guarded, state]
    exact finish_next stored
  case ideNot =>
    have free : guarded s vf = false := by rcases state with state | state <;> simp only [guarded, state] <;> rfl
    simp only [exec_ideStreamFailure, execIdeStreamFailure, free, Bool.and_false, Bool.false_eq_true, if_false]
    exact finish_next stored
  case error =>
    have guards : guarded s vf = true := by rcases state with state | state <;> simp only [guarded, state] <;> rfl
    simp only [exec_stopInterfaceRequest, execStopInterfaceRequest, exec_ideStreamFailure, execIdeStreamFailure, here, guards, Bool.not_true,
      Bool.false_eq_true, if_false, Bool.and_self, if_true]
    exact ⟨finish_next stored', finish_next stored'⟩
  case reset =>
    simp only [exec_functionLevelReset, execFunctionLevelReset]
    rw [if_neg (by omega)]
    exact finish_next stored'
  case ends =>
    have rest : resetOrder s vf = resetRest s vf := by
      simp only [resetOrder, resets, if_true, calm, Bool.false_eq_true, if_false]
    intro t
    have held : t.held = _ := (congrArg State.held rest).trans (resetRest_held s vf)
    simp only [State.held, Prod.ext_iff] at held
    obtain ⟨funcs, crews, keys⟩ := held
    have func : t.func vf = _ := (congrArg (fun fs => fs.getD vf (Func.fresh vf)) funcs).trans ((modifyNth_getD ..).trans (if_pos ⟨rfl, known⟩))
    refine ⟨by rw [func], by rw [func], ?_, ?_, fun e he => ?_, fun c hc own => ?_⟩
    · rw [func]
      show ((s.func vf).tdisp != .unlocked) = decide ((s.func vf).tdisp ≠ .unlocked)
      cases (s.func vf).tdisp <;> rfl
    · rw [func]
      rw [show s.funcs.getD vf (Func.fresh vf) = s.func vf from rfl]
      cases (s.func vf).tdisp <;> rfl
    · rw [keys] at he
      simpa using (List.mem_filter.mp he).2
    · rw [crews, mem_foldl_dropCrew] at hc
      obtain ⟨stays, kept⟩ := hc
      exact kept c (List.mem_filter.mpr ⟨stays, by simpa using own⟩) rfl

end Sys2Proof.Machine
end

section
/-!
SUPPORT. What the host writes and reads (R295, R374, R375, R380, R389, R394 to R397, R402, R409).
-/

namespace Sys2Proof.Machine

/-! Endpoints. -/

theorem State.endpoint_bar (s : State) (b : BarId) : (s.endpoint b).bar = b := by
  unfold State.endpoint
  cases found : s.strings.find? fun e => e.bar == b with
  | none => rfl
  | some e => simpa using List.find?_some found

theorem State.setEndpoint_endpoint (s : State) (e : Endpoint) (b : BarId) :
    (s.setEndpoint e).endpoint b = if b = e.bar then e else s.endpoint b := by
  unfold State.setEndpoint
  split
  case isTrue known =>
    have same : ((fun d : Endpoint => d.bar == b) ∘ fun d => if d.bar = e.bar then e else d) = fun d => d.bar == b := by
      funext d
      simp only [Function.comp_apply]
      split
      · rw [‹d.bar = e.bar›]
      · rfl
    rw [State.endpoint, List.find?_map, same, State.endpoint]
    cases found : s.strings.find? fun d => d.bar == b with
    | none =>
      obtain ⟨d, hd, at_⟩ := List.any_eq_true.mp known
      rw [if_neg]
      · rfl
      · rintro rfl
        exact absurd at_ (List.find?_eq_none.mp found d hd)
    | some d =>
      obtain rfl : d.bar = b := by simpa using List.find?_some found
      simp only [Option.map_some, Option.getD_some]
  case isFalse unknown =>
    rw [State.endpoint, List.find?_append, State.endpoint]
    by_cases own : b = e.bar
    · subst own
      have none : s.strings.find? (fun d => d.bar == e.bar) = none :=
        List.find?_eq_none.mpr fun d hd at_ => unknown (List.any_eq_true.mpr ⟨d, hd, at_⟩)
      simp [none]
    · have other : (e.bar == b) = false := by simpa using fun h => own h.symm
      simp [own, other]

/-! The groups of barriers whose phase runs (R409). -/

theorem barGroup_fabric (s : State) (ctx g n : Nat) :
    barGroup s (.fabric ctx g n) = (s.endpoint (.fabric ctx g n)).fgrp.getD (groupWords s g) := by
  unfold barGroup
  cases (s.endpoint (.fabric ctx g n)).fgrp <;> rfl

/-- Nothing but the endpoints changes, and of these no phase, arrival or group; a group that is kept stays so. -/
structure KeepsGroups (s t : State) : Prop where
  only : ∃ strings, t = { s with strings := strings }
  phase : ∀ b, (t.endpoint b).phase = (s.endpoint b).phase
  crews : ∀ b, (t.endpoint b).crews = (s.endpoint b).crews
  group : ∀ b, barGroup t b = barGroup s b
  kept : ∀ b, (s.endpoint b).fgrp.isSome = true → (t.endpoint b).fgrp.isSome = true

theorem KeepsGroups.refl (s : State) : KeepsGroups s s := ⟨⟨_, rfl⟩, fun _ => rfl, fun _ => rfl, fun _ => rfl, fun _ h => h⟩

theorem KeepsGroups.trans {s t u : State} (h : KeepsGroups s t) (k : KeepsGroups t u) : KeepsGroups s u := by
  refine ⟨?_, fun b => (k.phase b).trans (h.phase b), fun b => (k.crews b).trans (h.crews b), fun b => (k.group b).trans (h.group b),
    fun b some => k.kept b (h.kept b some)⟩
  obtain ⟨_, rfl⟩ := h.only
  obtain ⟨_, rfl⟩ := k.only
  exact ⟨_, rfl⟩

theorem foldl_keepsGroups {α : Type} {f : State → α → State} (hf : ∀ s a, KeepsGroups s (f s a)) (xs : List α) (s : State) :
    KeepsGroups s (xs.foldl f s) := by
  induction xs generalizing s with
  | nil => exact .refl s
  | cons x xs ih => exact (hf s x).trans (ih _)

/-- What a member of a list brings about, and every later member keeps, holds at the end. -/
theorem foldl_establishes {α : Type} {f : State → α → State} {P : State → Prop} (stays : ∀ s a, P s → P (f s a)) {x : α}
    (makes : ∀ s, P (f s x)) {xs : List α} (member : x ∈ xs) (s : State) : P (xs.foldl f s) := by
  induction xs generalizing s with
  | nil => cases member
  | cons y ys ih =>
    rcases List.mem_cons.mp member with rfl | later
    · have keeps : ∀ (zs : List α) (t : State), P t → P (zs.foldl f t) := fun zs => by
        induction zs with
        | nil => exact fun _ h => h
        | cons z zs ih => exact fun t h => ih _ (stays t z h)
      exact keeps ys _ (makes s)
    · exact ih later _

/-- One barrier of a group keeps the registers of its phase. -/
def keepBarrier (g ctx : Nat) (s : State) (n : Nat) : State :=
  let e := s.endpoint (.fabric ctx g n)
  s.setEndpoint { e with fgrp := some (e.fgrp.getD (groupWords s g)) }

theorem keepBarrier_endpoint (g ctx : Nat) (s : State) (n : Nat) (b : BarId) : (keepBarrier g ctx s n).endpoint b =
    if b = .fabric ctx g n then { s.endpoint (.fabric ctx g n) with fgrp := some ((s.endpoint (.fabric ctx g n)).fgrp.getD (groupWords s g)) }
    else s.endpoint b := by
  rw [keepBarrier, State.setEndpoint_endpoint]
  simp only [State.endpoint_bar]

theorem keepBarrier_keeps (g ctx : Nat) (s : State) (n : Nat) : KeepsGroups s (keepBarrier g ctx s n) := by
  have only : ∃ strings, keepBarrier g ctx s n = { s with strings := strings } := by
    unfold keepBarrier State.setEndpoint
    dsimp only
    split <;> exact ⟨_, rfl⟩
  refine ⟨only, fun b => ?_, fun b => ?_, fun b => ?_, fun b some => ?_⟩
  · rw [keepBarrier_endpoint]
    split
    · rename_i same; rw [same]
    · rfl
  · rw [keepBarrier_endpoint]
    split
    · rename_i same; rw [same]
    · rfl
  · have words : ∀ g', groupWords (keepBarrier g ctx s n) g' = groupWords s g' := fun _ => by
      obtain ⟨_, same⟩ := only
      rw [same]
      rfl
    by_cases same : b = .fabric ctx g n
    · subst same
      simp only [barGroup, keepBarrier_endpoint, if_true]
      cases (s.endpoint (.fabric ctx g n)).fgrp <;> rfl
    · unfold barGroup
      rw [keepBarrier_endpoint, if_neg same]
      simp only [words]
  · rw [keepBarrier_endpoint]
    split
    · rfl
    · exact some

theorem keepGroup_eq (s : State) (g : Nat) : keepGroup s g = (s.launches.filter fun l => l.begun && !l.done && l.fgroup == g).foldl
    (fun (s : State) (l : Launch) => ((List.range 64).filter l.fbar.getLsbD).foldl (keepBarrier g l.ctx) s) s := rfl

theorem keepGroup_keeps (s : State) (g : Nat) : KeepsGroups s (keepGroup s g) := by
  rw [keepGroup_eq]
  exact foldl_keepsGroups (fun s (l : Launch) => foldl_keepsGroups (keepBarrier_keeps g l.ctx) _ s) _ s

/-- The barriers of a group's running launches keep it. -/
theorem keepGroup_kept {s : State} {l : Launch} (mem : l ∈ s.launches) (begun : l.begun = true) (runs : l.done = false) {m : Nat} (low : m < 64)
    (uses : l.fbar.getLsbD m = true) : ((keepGroup s l.fgroup).endpoint (.fabric l.ctx l.fgroup m)).fgrp.isSome = true := by
  rw [keepGroup_eq]
  refine foldl_establishes (P := fun t => (t.endpoint (.fabric l.ctx l.fgroup m)).fgrp.isSome = true)
    (fun s d some => (foldl_keepsGroups (keepBarrier_keeps l.fgroup d.ctx) _ s).kept _ some) (x := l) (fun s => ?_)
    (List.mem_filter.mpr ⟨mem, by simp [begun, runs]⟩) s
  refine foldl_establishes (P := fun t => (t.endpoint (.fabric l.ctx l.fgroup m)).fgrp.isSome = true)
    (fun s n some => (keepBarrier_keeps l.fgroup l.ctx s n).kept _ some) (x := m) (fun s => ?_)
    (List.mem_filter.mpr ⟨List.mem_range.mpr low, uses⟩) s
  rw [keepBarrier_endpoint, if_pos rfl]
  rfl

/-- A register of a group is written: the phases that run keep the old group. -/
theorem groupWrite {s t : State} {g n : Nat} {w : BitVec 64} (low : n < 4)
    (writes : t = { keepGroup s g with fgrp := sput 0#64 s.fgrp (4 * g + n) w }) :
    (∀ k, sget 0#64 t.fgrp k = if k = 4 * g + n then w else sget 0#64 s.fgrp k) ∧
    (∀ b, (t.endpoint b).phase = (s.endpoint b).phase ∧ (t.endpoint b).crews = (s.endpoint b).crews) ∧
    (∀ l ∈ s.launches, l.begun = true → l.done = false → ∀ m, m < 64 → l.fbar.getLsbD m = true →
      barGroup t (.fabric l.ctx l.fgroup m) = barGroup s (.fabric l.ctx l.fgroup m)) ∧
    { t with fgrp := s.fgrp, strings := s.strings } = s := by
  subst writes
  have keeps := keepGroup_keeps s g
  refine ⟨fun k => sget_sput .., fun b => ⟨keeps.phase b, keeps.crews b⟩, fun l mem begun runs m small uses => ?_, ?_⟩
  · rw [← keeps.group]
    by_cases same : l.fgroup = g
    · subst same
      obtain ⟨ws, some⟩ := Option.isSome_iff_exists.mp (keepGroup_kept mem begun runs small uses)
      rw [barGroup_fabric, barGroup_fabric, some]
      exact congrArg (Option.getD · _) some
    · have words : groupWords { keepGroup s g with fgrp := sput 0#64 s.fgrp (4 * g + n) w } l.fgroup = groupWords (keepGroup s g) l.fgroup := by
        obtain ⟨_, only⟩ := keeps.only
        refine List.map_congr_left fun k hk => ?_
        have small := List.mem_range.mp hk
        rw [only]
        exact (sget_sput ..).trans (if_neg (by omega))
      rw [barGroup_fabric, barGroup_fabric, words]
      rfl
  · obtain ⟨_, only⟩ := keeps.only
    rw [only]

/-! What the host reads. -/

/-- An offset of the PF's own blocks is read there. -/
theorem hostRead_pf {s : State} {off : Nat} (works : answers s 0 = true) (aligned : off % 8 = 0) (high : 0x020 < off) :
    hostRead s 0 off = pfRead s off := by
  unfold hostRead
  simp only [works, aligned, Bool.not_true, bne_self_eq_false, Bool.or_self, Bool.false_eq_true, if_false]
  split
  case h_5 => rfl
  all_goals omega

/-- A write of a page that answers, at an aligned offset. -/
theorem exec_registerWrite_answers {s : State} {vf off value : Nat} (works : answers s vf = true) (aligned : off % 8 = 0) :
    exec (.registerWrite vf off value) s = finish (if off = 0x008 then s.mapFunc vf fun f => { f with ctxtbl := BitVec.ofNat 64 value }
      else if off = 0x010 then s.mapFunc vf fun f => { f with admq := BitVec.ofNat 64 (bits value 63 12 * 2 ^ 12 + value % 16) }
      else if vf = 0 then pfWrite s off value else s) := by
  simp only [exec_registerWrite, execRegisterWrite, works, aligned, Bool.not_true, bne_self_eq_false, Bool.or_self, Bool.false_eq_true, if_false]

/-- A write of the PF's own blocks. -/
theorem exec_registerWrite_pf {s : State} {off value : Nat} (works : answers s 0 = true) (aligned : off % 8 = 0) (high : 0x010 < off) :
    exec (.registerWrite 0 off value) s = finish (pfWrite s off value) := by
  rw [exec_registerWrite_answers works aligned, if_neg (by omega), if_neg (by omega), if_pos rfl]

theorem resendHeld_stored {s t : State} (h : s.bad = t.bad) (stored : Stored t) : (resendHeld s).bad = none :=
  (resendHeld_bad s).trans (h.trans stored)

/-- The doorbells and the function's own registers. -/
theorem functionWrites {s : State} {vf value : Nat} (stored : Stored s) (works : answers s vf = true) :
    let vfOf := fun (f : Func → Func) => Host.Outcome.next (φ := Fault) (ρ := Refusal) (s.mapFunc vf f)
    exec (.admprod vf value) s = vfOf (fun f => { f with admprod := value % 2 ^ 32 }) ∧
    (value % 2 = 1 → exec (.priclr vf value) s = vfOf fun f => { f with prifail := false }) ∧
    exec (.registerWrite vf 0x008 value) s = vfOf (fun f => { f with ctxtbl := BitVec.ofNat 64 value }) ∧
    exec (.registerWrite vf 0x010 value) s = vfOf (fun f => { f with admq := BitVec.ofNat 64 (bits value 63 12 * 2 ^ 12 + value % 16) }) := by
  refine ⟨?_, fun set => ?_, ?_, ?_⟩
  · simp only [exec_admprod, execAdmprod, works, if_true]
    exact finish_next stored
  · simp only [exec_priclr, execPriclr, works, bit, Nat.pow_zero, Nat.div_one, set, beq_self_eq_true, Bool.and_self, if_true]
    exact finish_next stored
  · rw [exec_registerWrite_answers works (by rfl), if_pos rfl]
    exact finish_next stored
  · rw [exec_registerWrite_answers works (by rfl), if_neg (by omega), if_pos rfl]
    exact finish_next stored

/-- A control register is written, unless its VF is guarded. -/
theorem exec_vfControlWrite_answers {s : State} {vf : Nat} (r : VfReg) (value : Nat) (works : answers s 0 = true) (low : 1 ≤ vf) (high : vf < 64) :
    exec (.vfControlWrite vf r value) s = if guarded s vf then finish (enterError s vf) else finish (s.mapFunc vf fun f => match r with
      | .vfshare => { f with vfshare := BitVec.ofNat 16 value }
      | .part => { f with part := BitVec.ofNat 64 value }
      | .s2root => { f with s2root := bits value 51 15 * 2 ^ 15 }
      | .keys => { f with keys := BitVec.ofNat 21 (bits value 9 0 + bits value 20 16 * 2 ^ 16) }) := by
  have vfOnly : (!answers s 0 || decide (vf = 0) || decide (64 ≤ vf)) = false := by
    simp [works, Nat.not_le.mpr high, Nat.ne_of_gt low]
  exact (congrArg finish (if_neg (by simp [vfOnly]))).trans (apply_ite finish _ _ _)

/-- LOGCTL of a VF is written. -/
theorem logctl_answers {s : State} {vf : Nat} (f : Func → Func) (works : answers s 0 = true) (low : 1 ≤ vf) (high : vf < 64) :
    logctl s vf f = finish (s.mapFunc vf f) := by
  simp only [logctl, works, low, high, decide_true, Bool.and_self, if_true]

/-- An aligned write that no list names changes nothing. -/
theorem pfWrite_unlisted {s : State} {off value : Nat} (aligned : off % 8 = 0)
    (unlisted : ¬((∃ v, 1 ≤ v ∧ v < 64 ∧ off = 0x1000 + 128 * v + 0x20) ∨ (∃ t, t < 8 ∧ off = 0x4400 + 8 * t) ∨ off = 0x5000 ∨
      (∃ m, m < 256 ∧ off = 0x5800 + 8 * m) ∨ ∃ n, n < 256 ∧ off = 0x6000 + 8 * n)) : pfWrite s off value = s := by
  simp only [not_or, not_exists, not_and] at unlisted
  obtain ⟨notLog, notPower, notId, notRoute, notGroup⟩ := unlisted
  have log := notLog ((off - 0x1000) / 128)
  have power := notPower ((off - 0x4400) / 8)
  have route := notRoute ((off - 0x5800) / 8)
  have group := notGroup ((off - 0x6000) / 8)
  rw [pfWrite, if_neg (by omega), if_neg (by omega), if_neg notId, if_neg (by omega), if_neg (by omega)]

/-! What a write of each of the PF's blocks does. -/

theorem pfWrite_log {s : State} {v value : Nat} (low : 1 ≤ v) (high : v < 64) : pfWrite s (0x1000 + 128 * v + 0x20) value =
    s.mapFunc v fun f => { f with logbase := BitVec.ofNat 64 (bits value 51 12 * 2 ^ 12 + value % 16) } := by
  have block : (0x1000 + 128 * v + 0x20 - 0x1000) / 128 = v := by omega
  have listed : 0x1080 ≤ 0x1000 + 128 * v + 0x20 ∧ 0x1000 + 128 * v + 0x20 < 0x3000 ∧ (0x1000 + 128 * v + 0x20) % 128 = 0x20 := by omega
  generalize 0x1000 + 128 * v + 0x20 = off at *
  rw [pfWrite, if_pos listed, block]

theorem pfWrite_power {s : State} {k value : Nat} (low : k < 8) : pfWrite s (0x4400 + 8 * k) value =
    if 100 ≤ value % 2 ^ 16 ∧ value % 2 ^ 16 ≤ 600 then { s with power := sput 400#16 s.power k (BitVec.ofNat 16 value) } else s := by
  have register : (0x4400 + 8 * k - 0x4400) / 8 = k := by omega
  have listed : 0x4400 ≤ 0x4400 + 8 * k ∧ 0x4400 + 8 * k < 0x4440 := by omega
  have limit : BitVec.ofNat 16 (value % 2 ^ 16) = BitVec.ofNat 16 value := BitVec.eq_of_toNat_eq (by simp)
  generalize 0x4400 + 8 * k = off at *
  rw [pfWrite, if_neg (by omega), if_pos listed, register]
  dsimp only
  rw [limit]

theorem pfWrite_fabid (s : State) (value : Nat) : pfWrite s 0x5000 value = resendHeld { s with fabid := BitVec.ofNat 8 value } := by
  rw [pfWrite, if_neg (by omega), if_neg (by omega), if_pos rfl]

theorem pfWrite_route {s : State} {k value : Nat} (low : k < 256) : pfWrite s (0x5800 + 8 * k) value =
    resendHeld { s with routes := sput 0#64 s.routes k (BitVec.ofNat 64 (bits value 63 63 * 2 ^ 63 + bits value 17 0)) } := by
  have register : (0x5800 + 8 * k - 0x5800) / 8 = k := by omega
  have listed : 0x5800 ≤ 0x5800 + 8 * k ∧ 0x5800 + 8 * k < 0x6000 := by omega
  generalize 0x5800 + 8 * k = off at *
  rw [pfWrite, if_neg (by omega), if_neg (by omega), if_neg (by omega), if_pos listed, register]

theorem pfWrite_group {s : State} {g n value : Nat} (small : g < 64) (low : n < 4) : pfWrite s (0x6000 + 32 * g + 8 * n) value =
    { keepGroup s g with fgrp := sput 0#64 s.fgrp (4 * g + n) (BitVec.ofNat 64 value) } := by
  have register : (0x6000 + 32 * g + 8 * n - 0x6000) / 8 = 4 * g + n := by omega
  have group : (4 * g + n) / 4 = g := by omega
  have listed : 0x6000 ≤ 0x6000 + 32 * g + 8 * n ∧ 0x6000 + 32 * g + 8 * n < 0x6800 := by omega
  generalize 0x6000 + 32 * g + 8 * n = off at *
  rw [pfWrite, if_neg (by omega), if_neg (by omega), if_neg (by omega), if_neg (by omega), if_pos listed, register]
  dsimp only
  rw [group]

/-- What an answering page reads as at an aligned offset. -/
def ownRead (s : State) (vf offset : Nat) : Nat :=
  match offset with
  | 0x000 => (s.func vf).status
  | 0x008 => (s.func vf).ctxtbl.toNat
  | 0x010 => (s.func vf).admq.toNat
  | 0x020 => (s.func vf).admcons
  | _ => if vf = 0 then pfRead s offset else 0

theorem ownRead_high {s : State} {vf off : Nat} (high : 0x038 ≤ off) : ownRead s vf off = if vf = 0 then pfRead s off else 0 := by
  unfold ownRead
  split
  case h_5 => rfl
  all_goals omega

/-- The PF reads a VF's control registers from the VF's block. -/
theorem hostRead_control {s : State} {vf r : Nat} (works : answers s 0 = true) (low : 1 ≤ vf) (high : vf < 64) (small : r < 128)
    (aligned : r % 8 = 0) : hostRead s 0 (0x1000 + 128 * vf + r) = vfControl s vf r := by
  have block : (0x1000 + 128 * vf + r - 0x1000) / 128 = vf := by omega
  have register : (0x1000 + 128 * vf + r) % 128 = r := by omega
  have listed : 0x1080 ≤ 0x1000 + 128 * vf + r ∧ 0x1000 + 128 * vf + r < 0x3000 := by omega
  rw [hostRead_pf works (by omega) (by omega)]
  generalize 0x1000 + 128 * vf + r = off at *
  rw [pfRead, if_pos listed, block, register]

/-- Settles O50: each write has its own register, and each register its own value. -/
theorem hostWritesTakeEffect : Obligations.HostWritesTakeEffect := by
  unfold Obligations.HostWritesTakeEffect
  intro s vf value stored listed vfOf
  refine ⟨fun works => ?own, fun dead off => ?dead, fun works => ?pf, ⟨fun dead off => ?deadRead, fun works => ?ownRead, fun works => ?pfRead⟩,
    fun works low high => ?control, fun pa bs t writes stored' => ?inbound, fun unit low => ?unit, fun item low => ?health, fun image => ?firmware⟩
  case own =>
    obtain ⟨adm, pri, table, queue⟩ := functionWrites (value := value) stored works
    refine ⟨adm, pri, table, queue, fun off notTable notQueue unlisted => ?_, fun takes d desc => ?_⟩
    · by_cases aligned : off % 8 = 0
      · rw [exec_registerWrite_answers works aligned, if_neg notTable, if_neg notQueue]
        split
        · rename_i pf
          rw [pfWrite_unlisted aligned fun member => unlisted ⟨pf, member⟩]
          exact finish_next stored
        · exact finish_next stored
      · simp only [exec_registerWrite, execRegisterWrite, bne_iff_ne.mpr aligned, Bool.or_true, if_true]
        exact finish_next stored
    · have ctx : bits value 15 0 = value % 2 ^ 16 := by simp [bits]
      have queueOf : bits value 18 16 = value / 2 ^ 16 % 8 := rfl
      have index : bits value 63 32 = value / 2 ^ 32 % 2 ^ 32 := rfl
      simp only [exec_lqdb, execLqdb, ctx, queueOf, index, desc, works, takes, Bool.true_and, decide_eq_true_eq]
      split
      · exact finish_next ((State.setCtx_bad _ _).trans stored)
      · exact finish_next stored
  case dead =>
    refine ⟨?_, ?_, ?_, ?_⟩
    · simp only [exec_admprod, execAdmprod, dead, Bool.false_eq_true, if_false]
      exact finish_next stored
    · simp only [exec_priclr, execPriclr, dead, Bool.false_and, Bool.false_eq_true, if_false]
      exact finish_next stored
    · simp only [exec_lqdb, execLqdb, dead, Bool.false_and, Bool.false_eq_true, if_false]
      split <;> exact finish_next stored
    · simp only [exec_registerWrite, execRegisterWrite, dead, Bool.not_false, Bool.true_or, if_true]
      exact finish_next stored
  case pf =>
    have write := fun off => exec_registerWrite_pf (s := s) (off := off) (value := value) works
    refine ⟨fun v low high => ?_, fun t low => ?_, ?_, fun m low => ?_, fun g n small four => ?_⟩
    · rw [write _ (by omega) (by omega), pfWrite_log low high]
      exact finish_next stored
    · rw [write _ (by omega) (by omega), pfWrite_power low]
      split <;> exact finish_next stored
    · rw [write _ rfl (by omega), pfWrite_fabid]
      exact finish_next (resendHeld_stored rfl stored)
    · rw [write _ (by omega) (by omega), pfWrite_route low]
      exact finish_next (resendHeld_stored (t := s) rfl stored)
    · rw [write _ (by omega) (by omega), pfWrite_group small four]
      obtain ⟨_, only⟩ := (keepGroup_keeps s g).only
      exact ⟨_, finish_next ((congrArg State.bad only).trans stored), groupWrite four rfl⟩
  case deadRead => simp only [hostRead, dead, Bool.not_false, Bool.true_or, if_true]
  case ownRead =>
    have zero : ∀ off, off % 8 ≠ 0 → hostRead s vf off = 0 := fun off odd => by
      simp only [hostRead, bne_iff_ne.mpr odd, Bool.or_true, if_true]
    have own : ∀ off, off % 8 = 0 → hostRead s vf off = ownRead s vf off := fun off aligned => by
      simp only [hostRead, works, aligned, Bool.not_true, bne_self_eq_false, Bool.or_self, Bool.false_eq_true, if_false]
      rfl
    refine ⟨?_, own _ rfl, own _ rfl, own _ rfl, fun off member => ?_, fun off => ?_⟩
    · rw [own _ rfl]
      simp only [ownRead, Func.status]
      cases (s.func vf).tdisp <;> rfl
    · have unlisted : off = 0x018 ∨ off = 0x028 ∨ off = 0x030 := by simpa using member
      rcases unlisted with rfl | rfl | rfl <;>
      · rw [own _ rfl]
        exact ite_self 0
    · rintro (odd | ⟨notPf, high⟩)
      · exact zero off odd
      · by_cases aligned : off % 8 = 0
        · rw [own off aligned, ownRead_high high, if_neg notPf]
        · exact zero off aligned
  case pfRead =>
    refine ⟨fun low high => ?_, ?_, ?_, fun n low => ?_, fun t low => ?_, ?_, fun k x low link => ⟨?_, ?_⟩, fun m low => ?_, fun n low => ?_⟩
    · have control := fun r => hostRead_control (s := s) (r := r) works low high
      exact ⟨control _ (by omega) rfl, control _ (by omega) rfl, control _ (by omega) rfl, control _ (by omega) rfl, control _ (by omega) rfl,
        control _ (by omega) rfl, control _ (by omega) rfl⟩
    · rw [hostRead_pf works rfl (by omega), pfRead, if_neg (by omega), if_pos rfl]
    · rw [hostRead_pf works rfl (by omega), pfRead, if_neg (by omega), if_neg (by omega), if_pos rfl]
    · rw [hostRead_pf works (by omega) (by omega), pfRead, if_neg (by omega), if_neg (by omega), if_neg (by omega), if_pos (by omega),
        show (0x4100 + 8 * n - 0x4100) / 4 = 2 * n by omega]
      rfl
    · rw [hostRead_pf works (by omega) (by omega), pfRead, if_neg (by omega), if_neg (by omega), if_neg (by omega), if_neg (by omega),
        if_pos (by omega), show (0x4400 + 8 * t - 0x4400) / 8 = t by omega]
      rfl
    · rw [hostRead_pf works rfl (by omega), pfRead, if_neg (by omega), if_neg (by omega), if_neg (by omega), if_neg (by omega),
        if_neg (by omega), if_pos rfl]
    · rw [hostRead_pf works (by omega) (by omega), pfRead, if_neg (by omega), if_neg (by omega), if_neg (by omega), if_neg (by omega),
        if_neg (by omega), if_neg (by omega), if_pos (by omega), show (0x5100 + 8 * k - 0x5100) / 8 = k by omega, linkStatus, link]
    · rw [hostRead_pf works (by omega) (by omega), pfRead, if_neg (by omega), if_neg (by omega), if_neg (by omega), if_neg (by omega),
        if_neg (by omega), if_neg (by omega), if_neg (by omega), if_neg (by omega), if_neg (by omega)]
    · rw [hostRead_pf works (by omega) (by omega), pfRead, if_neg (by omega), if_neg (by omega), if_neg (by omega), if_neg (by omega),
        if_neg (by omega), if_neg (by omega), if_neg (by omega), if_pos (by omega), show (0x5800 + 8 * m - 0x5800) / 8 = m by omega]
    · rw [hostRead_pf works (by omega) (by omega), pfRead, if_neg (by omega), if_neg (by omega), if_neg (by omega), if_neg (by omega),
        if_neg (by omega), if_neg (by omega), if_neg (by omega), if_neg (by omega), if_pos (by omega),
        show (0x6000 + 8 * n - 0x6000) / 8 = n by omega]
  case control =>
    refine ⟨?_, ?_, ?_, fun set t stops stored' => ?_, fun free => ?_, fun guards r stored' => ?_⟩
    · rw [exec_logctlEn, execLogctlEn, logctl_answers _ works low high]
      exact finish_next stored
    · rw [exec_logctlOvfClear, execLogctlOvfClear, logctl_answers _ works low high]
      exact finish_next stored
    · rw [exec_logctlAlldirtyClear, execLogctlAlldirtyClear, logctl_answers _ works low high]
      exact finish_next stored
    · simp only [exec_logctlStop, execLogctlStop, works, low, high, set, decide_true, Bool.and_self, if_true, stops]
      exact finish_next stored'
    · refine ⟨?_, ?_, ?_, ?_⟩
      all_goals
        rw [exec_vfControlWrite_answers _ _ works low high, if_neg (by simp [free])]
        exact finish_next stored
    · rw [exec_vfControlWrite_answers _ _ works low high, if_pos guards]
      exact finish_next stored'
  case inbound =>
    rw [exec_hostInboundWrite, execHostInboundWrite, writes]
    exact finish_next stored'
  case unit =>
    simp only [exec_unitReady, execUnitReady, ge_iff_le, Nat.not_le.mpr low, if_false]
    split
    · refine ⟨_, finish_next stored, rfl, fun _ known => ?_, rfl, rfl⟩
      exact congrArg Func.ready ((modifyNth_getD ..).trans (if_pos ⟨rfl, known⟩))
    · exact ⟨_, finish_next stored, rfl, fun small => absurd small ‹_›, rfl, rfl⟩
  case health =>
    simp only [exec_healthPredictionUpdate, execHealthPredictionUpdate, low, if_true]
    exact finish_next stored
  case firmware =>
    simp only [exec_firmwareImageLoad, execFirmwareImageLoad]
    split <;> exact finish_next stored

end Sys2Proof.Machine
end

section
/-!
SUPPORT. System instructions: what each lane does as it issues, and what they act on.
-/

namespace Sys2Proof.Machine

theorem ite_of_iff {α : Type} {b c : Prop} [Decidable b] [Decidable c] {x y z w : α} (same : b ↔ c) (yes : x = z) (no : y = w) :
    (if b then x else y) = if c then z else w := by
  rw [yes, no]
  exact ite_congr (propext same) (fun _ => rfl) fun _ => rfl

/-! What the instructions act on (O41). -/

theorem OnlyWrites.keySlots {s t : State} (h : OnlyWrites s t) : t.keySlots = s.keySlots := by
  obtain ⟨_, _, _, _, _, _, _, _, _, _, _, rfl⟩ := h; rfl

theorem OnlyEnds.keySlots {s t : State} (h : OnlyEnds s t) : t.keySlots = s.keySlots := by
  obtain ⟨_, _, rfl⟩ := h; rfl

theorem terminate_keySlots (s : State) (uid : Nat) (status : Option Nat) : (terminate s uid status).keySlots = s.keySlots := by
  unfold terminate
  split
  · rfl
  · split
    · rfl
    · exact (settleEnd_ends _ uid).keySlots.trans (ringLost_writes _ _ _).keySlots

theorem tearDown_keySlots (s : State) (launch : Nat) : (tearDown s launch).keySlots = s.keySlots :=
  foldl_view State.keySlots (fun s u => terminate_keySlots s u none) _ s

/-- A write of a key changes no other, whatever the default it is read with. -/
theorem sget_sput_other {α : Type} [DecidableEq α] (d d' : α) (t : List (Nat × α)) {n m : Nat} (x : α) (other : m ≠ n) :
    sget d (sput d' t n x) m = sget d t m := by
  unfold sput
  split
  · rw [sget_sdel, if_neg other]
  · rw [sget_sins, if_neg other]

/-- A counter table after the counters of a class were cleared in the first `n` camps of a tract. -/
theorem sget_cleared {view : State → List (Nat × BitVec 32)} {f : State → Nat → State} {t c : Nat}
    (clears : ∀ s k, view (f s k) = sput 0#32 (view s) (16 * (8 * t + k) + c) 0#32) (s : State) (n j : Nat) :
    sget 0#32 (view ((List.range n).foldl f s)) j =
      if ∃ k, k < n ∧ j = 16 * (8 * t + k) + c then 0#32 else sget 0#32 (view s) j := by
  induction n with
  | zero => simp
  | succ n ih =>
    rw [List.range_succ, List.foldl_append, List.foldl_cons, List.foldl_nil, clears, sget_sput, ih]
    by_cases last : j = 16 * (8 * t + n) + c
    · rw [if_pos last, if_pos ⟨n, by omega, last⟩]
    · rw [if_neg last]
      refine ite_of_iff ⟨fun ⟨k, low, at_⟩ => ⟨k, by omega, at_⟩, fun ⟨k, low, at_⟩ => ⟨k, ?_, at_⟩⟩ rfl rfl
      have : k ≠ n := fun same => last (same ▸ at_)
      omega

/-- The camps of a tract are eight in a row, and each has sixteen classes. -/
theorem countOf_tract {t c camp c' : Nat} (low : c < 16) (low' : c' < 16) :
    (∃ k, k < 8 ∧ 16 * camp + c' = 16 * (8 * t + k) + c) ↔ camp / 8 = t ∧ c' = c := by
  refine ⟨fun ⟨k, small, at_⟩ => by omega, fun ⟨tract, class_⟩ => ⟨camp % 8, by omega, by omega⟩⟩

/-- Settles O41: each acts on what it selects, and a part that is over passes its lane. -/
theorem systemInstructionsAct : Obligations.SystemInstructionsAct := by
  unfold Obligations.SystemInstructionsAct
  refine ⟨fun s y t => ?tlbs, fun s y x => ?walks, fun s slot => ?erase, fun v c a vpage gpage => ?nothing, fun s t c t' c' m low low' => ?mask,
    fun s t c camp c' low low' => ?counts, fun s uid k l c w stored found part => ?completes, fun s n m v => sget_sins ..⟩
  case tlbs => simp [tlbDrop]
  case walks => simp [tlbDrop]
  case erase =>
    have kept := foldl_view State.keySlots tearDown_keySlots (worldsOn s slot) { s with keySlots := s.keySlots.filter fun e => e.1 != slot }
    exact ⟨fun e mem => bne_iff_ne.mp (List.mem_filter.mp (kept.subst (motive := (e ∈ ·)) mem)).2, fun e other => by simp [kept, other]⟩
  case nothing => simp [TlbSel.takes, pageMeets]
  case mask =>
    have key : 16 * t' + c' = 16 * t + c ↔ t' = t ∧ c' = c := by omega
    by_cases same : t' = t ∧ c' = c
    · obtain ⟨rfl, rfl⟩ := same
      simp [State.setFillMask, State.fillMask]
    · rw [if_neg same]
      exact sget_sput_other _ _ _ m (fun h => same (key.mp h))
  case counts =>
    simp only [← countOf_tract (t := t) low low']
    exact ⟨sget_cleared (view := State.hits) (fun _ _ => rfl) s 8 _, sget_cleared (view := State.misses) (fun _ _ => rfl) s 8 _⟩
  case completes =>
    intro u
    have effect : u = sysEffect s w.kind := by
      dsimp only [u]
      cases w.kind <;> rfl
    have kept : u.bad = s.bad := by rw [effect]; cases w.kind <;> rfl
    simp only [exec_systemInstructionComplete, execSystemInstructionComplete, found, part, ← effect]
    exact finish_next ((goOn_bad _ _ _ _ _).trans (kept.trans stored))

/-! What a lane of each instruction does (O40). -/

/-- A lane of an `l2part` that may not name its class is refused; another acts. -/
theorem l2part_issues {i : Instr} {h : Hdr} {d a b : Opnd} {set : Bool} (f : State → Issue → Nat → Nat → State × Nat)
    (runs : ∀ s, exec i s = l2partInstr s h d a b set f) :
    SysIssues i h d [(a, 1), (b, 1)] fun s x u l o =>
      let c := readWide x.g s.draws l a 1
      if c ≤ 15 ∧ ((x.g.lane l).mode = .hyper ∨ c = (u.launchOf x.c).desc.cls ∧ ¬(set = true ∧ c = 15))
      then o = { state := (f u x c (readWide x.g s.draws l b 1)).1, status := some (f u x c (readWide x.g s.draws l b 1)).2, wait := .ready }
      else o = { state := u, status := some 0xFFFFFFFF, wait := .ready } := by
  refine issueSys_issues _ runs fun s x u l o acts => ?_
  simp only [← mayName_iff] at acts
  dsimp only
  split <;> rename_i may
  · rwa [if_pos may] at acts
  · rwa [if_neg may] at acts

/-- A lane of a `keyop` that acts for no VF is refused; another acts for its VF. -/
theorem keyop_issues {i : Instr} {h : Hdr} {d a b : Opnd} (f : State → Crew → Who → (vf slot va : Nat) → State × Nat)
    (acts : State → Issue → Who → Nat → Nat → Nat → SysOut → Prop) (runs : ∀ s, exec i s = keyopInstr s h d a b f)
    (does : ∀ u x w vf slot va o, acts u x w vf slot va o →
      o = { state := (f u x.c w vf slot va).1, status := some (f u x.c w vf slot va).2, wait := .ready }) :
    SysIssues i h d [(a, 2), (b, 1)] fun s x u l o =>
      match keyVf u (u.launchOf x.c).vf (x.g.lane l).mode (readWide x.g s.draws l b 1) with
      | none => o = { state := u, status := some 1, wait := .ready }
      | some vf => acts u x (x.c.who u (x.g.lane l).mode) vf (readWide x.g s.draws l b 1) (readWide x.g s.draws l a 2) o := by
  refine issueSys_issues _ runs fun s x u l o case_ => ?_
  dsimp only
  cases named : keyVf u (u.launchOf x.c).vf (x.g.lane l).mode (readWide x.g s.draws l b 1) with
  | none => rwa [named] at case_
  | some vf =>
    rw [named] at case_
    exact does _ _ _ _ _ _ _ case_

/-- A lane of a `tlbinv` removes what it selects, and waits for the accesses that used it. -/
theorem tlbinv_issues {i : Instr} {h : Hdr} {uses : List (Opnd × Nat)} (sel : State → Issue → Launch → Nat → TlbSel)
    (runs : ∀ s, exec i s = tlbinvInstr s h uses fun la x l => sel s x la l) :
    SysIssues i h .vz uses fun s x u l o =>
      o = { state := tlbDrop u (sel s x (u.launchOf x.c) l), status := none, wait := .tlbinv (tlbUses u (sel s x (u.launchOf x.c) l)) } :=
  issueSys_issues _ runs fun _ _ _ _ _ => id

/-- A status of `ctxsave` is 0 only where some crew is resident. -/
theorem saveStatus_resident {s : State} {c : Crew} {mode : Mode} {va core : Nat} (ok : saveStatus s c mode va core = 0) :
    ∃ t, s.resident? core = some t := by
  unfold saveStatus at ok
  split at ok
  · cases ok
  · exact ⟨_, ‹_›⟩

/-- A status of `ctxload` is 0 only where it has found its crew and its area. -/
theorem loadStatus_found {s : State} {c : Crew} {mode : Mode} {va core : Nat} (ok : (loadStatus s c mode va core).1 = 0) :
    ∃ y bs, loadStatus s c mode va core = (0, some (y, bs)) := by
  revert ok
  fun_cases loadStatus s c mode va core
  all_goals first | exact fun ok => absurd ok (by decide) | exact fun _ => ⟨_, _, rfl⟩

/-- Modes 6 and 7 of `l2part` refuse. -/
theorem execL2partClr_other {h : Hdr} {m : L2Mode} {d a b : Opnd} (other : m ≠ .clr) (s : State) :
    exec (.l2partClr h m d a b) s = l2partInstr s h d a b false fun s _ _ _ => (s, partBad) := by
  cases m
  case clr => exact absurd rfl other
  all_goals rfl

/-- Settles O40: each lane's part is its table's, line by line. -/
theorem systemInstructionsIssue : Obligations.SystemInstructionsIssue := by
  unfold Obligations.SystemInstructionsIssue
  intro h d a b force arg quiet tlb part key
  have partIssues : ∀ i b set acts f, (∀ s, exec i s = l2partInstr s h d a b set f) →
      (∀ u x c v, acts u x c v = quiet (f u x c v).2 (f u x c v).1) → part i b set acts := fun i b set acts f runs does => by
    obtain rfl : acts = fun u x c v => quiet (f u x c v).2 (f u x c v).1 := by
      funext u x c v
      exact does u x c v
    exact l2part_issues f runs
  have keyIssues : ∀ i acts f, (∀ s, exec i s = keyopInstr s h d a b f) → (∀ u x w vf slot va o, acts u x w vf slot va o →
      o = quiet (f u x.c w vf slot va).2 (f u x.c w vf slot va).1) → key i acts := fun _ acts f runs does => keyop_issues f acts runs does
  clear_value part key
  refine ⟨tlbinv_issues (fun s x la l => .va la.vf la.ctx (arg s x l a 2) (arg s x l b 1)) fun _ => rfl,
    tlbinv_issues (fun _ _ la _ => .ctx la.vf la.ctx) fun _ => rfl,
    tlbinv_issues (fun s x la l => .gpa la.vf (arg s x l a 2) (arg s x l b 1)) fun _ => rfl, tlbinv_issues (fun _ _ la _ => .vf la.vf) fun _ => rfl,
    ?set, ?mask, ?occ, ?hit, ?miss, ?clr, fun m other => ?parts, ?frmset, ?load, ?erase,
    ?attest, ?run, ?adm, ?save, ?resume⟩
  case set => exact partIssues (.l2partSet h d a b) _ _ _ _ (exec_l2partSet h d a b) fun _ _ _ _ => rfl
  case mask => exact partIssues (.l2partMask h d a) _ _ _ _ (exec_l2partMask h d a) fun _ _ _ _ => rfl
  case occ => exact partIssues (.l2partOcc h d a b) _ _ _ _ (exec_l2partOcc h d a b) fun _ _ _ _ => rfl
  case hit => exact partIssues (.l2partHit h d a b) _ _ _ _ (exec_l2partHit h d a b) fun _ _ _ _ => rfl
  case miss => exact partIssues (.l2partMiss h d a b) _ _ _ _ (exec_l2partMiss h d a b) fun _ _ _ _ => rfl
  case clr => exact partIssues (.l2partClr h .clr d a b) _ _ _ _ (exec_l2partClr h .clr d a b) fun _ _ _ _ => rfl
  case parts => exact partIssues (.l2partClr h m d a b) _ _ _ (fun s _ _ _ => (s, partBad)) (execL2partClr_other other) fun _ _ _ _ => rfl
  case frmset =>
    refine issueSys_issues _ (exec_frmset h d a b) fun s x u l o acts => ?_
    obtain ⟨high, noBytes, bytes⟩ := acts
    by_cases small : 127 < readWide x.g s.draws l b 1
    · rw [if_pos small]
      exact high small
    · have low := Nat.not_lt.mp small
      rw [if_neg small]
      split <;> rename_i found
      · exact noBytes low found
      · obtain ⟨clears, bad, sets⟩ := bytes low _ found
        cases valid : (rangeFields _).v
        · exact clears valid
        · cases wrong : rangeBad (readWide x.g s.draws l b 1 / 16) _
          · exact sets valid wrong
          · exact bad valid wrong
  case erase => exact keyIssues (.keyopErase h d a b) _ _ (exec_keyopErase h d a b) fun _ _ _ _ _ _ _ erased => erased
  case load =>
    refine keyIssues (.keyopLoad h d a b) _ _ (exec_keyopLoad h d a b) ?_
    rintro u x w vf slot va o ⟨idle, noBytes, bytes⟩
    split <;> rename_i runs
    · exact idle runs
    · have runs := Classical.not_not.mp runs
      cases found : laneRead u x.c w va 96 with
      | none => exact noBytes runs found
      | some blob =>
        obtain ⟨wrong, key⟩ := bytes runs blob found
        cases unwrapped : Config.unwrapKey vf (u.func vf).session blob with
        | none => simpa only [unwrapped] using wrong unwrapped
        | some k => simpa only [unwrapped] using key k unwrapped
  case attest =>
    refine keyIssues (.keyopAttest h d a b) _ _ (exec_keyopAttest h d a b) ?_
    rintro u x w vf slot va o ⟨idle, noBytes, bytes⟩
    split <;> rename_i runs
    · exact idle runs
    · have runs := Classical.not_not.mp runs
      cases found : laneRead u x.c w va 64 with
      | none => exact noBytes runs found
      | some nonce =>
        obtain ⟨unmapped, reports⟩ := bytes runs nonce found
        dsimp only
        split <;> rename_i written
        · exact unmapped written
        · exact reports _ written
  case run =>
    refine issueSys_issues _ (exec_launchRun h d a b) fun s x u l o acts => ?_
    obtain ⟨noBytes, bytes⟩ := acts
    dsimp only
    split <;> rename_i found
    · exact noBytes found
    · obtain ⟨foreign, full, joins⟩ := bytes _ found
      split <;> rename_i mine
      · exact foreign fun ⟨vf, ctx⟩ => mine.elim (· vf) (· ctx)
      · obtain ⟨vf, ctx⟩ := not_or.mp mine
        have mine := And.intro (Classical.not_not.mp vf) (Classical.not_not.mp ctx)
        split <;> rename_i room
        · exact full mine room
        · exact joins mine (Nat.not_le.mp room)
  case adm =>
    refine issueSys_issues _ (exec_launchAdm h d a) fun s x u l o acts => ?_
    obtain ⟨noBytes, bytes⟩ := acts
    dsimp only
    split <;> rename_i found
    · exact noBytes found
    · obtain ⟨foreign, full, joins⟩ := bytes _ found
      split <;> rename_i mine
      · exact foreign mine
      · have mine := Classical.not_not.mp mine
        split <;> rename_i room
        · exact full mine (Nat.not_lt.mpr room)
        · exact joins mine (Nat.not_le.mp room)
  case save =>
    refine issueSys_issues _ (exec_ctxsave h force d a b) fun s x u l o acts => ?_
    obtain ⟨refused, saves⟩ := acts
    dsimp only
    split <;> rename_i status
    · obtain ⟨t, there⟩ := saveStatus_resident status
      rw [there]
      exact saves status t there
    · exact refused status
  case resume =>
    refine issueSys_issues _ (exec_ctxload h d a b) fun s x u l o acts => ?_
    obtain ⟨refused, resumes⟩ := acts
    dsimp only
    by_cases ok : (loadStatus u x.c (x.g.lane l).mode (readWide x.g s.draws l a 2) (readWide x.g s.draws l b 1)).1 = 0
    · obtain ⟨y, bs, found⟩ := loadStatus_found ok
      rw [found]
      exact resumes ok y bs (congrArg Prod.snd found)
    · split <;> rename_i found
      · exact absurd (congrArg Prod.fst found) ok
      · exact (refused ok).trans (by rw [found])

end Sys2Proof.Machine
end

section
/-!
SUPPORT. What a step runs.
-/

namespace Sys2Proof.Machine

/-- A word decodes only to an instruction that keeps the encoding's rules. -/
theorem decode_wf {regs w : Nat} {i : Instr} (ok : decode regs w = .ok i) : i.wf regs = true := by
  unfold decode decodeRaw at ok
  split at ok
  · cases ok
  · split at ok
    · cases ok
    · split at ok
      · cases ok
      · split at ok
        · cases ok
        · split at ok <;> rename_i keeps
          · cases ok
            exact (Bool.and_eq_true _ _ ▸ keeps).1
          · cases ok

/-- The gang at `cur`, once it has chosen an entry, is the one that issues. -/
theorem curIssue_chosen {s : State} {uid k : Nat} {c : Crew} {g : Gang} {e : Entry} {es : List Entry} (at_ : s.cur = some (uid, k))
    (found : s.crew? uid = some c) (may : mayIssue s c k = true) (chosen : chooseEntry (wakeCounted s c k) = some g)
    (head : g.frontier = e :: es) : curIssue s = some { c := c.setGang k g, k := k, g := g, e := e } := by
  simp only [curIssue, at_, found, gangIssue, may, if_true, chosen, head]

/-- The fetch of a line whose VA leads to its sealed page. -/
theorem fetchLine_ok {s u : State} {x : Issue} {lf : Leaf} {ls : List Leaf}
    (target : fetchTarget s x.c (x.g.lane (lowest x.e.mask)).mode x.e.pc = true)
    (walked : laneXlat s (x.c.who s (x.g.lane (lowest x.e.mask)).mode) (s.launchOf x.c).desc.pasid
      (.lane x.c.uid x.k (lowest x.e.mask)) 3 (pcLine x.e.pc) 1 = (u, .ok (lf :: ls)))
    (isSealed : sealedPage u x.c (pcLine x.e.pc) lf.pa = true)
    (whole : leafBroken u (x.c.who u (x.g.lane (lowest x.e.mask)).mode) lf = false) :
    fetchLine s x =
      let r := takeLine u x (x.c.who u (x.g.lane (lowest x.e.mask)).mode) lf
      if lineGood x.c.regs r.2 then
        r.1.setCrew (x.c.mapGang x.k fun g => { g with line := some (pcLine x.e.pc, r.2), linePa := lf.pa })
      else machineCheck r.1 x r.2 := by
  simp only [fetchLine, target, walked, isSealed, whole, Bool.not_true, Bool.false_eq_true, if_false]

/-- The gang that issues is the one asked for. -/
theorem gangIssue_gang {s : State} {c : Crew} {k : Nat} {x : Issue} (issues : gangIssue s c k = some x) : x.k = k := by
  unfold gangIssue at issues
  split at issues
  · split at issues
    · split at issues
      · cases issues
        rfl
      · cases issues
    · cases issues
  · cases issues

/-- Settles O56: the step, the gang's issue and the fetch, branch by branch. -/
theorem stepRunsDecoded : Obligations.StepRunsDecoded := by
  unfold Obligations.StepRunsDecoded
  intro s
  refine ⟨fun i rest agenda => ?event, fun agenda idle => ?idle, fun uid k c g e es agenda at_ found may chosen head legal => ?issue,
    fun core k c x u lf ls there issues target walked isSealed whole stored => ?fetch⟩
  case event => simp only [step, agenda]
  case idle => simp only [step, agenda, stepGang, idle]
  case issue =>
    have issue := curIssue_chosen at_ found may chosen head
    have steps : step s = stepGang s := by simp only [step, agenda]
    have ready : (e.mask &&& g.illegal != 0#32) = false := by simp [legal]
    refine ⟨fun bs i line decodes => ⟨?_, decode_wf decodes⟩, fun other => ?_⟩
    · have held : slotInstr (c.setGang k g).regs g e.pc = some i := by
        simp only [slotInstr, line, if_true]
        rw [show decode (c.setGang k g).regs (lineSlot bs (pcSlot e.pc)) = .ok i from decodes]
      rw [steps]
      simp only [stepGang, issue, ready, Bool.false_eq_true, if_false, held]
    · have none : slotInstr (c.setGang k g).regs g e.pc = none := by
        unfold slotInstr
        split
        · rename_i va bs line
          exact if_neg fun same : va = pcLine e.pc => other bs (by rw [line, same])
        · rfl
      rw [steps]
      simp only [stepGang, issue, ready, Bool.false_eq_true, if_false, none]
      rfl
  case fetch =>
    obtain rfl := gangIssue_gang issues
    have fetch := fetchLine_ok target walked isSealed whole
    refine ⟨fun good => ?_, fun bad stored' => ?_⟩
    · simp only [exec_lineFetch, execLineFetch, there, issues, fetch, good, if_true]
      exact finish_next stored
    · simp only [exec_lineFetch, execLineFetch, there, issues, fetch, bad, Bool.false_eq_true, if_false]
      exact finish_next stored'

end Sys2Proof.Machine
end

section
/-!
SUPPORT. The Grader's events, by what it has in hand.
-/

namespace Sys2Proof.Machine

section Grader

variable {s u : State} {tract : Nat} {r : AdmReq} {mine : AdmReq → Bool} {take : State → Nat → AdmReq → State}

/-- A ready Grader with nothing in hand takes its tract's next request. -/
theorem graderActs_takes (ready : graderReady s tract = true) (idle : inHand s tract = none) (next : nextRequest s tract = some (u, r))
    (own : mine r = true) : graderActs s tract mine take = take u tract r := by
  simp only [graderActs, ready, Bool.not_true, Bool.false_eq_true, if_false, idle, next, own, if_true]

/-- A request in hand whose pages are pending is walked. -/
theorem graderActs_walks {h : Nat} (ready : graderReady s tract = true) (hand : inHand s tract = some r) (own : mine r = true)
    (going : r.result = none) (pending : r.pending = some h) : graderActs s tract mine take = admitWalk s tract r h := by
  simp only [graderActs, ready, Bool.not_true, Bool.false_eq_true, if_false, hand, own, if_true, goOnRequest, going, Option.isSome_none, pending]

/-- A request of the rings is checked as it is taken up. -/
theorem takeRequest_plain (plain : r.bind = none) : takeRequest s tract r = admitChecks (takeUp s tract r) tract r := by
  simp only [takeRequest, plain]

/-- The request that a binding makes of its entry. -/
def AdmReq.forLibrary (r : AdmReq) (e : List Byte) : AdmReq := { r with words := bindingWords r e }

/-- A binding takes the image that its context has admitted, or is checked. -/
def bindingTaken (s : State) (tract : Nat) (q : AdmReq) (known : Option Image) : State :=
  match known with
  | some i => concludeBinding s tract q (some i.handle, 0)
  | none => admitChecks (takeUp s tract q) tract q

theorem takeRequest_bind {b : Binding} {e : List Byte} (bind : r.bind = some b)
    (entry : deviceRead s (r.who tract) (r.desc.bindbase + 64 * b.index) 64 = some e) :
    takeRequest s tract r = bindingTaken s tract (r.forLibrary e)
      (s.images.find? fun i => i.vf == r.vf && i.ctx == r.ctx && i.header == (r.forLibrary e).image) := by
  unfold takeRequest
  split <;> rename_i asked
  · cases bind.symm.trans asked
  · cases bind.symm.trans asked
    rw [entry]
    rfl

/-- A binding whose library the context has not admitted is checked as a request for its image. -/
theorem takeRequest_binding {b : Binding} {e : List Byte} (bind : r.bind = some b)
    (entry : deviceRead s (r.who tract) (r.desc.bindbase + 64 * b.index) 64 = some e)
    (unknown : (s.images.find? fun i => i.vf == r.vf && i.ctx == r.ctx && i.header == (r.forLibrary e).image) = none) :
    takeRequest s tract r =
      admitChecks (takeUp s tract (r.forLibrary e)) tract (r.forLibrary e) := by
  rw [takeRequest_bind bind entry, unknown, bindingTaken]

/-- A binding whose library the context has admitted takes that image. -/
theorem takeRequest_known {b : Binding} {e : List Byte} {i : Image} (bind : r.bind = some b)
    (entry : deviceRead s (r.who tract) (r.desc.bindbase + 64 * b.index) 64 = some e)
    (known : (s.images.find? fun i => i.vf == r.vf && i.ctx == r.ctx && i.header == (r.forLibrary e).image) = some i) :
    takeRequest s tract r = concludeBinding s tract (r.forLibrary e) (some i.handle, 0) := by
  rw [takeRequest_bind bind entry, known, bindingTaken]

theorem refuseRequest_plain {code : Nat} (plain : r.bind = none) :
    refuseRequest s tract r code = writeAdmission (putDown s tract) tract r (AdmOut.plain 2 0 code 0) := by
  simp only [refuseRequest, plain, Option.isSome_none, Bool.false_eq_true, if_false]

theorem refuseRequest_binding {code : Nat} {b : Binding} (bind : r.bind = some b) :
    refuseRequest s tract r code = concludeBinding s tract r (none, (Config.unstatedRule s.draws).toNat) := by
  simp only [refuseRequest, bind, Option.isSome_some, if_true]

/-- A request that is taken up and passes its checks has its pages pending. -/
theorem admitChecks_pass {im : KImage} {gs : List Grant} {code consts : List (Nat × Nat)}
    (passes : checkRequest s tract r = .pass im gs code consts) : admitChecks s tract r =
      takeUp { s with seals := s.seals ++ pendingPages r s.nextHandle im code consts, nextHandle := s.nextHandle + 1 } tract
        { r with pending := some s.nextHandle, start := s.tick, read := some (gs, im) } := by
  simp only [admitChecks, passes]

theorem admitChecks_refuse {code : Nat} (refuses : checkRequest s tract r = .refuse code) :
    admitChecks s tract r = refuseRequest s tract r code := by
  simp only [admitChecks, refuses]

end Grader

/-- Settles O49: the events, by what the Grader has in hand. -/
theorem graderActsHolds : Obligations.GraderActs := by
  unfold Obligations.GraderActs
  intro s tract stored ready admits checks acts
  have acted : ∀ (i : Instr) mine, (∀ s, exec i s = finish (graderActs s tract mine takeRequest)) → acts i mine := by
    refine fun i mine runs => ⟨fun u r idle next own plain => ⟨fun code refuses stored' => ?_, fun im gs code consts passes stored' => ?_⟩,
      fun r h gs im hand own going pending read => ⟨fun j broken stored' => ?_, fun x fine stored' => ?_⟩⟩
    · rw [runs, graderActs_takes ready idle next own, takeRequest_plain plain, admitChecks_refuse refuses, refuseRequest_plain plain]
      exact finish_next stored'
    · rw [runs, graderActs_takes ready idle next own, takeRequest_plain plain, admitChecks_pass passes]
      exact finish_next stored'
    · rw [runs, graderActs_walks ready hand own going pending, admitWalk, read]
      simp only [broken]
      exact finish_next stored'
    · rw [runs, graderActs_walks ready hand own going pending, admitWalk, read]
      simp only [fine]
      exact finish_next stored'
  refine ⟨fun u r b e idle next bind entry => ?binding, acted _ _ (exec_graderWalk tract), acted _ _ (exec_readmit tract),
    fun u r idle next plain op => ?release, fun vf ctx index r b h e pc found bind => ?complete⟩
  case binding =>
    intro q known
    have own : (r.bind.isSome || (r.op != 2 && r.op != 3)) = true := by simp [bind]
    refine ⟨fun i there stored' => ?_, fun unknown => ⟨fun code refuses stored' => ?_, fun im gs code consts passes stored' => ?_⟩⟩
    · rw [exec_graderWalk, execGraderWalk, graderActs_takes ready idle next own, takeRequest_known bind entry there]
      exact finish_next stored'
    · rw [exec_graderWalk, execGraderWalk, graderActs_takes ready idle next own, takeRequest_binding bind entry unknown,
        admitChecks_refuse (s := takeUp u tract (r.forLibrary e)) (r := r.forLibrary e) refuses, refuseRequest_binding (r := r.forLibrary e) bind]
      exact finish_next stored'
    · rw [exec_graderWalk, execGraderWalk, graderActs_takes ready idle next own, takeRequest_binding bind entry unknown,
        admitChecks_pass (s := takeUp u tract (r.forLibrary e)) (r := r.forLibrary e) passes]
      exact finish_next stored'
  case release =>
    have own : (r.bind.isNone && r.op == 3) = true := by simp [plain, op]
    refine ⟨fun free stored' => ?_, fun refused stored' => ?_⟩
    · rw [exec_release, execRelease, graderActs_takes ready idle next own, releaseHandle, if_pos free]
      exact finish_next stored'
    · rw [exec_release, execRelease, graderActs_takes ready idle next own, releaseHandle, if_neg refused]
      exact finish_next stored'
  case complete =>
    intro w va
    refine ⟨fun graded entry binds stored' => ?_, fun rule graded room stored' => ?_⟩
    · simp only [exec_bindingComplete, execBindingComplete, found, bind, graded, completeBinding,
        show deviceRead s (r.who tract) (r.desc.bindbase + 64 * b.index) 64 = some e from entry, binds]
      exact finish_next stored'
    · simp only [exec_bindingComplete, execBindingComplete, found, bind, graded, completeBinding, bindFails, room, if_true]
      exact finish_next stored'

end Sys2Proof.Machine
end

section
/-!
SUPPORT. What the end of an operation leaves of its crew, and what an access does to the caches (R199, R222, R299).
-/

namespace Sys2Proof.Machine

/-! An operation's results, in its lane. -/

/-- A g register after consecutive g registers were written. -/
theorem sget_writeG (t : List (Nat × Word)) (q r : Nat) (ws : List Word) :
    sget 0#32 (writeG t q ws) r = if q ≤ r ∧ r < q + ws.length then ws.getD (r - q) 0#32 else sget 0#32 t r := by
  induction ws generalizing t q with
  | nil => exact (if_neg fun h => absurd h.2 (Nat.not_lt.mpr h.1)).symm
  | cons w ws ih =>
    rw [writeG, ih, sget_sput, List.length_cons]
    rcases Nat.lt_trichotomy r q with below | rfl | above
    · rw [if_neg (by omega), if_neg (by omega), if_neg (by omega)]
    · rw [if_neg (by omega), if_pos rfl, if_pos (by omega), Nat.sub_self, List.getD_cons_zero]
    · obtain ⟨j, rfl⟩ := Nat.exists_eq_add_of_lt above
      rw [show q + j + 1 - q = j + 1 by omega, show q + j + 1 - (q + 1) = j by omega, List.getD_cons_succ]
      exact ite_of_iff (by omega) rfl (if_neg (by omega))

/-- A lane that takes an operation's words in its registers. -/
def Lane.given (d : Opnd) (words : List Word) (x : Lane) : Lane :=
  match d with
  | .v r => writeRegs x r.val words
  | _ => x

theorem Lane.given_reg (d : Opnd) (words : List Word) (x : Lane) (r : Nat) :
    (x.given d words).reg r = regAfter .plain d true words (x.reg r) r := by
  cases d with
  | v q => simp [Lane.given, writeRegs_reg, regAfter, Hdr.plain]
  | _ => rfl

theorem Lane.given_same (d : Opnd) (words : List Word) (x : Lane) :
    (x.given d words).preds = x.preds ∧ (x.given d words).mode = x.mode ∧ (x.given d words).frames = x.frames ∧
      (x.given d words).fpstat = x.fpstat ∧ (x.given d words).run = x.run := by
  cases d with
  | v q =>
    obtain ⟨preds, mode, frames, _, fpstat, run, _⟩ := writeRegs_same x q.val words
    exact ⟨preds, mode, frames, fpstat, run⟩
  | _ => exact ⟨rfl, rfl, rfl, rfl, rfl⟩

/-- A lane that takes an operation's results in its registers and predicates. -/
def Lane.taking (d : Opnd) (words : List Word) (preds : List (Nat × Bool)) (x : Lane) : Lane := writePreds (x.given d words) preds

theorem Lane.taking_reg (d : Opnd) (words : List Word) (preds : List (Nat × Bool)) (x : Lane) (r : Nat) :
    (x.taking d words preds).reg r = regAfter .plain d true words (x.reg r) r := by
  rw [← x.given_reg]
  exact congrArg (sget 0#32 · r) (writePreds_same _ preds).1

theorem Lane.taking_pred (d : Opnd) (words : List Word) (preds : List (Nat × Bool)) (x : Lane) {p : Nat} (low : p < 15) :
    (x.taking d words preds).pred p = predAfter preds (x.pred p) p := by
  rw [Lane.taking, writePreds_pred _ _ _ low, Lane.pred, (x.given_same d words).1, Lane.pred]

/-- Nothing else of the lane changes. -/
theorem Lane.taking_same (d : Opnd) (words : List Word) (preds : List (Nat × Bool)) (x : Lane) :
    (x.taking d words preds).mode = x.mode ∧ (x.taking d words preds).frames = x.frames ∧ (x.taking d words preds).fpstat = x.fpstat ∧
      (x.taking d words preds).run = x.run := by
  obtain ⟨_, mode, frames, _, fpstat, run, _⟩ := writePreds_same (x.given d words) preds
  obtain ⟨_, mode', frames', fpstat', run'⟩ := x.given_same d words
  exact ⟨mode.trans mode', frames.trans frames', fpstat.trans fpstat', run.trans run'⟩

/-- A gang whose lane `l` takes an operation's results. -/
def Gang.taking (g : Gang) (l : Nat) (d : Opnd) (words : List Word) (preds : List (Nat × Bool)) : Gang :=
  (writeOpnd g l l d words).mapLane l fun x => writePreds x preds

theorem Gang.taking_lane (g : Gang) (l : Nat) (d : Opnd) (words : List Word) (preds : List (Nat × Bool)) (j : Nat) :
    (g.taking l d words preds).lane j = if j = l ∧ j < g.lanes.length then (g.lane j).taking d words preds else g.lane j := by
  cases d with
  | v q =>
    simp only [Gang.taking, writeOpnd, Gang.mapLane, modifyNth_modifyNth]
    exact modifyNth_getD ..
  | g q =>
    simp only [Gang.taking, writeOpnd, if_true]
    exact modifyNth_getD ..
  | _ => exact modifyNth_getD ..

theorem Gang.taking_g (g : Gang) (l : Nat) (d : Opnd) (words : List Word) (preds : List (Nat × Bool)) (q : Nat) :
    sget 0#32 (g.taking l d words preds).g q = gregAfter .plain d true words (sget 0#32 g.g q) q := by
  cases d with
  | g r => simp [Gang.taking, writeOpnd, Gang.mapLane, sget_writeG, gregAfter, Hdr.plain]
  | _ => rfl

theorem Gang.taking_frontier (g : Gang) (l : Nat) (d : Opnd) (words : List Word) (preds : List (Nat × Bool)) :
    (g.taking l d words preds).frontier = g.frontier := by
  cases d with
  | g r => simp [Gang.taking, writeOpnd, Gang.mapLane]
  | _ => rfl

/-- Every lane of the gang that stands in place of one that does not exist has exited. -/
theorem Gang.blank_lane (l : Nat) : Gang.blank.lane l = Lane.blank := by
  rw [Gang.lane, Gang.blank, List.getD_eq_getElem?_getD, List.getElem?_replicate]
  split <;> rfl

/-- The lane of an operation takes its results: they are not discarded, and the lane has not exited. -/
def Crew.takes (c : Crew) (o : Op) (k l : Nat) : Prop :=
  k = o.gang ∧ l = lowest o.lanes ∧ o.dropped = false ∧ ((c.gang k).lane l).run ≠ .exited

/-- The gangs of a crew after an operation's results were written. -/
theorem writeBackOp_gang (c : Crew) (o : Op) (words : List Word) (preds : List (Nat × Bool)) (k : Nat) :
    (c.takes o k (lowest o.lanes) ∧ (writeBackOp c o words preds).gang k = (c.gang k).taking (lowest o.lanes) o.kind.dst.1 words preds) ∨
      (¬ c.takes o k (lowest o.lanes) ∧ (writeBackOp c o words preds).gang k = c.gang k) := by
  by_cases off : (o.dropped || ((c.gang o.gang).lane (lowest o.lanes)).run == .exited) = true
  · refine .inr ⟨fun ⟨gang, _, kept, runs⟩ => ?_, by rw [writeBackOp, if_pos off]⟩
    subst gang
    simp [kept, runs] at off
  · have gang : (writeBackOp c o words preds).gang k = if k = o.gang ∧ k < c.gangs.length then
        (c.gang k).taking (lowest o.lanes) o.kind.dst.1 words preds else c.gang k := by
      rw [writeBackOp, if_neg off]
      exact Crew.mapGang_gang ..
    obtain ⟨kept, runs⟩ : o.dropped = false ∧ ((c.gang o.gang).lane (lowest o.lanes)).run ≠ .exited := by simpa using off
    by_cases own : k = o.gang
    · have there : k < c.gangs.length := by
        refine Classical.byContradiction fun far => ?_
        refine runs ?_
        rw [← own, Crew.gang, getD_of_le _ (Nat.not_lt.mp far)]
        exact congrArg Lane.run (Gang.blank_lane _)
      exact .inl ⟨⟨own, rfl, kept, own ▸ runs⟩, gang.trans (if_pos ⟨own, there⟩)⟩
    · exact .inr ⟨fun takes => own takes.1, gang.trans (if_neg fun h => own h.1)⟩

/-- The g registers of a crew whose gangs all keep theirs. -/
theorem Crew.map_g {c : Crew} {f : Gang → Gang} (keeps : ∀ g, (f g).g = g.g) (k : Nat) :
    (({ c with gangs := c.gangs.map f } : Crew).gang k).g = (c.gang k).g := by
  by_cases there : k < c.gangs.length
  · have : ({ c with gangs := c.gangs.map f } : Crew).gang k = f (c.gang k) := by simp [Crew.gang, there]
    rw [this, keeps]
  · have : ({ c with gangs := c.gangs.map f } : Crew).gang k = c.gang k := by simp [Crew.gang, there]
    rw [this]

/-- Taking an operation off a crew changes no g register. -/
theorem Crew.complete_g (c : Crew) (tick : Nat) (o : Op) (k : Nat) : ((c.complete tick o).gang k).g = (c.gang k).g := by
  refine (Crew.map_g (f := startWaits _ tick) (fun _ => rfl) k).trans ?_
  rw [Crew.mapGang_gang]
  split <;> rfl

/-! The end of an operation. -/

/-- What an operation that has ended leaves of the crew that it was of: `Performed` of the crew alone. -/
def Crew.Gave (c c' : Crew) (o : Op) (words : List Word) (preds : List (Nat × Bool)) : Prop :=
  (∀ k l r, l < (c.gang k).lanes.length → (((c'.gang k).lane l).reg r = ((c.gang k).lane l).reg r ∨ c.takes o k l) ∧
    (c.takes o k l → ((c'.gang k).lane l).reg r = regAfter Hdr.plain o.kind.dst.1 true words (((c.gang k).lane l).reg r) r)) ∧
  (∀ k l p, l < (c.gang k).lanes.length → p < 15 → (((c'.gang k).lane l).pred p = ((c.gang k).lane l).pred p ∨ c.takes o k l) ∧
    (c.takes o k l → ((c'.gang k).lane l).pred p = predAfter preds (((c.gang k).lane l).pred p) p)) ∧
  (∀ k q, (c.takes o k (lowest o.lanes) →
      sget 0#32 (c'.gang k).g q = gregAfter Hdr.plain o.kind.dst.1 true words (sget 0#32 (c.gang k).g q) q) ∧
    (¬ c.takes o k (lowest o.lanes) → sget 0#32 (c'.gang k).g q = sget 0#32 (c.gang k).g q)) ∧
  ∀ k l, l < (c.gang k).lanes.length → ((c'.gang k).lane l).mode = ((c.gang k).lane l).mode ∧
    ((c'.gang k).lane l).frames = ((c.gang k).lane l).frames ∧ ((c'.gang k).lane l).fpstat = ((c.gang k).lane l).fpstat ∧
    ((c'.gang k).lane l).run = ((c.gang k).lane l).run ∧ (c'.gang k).frontier = (c.gang k).frontier

/-- A lane of a crew after an operation's results were written. -/
theorem writeBackOp_lane (c : Crew) (o : Op) (words : List Word) (preds : List (Nat × Bool)) {k l : Nat} (there : l < (c.gang k).lanes.length) :
    (c.takes o k l ∧ ((writeBackOp c o words preds).gang k).lane l = ((c.gang k).lane l).taking o.kind.dst.1 words preds) ∨
      (¬ c.takes o k l ∧ ((writeBackOp c o words preds).gang k).lane l = (c.gang k).lane l) := by
  rcases writeBackOp_gang c o words preds k with ⟨takes, gang⟩ | ⟨keeps, gang⟩
  · rw [gang, Gang.taking_lane]
    by_cases own : l = lowest o.lanes
    · exact .inl ⟨own ▸ takes, if_pos ⟨own, there⟩⟩
    · exact .inr ⟨fun takes => own takes.2.1, if_neg fun h => own h.1⟩
  · rw [gang]
    exact .inr ⟨fun takes => keeps (takes.2.1 ▸ takes), rfl⟩

/-- An operation that gives its results and is taken off its crew. -/
theorem Crew.gave_complete (c : Crew) (tick : Nat) (o : Op) (words : List Word) (preds : List (Nat × Bool)) :
    c.Gave ((writeBackOp c o words preds).complete tick o) o words preds := by
  have alike := (writeBackOp c o words preds).alike_complete tick o
  have fields := fun k l => (alike k).fields l
  have reg : ∀ k l r, ((((writeBackOp c o words preds).complete tick o).gang k).lane l).reg r = (((writeBackOp c o words preds).gang k).lane l).reg r :=
    fun k l r => congrArg (sget 0#32 · r) (fields k l).1
  have pred : ∀ k l p, ((((writeBackOp c o words preds).complete tick o).gang k).lane l).pred p = (((writeBackOp c o words preds).gang k).lane l).pred p :=
    fun k l p => congrArg (·.getLsbD p) (fields k l).2.1
  refine ⟨fun k l r there => ?regs, fun k l p there low => ?preds, fun k q => ?gregs, fun k l there => ?rest⟩
  case regs =>
    rw [reg]
    rcases writeBackOp_lane c o words preds there with ⟨takes, lane⟩ | ⟨keeps, lane⟩
    · exact ⟨.inr takes, fun _ => by rw [lane, Lane.taking_reg]⟩
    · exact ⟨.inl (by rw [lane]), fun takes => absurd takes keeps⟩
  case preds =>
    rw [pred]
    rcases writeBackOp_lane c o words preds there with ⟨takes, lane⟩ | ⟨keeps, lane⟩
    · exact ⟨.inr takes, fun _ => by rw [lane, Lane.taking_pred _ _ _ _ low]⟩
    · exact ⟨.inl (by rw [lane]), fun takes => absurd takes keeps⟩
  case gregs =>
    rw [Crew.complete_g]
    rcases writeBackOp_gang c o words preds k with ⟨takes, gang⟩ | ⟨keeps, gang⟩
    · exact ⟨fun _ => by rw [gang, Gang.taking_g], fun keeps => absurd takes keeps⟩
    · exact ⟨fun takes => absurd takes keeps, fun _ => by rw [gang]⟩
  case rest =>
    obtain ⟨_, _, mode, run, frames⟩ := fields k l
    have fpstat : ((((writeBackOp c o words preds).complete tick o).gang k).lane l).fpstat = (((writeBackOp c o words preds).gang k).lane l).fpstat := by
      rw [← (alike k).lane l]
    rw [mode, frames, fpstat, run, (alike k).frontier]
    have frontier : ((writeBackOp c o words preds).gang k).frontier = (c.gang k).frontier := by
      rcases writeBackOp_gang c o words preds k with ⟨_, gang⟩ | ⟨_, gang⟩
      · rw [gang, Gang.taking_frontier]
      · rw [gang]
    rcases writeBackOp_lane c o words preds there with ⟨_, lane⟩ | ⟨_, lane⟩
    · obtain ⟨mode, frames, fpstat, run⟩ := ((c.gang k).lane l).taking_same o.kind.dst.1 words preds
      rw [lane]
      exact ⟨mode, frames, fpstat, run, frontier⟩
    · rw [lane]
      exact ⟨rfl, rfl, rfl, rfl, frontier⟩

/-- Two crews with the same gangs take the same results. -/
theorem Crew.Gave.of_gangs {c d c' : Crew} {o : Op} {words : List Word} {preds : List (Nat × Bool)} (same : d.gangs = c.gangs)
    (gave : d.Gave c' o words preds) : c.Gave c' o words preds := by
  have gang : ∀ k, d.gang k = c.gang k := fun k => by rw [Crew.gang, same, Crew.gang]
  simpa only [Crew.Gave, Crew.takes, gang] using gave

/-- An operation of a crew that is not ending: what its end leaves of the crews. -/
theorem endOp_crew {s : State} {uid : Nat} {d : Crew} (crew : s.crew? uid = some d) (goes : d.terminating = false) (o : Op) (words : List Word)
    (preds : List (Nat × Bool)) (u : Nat) :
    (endOp s uid o words preds).crew? u = if u = uid then some ((writeBackOp d o words preds).complete s.tick o) else s.crew? u := by
  have uids : ∀ c, ((writeBackOp c o words preds).complete s.tick o).uid = c.uid := fun c => by
    rw [Crew.complete_uid, writeBackOp]
    split <;> rfl
  have goes' : ((writeBackOp d o words preds).complete s.tick o).terminating = false := by
    show (writeBackOp d o words preds).terminating = false
    rw [writeBackOp]
    split <;> exact goes
  have mapped := fun v => State.crew?_mapCrew s uid v (fun c => (writeBackOp c o words preds).complete s.tick o) uids
  have settled : endOp s uid o words preds = s.mapCrew uid fun c => (writeBackOp c o words preds).complete s.tick o := by
    rw [endOp, settleEnd, mapped, if_pos rfl, crew]
    simp only [Option.map_some, goes', Bool.false_and, Bool.false_eq_true, if_false]
  rw [settled, mapped, crew]
  rfl

/-- What the end of an operation leaves of the machine. -/
theorem performed_endOp {s s1 : State} {uid : Nat} {c d : Crew} (crew : s1.crew? uid = some d) (gangs : d.gangs = c.gangs)
    (goes : d.terminating = false) (launches : s1.launches = s.launches) (ctxs : s1.ctxs = s.ctxs) (agenda : s1.agenda = s.agenda)
    (o : Op) (words : List Word) (preds : List (Nat × Bool)) :
    Performed s (endOp s1 uid o words preds) uid c o words preds := by
  obtain ⟨_, _, ends⟩ := endOp_ends s1 uid o words preds
  refine ⟨⟨_, (endOp_crew crew goes o words preds uid).trans (if_pos rfl), fun p mem => ?_, ?_⟩, ?_, ?_, ?_⟩
  · have left := (List.mem_filter.mp (show p ∈ (writeBackOp d o words preds).ops.filter fun p => p.id != o.id from mem)).2
    exact bne_iff_ne.mp left
  · obtain ⟨regs, preds, gregs, rest⟩ := (Crew.gave_complete d s1.tick o words preds).of_gangs gangs
    refine ⟨regs, preds, fun k q => ?_, rest⟩
    split <;> rename_i takes
    · exact (gregs k q).1 takes
    · exact (gregs k q).2 takes
  · rw [ends]
    exact launches
  · rw [ends]
    exact ctxs
  · rw [ends]
    exact agenda

/-! What an access does to the caches. -/

theorem memorySide_writes (s : State) (lf : Leaf) : OnlyWrites s (memorySide s lf) :=
  (l2Drop_walked s _).writes.trans ⟨_, _, _, _, _, _, _, _, _, _, _, rfl⟩

theorem l1Add_writes (s : State) (core line : Nat) : OnlyWrites s (l1Add s core line) := ⟨_, _, _, _, _, _, _, _, _, _, _, rfl⟩

theorem l1Drop_writes (s : State) (line : Nat) : OnlyWrites s (l1Drop s line) := ⟨_, _, _, _, _, _, _, _, _, _, _, rfl⟩

theorem cacheLine_writes (s : State) (c : Crew) (o : Op) (p : Policy) (isLoad : Bool) (lf : Leaf) : OnlyWrites s (cacheLine s c o p isLoad lf) := by
  have looks := fun d n w => (accessL2_walked s (lf.pa / 128) (fillClass s c lf.prot) d (!isLoad) n w).writes
  unfold cacheLine
  dsimp only
  split
  · split
    · exact .refl s
    · exact l1Drop_writes ..
  · split
    · split
      · split
        · exact l1Add_writes ..
        · exact (looks ..).trans (l1Add_writes ..)
      · exact looks ..
    · exact (looks ..).trans ⟨_, _, _, _, _, _, _, _, _, _, _, rfl⟩

/-- A line of a load changes no byte of HBM. -/
theorem cacheLine_hbm (s : State) (c : Crew) (o : Op) (p : Policy) (isLoad : Bool) (lf : Leaf) : (cacheLine s c o p isLoad lf).hbm = s.hbm := by
  have looks := fun d n w => (accessL2_walked s (lf.pa / 128) (fillClass s c lf.prot) d (!isLoad) n w).hbm
  unfold cacheLine
  dsimp only
  split
  · split <;> rfl
  · split
    · split
      · split
        · rfl
        · exact looks ..
      · exact looks ..
    · exact looks ..

/-- A load. -/
def OpKind.isLoad : OpKind → Bool
  | .load _ _ _ _ => true
  | _ => false

/-- An access changes the caches, and logs pages where it writes; then the lines that it looked up are noted at the operations of its
instruction. -/
theorem cacheAccess_eq (s : State) (c : Crew) (o : Op) : ∃ u, OnlyWrites s u ∧ (o.kind.isLoad = true → u.hbm = s.hbm) ∧
    (cacheAccess s c o = u ∨ ∃ f : List Op → List Op, cacheAccess s c o = u.mapCrew c.uid fun c => { c with ops := f c.ops }) := by
  unfold cacheAccess
  split
  · refine ⟨_, ?_, ?_, .inr ⟨_, rfl⟩⟩
    · refine .trans ?_ (foldl_writes _ (fun s lf => ?_) _ _)
      · refine .trans ?_ (touch_walked _ _).writes
        exact iteInduction (motive := OnlyWrites s) (fun _ => .refl s) fun _ => foldl_writes _ (fun s p => logDirty_writes ..) _ _
      · exact iteInduction (motive := OnlyWrites s) (fun _ => memorySide_writes s lf) fun _ => cacheLine_writes ..
    · intro load
      refine (foldl_view State.hbm (fun s lf => ?_) _ _).trans ((touch_walked _ _).hbm.trans ?_)
      · exact iteInduction (motive := fun t : State => t.hbm = s.hbm) (fun _ => (l2Drop_walked s _).hbm) fun _ => cacheLine_hbm ..
      · cases kind : o.kind <;> simp [kind, OpKind.isLoad] at load
        rfl
  · exact ⟨s, .refl s, fun _ => rfl, .inl rfl⟩

/-- The crews after an access: its own differs in its operations alone. -/
theorem cacheAccess_crew {s : State} {c : Crew} {uid : Nat} (crew : s.crew? uid = some c) (o : Op) :
    ∃ ops, ∀ u, (cacheAccess s c o).crew? u = if u = uid then some { c with ops := ops } else s.crew? u := by
  obtain ⟨t, writes, _, same | ⟨f, same⟩⟩ := cacheAccess_eq s c o
  · refine ⟨c.ops, fun u => ?_⟩
    rw [same, State.crew?, writes.crews]
    split <;> rename_i own
    · exact own ▸ crew
    · rfl
  · refine ⟨f c.ops, fun u => ?_⟩
    have kept : t.crew? = s.crew? := by
      funext v
      rw [State.crew?, writes.crews]
      rfl
    obtain rfl := State.crew?_uid crew
    rw [same, State.crew?_mapCrew _ _ _ (fun c => { c with ops := f c.ops }) fun _ => rfl, kept, crew]
    rfl

/-- What an access leaves of the machine beside HBM, caches and crews. -/
theorem cacheAccess_rest (s : State) (c : Crew) (o : Op) : (cacheAccess s c o).host = s.host ∧ (cacheAccess s c o).vaults = s.vaults ∧
    (cacheAccess s c o).launches = s.launches ∧ (cacheAccess s c o).ctxs = s.ctxs ∧ (cacheAccess s c o).agenda = s.agenda := by
  obtain ⟨t, ⟨_, _, _, _, _, _, _, _, _, _, _, rfl⟩, _, same | ⟨f, same⟩⟩ := cacheAccess_eq s c o <;>
  · rw [same]
    exact ⟨rfl, rfl, rfl, rfl, rfl⟩

theorem cacheAccess_load {s : State} {c : Crew} {o : Op} (load : o.kind.isLoad = true) : (cacheAccess s c o).hbm = s.hbm := by
  obtain ⟨t, _, hbm, same | ⟨f, same⟩⟩ := cacheAccess_eq s c o
  · rw [same, hbm load]
  · rw [same]
    exact hbm load

/-! A load. -/

/-- The bytes of a load: those that parts of it have read, and what stands there now. -/
def loadBytes (s : State) (key : Option Nat) (places : List Loc) (n : Nat) (got : List (Nat × Byte)) : List Byte :=
  (List.range n).map fun j => match got.find? fun x => x.1 == j with
    | some x => x.2
    | none => readLoc s key (places.getD j .nowhere)

theorem loadBytes_whole (s : State) (key : Option Nat) (places : List Loc) :
    loadBytes s key places places.length [] = places.map (readLoc s key) := by
  refine List.ext_getElem (by simp [loadBytes]) fun j low _ => ?_
  have low : j < places.length := by simpa [loadBytes] using low
  simp [loadBytes, low]

/-- An operation that may perform reaches as many places as it has bytes. -/
theorem Performs.places {s : State} {uid op n : Nat} {c : Crew} {o : Op} {a : Addr} (performs : Performs s uid op c o a n) :
    (addrLocs s c a n).length = n := by
  have notFab := performs.here.2.1
  have ready := performs.ready
  simp only [opReady, Bool.and_eq_true] at ready
  have found := ready.1.1.2
  rw [resolved, performs.addr] at found
  cases a with
  | fab m x => simp [OpKind.fab?, performs.addr] at notFab
  | _ => simpa using found

/-- An operation that may perform does. -/
theorem Performs.exec {s : State} {uid op n : Nat} {c : Crew} {o : Op} {a : Addr} (performs : Performs s uid op c o a n) :
    Machine.exec (.memoryOpComplete uid op) s = finish (performOp s c o) := by
  obtain ⟨near, notFab, owes⟩ := performs.here
  obtain rfl := Crew.op?_id performs.op
  have any : performAny s c o = performOp s c o := by
    have addr := performs.addr
    cases kind : o.kind <;> rw [kind] at addr <;> simp only [OpKind.addr?, reduceCtorEq] at addr <;>
      simp only [performAny, kind, performs.ready, if_true]
  rw [exec_performs performs.crew performs.op performs.runs.1 owes near notFab, any]

/-- Settles O28: the load reads its bytes, and its crew alone changes. -/
theorem loadsPerform : Obligations.LoadsPerform := by
  unfold Obligations.LoadsPerform
  intro s uid op n c o a p z d stored performs kind stored' key places read
  obtain ⟨ops, crews⟩ := cacheAccess_crew performs.crew o
  obtain ⟨host, vaults, launches, ctxs, agenda⟩ := cacheAccess_rest s c o
  have own : c.uid = uid := State.crew?_uid performs.crew
  have crew := (crews uid).trans (if_pos rfl)
  have does : performOp s c o = endOp (cacheAccess s c o) uid o (extendLoad z read) [] := by
    have length := performs.places
    have writes : o.kind.writes = false := by rw [kind]; rfl
    have bytes : read = natOfBytes (loadBytes (cacheAccess s c o) key places places.length o.got) := by rw [length]; rfl
    simp only [performOp, performs.addr, writes, Bool.false_eq_true, if_false, own]
    rw [bytes, kind]
    cases o.got with
    | nil => rw [loadBytes_whole]; rfl
    | cons x xs => rfl
  have ends := endOp_ends (cacheAccess s c o) uid o (extendLoad z read) []
  have after := endOp_crew crew performs.runs.2 o (extendLoad z read) []
  refine ⟨_, performs.exec.trans (by rw [does]; exact finish_next (ends.bad.trans stored')),
    performed_endOp (c := c) crew rfl performs.runs.2 launches ctxs agenda o _ _, ends.hbm.trans (cacheAccess_load (by rw [kind]; rfl)),
    ends.host.trans host, ends.vaults.trans vaults, fun u other => ?_, fun off => ?_⟩
  · rw [after, if_neg other, crews, if_neg other]
  · simp only [State.raw, after, if_true, performs.crew, Crew.complete]
    rw [writeBackOp]
    split <;> rfl

end Sys2Proof.Machine
end

section
/-!
SUPPORT. A sealed line whose plaintext is longer than the line: a world's store to it puts all of that plaintext back, and so writes
the line that follows.
-/

namespace Sys2Proof.Machine

/-- One byte more than a line. -/
def overlongPlain : List Byte := List.replicate 128 0#8 ++ [1#8]

/-- A sealed line at PA 0 that keeps 129 bytes of plaintext. -/
def overlongLine : WorldLine := { line := 0, key := 5, plain := some (0, overlongPlain) }

/-- The byte at PA 0, through a page with PROT = 1 that no cache holds. -/
def protectedByte : Addr := .glob 4 0 [GByte.plain { pa := 0, gpa := 0, cp := 2, ms := false, prot := true }]

/-- A store of one byte to that line, which may perform. -/
def protectedStore : Op :=
  { id := 1, gang := 0, lanes := 1#32, stream := 0, mask := 0, scope := 1, pc := 0#64, issue := 0, after := [], dropped := false, looked := []
    mod := 0, route := 0#64, got := [], kind := .store protectedByte .n8 7 }

/-- A crew of a world with that store pending. -/
def worldCrew : Crew := { Crew.fresh 1 1 0 0 0 0 64 4096 0 false [Gang.fresh .user 0#64 1 []] with ops := [protectedStore], nextOp := 2 }

/-- A machine whose HBM holds the line's sealed bytes and nothing else. -/
def overlongState : State :=
  { State.reset with
    crews := [worldCrew], launches := [{ Launch.blank with id := 1, world := true, wkey := 5 }], worldLines := [overlongLine]
    hbm := pokeN [] 0 (sealedBytes overlongLine 0) }

theorem peekN_getElem (m : List Host.Cell) (a n j : Nat) (low : j < (peekN m a n).length) : (peekN m a n)[j] = peek m (a + j) := by
  induction n generalizing a j with
  | zero => simp [peekN] at low
  | succ n ih =>
    cases j with
    | zero => rfl
    | succ j =>
      have low' : j < (peekN m (a + 1) n).length := by simpa [peekN] using low
      rw [show a + (j + 1) = a + 1 + j by omega]
      exact ih (a + 1) j low'

/-- What was written reads back. -/
theorem peekN_pokeN (m : List Host.Cell) (a : Nat) (bs : List Byte) : peekN (pokeN m a bs) a bs.length = bs := by
  refine List.ext_getElem (peekN_length ..) fun j low low' => ?_
  rw [peekN_getElem, peek_pokeN, if_pos (by omega), Nat.add_sub_cancel_left, getD_of_lt _ low']

theorem sealedBytes_length (w : WorldLine) (v : Nat) : (sealedBytes w v).length = 128 := by simp [sealedBytes]

theorem overlongLine_intact {s : State} (hbm : s.hbm = overlongState.hbm) : sealIntact s overlongLine = true := by
  have back := peekN_pokeN [] 0 (sealedBytes overlongLine 0)
  rw [sealedBytes_length] at back
  exact beq_iff_eq.mpr ((congrArg (peekN · 0 128) hbm).trans back)

/-- The line's seal holds for its world's key. -/
theorem overlongLine_holds {s : State} (hbm : s.hbm = overlongState.hbm) (lines : s.worldLines = [overlongLine]) :
    sealBroken s (some 5) 0 = false := by
  have found : sealedFor s (some 5) 0 = some overlongLine := by
    rw [sealedFor, lines]
    rfl
  simp [sealBroken, found, overlongLine_intact hbm]

theorem protectedStore_performs : Performs overlongState 1 1 worldCrew protectedStore protectedByte 1 := by
  refine ⟨rfl, ⟨rfl, rfl⟩, rfl, rfl, ⟨rfl, rfl, rfl⟩, ?_⟩
  have intact : sealsHold overlongState worldCrew protectedStore.kind = true :=
    show (!sealBroken overlongState (some 5) 0 && true) = true by rw [overlongLine_holds rfl rfl]; rfl
  simp only [opReady, intact]
  rfl

/-- The state after the caches were looked up. -/
def overlongLooked : State := cacheAccess overlongState worldCrew protectedStore

theorem overlongLooked_hbm : overlongLooked.hbm = overlongState.hbm := by rfl

theorem overlongLooked_lines : overlongLooked.worldLines = [overlongLine] := by rfl

/-- A world's write of its own sealed line puts the line's plaintext back. -/
theorem writeByte_intact {s : State} {launch pa v : Nat} {b : Byte} {w : WorldLine} {bs : List Byte} (has : hbmHas pa = true)
    (found : sealedFor s (some w.key) pa = some w) (plain : w.plain = some (v, bs)) (intact : sealIntact s w = true) :
    (writeByte s (some (launch, w.key)) pa b).hbm = poke (pokeN s.hbm (128 * w.line) bs) pa b ∧
      (writeByte s (some (launch, w.key)) pa b).bad = s.bad := by
  simp only [writeByte, has, if_true, Option.map_some, found, intact, plain, Option.getD_some]
  exact ⟨trivial, rfl⟩

/-- The store puts all 129 bytes of plaintext back. -/
theorem writeByte_overlong : (writeByte overlongLooked (some (1, 5)) 0 7#8).hbm = poke (pokeN overlongLooked.hbm 0 overlongPlain) 0 7#8 ∧
    (writeByte overlongLooked (some (1, 5)) 0 7#8).bad = none := by
  have found : sealedFor overlongLooked (some 5) 0 = some overlongLine := by
    rw [sealedFor, overlongLooked_lines]
    rfl
  exact writeByte_intact (w := overlongLine) (by decide) found rfl (overlongLine_intact overlongLooked_hbm)

/-- What the store leaves before its operation ends. -/
theorem performOp_protected : performOp overlongState worldCrew protectedStore =
    endOp (notePast overlongLooked (writeByte overlongLooked (some (1, 5)) 0 7#8) worldCrew protectedStore [.phys 0 true true]) 1 protectedStore
      [] [] := by rfl

/-- Refutes O29: the store writes the byte that follows its line, which it does not reach. -/
theorem not_storesAndAtomicsPerform : ¬ Obligations.StoresAndAtomicsPerform := by
  unfold Obligations.StoresAndAtomicsPerform
  intro writes
  obtain ⟨hbm, bad⟩ := writeByte_overlong
  have holds : sealsHold overlongLooked worldCrew protectedStore.kind = true :=
    show (!sealBroken overlongLooked (some 5) 0 && true) = true by rw [overlongLine_holds overlongLooked_hbm overlongLooked_lines]; rfl
  obtain ⟨t, steps, _, _, others, _⟩ := writes overlongState 1 1 1 worldCrew protectedStore protectedByte rfl protectedStore_performs nofun
    bad holds (by decide)
  have kept : t.raw (.phys 128 false false) = overlongLooked.raw (.phys 128 false false) :=
    others _ fun l mem => by
      obtain rfl := List.mem_singleton.mp (show l ∈ [Loc.phys 0 true true] from mem)
      exact ⟨rfl, .inr rfl⟩
  have performed : t.hbm = (writeByte overlongLooked (some (1, 5)) 0 7#8).hbm := by
    have ends := endOp_ends (notePast overlongLooked (writeByte overlongLooked (some (1, 5)) 0 7#8) worldCrew protectedStore [.phys 0 true true])
      1 protectedStore [] []
    have performs := protectedStore_performs.exec
    rw [performOp_protected, finish_next (ends.bad.trans bad)] at performs
    cases steps.symm.trans performs
    exact ends.hbm
  have written : peek t.hbm 128 = 1#8 := by
    rw [performed, hbm, peek_poke, if_neg (by decide), peek_pokeN]
    simp [overlongPlain]
  have blank : peek overlongLooked.hbm 128 = 0#8 := by
    rw [overlongLooked_hbm, overlongState, peek_pokeN, sealedBytes_length]
    rfl
  exact absurd (written.symm.trans (kept.trans blank)) (by decide)

end Sys2Proof.Machine
end

section
/-!
SUPPORT. Maintenance operations: the lines of a range, and what each does to the caches (R309 to R312).
-/

namespace Sys2Proof.Machine

/-! L2. -/

@[simp] theorem writeBack_bad (s : State) (l : L2Line) : (writeBack s l).bad = s.bad := by
  unfold writeBack
  split <;> rfl

@[simp] theorem l2Drop_bad (s : State) (line : Nat) : (l2Drop s line).bad = s.bad := by
  unfold l2Drop
  split
  · exact writeBack_bad ..
  · rfl

theorem fillL2_bad (s : State) (line cls : Nat) (lru dirty : Bool) (world : Option Nat) : (fillL2 s line cls lru dirty world).bad = s.bad := by
  unfold fillL2
  split
  · split <;> rfl
  · dsimp only
    rw [apply_ite State.bad]
    split
    · split <;> first | exact writeBack_bad .. | rfl
    · split <;> first | exact writeBack_bad .. | rfl

theorem accessL2_bad (s : State) (line cls : Nat) (lru dirty : Bool) (counted world : Option Nat) :
    (accessL2 s line cls lru dirty counted world).bad = s.bad := by
  unfold accessL2
  dsimp only
  split
  · split
    · refine (fillL2_bad ..).trans ((l2Drop_bad ..).trans ?_)
      cases counted <;> rfl
    · cases counted <;> rfl
  · refine (fillL2_bad ..).trans ?_
    cases counted <;> rfl

/-- A line that is dropped is in L2 no more. -/
theorem l2Drop_l2 (s : State) (line : Nat) : (l2Drop s line).l2 = s.l2.filter fun x => x.line != line := by
  unfold l2Drop
  split
  · rfl
  · rename_i absent
    refine (List.filter_eq_self.mpr fun x mem => ?_).symm
    exact bne_iff_ne.mpr fun same => List.find?_eq_none.mp absent x mem (beq_iff_eq.mpr same)

/-- A line of L2 after the lines of a list were written back. -/
def L2Line.cleaned (lines : List Nat) (x : L2Line) : L2Line := if x.line ∈ lines then { x with dirty := false, under := none } else x

theorem L2Line.cleaned_line (lines : List Nat) (x : L2Line) : (x.cleaned lines).line = x.line := by
  unfold L2Line.cleaned
  split <;> rfl

theorem L2Line.cleaned_other {lines : List Nat} {x : L2Line} (other : x.line ∉ lines) : x.cleaned lines = x := if_neg other

theorem L2Line.cleaned_cons (n : Nat) (ns : List Nat) (x : L2Line) : (x.cleaned [n]).cleaned ns = x.cleaned (n :: ns) := by
  by_cases own : x.line = n <;> by_cases rest : x.line ∈ ns <;> simp [L2Line.cleaned, own, rest]

theorem cleanLine_l2 (s : State) (line : Nat) : (cleanLine s line).l2 = s.l2.map (L2Line.cleaned [line]) := by
  unfold cleanLine
  split
  · exact List.map_congr_left fun x _ => by simp [L2Line.cleaned]
  · rename_i absent
    refine (List.map_id _).symm.trans (List.map_congr_left fun x mem => (L2Line.cleaned_other fun own => ?_).symm)
    exact List.find?_eq_none.mp absent x mem (beq_iff_eq.mpr (List.mem_singleton.mp own))

/-- L2 after the lines of a list were written back. -/
theorem cleanLines_l2 (lines : List Nat) (s : State) : (lines.foldl cleanLine s).l2 = s.l2.map (L2Line.cleaned lines) := by
  induction lines generalizing s with
  | nil => exact ((List.map_congr_left fun x _ => L2Line.cleaned_other (List.not_mem_nil)).trans (List.map_id _)).symm
  | cons n ns ih =>
    rw [List.foldl_cons, ih, cleanLine_l2, List.map_map]
    exact List.map_congr_left fun x _ => L2Line.cleaned_cons n ns x

/-- The caches after the lines of a list were invalidated in L2 and every L1. -/
theorem dropLines_caches (lines : List Nat) (s : State) :
    (∀ e, e ∈ (lines.foldl (fun s l => l1Drop (l2Drop s l) l) s).l2 ↔ e ∈ s.l2 ∧ e.line ∉ lines) ∧
      ∀ e, e ∈ (lines.foldl (fun s l => l1Drop (l2Drop s l) l) s).l1 ↔ e ∈ s.l1 ∧ e.2 ∉ lines := by
  induction lines generalizing s with
  | nil => simp
  | cons n ns ih =>
    obtain ⟨second, first⟩ := ih (l1Drop (l2Drop s n) n)
    have l2 : (l1Drop (l2Drop s n) n).l2 = s.l2.filter fun x => x.line != n := l2Drop_l2 s n
    have l1 : (l1Drop (l2Drop s n) n).l1 = s.l1.filter fun e => e.2 != n := by
      obtain ⟨_, _, _, _, _, _, _, walked⟩ := l2Drop_walked s n
      rw [walked]
      rfl
    refine ⟨fun e => (second e).trans ?_, fun e => (first e).trans ?_⟩
    · rw [l2, List.mem_filter, bne_iff_ne, List.mem_cons, not_or, and_assoc]
    · rw [l1, List.mem_filter, bne_iff_ne, List.mem_cons, not_or, and_assoc]

/-! The dropped pages of a hint. -/

theorem State.ctxAt_names (s : State) (vf ctx : Nat) : (s.ctxAt vf ctx).vf = vf ∧ (s.ctxAt vf ctx).ctx = ctx := by
  unfold State.ctxAt
  cases found : s.ctxs.find? fun c => c.vf == vf && c.ctx == ctx with
  | none => exact ⟨rfl, rfl⟩
  | some c => simpa using List.find?_some found

theorem State.setCtx_ctxAt (s : State) (x : Ctx) : (s.setCtx x).ctxAt x.vf x.ctx = x := by
  have names : ∀ d : Ctx, (d.vf == x.vf && d.ctx == x.ctx) = true ↔ d.vf = x.vf ∧ d.ctx = x.ctx := fun d => by simp
  unfold State.setCtx
  split <;> rename_i known
  · have kept : ((fun c : Ctx => c.vf == x.vf && c.ctx == x.ctx) ∘ fun d => if d.vf = x.vf ∧ d.ctx = x.ctx then x else d) =
        fun c => c.vf == x.vf && c.ctx == x.ctx := by
      funext d
      by_cases own : d.vf = x.vf ∧ d.ctx = x.ctx <;> simp [own]
    obtain ⟨d, found⟩ := Option.isSome_iff_exists.mp (List.find?_isSome.mpr (List.any_eq_true.mp known))
    have own := (names d).mp (List.find?_some (p := fun c : Ctx => c.vf == x.vf && c.ctx == x.ctx) found)
    rw [State.ctxAt, List.find?_map, kept, found, Option.map_some, if_pos own, Option.getD_some]
  · have absent : s.ctxs.find? (fun c => c.vf == x.vf && c.ctx == x.ctx) = none :=
      List.find?_eq_none.mpr fun d mem own => known (List.any_eq_true.mpr ⟨d, mem, own⟩)
    simp [State.ctxAt, List.find?_append, absent]

theorem State.mapCtx_ctxAt (s : State) (vf ctx : Nat) {f : Ctx → Ctx} (keeps : ∀ x, (f x).vf = x.vf ∧ (f x).ctx = x.ctx) :
    (s.mapCtx vf ctx f).ctxAt vf ctx = f (s.ctxAt vf ctx) := by
  have put := State.setCtx_ctxAt s (f (s.ctxAt vf ctx))
  rwa [(keeps _).1, (keeps _).2, (s.ctxAt_names vf ctx).1, (s.ctxAt_names vf ctx).2] at put

theorem hintDrop_counts (s : State) (vf ctx n : Nat) :
    ((hintDrop s vf ctx n).ctxAt vf ctx).hintdrop.toNat = min ((s.ctxAt vf ctx).hintdrop.toNat + n) (2 ^ 32 - 1) := by
  have small := (s.ctxAt vf ctx).hintdrop.isLt
  unfold hintDrop
  split <;> rename_i none
  · omega
  · have put := State.mapCtx_ctxAt s vf ctx (f := fun x => { x with hintdrop := BitVec.ofNat 32 (min (x.hintdrop.toNat + n) (2 ^ 32 - 1)) })
      fun _ => ⟨rfl, rfl⟩
    rw [put, BitVec.toNat_ofNat, Nat.mod_eq_of_lt (by omega)]

theorem hintDrop_keeps (s : State) (vf ctx n : Nat) : (hintDrop s vf ctx n).bad = s.bad ∧ (hintDrop s vf ctx n).hbm = s.hbm ∧
    (hintDrop s vf ctx n).host = s.host := by
  unfold hintDrop
  split
  · exact ⟨rfl, rfl, rfl⟩
  · simp

/-! The lines of a range. -/

theorem foldl_walked {α β : Type} {f : State × α → β → State × α} (hf : ∀ x b, OnlyWalks x.1 (f x b).1) (bs : List β) (x : State × α) :
    OnlyWalks x.1 (bs.foldl f x).1 := by
  induction bs generalizing x with
  | nil => exact .refl x.1
  | cons b bs ih => exact (hf x b).trans (ih _)

theorem rangeLines_walked (s : State) (c : Crew) (mode : Mode) (va len : Nat) : OnlyWalks s (rangeLines s c mode va len).1 := by
  unfold rangeLines
  split
  · exact .refl s
  · refine foldl_walked (fun x k => ?_) _ _
    have walked := translate_walked x.1 (c.who s mode) 0 ((va / 65536 + k) * 65536)
    dsimp only
    split <;> rename_i translated <;> rw [translated] at walked <;> exact walked

theorem cleanLines_keeps (lines : List Nat) (s : State) : (lines.foldl cleanLine s).bad = s.bad ∧ (lines.foldl cleanLine s).hbm = s.hbm ∧
    (lines.foldl cleanLine s).host = s.host ∧ (lines.foldl cleanLine s).l1 = s.l1 := by
  have one : ∀ s n, (cleanLine s n).bad = s.bad ∧ (cleanLine s n).hbm = s.hbm ∧ (cleanLine s n).host = s.host ∧ (cleanLine s n).l1 = s.l1 :=
    fun s n => by
      unfold cleanLine
      split
      · rename_i l _
        obtain ⟨_, _, _, _, _, _, _, walked⟩ := writeBack_walked s l
        exact ⟨writeBack_bad .., by rw [walked], by rw [walked], by rw [walked]⟩
      · exact ⟨rfl, rfl, rfl, rfl⟩
  exact ⟨foldl_view State.bad (fun s n => (one s n).1) _ _, foldl_view State.hbm (fun s n => (one s n).2.1) _ _,
    foldl_view State.host (fun s n => (one s n).2.2.1) _ _, foldl_view State.l1 (fun s n => (one s n).2.2.2) _ _⟩

theorem OnlyWalks.ibuf {s t : State} (h : OnlyWalks s t) : t.ibuf = s.ibuf := by obtain ⟨_, _, _, _, _, _, _, rfl⟩ := h; rfl

theorem OnlyWalks.l1 {s t : State} (h : OnlyWalks s t) : t.l1 = s.l1 := by obtain ⟨_, _, _, _, _, _, _, rfl⟩ := h; rfl

/-! The lines that gangs hold. -/

/-- What each gang of a crew holds of a line. -/
def Crew.heldLines (c : Crew) : List (Option (Nat × List Byte) × Nat) := c.gangs.map fun g => (g.line, g.linePa)

theorem modifyNth_view {α β : Type} (view : α → β) {f : α → α} (keeps : ∀ x, view (f x) = view x) (xs : List α) (n : Nat) :
    (modifyNth xs n f).map view = xs.map view := by
  induction xs generalizing n with
  | nil => rfl
  | cons x xs ih => cases n <;> simp [modifyNth, keeps, ih]

theorem Crew.heldLines_mapGang (c : Crew) (k : Nat) {f : Gang → Gang} (keeps : ∀ g, (f g).line = g.line ∧ (f g).linePa = g.linePa) :
    (c.mapGang k f).heldLines = c.heldLines :=
  modifyNth_view _ (fun g => by rw [(keeps g).1, (keeps g).2]) _ _

/-- The end of an operation changes no line that a gang holds. -/
theorem Crew.heldLines_ended (c : Crew) (tick : Nat) (o : Op) (words : List Word) (preds : List (Nat × Bool)) :
    ((writeBackOp c o words preds).complete tick o).heldLines = c.heldLines := by
  have given : (writeBackOp c o words preds).heldLines = c.heldLines := by
    unfold writeBackOp
    dsimp only
    split
    · rfl
    · refine c.heldLines_mapGang _ fun g => ?_
      cases o.kind.dst.1 with
      | g q => simp [writeOpnd, Gang.mapLane]
      | _ => exact ⟨rfl, rfl⟩
  have counted := Crew.heldLines_mapGang { writeBackOp c o words preds with ops := (writeBackOp c o words preds).ops.filter fun p => p.id != o.id }
    o.gang (f := fun g => g.mapLanes o.lanes fun _ x => x.count o.stream 0 1) fun _ => ⟨rfl, rfl⟩
  refine Eq.trans ?_ (counted.trans given)
  simp only [Crew.complete, Crew.heldLines, List.map_map]
  rfl

theorem mem_mapCrew {uid : Nat} {f : Crew → Crew} {cs : List Crew} {d : Crew} (mem : d ∈ mapCrew uid f cs) : d ∈ cs ∨ ∃ c ∈ cs, d = f c := by
  induction cs with
  | nil => exact .inl mem
  | cons c cs ih =>
    rw [mapCrew] at mem
    split at mem <;> rcases List.mem_cons.mp mem with rfl | mem
    · exact .inr ⟨c, List.mem_cons_self, rfl⟩
    · exact .inl (List.mem_cons_of_mem _ mem)
    · exact .inl List.mem_cons_self
    · rcases ih mem with there | ⟨e, there, same⟩
      · exact .inl (List.mem_cons_of_mem _ there)
      · exact .inr ⟨e, List.mem_cons_of_mem _ there, same⟩

/-- A crew after an operation of one ended was there before, at its place, with its lines. -/
theorem endOp_gangs {s : State} {uid : Nat} {o : Op} {words : List Word} {preds : List (Nat × Bool)} {d : Crew}
    (mem : d ∈ (endOp s uid o words preds).crews) : ∃ c ∈ s.crews, d.isResident = c.isResident ∧ d.coreOf = c.coreOf ∧ d.heldLines = c.heldLines := by
  have kept : d ∈ (s.mapCrew uid fun c => (writeBackOp c o words preds).complete s.tick o).crews := by
    unfold endOp settleEnd at mem
    split at mem
    · split at mem
      · exact (List.mem_filter.mp mem).1
      · exact mem
    · exact mem
  have place : ∀ c, (writeBackOp c o words preds).isResident = c.isResident ∧ (writeBackOp c o words preds).coreOf = c.coreOf := fun c => by
    unfold writeBackOp
    dsimp only
    split <;> exact ⟨rfl, rfl⟩
  rcases mem_mapCrew kept with same | ⟨c, there, rfl⟩
  · exact ⟨d, same, rfl, rfl, rfl⟩
  · exact ⟨c, there, (place c).1, (place c).2, c.heldLines_ended ..⟩

/-- No gang in the scope of an `iinv` holds a line of its range any more. -/
theorem dropCopies_dropped {s : State} {c d : Crew} {scope : Nat} {lines : List Nat} {x : Option (Nat × List Byte) × Nat}
    (mem : d ∈ (dropCopies s c scope lines).crews) (resident : d.isResident = true) (near : iinvCores c scope d.coreOf = true)
    (held : x ∈ d.heldLines) (named : x.2 / 128 ∈ lines) : x.1 = none := by
  obtain ⟨e, _, drops⟩ := List.mem_map.mp mem
  have same : d.isResident = e.isResident ∧ d.coreOf = e.coreOf := by
    rw [← drops]
    split <;> exact ⟨rfl, rfl⟩
  have inScope : (e.isResident && iinvCores c scope e.coreOf) = true := by rw [← same.1, ← same.2, resident, near]; rfl
  rw [if_pos inScope] at drops
  subst drops
  obtain ⟨g, there, rfl⟩ := List.mem_map.mp held
  obtain ⟨f, _, rfl⟩ := List.mem_map.mp there
  dsimp only at named ⊢
  split at named <;> rename_i drop
  · rw [if_pos drop]
  · exact absurd (List.contains_iff_mem.mpr named) drop

/-! What a maintenance operation leaves. -/

section Maintenance

variable {s : State} {uid op : Nat} {c : Crew} {o : Op} (stored : Stored s) (crew : s.crew? uid = some c) (pending : c.op? op = some o)
  (resident : c.isResident = true) (owes : owing s uid 3 op = false) (after : ∀ i ∈ o.after, ∀ p ∈ c.ops, p.id ≠ i)

include crew pending resident owes after

/-- A maintenance operation that does what it does ends. -/
theorem maintenance_ends {k : Maint} {va len : Nat} {v : State} (kind : o.kind = .maint k va len)
    (does : performMaint s c o k va len = some v) (stored' : Stored v) :
    exec (.memoryOpComplete uid op) s = .next (endOp v uid o [] []) := by
  obtain rfl := State.crew?_uid crew
  have performs := exec_performs crew pending resident owes (by simp [Op.remote, kind]) (by simp [OpKind.fab?, OpKind.addr?, kind])
  rw [performs, performAny, kind]
  dsimp only
  rw [if_pos (afterDone_of_none after), does]
  exact finish_next ((endOp_ends ..).bad.trans stored')

/-- What it leaves, where the end of the operation changes nothing of it. -/
theorem maintenance_leaves {k : Maint} {va len : Nat} {v : State} {left : State → Prop} (kind : o.kind = .maint k va len)
    (does : performMaint s c o k va len = some v) (stored' : Stored v) (hbm : v.hbm = s.hbm) (host : v.host = s.host)
    (leaves : left (endOp v uid o [] [])) :
    ∃ t, exec (.memoryOpComplete uid op) s = .next t ∧ t.hbm = s.hbm ∧ t.host = s.host ∧ left t :=
  have ends := endOp_ends v uid o [] []
  ⟨_, maintenance_ends crew pending resident owes after kind does stored', ends.hbm.trans hbm, ends.host.trans host, leaves⟩

end Maintenance

/-- Settles O30: the lines of the range, and what each operation does to them. -/
theorem maintenancePerforms : Obligations.MaintenancePerforms := by
  unfold Obligations.MaintenancePerforms
  intro s uid op c o stored crew pending resident owes after
  refine ⟨fun k va len s1 kind does stored' => maintenance_ends crew pending resident owes after kind does stored', fun kind => ?fbar,
    fun va len => ?_⟩
  case fbar =>
    obtain rfl := State.crew?_uid crew
    have performs := exec_performs crew pending resident owes (by simp [Op.remote, kind]) (by simp [OpKind.fab?, OpKind.addr?, kind])
    rw [performs, performAny, kind]
    dsimp only
    rw [if_pos (afterDone_of_none after)]
    exact finish_next ((endOp_ends ..).bad.trans stored)
  intro walked u lines la does counts
  have walks : OnlyWalks s u := rangeLines_walked s c _ va len
  have leaves := fun {k v left} => maintenance_leaves (k := k) (va := va) (len := len) (v := v) (left := left) crew pending resident owes after
  have tells : ∀ v, OnlyWrites u v → counts (endOp (hintDrop v la.vf la.ctx walked.2.2) uid o [] []) := fun v writes => by
    obtain ⟨_, _, ends⟩ := endOp_ends (hintDrop v la.vf la.ctx walked.2.2) uid o [] []
    have same : v.ctxAt la.vf la.ctx = s.ctxAt la.vf la.ctx := by rw [State.ctxAt, writes.ctxs, walks.ctxs]; rfl
    have counted := hintDrop_counts v la.vf la.ctx walked.2.2
    rw [same] at counted
    rw [ends]
    exact counted
  have hints : ∀ k v, o.kind = .maint k va len → performMaint s c o k va len = some (hintDrop v la.vf la.ctx walked.2.2) → OnlyWrites u v →
      v.bad = none → v.hbm = u.hbm →
      ∃ t, exec (.memoryOpComplete uid op) s = .next t ∧ t.hbm = s.hbm ∧ t.host = s.host ∧ counts t := fun k v kind hint writes bad hbm => by
    obtain ⟨bad', hbm', host'⟩ := hintDrop_keeps v la.vf la.ctx walked.2.2
    exact leaves kind hint (bad'.trans bad) (hbm'.trans (hbm.trans walks.hbm)) (host'.trans (writes.host.trans walks.host)) (tells v writes)
  refine ⟨fun kind stored' => ?hintL2, fun kind stored' => ?hintL1, fun kind stored' => ?hintLru, fun kind stored' => ?cwbL2,
    fun kind stored' => ?cwbMem, fun kind stored' => ?cinvL1, fun kind stored' => ?cinvL2, fun busy kind => ?busy, fun free kind stored' => ?iinv⟩
  case hintL2 =>
    have looks := fun (s : State) l => accessL2_walked s l la.desc.cls false false none none
    exact hints _ _ kind rfl (foldl_writes _ (fun s l => (looks s l).writes) _ _) ((foldl_bad (fun s l => accessL2_bad ..) _ _).trans stored')
      (foldl_view State.hbm (fun s l => (looks s l).hbm) _ _)
  case hintL1 =>
    have looks := fun (s : State) l => accessL2_walked s l la.desc.cls false false none none
    exact hints _ _ kind rfl (foldl_writes _ (fun s l => (looks s l).writes.trans (l1Add_writes ..)) _ _)
      ((foldl_bad (f := fun s l => l1Add (accessL2 s l la.desc.cls false false none none) c.coreOf l) (fun s l => accessL2_bad ..) _ _).trans stored')
      (foldl_view State.hbm (f := fun s l => l1Add (accessL2 s l la.desc.cls false false none none) c.coreOf l) (fun s l => (looks s l).hbm) _ _)
  case hintLru =>
    have only : ∀ s l, OnlyWalks s (leastRecent s l) := fun s l => by
      unfold leastRecent
      split
      · exact ⟨_, _, _, _, _, _, _, rfl⟩
      · exact .refl s
    have bad : ∀ s l, (leastRecent s l).bad = s.bad := fun s l => by
      unfold leastRecent
      split <;> rfl
    exact hints _ _ kind rfl (foldl_writes _ (fun s l => (only s l).writes) _ _) ((foldl_bad bad _ _).trans stored')
      (foldl_view State.hbm (fun s l => (only s l).hbm) _ _)
  case cwbL2 =>
    obtain ⟨_, _, ends⟩ := endOp_ends u uid o [] []
    exact leaves kind rfl stored' walks.hbm walks.host (by rw [ends]; exact ⟨rfl, walks.l1⟩)
  case cwbMem =>
    obtain ⟨_, _, ends⟩ := endOp_ends (lines.foldl cleanLine u) uid o [] []
    obtain ⟨bad, hbm, host, l1⟩ := cleanLines_keeps lines u
    refine leaves kind rfl (bad.trans stored') (hbm.trans walks.hbm) (host.trans walks.host) ?_
    rw [ends]
    refine ⟨l1.trans walks.l1, ?_, fun e mem named => ?_, fun e other => ?_⟩
    · rw [cleanLines_l2, List.map_map]
      exact List.map_congr_left fun x _ => x.cleaned_line lines
    · rw [cleanLines_l2] at mem
      obtain ⟨x, _, rfl⟩ := List.mem_map.mp mem
      rw [L2Line.cleaned_line] at named
      rw [L2Line.cleaned, if_pos named]
    · rw [cleanLines_l2]
      refine ⟨fun mem => ?_, fun mem => List.mem_map.mpr ⟨e, mem, L2Line.cleaned_other other⟩⟩
      obtain ⟨x, there, rfl⟩ := List.mem_map.mp mem
      rw [L2Line.cleaned_line] at other
      rwa [L2Line.cleaned_other other]
  case cinvL1 =>
    let v : State := { u with l1 := u.l1.filter fun e => !(e.1 == c.coreOf && lines.contains e.2) }
    obtain ⟨_, _, ends⟩ := endOp_ends v uid o [] []
    exact leaves kind (v := v) rfl stored' walks.hbm walks.host (by rw [ends]; exact ⟨rfl, congrArg _ walks.l1⟩)
  case cinvL2 =>
    have drops : ∀ s l, OnlyWalks s (l2Drop s l) := l2Drop_walked
    have writes : OnlyWrites u (lines.foldl (fun s l => l1Drop (l2Drop s l) l) u) :=
      foldl_writes _ (fun s l => (drops s l).writes.trans (l1Drop_writes ..)) _ _
    obtain ⟨_, _, ends⟩ := endOp_ends (lines.foldl (fun s l => l1Drop (l2Drop s l) l) u) uid o [] []
    obtain ⟨second, first⟩ := dropLines_caches lines u
    refine leaves kind rfl ((foldl_bad (f := fun s l => l1Drop (l2Drop s l) l) (fun s l => l2Drop_bad ..) _ _).trans stored')
      ((foldl_view State.hbm (f := fun s l => l1Drop (l2Drop s l) l) (fun s l => (drops s l).hbm) _ _).trans walks.hbm) (writes.host.trans walks.host) ?_
    rw [ends]
    exact ⟨second, fun e => by rw [← walks.l1]; exact first e⟩
  case busy =>
    obtain rfl := State.crew?_uid crew
    have performs := exec_performs crew pending resident owes (by simp [Op.remote, kind]) (by simp [OpKind.fab?, OpKind.addr?, kind])
    have waits : performMaint s c o .iinv va len = none := if_pos busy
    rw [performs, performAny, kind]
    dsimp only
    rw [if_pos (afterDone_of_none after), waits]
    exact finish_next stored
  case iinv =>
    let v : State := dropCopies (dropInstr u c o.scope lines) c o.scope lines
    obtain ⟨_, _, ends⟩ := endOp_ends v uid o [] []
    refine leaves kind (v := v) (if_neg (Bool.eq_false_iff.mp free)) stored' walks.hbm walks.host ⟨fun e => ?_, fun d mem resident near g there named => ?_⟩
    · have ibuf : (endOp v uid o [] []).ibuf = u.ibuf.filter fun e => !(iinvCores c o.scope e.1 && lines.contains (e.2.1 / 128)) := by
        rw [ends]
        rfl
      rw [ibuf, walks.ibuf]
      simp only [List.mem_filter, Bool.not_eq_true', Bool.eq_false_iff, ne_eq, Bool.and_eq_true, List.contains_iff_mem]
    · obtain ⟨e, from_, residence, core, held⟩ := endOp_gangs mem
      have there' : (g.line, g.linePa) ∈ e.heldLines := held ▸ List.mem_map_of_mem there
      exact dropCopies_dropped from_ (residence ▸ resident) (core ▸ near) there' named

end Sys2Proof.Machine
end

section
/-!
SUPPORT. What the engines of a camp leave of the crews while they write: everything but the scratchpads. A running tile task and a `stage`
complete (O38).
-/
namespace Sys2Proof.Machine

/-- A crew with an empty scratchpad. -/
def Crew.unscratched (c : Crew) : Crew := { c with scratch := [] }

theorem Crew.of_unscratched {c d : Crew} (same : d.unscratched = c.unscratched) : d.tasks = c.tasks ∧ d.terminating = c.terminating :=
  ⟨congrArg (fun x => x.tasks) same, congrArg (fun x => x.terminating) same⟩

/-- The crews are the same but for their scratchpads. -/
def State.SameButScratch (s t : State) : Prop := t.crews.map Crew.unscratched = s.crews.map Crew.unscratched

theorem State.SameButScratch.refl (s : State) : s.SameButScratch s := rfl

theorem State.SameButScratch.trans {s t u : State} (h : s.SameButScratch t) (k : t.SameButScratch u) : s.SameButScratch u := Eq.trans k h

theorem State.SameButScratch.of_crews {s t : State} (h : t.crews = s.crews) : s.SameButScratch t := congrArg _ h

theorem map_mapCrew_of_same {α : Type} {view : Crew → α} {f : Crew → Crew} (same : ∀ c, view (f c) = view c) (uid : Nat) (cs : List Crew) :
    (mapCrew uid f cs).map view = cs.map view := by
  induction cs with
  | nil => rfl
  | cons c cs ih =>
    unfold mapCrew
    split
    · simp [same]
    · simp [ih]

theorem find?_of_map_eq {α β : Type} {view : α → β} {p : α → Bool} {q : β → Bool} (factors : ∀ x, p x = q (view x)) {xs ys : List α}
    (same : ys.map view = xs.map view) {x : α} (found : xs.find? p = some x) : ∃ y, ys.find? p = some y ∧ view y = view x := by
  have through : ∀ zs : List α, (zs.find? p).map view = (zs.map view).find? q := fun zs => by
    rw [List.find?_map, show q ∘ view = p from funext fun x => (factors x).symm]
  have there := through ys
  rw [same, ← through xs, found] at there
  obtain ⟨y, hy, e⟩ := Option.map_eq_some_iff.mp there
  exact ⟨y, hy, e⟩

/-- A crew is still there, the same but for its scratchpad. -/
theorem State.SameButScratch.crew? {s t : State} (h : s.SameButScratch t) {uid : Nat} {c : Crew} (crew : s.crew? uid = some c) :
    ∃ d, t.crew? uid = some d ∧ d.unscratched = c.unscratched :=
  find?_of_map_eq (q := fun c : Crew => c.uid == uid) (fun _ => rfl) h crew

theorem writeLoc_sameButScratch (s : State) (world : Option (Nat × Nat)) (l : Loc) (b : Byte) : s.SameButScratch (writeLoc s world l b) := by
  cases l with
  | scratch uid off => exact map_mapCrew_of_same (f := fun c => { c with scratch := poke c.scratch off b }) (fun _ => rfl) uid s.crews
  | phys pa prot raw => exact .of_crews (writeByte_writes _ _ _ _).crews
  | _ => exact .refl s

theorem engineWrite_ok_writes {s t : State} {c : Crew} {j : Joiner} {pri : Bool} {va errAddr : Nat} {b b' : Byte}
    (wrote : engineWrite s c j pri va errAddr b = .ok t b') : OnlyWrites s t := by
  unfold engineWrite at wrote
  split at wrote
  case h_1 s1 lf lfs found =>
    dsimp only at wrote
    split at wrote
    · cases wrote
    · cases wrote
      have logged := (touch_walked s1 [lf.pa]).writes.trans (logDirty_writes _ (s.launchOf c).vf lf.gpa)
      have looked := logged.trans (engineLine_walked _ c lf true).writes
      exact (engineXlat_ok_walked found).writes.trans (looked.trans ((writeByte_writes _ _ _ _).trans (l1Drop_writes _ _)))
  all_goals cases wrote

theorem writeDest_ok_sameButScratch {s t : State} {c : Crew} {e o : Nat} {d : Desc} {b b' : Byte} (wrote : writeDest s c e d o b = .ok t b') :
    s.SameButScratch t := by
  unfold writeDest shadowWrite at wrote
  split at wrote
  · split at wrote
    · cases wrote
    · split at wrote
      · exact .of_crews (engineWrite_ok_writes wrote).crews
      · cases wrote; exact writeLoc_sameButScratch _ _ _ _
  · split at wrote
    · cases wrote
      split
      · exact writeLoc_sameButScratch _ _ _ _
      · exact .refl s
    · cases wrote; exact .refl s

theorem stageRead_ok_sameButScratch {s t : State} {c : Crew} {e o : Nat} {d : Desc} {b : Byte} (read : stageRead s c e d o = .ok t b) :
    s.SameButScratch t := by
  unfold stageRead at read
  split at read
  · exact .of_crews (engineRead_ok_walked read).crews
  · split at read
    · cases read
    · cases read; exact .of_crews (touch_walked _ _).crews
  · split at read
    · cases read
    · cases read; exact .refl s

theorem stageByte_ok_sameButScratch {s t : State} {c : Crew} {e j : Nat} {r : List Byte} {b b' : Byte} (wrote : stageByte s c e r j b = .ok t b') :
    s.SameButScratch t := by
  unfold stageByte at wrote
  dsimp only at wrote
  by_cases overlapping : (recDesc r 0).overlaps (recDesc r 3) = true
  · rw [if_pos overlapping] at wrote
    by_cases copied : Config.copiedByte s.draws = true
    · rw [if_pos copied] at wrote
      exact writeDest_ok_sameButScratch (s := { s with draws := s.draws + 1 }) wrote
    · rw [if_neg copied] at wrote
      cases wrote
      exact .refl s
  · rw [if_neg overlapping] at wrote
    exact writeDest_ok_sameButScratch wrote

/-- A `stage` of `total` bytes that has moved byte `j`. -/
def Task.movedPast (j total : Nat) (t : Task) : Task := { t with moved := j + 1, out := if j + 1 = total then some ([], 0#6) else none }

theorem stageMove_ok {s t : State} {c : Crew} {e j : Nat} {b : Byte} (moved : stageMove s c e j = .ok t b) :
    ∃ u, s.SameButScratch u ∧ t = u.mapCrew c.uid fun d => d.mapTask e (Task.movedPast j (stageTotal (c.task e).record)) := by
  unfold stageMove at moved
  dsimp only at moved
  split at moved
  · cases moved
  split at moved
  · cases moved
  split at moved
  case h_1 s1 b1 read =>
    split at moved
    case h_1 s2 b2 wrote =>
      cases moved
      exact ⟨s2, (stageRead_ok_sameButScratch read).trans (stageByte_ok_sameButScratch wrote), rfl⟩
    case h_2 x other => exact absurd moved (other t b)
  case h_2 x other => exact absurd moved (other t b)

theorem Crew.task_mapTask (c : Crew) {e : Nat} (f : Task → Task) (inside : e < c.tasks.length) : (c.mapTask e f).task e = f (c.task e) := by
  simp only [Crew.task, Crew.mapTask, modifyNth_getD, true_and, if_pos inside]

/-- The table holds a task that runs. -/
theorem Crew.task_inside {c : Crew} {e : Nat} (running : (c.task e).state = .run) : e < c.tasks.length := by
  refine Classical.byContradiction fun outside => ?_
  have fresh : c.task e = Task.fresh := getD_of_le _ (Nat.le_of_not_lt outside)
  rw [fresh] at running
  cases running

/-- A `stage` whose remaining bytes all move has moved every byte, and still runs. -/
theorem stageRun_of_stages {uid e : Nat} (n : Nat) : ∀ {s t : State} {fuel : Nat} {c : Crew}, Stages uid e n s t → n ≤ fuel →
    s.crew? uid = some c → (c.task e).state = .run → n = stageTotal (c.task e).record - (c.task e).moved →
    stageRun uid e fuel s = t ∧ ∃ d, t.crew? uid = some d ∧ (d.task e).state = .run ∧ (d.task e).record = (c.task e).record ∧
      stageTotal (c.task e).record ≤ (d.task e).moved ∧ d.terminating = c.terminating := by
  induction n with
  | zero =>
    rintro s t fuel c rfl - crew running all
    have whole : stageTotal (c.task e).record ≤ (c.task e).moved := Nat.le_of_sub_eq_zero all.symm
    refine ⟨?stays, c, crew, running, rfl, whole, rfl⟩
    cases fuel with
    | zero => rfl
    | succ fuel => simp only [stageRun, crew, whole, decide_true, Bool.or_true, if_true]
  | succ n ih =>
    rintro s t fuel c ⟨c', s1, b, crew', free, more, moved, rest⟩ enough crew running all
    obtain rfl : c' = c := Option.some.inj (crew'.symm.trans crew)
    obtain ⟨fuel, rfl⟩ : ∃ m, fuel = m + 1 := ⟨fuel - 1, by omega⟩
    obtain ⟨u, same, at_s1⟩ := stageMove_ok moved
    obtain ⟨d, there, alike⟩ := same.crew? crew
    obtain ⟨tasks, terminating⟩ := Crew.of_unscratched alike
    have own : c'.uid = uid := State.crew?_uid crew
    have task : d.task e = c'.task e := by simp only [Crew.task, tasks]
    let counted := Task.movedPast (c'.task e).moved (stageTotal (c'.task e).record)
    have after : s1.crew? uid = some (d.mapTask e counted) := by
      rw [at_s1, own, State.crew?_mapCrew u uid uid (fun x => x.mapTask e counted) fun _ => rfl, if_pos rfl, there]
      rfl
    have now : (d.mapTask e counted).task e = counted (c'.task e) := by
      rw [d.task_mapTask counted (tasks ▸ Crew.task_inside running), task]
    have left : n = stageTotal (counted (c'.task e)).record - (counted (c'.task e)).moved := by
      change n = stageTotal (c'.task e).record - ((c'.task e).moved + 1)
      omega
    obtain ⟨runs, d', crew'', state, record, every, same_end⟩ := ih (fuel := fuel) rest (by omega) after (now ▸ running) (now ▸ left)
    rw [now] at record every
    refine ⟨?_, d', crew'', state, record, every, same_end.trans terminating⟩
    simp only [stageRun, crew, free, Nat.not_le.mpr more, decide_false, Bool.or_self, Bool.false_eq_true, if_false, moved]
    exact runs

/-- A mill whose operands and destination are in order meets nothing that holds it. -/
theorem millHolds_none {s : State} {c : Crew} {e : Nat} (clean : (c.task e).out = none → millPoison s c (c.task e).record = none)
    (reaches : destXlat s c e (recDesc (c.task e).record 3) (millRest s c e).1 = .ok) : millHolds s c e = none := by
  have whole : (if (c.task e).out.isSome then none else millPoison s c (c.task e).record) = none := by
    cases given : (c.task e).out with
    | none => exact clean given
    | some x => rfl
  unfold millHolds
  dsimp only
  rw [whole, reaches]

/-- What a mill's task still has to write: what it has kept, else its whole result. -/
theorem millRest_eq (s : State) (c : Crew) (e : Nat) : millRest s c e =
    (c.task e).out.getD ((millOut (withSeen s (c.task e)) c (c.task e).record).rows.flatten,
      (millOut (withSeen s (c.task e)) c (c.task e).record).flags) := by
  unfold millRest
  split <;> simp only [*, Option.getD_some, Option.getD_none]

/-- A mill's running task that nothing holds writes its result and completes. -/
theorem millEvent_completes {s : State} {uid e kind : Nat} {c : Crew} (crew : s.crew? uid = some c) (alive : c.terminating = false)
    (running : (c.task e).state = .run) (kinded : recKind (c.task e).record = kind) (free : engineHeld s c 1 e = false)
    (clean : (c.task e).out = none → millPoison s c (c.task e).record = none)
    (reaches : destXlat s c e (recDesc (c.task e).record 3) (millRest s c e).1 = .ok)
    (publishes : publishWaits s c (recDesc (c.task e).record 3) = false)
    (stored : Stored (completeTask (writeDests s c e (recDesc (c.task e).record 3) (millRest s c e).1) c e (millRest s c e).2)) :
    millEvent kind uid e s =
      .next (completeTask (writeDests s c e (recDesc (c.task e).record 3) (millRest s c e).1) c e (millRest s c e).2) := by
  unfold millEvent
  simp only [crew, running, kinded, beq_self_eq_true, Bool.and_self, if_true, runMill, alive, free, Bool.false_eq_true, if_false,
    millHolds_none clean reaches, publishes]
  exact finish_next stored

/-- A `stage` that has moved every byte, and whose window can be published, completes. -/
theorem stageEnds_completes {t : State} {uid e : Nat} {d : Crew} (crew : t.crew? uid = some d) (running : (d.task e).state = .run)
    (alive : d.terminating = false) (every : stageTotal (d.task e).record ≤ (d.task e).moved)
    (publishes : publishWaits t d (recDesc (d.task e).record 3) = false) : stageEnds t uid e = completeTask t d e 0#6 := by
  simp only [stageEnds, crew, running, alive, Nat.not_lt.mpr every, publishes, bne_self_eq_false, decide_false, Bool.or_self,
    Bool.false_eq_true, if_false]

/-- A running `stage` whose remaining bytes all move completes. -/
theorem execStage_completes {s t : State} {uid e : Nat} {c c' : Crew} (crew : s.crew? uid = some c) (alive : c.terminating = false)
    (running : (c.task e).state = .run) (kinded : recKind (c.task e).record = 8)
    (moves : Stages uid e (stageTotal (c.task e).record - (c.task e).moved) s t) (crew' : t.crew? uid = some c')
    (publishes : publishWaits t c' (recDesc (c'.task e).record 3) = false) (stored : Stored (completeTask t c' e 0#6)) :
    execStage uid e s = .next (completeTask t c' e 0#6) := by
  obtain ⟨ran, d, there, state, record, every, terminating⟩ := stageRun_of_stages _ moves (Nat.sub_le _ _) crew running rfl
  obtain rfl : d = c' := Option.some.inj (there.symm.trans crew')
  have ended : stageEnds t uid e = completeTask t d e 0#6 :=
    stageEnds_completes there state (terminating.trans alive) (by rw [record]; exact every) publishes
  simp only [execStage, crew, running, kinded, alive, beq_self_eq_true, Bool.and_self, if_true, Bool.false_eq_true, if_false, ran, ended]
  exact finish_next stored

/-- Settles O38: nothing holds the mill, and the bytes of a `stage` move one after another (`stageRun_of_stages`). -/
theorem engineTasksComplete : Obligations.EngineTasksComplete := by
  intro s uid e c _ crew alive running
  have mill : ∀ (i : Instr) (kind : Nat), exec i s = millEvent kind uid e s → recKind (c.task e).record = kind → engineHeld s c 1 e = false →
      ((c.task e).out = none → millPoison s c (c.task e).record = none) →
      destXlat s c e (recDesc (c.task e).record 3) (millRest s c e).1 = .ok → publishWaits s c (recDesc (c.task e).record 3) = false →
      Stored (completeTask (writeDests s c e (recDesc (c.task e).record 3) (millRest s c e).1) c e (millRest s c e).2) →
      exec i s = .next (completeTask (writeDests s c e (recDesc (c.task e).record 3) (millRest s c e).1) c e (millRest s c e).2) :=
    fun i kind runs kinded free clean reaches publishes stored =>
      runs.trans (millEvent_completes crew alive running kinded free clean reaches publishes stored)
  simp only [millRest_eq] at mill
  exact ⟨mill _ 1 rfl, mill _ 2 rfl, mill _ 3 rfl, mill _ 4 rfl, mill _ 5 rfl, mill _ 6 rfl, mill _ 7 rfl,
    fun kinded t c' moves crew' publishes stored => execStage_completes crew alive running kinded moves crew' publishes stored⟩

end Sys2Proof.Machine
end

section
/-!
SUPPORT. What a completed tile task or `stage` leaves in the scratchpads, the windows and memory (R246, R253, R272, R274).
-/
namespace Sys2Proof.Machine

/-! Lists of writes. -/

@[simp] theorem lastWrite_nil (o : Nat) (old : Byte) : lastWrite [] o old = old := rfl

/-- The writes of a list take place one after another. -/
theorem lastWrite_cons (x : Nat × Byte) (xs : List (Nat × Byte)) (o : Nat) (old : Byte) :
    lastWrite (x :: xs) o old = lastWrite xs o (if x.1 = o then x.2 else old) := by
  unfold lastWrite
  rw [List.reverse_cons, List.find?_append]
  cases xs.reverse.find? fun y => y.1 == o with
  | some y => rfl
  | none => by_cases same : x.1 = o <;> simp [same]

/-! Scratchpads. -/

/-- What keeps a crew's number and scratchpad leaves every scratchpad byte. -/
theorem raw_scratch_mapCrew (s : State) (uid u o : Nat) (f : Crew → Crew) (named : ∀ c, (f c).uid = c.uid) (kept : ∀ c, (f c).scratch = c.scratch) :
    (s.mapCrew uid f).raw (.scratch u o) = s.raw (.scratch u o) := by
  simp only [State.raw, State.crew?_mapCrew s uid u f named]
  by_cases same : u = uid
  · rw [if_pos same, same]
    cases s.crew? uid <;> simp [kept]
  · rw [if_neg same]

/-- A write to a crew's scratchpad. -/
theorem raw_scratch_writeLoc (s : State) {uid : Nat} (u o a : Nat) (b : Byte) (there : (s.crew? uid).isSome = true) :
    (writeLoc s none (.scratch uid a) b).raw (.scratch u o) = if u = uid ∧ a = o then b else s.raw (.scratch u o) := by
  obtain ⟨c, crew⟩ := Option.isSome_iff_exists.mp there
  simp only [State.raw, writeLoc, State.crew?_mapCrew s uid u (fun c => { c with scratch := poke c.scratch a b }) fun _ => rfl]
  by_cases same : u = uid
  · rw [if_pos same, same, crew]
    by_cases here : o = a
    · simp [here]
    · simp [here, Ne.symm here]
  · simp [same]

/-- Only scratchpad bytes have changed. -/
def OnlyScratch (s t : State) : Prop := s.SameButScratch t ∧ ∃ crews, t = { s with crews := crews }

theorem OnlyScratch.refl (s : State) : OnlyScratch s s := ⟨.refl s, _, rfl⟩

theorem OnlyScratch.trans {s t u : State} (h : OnlyScratch s t) (k : OnlyScratch t u) : OnlyScratch s u := by
  obtain ⟨same, crews, rfl⟩ := h
  obtain ⟨same', crews', rfl⟩ := k
  exact ⟨same.trans same', crews', rfl⟩

theorem writeLoc_scratch_only (s : State) (world : Option (Nat × Nat)) (uid a : Nat) (b : Byte) : OnlyScratch s (writeLoc s world (.scratch uid a) b) :=
  ⟨writeLoc_sameButScratch s world (.scratch uid a) b, _, rfl⟩

theorem State.SameButScratch.isSome {s t : State} (h : s.SameButScratch t) {uid : Nat} (there : (s.crew? uid).isSome = true) :
    (t.crew? uid).isSome = true := by
  obtain ⟨c, crew⟩ := Option.isSome_iff_exists.mp there
  obtain ⟨d, crew', -⟩ := h.crew? crew
  rw [crew']
  rfl

/-- The crew of a core is still there, the same but for its scratchpad. -/
theorem State.SameButScratch.crewOn {s t : State} (h : s.SameButScratch t) {launch camp core : Nat} {c : Crew}
    (found : crewOn s launch camp core = some c) : ∃ d, Machine.crewOn t launch camp core = some d ∧ d.unscratched = c.unscratched := by
  unfold Machine.crewOn at found
  split at found
  case h_1 x resident =>
    obtain ⟨d, resident', same⟩ := find?_of_map_eq (q := fun c : Crew => c.place == .core (8 * camp + core)) (fun _ => rfl) h resident
    split at found
    · next own =>
      cases found
      have launched : d.launch = launch := Eq.trans (congrArg (fun x => x.launch) same) own
      refine ⟨d, ?_, same⟩
      have resident'' : t.resident? (8 * camp + core) = some d := resident'
      simp only [Machine.crewOn, resident'', launched, if_true]
    · cases found
  · cases found

/-- Writes to a crew's scratchpad, those outside its bounds dropped. -/
theorem writeLocs_scratch (uid n : Nat) (xs : List (Nat × Byte)) : ∀ s : State, (s.crew? uid).isSome = true →
    let t := writeLocs s none (xs.map fun x => if x.1 < n then .scratch uid x.1 else .nowhere) (xs.map (·.2))
    OnlyScratch s t ∧ ∀ u o, t.raw (.scratch u o) =
      lastWrite (if u = uid then xs.filter fun x => decide (x.1 < n) else []) o (s.raw (.scratch u o)) := by
  induction xs with
  | nil => intro s _; exact ⟨.refl s, fun u o => by simp [writeLocs]⟩
  | cons x xs ih =>
    intro s there
    by_cases inside : x.1 < n
    · have first := writeLoc_scratch_only s none uid x.1 x.2
      obtain ⟨only, bytes⟩ := ih _ (first.1.isSome there)
      simp only [List.map_cons, inside, if_true, writeLocs]
      refine ⟨first.trans only, fun u o => ?_⟩
      rw [bytes, raw_scratch_writeLoc s u o x.1 x.2 there]
      by_cases same : u = uid <;> simp [same, inside, lastWrite_cons]
    · obtain ⟨only, bytes⟩ := ih s there
      simp only [List.map_cons, inside, if_false, writeLocs, writeLoc]
      exact ⟨only, fun u o => by rw [bytes]; simp [inside]⟩

/-! The exception word and the end of a task. -/

/-- The bytes of the exception word that lie in the scratchpad. -/
def exceptionWord (c : Crew) (k : Task) (fl : Nat) : List (Nat × Byte) :=
  if bit (recFlags k.record) 7 then
    ((List.range 4).map fun n => (k.offset + 12 + n, (bytesOf 4 fl).getD n 0#8)).filter fun x => decide (x.1 < c.ssize)
  else []

theorem writeXw_leaves {s : State} {c : Crew} (k : Task) (fl : FlagSet) (there : (s.crew? c.uid).isSome = true) :
    OnlyScratch s (writeXw s c k fl) ∧ ∀ u o, (writeXw s c k fl).raw (.scratch u o) =
      lastWrite (if u = c.uid then exceptionWord c k fl.toNat else []) o (s.raw (.scratch u o)) := by
  unfold writeXw exceptionWord
  split
  · have bytes : bytesOf 4 fl.toNat = ((List.range 4).map fun n => (k.offset + 12 + n, (bytesOf 4 fl.toNat).getD n 0#8)).map (·.2) := rfl
    have written := writeLocs_scratch c.uid c.ssize ((List.range 4).map fun n => (k.offset + 12 + n, (bytesOf 4 fl.toNat).getD n 0#8)) s there
    rw [← bytes, List.map_map] at written
    exact written
  · exact ⟨.refl s, fun u o => by simp⟩

/-- The task's entry is free, and its task ended with status OK. -/
def Crew.EndedOk (c : Crew) (e : Nat) : Prop := (c.task e).state = .none ∧ (c.task e).status = 0

theorem Crew.task_mapTask_other (c : Crew) {e e' : Nat} (f : Task → Task) (other : e ≠ e') : (c.mapTask e' f).task e = c.task e := by
  simp only [Crew.task, Crew.mapTask, modifyNth_getD, other, false_and, if_false]

/-- A change of a task that keeps state and status keeps which tasks have ended well. -/
theorem Crew.EndedOk.mapTask {c : Crew} {e : Nat} (h : c.EndedOk e) (e' : Nat) (f : Task → Task)
    (keeps : e' = e → (f (c.task e)).state = (c.task e).state ∧ (f (c.task e)).status = (c.task e).status) : (c.mapTask e' f).EndedOk e := by
  by_cases same : e' = e
  · obtain ⟨state, status⟩ := keeps same
    subst same
    unfold Crew.EndedOk
    by_cases inside : e' < c.tasks.length
    · rw [c.task_mapTask f inside, state, status]; exact h
    · simp only [Crew.task, Crew.mapTask, modifyNth_getD, inside, and_false, if_false]; exact h
  · unfold Crew.EndedOk
    rw [c.task_mapTask_other f (Ne.symm same)]
    exact h

/-- A task that a `tid` finds alive has not ended. -/
theorem tidState_live {c : Crew} {tid e : Nat} (live : tidState c tid = .live e) : (c.task e).state ≠ .none := by
  unfold tidState at live
  split at live
  · cases live
  · next t found =>
    repeat' split at live
    all_goals cases live
    next alive =>
      rw [Crew.task, List.getD_eq_getElem?_getD, found]
      exact alive

theorem decTask_endedOk (now tid : Nat) {c : Crew} {e : Nat} (h : c.EndedOk e) : (decTask now c tid).EndedOk e := by
  unfold decTask
  split
  case h_1 e' live => exact h.mapTask e' _ fun same => absurd h.1 (same ▸ tidState_live live)
  · exact h.mapTask _ _ fun _ => ⟨rfl, rfl⟩
  · exact h

@[simp] theorem decTask_uid (now tid : Nat) (c : Crew) : (decTask now c tid).uid = c.uid := by unfold decTask; split <;> rfl
@[simp] theorem decTask_scratch (now tid : Nat) (c : Crew) : (decTask now c tid).scratch = c.scratch := by unfold decTask; split <;> rfl

@[simp] theorem Crew.completeId_scratch (c : Crew) (tick id : Nat) : (c.completeId tick id).scratch = c.scratch := by
  unfold Crew.completeId; split <;> rfl
@[simp] theorem Crew.completeId_tasks (c : Crew) (tick id : Nat) : (c.completeId tick id).tasks = c.tasks := by
  unfold Crew.completeId; split <;> rfl

/-- A task that ends with OK tells its two successors, and nothing else. -/
theorem finishTask_ok (fuel now tick : Nat) (c : Crew) (e : Nat) :
    let c2 := (c.mapTask e fun t => { t with state := .none, status := 0, detail := 0, ws0 := .unused, ws1 := .unused }).completeId tick (c.task e).op
    finishTask (fuel + 1) now tick c e 0 0 =
      decTask now (decTask now c2 (recWord (c.task e).record 4)) (recWord (c.task e).record 8) := by
  have step : ∀ (d : Crew) (tid : Nat), (match tidState d tid with
      | .live e' => if (0 : Nat) = 0 then decTask now d tid else if e' = e then d else finishTask fuel now tick d e' 2 0
      | _ => if (0 : Nat) = 0 then decTask now d tid else d) = decTask now d tid := by
    intro d tid
    split <;> rfl
  exact (step _ (recWord (c.task e).record 8)).trans (congrArg (fun d => decTask now d _) (step _ (recWord (c.task e).record 4)))

theorem finishTask_ok_ended (fuel now tick : Nat) {c : Crew} {e : Nat} (inside : e < c.tasks.length) :
    (finishTask (fuel + 1) now tick c e 0 0).EndedOk e := by
  rw [finishTask_ok]
  refine decTask_endedOk _ _ (decTask_endedOk _ _ ?_)
  simp only [Crew.EndedOk, Crew.task, Crew.completeId_tasks]
  have ended := c.task_mapTask (e := e) (fun t => { t with state := .none, status := 0, detail := 0, ws0 := .unused, ws1 := .unused }) inside
  rw [← Crew.task, ended]
  exact ⟨rfl, rfl⟩

theorem finishTask_ok_uid (fuel now tick : Nat) (c : Crew) (e : Nat) : (finishTask (fuel + 1) now tick c e 0 0).uid = c.uid := by
  rw [finishTask_ok, decTask_uid, decTask_uid, Crew.completeId_uid]
  rfl

theorem finishTask_ok_scratch (fuel now tick : Nat) (c : Crew) (e : Nat) : (finishTask (fuel + 1) now tick c e 0 0).scratch = c.scratch := by
  rw [finishTask_ok, decTask_scratch, decTask_scratch, Crew.completeId_scratch]
  rfl

/-- What the end of a task leaves: its entry free, and everything but its crew. -/
theorem taskDone_leaves {s : State} {uid e : Nat} {c : Crew} (crew : s.crew? uid = some c) (inside : e < c.tasks.length) :
    (∃ c', (taskDone s uid e 0 0).crew? uid = some c' ∧ c'.EndedOk e) ∧ (∃ crews, taskDone s uid e 0 0 = { s with crews := crews }) ∧
    ∀ u o, (taskDone s uid e 0 0).raw (.scratch u o) = s.raw (.scratch u o) := by
  refine ⟨⟨finishTask 65 s.now s.tick c e 0 0, ?_, finishTask_ok_ended 64 s.now s.tick inside⟩, ⟨_, rfl⟩, fun u o => ?_⟩
  · unfold taskDone
    rw [State.crew?_mapCrew s uid uid (fun c => finishTask 65 s.now s.tick c e 0 0) (finishTask_ok_uid 64 s.now s.tick · e), if_pos rfl, crew]
    rfl
  · exact raw_scratch_mapCrew s uid u o (fun c => finishTask 65 s.now s.tick c e 0 0) (finishTask_ok_uid 64 s.now s.tick · e)
      (finishTask_ok_scratch 64 s.now s.tick · e)

/-- What a completed task leaves beside its result: its entry is free, its exception word written, and its window published. -/
structure Completed (v : State) (uid e : Nat) (c : Crew) (fl : FlagSet) (t : State) : Prop where
  crew : ∃ c', t.crew? uid = some c' ∧ c'.EndedOk e
  scratch : ∀ u o, t.raw (.scratch u o) = lastWrite (if u = uid then exceptionWord c (c.task e) fl.toNat else []) o (v.raw (.scratch u o))
  rest : ∃ crews windows, t = { v with crews := crews, windows := windows }
  windows : t.windows =
    if (recDesc (c.task e).record 3).space = 4 then (publish v c.camp (recDesc (c.task e).record 3).loc).windows else v.windows

theorem completeTask_leaves {v : State} {c d : Crew} {uid e : Nat} (fl : FlagSet) (own : c.uid = uid) (crew : v.crew? uid = some d)
    (inside : e < d.tasks.length) : Completed v uid e c fl (completeTask v c e fl) := by
  subst own
  obtain ⟨⟨same, crews, at_x⟩, bytes⟩ := writeXw_leaves (c.task e) fl (crew ▸ rfl : (v.crew? c.uid).isSome = true)
  obtain ⟨d', crew', alike⟩ := same.crew? crew
  obtain ⟨tasks, -⟩ := Crew.of_unscratched alike
  let p := if (recDesc (c.task e).record 3).space = 4 then publish (writeXw v c (c.task e) fl) c.camp (recDesc (c.task e).record 3).loc
    else writeXw v c (c.task e) fl
  have crews_p : p.crews = (writeXw v c (c.task e) fl).crews := by dsimp only [p]; split <;> rfl
  have crew_p : p.crew? c.uid = some d' := by rw [State.crew?, crews_p]; exact crew'
  obtain ⟨ended, ⟨crews', at_t⟩, scratch⟩ := taskDone_leaves crew_p (tasks ▸ inside)
  have t_eq : completeTask v c e fl = taskDone p c.uid e 0 0 := rfl
  refine ⟨ended, fun u o => ?_, ?_, ?_⟩
  · rw [t_eq, scratch, ← bytes u o]
    simp only [State.raw, State.crew?, crews_p]
  · rw [t_eq, at_t]
    dsimp only [p]
    rw [at_x]
    split <;> exact ⟨_, _, rfl⟩
  · rw [t_eq, at_t]
    dsimp only [p]
    rw [at_x]
    split <;> rfl

/-! The bytes of a result. -/

theorem Crew.scratch_of_unscratched {c d : Crew} (same : d.unscratched = c.unscratched) : d.uid = c.uid ∧ d.ssize = c.ssize :=
  ⟨congrArg (fun x => x.uid) same, congrArg (fun x => x.ssize) same⟩

/-- A byte of a scratchpad destination. -/
theorem writeDest_scratch {s : State} {c d : Crew} {e o : Nat} {dest : Desc} {b : Byte} (space : dest.space = 1)
    (target : crewOn s c.launch c.camp (dest.loc % 8) = some d) :
    writeDest s c e dest o b = .ok (if o < d.ssize then writeLoc s none (.scratch d.uid o) b else s) b := by
  have plain : ¬ (1 : Nat) = 4 := by decide
  simp only [writeDest, space, target, plain, if_false]

theorem writeDests_scratch {c : Crew} {e : Nat} {dest : Desc} (space : dest.space = 1) (bs : List (Nat × Byte)) : ∀ (s : State) (d : Crew),
    crewOn s c.launch c.camp (dest.loc % 8) = some d → (s.crew? d.uid).isSome = true →
    OnlyScratch s (writeDests s c e dest bs) ∧ ∀ u o, (writeDests s c e dest bs).raw (.scratch u o) =
      lastWrite (if u = d.uid then bs.filter fun x => decide (x.1 < d.ssize) else []) o (s.raw (.scratch u o)) := by
  induction bs with
  | nil => intro s d _ _; exact ⟨.refl s, fun u o => by simp [writeDests]⟩
  | cons x bs ih =>
    intro s d target there
    simp only [writeDests, writeDest_scratch space target]
    by_cases inside : x.1 < d.ssize
    · have first := writeLoc_scratch_only s none d.uid x.1 x.2
      obtain ⟨d', target', alike⟩ := first.1.crewOn target
      obtain ⟨uid, ssize⟩ := Crew.scratch_of_unscratched alike
      obtain ⟨only, bytes⟩ := ih _ d' target' (uid ▸ first.1.isSome there)
      rw [if_pos inside]
      refine ⟨first.trans only, fun u o => ?_⟩
      rw [bytes, uid, ssize, raw_scratch_writeLoc s u o x.1 x.2 there]
      by_cases same : u = d.uid <;> simp [same, inside, lastWrite_cons, eq_comm]
    · obtain ⟨only, bytes⟩ := ih s d target there
      rw [if_neg inside]
      exact ⟨only, fun u o => by rw [bytes]; simp [inside]⟩

theorem State.mapVault_vault? (s : State) (launch camp : Nat) (f : VaultWin → VaultWin)
    (place : ∀ v, (f v).launch = v.launch ∧ (f v).camp = v.camp) :
    (s.mapVault launch camp f).vault? launch camp = (s.vault? launch camp).map f := by
  have same : ((fun v : VaultWin => v.launch == launch && v.camp == camp) ∘ fun v => if v.launch = launch ∧ v.camp = camp then f v else v) =
      fun v => v.launch == launch && v.camp == camp := by
    funext v
    dsimp only [Function.comp]
    split
    · rw [(place v).1, (place v).2]
    · rfl
  simp only [State.vault?, State.mapVault, List.find?_map, same]
  cases found : s.vaults.find? fun v => v.launch == launch && v.camp == camp with
  | none => rfl
  | some v =>
    have named := List.find?_some found
    simp only [Bool.and_eq_true, beq_iff_eq] at named
    simp only [Option.map_some, named, and_self, if_true]

/-- A write to a vault. -/
theorem raw_vault_writeLoc (s : State) {launch camp : Nat} (o a : Nat) (b : Byte) (there : (s.vault? launch camp).isSome = true) :
    let t := writeLoc s none (.vault launch camp a) b
    t.raw (.vault launch camp o) = (if a = o then b else s.raw (.vault launch camp o)) ∧ (t.vault? launch camp).isSome = true := by
  obtain ⟨v, vault⟩ := Option.isSome_iff_exists.mp there
  simp only [State.raw, writeLoc, State.mapVault_vault? s launch camp (fun v => { v with bytes := poke v.bytes a b }) fun _ => ⟨rfl, rfl⟩, vault]
  exact ⟨by simp [eq_comm], rfl⟩

/-- Byte `off` of a window's shadow in its vault. -/
def shadowAt (w : Window) (off : Nat) : Nat := w.woff + off + if w.cur then 0 else w.size

theorem writeDests_vault {c : Crew} {e : Nat} {dest : Desc} {w : Window} (space : dest.space = 4) (hidden : w.glob = false)
    (bs : List (Nat × Byte)) : ∀ s : State, c.window? s dest.loc = some w → (s.vault? w.launch w.home).isSome = true →
    (∃ vaults, writeDests s c e dest bs = { s with vaults := vaults }) ∧ ∀ o, (writeDests s c e dest bs).raw (.vault w.launch w.home o) =
      lastWrite (bs.map fun x => (shadowAt w x.1, x.2)) o (s.raw (.vault w.launch w.home o)) := by
  induction bs with
  | nil => intro s _ _; exact ⟨⟨_, rfl⟩, fun o => rfl⟩
  | cons x bs ih =>
    intro s held there
    have first : writeDest s c e dest x.1 x.2 = .ok (writeLoc s none (.vault w.launch w.home (shadowAt w x.1)) x.2) x.2 := by
      simp only [writeDest, space, if_true, shadowWrite, held, hidden, Bool.false_eq_true, if_false]
      rfl
    obtain ⟨byte, there'⟩ := raw_vault_writeLoc s 0 (shadowAt w x.1) x.2 there
    obtain ⟨⟨vaults, only⟩, bytes⟩ := ih (writeLoc s none (.vault w.launch w.home (shadowAt w x.1)) x.2) held there'
    simp only [writeDests, first]
    refine ⟨⟨vaults, only⟩, fun o => ?_⟩
    rw [bytes, List.map_cons, lastWrite_cons, (raw_vault_writeLoc s o (shadowAt w x.1) x.2 there).1]

/-- Writes to the shadow of a `.g` window. -/
theorem writeDests_glob {c : Crew} {e : Nat} {dest : Desc} {w : Window} (space : dest.space = 4) (seen : w.glob = true)
    (bs : List (Nat × Byte)) : ∀ s : State, c.window? s dest.loc = some w → OnlyWrites s (writeDests s c e dest bs) := by
  induction bs with
  | nil => intro s _; exact .refl s
  | cons x bs ih =>
    intro s held
    unfold writeDests
    split
    case h_1 s1 b wrote =>
      simp only [writeDest, space, if_true, shadowWrite, held, seen] at wrote
      have first := engineWrite_ok_writes wrote
      refine first.trans (ih s1 ?_)
      obtain ⟨_, _, _, _, _, _, _, _, _, _, _, rfl⟩ := first
      exact held
    · exact ih s held

/-- A byte that a viewer writes where its line's seal does not fail stands in memory. -/
theorem writeByte_peek {s : State} {viewer : Option (Nat × Nat)} {pa : Nat} {b : Byte} (has : hbmHas pa = true)
    (sound : sealBroken s (viewer.map (·.2)) pa = false) : peek (writeByte s viewer pa b).hbm pa = b := by
  unfold writeByte
  rw [if_pos has]
  split
  · dsimp only
    rw [peek_poke, if_pos rfl]
  · next w found =>
    split
    · next own =>
      have intact : sealIntact s w = true := by
        rw [sealBroken, found] at sound
        simpa [own] using sound
      rw [if_pos intact]
      dsimp only
      rw [peek_poke, if_pos rfl]
    · dsimp only
      rw [peek_poke, if_pos rfl]

/-- A byte that an engine writes to memory stands at the PA that its VA translates to. -/
theorem engineWrite_ok_peek {s t : State} {c : Crew} {j : Joiner} {pri : Bool} {va a : Nat} {b b' : Byte} {lf : Leaf} {lfs : List Leaf}
    (wrote : engineWrite s c j pri va a b = .ok t b') (found : (engineXlat s c (j.at a) pri 1 va).2 = .ok (lf :: lfs))
    (has : hbmHas lf.pa = true) : peek t.hbm lf.pa = b := by
  unfold engineWrite at wrote
  split at wrote
  case h_1 s1 lf' lfs' xlat =>
    rw [xlat] at found
    cases found
    dsimp only at wrote
    split at wrote
    · cases wrote
    · next sound =>
      cases wrote
      exact writeByte_peek has (Bool.eq_false_iff.mpr sound)
  all_goals cases wrote

theorem writeDests_append (c : Crew) (e : Nat) (dest : Desc) (bs : List (Nat × Byte)) (x : Nat × Byte) : ∀ s : State,
    writeDests s c e dest (bs ++ [x]) = writeDests (writeDests s c e dest bs) c e dest [x] := by
  induction bs with
  | nil => intro s; rfl
  | cons y bs ih =>
    intro s
    simp only [List.cons_append, writeDests]
    split <;> rw [ih] <;> rfl

/-! A `stage` between two scratchpads. -/

/-- The crew of a core, which its number also finds. -/
def State.Settled (s : State) (launch camp core : Nat) (f : Crew) : Prop := crewOn s launch camp core = some f ∧ s.crew? f.uid = some f

theorem find?_mapCrew_place {g : Crew → Crew} (named : ∀ c, (g c).place = c.place) {uid : Nat} {place : Place} {f : Crew} (cs : List Crew) :
    cs.find? (fun c => c.place == place) = some f → cs.find? (fun c => c.uid == f.uid) = some f →
    (mapCrew uid g cs).find? (fun c => c.place == place) = some (if f.uid = uid then g f else f) := by
  induction cs with
  | nil => intro found; cases found
  | cons c cs ih =>
    intro found numbered
    rw [List.find?_cons] at found numbered
    unfold mapCrew
    cases here : c.place == place with
    | true =>
      rw [here] at found
      cases found
      split
      · rw [List.find?_cons, named, here]
      · rw [List.find?_cons, here]
    | false =>
      rw [here] at found
      have other : (c.uid == f.uid) = false := by
        refine Classical.byContradiction fun same => ?_
        rw [Bool.not_eq_false] at same
        rw [same] at numbered
        cases numbered
        have placed := List.find?_some found
        rw [here] at placed
        cases placed
      rw [other] at numbered
      split
      · next own =>
        rw [List.find?_cons, named, here, if_neg fun same => by simp [own, same] at other]
        exact found
      · rw [List.find?_cons, here]
        exact ih found numbered

/-- A change of one crew leaves each settled crew settled. -/
theorem State.Settled.mapCrew {s : State} {launch camp core : Nat} {f : Crew} (h : s.Settled launch camp core f) (uid : Nat) (g : Crew → Crew)
    (kept : ∀ c, (g c).uid = c.uid ∧ (g c).place = c.place ∧ (g c).launch = c.launch) :
    (s.mapCrew uid g).Settled launch camp core (if f.uid = uid then g f else f) := by
  obtain ⟨found, numbered⟩ := h
  unfold crewOn at found
  split at found
  case h_2 => cases found
  case h_1 x resident =>
    split at found
    case isFalse => cases found
    case isTrue own =>
      cases found
      have placed : (s.mapCrew uid g).resident? (8 * camp + core) = some (if f.uid = uid then g f else f) :=
        find?_mapCrew_place (fun c => (kept c).2.1) s.crews resident numbered
      have launched : (if f.uid = uid then g f else f).launch = launch := by split <;> simp [kept, own]
      have same : (if f.uid = uid then g f else f).uid = f.uid := by split <;> simp [kept]
      refine ⟨by simp only [crewOn, placed, launched, if_true], ?_⟩
      rw [same, State.crew?_mapCrew s uid f.uid g fun c => (kept c).1]
      split
      · next own => rw [← own, numbered]; rfl
      · exact numbered

/-- A `stage` between the scratchpads of crews `f` and `d` can go on. -/
structure StageReady (uid e : Nat) (s : State) (c f d : Crew) : Prop where
  crew : s.crew? uid = some c
  running : (c.task e).state = .run
  free : engineHeld s c 1 e = false
  clean : s.spoiled = []
  spaces : (recDesc (c.task e).record 0).space = 1 ∧ (recDesc (c.task e).record 3).space = 1
  source : s.Settled c.launch c.camp ((recDesc (c.task e).record 0).loc % 8) f
  target : s.Settled c.launch c.camp ((recDesc (c.task e).record 3).loc % 8) d
  apart : f.uid ≠ d.uid

/-- Byte `j` that a `stage` reads from a scratchpad. -/
def stagedByte (r : List Byte) (f : Crew) (j : Nat) : Byte := if stageFrom r j < f.ssize then peek f.scratch (stageFrom r j) else 0#8

/-- The scratchpad write of byte `j`. -/
def stageWrites (s : State) (r : List Byte) (f d : Crew) (j : Nat) : State :=
  if stageTo r j < d.ssize then writeLoc s none (.scratch d.uid (stageTo r j)) (stagedByte r f j) else s

theorem stageMove_scratch {uid e : Nat} {s : State} {c f d : Crew} (h : StageReady uid e s c f d) {j : Nat}
    (bounds : stageFrom (c.task e).record j < (recDesc (c.task e).record 0).off + (recDesc (c.task e).record 0).len ∧
      stageTo (c.task e).record j < (recDesc (c.task e).record 3).off + (recDesc (c.task e).record 3).len) :
    stageMove s c e j = .ok ((stageWrites s (c.task e).record f d j).mapCrew c.uid fun x =>
      x.mapTask e (Task.movedPast j (stageTotal (c.task e).record))) (stagedByte (c.task e).record f j) := by
  have clean : tileBad s c (recDesc (c.task e).record 0) (stageFrom (c.task e).record j) = false := by
    simp [tileBad, h.spaces.1, h.source.1, h.clean]
  have read : stageRead s c e (recDesc (c.task e).record 0) (stageFrom (c.task e).record j) = .ok s (stagedByte (c.task e).record f j) := by
    simp only [stageRead, h.spaces.1, clean, Bool.false_eq_true, if_false, tileByte, h.source.1, stagedByte]
  have disjoint : (recDesc (c.task e).record 0).overlaps (recDesc (c.task e).record 3) = false := by
    have locs : (recDesc (c.task e).record 0).loc ≠ (recDesc (c.task e).record 3).loc := fun same => by
      have both := h.source.1
      rw [same, h.target.1] at both
      exact h.apart (congrArg (fun x => x.uid) (Option.some.inj both).symm)
    simp [Desc.overlaps, locs]
  have wrote : stageByte s c e (c.task e).record j (stagedByte (c.task e).record f j) =
      .ok (stageWrites s (c.task e).record f d j) (stagedByte (c.task e).record f j) := by
    simp only [stageByte, disjoint, Bool.false_eq_true, if_false, writeDest_scratch h.spaces.2 h.target.1, stageWrites]
  simp only [stageMove, Nat.not_le.mpr bounds.1, Nat.not_le.mpr bounds.2, if_false, read, wrote]
  rfl

theorem stageWrites_only (s : State) (r : List Byte) (f d : Crew) (j : Nat) : OnlyScratch s (stageWrites s r f d j) := by
  unfold stageWrites
  split
  · exact writeLoc_scratch_only _ _ _ _ _
  · exact .refl s

theorem raw_scratch_stageWrites {s : State} {r : List Byte} {f d : Crew} {j u o : Nat} (there : (s.crew? d.uid).isSome = true) :
    (stageWrites s r f d j).raw (.scratch u o) =
      if stageTo r j < d.ssize ∧ u = d.uid ∧ o = stageTo r j then stagedByte r f j else s.raw (.scratch u o) := by
  unfold stageWrites
  by_cases inside : stageTo r j < d.ssize
  · rw [if_pos inside, raw_scratch_writeLoc s u o _ _ there]
    simp [inside, eq_comm]
  · simp [inside]

/-- The source's crew stays as it was, the destination's but for its scratchpad. -/
theorem stageWrites_settled {s : State} (r : List Byte) {f d : Crew} (apart : f.uid ≠ d.uid) (j : Nat) {launch camp core core' : Nat}
    (source : s.Settled launch camp core f) (target : s.Settled launch camp core' d) :
    (stageWrites s r f d j).Settled launch camp core f ∧
      ∃ d', (stageWrites s r f d j).Settled launch camp core' d' ∧ d'.uid = d.uid ∧ d'.ssize = d.ssize := by
  unfold stageWrites
  split
  · have keeps : ∀ {core : Nat} {x : Crew}, s.Settled launch camp core x → _ := fun {core x} settled =>
      State.Settled.mapCrew (core := core) (f := x) settled d.uid (fun c => { c with scratch := poke c.scratch (stageTo r j) (stagedByte r f j) })
        fun _ => ⟨rfl, rfl, rfl⟩
    have there := keeps source
    rw [if_neg apart] at there
    exact ⟨there, _, keeps target, by split <;> rfl, by split <;> rfl⟩
  · exact ⟨source, d, target, rfl, rfl⟩

theorem engineHeld_of_crews {s : State} {crews : List Crew} {c d : Crew} (what n : Nat) (uid : d.uid = c.uid) (launch : d.launch = c.launch) :
    engineHeld { s with crews := crews } d what n = engineHeld s c what n := by
  unfold engineHeld engineWaits owing
  rw [uid, State.launchOf, launch]
  rfl

/-- What stays of a crew while its `stage` moves bytes. -/
def Crew.StagesAs (c d : Crew) (e : Nat) : Prop :=
  d.ssize = c.ssize ∧ d.terminating = c.terminating ∧ d.tasks.length = c.tasks.length ∧ (d.task e).record = (c.task e).record ∧
    (d.task e).offset = (c.task e).offset

/-- After one byte the `stage` can go on with the next. -/
theorem stageMove_ready {uid e : Nat} {s : State} {c f d : Crew} (h : StageReady uid e s c f d) (j : Nat) :
    let t := (stageWrites s (c.task e).record f d j).mapCrew c.uid fun x => x.mapTask e (Task.movedPast j (stageTotal (c.task e).record))
    ∃ c' f' d', StageReady uid e t c' f' d' ∧ c.StagesAs c' e ∧ (c'.task e).moved = j + 1 ∧
      (f'.uid = f.uid ∧ f'.ssize = f.ssize ∧ f'.scratch = f.scratch) ∧ d'.uid = d.uid ∧ d'.ssize = d.ssize := by
  intro t
  let counts := fun x : Crew => x.mapTask e (Task.movedPast j (stageTotal (c.task e).record))
  obtain ⟨same, crews, at_u⟩ := stageWrites_only s (c.task e).record f d j
  obtain ⟨x, there, alike⟩ := same.crew? h.crew
  have own : c.uid = uid := State.crew?_uid h.crew
  have named : x.uid = c.uid := congrArg (fun y => y.uid) alike
  have launched : x.launch = c.launch := congrArg (fun y => y.launch) alike
  have sized : x.ssize = c.ssize := congrArg (fun y => y.ssize) alike
  have tasks : x.tasks = c.tasks := congrArg (fun y => y.tasks) alike
  have camps : x.camp = c.camp := congrArg (fun y => y.camp) alike
  have ends : x.terminating = c.terminating := congrArg (fun y => y.terminating) alike
  have task : x.task e = c.task e := by simp only [Crew.task, tasks]
  have moved : (counts x).task e = Task.movedPast j (stageTotal (c.task e).record) (c.task e) := by
    rw [x.task_mapTask _ (tasks ▸ Crew.task_inside h.running), task]
  have long : (counts x).tasks.length = c.tasks.length := by
    change (modifyNth x.tasks e _).length = _
    rw [modifyNth_length, tasks]
  have at_t : t = { s with crews := t.crews } := by
    dsimp only [t]
    rw [at_u]
    rfl
  obtain ⟨source, d1, target, uid1, ssize1⟩ := stageWrites_settled (c.task e).record h.apart j h.source h.target
  have keeps := fun {core : Nat} {y : Crew} (settled : (stageWrites s (c.task e).record f d j).Settled c.launch c.camp core y) =>
    settled.mapCrew c.uid counts fun _ => ⟨rfl, rfl, rfl⟩
  have record : ((counts x).task e).record = (c.task e).record := by rw [moved]; rfl
  refine ⟨counts x, if f.uid = c.uid then counts f else f, if d1.uid = c.uid then counts d1 else d1,
    ⟨?crew, by rw [moved]; exact h.running, ?free, ?clean, record ▸ h.spaces, ?source, ?target, ?apart⟩,
    ⟨sized, ends, long, record, by rw [moved]; rfl⟩, by rw [moved]; rfl, ⟨?_, ?_, ?_⟩, ?_, ?_⟩
  case crew => rw [State.crew?_mapCrew _ c.uid uid counts fun _ => rfl, if_pos own.symm, own, there]; rfl
  case free =>
    rw [at_t]
    exact (engineHeld_of_crews (d := counts x) 1 e named launched).trans h.free
  case clean => rw [at_t]; exact h.clean
  case source =>
    rw [record, show (counts x).launch = c.launch from launched, show (counts x).camp = c.camp from camps]
    exact keeps source
  case target =>
    rw [record, show (counts x).launch = c.launch from launched, show (counts x).camp = c.camp from camps]
    exact keeps target
  case apart => split <;> split <;> exact uid1.symm ▸ h.apart
  all_goals split <;> first | rfl | assumption

/-- The remaining bytes of a `stage` between two scratchpads move one after another. -/
theorem stages_scratch {uid e : Nat} (n : Nat) : ∀ {s : State} {c f d : Crew}, StageReady uid e s c f d →
    n = stageTotal (c.task e).record - (c.task e).moved →
    (∀ j ∈ List.range' (c.task e).moved n, stageFrom (c.task e).record j < (recDesc (c.task e).record 0).off + (recDesc (c.task e).record 0).len ∧
      stageTo (c.task e).record j < (recDesc (c.task e).record 3).off + (recDesc (c.task e).record 3).len) →
    ∃ t c', Stages uid e n s t ∧ t.crew? uid = some c' ∧ c.StagesAs c' e ∧ (∃ crews, t = { s with crews := crews }) ∧
      ∀ u o, t.raw (.scratch u o) = lastWrite (if u = d.uid then
        ((List.range' (c.task e).moved n).map fun j => (stageTo (c.task e).record j, stagedByte (c.task e).record f j)).filter
          fun x => decide (x.1 < d.ssize) else []) o (s.raw (.scratch u o)) := by
  induction n with
  | zero =>
    intro s c f d h _ _
    exact ⟨s, c, rfl, h.crew, ⟨rfl, rfl, rfl, rfl, rfl⟩, ⟨_, rfl⟩, fun u o => by simp⟩
  | succ n ih =>
    intro s c f d h all bounds
    have move := stageMove_scratch h (bounds _ (List.mem_range'_1.mpr ⟨Nat.le_refl _, by omega⟩))
    obtain ⟨c1, f1, d1, ready, as1, moved, ⟨fuid, fsize, fscratch⟩, duid, dsize⟩ := stageMove_ready h (c.task e).moved
    obtain ⟨ssize, ends, long, record, offset⟩ := as1
    rw [List.range'_succ] at bounds
    obtain ⟨t, c', stages, crew', as', ⟨crews, at_t⟩, bytes⟩ := ih ready (by rw [record, moved]; omega)
      (by rw [record, moved]; exact fun j hj => bounds j (List.mem_cons_of_mem _ hj))
    obtain ⟨ssize', ends', long', record', offset'⟩ := as'
    refine ⟨t, c', ⟨c, _, _, h.crew, h.free, by omega, move, stages⟩, crew',
      ⟨ssize'.trans ssize, ends'.trans ends, long'.trans long, record'.trans record, offset'.trans offset⟩, ?_, fun u o => ?_⟩
    · obtain ⟨_, crews', at_u⟩ := stageWrites_only s (c.task e).record f d (c.task e).moved
      rw [at_t, at_u]
      exact ⟨_, rfl⟩
    · have target := h.target.2
      have byte : ∀ j, stagedByte (c.task e).record f1 j = stagedByte (c.task e).record f j := fun j => by
        simp only [stagedByte, fsize, fscratch]
      rw [bytes, raw_scratch_mapCrew _ _ _ _ (fun x => x.mapTask e _) (fun _ => rfl) fun _ => rfl, record, moved, duid, dsize]
      simp only [byte, List.range'_succ, List.map_cons]
      rw [raw_scratch_stageWrites (target ▸ rfl)]
      by_cases inside : stageTo (c.task e).record (c.task e).moved < d.ssize
      · by_cases same : u = d.uid <;> simp [same, inside, lastWrite_cons, eq_comm]
      · by_cases same : u = d.uid <;> simp [same, inside]

/-! Tile tasks. -/

/-- The meaning of a mill's kind. -/
theorem exec_of_kind {i : Instr} {kind uid e : Nat} (listed : (i, kind) ∈ ([(.mmaF uid e, 1), (.mmaQ uid e, 2), (.hadam uid e, 3)
    , (.tileQuant uid e, 4), (.xpose uid e, 5), (.acc uid e, 6), (.fill uid e, 7)] : List (Instr × Nat))) (s : State) :
    exec i s = millEvent kind uid e s := by
  simp only [List.mem_cons, Prod.mk.injEq, List.not_mem_nil, or_false] at listed
  obtain ⟨rfl, rfl⟩ | ⟨rfl, rfl⟩ | ⟨rfl, rfl⟩ | ⟨rfl, rfl⟩ | ⟨rfl, rfl⟩ | ⟨rfl, rfl⟩ | ⟨rfl, rfl⟩ := listed <;> rfl

theorem destXlat_of_space {s : State} {c : Crew} {e : Nat} {d : Desc} (space : d.space = 1) (bs : List (Nat × Byte)) :
    destXlat s c e d bs = .ok := by
  simp [destXlat, space]

theorem destXlat_of_vault {s : State} {c : Crew} {e : Nat} {d : Desc} {w : Window} (held : c.window? s d.loc = some w) (hidden : w.glob = false)
    (bs : List (Nat × Byte)) : destXlat s c e d bs = .ok := by
  simp [destXlat, held, hidden]

/-- A publish advances its window, and no other. -/
theorem publish_windows {s : State} {c : Crew} {loc : Nat} {w : Window} (held : c.window? s loc = some w) :
    (publish s c.camp loc).window? w.home w.entry = some { w with cur := !w.cur, gen := w.gen + 1#32 } ∧
      ∀ home entry, (home, entry) ≠ (w.home, w.entry) → (publish s c.camp loc).window? home entry = s.window? home entry := by
  have own : (w.home, w.entry) = (c.camp, loc) := by
    unfold Crew.window? at held
    split at held
    case h_2 => cases held
    case h_1 v found =>
      have named := List.find?_some found
      simp only [Bool.and_eq_true, beq_iff_eq] at named
      split at held <;> cases held
      rw [named.1, named.2]
  have after := fun h e => State.mapWindow_window? s c.camp loc h e (fun w => { w with cur := !w.cur, gen := w.gen + 1#32 }) fun _ => ⟨rfl, rfl⟩
  refine ⟨?_, fun home entry other => ?_⟩
  · exact (after _ _).trans (by rw [if_pos own, Crew.window?_place held, Option.map_some])
  · exact (after _ _).trans (if_neg (own ▸ other))

/-- A completed task with a window as destination has published it. -/
theorem Completed.published {v t : State} {uid e : Nat} {c : Crew} {fl : FlagSet} (h : Completed v uid e c fl t) {w : Window}
    (space : (recDesc (c.task e).record 3).space = 4) (held : c.window? v (recDesc (c.task e).record 3).loc = some w) :
    t.window? w.home w.entry = some { w with cur := !w.cur, gen := w.gen + 1#32 } ∧
      ∀ home entry, (home, entry) ≠ (w.home, w.entry) → t.window? home entry = v.window? home entry := by
  have windows := h.windows
  rw [if_pos space] at windows
  obtain ⟨own, others⟩ := publish_windows held
  simp only [State.window?, windows] at own others ⊢
  exact ⟨own, others⟩

/-- Settles O39: the writes of the result (`writeDests_scratch`, `writeDests_vault`, `engineWrite_ok_peek`), then the end of the task
(`completeTask_leaves`); the bytes of a `stage` one after another (`stages_scratch`). -/
theorem tileResultsWritten : Obligations.TileResultsWritten := by
  intro s uid e c i kind stored crew alive inside running free k r out rest dest word ends inScratch published
  have own : c.uid = uid := State.crew?_uid crew
  have rest_eq : millRest s c e = rest := millRest_eq s c e
  have finishes : ∀ {i : Instr} {v t : State} {fl : FlagSet} {left : State → Prop}, exec i s = .next t → Completed v uid e c fl t → left t →
      ends i left := fun runs completed holds => by
    obtain ⟨c', crew', state, status⟩ := completed.crew
    exact ⟨_, c', runs, crew', state, status, holds⟩
  refine ⟨fun listed kinded clean publishes => ?_, ?_⟩
  · have runs : destXlat s c e dest rest.1 = .ok → Stored (completeTask (writeDests s c e dest rest.1) c e rest.2) →
        exec i s = .next (completeTask (writeDests s c e dest rest.1) c e rest.2) := fun reaches stored => by
      rw [exec_of_kind listed]
      rw [← rest_eq] at reaches stored ⊢
      exact millEvent_completes crew alive running kinded free clean reaches publishes stored
    refine ⟨?scratch, ?vault, ?glob⟩
    case scratch =>
      intro d space target there
      obtain ⟨⟨same, crews, at_v⟩, bytes⟩ := writeDests_scratch (c := c) (e := e) space rest.1 s d target (there ▸ rfl)
      obtain ⟨x, crew', alike⟩ := same.crew? crew
      have completed := completeTask_leaves rest.2 own crew' ((Crew.of_unscratched alike).1 ▸ inside)
      obtain ⟨crews', windows', at_t⟩ := completed.rest
      refine finishes (runs (destXlat_of_space space _) (by rw [Stored, at_t, at_v]; exact stored)) completed
        ⟨by rw [at_t, at_v], by rw [at_t, at_v], by rw [at_t, at_v], ?_, fun u o => ?_⟩
      · have unpublished : dest.space ≠ 4 := by rw [space]; decide
        rw [completed.windows, if_neg unpublished, at_v]
      · rw [completed.scratch, bytes]
        rfl
    case vault =>
      intro w space held hidden there
      obtain ⟨⟨vaults, at_v⟩, bytes⟩ := writeDests_vault (c := c) (e := e) space hidden rest.1 s held there
      have completed := completeTask_leaves rest.2 own (v := writeDests s c e dest rest.1) (by rw [at_v]; exact crew) inside
      obtain ⟨crews', windows', at_t⟩ := completed.rest
      obtain ⟨own', others⟩ := completed.published space (w := w) (by rw [at_v]; exact held)
      refine finishes (runs (destXlat_of_vault held hidden _) (by rw [Stored, at_t, at_v]; exact stored)) completed
        ⟨⟨own', fun home entry other => ?_, fun u o => ?_⟩, by rw [at_t, at_v], by rw [at_t, at_v], fun o => ?_⟩
      · rw [others home entry other, at_v]
        rfl
      · rw [completed.scratch, at_v]
        rfl
      · rw [at_t]
        exact bytes o
    case glob =>
      intro w bs o b v lf lfs space held seen parts reaches wrote stored' found has
      have before : OnlyWrites s (writeDests s c e dest bs) := writeDests_glob space seen bs s held
      have at_v : writeDests s c e dest rest.1 = v := by
        rw [parts, writeDests_append]
        simp only [writeDests, wrote]
      have all : OnlyWrites s v := at_v ▸ writeDests_glob space seen rest.1 s held
      have held_bs : c.window? (writeDests s c e dest bs) dest.loc = some w := by
        obtain ⟨_, _, _, _, _, _, _, _, _, _, _, same⟩ := before
        rw [same]
        exact held
      have written : peek v.hbm lf.pa = b := by
        simp only [writeDest, space, if_true, shadowWrite, held_bs, seen, own] at wrote
        exact engineWrite_ok_peek wrote found has
      obtain ⟨_, _, _, _, _, _, _, _, _, _, _, same⟩ := all
      have completed := completeTask_leaves rest.2 own (v := v) (by rw [same]; exact crew) inside
      obtain ⟨crews', windows', at_t⟩ := completed.rest
      obtain ⟨own', others⟩ := completed.published space (w := w) (by rw [same]; exact held)
      have run := runs reaches (by rw [at_v, Stored, at_t]; exact stored')
      rw [at_v] at run
      refine finishes run completed ⟨⟨own', fun home entry other => ?_, fun u o => ?_⟩, by rw [at_t, same], by rw [at_t, same], ?_⟩
      · rw [others home entry other, same]
        rfl
      · rw [completed.scratch, same]
        rfl
      · rw [at_t]
        exact written
  · intro f d kinded from_ space source target there there' apart clean js bounds
    have js_eq : js = List.range' k.moved (stageTotal r - k.moved) := by
      dsimp only [js, stageTotal]
      rw [List.range_eq_range', List.drop_range']
      simp
    have ready : StageReady uid e s c f d := ⟨crew, running, free, clean, ⟨from_, space⟩, ⟨source, there⟩, ⟨target, there'⟩, apart⟩
    obtain ⟨t, c', stages, crew', ⟨ssize, ends', long, record, offset⟩, ⟨crews, at_t⟩, bytes⟩ := stages_scratch _ ready rfl (js_eq ▸ bounds)
    have unpublished : (recDesc (c'.task e).record 3).space ≠ 4 := by rw [record, space]; decide
    have completed := completeTask_leaves 0#6 (State.crew?_uid crew') crew' (long ▸ inside)
    obtain ⟨crews', windows', at_u⟩ := completed.rest
    obtain ⟨x, crew'', state, status⟩ := completed.crew
    have run := execStage_completes crew alive running kinded stages crew'
      (by simp only [publishWaits, beq_eq_false_iff_ne.mpr unpublished, Bool.false_and]) (by rw [Stored, at_u, at_t]; exact stored)
    refine ⟨_, x, run, crew'', state, status, by rw [at_u, at_t], by rw [at_u, at_t], by rw [at_u, at_t], ?_, fun u o => ?_⟩
    · rw [completed.windows, if_neg unpublished, at_t]
    · rw [completed.scratch, bytes, js_eq]
      simp only [exceptionWord, record, offset, ssize]
      rfl

end Sys2Proof.Machine
end

section
/-!
SUPPORT. The elements of integer operands and what the integer functions give of them (R27, R111 to R126, R223).
-/
namespace Sys2Proof

theorem int_two_pow_pos (n : Nat) : (0 : Int) < 2 ^ n := Int.pow_pos (by decide)

theorem int_two_pow (n : Nat) : ((2 ^ n : Nat) : Int) = 2 ^ n := Int.natCast_pow 2 n

theorem wrap_cast (y : Int) (w : Nat) : ((wrap y w : Nat) : Int) = y % 2 ^ w := by
  rw [wrap, int_two_pow, Int.toNat_of_nonneg (Int.emod_nonneg _ (Int.ne_of_gt (int_two_pow_pos w)))]

/-- The signed value of a bit pattern, by its top bit (R111). -/
theorem signExt_eq {w : Nat} (pos : 0 < w) (x : Nat) :
    signExt x w = if 2 ^ (w - 1) ≤ x % 2 ^ w then ((x % 2 ^ w : Nat) : Int) - 2 ^ w else (x % 2 ^ w : Nat) := by
  obtain ⟨n, rfl⟩ : ∃ n, w = n + 1 := ⟨w - 1, by omega⟩
  have half : 2 ^ (n + 1) / 2 = 2 ^ n := by omega
  unfold signExt
  rw [half, Nat.add_sub_cancel]
  push_cast
  simp

theorem wrap_signExt (x w : Nat) : wrap (signExt x w) w = x % 2 ^ w := by
  rw [signExt_eq_toInt, wrap_eq_toNat_ofInt, BitVec.ofInt_toInt, BitVec.toNat_ofNat]

/-- A signed value in range is the signed value of its pattern. -/
theorem signExt_wrap {w : Nat} (pos : 0 < w) {y : Int} (lo : -(2 ^ (w - 1)) ≤ y) (hi : y ≤ 2 ^ (w - 1) - 1) : signExt (wrap y w) w = y := by
  obtain ⟨n, rfl⟩ : ∃ n, w = n + 1 := ⟨w - 1, by omega⟩
  rw [Nat.add_sub_cancel] at lo hi
  have two : ((2 : Int) ^ (n + 1)) = 2 * 2 ^ n := Int.pow_succ' 2 n
  have big : (0 : Int) < 2 ^ n := int_two_pow_pos _
  have pat := wrap_cast y (n + 1)
  rw [signExt_eq pos, Nat.add_sub_cancel, Nat.mod_eq_of_lt (wrap_lt _ _), pat]
  have nat : (2 ^ n ≤ wrap y (n + 1)) ↔ (2 : Int) ^ n ≤ y % 2 ^ (n + 1) := by
    rw [← pat, ← int_two_pow, Int.ofNat_le]
  rcases Int.lt_or_le y 0 with neg | nonneg
  · have wrapped : y % 2 ^ (n + 1) = y + 2 ^ (n + 1) := by
      rw [← Int.add_emod_right, Int.emod_eq_of_lt (by omega) (by omega)]
    rw [if_pos (nat.mpr (by omega)), wrapped]
    omega
  · have same : y % 2 ^ (n + 1) = y := Int.emod_eq_of_lt nonneg (by omega)
    rw [if_neg (fun h => by have := nat.mp h; omega), same]

end Sys2Proof

namespace Sys2Proof.Machine

/-! Elements. -/

/-- An element reads with its type's sign (R111). -/
theorem el_eq (t : ElTy) (x i : Nat) : el t x i = if ElTy.sg t = true ∧ 2 ^ (ElTy.w t - 1) ≤ elN t x i then (elN t x i : Int) - 2 ^ ElTy.w t
    else elN t x i := by
  have small := Nat.mod_eq_of_lt (elN_lt t x i)
  unfold el
  cases ElTy.sg t <;> simp [signExt_eq (ElTy.w_pos t), small]

theorem wrap_el (t : ElTy) (x i : Nat) : wrap (el t x i) (ElTy.w t) = elN t x i := by
  have small := Nat.mod_eq_of_lt (elN_lt t x i)
  unfold el
  split
  · rw [wrap_signExt, small]
  · rw [wrap_natCast, small]

/-- The least and the greatest value of an element. -/
def ElTy.lo (t : ElTy) : Int := if ElTy.sg t then -(2 ^ (ElTy.w t - 1)) else 0
def ElTy.hi (t : ElTy) : Int := if ElTy.sg t then 2 ^ (ElTy.w t - 1) - 1 else 2 ^ ElTy.w t - 1

/-- An element in range is the value of its pattern. -/
theorem el_of_elN {t : ElTy} {x i : Nat} {y : Int} (lo : ElTy.lo t ≤ y) (hi : y ≤ ElTy.hi t) (pattern : elN t x i = wrap y (ElTy.w t)) :
    el t x i = y := by
  unfold ElTy.lo at lo
  unfold ElTy.hi at hi
  unfold el
  rw [pattern]
  split
  · next signed =>
    rw [if_pos signed] at lo hi
    exact signExt_wrap (ElTy.w_pos t) lo hi
  · next unsigned =>
    rw [if_neg unsigned] at lo hi
    rw [wrap_cast]
    exact Int.emod_eq_of_lt lo (by omega)

theorem elN_mapEls (t : ElTy) (f : Nat → Int) {i : Nat} (h : i < ElTy.k t) : elN t (mapEls t f) i = wrap (f i) (ElTy.w t) :=
  mapEls_element t f i h

theorem elN_mapEls_cast (t : ElTy) (f : Nat → Int) {i : Nat} (h : i < ElTy.k t) :
    ((mapEls t f / 2 ^ (ElTy.w t * i) % 2 ^ ElTy.w t : Nat) : Int) = f i % 2 ^ ElTy.w t := by
  rw [mapEls_element t f i h, wrap_cast]

/-! Saturation. -/

theorem satFlag_value (w : Nat) (sg : Bool) (v : Int) :
    (satFlag sg v w).1 = min (if sg then 2 ^ (w - 1) - 1 else 2 ^ w - 1) (max (if sg then -(2 ^ (w - 1)) else 0) v) := by
  have one : (0 : Int) < 2 ^ (w - 1) := int_two_pow_pos _
  have one' : (0 : Int) < 2 ^ w := int_two_pow_pos _
  unfold satFlag satI satN
  cases sg
  · simp only [Bool.false_eq_true, if_false]
    split
    · omega
    · split <;> omega
  · simp only [if_true]
    split
    · omega
    · split <;> omega

theorem satFlag_flag (w : Nat) (sg : Bool) (v : Int) : (satFlag sg v w).2 = flagIf ((satFlag sg v w).1 != v) flagSI := rfl

/-- The flags of all elements together: raised when some element raises them. -/
theorem foldl_flagIf {α : Type} (p : α → Bool) (fl : FlagSet) (xs : List α) :
    ((xs.map fun x => flagIf (p x) fl).foldl (· ||| ·) 0#6) = flagIf (xs.any p) fl := by
  have from_ : ∀ (xs : List α) (b : Bool), (xs.map fun x => flagIf (p x) fl).foldl (· ||| ·) (flagIf b fl) = flagIf (b || xs.any p) fl := by
    intro xs
    induction xs with
    | nil => intro b; simp
    | cons x xs ih =>
      intro b
      have both : flagIf b fl ||| flagIf (p x) fl = flagIf (b || p x) fl := by cases b <;> cases p x <;> simp [flagIf]
      rw [List.map_cons, List.foldl_cons, both, ih, List.any_cons, Bool.or_assoc]
  simpa [flagIf] using from_ xs false

theorem intSat_element (t : ElTy) (f : Int → Int → Int) (x y : Nat) {i : Nat} (h : i < ElTy.k t) :
    el t (intSat t f x y).1 i = min (ElTy.hi t) (max (ElTy.lo t) (f (el t x i) (el t y i))) := by
  have value := satFlag_value (ElTy.w t) (ElTy.sg t) (f (el t x i) (el t y i))
  have pattern : elN t (intSat t f x y).1 i = wrap (satFlag (ElTy.sg t) (f (el t x i) (el t y i)) (ElTy.w t)).1 (ElTy.w t) := by
    simp only [intSat, elN, List.map_map]
    rw [packEls_element _ _ _ (by simpa using h)]
    simp
  rw [value] at pattern
  have sane : ElTy.lo t ≤ ElTy.hi t := by cases t <;> decide
  exact el_of_elN (Int.le_min.mpr ⟨sane, Int.le_max_left _ _⟩) (Int.min_le_left _ _) pattern

theorem intSat_flags (t : ElTy) (f : Int → Int → Int) (x y : Nat) : (intSat t f x y).2 =
    if ∃ i, i < ElTy.k t ∧ el t (intSat t f x y).1 i ≠ f (el t x i) (el t y i) then 32#6 else 0#6 := by
  have flags : (intSat t f x y).2 = flagIf ((List.range (ElTy.k t)).any fun i =>
      (satFlag (ElTy.sg t) (f (el t x i) (el t y i)) (ElTy.w t)).1 != f (el t x i) (el t y i)) flagSI := by
    rw [← foldl_flagIf]
    simp only [intSat, List.map_map]
    rfl
  rw [flags, flagIf]
  refine ite_of_iff ?_ rfl rfl
  simp only [List.any_eq_true, List.mem_range, bne_iff_ne]
  refine exists_congr fun i => and_congr_right fun h => ?_
  rw [intSat_element t f x y h, satFlag_value (ElTy.w t)]
  rfl

/-! Products, sums and comparisons. -/

theorem intMulh_cast (t : ElTy) (a b : Int) : a * b / ((2 ^ ElTy.w t : Nat) : Int) = Int.fdiv (a * b) (2 ^ ElTy.w t) := by
  rw [Int.fdiv_eq_ediv_of_nonneg _ (Int.le_of_lt (int_two_pow_pos _)), int_two_pow]

theorem intSel_element (t : ElTy) (x y z : Nat) {i : Nat} (h : i < ElTy.k t) :
    elN t (intSel t x y z) i = if elN t z i ≠ 0 then elN t x i else elN t y i := by
  rw [intSel, elN_mapEls t _ h]
  by_cases zero : elN t z i = 0 <;> simp [zero, wrap_el]

theorem elN_of_k_one {t : ElTy} {x : Nat} (small : x < 2 ^ ElTy.w t) : elN t x 0 = x := by
  simp [elN, Nat.mod_eq_of_lt small]

theorem intSubb_eq {t : ElTy} {x y : Nat} (ci : Bool) (hx : x < 2 ^ ElTy.w t) (hy : y < 2 ^ ElTy.w t) :
    intSubb t x y ci = ((x + 2 ^ ElTy.w t - y + 2 ^ ElTy.w t - ci.toNat) % 2 ^ ElTy.w t, decide (x < y + ci.toNat)) := by
  have one := Bool.toNat_le ci
  simp only [intSubb, elN_of_k_one hx, elN_of_k_one hy]
  refine Prod.ext ?_ (by simp only [decide_eq_decide]; omega)
  have value : (((x + 2 ^ ElTy.w t - y + 2 ^ ElTy.w t - ci.toNat : Nat)) : Int) = ((x : Int) - y - ci.toNat) + 2 ^ ElTy.w t * 2 := by
    rw [← int_two_pow]
    omega
  refine Int.ofNat.inj ?_
  change ((wrap _ _ : Nat) : Int) = ((_ % _ : Nat) : Int)
  rw [wrap_cast, Int.natCast_emod, value, int_two_pow, Int.add_mul_emod_self_left]

theorem foldl_add_sum {α : Type} [Zero α] [Add α] [Std.Associative (α := α) (· + ·)] [Std.LawfulIdentity (· + ·) (0 : α)] (xs : List α) :
    xs.foldl (· + ·) 0 = xs.sum := List.sum_eq_foldl.symm

theorem intCond_iff (cc : CmpCC) (x y : Int) : intCond cc x y = true ↔ match cc with
    | .eq => x = y
    | .ne => x ≠ y
    | .lt => x < y
    | .le => x ≤ y
    | .gt => y < x
    | .ge => y ≤ x := by
  cases cc <;> simp [intCond]

theorem cmpResult_element {w k : Nat} {ts : List Bool} {i : Nat} (h : i < ts.length) (pos : 0 < w) : (cmpResult w k ts).1 / 2 ^ (w * i) % 2 ^ w =
    if ts[i] then (if k = 1 then 1 else 2 ^ w - 1) else 0 := by
  have one : 1 < 2 ^ w := Nat.one_lt_two_pow (by omega)
  simp only [cmpResult]
  rw [packEls_element _ _ _ (by simpa using h), List.getElem_map]
  split
  · split
    · exact (wrap_natCast 1 w).trans (Nat.mod_eq_of_lt one)
    · exact (wrap_natCast (2 ^ w - 1) w).trans (Nat.mod_eq_of_lt (by omega))
  · exact wrap_zero w

end Sys2Proof.Machine
end

section
/-!
SUPPORT. Logic, bit fields and counts bit by bit (R118, R121 to R123), addresses (R126) and atomics (R223).
-/
namespace Sys2Proof.Machine

theorem testBit_intNot (t : ElTy) (x j : Nat) : (intNot t x).testBit j = (decide (j < ElTy.w t) && !x.testBit j) := by
  have small : x % 2 ^ ElTy.w t < 2 ^ ElTy.w t := Nat.mod_lt _ (Nat.two_pow_pos _)
  have shape : intNot t x = 2 ^ ElTy.w t - (x % 2 ^ ElTy.w t + 1) := by unfold intNot; omega
  rw [shape, Nat.testBit_two_pow_sub_succ small, Nat.testBit_mod_two_pow]
  by_cases h : j < ElTy.w t <;> simp [h]

theorem testBit_intAndn (t : ElTy) (x y j : Nat) : (intAndn t x y).testBit j = (decide (j < ElTy.w t) && (x.testBit j && !y.testBit j)) := by
  rw [intAndn, intAnd, Nat.testBit_mod_two_pow, Nat.testBit_and, testBit_intNot]
  by_cases h : j < ElTy.w t <;> simp [h]

theorem testBit_intBrev (t : ElTy) (x j : Nat) : (intBrev t x).testBit j = (decide (j < ElTy.w t) && x.testBit (ElTy.w t - 1 - j)) := by
  unfold intBrev
  by_cases h : j < ElTy.w t
  · rw [testBit_bitsFrom _ _ j h, bit_eq_testBit]
    simp [h]
  · rw [Nat.testBit_lt_two_pow (Nat.lt_of_lt_of_le (bitsFrom_lt _ _) (Nat.pow_le_pow_right Nat.two_pos (Nat.le_of_not_lt h)))]
    simp [h]

/-- A run of ones. -/
theorem testBit_mask (len pos w j : Nat) :
    ((2 ^ len - 1) * 2 ^ pos % 2 ^ w).testBit j = (decide (j < w) && (decide (pos ≤ j) && decide (j < pos + len))) := by
  rw [Nat.testBit_mod_two_pow, Nat.testBit_mul_two_pow, Nat.testBit_two_pow_sub_one]
  by_cases h : pos ≤ j
  · have : j - pos < len ↔ j < pos + len := by omega
    simp [h, this]
  · simp [h]

theorem testBit_intBfi (t : ElTy) (x y z j : Nat) :
    let pos := y % 256
    let len := min (y / 256 % 256) (ElTy.w t)
    (intBfi t x y z).testBit j =
      (decide (j < ElTy.w t) && (if pos ≤ j ∧ j < pos + len then x.testBit (j - pos) else z.testBit j)) := by
  intro pos len
  have small : (2 ^ len - 1) * 2 ^ pos % 2 ^ ElTy.w t < 2 ^ ElTy.w t := Nat.mod_lt _ (Nat.two_pow_pos _)
  have shape : 2 ^ ElTy.w t - 1 - (2 ^ len - 1) * 2 ^ pos % 2 ^ ElTy.w t =
      2 ^ ElTy.w t - ((2 ^ len - 1) * 2 ^ pos % 2 ^ ElTy.w t + 1) := by omega
  have clear := Nat.testBit_two_pow_sub_succ small j
  rw [← shape, testBit_mask] at clear
  change ((z % 2 ^ ElTy.w t &&& (2 ^ ElTy.w t - 1 - (2 ^ len - 1) * 2 ^ pos % 2 ^ ElTy.w t)) |||
    ((x % 2 ^ ElTy.w t * 2 ^ pos) &&& ((2 ^ len - 1) * 2 ^ pos % 2 ^ ElTy.w t))).testBit j = _
  rw [Nat.testBit_or, Nat.testBit_and, Nat.testBit_and, clear, testBit_mask, Nat.testBit_mul_two_pow, Nat.testBit_mod_two_pow,
    Nat.testBit_mod_two_pow]
  by_cases inside : j < ElTy.w t
  · by_cases field : pos ≤ j ∧ j < pos + len
    · have low : j - pos < ElTy.w t := by omega
      simp [inside, field, low]
    · rcases Classical.not_and_iff_not_or_not.mp field with out | out <;> simp [inside, out]
  · simp [inside]

theorem wrap_mod {y : Int} {len w : Nat} (short : len ≤ w) : wrap y w % 2 ^ len = wrap y len := by
  refine Int.ofNat.inj ?_
  change ((wrap y w % 2 ^ len : Nat) : Int) = (wrap y len : Int)
  rw [Int.natCast_emod, wrap_cast, wrap_cast, ← int_two_pow, ← int_two_pow]
  exact Int.emod_emod_of_dvd _ (Int.ofNat_dvd.mpr (Nat.pow_dvd_pow 2 short))

theorem signExt_mod (x w : Nat) : signExt (x % 2 ^ w) w = signExt x w := by
  rw [signExt_eq_toInt, signExt_eq_toInt]
  congr 1
  exact BitVec.eq_of_toNat_eq (by simp)

/-- Bit `p` of an operand that goes on with its sign. -/
def ElTy.signBit (t : ElTy) (x p : Nat) : Bool := if p < ElTy.w t then x.testBit p else ElTy.sg t && x.testBit (ElTy.w t - 1)

/-- The field of `bfx`, before it is extended. -/
theorem testBit_bfxField {t : ElTy} (x pos : Nat) {len j : Nat} (short : len ≤ ElTy.w t) :
    (wrap (el t x 0 / ((2 ^ pos : Nat) : Int)) len).testBit j = (decide (j < len) && ElTy.signBit t x (pos + j)) := by
  have elem : elN t x 0 = x % 2 ^ ElTy.w t := by simp [elN]
  have width := ElTy.w_pos t
  rw [← wrap_mod short, Nat.testBit_mod_two_pow]
  by_cases low : j < len
  · unfold el ElTy.signBit
    rw [elem, signExt_mod]
    cases signed : ElTy.sg t with
    | true =>
      have shifted := wrap_signExt_div x (ElTy.w t) pos
      rw [signExt_eq_toInt, toInt_div_two_pow_min, ← signExt_eq_toInt] at shifted
      have inside : ¬ ElTy.w t ≤ j := by omega
      rw [if_pos rfl, shifted, BitVec.testBit_toNat, BitVec.getLsbD_sshiftRight, BitVec.msb_eq_getLsbD_last, BitVec.getLsbD_ofNat,
        BitVec.getLsbD_ofNat]
      have last : ElTy.w t - 1 < ElTy.w t := by omega
      by_cases h : pos + j < ElTy.w t <;> simp [low, inside, h, last]
    | false =>
      rw [if_neg Bool.false_ne_true, ← Int.natCast_ediv, wrap_natCast, Nat.testBit_mod_two_pow, Nat.testBit_div_two_pow,
        Nat.testBit_mod_two_pow]
      have inside : j < ElTy.w t := by omega
      by_cases h : pos + j < ElTy.w t <;> simp [low, inside, h, Nat.add_comm]
  · simp [low]

/-- A field of bits extended with its top bit. -/
theorem testBit_wrap_signExt {f len : Nat} (w j : Nat) (small : f < 2 ^ len) :
    (wrap (signExt f len) w).testBit j = (decide (j < w) && (if j < len then f.testBit j else decide (0 < len) && f.testBit (len - 1))) := by
  rw [signExt_eq_toInt, wrap_eq_toNat_ofInt, ← BitVec.signExtend, BitVec.testBit_toNat, BitVec.getLsbD_signExtend,
    BitVec.msb_eq_getLsbD_last, BitVec.getLsbD_ofNat, BitVec.getLsbD_ofNat]
  cases len with
  | zero => simp
  | succ n =>
    by_cases h : j < n + 1 <;> simp [h]

theorem testBit_intBfx {t : ElTy} (x y j : Nat) :
    let w := ElTy.w t
    let pos := y % 256
    let len := min (y / 256 % 256) w
    (intBfx t x y).testBit j = (decide (j < w) && (if j < len then ElTy.signBit t x (pos + j)
      else ElTy.sg t && decide (0 < len) && ElTy.signBit t x (pos + len - 1))) := by
  intro w pos len
  have short : len ≤ w := Nat.min_le_right _ _
  have field := fun j => testBit_bfxField x pos (j := j) short
  have small : wrap (el t x 0 / ((2 ^ pos : Nat) : Int)) len < 2 ^ len := wrap_lt _ _
  have value : intBfx t x y = wrap (if ElTy.sg t then signExt (wrap (el t x 0 / ((2 ^ pos : Nat) : Int)) len) len
      else (wrap (el t x 0 / ((2 ^ pos : Nat) : Int)) len : Nat)) w := rfl
  rw [value]
  cases signed : ElTy.sg t with
  | true =>
    rw [if_pos rfl, testBit_wrap_signExt w j small, field, field]
    by_cases low : j < len
    · simp [low]
    · by_cases some_ : 0 < len
      · have last : len - 1 < len := by omega
        simp [low, some_, last, Nat.add_sub_assoc some_]
      · simp [low, some_]
  | false =>
    rw [if_neg Bool.false_ne_true, wrap_natCast, Nat.testBit_mod_two_pow, field]
    by_cases low : j < len <;> simp [low]

/-! Counts. -/

theorem popCount_eq (n : Nat) : ∀ x, popCount n x = ((List.range n).filter fun p => x.testBit p).length := by
  induction n with
  | zero => intro x; rfl
  | succ n ih =>
    intro x
    have rest : ((fun p => x.testBit p) ∘ Nat.succ) = fun p => (x / 2).testBit p := by
      funext p
      exact Nat.testBit_succ x p
    rw [popCount, ih, List.range_succ_eq_map, List.filter_cons, List.filter_map, rest, Nat.testBit_zero]
    rcases Nat.mod_two_eq_zero_or_one x with low | low <;> simp [low, Nat.add_comm]

/-- The first place where a test holds: before it the test fails. -/
theorem takeWhile_range (p : Nat → Bool) (n : Nat) : let m := ((List.range n).takeWhile p).length
    m ≤ n ∧ (∀ j, j < m → p j = true) ∧ (m < n → p m = false) := by
  intro m
  have place : m = (List.range n).findIdx fun j => !p j := by
    have bound := List.findIdx_le_length (p := fun j => !p j) (xs := List.range n)
    simp only [m, List.takeWhile_eq_take_findIdx_not, List.length_take]
    exact Nat.min_eq_left bound
  have bound : m ≤ n := by
    rw [place]
    simpa using List.findIdx_le_length (p := fun j => !p j) (xs := List.range n)
  refine ⟨bound, fun j below => ?_, fun inside => ?_⟩
  · have kept := List.not_of_lt_findIdx (xs := List.range n) (p := fun j => !p j) (i := j) (place ▸ below)
    simpa using kept
  · have found := List.findIdx_getElem (p := fun j => !p j) (xs := List.range n) (w := by simpa [← place] using inside)
    simpa [← place] using found

theorem intClz_spec {t : ElTy} {x : Nat} (some_ : x % 2 ^ ElTy.w t ≠ 0) : intClz t x < ElTy.w t ∧
    x.testBit (ElTy.w t - 1 - intClz t x) = true ∧ ∀ j, ElTy.w t - 1 - intClz t x < j → j < ElTy.w t → x.testBit j = false := by
  have top := (Nat.log2_lt some_).mpr (Nat.mod_lt x (Nat.two_pow_pos (ElTy.w t)))
  have set := Nat.testBit_log2 some_
  have place : ElTy.w t - 1 - intClz t x = Nat.log2 (x % 2 ^ ElTy.w t) := by
    simp only [intClz, some_, if_false]
    omega
  refine ⟨?_, ?_, fun j above inside => ?_⟩
  · simp only [intClz, some_, if_false]
    omega
  · rw [place]
    simpa [top] using set
  · rw [place] at above
    have clear := Nat.testBit_lt_two_pow (Nat.lt_of_lt_of_le Nat.lt_log2_self (Nat.pow_le_pow_right Nat.two_pos above))
    simpa [inside] using clear

theorem intCtz_spec (t : ElTy) (x : Nat) : (x % 2 ^ ElTy.w t = 0 → intCtz t x = ElTy.w t) ∧
    (x % 2 ^ ElTy.w t ≠ 0 → intCtz t x < ElTy.w t ∧ x.testBit (intCtz t x) = true) ∧ ∀ j, j < intCtz t x → x.testBit j = false := by
  obtain ⟨bound, before, here⟩ := takeWhile_range (fun j => !bit x j) (ElTy.w t)
  change intCtz t x ≤ ElTy.w t at bound
  change ∀ j, j < intCtz t x → (!bit x j) = true at before
  change intCtz t x < ElTy.w t → (!bit x (intCtz t x)) = false at here
  simp only [bit_eq_testBit, Bool.not_eq_true', Bool.not_eq_false'] at before here
  have zero_iff : x % 2 ^ ElTy.w t = 0 ↔ intCtz t x = ElTy.w t := by
    constructor
    · intro zero
      refine Classical.byContradiction fun short => ?_
      have set := here (by omega)
      have clear := congrArg (fun y => y.testBit (intCtz t x)) zero
      simp only [Nat.testBit_mod_two_pow, Nat.zero_testBit, set, Bool.and_true, decide_eq_false_iff_not] at clear
      omega
    · intro all
      refine Nat.eq_of_testBit_eq fun j => ?_
      rw [Nat.testBit_mod_two_pow, Nat.zero_testBit]
      by_cases inside : j < ElTy.w t
      · rw [before j (all ▸ inside), Bool.and_false]
      · simp [inside]
  refine ⟨zero_iff.mp, fun some_ => ?_, before⟩
  have short : intCtz t x < ElTy.w t := by
    have := mt zero_iff.mpr some_
    omega
  exact ⟨short, here short⟩

/-! Constants, addresses and atomics. -/

theorem immValue_i64 (i : BitVec 32) : ((immValue .i64 i : Nat) : Int) = i.toInt % 2 ^ 64 := by
  change ((wrap (signExt i.toNat 32) 64 : Nat) : Int) = _
  rw [wrap_cast, signExt_eq_toInt, BitVec.ofNat_toNat, BitVec.setWidth_eq]

theorem intLea_cast (t : ElTy) (x index : Nat) (natural : Bool) (scale : Nat) : (intLea t x index natural scale : Int) =
    ((x : Int) + (if natural = true ∨ index % 2 ^ 32 < 2 ^ 31 then (index % 2 ^ 32 : Int) else index % 2 ^ 32 - 2 ^ 32) * 2 ^ scale)
      % 2 ^ ElTy.w t := by
  have offset : (if natural then ((index % 2 ^ 32 : Nat) : Int) else signExt index 32) =
      if natural = true ∨ index % 2 ^ 32 < 2 ^ 31 then (index % 2 ^ 32 : Int) else index % 2 ^ 32 - 2 ^ 32 := by
    rw [signExt_eq (by decide : 0 < 32)]
    cases natural with
    | true => simp
    | false =>
      by_cases low : index % 2 ^ 32 < 2 ^ 31
      · rw [if_neg Bool.false_ne_true, if_neg (by omega), if_pos (Or.inr low)]
        rw [Int.natCast_emod, int_two_pow]
      · rw [if_neg Bool.false_ne_true, if_pos (by omega), if_neg (by simpa using low)]
        rw [Int.natCast_emod, int_two_pow]
  have elem : ((elN t x 0 : Nat) : Int) = (x : Int) % 2 ^ ElTy.w t := by
    rw [elN, Nat.mul_zero, Nat.pow_zero, Nat.div_one, Int.natCast_emod, int_two_pow]
  change ((wrap ((elN t x 0 : Int) + _ * ((2 ^ scale : Nat) : Int)) (ElTy.w t) : Nat) : Int) = _
  rw [wrap_cast, offset, elem, int_two_pow]
  exact Int.emod_add_emod _ _ _

theorem minMaxW_natural (w x y : Nat) : minMaxW w false false x y = min x y ∧ minMaxW w false true x y = max x y := by
  simp only [minMaxW, Bool.false_eq_true, if_false, if_true, decide_eq_true_eq]
  constructor <;> split <;> omega

theorem minMaxW_signed {w x y : Nat} (pos : 0 < w) (hx : x < 2 ^ w) (hy : y < 2 ^ w) :
    let signed := fun (x : Nat) => if 2 ^ (w - 1) ≤ x then (x : Int) - 2 ^ w else x
    minMaxW w true false x y = (if signed x ≤ signed y then x else y) ∧ minMaxW w true true x y = (if signed y ≤ signed x then x else y) := by
  intro signed
  have value : ∀ z, z < 2 ^ w → signExt z w = signed z := fun z hz => by rw [signExt_eq pos, Nat.mod_eq_of_lt hz]
  simp only [minMaxW, if_true, Bool.false_eq_true, if_false, decide_eq_true_eq, value x hx, value y hy, gt_iff_lt]
  constructor
  · by_cases h : signed y < signed x
    · rw [if_pos h, if_neg (Int.not_le.mpr h)]
    · rw [if_neg h, if_pos (Int.not_lt.mp h)]
  · by_cases h : signed x < signed y
    · rw [if_pos h, if_neg (Int.not_le.mpr h)]
    · rw [if_neg h, if_pos (Int.not_lt.mp h)]

end Sys2Proof.Machine
end

section
/-!
SUPPORT. The values of the integer, logic, bit-field, selection and atomic functions (O54).
-/
namespace Sys2Proof.Machine

theorem intCmp_spec (t : ElTy) (cc : CmpCC) (x y : Nat) :
    let holds := fun i => intCond cc (el t x i) (el t y i) = true
    ((intCmp t cc x y).2 = true ↔ ∃ i, i < ElTy.k t ∧ holds i) ∧ (intCmp t cc x y).1 < 2 ^ (ElTy.w t * ElTy.k t) ∧
    ∀ i, i < ElTy.k t → (holds i → (intCmp t cc x y).1 / 2 ^ (ElTy.w t * i) % 2 ^ ElTy.w t =
        if ElTy.k t = 1 then 1 else 2 ^ ElTy.w t - 1) ∧
      (¬ holds i → (intCmp t cc x y).1 / 2 ^ (ElTy.w t * i) % 2 ^ ElTy.w t = 0) := by
  intro holds
  have element : ∀ i, i < ElTy.k t → (intCmp t cc x y).1 / 2 ^ (ElTy.w t * i) % 2 ^ ElTy.w t =
      if intCond cc (el t x i) (el t y i) then (if ElTy.k t = 1 then 1 else 2 ^ ElTy.w t - 1) else 0 := fun i h => by
    rw [intCmp, cmpResult_element (by simpa using h) (ElTy.w_pos t)]
    simp
  refine ⟨?_, ?_, fun i h => ⟨fun yes => ?_, fun no => ?_⟩⟩
  · simp [intCmp, cmpResult, holds]
  · simpa [intCmp, cmpResult] using packEls_lt (ElTy.w t) ((((List.range (ElTy.k t)).map fun i => intCond cc (el t x i) (el t y i))).map
      fun b => if b then (if ElTy.k t = 1 then 1 else (2 ^ ElTy.w t - 1 : Nat)) else 0)
  · rw [element i h, if_pos yes]
  · rw [element i h, if_neg no]

/-- Settles O54: each function by its elements or by its bits. -/
theorem elementValues : Obligations.ElementValues := by
  refine ⟨fun t f => ⟨mapEls_lt t f, fun i h => elN_mapEls_cast t f h⟩, fun t f x y i h => elN_mapEls_cast t _ h,
    fun t f x y i h => intSat_element t f x y h, intSat_flags, el_eq, ?products, ?carries, ?sums, ?compares, ?logic, ?addresses, ?atomics⟩
  case products =>
    intro t x y z i h at_ a b top
    refine ⟨elN_mapEls_cast t _ h, ?_, elN_mapEls_cast t _ h, ?_, intSel_element t x y z h⟩
    · exact (elN_mapEls_cast t _ h).trans (congrArg (· % 2 ^ ElTy.w t) (intMulh_cast t a b))
    · exact (elN_mapEls_cast t _ h).trans (congrArg (fun p => (p + el t z i) % 2 ^ ElTy.w t) (intMulh_cast t a b))
  case carries =>
    intro t x y ci m _ hx hy
    exact ⟨by simp only [intAddc, elN_of_k_one hx, elN_of_k_one hy, m], intSubb_eq ci hx hy⟩
  case sums =>
    intro t xs x y z k other
    refine ⟨?_, fun four => ?_⟩
    · rw [intSad, foldl_add_sum, Nat.add_mod_mod]
    · have range_ : List.range 4 = k := by rw [← four]
      have same : dp4Other t = other := by cases t <;> rfl
      simp only [intDp4, foldl_add_sum, range_, same, wrap_cast]
  case compares =>
    intro t cc x y holds
    have spec := intCmp_spec t cc x y
    have same : (fun i => intCond cc (el t x i) (el t y i) = true) = holds := by
      funext i
      exact propext (intCond_iff cc _ _)
    rw [same] at spec
    exact spec
  case logic =>
    intro t x y z j w pos len src
    refine ⟨?_, ?_, ?_, testBit_intAndn t x y j, testBit_intNot t x j, fun _ => testBit_intBfx x y j, testBit_intBfi t x y z j,
      testBit_intBrev t x j, popCount_eq w x, fun zero => ⟨if_pos zero, (intCtz_spec t x).1 zero⟩, fun some_ => ?_⟩
    · rw [intAnd, Nat.testBit_mod_two_pow, Nat.testBit_and]
    · rw [intOr, Nat.testBit_mod_two_pow, Nat.testBit_or]
    · rw [intXor, Nat.testBit_mod_two_pow, Nat.testBit_xor]
    · obtain ⟨clz, top, above⟩ := intClz_spec some_
      obtain ⟨-, ctz, before⟩ := intCtz_spec t x
      obtain ⟨short, low⟩ := ctz some_
      exact ⟨clz, top, above j, short, low, before j⟩
  case addresses =>
    intro t i x index natural scale
    refine ⟨?_, intLea_cast t x index natural scale⟩
    cases t with
    | i64 => exact immValue_i64 i
    | _ => rfl
  case atomics =>
    intro n old v pos hold hv signed
    obtain ⟨minI, maxI⟩ := minMaxW_signed pos hold hv
    obtain ⟨minN, maxN⟩ := minMaxW_natural n old v
    exact ⟨rfl, rfl, rfl, rfl, rfl, minN, maxN, minI, maxI, rfl, rfl, rfl⟩

end Sys2Proof.Machine
end

section
/-!
SUPPORT. Rounding of an exact magnitude (R32, R33): the whole part of `Ex.split` lies between two neighbours of the format, and `roundFmt` takes
the one that the rounding mode names.
-/
namespace Sys2Proof.Machine

/-! Comparisons. -/

theorem compare_congr {a b c d : Nat} (less : a < b ↔ c < d) (more : b < a ↔ d < c) : compare a b = compare c d := by
  rcases Nat.lt_trichotomy a b with h | h | h
  · rw [Nat.compare_eq_lt.mpr h, Nat.compare_eq_lt.mpr (less.mp h)]
  · have : c = d := by omega
    rw [Nat.compare_eq_eq.mpr h, Nat.compare_eq_eq.mpr this]
  · rw [Nat.compare_eq_gt.mpr h, Nat.compare_eq_gt.mpr (more.mp h)]

theorem compare_mul_right {k : Nat} (pos : 0 < k) (a b : Nat) : compare (a * k) (b * k) = compare a b :=
  compare_congr (Nat.mul_lt_mul_right pos) (Nat.mul_lt_mul_right pos)

/-- A comparison of two multiples of powers of two depends on the difference of the exponents. -/
theorem ratCmp_of_sub (a b h : Nat) {e : Int} {p q : Nat} (diff : (p : Int) - q = e) :
    compare (a * 2 ^ p) (h * b * 2 ^ q) = ratCmp a b e h := by
  obtain ⟨c, hp⟩ : ∃ c, p = e.toNat + c := ⟨p - e.toNat, by omega⟩
  have hq : q = (-e).toNat + c := by omega
  rw [hp, hq, Nat.pow_add, Nat.pow_add, ← Nat.mul_assoc, ← Nat.mul_assoc, compare_mul_right (Nat.two_pow_pos c), ratCmp]

/-- An exact value scaled by a power of two. -/
theorem ratCmp_scaled (a b k h : Nat) (e : Int) : ratCmp (a * 2 ^ k) b e h = ratCmp a b (e + k) h := by
  rw [ratCmp, Nat.mul_assoc, ← Nat.pow_add]
  exact ratCmp_of_sub a b h (by omega)

/-! Exact magnitudes. -/

/-- How an exact magnitude compares with `m` units of exponent `E`. -/
def Ex.cmp (x : Ex) (m : Nat) (E : Int) : Ordering :=
  if x.sticky then (if m * 2 ^ (E - x.exp).toNat ≤ x.num * 2 ^ (x.exp - E).toNat then .gt else .lt)
  else compare (x.num * 2 ^ (x.exp - E).toNat) (m * 2 ^ (E - x.exp).toNat)

/-- `cmp` compares an exact magnitude with multiples of 2^E; of an unknown rest nothing is asked below its unit. -/
def Ex.Reads (x : Ex) (E : Int) (cmp : Nat → Ordering) : Prop :=
  ∀ m k : Nat, (x.sticky = true → x.exp ≤ E + k) → cmp (m * 2 ^ k) = x.cmp m (E + k)

/-- A number without a rest is compared exactly. -/
theorem reads_ofFin (n : Bool) (a : Nat) (e E : Int) : (Ex.ofFin n a e).Reads E (ratCmp a 1 (e - E)) := by
  intro m k _
  change ratCmp a 1 (e - E) (m * 2 ^ k) = compare (a * 2 ^ (e - (E + k)).toNat) (m * 2 ^ (E + k - e).toNat)
  have scaled := ratCmp_of_sub a 1 m (e := e - (E + k)) (p := (e - (E + k)).toNat) (q := (E + k - e).toNat) (by omega)
  rw [Nat.mul_one] at scaled
  rw [scaled, ratCmp, Nat.mul_one, Nat.mul_assoc, ← Nat.pow_add, ← ratCmp_of_sub a 1 m (p := (e - E).toNat) (q := k + (-(e - E)).toNat)
    (by omega), Nat.mul_one]

/-- The whole part of a magnitude in units of 2^k, and how the rest compares with half a unit. -/
theorem Ex.split_spec (x : Ex) (k : Int) (fine : x.sticky = true → x.exp < k) :
    let y := x.split k
    x.cmp y.1 k = (if y.2 = .exact then .eq else .gt) ∧ x.cmp (y.1 + 1) k = .lt ∧
      x.cmp (2 * y.1 + 1) (k - 1) = match y.2 with
        | .exact | .below => .lt
        | .tie => .eq
        | .above => .gt := by
  intro y
  by_cases whole : k - x.exp ≤ 0
  · have unsticky : x.sticky = false := by
      cases h : x.sticky with
      | false => rfl
      | true => exact absurd (fine h) (by omega)
    have y_eq : y = (x.num * 2 ^ (-(k - x.exp)).toNat, .exact) := by simp only [y, Ex.split, whole, if_true, unsticky, Bool.false_eq_true, if_false]
    have p : (x.exp - k).toNat = (-(k - x.exp)).toNat := by omega
    have q : (k - x.exp).toNat = 0 := by omega
    have p' : (x.exp - (k - 1)).toNat = (-(k - x.exp)).toNat + 1 := by omega
    have q' : (k - 1 - x.exp).toNat = 0 := by omega
    have double : x.num * 2 ^ ((-(k - x.exp)).toNat + 1) = 2 * (x.num * 2 ^ (-(k - x.exp)).toNat) := by rw [Nat.pow_succ]; ac_rfl
    simp only [Ex.cmp, unsticky, Bool.false_eq_true, if_false, p, q, p', q', y_eq, Nat.pow_zero, Nat.mul_one, if_true, Nat.compare_eq_eq,
      Nat.compare_eq_lt, double]
    exact ⟨trivial, by omega, by omega⟩
  · obtain ⟨s, hs⟩ : ∃ s : Nat, k - x.exp = s + 1 := ⟨(k - x.exp - 1).toNat, by omega⟩
    have y_eq : y = (x.num / (2 ^ s * 2), if x.num % (2 ^ s * 2) = 0 ∧ !x.sticky then .exact else if x.num % (2 ^ s * 2) < 2 ^ s then .below
        else if x.num % (2 ^ s * 2) = 2 ^ s ∧ !x.sticky then .tie else .above) := by
      have toNat : ((s : Int) + 1).toNat = s + 1 := by omega
      have half : 2 ^ s * 2 / 2 = 2 ^ s := by omega
      simp only [y, Ex.split, hs, toNat, Nat.pow_succ, half]
      rw [if_neg (by omega)]
    have p : (x.exp - k).toNat = 0 := by omega
    have q : (k - x.exp).toNat = s + 1 := by omega
    have p' : (x.exp - (k - 1)).toNat = 0 := by omega
    have q' : (k - 1 - x.exp).toNat = s := by omega
    have pos := Nat.two_pow_pos s
    have parts := Nat.div_add_mod x.num (2 ^ s * 2)
    have rest := Nat.mod_lt x.num (show 0 < 2 ^ s * 2 by omega)
    simp only [Ex.cmp, p, q, p', q', y_eq, Nat.pow_zero, Nat.mul_one, Nat.pow_succ]
    generalize x.num / (2 ^ s * 2) = N at *
    generalize x.num % (2 ^ s * 2) = r at *
    generalize 2 ^ s = h at *
    have low : N * (h * 2) = h * 2 * N := Nat.mul_comm _ _
    have high : (N + 1) * (h * 2) = h * 2 * N + h * 2 := by rw [Nat.add_mul, low, Nat.one_mul]
    have mid : (2 * N + 1) * h = h * 2 * N + h := by rw [Nat.add_mul, Nat.one_mul]; ac_rfl
    rw [low, high, mid, ← parts]
    generalize h * 2 * N = M at *
    cases x.sticky with
    | true =>
      simp only [if_true, Bool.not_true, Bool.false_eq_true, and_false, if_false]
      refine ⟨by simp; split <;> simp, by simp; omega, ?_⟩
      by_cases below : r < h
      · simp [below]
      · simp [below, Nat.not_lt.mp below]
    | false =>
      simp only [Bool.false_eq_true, if_false, Bool.not_false, and_true]
      refine ⟨?_, by rw [Nat.compare_eq_lt]; omega, ?_⟩
      · by_cases zero : r = 0
        · simp [zero]
        · rw [if_neg zero]
          have more : compare (M + r) M = .gt := Nat.compare_eq_gt.mpr (by omega)
          rw [more]
          split
          · rfl
          · split <;> rfl
      · by_cases zero : r = 0
        · rw [if_pos zero]
          exact Nat.compare_eq_lt.mpr (by omega)
        · rw [if_neg zero]
          by_cases below : r < h
          · rw [if_pos below]
            exact Nat.compare_eq_lt.mpr (by omega)
          · rw [if_neg below]
            by_cases tie : r = h
            · rw [if_pos tie]
              exact Nat.compare_eq_eq.mpr (by omega)
            · rw [if_neg tie]
              exact Nat.compare_eq_gt.mpr (by omega)

/-! Rounding to a multiple. -/

/-- How far the whole part is raised. -/
def Ex.raise (x : Ex) (k : Int) (r : Rnd) : Nat := (roundUp r x.neg (x.split k).1 (x.split k).2).toNat

theorem roundMultiple_eq (x : Ex) (k : Int) (r : Rnd) : roundMultiple x k r = ((x.split k).1 + x.raise k r, (x.split k).2 != .exact) := by
  unfold roundMultiple Ex.raise
  dsimp only
  cases roundUp r x.neg (x.split k).1 (x.split k).2 <;> rfl

theorem Ex.raise_le (x : Ex) (k : Int) (r : Rnd) : x.raise k r ≤ 1 := Bool.toNat_le _

/-- Where the neighbours of a magnitude among `g 0 < g 1 < …` are its whole part in units of 2^k and the next, it is rounded to one of them. -/
theorem rounded_of_split {x : Ex} {k : Int} {r : Rnd} {g : Nat → Nat} {cmp : Nat → Ordering} {n : Nat} (fine : x.sticky = true → x.exp < k)
    (low : cmp (2 * g n) = x.cmp (x.split k).1 k) (high : cmp (2 * g (n + 1)) = x.cmp ((x.split k).1 + 1) k)
    (mid : cmp (g n + g (n + 1)) = x.cmp (2 * (x.split k).1 + 1) (k - 1)) (parity : n % 2 = (x.split k).1 % 2) :
    Rounded r x.neg g cmp (n + x.raise k r) ((x.split k).2 != .exact) := by
  obtain ⟨below, above, half⟩ := x.split_spec k fine
  rw [← low] at below
  rw [← high] at above
  rw [← mid] at half
  refine ⟨n, ?_, above, ?_, ?_⟩
  · rw [below]
    split <;> simp
  · rw [below]
    cases (x.split k).2 <;> decide
  · unfold Ex.raise
    cases place : (x.split k).2 with
    | exact => cases r <;> rfl
    | below =>
      rw [place] at half
      cases r <;> cases x.neg <;> simp [roundUp, half]
    | tie =>
      rw [place] at half
      rcases Nat.mod_two_eq_zero_or_one (x.split k).1 with even | odd
      · cases r <;> cases x.neg <;> simp [roundUp, half, parity, even]
      · cases r <;> cases x.neg <;> simp [roundUp, half, parity, odd]
    | above =>
      rw [place] at half
      cases r <;> cases x.neg <;> simp [roundUp, half]

/-! The codes of a format. -/

theorem magUnits_code {m K N : Nat} (short : N ≤ 2 ^ (m + 1)) (normal : K = 0 ∨ 2 ^ m ≤ N) : magUnits m (K * 2 ^ m + N) = N * 2 ^ K := by
  have pos := Nat.two_pow_pos m
  have two : 2 ^ (m + 1) = 2 * 2 ^ m := by rw [Nat.pow_succ, Nat.mul_comm]
  unfold magUnits
  rcases Nat.lt_or_ge N (2 ^ m) with small | large
  · obtain rfl : K = 0 := by omega
    rw [Nat.zero_mul, Nat.zero_add, if_pos (Nat.div_eq_of_lt small), Nat.pow_zero, Nat.mul_one]
  · rcases Nat.lt_or_ge N (2 ^ (m + 1)) with inside | top
    · have shape : K * 2 ^ m + N = (N - 2 ^ m) + (K + 1) * 2 ^ m := by rw [Nat.add_mul]; omega
      have low : N - 2 ^ m < 2 ^ m := by omega
      rw [shape, Nat.add_mul_div_right _ _ pos, Nat.div_eq_of_lt low, Nat.zero_add, if_neg (Nat.succ_ne_zero K), Nat.add_mul_mod_self_right,
        Nat.mod_eq_of_lt low, Nat.add_sub_cancel, Nat.add_sub_cancel' large]
    · obtain rfl : N = 2 ^ (m + 1) := by omega
      have shape : K * 2 ^ m + 2 ^ (m + 1) = (K + 2) * 2 ^ m := by rw [two, Nat.add_mul]
      rw [shape, Nat.mul_div_cancel _ pos, if_neg (by omega), Nat.mul_mod_left, Nat.add_zero, show K + 2 - 1 = K + 1 by omega, Nat.pow_succ,
        Nat.pow_succ]
      exact (congrArg (2 ^ m * ·) (Nat.mul_comm _ _)).trans (Nat.mul_assoc _ _ _).symm

theorem Ex.split_of_le {x : Ex} {k : Int} (coarse : k - x.exp ≤ 0) : (x.split k).1 = x.num * 2 ^ (-(k - x.exp)).toNat := by
  simp only [Ex.split, coarse, if_true]

theorem Ex.split_of_pos {x : Ex} {k : Int} (finer : ¬ k - x.exp ≤ 0) : (x.split k).1 = x.num / 2 ^ (k - x.exp).toNat := by
  simp only [Ex.split, finer, if_false]

/-- The whole part is below 2^a units where the value is. -/
theorem Ex.split_lt {x : Ex} {k : Int} {a : Nat} (h : x.log + 1 ≤ k + a) : (x.split k).1 < 2 ^ a := by
  have top : x.num < 2 ^ (Nat.log2 x.num + 1) := Nat.lt_log2_self
  unfold Ex.log at h
  by_cases coarse : k - x.exp ≤ 0
  · rw [Ex.split_of_le coarse]
    calc x.num * 2 ^ (-(k - x.exp)).toNat < 2 ^ (Nat.log2 x.num + 1) * 2 ^ (-(k - x.exp)).toNat := Nat.mul_lt_mul_of_pos_right top (Nat.two_pow_pos _)
      _ = 2 ^ (Nat.log2 x.num + 1 + (-(k - x.exp)).toNat) := (Nat.pow_add ..).symm
      _ ≤ 2 ^ a := Nat.pow_le_pow_right Nat.two_pos (by omega)
  · rw [Ex.split_of_pos coarse, Nat.div_lt_iff_lt_mul (Nat.two_pow_pos _), ← Nat.pow_add]
    exact Nat.lt_of_lt_of_le top (Nat.pow_le_pow_right Nat.two_pos (by omega))

/-- The whole part is 2^a units or more where the value is. -/
theorem Ex.le_split {x : Ex} {k : Int} {a : Nat} (nonzero : x.num ≠ 0) (h : k + a ≤ x.log) : 2 ^ a ≤ (x.split k).1 := by
  have bottom : 2 ^ Nat.log2 x.num ≤ x.num := Nat.log2_self_le nonzero
  unfold Ex.log at h
  by_cases coarse : k - x.exp ≤ 0
  · rw [Ex.split_of_le coarse]
    calc 2 ^ a ≤ 2 ^ (Nat.log2 x.num + (-(k - x.exp)).toNat) := Nat.pow_le_pow_right Nat.two_pos (by omega)
      _ = 2 ^ Nat.log2 x.num * 2 ^ (-(k - x.exp)).toNat := Nat.pow_add ..
      _ ≤ x.num * 2 ^ (-(k - x.exp)).toNat := Nat.mul_le_mul_right _ bottom
  · rw [Ex.split_of_pos coarse, Nat.le_div_iff_mul_le (Nat.two_pow_pos _), ← Nat.pow_add]
    exact Nat.le_trans (Nat.pow_le_pow_right Nat.two_pos (by omega)) bottom

theorem Fmt.mBits_pos (F : Fmt) : 0 < F.mBits := by cases F <;> decide

/-- The exponent that a value is rounded at. -/
def Fmt.lead (F : Fmt) (x : Ex) : Int := max x.log (1 - F.bias)

/-- A magnitude is rounded to one of its neighbours among a format's magnitudes, whose codes follow one another (R33). -/
theorem rounded_code (F : Fmt) (r : Rnd) {x : Ex} {cmp : Nat → Ordering} (nonzero : x.num ≠ 0)
    (fine : x.sticky = true → x.exp < F.lead x - F.mBits) (reads : x.Reads (halfExp F) cmp) :
    Rounded r x.neg (magUnits F.mBits) cmp
      ((F.lead x - (1 - F.bias)).toNat * 2 ^ F.mBits + (roundMultiple x (F.lead x - F.mBits) r).1)
      (roundMultiple x (F.lead x - F.mBits) r).2 := by
  have K_eq : F.lead x - F.mBits = halfExp F + ((F.lead x - (1 - F.bias)).toNat + 1 : Nat) := by unfold halfExp Fmt.lead; omega
  have K_half : F.lead x - F.mBits - 1 = halfExp F + ((F.lead x - (1 - F.bias)).toNat : Nat) := by omega
  have short : (x.split (F.lead x - F.mBits)).1 < 2 ^ (F.mBits + 1) := Ex.split_lt (by unfold Fmt.lead; omega)
  have normal : (F.lead x - (1 - F.bias)).toNat = 0 ∨ 2 ^ F.mBits ≤ (x.split (F.lead x - F.mBits)).1 := by
    by_cases low : (F.lead x - (1 - F.bias)).toNat = 0
    · exact .inl low
    · exact .inr (Ex.le_split nonzero (by unfold Fmt.lead at *; omega))
  obtain ⟨m, hm⟩ : ∃ m, F.mBits = m + 1 := ⟨F.mBits - 1, by have := F.mBits_pos; omega⟩
  rw [roundMultiple_eq, ← Nat.add_assoc]
  generalize (F.lead x - (1 - F.bias)).toNat = K at *
  generalize F.lead x - F.mBits = u at *
  have g0 := magUnits_code (Nat.le_of_lt short) normal
  have g1 : magUnits F.mBits (K * 2 ^ F.mBits + (x.split u).1 + 1) = ((x.split u).1 + 1) * 2 ^ K :=
    magUnits_code (N := (x.split u).1 + 1) (by omega) (by omega)
  refine rounded_of_split fine ?_ ?_ ?_ ?_
  · rw [g0, K_eq, ← reads _ (K + 1) fun s => by have := fine s; omega, Nat.pow_succ]
    congr 1
    ac_rfl
  · rw [g1, K_eq, ← reads _ (K + 1) fun s => by have := fine s; omega, Nat.pow_succ]
    congr 1
    ac_rfl
  · rw [g0, g1, K_half, ← reads _ K fun s => by have := fine s; omega]
    rw [show (x.split u).1 * 2 ^ K + ((x.split u).1 + 1) * 2 ^ K = (2 * (x.split u).1 + 1) * 2 ^ K by rw [← Nat.add_mul]; congr 1; omega]
  · rw [hm, Nat.pow_succ, ← Nat.mul_assoc, Nat.mul_add_mod_self_right]

end Sys2Proof.Machine
end

section
/-!
SUPPORT. RoundFmt (R33): sums, integers, quotients and square roots rounded once.
-/
namespace Sys2Proof.Machine

/-- The result of a rounded magnitude's code: the code, or what overflow gives, with the flags (R33). -/
def Fmt.result (F : Fmt) (r : Rnd) (neg : Bool) (c : Nat) (inexact : Bool) : Nat × FlagSet :=
  let sign := if neg then 2 ^ (F.eBits + F.mBits) else 0
  if F.maxCode < c then
    (sign + (if F.saturating = true ∨ r = .rz ∨ (r = .rp ∧ neg = true) ∨ (r = .rm ∧ neg = false) then F.maxCode else F.maxCode + 1), 5#6)
  else (sign + c, if inexact then (if c < 2 ^ F.mBits then 3#6 else 1#6) else 0#6)

theorem Fmt.signed_eq (F : Fmt) (neg : Bool) (mag : Nat) : F.signed neg mag = (if neg then 2 ^ (F.eBits + F.mBits) else 0) + mag := by
  cases neg <;> simp [Fmt.signed]

theorem roundsTo_of_rounded {F : Fmt} {r : Rnd} {neg : Bool} {cmp : Nat → Ordering} {c : Nat} {inexact : Bool}
    (rounded : Rounded r neg (magUnits F.mBits) cmp c inexact) : RoundsTo F r neg cmp (F.result r neg c inexact) := ⟨c, inexact, rounded, rfl⟩

theorem roundFmt_eq (F : Fmt) (r : Rnd) {x : Ex} (nonzero : x.num ≠ 0) : roundFmt F r x =
    F.result r x.neg ((F.lead x - (1 - F.bias)).toNat * 2 ^ F.mBits + (roundMultiple x (F.lead x - F.mBits) r).1)
      (roundMultiple x (F.lead x - F.mBits) r).2 := by
  have some_ : x.isZero = false := by simp [Ex.isZero, nonzero]
  have lead : max x.log (1 - F.bias) = F.lead x := rfl
  simp only [roundFmt, some_, Bool.false_eq_true, if_false, nonzero, lead, gt_iff_lt, Fmt.result]
  generalize (F.lead x - (1 - F.bias)).toNat * 2 ^ F.mBits + (roundMultiple x (F.lead x - F.mBits) r).1 = c
  split
  · simp only [Fmt.signed_eq]
    cases F <;> cases r <;> cases x.neg <;> rfl
  · rw [Fmt.signed_eq]
    generalize (roundMultiple x (F.lead x - F.mBits) r).2 = inexact
    by_cases small : c < 2 ^ F.mBits <;> cases inexact <;> simp only [small, decide_true, decide_false] <;> rfl

/-- A non-zero magnitude is rounded once (R33). -/
theorem roundFmt_roundsTo (F : Fmt) (r : Rnd) {x : Ex} {cmp : Nat → Ordering} (nonzero : x.num ≠ 0)
    (fine : x.sticky = true → x.exp < F.lead x - F.mBits) (reads : x.Reads (halfExp F) cmp) : RoundsTo F r x.neg cmp (roundFmt F r x) := by
  rw [roundFmt_eq F r nonzero]
  exact roundsTo_of_rounded (rounded_code F r nonzero fine reads)

theorem roundFmt_zero (F : Fmt) (r : Rnd) (n : Bool) (e : Int) : roundFmt F r (Ex.ofFin n 0 e) = ((if n then 2 ^ (F.eBits + F.mBits) else 0), 0#6) := by
  have none_ : (Ex.ofFin n 0 e).isZero = true := rfl
  simp only [roundFmt, none_, if_true]
  change (F.signed n 0, _) = _
  rw [Fmt.signed_eq, Nat.add_zero]

theorem roundFmt_ofFin (F : Fmt) (r : Rnd) (n : Bool) {a : Nat} (e : Int) (nonzero : a ≠ 0) :
    RoundsTo F r n (ratCmp a 1 (e - halfExp F)) (roundFmt F r (Ex.ofFin n a e)) :=
  roundFmt_roundsTo F r (x := Ex.ofFin n a e) nonzero (fun h => Bool.noConfusion h) (reads_ofFin n a e _)

/-! Sums. -/

theorem foldl_min_le (xs : List Int) : ∀ b : Int, xs.foldl min b ≤ b ∧ ∀ x ∈ xs, xs.foldl min b ≤ x := by
  induction xs with
  | nil => intro b; simp
  | cons x xs ih =>
    intro b
    obtain ⟨base, each⟩ := ih (min b x)
    exact ⟨by simp only [List.foldl_cons]; omega, by
      intro y hy
      rcases List.mem_cons.mp hy with rfl | hy
      · simp only [List.foldl_cons]; omega
      · exact each y hy⟩

theorem scaled_eq_termAt (n : Bool) (a : Nat) (f e : Int) : scaled n a f e = termAt e (n, a, f) := by
  cases n <;> simp [scaled, termAt]

/-- A sum of terms in coarser units. -/
theorem sum_termAt {ts : List (Bool × Nat × Int)} {e e' : Int} (le : e ≤ e') (all : ∀ t ∈ ts, e' ≤ t.2.2) :
    (ts.map (termAt e)).sum = (ts.map (termAt e')).sum * (2 ^ (e' - e).toNat : Nat) := by
  induction ts with
  | nil => simp
  | cons t ts ih =>
    have here := all t (List.mem_cons_self ..)
    have one : termAt e t = termAt e' t * (2 ^ (e' - e).toNat : Nat) := by
      have exps : (t.2.2 - e).toNat = (t.2.2 - e').toNat + (e' - e).toNat := by omega
      simp only [termAt, exps, Nat.pow_add]
      rw [Int.mul_assoc, ← Int.natCast_mul, Nat.mul_assoc]
    rw [List.map_cons, List.sum_cons, List.map_cons, List.sum_cons, ih fun u hu => all u (List.mem_cons_of_mem _ hu), one, Int.add_mul]

/-- The exact sum does not depend on the units that it is taken in. -/
theorem sum_termAt_units {ts : List (Bool × Nat × Int)} {e e' : Int} (all : ∀ t ∈ ts, e ≤ t.2.2) (all' : ∀ t ∈ ts, e' ≤ t.2.2) (E : Int) :
    let s := (ts.map (termAt e)).sum
    let s' := (ts.map (termAt e')).sum
    (s = 0 ↔ s' = 0) ∧ (s < 0 ↔ s' < 0) ∧ ratCmp s.natAbs 1 (e - E) = ratCmp s'.natAbs 1 (e' - E) := by
  have half : ∀ {e e' : Int}, e ≤ e' → (∀ t ∈ ts, e' ≤ t.2.2) → let s := (ts.map (termAt e)).sum; let s' := (ts.map (termAt e')).sum
      (s = 0 ↔ s' = 0) ∧ (s < 0 ↔ s' < 0) ∧ ratCmp s.natAbs 1 (e - E) = ratCmp s'.natAbs 1 (e' - E) := by
    intro e e' le all' s s'
    have shape : s = s' * (2 ^ (e' - e).toNat : Nat) := sum_termAt le all'
    have pos : (0 : Int) < (2 ^ (e' - e).toNat : Nat) := Int.natCast_pos.mpr (Nat.two_pow_pos _)
    refine ⟨?_, ?_, ?_⟩
    · rw [shape, Int.mul_eq_zero]
      exact or_iff_left (by omega)
    · rw [shape]
      exact ⟨fun h => Int.not_le.mp fun no => Int.not_lt.mpr (Int.mul_nonneg no (Int.le_of_lt pos)) h, fun h => Int.mul_neg_of_neg_of_pos h pos⟩
    · funext h
      rw [shape, Int.natAbs_mul, Int.natAbs_natCast, ratCmp_scaled]
      congr 1
      omega
  rcases Int.le_total e e' with le | le
  · exact half le all'
  · obtain ⟨zero, neg, cmp⟩ := half le all
    exact ⟨zero.symm, neg.symm, cmp.symm⟩

/-- A sum of finite terms is exact and rounded once. -/
theorem roundFmt_sumTerms (F : Fmt) (r : Rnd) (ts : List (Bool × Nat × Int)) (zeroNeg : Bool) :
    SumsTo F r ts zeroNeg (roundFmt F r (sumTerms ts zeroNeg)) := by
  intro e0 all sum
  have units : ∀ t ∈ ts, (ts.map fun t => t.2.2).foldl min 0 ≤ t.2.2 := fun t ht =>
    (foldl_min_le _ 0).2 _ (List.mem_map_of_mem ht)
  have terms : ts.map (fun t => scaled t.1 t.2.1 t.2.2 ((ts.map fun t => t.2.2).foldl min 0)) =
      ts.map (termAt ((ts.map fun t => t.2.2).foldl min 0)) := List.map_congr_left fun t _ => scaled_eq_termAt t.1 t.2.1 t.2.2 _
  have shape : sumTerms ts zeroNeg = (let e := (ts.map fun t => t.2.2).foldl min 0
      let s := (ts.map (termAt e)).sum
      if s = 0 then Ex.ofFin zeroNeg 0 0 else Ex.ofFin (decide (s < 0)) s.natAbs e) := by
    rw [sumTerms, terms, foldl_add_sum]
  obtain ⟨zero, neg, cmp⟩ := sum_termAt_units all units (halfExp F)
  dsimp only at shape
  rw [shape]
  refine ⟨fun none_ => ?_, fun some_ => ?_⟩
  · rw [if_pos (zero.mp none_), roundFmt_zero]
  · rw [if_neg (mt zero.mpr some_), cmp, decide_eq_decide.mpr neg]
    exact roundFmt_ofFin F r _ _ (by simpa using mt zero.mpr some_)

/-- An exact product, or any one term, rounded once. -/
theorem roundFmt_sumsTo_one (F : Fmt) (r : Rnd) (n : Bool) (a : Nat) (e : Int) : SumsTo F r [(n, a, e)] n (roundFmt F r (Ex.ofFin n a e)) := by
  intro e0 all sum
  have least : e0 ≤ e := all (n, a, e) (List.mem_cons_self ..)
  have pos := Nat.two_pow_pos (e - e0).toNat
  have sum_eq : sum = (if n then -1 else 1) * ((a * 2 ^ (e - e0).toNat : Nat) : Int) := by simp [sum, termAt]
  have abs : sum.natAbs = a * 2 ^ (e - e0).toNat := by
    rw [sum_eq, Int.natAbs_mul, Int.natAbs_natCast]
    cases n <;> simp
  have zero_iff : sum = 0 ↔ a = 0 := by rw [← Int.natAbs_eq_zero, abs, Nat.mul_eq_zero]; omega
  refine ⟨fun none_ => ?_, fun some_ => ?_⟩
  · rw [zero_iff.mp none_, roundFmt_zero]
  · have nonzero := mt zero_iff.mpr some_
    have neg : decide (sum < 0) = n := by
      have big : 0 < a * 2 ^ (e - e0).toNat := Nat.mul_pos (Nat.pos_of_ne_zero nonzero) pos
      rw [sum_eq]
      generalize a * 2 ^ (e - e0).toNat = p at big
      cases n
      · exact decide_eq_false (by simp only [Bool.false_eq_true, if_false]; omega)
      · exact decide_eq_true (by simp only [if_true]; omega)
    have cmp : ratCmp sum.natAbs 1 (e0 - halfExp F) = ratCmp a 1 (e - halfExp F) := by
      funext h
      rw [abs, ratCmp_scaled]
      congr 1
      omega
    rw [neg, cmp]
    exact roundFmt_ofFin F r n e nonzero

/-! Integers. -/

/-- A magnitude is rounded to one of its neighbours among the integers. -/
theorem roundMultiple_rounded {x : Ex} (r : Rnd) {cmp : Nat → Ordering} (fine : x.sticky = true → x.exp < 0) (reads : x.Reads (-1) cmp) :
    Rounded r x.neg id cmp (roundMultiple x 0 r).1 (roundMultiple x 0 r).2 := by
  rw [roundMultiple_eq]
  refine rounded_of_split fine ?_ ?_ ?_ rfl
  · have read := reads (x.split 0).1 1 fun s => by have := fine s; omega
    rw [Nat.pow_one, Nat.mul_comm] at read
    exact read
  · have read := reads ((x.split 0).1 + 1) 1 fun s => by have := fine s; omega
    rw [Nat.pow_one, Nat.mul_comm] at read
    exact read
  · have read := reads (2 * (x.split 0).1 + 1) 0 fun s => by have := fine s; omega
    rw [Nat.pow_zero, Nat.mul_one] at read
    have sum : id (x.split 0).1 + id ((x.split 0).1 + 1) = 2 * (x.split 0).1 + 1 := by simp only [id]; omega
    rw [sum]
    exact read

theorem roundMultiple_ofFin (r : Rnd) (n : Bool) (a : Nat) (e : Int) : Rounded r n id (ratCmp a 1 (e + 1))
    (roundMultiple (Ex.ofFin n a e) 0 r).1 (roundMultiple (Ex.ofFin n a e) 0 r).2 := by
  have reads := reads_ofFin n a e (-1)
  rw [Int.sub_neg] at reads
  exact roundMultiple_rounded (x := Ex.ofFin n a e) r (fun h => Bool.noConfusion h) reads

/-! Quotients. -/

/-- A comparison with coarser units. -/
theorem ratCmp_unit (a b m j : Nat) (e : Int) : ratCmp a b e (m * 2 ^ j) = ratCmp a b (e - j) m := by
  rw [ratCmp, show m * 2 ^ j * b * 2 ^ (-e).toNat = m * b * 2 ^ (j + (-e).toNat) by rw [Nat.pow_add]; ac_rfl]
  exact ratCmp_of_sub a b m (by omega)

theorem ratCmp_cancel (a m : Nat) {b : Nat} (pos : 0 < b) (e : Int) : ratCmp (a * b) b e m = ratCmp a 1 e m := by
  rw [ratCmp, ratCmp, show a * b * 2 ^ e.toNat = a * 2 ^ e.toNat * b by ac_rfl, show m * b * 2 ^ (-e).toNat = m * 1 * 2 ^ (-e).toNat * b by rw [Nat.mul_one]; ac_rfl,
    compare_mul_right pos]

/-- A quotient's whole part and its sticky rest compare as the quotient does. -/
theorem exQuot_reads (neg : Bool) (a : Nat) {b : Nat} (pos : 0 < b) (e E : Int) : (exQuot neg a b e).Reads E (ratCmp a b (e - E)) := by
  intro m j fine
  obtain ⟨k, hk⟩ : ∃ k, 66 + Nat.log2 b = k := ⟨_, rfl⟩
  have shape : exQuot neg a b e = { neg := neg, num := a * 2 ^ k / b, exp := e - k, sticky := a * 2 ^ k % b != 0 } := by
    simp only [exQuot, hk]
  rw [shape] at fine ⊢
  have finer : ratCmp a b (e - E) (m * 2 ^ j) = ratCmp (a * 2 ^ k) b (e - k - (E + j)) m := by
    rw [ratCmp_unit, ratCmp_scaled]
    congr 1
    omega
  have parts := Nat.div_add_mod (a * 2 ^ k) b
  have rest := Nat.mod_lt (a * 2 ^ k) pos
  rw [finer]
  by_cases exact_ : a * 2 ^ k % b = 0
  · have whole : a * 2 ^ k = a * 2 ^ k / b * b := (Nat.div_mul_cancel (Nat.dvd_of_mod_eq_zero exact_)).symm
    have same := ratCmp_cancel (a * 2 ^ k / b) m pos (e - k - (E + j))
    rw [← whole] at same
    rw [same]
    have read := ratCmp_of_sub (a * 2 ^ k / b) 1 m (e := e - k - (E + j)) (p := (e - k - (E + j)).toNat) (q := (E + j - (e - k)).toNat) (by omega)
    rw [Nat.mul_one] at read
    simp only [Ex.cmp, exact_, bne_self_eq_false, Bool.false_eq_true, if_false]
    exact read.symm
  · have sticky : (a * 2 ^ k % b != 0) = true := by simpa using exact_
    have low := fine sticky
    dsimp only at low
    have read := ratCmp_of_sub (a * 2 ^ k) b m (e := e - k - (E + j)) (p := 0) (q := (E + j - (e - k)).toNat) (by omega)
    rw [← read, Nat.pow_zero, Nat.mul_one]
    have none_ : (e - k - (E + j)).toNat = 0 := by omega
    simp only [Ex.cmp, sticky, if_true, none_, Nat.pow_zero, Nat.mul_one, Nat.le_div_iff_mul_le pos]
    generalize (E + j - (e - k)).toNat = q
    have order : m * b * 2 ^ q = m * 2 ^ q * b := by ac_rfl
    have apart : a * 2 ^ k ≠ m * 2 ^ q * b := fun same => exact_ (by rw [same, Nat.mul_mod_left])
    rw [order]
    split
    · exact Nat.compare_eq_gt.mpr (by omega)
    · exact Nat.compare_eq_lt.mpr (by omega)

theorem exQuot_big (neg : Bool) {a b : Nat} (pos : 0 < b) (e : Int) (nonzero : a ≠ 0) : 2 ^ 65 ≤ (exQuot neg a b e).num := by
  change 2 ^ 65 ≤ a * 2 ^ (66 + Nat.log2 b) / b
  rw [Nat.le_div_iff_mul_le pos]
  calc 2 ^ 65 * b ≤ 2 ^ 65 * 2 ^ (Nat.log2 b + 1) := Nat.mul_le_mul_left _ (Nat.le_of_lt Nat.lt_log2_self)
    _ = 1 * 2 ^ (66 + Nat.log2 b) := by rw [← Nat.pow_add, Nat.one_mul]; congr 1; omega
    _ ≤ a * 2 ^ (66 + Nat.log2 b) := Nat.mul_le_mul_right _ (Nat.one_le_iff_ne_zero.mpr nonzero)

/-- A magnitude of more bits than a format's has its sticky rest below the place that it is rounded at. -/
theorem fine_of_big {F : Fmt} {x : Ex} (big : 2 ^ 65 ≤ x.num) : x.exp < F.lead x - F.mBits := by
  have bits : F.mBits ≤ 23 := by cases F <;> decide
  have log := (Nat.le_log2 (by omega : x.num ≠ 0)).mpr big
  have top : x.log ≤ F.lead x := Int.le_max_left _ _
  unfold Ex.log at top
  omega

theorem roundFmt_exQuot (F : Fmt) (r : Rnd) (neg : Bool) {a b : Nat} (pos : 0 < b) (e : Int) (nonzero : a ≠ 0) :
    RoundsTo F r neg (ratCmp a b (e - halfExp F)) (roundFmt F r (exQuot neg a b e)) := by
  have big := exQuot_big neg pos e nonzero
  exact roundFmt_roundsTo F r (x := exQuot neg a b e) (by omega) (fun _ => fine_of_big big) (exQuot_reads neg a pos e _)

/-! Square roots. -/

theorem isqrtAux_spec (i : Nat) : ∀ n r : Nat, r * r ≤ n → n < (r + 2 ^ i) * (r + 2 ^ i) →
    isqrtAux i n r * isqrtAux i n r ≤ n ∧ n < (isqrtAux i n r + 1) * (isqrtAux i n r + 1) := by
  induction i with
  | zero => intro n r low high; exact ⟨low, high⟩
  | succ i ih =>
    intro n r low high
    unfold isqrtAux
    split
    · next fits =>
      refine ih n (r + 2 ^ i) fits ?_
      rw [Nat.add_assoc, ← Nat.two_mul, Nat.mul_comm 2, ← Nat.pow_succ]
      exact high
    · next short => exact ih n r low (Nat.lt_of_not_le short)

theorem isqrt_spec (n : Nat) : isqrt n * isqrt n ≤ n ∧ n < (isqrt n + 1) * (isqrt n + 1) := by
  refine isqrtAux_spec _ n 0 (Nat.zero_le _) ?_
  rw [Nat.zero_add, ← Nat.pow_add]
  exact Nat.lt_of_lt_of_le Nat.lt_log2_self (Nat.pow_le_pow_right Nat.two_pos (by omega))

theorem le_isqrt (m n : Nat) : m ≤ isqrt n ↔ m * m ≤ n := by
  obtain ⟨low, high⟩ := isqrt_spec n
  constructor
  · intro h
    exact Nat.le_trans (Nat.mul_le_mul h h) low
  · intro h
    refine Classical.byContradiction fun short => ?_
    have := Nat.mul_le_mul (show isqrt n + 1 ≤ m by omega) (show isqrt n + 1 ≤ m by omega)
    omega

theorem rootCmp_unit (a b m j : Nat) (e : Int) : rootCmp a b e (m * 2 ^ j) = ratCmp a b (e - 2 * j) (m * m) := by
  have square : rootCmp a b e (m * 2 ^ j) = ratCmp a b e (m * m * 2 ^ (2 * j)) := by
    rw [rootCmp, ratCmp, show m * 2 ^ j * (m * 2 ^ j) = m * m * 2 ^ (2 * j) by rw [Nat.two_mul, Nat.pow_add]; ac_rfl]
  rw [square, ratCmp_unit]
  congr 1

theorem compare_square (a b : Nat) : compare (a * a) (b * b) = compare a b :=
  compare_congr Nat.mul_self_lt_mul_self_iff Nat.mul_self_lt_mul_self_iff

/-- A square root's whole part and its sticky rest compare as the root does. -/
theorem exSqrtQuot_reads (a : Nat) {b : Nat} (pos : 0 < b) (e E : Int) : (exSqrtQuot a b e).Reads E (rootCmp a b (e - 2 * E)) := by
  intro m j fine
  obtain ⟨k, hk, even⟩ : ∃ k : Nat, (if (e - (140 + Nat.log2 b : Nat)) % 2 = 0 then 140 + Nat.log2 b else 140 + Nat.log2 b + 1) = k ∧
      (e - k) % 2 = 0 := by
    refine ⟨_, rfl, ?_⟩
    split <;> omega
  have shape : exSqrtQuot a b e = Ex.mk false (isqrt (a * 2 ^ k / b)) ((e - k) / 2)
      (a * 2 ^ k % b != 0 || isqrt (a * 2 ^ k / b) * isqrt (a * 2 ^ k / b) != a * 2 ^ k / b) := by
    simp only [exSqrtQuot, hk]
  rw [shape] at fine ⊢
  obtain ⟨f, hf⟩ : ∃ f, (e - k) / 2 = f := ⟨_, rfl⟩
  rw [hf] at fine ⊢
  have finer : rootCmp a b (e - 2 * E) (m * 2 ^ j) = ratCmp (a * 2 ^ k) b (2 * (f - (E + j))) (m * m) := by
    rw [rootCmp_unit, ratCmp_scaled]
    congr 1
    omega
  have parts := Nat.div_add_mod (a * 2 ^ k) b
  rw [finer]
  by_cases exact_ : a * 2 ^ k % b = 0 ∧ isqrt (a * 2 ^ k / b) * isqrt (a * 2 ^ k / b) = a * 2 ^ k / b
  · have whole : a * 2 ^ k = isqrt (a * 2 ^ k / b) * isqrt (a * 2 ^ k / b) * b := by
      rw [exact_.2, Nat.div_mul_cancel (Nat.dvd_of_mod_eq_zero exact_.1)]
    have same := ratCmp_cancel (isqrt (a * 2 ^ k / b) * isqrt (a * 2 ^ k / b)) (m * m) pos (2 * (f - (E + j)))
    rw [← whole] at same
    rw [same]
    have unsticky : ¬ (a * 2 ^ k % b != 0 || isqrt (a * 2 ^ k / b) * isqrt (a * 2 ^ k / b) != a * 2 ^ k / b) = true := by simp [exact_]
    rw [Ex.cmp, if_neg unsticky]
    dsimp only
    generalize isqrt (a * 2 ^ k / b) = q
    have read := ratCmp_of_sub (q * q) 1 (m * m) (e := 2 * (f - (E + j))) (p := 2 * (f - (E + j)).toNat) (q := 2 * (E + j - f).toNat) (by omega)
    rw [← read, ← compare_square (q * 2 ^ (f - (E + j)).toNat)]
    congr 1
    · rw [Nat.two_mul, Nat.pow_add]; ac_rfl
    · rw [Nat.two_mul, Nat.pow_add]; ac_rfl
  · have sticky : (a * 2 ^ k % b != 0 || isqrt (a * 2 ^ k / b) * isqrt (a * 2 ^ k / b) != a * 2 ^ k / b) = true := by
      rw [Bool.or_eq_true, bne_iff_ne, bne_iff_ne]
      exact Classical.not_and_iff_not_or_not.mp exact_
    have low := fine sticky
    dsimp only at low
    have read := ratCmp_of_sub (a * 2 ^ k) b (m * m) (e := 2 * (f - (E + j))) (p := 0) (q := 2 * (E + j - f).toNat) (by omega)
    rw [← read, Nat.pow_zero, Nat.mul_one]
    have none_ : (f - (E + j)).toNat = 0 := by omega
    simp only [Ex.cmp, sticky, if_true, none_, Nat.pow_zero, Nat.mul_one, le_isqrt, Nat.le_div_iff_mul_le pos]
    generalize (E + j - f).toNat = q
    have order : m * m * b * 2 ^ (2 * q) = m * 2 ^ q * (m * 2 ^ q) * b := by rw [Nat.two_mul, Nat.pow_add]; ac_rfl
    have apart : a * 2 ^ k ≠ m * 2 ^ q * (m * 2 ^ q) * b := fun same => by
      refine exact_ ⟨by rw [same, Nat.mul_mod_left], ?_⟩
      have root : isqrt (m * 2 ^ q * (m * 2 ^ q)) = m * 2 ^ q := by
        obtain ⟨below, above⟩ := isqrt_spec (m * 2 ^ q * (m * 2 ^ q))
        have least := (le_isqrt (m * 2 ^ q) _).mpr (Nat.le_refl _)
        have most := Nat.mul_self_le_mul_self_iff.mp below
        omega
      rw [same, Nat.mul_div_cancel _ pos, root]
    rw [order]
    split
    · exact Nat.compare_eq_gt.mpr (by omega)
    · exact Nat.compare_eq_lt.mpr (by omega)

theorem exSqrtQuot_big {a b : Nat} (pos : 0 < b) (e : Int) (nonzero : a ≠ 0) : 2 ^ 65 ≤ (exSqrtQuot a b e).num := by
  obtain ⟨k, hk, wide⟩ : ∃ k : Nat, (if (e - (140 + Nat.log2 b : Nat)) % 2 = 0 then 140 + Nat.log2 b else 140 + Nat.log2 b + 1) = k ∧
      140 + Nat.log2 b ≤ k := by
    refine ⟨_, rfl, ?_⟩
    split <;> omega
  have shape : (exSqrtQuot a b e).num = isqrt (a * 2 ^ k / b) := by simp only [exSqrtQuot, hk]
  rw [shape, le_isqrt, Nat.le_div_iff_mul_le pos, ← Nat.pow_add]
  calc 2 ^ (65 + 65) * b ≤ 2 ^ (65 + 65) * 2 ^ (Nat.log2 b + 1) := Nat.mul_le_mul_left _ (Nat.le_of_lt Nat.lt_log2_self)
    _ = 2 ^ (65 + 65 + (Nat.log2 b + 1)) := (Nat.pow_add ..).symm
    _ ≤ 2 ^ k := Nat.pow_le_pow_right Nat.two_pos (by omega)
    _ ≤ a * 2 ^ k := Nat.le_mul_of_pos_left _ (Nat.pos_of_ne_zero nonzero)

theorem roundFmt_exSqrtQuot (F : Fmt) (r : Rnd) {a b : Nat} (pos : 0 < b) (e : Int) (nonzero : a ≠ 0) :
    RoundsTo F r false (rootCmp a b (e - 2 * halfExp F)) (roundFmt F r (exSqrtQuot a b e)) := by
  have big := exSqrtQuot_big pos e nonzero
  exact roundFmt_roundsTo F r (x := exSqrtQuot a b e) (by omega) (fun _ => fine_of_big big) (exSqrtQuot_reads a pos e _)

end Sys2Proof.Machine
end

section
/-!
SUPPORT. The codes of the floating-point formats (R28) and Src (R143).
-/
namespace Sys2Proof.Machine

/-- The value of a sign and a magnitude code. -/
def Fmt.decodeAs (F : Fmt) (neg : Bool) (mag : Nat) : Fp :=
  if F.hasInf && mag / 2 ^ F.mBits == 2 ^ F.eBits - 1 then (if mag % 2 ^ F.mBits = 0 then .inf neg else .nan neg (mag % 2 ^ F.mBits))
  else if F == .f8e4 && mag / 2 ^ F.mBits == 15 && mag % 2 ^ F.mBits == 7 then .nan neg (mag % 2 ^ F.mBits)
  else if mag / 2 ^ F.mBits = 0 then .fin neg (mag % 2 ^ F.mBits) (1 - F.bias - F.mBits)
  else .fin neg (2 ^ F.mBits + mag % 2 ^ F.mBits) ((mag / 2 ^ F.mBits : Nat) - F.bias - F.mBits)

theorem Fmt.decode_eq (F : Fmt) (x : Nat) : F.decode x = F.decodeAs (x.testBit (F.eBits + F.mBits)) (x % 2 ^ (F.eBits + F.mBits)) := by
  have low : x % 2 ^ (F.eBits + F.mBits) % 2 ^ F.mBits = x % 2 ^ F.mBits := Nat.mod_mod_of_dvd _ (Nat.pow_dvd_pow 2 (Nat.le_add_left ..))
  have high : x % 2 ^ (F.eBits + F.mBits) / 2 ^ F.mBits = x / 2 ^ F.mBits % 2 ^ F.eBits := by
    rw [Nat.add_comm, Nat.pow_add, Nat.mod_mul_right_div_self]
  simp only [Fmt.decode, Fmt.decodeAs, low, high, bit_eq_testBit]

theorem Fmt.decode_signed (F : Fmt) (neg : Bool) {mag : Nat} (small : mag < 2 ^ (F.eBits + F.mBits)) :
    F.decode (mag + if neg then 2 ^ (F.eBits + F.mBits) else 0) = F.decodeAs neg mag := by
  have sign : (mag + if neg then 2 ^ (F.eBits + F.mBits) else 0).testBit (F.eBits + F.mBits) = neg := by
    cases neg
    · exact Nat.testBit_lt_two_pow small
    · rw [if_pos rfl, Nat.add_comm, Nat.testBit_two_pow_add_eq, Nat.testBit_lt_two_pow small]
      rfl
  have rest : (mag + if neg then 2 ^ (F.eBits + F.mBits) else 0) % 2 ^ (F.eBits + F.mBits) = mag := by
    cases neg
    · exact Nat.mod_eq_of_lt small
    · rw [if_pos rfl, Nat.add_mod_right, Nat.mod_eq_of_lt small]
  rw [Fmt.decode_eq, sign, rest]

theorem Fmt.decodeAs_setNeg (F : Fmt) (n k : Bool) (mag : Nat) : (F.decodeAs n mag).setNeg k = F.decodeAs k mag := by
  unfold Fmt.decodeAs
  repeat' split
  all_goals rfl

theorem Fmt.decodeAs_neg (F : Fmt) (n : Bool) (mag : Nat) : (F.decodeAs n mag).neg = n := by
  unfold Fmt.decodeAs
  repeat' split
  all_goals rfl

/-- A code up to the greatest finite one is a number (R28). -/
theorem Fmt.decodeAs_fin {F : Fmt} (n : Bool) {mag : Nat} (finite : mag ≤ F.maxCode) : F.decodeAs n mag =
    if mag / 2 ^ F.mBits = 0 then .fin n (mag % 2 ^ F.mBits) (1 - F.bias - F.mBits)
    else .fin n (2 ^ F.mBits + mag % 2 ^ F.mBits) ((mag / 2 ^ F.mBits : Nat) - F.bias - F.mBits) := by
  unfold Fmt.decodeAs
  have not_top : (F.hasInf && mag / 2 ^ F.mBits == 2 ^ F.eBits - 1) = false := by
    cases F <;> simp [Fmt.hasInf, Fmt.maxCode, Fmt.infCode, Fmt.mBits, Fmt.eBits] at * <;> omega
  have not_nan : (F == .f8e4 && mag / 2 ^ F.mBits == 15 && mag % 2 ^ F.mBits == 7) = false := by
    cases F
    case f8e4 =>
      simp only [Fmt.maxCode, Fmt.mBits, Bool.and_eq_false_iff, beq_eq_false_iff_ne] at *
      omega
    all_goals rfl
  rw [not_top, not_nan]
  rfl

theorem Fmt.decodeAs_inf {F : Fmt} (n : Bool) (infinities : F.hasInf = true) : F.decodeAs n F.infCode = .inf n := by
  have top : F.infCode / 2 ^ F.mBits = 2 ^ F.eBits - 1 := Nat.mul_div_cancel _ (Nat.two_pow_pos _)
  have zero : F.infCode % 2 ^ F.mBits = 0 := Nat.mul_mod_left _ _
  simp only [Fmt.decodeAs, infinities, top, zero, beq_self_eq_true, Bool.and_self, if_true]

theorem Fmt.decodeAs_nan {F : Fmt} (n : Bool) {mag : Nat} (small : mag < 2 ^ (F.eBits + F.mBits)) (beyond : F.maxCode < mag)
    (other : mag ≠ F.infCode) : F.decodeAs n mag = .nan n (mag % 2 ^ F.mBits) := by
  have place : ((F.hasInf && mag / 2 ^ F.mBits == 2 ^ F.eBits - 1) = true ∧ mag % 2 ^ F.mBits ≠ 0) ∨ F = .f8e4 ∧ mag = 0x7F := by
    cases F
    case f32 | f16 | bf16 | f8e5 =>
      simp only [Fmt.hasInf, Fmt.maxCode, Fmt.infCode, Fmt.mBits, Fmt.eBits, Bool.true_and, if_true, beq_iff_eq] at *
      omega
    case f8e4 =>
      simp only [Fmt.maxCode, Fmt.mBits, Fmt.eBits] at *
      exact .inr ⟨trivial, by omega⟩
    all_goals
      simp only [Fmt.hasInf, Fmt.maxCode, Fmt.mBits, Fmt.eBits, Bool.false_eq_true, if_false] at *
      omega
  rcases place with ⟨top, some_⟩ | ⟨rfl, rfl⟩
  · rw [Fmt.decodeAs, if_pos top, if_neg some_]
  · rfl

theorem Fmt.maxCode_lt (F : Fmt) : F.maxCode < 2 ^ (F.eBits + F.mBits) := by cases F <;> decide

/-- The value of a finite code, in units of the least subnormal (R28). -/
theorem Fmt.decode_value {F : Fmt} {x : Nat} (finite : x % 2 ^ (F.eBits + F.mBits) ≤ F.maxCode) :
    ∃ a e, F.decode x = .fin (x.testBit (F.eBits + F.mBits)) a e ∧ 1 - F.bias - F.mBits ≤ e ∧
      a * 2 ^ (e - (1 - F.bias - F.mBits)).toNat = magUnits F.mBits (x % 2 ^ (F.eBits + F.mBits)) := by
  rw [Fmt.decode_eq, Fmt.decodeAs_fin _ finite]
  generalize x % 2 ^ (F.eBits + F.mBits) = mag
  by_cases sub : mag / 2 ^ F.mBits = 0
  · have small : mag % 2 ^ F.mBits = mag := Nat.mod_eq_of_lt (by
      have := Nat.lt_of_div_eq_zero (Nat.two_pow_pos _) sub
      exact this)
    rw [if_pos sub, small]
    refine ⟨_, _, rfl, Int.le_refl _, ?_⟩
    rw [Int.sub_self, Int.toNat_zero, Nat.pow_zero, Nat.mul_one, magUnits, if_pos sub]
  · rw [if_neg sub]
    rw [magUnits, if_neg sub]
    generalize mag / 2 ^ F.mBits = q at *
    refine ⟨_, _, rfl, by omega, ?_⟩
    congr 2
    omega

/-- Src flushes a subnormal f16 at level 1 and sets the sign (R143). -/
theorem srcFp_eq (F : Fmt) (l absB negB : Bool) (x : Nat) :
    let neg := x.testBit (F.eBits + F.mBits)
    let mag := x % 2 ^ (F.eBits + F.mBits)
    srcFp F l absB negB x = F.decode ((if F = .f16 ∧ l = true ∧ mag < 2 ^ F.mBits then 0 else mag) +
      if ((neg && !absB) ^^ negB) = true then 2 ^ (F.eBits + F.mBits) else 0) := by
  intro neg mag
  have small : mag < 2 ^ (F.eBits + F.mBits) := Nat.mod_lt _ (Nat.two_pow_pos _)
  have field : (x / 2 ^ F.mBits % 2 ^ F.eBits == 0) = decide (mag < 2 ^ F.mBits) := by
    have high : mag / 2 ^ F.mBits = x / 2 ^ F.mBits % 2 ^ F.eBits := by
      dsimp only [mag]
      rw [Nat.add_comm, Nat.pow_add, Nat.mod_mul_right_div_self]
    rw [← high, Bool.eq_iff_iff, beq_iff_eq, decide_eq_true_iff, Nat.div_eq_zero_iff_lt (Nat.two_pow_pos _)]
  have flushed : Fp.fin neg 0 (1 - F.bias - F.mBits) = F.decodeAs neg 0 := by
    rw [Fmt.decodeAs_fin neg (Nat.zero_le _), Nat.zero_div, if_pos rfl, Nat.zero_mod]
  have read : (if (F == .f16 && l && x / 2 ^ F.mBits % 2 ^ F.eBits == 0) = true then Fp.fin (F.decode x).neg 0 (1 - F.bias - F.mBits) else F.decode x) =
      F.decodeAs neg (if F = .f16 ∧ l = true ∧ mag < 2 ^ F.mBits then 0 else mag) := by
    rw [Fmt.decode_eq, Fmt.decodeAs_neg, field, flushed]
    simp only [Bool.and_eq_true, beq_iff_eq, decide_eq_true_eq, and_assoc]
    split <;> rfl
  have kept : (if F = .f16 ∧ l = true ∧ mag < 2 ^ F.mBits then 0 else mag) < 2 ^ (F.eBits + F.mBits) := by
    split
    · exact Nat.two_pow_pos _
    · exact small
  rw [Fmt.decode_signed F _ kept, srcFp, read]
  cases absB <;> cases negB <;> cases neg <;> simp [Fmt.decodeAs_setNeg, Fmt.decodeAs_neg]

end Sys2Proof.Machine
end

section
/-!
SUPPORT. NaNs, infinities and invalid operations (R38, R145).
-/
namespace Sys2Proof.Machine

theorem Fmt.quietNan_eq (F : Fmt) (neg : Bool) {m : Nat} (small : m < 2 ^ F.mBits) :
    F.quietNan neg m = (if neg then 2 ^ (F.eBits + F.mBits) else 0) + F.infCode + (m ||| 2 ^ (F.mBits - 1)) := by
  obtain ⟨n, hn⟩ : ∃ n, F.mBits = n + 1 := ⟨F.mBits - 1, by have := F.mBits_pos; omega⟩
  have quiet : (if bit m (F.mBits - 1) then m else m + 2 ^ (F.mBits - 1)) = m ||| 2 ^ (F.mBits - 1) := by
    rw [bit_eq_testBit, hn, Nat.add_sub_cancel]
    rw [hn] at small
    split
    · next set =>
      refine Nat.eq_of_testBit_eq fun j => ?_
      rw [Nat.testBit_or, Nat.testBit_two_pow]
      by_cases here : n = j
      · rw [← here, set]
        rfl
      · simp [here]
    · next clear =>
      have low : m < 2 ^ n := by
        refine Classical.byContradiction fun high => ?_
        have top : m / 2 ^ n = 1 := by
          have := (Nat.div_lt_iff_lt_mul (Nat.two_pow_pos n)).mpr (show m < 2 * 2 ^ n by rw [Nat.mul_comm, ← Nat.pow_succ]; exact small)
          have := (Nat.le_div_iff_mul_le (Nat.two_pow_pos n)).mpr (show 1 * 2 ^ n ≤ m by omega)
          omega
        exact clear (by rw [Nat.testBit_eq_decide_div_mod_eq, top]; rfl)
      rw [Nat.or_comm, Nat.add_comm]
      have := Nat.two_pow_add_eq_or_of_lt low 1
      simpa using this
  rw [Fmt.quietNan, quiet, Fmt.signed_eq, Nat.add_assoc]

theorem snanFlag_eq (F : Fmt) (xs : List Fp) : (snanFlag F xs = 16#6 ∨ snanFlag F xs = 0#6) ∧
    (snanFlag F xs = 16#6 ↔ ∃ n p, Fp.nan n p ∈ xs ∧ p.testBit (F.mBits - 1) = false) := by
  have loud : (∃ x ∈ xs, x.isSnan F = true) ↔ ∃ n p, Fp.nan n p ∈ xs ∧ p.testBit (F.mBits - 1) = false := by
    constructor
    · rintro ⟨x, mem, signalling⟩
      cases x with
      | nan n p => exact ⟨n, p, mem, by simpa [Fp.isSnan, bit_eq_testBit] using signalling⟩
      | _ => cases signalling
    · rintro ⟨n, p, mem, low⟩
      exact ⟨.nan n p, mem, by simpa [Fp.isSnan, bit_eq_testBit] using low⟩
  unfold snanFlag flagIf
  rw [← loud, ← List.any_eq_true]
  split
  · next yes => exact ⟨.inl rfl, fun _ => yes, fun _ => rfl⟩
  · next no => exact ⟨.inr rfl, fun h => absurd h (by decide), fun h => absurd h no⟩

theorem snanFlag_of_numbers {F : Fmt} {xs : List Fp} (numbers : ∀ v ∈ xs, v.isNan = false) : snanFlag F xs = 0#6 := by
  rcases (snanFlag_eq F xs).1 with h | h
  · obtain ⟨n, p, mem, -⟩ := (snanFlag_eq F xs).2.mp h
    exact absurd (numbers _ mem) (by simp [Fp.isNan])
  · exact h

theorem snanFlag_or_nv (F : Fmt) (xs : List Fp) : snanFlag F xs ||| flagNV = 16#6 := by
  rcases (snanFlag_eq F xs).1 with h | h <;> rw [h] <;> rfl

theorem propagate_eq {F : Fmt} (l : Bool) {xs before after : List Fp} {neg : Bool} {m : Nat} (shape : xs = before ++ .nan neg m :: after)
    (numbers : ∀ v ∈ before, v.isNan = false) (small : m < 2 ^ F.mBits) :
    propagate F l xs = if l then F.infCode + 2 ^ (F.mBits - 1)
      else (if neg then 2 ^ (F.eBits + F.mBits) else 0) + F.infCode + (m ||| 2 ^ (F.mBits - 1)) := by
  have first : xs.find? Fp.isNan = some (.nan neg m) := by
    rw [shape, List.find?_append, List.find?_eq_none.mpr fun v hv => by simp [numbers v hv]]
    rfl
  simp only [propagate, first, Fmt.quietNan_eq F neg small]
  rfl

/-- What an operation gives with a NaN operand, in every mode of it. -/
theorem specials_of {F : Fmt} {l : Bool} {xs : List Fp} {invalid : Prop} {infinite : Bool → Prop} {y : Nat × FlagSet}
    (small : ∀ n m, Fp.nan n m ∈ xs → m < 2 ^ F.mBits) (wrong : invalid → y = (F.genNan, flagNV))
    (nans : ¬ invalid → xs.any Fp.isNan = true → y = (propagate F l xs, snanFlag F xs))
    (infs : ¬ invalid → (∀ v ∈ xs, v.isNan = false) → ∀ s, infinite s → y = (F.inf s, 0#6)) : Specials F l xs invalid infinite y := by
  refine ⟨wrong, fun right before neg m after shape numbers => ?_, fun right numbers neg holds => ?_⟩
  · have mem : Fp.nan neg m ∈ xs := by rw [shape]; simp
    have some_ : xs.any Fp.isNan = true := List.any_eq_true.mpr ⟨_, mem, rfl⟩
    rw [nans right some_]
    exact ⟨propagate_eq l shape numbers (small neg m mem), snanFlag_eq F xs⟩
  · rw [infs right numbers neg holds, Fmt.inf, Fmt.signed_eq]

theorem numbers_of_not_any {xs : List Fp} (none_ : ¬ xs.any Fp.isNan = true) : ∀ v ∈ xs, v.isNan = false := by
  simpa using none_

theorem any_of_numbers {xs : List Fp} (numbers : ∀ v ∈ xs, v.isNan = false) : xs.any Fp.isNan = false := by
  simpa using numbers

/-- Two terms are infinities of opposite signs. -/
def Term.opposes (t u : Term) : Prop := ∃ s, t = .inf s ∧ u = .inf (!s)

/-- The cases of a sum of two terms: an invalid operation, a NaN, or the sum. -/
theorem sumResult_eq (F : Fmt) (l : Bool) (r : Rnd) (xs : List Fp) (wrong : Bool) (t u : Term) : ∃ opposite : Bool, (opposite = true ↔ t.opposes u) ∧
    sumResult F l r xs wrong t u =
      if (wrong || opposite) = true then (F.genNan, snanFlag F xs ||| flagNV)
      else if xs.any Fp.isNan = true then (propagate F l xs, snanFlag F xs)
      else match t, u with
        | .inf n, _ | _, .inf n => (F.inf n, snanFlag F xs)
        | .fin n x e, .fin m y f => roundFmt F r (sumTerms [(n, x, e), (m, y, f)] (zeroSign r n m))
        | _, _ => (F.genNan, snanFlag F xs) := by
  refine ⟨_, ?_, rfl⟩
  unfold Term.opposes
  cases t <;> cases u <;> simp [Term.infSign]
  next n m => cases n <;> cases m <;> decide

theorem specials_sumResult {F : Fmt} {l : Bool} {r : Rnd} {xs : List Fp} {wrong : Bool} {t u : Term} {invalid : Prop} {infinite : Bool → Prop}
    (small : ∀ n m, Fp.nan n m ∈ xs → m < 2 ^ F.mBits) (when_ : invalid ↔ wrong = true ∨ t.opposes u)
    (infs : ¬ invalid → (∀ v ∈ xs, v.isNan = false) → ∀ s, infinite s → t = .inf s ∨ u = .inf s) :
    Specials F l xs invalid infinite (sumResult F l r xs wrong t u) := by
  obtain ⟨opposite, opposes, value⟩ := sumResult_eq F l r xs wrong t u
  have decides : (wrong || opposite) = true ↔ invalid := by rw [Bool.or_eq_true, opposes, when_]
  refine specials_of small (fun bad => ?_) (fun good some_ => ?_) (fun good numbers s holds => ?_)
  · rw [value, if_pos (decides.mpr bad), snanFlag_or_nv]
    rfl
  · rw [value, if_neg (mt decides.mp good), if_pos some_]
  · have apart : ¬ t.opposes u := fun h => good (when_.mpr (.inr h))
    rw [value, if_neg (mt decides.mp good), any_of_numbers numbers, if_neg Bool.false_ne_true, snanFlag_of_numbers numbers]
    rcases infs good numbers s holds with rfl | rfl
    · rfl
    · cases t with
      | nan => rfl
      | fin => rfl
      | inf n =>
        by_cases same : n = s
        · rw [same]
        · exact absurd ⟨n, rfl, by cases n <;> cases s <;> simp_all⟩ apart

theorem Fp.isZero_fin (n : Bool) (a : Nat) (e : Int) : (Fp.fin n a e).isZero = decide (a = 0) := by
  cases a <;> simp [Fp.isZero]

theorem Fp.term_inf (x : Fp) (s : Bool) : x.term = .inf s ↔ x = .inf s := by
  cases x <;> simp [Fp.term]

theorem Fp.term_neg_inf (x : Fp) (s : Bool) : (x.setNeg (!x.neg)).term = .inf s ↔ x = .inf (!s) := by
  cases x with
  | inf n => cases n <;> cases s <;> simp [Fp.setNeg, Fp.neg, Fp.term]
  | _ => simp [Fp.setNeg, Fp.term]

/-- A product is an infinity where neither factor is a NaN, one is infinite and the other is not zero. -/
theorem mulTerm_inf {x y : Fp} (valid : zeroTimesInf x y = false) (s : Bool) : mulTerm x y = .inf s ↔
    (x.isNan = false ∧ y.isNan = false) ∧ (x.isInf = true ∨ y.isInf = true) ∧ s = (x.neg != y.neg) := by
  cases x with
  | nan => simp [mulTerm, Fp.isNan]
  | inf n =>
    cases y with
    | nan => simp [mulTerm, Fp.isNan]
    | inf m => simp [mulTerm, Fp.isNan, Fp.isInf, Fp.neg, eq_comm]
    | fin m b f =>
      have some_ : b ≠ 0 := by simpa [zeroTimesInf, Fp.isZero_fin, Fp.isInf] using valid
      simp [mulTerm, Fp.isNan, Fp.isInf, Fp.neg, some_, eq_comm]
  | fin n a e =>
    cases y with
    | nan => simp [mulTerm, Fp.isNan]
    | inf m =>
      have some_ : a ≠ 0 := by simpa [zeroTimesInf, Fp.isZero_fin, Fp.isInf] using valid
      simp [mulTerm, Fp.isNan, Fp.isInf, Fp.neg, some_, eq_comm]
    | fin m b f => simp [mulTerm, Fp.isInf]

theorem zeroTimesInf_iff (x y : Fp) :
    zeroTimesInf x y = true ↔ (x.isZero = true ∧ y.isInf = true) ∨ (x.isInf = true ∧ y.isZero = true) := by
  simp [zeroTimesInf]

section
variable {F : Fmt} {x y z : Fp} (small : ∀ n m, (Fp.nan n m = x ∨ Fp.nan n m = y ∨ Fp.nan n m = z) → m < 2 ^ F.mBits)
include small

theorem small_two : ∀ n m, Fp.nan n m ∈ [x, y] → m < 2 ^ F.mBits := fun n m mem => by
  simp only [List.mem_cons, List.not_mem_nil, or_false] at mem
  exact small n m (mem.imp_right .inl)

theorem specials_fpAdd (l : Bool) (r : Rnd) : Specials F l [x, y] (∃ s, x = .inf s ∧ y = .inf (!s)) (fun s => x = .inf s ∨ y = .inf s)
    (fpAdd F l r x y) := by
  refine specials_sumResult (small_two small) ?_ fun _ _ s => ?_
  · simp [Term.opposes, Fp.term_inf]
  · rw [Fp.term_inf, Fp.term_inf]
    exact id

theorem specials_fpSub (l : Bool) (r : Rnd) : Specials F l [x, y] (∃ s, x = .inf s ∧ y = .inf s) (fun s => x = .inf s ∨ y = .inf (!s))
    (fpSub F l r x y) := by
  refine specials_sumResult (small_two small) ?_ fun _ _ s => ?_
  · rw [Bool.false_eq_true, false_or]
    refine exists_congr fun s => ?_
    rw [Fp.term_inf, Fp.term_neg_inf, Bool.not_not]
  · rw [Fp.term_inf, Fp.term_neg_inf]
    exact id

theorem specials_fpMul (l : Bool) (r : Rnd) : Specials F l [x, y]
    ((x.isZero = true ∧ y.isInf = true) ∨ (x.isInf = true ∧ y.isZero = true)) (fun s => (x.isInf = true ∨ y.isInf = true) ∧ s = (x.neg != y.neg))
    (fpMul F l r x y) := by
  refine specials_of (small_two small) (fun bad => ?_) (fun good some_ => ?_) fun good numbers s holds => ?_
  · simp only [fpMul, (zeroTimesInf_iff x y).mpr bad, if_true, snanFlag_or_nv]
    rfl
  · have nan : (x.isNan || y.isNan) = true := by simpa using some_
    simp only [fpMul, mt (zeroTimesInf_iff x y).mp good, nan, if_true]
    simp
  · have numeric : (x.isNan || y.isNan) = false := by simp [numbers x, numbers y]
    have valid : zeroTimesInf x y = false := Bool.eq_false_iff.mpr (mt (zeroTimesInf_iff x y).mp good)
    have term := (mulTerm_inf valid s).mpr ⟨⟨numbers x (by simp), numbers y (by simp)⟩, holds⟩
    simp only [fpMul, valid, numeric, term, snanFlag_of_numbers numbers, Bool.false_eq_true, if_false]

theorem specials_fpFma (l : Bool) (r : Rnd) :
    let zeroInf := (x.isZero = true ∧ y.isInf = true) ∨ (x.isInf = true ∧ y.isZero = true)
    let times := fun (s : Bool) => (x.isInf = true ∨ y.isInf = true) ∧ s = (x.neg != y.neg)
    Specials F l [x, y, z] (zeroInf ∨ ∃ s, (x.isNan = false ∧ y.isNan = false) ∧ times s ∧ z = .inf (!s)) (fun s => times s ∨ z = .inf s)
      (fpFma F l r x y z) := by
  intro zeroInf times
  have all : ∀ n m, Fp.nan n m ∈ [x, y, z] → m < 2 ^ F.mBits := fun n m mem => by
    simp only [List.mem_cons, List.not_mem_nil, or_false] at mem
    exact small n m mem
  refine specials_sumResult all ?_ fun good numbers s holds => ?_
  · rw [zeroTimesInf_iff]
    by_cases zero : zeroInf
    · exact ⟨fun _ => .inl zero, fun _ => .inl zero⟩
    · have valid : zeroTimesInf x y = false := Bool.eq_false_iff.mpr (mt (zeroTimesInf_iff x y).mp zero)
      refine or_congr_right (exists_congr fun s => ?_)
      rw [mulTerm_inf valid, Fp.term_inf]
      exact and_assoc.symm
  · have valid : zeroTimesInf x y = false := Bool.eq_false_iff.mpr (mt (zeroTimesInf_iff x y).mp fun zero => good (.inl zero))
    rw [mulTerm_inf valid, Fp.term_inf]
    exact holds.imp_left fun product => ⟨⟨numbers x (by simp), numbers y (by simp)⟩, product⟩

end

/-- A NaN operand alone. -/
theorem specials_of_one {F : Fmt} {l : Bool} {x : Fp} {invalid : Prop} {infinite : Bool → Prop} {y : Nat × FlagSet}
    (small : ∀ n m, Fp.nan n m = x → m < 2 ^ F.mBits) (wrong : invalid → y = (F.genNan, flagNV))
    (nans : ∀ n m, x = .nan n m → y = (propagate F l [x], snanFlag F [x])) (infs : ¬ invalid → ∀ s, infinite s → y = (F.inf s, 0#6)) :
    Specials F l [x] invalid infinite y := by
  refine specials_of (fun n m mem => small n m (List.mem_singleton.mp mem)) wrong (fun _ some_ => ?_) fun good _ s => infs good s
  cases x with
  | nan n m => exact nans n m rfl
  | _ => cases some_

theorem specials_fpRound {F : Fmt} {x : Fp} (small : ∀ n m, Fp.nan n m = x → m < 2 ^ F.mBits) (l : Bool) (r : Rnd) (exact_ : Bool) :
    Specials F l [x] False (fun s => x = .inf s) (fpRound F l r exact_ x) :=
  specials_of_one small False.elim (fun _ _ h => by rw [h]; rfl) fun _ _ h => by rw [h]; rfl

theorem specials_fpScale {x : Fp} (small : ∀ n m, Fp.nan n m = x → m < 2 ^ Fmt.f32.mBits) (l : Bool) (r : Rnd) (k : Int) :
    Specials .f32 l [x] False (fun s => x = .inf s) (fpScale l r x k) :=
  specials_of_one small False.elim (fun _ _ h => by rw [h]; rfl) fun _ _ h => by rw [h]; rfl

section
variable {x : Fp} (small : ∀ n m, Fp.nan n m = x → m < 2 ^ Fmt.f32.mBits) (l : Bool) (r : Rnd) (raw : Nat)
include small

theorem specials_fnRcp : Specials .f32 l [x] False (fun _ => False) (fnRcp l r x) :=
  specials_of_one small False.elim (fun _ _ h => by rw [h]; rfl) fun _ _ h => h.elim

theorem specials_fnExp2 : Specials .f32 l [x] False (fun s => s = false ∧ x = .inf s) (fnExp2 l r x raw) :=
  specials_of_one small False.elim (fun _ _ h => by rw [h]; rfl) fun _ s h => by rw [h.2, h.1]; rfl

theorem specials_fnSinpi : Specials .f32 l [x] (x.isInf = true) (fun _ => False) (fnSinpi l r x raw) := by
  refine specials_of_one small (fun h => ?_) (fun _ _ h => by rw [h]; rfl) fun _ _ h => h.elim
  cases x with
  | inf n => rfl
  | _ => cases h

theorem specials_fnCospi : Specials .f32 l [x] (x.isInf = true) (fun _ => False) (fnCospi l r x raw) := by
  refine specials_of_one small (fun h => ?_) (fun _ _ h => by rw [h]; rfl) fun _ _ h => h.elim
  cases x with
  | inf n => rfl
  | _ => cases h

/-- A function that is invalid below zero. -/
theorem specials_of_negative {f : Fp → Nat × FlagSet} {infinite : Bool → Prop} (nans : ∀ n m, f (.nan n m) = nanResult l (.nan n m))
    (negInf : f (.inf true) = invalidResult) (negative : ∀ a e, a ≠ 0 → f (.fin true a e) = invalidResult)
    (infs : ∀ s, infinite s → f x = (Fmt.f32.inf s, 0#6)) :
    Specials .f32 l [x] (x.isNan = false ∧ x.neg = true ∧ x.isZero = false) infinite (f x) := by
  refine specials_of_one small (fun ⟨number, below, nonzero⟩ => ?_) (fun n m h => by rw [h, nans]; rfl) fun _ s h => infs s h
  cases x with
  | nan => cases number
  | inf n =>
    obtain rfl : n = true := below
    exact negInf
  | fin n a e =>
    obtain rfl : n = true := below
    exact negative a e (by simpa [Fp.isZero_fin] using nonzero)

theorem specials_fnSqrt : Specials .f32 l [x] (x.isNan = false ∧ x.neg = true ∧ x.isZero = false) (fun s => s = false ∧ x = .inf s) (fnSqrt l r x) :=
  specials_of_negative small l (f := fnSqrt l r) (fun _ _ => rfl) rfl (fun a e h => by simp [fnSqrt, h]) fun s h => by rw [h.2, h.1]; rfl

theorem specials_fnRsqrt : Specials .f32 l [x] (x.isNan = false ∧ x.neg = true ∧ x.isZero = false) (fun _ => False) (fnRsqrt l r x) :=
  specials_of_negative small l (f := fnRsqrt l r) (fun _ _ => rfl) rfl (fun a e h => by simp [fnRsqrt, h]) fun s h => h.elim

theorem specials_fnLog2 : Specials .f32 l [x] (x.isNan = false ∧ x.neg = true ∧ x.isZero = false) (fun s => s = false ∧ x = .inf s)
    (fnLog2 l r x raw) :=
  specials_of_negative small l (f := (fnLog2 l r · raw)) (fun _ _ => rfl) rfl (fun a e h => by simp [fnLog2, h]) fun s h => by rw [h.2, h.1]; rfl

end

end Sys2Proof.Machine
end

section
/-!
SUPPORT. Sums, products, scalings and dot products of numbers (R145, R151, R153).
-/
namespace Sys2Proof.Machine

theorem zeroSign_eq (r : Rnd) (n m : Bool) : zeroSign r n m = if n = m then n else r = .rm := by
  unfold zeroSign
  cases n <;> cases m <;> cases r <;> rfl

theorem fpAdd_sumsTo (F : Fmt) (l : Bool) (r : Rnd) (n m : Bool) (a b : Nat) (e f : Int) :
    SumsTo F r [(n, a, e), (m, b, f)] (if n = m then n else r = .rm) (fpAdd F l r (.fin n a e) (.fin m b f)) := by
  have value : fpAdd F l r (.fin n a e) (.fin m b f) = roundFmt F r (sumTerms [(n, a, e), (m, b, f)] (zeroSign r n m)) := rfl
  rw [value, zeroSign_eq]
  exact roundFmt_sumTerms F r _ _

theorem fpSub_sumsTo (F : Fmt) (l : Bool) (r : Rnd) (n m : Bool) (a b : Nat) (e f : Int) :
    SumsTo F r [(n, a, e), (!m, b, f)] (if n = !m then n else r = .rm) (fpSub F l r (.fin n a e) (.fin m b f)) :=
  fpAdd_sumsTo F l r n (!m) a b e f

theorem fpMul_fin (F : Fmt) (l : Bool) (r : Rnd) (n m : Bool) (a b : Nat) (e f : Int) :
    fpMul F l r (.fin n a e) (.fin m b f) = roundFmt F r (Ex.ofFin (n != m) (a * b) (e + f)) := by
  have valid : zeroTimesInf (.fin n a e) (.fin m b f) = false := by simp [zeroTimesInf, Fp.isInf]
  simp only [fpMul, valid, Fp.isNan, Bool.or_self, Bool.false_eq_true, if_false, mulTerm]

theorem fpMul_sumsTo (F : Fmt) (l : Bool) (r : Rnd) (n m : Bool) (a b : Nat) (e f : Int) :
    SumsTo F r [(n != m, a * b, e + f)] (n != m) (fpMul F l r (.fin n a e) (.fin m b f)) := by
  rw [fpMul_fin]
  exact roundFmt_sumsTo_one F r _ _ _

theorem fpFma_sumsTo (F : Fmt) (l : Bool) (r : Rnd) (n m k : Bool) (a b c : Nat) (e f g : Int) :
    SumsTo F r [(n != m, a * b, e + f), (k, c, g)] (if (n != m) = k then k else r = .rm) (fpFma F l r (.fin n a e) (.fin m b f) (.fin k c g)) := by
  have valid : zeroTimesInf (.fin n a e) (.fin m b f) = false := by simp [zeroTimesInf, Fp.isInf]
  have value : fpFma F l r (.fin n a e) (.fin m b f) (.fin k c g) =
      roundFmt F r (sumTerms [(n != m, a * b, e + f), (k, c, g)] (zeroSign r (n != m) k)) := by
    simp only [fpFma, valid]
    rfl
  have same : (if (n != m) = k then n != m else r = .rm : Bool) = if (n != m) = k then k else r = .rm := by
    split
    · next h => exact h
    · rfl
  rw [value, zeroSign_eq, same]
  exact roundFmt_sumTerms F r _ _

/-! Scaling (R151). -/

/-- A magnitude past the greatest code overflows, whatever it is. -/
theorem roundFmt_overflow (F : Fmt) (r : Rnd) {x : Ex} (nonzero : x.num ≠ 0) (high : F.bias + 2 ^ F.eBits ≤ x.log) :
    roundFmt F r x = F.result r x.neg (F.maxCode + 1) true := by
  have lead : F.lead x = x.log := Int.max_eq_left (by
    have := int_two_pow_pos F.eBits
    have : (0 : Int) ≤ F.bias := by cases F <;> decide
    omega)
  have most : F.maxCode < 2 ^ F.eBits * 2 ^ F.mBits := by rw [← Nat.pow_add]; exact F.maxCode_lt
  have field : 2 ^ F.eBits ≤ (F.lead x - (1 - F.bias)).toNat := by
    have cast := int_two_pow F.eBits
    have : (0 : Int) ≤ F.bias := by cases F <;> decide
    have : (1 : Int) ≤ F.bias := by cases F <;> decide
    omega
  have beyond : F.maxCode < (F.lead x - (1 - F.bias)).toNat * 2 ^ F.mBits + (roundMultiple x (F.lead x - F.mBits) r).1 := by
    have := Nat.mul_le_mul_right (2 ^ F.mBits) field
    omega
  rw [roundFmt_eq F r nonzero]
  simp only [Fmt.result, if_pos beyond, if_pos (Nat.lt_succ_self _)]

/-- A magnitude far below the least subnormal is rounded to zero or to the least. -/
theorem roundFmt_tiny (F : Fmt) (r : Rnd) {x : Ex} (nonzero : x.num ≠ 0) (low : x.log < -F.bias - F.mBits) :
    roundFmt F r x = F.result r x.neg (roundUp r x.neg 0 .below).toNat true := by
  have lead : F.lead x = 1 - F.bias := Int.max_eq_right (by omega)
  have place : F.lead x - F.mBits - x.exp > 0 := by
    have : (0 : Int) ≤ Nat.log2 x.num := Int.natCast_nonneg _
    unfold Ex.log at low
    omega
  have split_ : x.split (F.lead x - F.mBits) = (0, .below) := by
    obtain ⟨s, hs⟩ : ∃ s : Nat, F.lead x - F.mBits - x.exp = s + 1 := ⟨(F.lead x - F.mBits - x.exp - 1).toNat, by omega⟩
    have small : x.num < 2 ^ s := Nat.lt_of_lt_of_le Nat.lt_log2_self (Nat.pow_le_pow_right Nat.two_pos (by unfold Ex.log at low; omega))
    have toNat : ((s : Int) + 1).toNat = s + 1 := by omega
    have half : 2 ^ (s + 1) / 2 = 2 ^ s := by rw [Nat.pow_succ]; omega
    have inside : x.num < 2 ^ (s + 1) := by rw [Nat.pow_succ]; omega
    simp only [Ex.split, hs, toNat, half, Nat.div_eq_of_lt inside, Nat.mod_eq_of_lt inside, nonzero, false_and, if_false, small, if_true]
    rw [if_neg (by omega)]
  rw [roundFmt_eq F r nonzero, roundMultiple_eq, Ex.raise, split_, lead]
  simp only [Int.sub_self, Int.toNat_zero, Nat.zero_mul, Nat.zero_add]
  rfl

/-- The numbers that codes stand for are bounded. -/
theorem Fmt.decode_range {F : Fmt} {x : Nat} {n : Bool} {a : Nat} {e : Int} (code : F.decode x = .fin n a e) :
    a < 2 ^ (F.mBits + 1) ∧ 1 - F.bias - F.mBits ≤ e ∧ e < 2 ^ F.eBits - F.bias - F.mBits := by
  have mant := Nat.mod_lt x (Nat.two_pow_pos F.mBits)
  have expo := Nat.mod_lt (x / 2 ^ F.mBits) (Nat.two_pow_pos F.eBits)
  have cast := int_two_pow F.eBits
  unfold Fmt.decode at code
  dsimp only at code
  generalize x / 2 ^ F.mBits % 2 ^ F.eBits = c at *
  generalize x % 2 ^ F.mBits = m at *
  rw [Nat.pow_succ]
  have some_ : 1 < 2 ^ F.eBits := by cases F <;> decide
  split at code
  · split at code <;> cases code
  · split at code
    · cases code
    · split at code <;> cases code <;> omega

/-- The exponent of a scaling is clipped where every result is the same. -/
theorem fpScale_fin {x : Nat} {n : Bool} {a : Nat} {e : Int} (l : Bool) (k : Int) (r : Rnd) (code : Fmt.f32.decode x = .fin n a e)
    (nonzero : a ≠ 0) : fpScale l r (.fin n a e) k = roundFmt .f32 r (Ex.ofFin n a (e + k)) := by
  obtain ⟨short, low, high⟩ := Fmt.decode_range code
  simp only [Fmt.mBits, Fmt.bias, Fmt.eBits] at short low high
  have top : Nat.log2 a < 24 := (Nat.log2_lt nonzero).mpr short
  have bottom : (0 : Int) ≤ Nat.log2 a := Int.natCast_nonneg _
  simp only [fpScale, nonzero, if_false]
  split
  · rw [roundFmt_overflow .f32 r nonzero (x := Ex.ofFin n a (e + 2 ^ 10)), roundFmt_overflow .f32 r nonzero (x := Ex.ofFin n a (e + k))]
    · rfl
    all_goals simp only [Ex.log, Ex.ofFin, Fmt.bias, Fmt.eBits]; omega
  · split
    · rw [roundFmt_tiny .f32 r nonzero (x := Ex.ofFin n a (e - 2 ^ 10)), roundFmt_tiny .f32 r nonzero (x := Ex.ofFin n a (e + k))]
      · rfl
      all_goals simp only [Ex.log, Ex.ofFin, Fmt.bias, Fmt.mBits]; omega
    · rfl

theorem fpScale_roundsTo {x : Nat} {n : Bool} {a : Nat} {e : Int} (l : Bool) (k : Int) (r : Rnd) (code : Fmt.f32.decode x = .fin n a e)
    (nonzero : a ≠ 0) : RoundsTo .f32 r n (ratCmp a 1 (e + k - halfExp .f32)) (fpScale l r (.fin n a e) k) := by
  rw [fpScale_fin l k r code nonzero]
  exact roundFmt_ofFin .f32 r n (e + k) nonzero

/-! Dot products (R153). -/

/-- A number's sign, magnitude and exponent as a value. -/
def numberOf (t : Bool × Nat × Int) : Fp := .fin t.1 t.2.1 t.2.2

/-- The terms of a dot product of numbers. -/
def dotTerms (ps : List ((Bool × Nat × Int) × (Bool × Nat × Int))) (c : Bool × Nat × Int) : List (Bool × Nat × Int) :=
  (ps.map fun p => (p.1.1 != p.2.1, p.1.2.1 * p.2.2.1, p.1.2.2 + p.2.2.2)) ++ [c]

theorem fpDot_numbers (fa fb : Fmt) (l : Bool) (r : Rnd) (ps : List ((Bool × Nat × Int) × (Bool × Nat × Int))) (c : Bool × Nat × Int) :
    fpDot fa fb l r (ps.map fun p => numberOf p.1) (ps.map fun p => numberOf p.2) (numberOf c) =
      roundFmt .f32 r (sumTerms (dotTerms ps c) (((dotTerms ps c).all fun t => t.1 && t.2.1 == 0) || r == .rm)) := by
  have zipped : (ps.map fun p => numberOf p.1).zip (ps.map fun p => numberOf p.2) = ps.map fun p => (numberOf p.1, numberOf p.2) := by
    rw [List.zip_map']
  have prods : ((ps.map fun p => (numberOf p.1, numberOf p.2)).map fun p => mulTerm p.1 p.2) ++ [(numberOf c).term] =
      (dotTerms ps c).map fun t => Term.fin t.1 t.2.1 t.2.2 := by
    simp [dotTerms, numberOf, mulTerm, Fp.term, Function.comp_def]
  have signs : ((dotTerms ps c).map fun t => Term.fin t.1 t.2.1 t.2.2).filterMap Term.infSign = [] := by
    rw [List.filterMap_map]
    exact List.filterMap_eq_nil_iff.mpr fun _ _ => rfl
  have fins : ((dotTerms ps c).map fun t => Term.fin t.1 t.2.1 t.2.2).filterMap Term.finite = dotTerms ps c := by
    rw [List.filterMap_map]
    exact (List.filterMap_eq_map (f := id) ▸ List.map_id _ : (dotTerms ps c).filterMap (some ∘ id) = _)
  have valid : (ps.map fun p => (numberOf p.1, numberOf p.2)).any (fun p => zeroTimesInf p.1 p.2) = false := by
    simp [zeroTimesInf, numberOf, Fp.isInf]
  have numbers : ((ps.map fun p => numberOf p.1).map (fun x => (fa, x)) ++ (ps.map fun p => numberOf p.2).map (fun y => (fb, y)) ++
      [(Fmt.f32, numberOf c)]).find? (fun p => p.2.isNan) = none := by
    rw [List.find?_eq_none]
    simp only [List.mem_append, List.mem_map, List.mem_singleton]
    rintro _ ((⟨_, ⟨p, -, rfl⟩, rfl⟩ | ⟨_, ⟨p, -, rfl⟩, rfl⟩) | rfl) <;> simp [numberOf, Fp.isNan]
  simp only [fpDot, zipped, prods, signs, fins, valid, numbers, List.any_nil, Bool.and_self, Bool.or_self, Bool.false_eq_true, if_false]

end Sys2Proof.Machine
end

section
/-!
SUPPORT. NaNs and infinities of a dot product (R153).
-/
namespace Sys2Proof.Machine

/-- The operands of a dot product with their formats, in the order in which NaNs are looked for. -/
def dotScan (fa fb : Fmt) (xs ys : List Fp) (z : Fp) : List (Fmt × Fp) := xs.map (fa, ·) ++ ys.map (fb, ·) ++ [(.f32, z)]

/-- The signs of the infinite terms of a dot product. -/
def dotSigns (xs ys : List Fp) (z : Fp) : List Bool := (((xs.zip ys).map fun p => mulTerm p.1 p.2) ++ [z.term]).filterMap Term.infSign

/-- A dot product is invalid. -/
def dotBad (xs ys : List Fp) (z : Fp) : Bool :=
  (xs.zip ys).any (fun p => zeroTimesInf p.1 p.2) || ((dotSigns xs ys z).any id && (dotSigns xs ys z).any (!·))

theorem fpDot_bad {xs ys : List Fp} {z : Fp} (fa fb : Fmt) (l : Bool) (r : Rnd) (bad : dotBad xs ys z = true) : fpDot fa fb l r xs ys z =
    (Fmt.f32.genNan, flagIf ((dotScan fa fb xs ys z).any fun p => p.2.isSnan p.1) flagNV ||| flagNV) :=
  if_pos bad

theorem fpDot_nan {xs ys : List Fp} {z : Fp} {fa fb F : Fmt} {n : Bool} {m : Nat} (l : Bool) (r : Rnd) (good : dotBad xs ys z = false)
    (found : (dotScan fa fb xs ys z).find? (fun p => p.2.isNan) = some (F, .nan n m)) : fpDot fa fb l r xs ys z =
    (if l then Fmt.f32.genNan else nanInto .f32 F n m, flagIf ((dotScan fa fb xs ys z).any fun p => p.2.isSnan p.1) flagNV) := by
  refine (if_neg (Bool.eq_false_iff.mp good)).trans ?_
  unfold dotScan at found
  rw [found]
  rfl

theorem fpDot_inf {xs ys : List Fp} {z : Fp} {fa fb : Fmt} {s : Bool} {ss : List Bool} (l : Bool) (r : Rnd) (good : dotBad xs ys z = false)
    (numbers : (dotScan fa fb xs ys z).find? (fun p => p.2.isNan) = none) (first : dotSigns xs ys z = s :: ss) : fpDot fa fb l r xs ys z =
    (Fmt.f32.inf s, flagIf ((dotScan fa fb xs ys z).any fun p => p.2.isSnan p.1) flagNV) := by
  refine (if_neg (Bool.eq_false_iff.mp good)).trans ?_
  unfold dotScan at numbers
  unfold dotSigns at first
  rw [numbers, first]
  rfl

theorem Term.infSign_iff (t : Term) (s : Bool) : t.infSign = some s ↔ t = .inf s := by
  cases t <;> simp [Term.infSign]

/-- Where no product is zero times infinity, the signs are those of the infinite terms. -/
theorem mem_dotSigns {xs ys : List Fp} {z : Fp} (valid : (xs.zip ys).any (fun p => zeroTimesInf p.1 p.2) = false) (s : Bool) :
    s ∈ dotSigns xs ys z ↔ z = .inf s ∨ ∃ p ∈ xs.zip ys, (p.1.isNan = false ∧ p.2.isNan = false) ∧ (p.1.isInf = true ∨ p.2.isInf = true) ∧
      s = (p.1.neg != p.2.neg) := by
  have each : ∀ p ∈ xs.zip ys, zeroTimesInf p.1 p.2 = false := by simpa using valid
  simp only [dotSigns, List.mem_filterMap, List.mem_append, List.mem_map, List.mem_singleton, Term.infSign_iff]
  constructor
  · rintro ⟨t, ⟨p, mem, rfl⟩ | rfl, inf⟩
    · exact .inr ⟨p, mem, (mulTerm_inf (each p mem) s).mp inf⟩
    · exact .inl ((Fp.term_inf z s).mp inf)
  · rintro (inf | ⟨p, mem, holds⟩)
    · exact ⟨_, .inr rfl, (Fp.term_inf z s).mpr inf⟩
    · exact ⟨_, .inl ⟨p, mem, rfl⟩, (mulTerm_inf (each p mem) s).mpr holds⟩

/-- A quiet f32 NaN with the payload of a narrower one. -/
theorem nanInto_f32 {F : Fmt} (n : Bool) {m : Nat} (narrow : F.mBits ≤ 23) (small : m < 2 ^ F.mBits) :
    nanInto .f32 F n m = (if n then 0x80000000 else 0) + (0x7FC00000 ||| m * 2 ^ (23 - F.mBits)) := by
  have widened : m * 2 ^ 23 / 2 ^ F.mBits = m * 2 ^ (23 - F.mBits) := by
    rw [show 23 = 23 - F.mBits + F.mBits by omega, Nat.pow_add, ← Nat.mul_assoc, Nat.mul_div_cancel _ (Nat.two_pow_pos _),
      show 23 - F.mBits + F.mBits - F.mBits = 23 - F.mBits by omega]
  have fits : m * 2 ^ (23 - F.mBits) < 2 ^ 23 := by
    calc m * 2 ^ (23 - F.mBits) < 2 ^ F.mBits * 2 ^ (23 - F.mBits) := Nat.mul_lt_mul_of_pos_right small (Nat.two_pow_pos _)
      _ = 2 ^ 23 := by rw [← Nat.pow_add]; congr 1; omega
  have quiet : m * 2 ^ (23 - F.mBits) ||| 2 ^ 22 < 2 ^ 23 := Nat.or_lt_two_pow fits (by decide)
  have joined : 0x7FC00000 ||| m * 2 ^ (23 - F.mBits) = 0x7F800000 + (m * 2 ^ (23 - F.mBits) ||| 2 ^ 22) := by
    have disjoint := Nat.two_pow_add_eq_or_of_lt quiet 255
    rw [show (0x7F800000 : Nat) = 2 ^ 23 * 255 by rfl, disjoint, show (0x7FC00000 : Nat) = 2 ^ 23 * 255 ||| 2 ^ 22 by rfl, Nat.or_assoc,
      Nat.or_comm (2 ^ 22)]
  have value := Fmt.quietNan_eq .f32 n (m := m * 2 ^ 23 / 2 ^ F.mBits) (by rw [widened]; exact fits)
  rw [nanInto, show Fmt.f32.mBits = 23 from rfl, value, widened, joined, Nat.add_assoc]
  rfl

theorem genNan_f32 : Fmt.f32.genNan = 0x7FC00000 := by decide

theorem inf_f32 (s : Bool) : Fmt.f32.inf s = if s then 0xFF800000 else 0x7F800000 := by cases s <;> decide

theorem dot_specials {fa fb : Fmt} {xs ys : List Fp} {z : Fp} (l : Bool) (r : Rnd) (hfa : fa.mBits ≤ 23) (hfb : fb.mBits ≤ 23)
    (small : ∀ n m, (Fp.nan n m ∈ xs → m < 2 ^ fa.mBits) ∧ (Fp.nan n m ∈ ys → m < 2 ^ fb.mBits) ∧ (Fp.nan n m = z → m < 2 ^ 23)) :
    let y := fpDot fa fb l r xs ys z
    let scan := (xs.map fun x => (fa.mBits, x)) ++ (ys.map fun x => (fb.mBits, x)) ++ [(23, z)]
    let infs := fun (s : Bool) => z = .inf s ∨ ∃ p ∈ xs.zip ys, (p.1.isNan = false ∧ p.2.isNan = false) ∧
      (p.1.isInf = true ∨ p.2.isInf = true) ∧ s = (p.1.neg != p.2.neg)
    let invalid := (∃ p ∈ xs.zip ys, (p.1.isZero = true ∧ p.2.isInf = true) ∨ (p.1.isInf = true ∧ p.2.isZero = true)) ∨
      (infs true ∧ infs false)
    (invalid → y = (0x7FC00000, 16#6)) ∧
    (¬ invalid → ∀ before w neg m after, scan = before ++ (w, .nan neg m) :: after → (∀ v ∈ before, v.2.isNan = false) →
      y.1 = (if l then 0x7FC00000 else (if neg then 0x80000000 else 0) + (0x7FC00000 ||| m * 2 ^ (23 - w))) ∧
      (y.2 = 16#6 ∨ y.2 = 0#6) ∧ (y.2 = 16#6 ↔ ∃ v n p, (v, Fp.nan n p) ∈ scan ∧ p.testBit (v - 1) = false)) ∧
    (¬ invalid → (∀ v ∈ scan, v.2.isNan = false) → ∀ s, infs s → y = ((if s then 0xFF800000 else 0x7F800000), 0#6)) := by
  intro y scan infs invalid
  have scan_eq : scan = (dotScan fa fb xs ys z).map fun p => (p.1.mBits, p.2) := by
    simp only [scan, dotScan, List.map_append, List.map_map, List.map_singleton]
    rfl
  have payload : ∀ F n m, (F, Fp.nan n m) ∈ dotScan fa fb xs ys z → F.mBits ≤ 23 ∧ m < 2 ^ F.mBits := by
    intro F n m mem
    simp only [dotScan, List.mem_append, List.mem_map, List.mem_singleton, Prod.mk.injEq] at mem
    rcases mem with (⟨x, hx, rfl, rfl⟩ | ⟨x, hx, rfl, rfl⟩) | ⟨rfl, h⟩
    · exact ⟨hfa, (small n m).1 hx⟩
    · exact ⟨hfb, (small n m).2.1 hx⟩
    · exact ⟨Nat.le_refl _, (small n m).2.2 h⟩
  have loud : ((dotScan fa fb xs ys z).any fun p => p.2.isSnan p.1) = true ↔ ∃ v n p, (v, Fp.nan n p) ∈ scan ∧ p.testBit (v - 1) = false := by
    rw [scan_eq, List.any_eq_true]
    constructor
    · rintro ⟨⟨F, v⟩, mem, signalling⟩
      cases v with
      | nan n p => exact ⟨F.mBits, n, p, List.mem_map.mpr ⟨_, mem, rfl⟩, by simpa [Fp.isSnan, bit_eq_testBit] using signalling⟩
      | _ => cases signalling
    · rintro ⟨v, n, p, mem, low⟩
      obtain ⟨⟨F, x⟩, mem', shape⟩ := List.mem_map.mp mem
      cases shape
      exact ⟨(F, .nan n p), mem', by simpa [Fp.isSnan, bit_eq_testBit] using low⟩
  have zero_iff : (xs.zip ys).any (fun p => zeroTimesInf p.1 p.2) = true ↔
      ∃ p ∈ xs.zip ys, (p.1.isZero = true ∧ p.2.isInf = true) ∨ (p.1.isInf = true ∧ p.2.isZero = true) := by
    simp only [List.any_eq_true, zeroTimesInf_iff]
  have bad_iff : dotBad xs ys z = true ↔ invalid := by
    rw [dotBad, Bool.or_eq_true]
    by_cases zero : (xs.zip ys).any (fun p => zeroTimesInf p.1 p.2) = true
    · exact ⟨fun _ => .inl (zero_iff.mp zero), fun _ => .inl zero⟩
    · have signs := mem_dotSigns (z := z) (Bool.eq_false_iff.mpr zero)
      refine or_congr zero_iff ?_
      rw [Bool.and_eq_true, List.any_eq_true, List.any_eq_true]
      refine and_congr ⟨?_, fun h => ⟨true, (signs true).mpr h, rfl⟩⟩ ⟨?_, fun h => ⟨false, (signs false).mpr h, rfl⟩⟩
      · rintro ⟨s, mem, h⟩
        obtain rfl : s = true := h
        exact (signs true).mp mem
      · rintro ⟨s, mem, h⟩
        obtain rfl : s = false := by simpa using h
        exact (signs false).mp mem
  refine ⟨fun wrong => ?_, fun right before w neg m after shape numbers => ?_, fun right numbers s holds => ?_⟩
  · dsimp only [y]
    rw [fpDot_bad fa fb l r (bad_iff.mpr wrong), genNan_f32]
    cases (dotScan fa fb xs ys z).any fun p => p.2.isSnan p.1 <;> rfl
  · have good := Bool.eq_false_iff.mpr (mt bad_iff.mp right)
    have first : scan.find? (fun p => p.2.isNan) = some (w, .nan neg m) := by
      rw [shape, List.find?_append, List.find?_eq_none.mpr fun v hv => by simp [numbers v hv]]
      rfl
    rw [scan_eq, List.find?_map] at first
    obtain ⟨⟨F, v⟩, found, same⟩ := Option.map_eq_some_iff.mp first
    cases same
    obtain ⟨narrow, fits⟩ := payload F neg m (List.mem_of_find?_eq_some found)
    have value : y = _ := fpDot_nan l r good found
    rw [value]
    refine ⟨?_, ?_, ?_⟩
    · rw [nanInto_f32 neg narrow fits, genNan_f32]
    · change flagIf _ flagNV = 16#6 ∨ flagIf _ flagNV = 0#6
      cases (dotScan fa fb xs ys z).any fun p => p.2.isSnan p.1 <;> decide
    · rw [← loud]
      change flagIf _ flagNV = 16#6 ↔ _
      cases (dotScan fa fb xs ys z).any fun p => p.2.isSnan p.1 <;> decide
  · have good := Bool.eq_false_iff.mpr (mt bad_iff.mp right)
    have none_ : (dotScan fa fb xs ys z).find? (fun p => p.2.isNan) = none := by
      rw [List.find?_eq_none]
      intro p mem
      have number := numbers (p.1.mBits, p.2) (by rw [scan_eq]; exact List.mem_map.mpr ⟨p, mem, rfl⟩)
      simpa using number
    have quiet : ((dotScan fa fb xs ys z).any fun p => p.2.isSnan p.1) = false := by
      rw [Bool.eq_false_iff, ne_eq, loud]
      rintro ⟨v, n, p, mem, -⟩
      exact absurd (numbers _ mem) (by simp [Fp.isNan])
    have valid : (xs.zip ys).any (fun p => zeroTimesInf p.1 p.2) = false := Bool.eq_false_iff.mpr fun h => right (.inl (zero_iff.mp h))
    have signs := mem_dotSigns (z := z) valid
    obtain ⟨n, ns, shape⟩ : ∃ n ns, dotSigns xs ys z = n :: ns := List.exists_cons_of_ne_nil (List.ne_nil_of_mem ((signs s).mpr holds))
    have same : n = s := by
      have other := (signs n).mp (by rw [shape]; exact List.mem_cons_self ..)
      cases n <;> cases s
      · rfl
      · exact absurd (.inr ⟨holds, other⟩) right
      · exact absurd (.inr ⟨other, holds⟩) right
      · rfl
    have value : y = _ := fpDot_inf l r good none_ shape
    rw [value, quiet, same, inf_f32]
    rfl

end Sys2Proof.Machine
end

section
/-!
SUPPORT. The correctly rounded functions at the values that they take exactly (R42, R150), and rounding to an integer (R149, R152).
-/
namespace Sys2Proof.Machine

theorem log2_one : Nat.log2 1 = 0 := Nat.log2_two_pow (n := 0)

theorem roundFmt_one (r : Rnd) (neg : Bool) : roundFmt .f32 r (Ex.ofFin neg 1 0) = ((if neg then 0xBF800000 else 0x3F800000), 0#6) := by
  have log : (Ex.ofFin neg 1 0).log = 0 := by simp [Ex.log, Ex.ofFin, log2_one]
  have lead : Fmt.f32.lead (Ex.ofFin neg 1 0) = 0 := by rw [Fmt.lead, log]; rfl
  have place : (Ex.ofFin neg 1 0).split (-23) = (2 ^ 23, .exact) := by
    have coarse : (-23 : Int) - 0 ≤ 0 := by decide
    rw [Ex.split]
    exact (if_pos coarse).trans (congrArg (·, Half.exact) (Nat.one_mul _))
  have code : (126 * 2 ^ 23 + (2 ^ 23 + 0) : Nat) = 0x3F800000 := by decide
  have small : ¬ Fmt.f32.maxCode < 0x3F800000 := by decide
  rw [roundFmt_eq .f32 r (x := Ex.ofFin neg 1 0) Nat.one_ne_zero, roundMultiple_eq, lead]
  change Fmt.f32.result r neg (126 * 2 ^ 23 + (((Ex.ofFin neg 1 0).split (-23)).1 + (Ex.ofFin neg 1 0).raise (-23) r)) _ = _
  have flat : (Ex.ofFin neg 1 0).raise (-23) r = 0 := by rw [Ex.raise, place]; cases r <;> rfl
  rw [flat, place, code]
  simp only [Fmt.result, small, if_false]
  cases neg <;> rfl

/-! exp2 and log2. -/

/-- The integer that a number is, where it is one. -/
def wholeValue (n : Bool) (a : Nat) (e : Int) : Int := (if n then -1 else 1) * (a * 2 ^ e.toNat / 2 ^ (-e).toNat : Nat)

theorem wholeValue_of_nonneg (n : Bool) (a : Nat) {e : Int} (nonneg : 0 ≤ e) : wholeValue n a e = scaled n a e 0 := by
  have none_ : (-e).toNat = 0 := by omega
  rw [wholeValue, none_, Nat.pow_zero, Nat.div_one, scaled, Int.sub_zero]
  cases n <;> simp

theorem wholeValue_of_neg (n : Bool) (a : Nat) {e : Int} (neg : e < 0) (whole : 2 ^ (-e).toNat ∣ a) :
    let v : Int := if n then -(a : Int) else a
    wholeValue n a e = v / (2 ^ (-e).toNat : Nat) ∧ v % (2 ^ (-e).toNat : Nat) = 0 := by
  have none_ : e.toNat = 0 := by omega
  have divides : ((2 ^ (-e).toNat : Nat) : Int) ∣ (a : Int) := Int.natCast_dvd_natCast.mpr whole
  rw [wholeValue, none_, Nat.pow_zero, Nat.mul_one]
  cases n
  · exact ⟨by simp, Int.emod_eq_zero_of_dvd divides⟩
  · refine ⟨?_, Int.emod_eq_zero_of_dvd ((Int.dvd_neg).mpr divides)⟩
    simp only [if_true]
    rw [Int.neg_ediv_of_dvd divides, Int.natCast_ediv]
    omega

/-- A number of 2^9 or more is large as an integer too. -/
theorem wholeValue_large {a : Nat} {e : Int} (nonzero : a ≠ 0) (large : 9 ≤ (Ex.ofFin false a e).log) :
    512 ≤ a * 2 ^ e.toNat / 2 ^ (-e).toNat := by
  have bottom : 2 ^ Nat.log2 a ≤ a := Nat.log2_self_le nonzero
  have exps : 9 + (-e).toNat ≤ Nat.log2 a + e.toNat := by
    simp only [Ex.log, Ex.ofFin] at large
    omega
  rw [Nat.le_div_iff_mul_le (Nat.two_pow_pos _)]
  calc 512 * 2 ^ (-e).toNat = 2 ^ (9 + (-e).toNat) := by rw [Nat.pow_add]
    _ ≤ 2 ^ (Nat.log2 a + e.toNat) := Nat.pow_le_pow_right Nat.two_pos exps
    _ = 2 ^ Nat.log2 a * 2 ^ e.toNat := Nat.pow_add ..
    _ ≤ a * 2 ^ e.toNat := Nat.mul_le_mul_right _ bottom

/-- A power of two whose exponent is an integer is rounded as such; far out every result is the same. -/
theorem fnExp2_whole {a : Nat} {e : Int} (l : Bool) (r : Rnd) (n : Bool) (raw : Nat) (nonzero : a ≠ 0) (whole : 2 ^ (-e).toNat ∣ a) :
    fnExp2 l r (.fin n a e) raw = roundFmt .f32 r (Ex.ofFin false 1 (wholeValue n a e)) := by
  have log_one : ∀ v : Int, (Ex.ofFin false 1 v).log = v := fun v => by simp [Ex.log, Ex.ofFin, log2_one]
  simp only [fnExp2, nonzero, if_false]
  split
  · next large =>
    have big := wholeValue_large nonzero (e := e) large
    cases n
    · have value : 512 ≤ wholeValue false a e := by simp only [wholeValue, Bool.false_eq_true, if_false, Int.one_mul]; omega
      rw [roundFmt_overflow .f32 r (x := Ex.ofFin false 1 (wholeValue false a e)) Nat.one_ne_zero (by rw [log_one]; simp only [Fmt.bias, Fmt.eBits]; omega)]
      exact roundFmt_overflow .f32 r (x := ⟨false, 1, 512, true⟩) (by decide) (by decide)
    · have value : wholeValue true a e ≤ -512 := by simp only [wholeValue, if_true]; omega
      rw [roundFmt_tiny .f32 r (x := Ex.ofFin false 1 (wholeValue true a e)) Nat.one_ne_zero (by rw [log_one]; simp only [Fmt.bias, Fmt.mBits]; omega)]
      exact roundFmt_tiny .f32 r (x := ⟨false, 1, -512, true⟩) (by decide) (by decide)
  · split
    · next nonneg => rw [wholeValue_of_nonneg n a nonneg]
    · next neg =>
      obtain ⟨value, rest⟩ := wholeValue_of_neg n a (e := e) (by omega) whole
      rw [if_pos (by rw [rest]; rfl), value]

theorem fnLog2_two_pow (l : Bool) (r : Rnd) (raw j : Nat) (e : Int) : fnLog2 l r (.fin false (2 ^ j) e) raw =
    if (j : Int) + e = 0 then (0, 0#6) else roundFmt .f32 r (Ex.ofInt (j + e)) := by
  have nonzero : 2 ^ j ≠ 0 := Nat.ne_of_gt (Nat.two_pow_pos j)
  simp only [fnLog2, nonzero, if_false, Bool.false_eq_true, Nat.log2_two_pow, if_true]
  rfl

theorem roundFmt_ofInt (F : Fmt) (r : Rnd) {v : Int} (nonzero : v ≠ 0) :
    RoundsTo F r (decide (v < 0)) (ratCmp v.natAbs 1 (-halfExp F)) (roundFmt F r (Ex.ofInt v)) := by
  have rounded := roundFmt_ofFin F r (decide (v < 0)) (a := v.natAbs) 0 (by omega)
  rw [Int.zero_sub] at rounded
  exact rounded

/-! sinpi and cospi. -/

/-- A number that is `h` halves, in units of 2^-k. -/
theorem halves_eq {a h : Nat} {e : Int} (halves : a * 2 ^ (e + 1).toNat = h * 2 ^ (-e - 1).toNat) :
    a * 2 ^ (e + ((-e).toNat + 1 : Nat)).toNat = h * 2 ^ (-e).toNat := by
  rcases Int.lt_or_le e 0 with neg | nonneg
  · obtain ⟨k, rfl⟩ : ∃ k : Nat, e = -(k + 1) := ⟨(-e - 1).toNat, by omega⟩
    rw [show (-(k + 1 : Int) + 1).toNat = 0 by omega, show (-(-(k + 1 : Int)) - 1).toNat = k by omega] at halves
    rw [show (-(k + 1 : Int) + ((-(-(k + 1 : Int))).toNat + 1 : Nat)).toNat = 1 by omega, show (-(-(k + 1 : Int))).toNat = k + 1 by omega,
      Nat.pow_succ 2 k, ← Nat.mul_assoc h, ← halves, Nat.pow_zero, Nat.mul_one, Nat.pow_one]
  · rw [show (-e - 1).toNat = 0 by omega] at halves
    rw [show (e + ((-e).toNat + 1 : Nat)).toNat = (e + 1).toNat by omega, show (-e).toNat = 0 by omega, halves]

theorem mod_four_mul (h k : Nat) : h * 2 ^ k % 2 ^ (k + 2) = h % 4 * 2 ^ k := by
  rw [Nat.pow_add, Nat.mul_comm (2 ^ k), Nat.mul_mod_mul_right]

theorem fnCospi_halves {a h : Nat} {e : Int} (l : Bool) (r : Rnd) (n : Bool) (raw : Nat)
    (halves : a * 2 ^ (e + 1).toNat = h * 2 ^ (-e - 1).toNat) :
    fnCospi l r (.fin n a e) raw = ((if h % 2 = 1 then 0 else if h % 4 = 2 then 0xBF800000 else 0x3F800000), 0#6) := by
  have units := halves_eq halves
  have reduced : a * 2 ^ (e + ((-e).toNat + 1 : Nat)).toNat % 2 ^ ((-e).toNat + 1 + 1) = h % 4 * 2 ^ (-e).toNat := by
    rw [units]
    exact mod_four_mul h _
  have pos := Nat.two_pow_pos (-e).toNat
  have two : 2 ^ ((-e).toNat + 1) = 2 * 2 ^ (-e).toNat := by rw [Nat.pow_succ, Nat.mul_comm]
  have four : 2 ^ ((-e).toNat + 1 + 1) = 4 * 2 ^ (-e).toNat := by rw [Nat.pow_succ, two]; omega
  have one := roundFmt_one r
  unfold fnCospi
  dsimp only
  rw [reduced]
  simp only [two, four, sinpiRounded, Nat.add_sub_cancel]
  generalize 2 ^ (-e).toNat = p at *
  have cases_ : h % 4 = 0 ∨ h % 4 = 1 ∨ h % 4 = 2 ∨ h % 4 = 3 := by omega
  rcases cases_ with q | q | q | q
  · have odd : h % 2 = 0 := by omega
    have a1 : ¬ 2 * p < 0 * p := by omega
    have a2 : ¬ 2 * p < 2 * (0 * p) := by omega
    have a3 : ¬ 2 * (0 * p) = 2 * p := by omega
    have a4 : 2 * (p - 0 * p) = 2 * p := by omega
    simp only [q, odd, a1, a2, a3, a4, if_false, if_true, decide_false, Bool.false_eq_true, one]
    rfl
  · have odd : h % 2 = 1 := by omega
    have a1 : ¬ 2 * p < 1 * p := by omega
    have a3 : 2 * (1 * p) = 2 * p := by omega
    simp only [q, odd, a1, a3, if_false, if_true, decide_false, Bool.false_eq_true, Nat.lt_irrefl]
    rfl
  · have odd : h % 2 = 0 := by omega
    have a1 : ¬ 2 * p < 2 * p := by omega
    have a2 : 2 * p < 2 * (2 * p) := by omega
    have a3 : ¬ 2 * (2 * p - 2 * p) = 2 * p := by omega
    have a4 : 2 * (p - (2 * p - 2 * p)) = 2 * p := by omega
    simp only [q, odd, a1, a2, a3, a4, if_false, if_true, decide_true, one]
    rfl
  · have odd : h % 2 = 1 := by omega
    have a1 : 2 * p < 3 * p := by omega
    have a3 : 2 * (4 * p - 3 * p) = 2 * p := by omega
    simp only [q, odd, a1, a3, if_false, if_true, decide_false, Bool.false_eq_true, Nat.lt_irrefl]
    rfl

theorem fnSinpi_halves {a h : Nat} {e : Int} (l : Bool) (r : Rnd) (n : Bool) (raw : Nat)
    (halves : a * 2 ^ (e + 1).toNat = h * 2 ^ (-e - 1).toNat) :
    fnSinpi l r (.fin n a e) raw = ((if h % 2 = 0 then (if n then 0x80000000 else 0)
      else if n = decide (h % 4 = 1) then 0xBF800000 else 0x3F800000), 0#6) := by
  have one := roundFmt_one r
  have zero_ : Fmt.f32.zero n = if n then 0x80000000 else 0 := by cases n <;> rfl
  rcases Int.lt_or_le e 0 with neg | nonneg
  · obtain ⟨k, rfl⟩ : ∃ k : Nat, e = -(k + 1) := ⟨(-e - 1).toNat, by omega⟩
    rw [show (-(k + 1 : Int) + 1).toNat = 0 by omega, show (-(-(k + 1 : Int)) - 1).toNat = k by omega, Nat.pow_zero, Nat.mul_one] at halves
    have reduced : a % 2 ^ (k + 1 + 1) = h % 4 * 2 ^ k := by rw [halves]; exact mod_four_mul h k
    have low : h % 4 * 2 ^ k % 2 ^ (k + 1) = h % 2 * 2 ^ k := by
      rw [Nat.pow_succ, Nat.mul_comm (2 ^ k), Nat.mul_mod_mul_right, Nat.mod_mod_of_dvd h (by decide : 2 ∣ 4)]
    have pos := Nat.two_pow_pos k
    have two : 2 ^ (k + 1) = 2 * 2 ^ k := by rw [Nat.pow_succ, Nat.mul_comm]
    have toNat : (-(-(k + 1 : Int))).toNat = k + 1 := by omega
    have below : ¬ (0 : Int) ≤ -(k + 1) := by omega
    unfold fnSinpi
    dsimp only
    rw [toNat, if_neg below, reduced, low, zero_]
    simp only [sinpiRounded, two]
    generalize 2 ^ k = p at *
    have cases_ : h % 4 = 0 ∨ h % 4 = 1 ∨ h % 4 = 2 ∨ h % 4 = 3 := by omega
    rcases cases_ with q | q | q | q
    · have even : h % 2 = 0 := by omega
      simp only [even, Nat.zero_mul, if_true]
    · have odd : h % 2 = 1 := by omega
      have a1 : ¬ 1 * p = 0 := by omega
      have a3 : 2 * (1 * p) = 2 * p := by omega
      have a4 : ¬ 2 * p < 1 * p := by omega
      simp only [q, odd, a1, a3, a4, if_false, if_true, decide_false, decide_true, one, Nat.one_ne_zero, Nat.lt_irrefl]
      cases n <;> rfl
    · have even : h % 2 = 0 := by omega
      simp only [even, Nat.zero_mul, if_true]
    · have odd : h % 2 = 1 := by omega
      have a1 : ¬ 1 * p = 0 := by omega
      have a3 : 2 * (1 * p) = 2 * p := by omega
      have a4 : 2 * p < 3 * p := by omega
      simp only [q, odd, a1, a3, a4, if_false, if_true, decide_true, one, Nat.one_ne_zero, Nat.lt_irrefl]
      cases n <;> rfl
  · have even : h % 2 = 0 := by
      rw [show (-e - 1).toNat = 0 by omega, Nat.pow_zero, Nat.mul_one, show (e + 1).toNat = e.toNat + 1 by omega, Nat.pow_succ, ← Nat.mul_assoc]
        at halves
      omega
    simp only [fnSinpi, nonneg, if_true, Nat.zero_mod, even, zero_]

end Sys2Proof.Machine
end

section
/-!
SUPPORT. The order of codes (R28, R146 to R148): a number's code and its value rise together, and a value that a code has is rounded to that code.
-/
namespace Sys2Proof.Machine

/-- Magnitudes that rise from each to the next. -/
def Rising (g : Nat → Nat) : Prop := ∀ c, g c < g (c + 1)

theorem Rising.lt {g : Nat → Nat} (rising : Rising g) (c n : Nat) : g c < g (c + n + 1) := by
  induction n with
  | zero => exact rising c
  | succ n ih => exact Nat.lt_trans ih (rising _)

theorem Rising.lt_iff {g : Nat → Nat} (rising : Rising g) (c d : Nat) : g c < g d ↔ c < d := by
  rcases Nat.lt_trichotomy c d with less | same | more
  · obtain ⟨n, rfl⟩ : ∃ n, d = c + n + 1 := ⟨d - c - 1, by omega⟩
    have := rising.lt c n
    omega
  · rw [same]
    omega
  · obtain ⟨n, rfl⟩ : ∃ n, c = d + n + 1 := ⟨c - d - 1, by omega⟩
    have := rising.lt d n
    omega

theorem Rising.le_iff {g : Nat → Nat} (rising : Rising g) (c d : Nat) : g c ≤ g d ↔ c ≤ d := by
  have := rising.lt_iff d c
  omega

theorem Rising.eq_iff {g : Nat → Nat} (rising : Rising g) (c d : Nat) : g c = g d ↔ c = d := by
  have := rising.le_iff c d
  have := rising.le_iff d c
  omega

theorem magUnits_rising (m : Nat) : Rising (magUnits m) := by
  intro c
  obtain ⟨K, N, rfl, short, normal⟩ : ∃ K N, c = K * 2 ^ m + N ∧ N < 2 ^ (m + 1) ∧ (K = 0 ∨ 2 ^ m ≤ N) := by
    have pos := Nat.two_pow_pos m
    have two : 2 ^ (m + 1) = 2 * 2 ^ m := by rw [Nat.pow_succ, Nat.mul_comm]
    have whole := Nat.div_add_mod' c (2 ^ m)
    have rest := Nat.mod_lt c pos
    cases q : c / 2 ^ m with
    | zero =>
      rw [q] at whole
      exact ⟨0, c, by omega, by omega, .inl rfl⟩
    | succ K =>
      rw [q, Nat.add_mul, Nat.one_mul] at whole
      exact ⟨K, 2 ^ m + c % 2 ^ m, by omega, by omega, .inr (by omega)⟩
  rw [Nat.add_assoc, magUnits_code (Nat.le_of_lt short) normal, magUnits_code (N := N + 1) (by omega) (by omega)]
  exact Nat.mul_lt_mul_of_pos_right (Nat.lt_succ_self N) (Nat.two_pow_pos K)

@[simp] theorem magUnits_zero (m : Nat) : magUnits m 0 = 0 := by simp [magUnits]

theorem magUnits_eq_zero {m c : Nat} : magUnits m c = 0 ↔ c = 0 := by
  have zero := (magUnits_rising m).eq_iff c 0
  rwa [magUnits_zero] at zero

/-- Where an exact magnitude is one of those it is rounded among, it is that one. -/
theorem rounded_exact {r : Rnd} {neg inexact : Bool} {g : Nat → Nat} {cmp : Nat → Ordering} {c d : Nat} (mono : Rising g)
    (here : ∀ h, cmp h = compare (2 * g d) h) (rounded : Rounded r neg g cmp c inexact) : c = d ∧ inexact = false := by
  obtain ⟨n, low, high, flag, result⟩ := rounded
  rw [here, ne_eq, Nat.compare_eq_lt, Nat.not_lt] at low
  rw [here, Nat.compare_eq_lt] at high
  have le : n ≤ d := (mono.le_iff n d).mp (by omega)
  have lt : d < n + 1 := (mono.lt_iff d (n + 1)).mp (by omega)
  obtain rfl : n = d := by omega
  have exact_ : inexact = false := by
    cases inexact
    · rfl
    · have more := flag.mp rfl
      rw [here, Nat.compare_eq_gt] at more
      omega
  rw [exact_, if_pos rfl] at result
  exact ⟨result, exact_⟩

/-- The comparison of a value that is a code's. -/
theorem ratCmp_of_units {F : Fmt} {a d : Nat} {e : Int} (above : 1 - F.bias - F.mBits ≤ e)
    (units : a * 2 ^ (e - (1 - F.bias - F.mBits)).toNat = magUnits F.mBits d) (h : Nat) :
    ratCmp a 1 (e - halfExp F) h = compare (2 * magUnits F.mBits d) h := by
  have up : (e - halfExp F).toNat = (e - (1 - F.bias - F.mBits)).toNat + 1 := by unfold halfExp; omega
  have down : (-(e - halfExp F)).toNat = 0 := by unfold halfExp; omega
  rw [ratCmp, up, down, Nat.pow_succ, ← Nat.mul_assoc, units, Nat.mul_comm _ 2]
  simp only [Nat.pow_zero, Nat.mul_one]

/-- A value that a code has is rounded to that code, exactly. -/
theorem roundFmt_units {F : Fmt} (r : Rnd) (n : Bool) {a d : Nat} {e : Int} (finite : d ≤ F.maxCode) (above : 1 - F.bias - F.mBits ≤ e)
    (units : a * 2 ^ (e - (1 - F.bias - F.mBits)).toNat = magUnits F.mBits d) : roundFmt F r (Ex.ofFin n a e) = (F.signed n d, 0#6) := by
  rw [Fmt.signed_eq]
  by_cases zero : a = 0
  · subst zero
    obtain rfl : d = 0 := magUnits_eq_zero.mp (by rw [← units, Nat.zero_mul])
    exact roundFmt_zero F r n e
  · obtain ⟨c, inexact, rounded, result⟩ := roundFmt_ofFin F r n e zero
    obtain ⟨rfl, rfl⟩ := rounded_exact (magUnits_rising _) (ratCmp_of_units above units) rounded
    rw [result, if_neg (by omega)]
    rfl

/-! The formats of results: f32, f16 and bf16. -/

theorem Fmt.wide_cases {F : Fmt} (wide : F ∈ [Fmt.f32, .f16, .bf16]) : F = .f32 ∨ F = .f16 ∨ F = .bf16 := by
  simpa using wide

theorem Fmt.hasInf_of_wide {F : Fmt} (wide : F ∈ [Fmt.f32, .f16, .bf16]) : F.hasInf = true := by
  rcases Fmt.wide_cases wide with rfl | rfl | rfl <;> rfl

theorem Fmt.infCode_of_wide {F : Fmt} (wide : F ∈ [Fmt.f32, .f16, .bf16]) : F.infCode = F.maxCode + 1 := by
  rcases Fmt.wide_cases wide with rfl | rfl | rfl <;> rfl

/-- A code is a number's, an infinity's or a NaN's. -/
theorem Fmt.decodeAs_cases {F : Fmt} (wide : F ∈ [Fmt.f32, .f16, .bf16]) (n : Bool) {c : Nat} (small : c < 2 ^ (F.eBits + F.mBits)) :
    (c < F.infCode ∧ ∃ a e, F.decodeAs n c = .fin n a e ∧ 1 - F.bias - F.mBits ≤ e ∧
      a * 2 ^ (e - (1 - F.bias - F.mBits)).toNat = magUnits F.mBits c) ∨
    (c = F.infCode ∧ F.decodeAs n c = .inf n) ∨
    (F.infCode < c ∧ F.decodeAs n c = .nan n (c % 2 ^ F.mBits)) := by
  have top := Fmt.infCode_of_wide wide
  rcases Nat.lt_trichotomy c F.infCode with lt | rfl | gt
  · refine .inl ⟨lt, ?_⟩
    have rest : (c + if n then 2 ^ (F.eBits + F.mBits) else 0) % 2 ^ (F.eBits + F.mBits) = c := by
      cases n
      · exact Nat.mod_eq_of_lt small
      · rw [if_pos rfl, Nat.add_mod_right, Nat.mod_eq_of_lt small]
    obtain ⟨a, e, read, above, units⟩ := Fmt.decode_value (F := F) (x := c + if n then 2 ^ (F.eBits + F.mBits) else 0) (by omega)
    rw [rest] at units
    rw [Fmt.decode_signed F n small] at read
    have sign := congrArg Fp.neg read
    rw [Fmt.decodeAs_neg] at sign
    exact ⟨a, e, read.trans (congrArg (Fp.fin · a e) sign.symm), above, units⟩
  · exact .inr (.inl ⟨rfl, Fmt.decodeAs_inf n (Fmt.hasInf_of_wide wide)⟩)
  · exact .inr (.inr ⟨gt, Fmt.decodeAs_nan n small (by omega) (by omega)⟩)

theorem Fmt.mant_of_nan {F : Fmt} (wide : F ∈ [Fmt.f32, .f16, .bf16]) {c : Nat} (small : c < 2 ^ (F.eBits + F.mBits)) (gt : F.infCode < c) :
    c % 2 ^ F.mBits = c - F.infCode := by
  have size : 2 ^ (F.eBits + F.mBits) = F.infCode + 2 ^ F.mBits := by rcases Fmt.wide_cases wide with rfl | rfl | rfl <;> rfl
  conv => lhs; rw [show c = c - F.infCode + (2 ^ F.eBits - 1) * 2 ^ F.mBits from (Nat.sub_add_cancel (Nat.le_of_lt gt)).symm]
  rw [Nat.add_mul_mod_self_right]
  exact Nat.mod_eq_of_lt (by omega)

theorem Fmt.code_decodeAs {F : Fmt} (wide : F ∈ [Fmt.f32, .f16, .bf16]) (n : Bool) {c : Nat} (small : c < 2 ^ (F.eBits + F.mBits)) :
    F.code (F.decodeAs n c) = F.signed n c := by
  rcases Fmt.decodeAs_cases wide n small with ⟨lt, a, e, read, above, units⟩ | ⟨rfl, read⟩ | ⟨gt, read⟩
  · rw [read]
    exact congrArg Prod.fst (roundFmt_units .rz n (by have := Fmt.infCode_of_wide wide; omega) above units)
  · rw [read]
    rfl
  · rw [read, Fmt.mant_of_nan wide small gt]
    exact congrArg (F.signed n) (Nat.add_sub_cancel' (Nat.le_of_lt gt))

/-! The order of numbers. -/

/-- A sign and a magnitude as an integer. -/
def signedNat (n : Bool) (c : Nat) : Int := if n then -(c : Int) else c

theorem signedNat_lt {g : Nat → Nat} (mono : Rising g) (zero : g 0 = 0) (n m : Bool) (c d : Nat) :
    signedNat n (g c) < signedNat m (g d) ↔ signedNat n c < signedNat m d := by
  have less := mono.lt_iff c d
  have more := mono.lt_iff d c
  have c0 := mono.lt_iff 0 c
  have d0 := mono.lt_iff 0 d
  cases n <;> cases m <;> simp only [signedNat, if_true, Bool.false_eq_true, if_false] <;> omega

theorem signedNat_eq {g : Nat → Nat} (mono : Rising g) (zero : g 0 = 0) (n m : Bool) (c d : Nat) :
    signedNat n (g c) = signedNat m (g d) ↔ signedNat n c = signedNat m d := by
  have less := signedNat_lt mono zero n m c d
  have more := signedNat_lt mono zero m n d c
  omega

/-- A number in units of the least subnormal. -/
theorem scaled_units {F : Fmt} (n : Bool) {a c : Nat} {e g : Int} (above : 1 - F.bias - F.mBits ≤ g) (le : g ≤ e)
    (units : a * 2 ^ (e - (1 - F.bias - F.mBits)).toNat = magUnits F.mBits c) :
    scaled n a e g * (2 ^ (g - (1 - F.bias - F.mBits)).toNat : Nat) = signedNat n (magUnits F.mBits c) := by
  have exps : (e - (1 - F.bias - F.mBits)).toNat = (e - g).toNat + (g - (1 - F.bias - F.mBits)).toNat := by omega
  rw [← units, exps, Nat.pow_add, ← Nat.mul_assoc]
  cases n <;> simp [scaled, signedNat, Int.neg_mul]

/-- A code up to that of infinity is a number's. -/
theorem Fmt.decodeAs_number {F : Fmt} (wide : F ∈ [Fmt.f32, .f16, .bf16]) (n : Bool) {c : Nat} (number : c ≤ F.infCode) :
    (c < F.infCode ∧ ∃ a e, F.decodeAs n c = .fin n a e ∧ 1 - F.bias - F.mBits ≤ e ∧
      a * 2 ^ (e - (1 - F.bias - F.mBits)).toNat = magUnits F.mBits c) ∨ (c = F.infCode ∧ F.decodeAs n c = .inf n) := by
  have size : F.infCode < 2 ^ (F.eBits + F.mBits) := by rcases Fmt.wide_cases wide with rfl | rfl | rfl <;> decide
  rcases Fmt.decodeAs_cases wide n (Nat.lt_of_le_of_lt number size) with fin | inf | ⟨beyond, -⟩
  · exact .inl fin
  · exact .inr inf
  · omega

section
variable {F : Fmt} (wide : F ∈ [Fmt.f32, .f16, .bf16]) (n m : Bool) {c d : Nat} (hc : c ≤ F.infCode) (hd : d ≤ F.infCode)
include wide hc hd

/-- Two codes of numbers compare as their values do. -/
theorem fp_order : (fpLt (F.decodeAs n c) (F.decodeAs m d) = decide (signedNat n c < signedNat m d)) ∧
    (fpEq (F.decodeAs n c) (F.decodeAs m d) = decide (signedNat n c = signedNat m d)) := by
  have pos : 0 < F.infCode := by rcases Fmt.wide_cases wide with rfl | rfl | rfl <;> decide
  rcases Fmt.decodeAs_number wide n hc with ⟨ltc, a, e, readc, abovec, unitsc⟩ | ⟨eqc, readc⟩ <;>
    rcases Fmt.decodeAs_number wide m hd with ⟨ltd, b, f, readd, aboved, unitsd⟩ | ⟨eqd, readd⟩
  · have least : 1 - F.bias - F.mBits ≤ min e f := Int.le_min.mpr ⟨abovec, aboved⟩
    have pow : (0 : Int) < (2 ^ (min e f - (1 - F.bias - F.mBits)).toNat : Nat) := Int.natCast_pos.mpr (Nat.two_pow_pos _)
    have x := scaled_units n least (Int.min_le_left e f) unitsc
    have y := scaled_units m least (Int.min_le_right e f) unitsd
    have lt := signedNat_lt (magUnits_rising F.mBits) (magUnits_zero _) n m c d
    have eq := signedNat_eq (magUnits_rising F.mBits) (magUnits_zero _) n m c d
    rw [← x, ← y] at lt eq
    rw [Int.mul_lt_mul_right pow] at lt
    rw [Int.mul_eq_mul_right_iff (by omega)] at eq
    rw [readc, readd]
    exact ⟨decide_eq_decide.mpr lt, decide_eq_decide.mpr eq⟩
  all_goals
    rw [readc, readd]
    cases n <;> cases m <;> simp [fpLt, fpEq, signedNat] <;> omega
end

end Sys2Proof.Machine
end

section
/-!
SUPPORT. Minimum and maximum, comparison and class by the order of codes (R146 to R148), rounding to an integer and the exponent
(R149, R152).
-/
namespace Sys2Proof.Machine

/-! What a code stands for. -/

abbrev Fmt.codeNan (F : Fmt) (v : Nat) : Prop := v % 2 ^ (F.eBits + F.mBits) > F.infCode

abbrev Fmt.codeLoud (F : Fmt) (v : Nat) : Prop := v % 2 ^ (F.eBits + F.mBits) > F.infCode ∧ v.testBit (F.mBits - 1) = false

def Fmt.codeKey (F : Fmt) (v : Nat) : Int :=
  if 2 ^ (F.eBits + F.mBits) ≤ v then -(v % (2 ^ (F.eBits + F.mBits) : Nat) : Int) - 1 else (v : Int)

def Fmt.codeVal (F : Fmt) (v : Nat) : Int :=
  if 2 ^ (F.eBits + F.mBits) ≤ v then -(v % (2 ^ (F.eBits + F.mBits) : Nat) : Int) else (v : Int)

/-- A sign and a magnitude in the order of minima and maxima, where -0 lies below +0 (R146). -/
def signedKey (n : Bool) (c : Nat) : Int := if n then -(c : Int) - 1 else c

theorem Fmt.exists_signed (F : Fmt) {v : Nat} (small : v < 2 * 2 ^ (F.eBits + F.mBits)) :
    ∃ n c, c < 2 ^ (F.eBits + F.mBits) ∧ v = F.signed n c := by
  rcases Nat.lt_or_ge v (2 ^ (F.eBits + F.mBits)) with low | high
  · exact ⟨false, v, low, by rw [Fmt.signed_eq]; simp⟩
  · exact ⟨true, v - 2 ^ (F.eBits + F.mBits), by omega, by rw [Fmt.signed_eq, if_pos rfl]; omega⟩

section
variable {F : Fmt} (n m : Bool) {c d : Nat} (hc : c < 2 ^ (F.eBits + F.mBits)) (hd : d < 2 ^ (F.eBits + F.mBits))

section
include hc

theorem Fmt.signed_mod : F.signed n c % 2 ^ (F.eBits + F.mBits) = c := by
  rw [Fmt.signed_eq]
  cases n
  · rw [if_neg (by decide), Nat.zero_add, Nat.mod_eq_of_lt hc]
  · rw [if_pos rfl, Nat.add_mod_left, Nat.mod_eq_of_lt hc]

theorem Fmt.le_signed : 2 ^ (F.eBits + F.mBits) ≤ F.signed n c ↔ n = true := by
  rw [Fmt.signed_eq]
  cases n
  · simp [hc]
  · simp

theorem Fmt.decode_signedCode : F.decode (F.signed n c) = F.decodeAs n c := by
  rw [Fmt.signed_eq, Nat.add_comm, Fmt.decode_signed F n hc]

theorem Fmt.codeNan_signed : F.codeNan (F.signed n c) ↔ F.infCode < c := by rw [Fmt.codeNan, Fmt.signed_mod n hc, gt_iff_lt]

theorem Fmt.codeLoud_signed : F.codeLoud (F.signed n c) ↔ F.infCode < c ∧ c.testBit (F.mBits - 1) = false := by
  have top : F.mBits - 1 < F.eBits + F.mBits := by have := F.mBits_pos; omega
  have low : (F.signed n c % 2 ^ (F.eBits + F.mBits)).testBit (F.mBits - 1) = (F.signed n c).testBit (F.mBits - 1) := by
    rw [Nat.testBit_mod_two_pow, decide_eq_true top, Bool.true_and]
  rw [Fmt.codeLoud, Fmt.signed_mod n hc, gt_iff_lt, ← low, Fmt.signed_mod n hc]

theorem Fmt.codeVal_signed : F.codeVal (F.signed n c) = signedNat n c := by
  simp only [Fmt.codeVal, Fmt.le_signed n hc, ← Int.natCast_emod, Fmt.signed_mod n hc]
  cases n <;> simp [signedNat, Fmt.signed]

theorem Fmt.codeKey_signed : F.codeKey (F.signed n c) = signedKey n c := by
  simp only [Fmt.codeKey, Fmt.le_signed n hc, ← Int.natCast_emod, Fmt.signed_mod n hc]
  cases n <;> simp [signedKey, Fmt.signed]
end

section
variable (wide : F ∈ [Fmt.f32, .f16, .bf16])
include wide hc

theorem Fmt.isNan_decodeAs : (F.decodeAs n c).isNan = decide (F.infCode < c) := by
  rcases Fmt.decodeAs_cases wide n hc with ⟨lt, a, e, read, -, -⟩ | ⟨rfl, read⟩ | ⟨gt, read⟩ <;> rw [read]
  · exact (decide_eq_false (by omega)).symm
  · exact (decide_eq_false (by omega)).symm
  · exact (decide_eq_true gt).symm

theorem Fmt.isSnan_decodeAs : (F.decodeAs n c).isSnan F = decide (F.infCode < c ∧ c.testBit (F.mBits - 1) = false) := by
  rcases Fmt.decodeAs_cases wide n hc with ⟨lt, a, e, read, -, -⟩ | ⟨rfl, read⟩ | ⟨gt, read⟩ <;> rw [read]
  · exact (decide_eq_false (by omega)).symm
  · exact (decide_eq_false (by omega)).symm
  · have low : F.mBits - 1 < F.mBits := by have := F.mBits_pos; omega
    rw [Fp.isSnan, bit_eq_testBit, Nat.testBit_mod_two_pow, decide_eq_true low, Bool.true_and]
    simp [gt]

/-- A NaN's code made quiet (R38). -/
theorem Fmt.quietNan_code (gt : F.infCode < c) : F.quietNan n (c % 2 ^ F.mBits) = F.signed n c ||| 2 ^ (F.mBits - 1) := by
  have low : 2 ^ (F.mBits - 1) < 2 ^ F.mBits := Nat.pow_lt_pow_right (by decide) (by have := F.mBits_pos; omega)
  have small := Nat.mod_lt c (Nat.two_pow_pos F.mBits)
  have mant := Fmt.mant_of_nan wide hc gt
  have lead : 2 ^ F.mBits * ((if n then 2 ^ F.eBits else 0) + (2 ^ F.eBits - 1)) = (if n then 2 ^ (F.eBits + F.mBits) else 0) + F.infCode := by
    rw [Nat.mul_add, Fmt.infCode, Nat.mul_comm (2 ^ F.mBits) (2 ^ F.eBits - 1), Nat.pow_add]
    cases n <;> simp [Nat.mul_comm]
  have parts : F.signed n c = 2 ^ F.mBits * ((if n then 2 ^ F.eBits else 0) + (2 ^ F.eBits - 1)) + c % 2 ^ F.mBits := by
    rw [lead, Fmt.signed_eq]
    omega
  rw [Fmt.quietNan_eq F n small, ← lead, parts, Nat.two_pow_add_eq_or_of_lt small, Nat.or_assoc, Nat.two_pow_add_eq_or_of_lt]
  exact Nat.or_lt_two_pow small low
end

section
variable (wide : F ∈ [Fmt.f32, .f16, .bf16])
include wide hc hd

theorem snanFlag_codes : snanFlag F [F.decodeAs n c, F.decodeAs m d] =
    if (F.infCode < c ∧ c.testBit (F.mBits - 1) = false) ∨ (F.infCode < d ∧ d.testBit (F.mBits - 1) = false) then 16#6 else 0#6 := by
  simp only [snanFlag, flagIf, List.any_cons, List.any_nil, Bool.or_false, Fmt.isSnan_decodeAs n hc wide, Fmt.isSnan_decodeAs m hd wide,
    Bool.or_eq_true, decide_eq_true_eq]
  rfl

/-- Two codes compare as their values do, and not at all where one is a NaN. -/
theorem fpOrder_codes :
    fpLt (F.decodeAs n c) (F.decodeAs m d) = (!decide (F.infCode < c ∨ F.infCode < d) && decide (signedNat n c < signedNat m d)) ∧
    fpEq (F.decodeAs n c) (F.decodeAs m d) = (!decide (F.infCode < c ∨ F.infCode < d) && decide (signedNat n c = signedNat m d)) := by
  by_cases un : F.infCode < c ∨ F.infCode < d
  · rw [decide_eq_true un]
    rcases un with gt | gt
    · rcases Fmt.decodeAs_cases wide n hc with h | h | ⟨-, read⟩
      · omega
      · omega
      · rw [read]
        exact ⟨rfl, rfl⟩
    · rcases Fmt.decodeAs_cases wide m hd with h | h | ⟨-, read⟩
      · omega
      · omega
      · rw [read]
        cases F.decodeAs n c <;> exact ⟨rfl, rfl⟩
  · rw [decide_eq_false un]
    exact fp_order wide n m (by omega) (by omega)

/-- The NaN that an operation on two codes gives. -/
theorem propagate_codes (l : Bool) (un : F.infCode < c ∨ F.infCode < d) : propagate F l [F.decodeAs n c, F.decodeAs m d] =
    if l then F.infCode + 2 ^ (F.mBits - 1) else (if F.infCode < c then F.signed n c else F.signed m d) ||| 2 ^ (F.mBits - 1) := by
  cases l
  · by_cases first : F.infCode < c
    · rcases Fmt.decodeAs_cases wide n hc with h | h | ⟨-, read⟩
      · omega
      · omega
      · rw [if_pos first, ← Fmt.quietNan_code n hc wide first, read]
        rfl
    · have second : F.infCode < d := un.resolve_left first
      have number := Fmt.isNan_decodeAs n hc wide
      rw [decide_eq_false first] at number
      rcases Fmt.decodeAs_cases wide m hd with h | h | ⟨-, read⟩
      · omega
      · omega
      · rw [if_neg first, ← Fmt.quietNan_code m hd wide second, read]
        cases value : F.decodeAs n c with
        | nan => rw [value] at number; cases number
        | inf => rfl
        | fin => rfl
  · rfl
end
end

/-! Minimum, maximum and comparison. -/

theorem signedKey_lt (n m : Bool) (c d : Nat) :
    (decide (signedNat n c < signedNat m d) || (decide (signedNat n c = signedNat m d) && n && !m)) = decide (signedKey n c < signedKey m d) := by
  rw [Bool.eq_iff_iff]
  cases n <;> cases m <;> simp [signedNat, signedKey] <;> omega

theorem fpMinMax_codes {F : Fmt} (l isMax nanp : Bool) {p q : Nat} (wide : F ∈ [Fmt.f32, .f16, .bf16]) (hp : p < 2 * 2 ^ (F.eBits + F.mBits))
    (hq : q < 2 * 2 ^ (F.eBits + F.mBits)) :
    fpMinMax F l isMax nanp (F.decode p) (F.decode q) =
      ((if F.codeNan p ∧ F.codeNan q ∨ nanp = true ∧ (F.codeNan p ∨ F.codeNan q) then
          (if l then F.infCode + 2 ^ (F.mBits - 1) else (if F.codeNan p then p else q) ||| 2 ^ (F.mBits - 1))
        else if F.codeNan p then q else if F.codeNan q then p
        else if (if isMax then F.codeKey q ≤ F.codeKey p else F.codeKey p ≤ F.codeKey q) then p else q),
        if F.codeLoud p ∨ F.codeLoud q then 16#6 else 0#6) := by
  obtain ⟨n, c, hc, rfl⟩ := F.exists_signed hp
  obtain ⟨m, d, hd, rfl⟩ := F.exists_signed hq
  have order := fpOrder_codes n m hc hd wide
  have order' := fpOrder_codes m n hd hc wide
  simp only [Fmt.codeNan_signed _ hc, Fmt.codeNan_signed _ hd, Fmt.codeLoud_signed _ hc, Fmt.codeLoud_signed _ hd, Fmt.codeKey_signed _ hc,
    Fmt.codeKey_signed _ hd, Fmt.decode_signedCode _ hc, Fmt.decode_signedCode _ hd]
  rw [← snanFlag_codes n m hc hd wide]
  unfold fpMinMax
  rw [order.1, order.2, order'.1, Fmt.isNan_decodeAs n hc wide, Fmt.isNan_decodeAs m hd wide, Fmt.decodeAs_neg, Fmt.decodeAs_neg,
    Fmt.code_decodeAs wide n hc, Fmt.code_decodeAs wide m hd]
  by_cases nc : F.infCode < c <;> by_cases nd : F.infCode < d
  · simp [nc, nd, propagate_codes n m hc hd wide l (.inl nc)]
  · cases nanp <;> simp [nc, nd, propagate_codes n m hc hd wide l (.inl nc)]
  · cases nanp <;> simp [nc, nd, propagate_codes n m hc hd wide l (.inr nd)]
  · simp only [nc, nd, decide_false, Bool.or_self, Bool.and_false, Bool.and_self, Bool.not_false, Bool.true_and, Bool.false_eq_true, if_false, or_self,
      and_false, and_self]
    have same : decide (signedNat n c = signedNat m d) = decide (signedNat m d = signedNat n c) := decide_eq_decide.mpr eq_comm
    have more := signedKey_lt m n d c
    rw [← same] at more
    rw [signedKey_lt n m c d, more]
    cases isMax
    · simp only [Bool.false_eq_true, if_false, decide_eq_true_eq, ← Int.not_lt, ite_not]
    · simp only [if_true, decide_eq_true_eq, ← Int.not_lt, ite_not]

/-- The conditions that tell of unordered operands with NV (R147). -/
def Fmt.condFlags (F : Fmt) (cc : FcmpCC) (p q : Nat) : FlagSet :=
  if (F.codeNan p ∨ F.codeNan q) ∧ (cc = .lt ∨ cc = .le ∨ cc = .gt ∨ cc = .ge) then 16#6 else if F.codeLoud p ∨ F.codeLoud q then 16#6 else 0#6

/-- What a condition says of two values, `un` where one is no number (R147). -/
def fcmpHolds (cc : FcmpCC) (un eq lt gt : Bool) : Bool :=
  match cc with
  | .eq => !un && eq
  | .ne => !un && !eq
  | .lt => !un && lt
  | .le => !un && !gt
  | .gt => !un && gt
  | .ge => !un && !lt
  | .num => !un
  | .nan => un
  | .equ => un || eq
  | .neu => un || !eq
  | .ltu => un || lt
  | .leu => un || !gt
  | .gtu => un || gt
  | .geu => un || !lt

theorem fpCond_codes {F : Fmt} (cc : FcmpCC) {p q : Nat} (wide : F ∈ [Fmt.f32, .f16, .bf16]) (hp : p < 2 * 2 ^ (F.eBits + F.mBits))
    (hq : q < 2 * 2 ^ (F.eBits + F.mBits)) :
    fpCond F cc (F.decode p) (F.decode q) = (fcmpHolds cc (decide (F.codeNan p ∨ F.codeNan q)) (decide (F.codeVal p = F.codeVal q))
      (decide (F.codeVal p < F.codeVal q)) (decide (F.codeVal q < F.codeVal p)), F.condFlags cc p q) := by
  obtain ⟨n, c, hc, rfl⟩ := F.exists_signed hp
  obtain ⟨m, d, hd, rfl⟩ := F.exists_signed hq
  have order := fpOrder_codes n m hc hd wide
  have order' := fpOrder_codes m n hd hc wide
  have nv := snanFlag_or_nv F [F.decodeAs n c, F.decodeAs m d]
  simp only [Fmt.condFlags, Fmt.codeNan_signed _ hc, Fmt.codeNan_signed _ hd, Fmt.codeLoud_signed _ hc, Fmt.codeLoud_signed _ hd,
    Fmt.codeVal_signed _ hc, Fmt.codeVal_signed _ hd, Fmt.decode_signedCode _ hc, Fmt.decode_signedCode _ hd]
  rw [← snanFlag_codes n m hc hd wide]
  unfold fpCond
  rw [order.1, order.2, order'.1, Fmt.isNan_decodeAs n hc wide, Fmt.isNan_decodeAs m hd wide]
  generalize snanFlag F [F.decodeAs n c, F.decodeAs m d] = sn at nv ⊢
  generalize signedNat n c = v
  generalize signedNat m d = w
  by_cases un : F.infCode < c ∨ F.infCode < d
  · have un' : (decide (F.infCode < c) || decide (F.infCode < d)) = true := by simpa using un
    have un'' : F.infCode < d ∨ F.infCode < c := un.symm
    cases cc <;> simp [fcmpHolds, un, un', un'', flagIf, nv]
  · have un' : (decide (F.infCode < c) || decide (F.infCode < d)) = false := by simpa using un
    have un'' : ¬ (F.infCode < d ∨ F.infCode < c) := fun h => un h.symm
    have le : (decide (v < w) || decide (v = w)) = !decide (w < v) := by rw [Bool.eq_iff_iff]; simp; omega
    have ge : (decide (w < v) || decide (v = w)) = !decide (v < w) := by rw [Bool.eq_iff_iff]; simp; omega
    cases cc <;> simp [fcmpHolds, un, un', un'', flagIf, le, ge]

/-! Class. -/

theorem fpClass_decodeAs {F : Fmt} (n : Bool) {c : Nat} (wide : F ∈ [Fmt.f32, .f16, .bf16]) (hc : c < 2 ^ (F.eBits + F.mBits)) :
    fpClass F (F.decodeAs n c) = 2 ^ (if F.infCode < c then (if c.testBit (F.mBits - 1) = false then 0 else 1)
      else
        let small := if c = 0 then 6 else if c < 2 ^ F.mBits then 7 else if c < F.infCode then 8 else 9
        if n then 11 - small else small) := by
  have loud := Fmt.isSnan_decodeAs n hc wide
  have pos := Nat.two_pow_pos F.mBits
  have least : 2 ^ F.mBits < F.infCode := by rcases Fmt.wide_cases wide with rfl | rfl | rfl <;> decide
  rcases Nat.lt_trichotomy c F.infCode with lt | rfl | gt
  · rw [if_neg (by omega), Fmt.decodeAs_fin n (by have := Fmt.infCode_of_wide wide; omega)]
    rcases Nat.lt_or_ge c (2 ^ F.mBits) with sub | normal
    · rw [if_pos (Nat.div_eq_of_lt sub), Nat.mod_eq_of_lt sub]
      by_cases zero : c = 0
      · cases n <;> simp [fpClass, zero]
      · have log : (Ex.ofFin n c (1 - F.bias - F.mBits)).log < 1 - F.bias := by
          have := (Nat.log2_lt zero).mpr sub
          simp only [Ex.log, Ex.ofFin]
          omega
        cases n <;> simp [fpClass, zero, sub, log]
    · have field : 1 ≤ c / 2 ^ F.mBits := (Nat.le_div_iff_mul_le pos).mpr (by omega)
      have log : ¬ (Ex.ofFin n (2 ^ F.mBits + c % 2 ^ F.mBits) ((c / 2 ^ F.mBits : Nat) - F.bias - F.mBits)).log < 1 - F.bias := by
        have := (Nat.le_log2 (n := 2 ^ F.mBits + c % 2 ^ F.mBits) (k := F.mBits) (by omega)).mpr (Nat.le_add_right ..)
        simp only [Ex.log, Ex.ofFin]
        omega
      rw [if_neg (by omega)]
      have some_ : c ≠ 0 := by omega
      have num : 2 ^ F.mBits + c % 2 ^ F.mBits ≠ 0 := by omega
      have high : ¬ c < 2 ^ F.mBits := by omega
      simp only [fpClass, num, log, if_false, some_, high, lt, if_true]
      cases n <;> rfl
  · have some_ : F.infCode ≠ 0 := by omega
    have high : ¬ F.infCode < 2 ^ F.mBits := by omega
    rw [Fmt.decodeAs_inf n (Fmt.hasInf_of_wide wide)]
    simp only [fpClass, Nat.lt_irrefl, if_false, some_, high]
    cases n <;> rfl
  · rcases Fmt.decodeAs_cases wide n hc with h | h | ⟨-, read⟩
    · omega
    · omega
    · rw [read] at loud ⊢
      simp only [fpClass, loud, gt, true_and, if_true, decide_eq_true_eq]
      split <;> rfl

theorem fpClass_codes {F : Fmt} {p : Nat} (wide : F ∈ [Fmt.f32, .f16, .bf16]) (hp : p < 2 * 2 ^ (F.eBits + F.mBits)) :
    fpClass F (F.decode p) = 2 ^ (if F.codeLoud p then 0 else if F.codeNan p ∧ p.testBit (F.mBits - 1) = true then 1 else
      let mag := p % 2 ^ (F.eBits + F.mBits)
      let small := if mag = 0 then 6 else if mag < 2 ^ F.mBits then 7 else if mag < F.infCode then 8 else 9
      if p < 2 ^ (F.eBits + F.mBits) then small else 11 - small) := by
  obtain ⟨n, c, hc, rfl⟩ := F.exists_signed hp
  have low : F.signed n c < 2 ^ (F.eBits + F.mBits) ↔ ¬ n = true := by rw [← Nat.not_le, Fmt.le_signed n hc]
  have loud := Fmt.codeLoud_signed (F := F) n hc
  have nan := Fmt.codeNan_signed (F := F) n hc
  rw [Fmt.decode_signedCode n hc, fpClass_decodeAs n wide hc]
  congr 1
  by_cases gt : F.infCode < c
  · have place : F.codeLoud (F.signed n c) ↔ c.testBit (F.mBits - 1) = false := loud.trans (and_iff_right gt)
    have other : ¬ F.codeLoud (F.signed n c) → F.codeNan (F.signed n c) ∧ (F.signed n c).testBit (F.mBits - 1) = true := fun h =>
      ⟨nan.mpr gt, Classical.byContradiction fun clear => h ⟨nan.mpr gt, Bool.eq_false_iff.mpr clear⟩⟩
    rw [if_pos gt]
    by_cases quiet : F.codeLoud (F.signed n c)
    · rw [if_pos quiet, if_pos (place.mp quiet)]
    · rw [if_neg quiet, if_neg fun h => quiet (place.mpr h), if_pos (other quiet)]
  · have quiet : ¬ F.codeLoud (F.signed n c) := fun h => gt (loud.mp h).1
    have number : ¬ (F.codeNan (F.signed n c) ∧ (F.signed n c).testBit (F.mBits - 1) = true) := fun h => gt (nan.mp h.1)
    rw [if_neg gt, if_neg quiet, if_neg number, Fmt.signed_mod n hc]
    simp only [low, ite_not]

/-! Rounding to an integer, and the exponent. -/

/-- An integer of at most 2^mBits is a code's value. -/
theorem exists_code_of_int {F : Fmt} (wide : F ∈ [Fmt.f32, .f16, .bf16]) {c : Nat} (nonzero : c ≠ 0) (short : c ≤ 2 ^ F.mBits) :
    ∃ d, d ≤ F.maxCode ∧ c * 2 ^ (0 - (1 - F.bias - F.mBits)).toNat = magUnits F.mBits d := by
  have low := Nat.log2_self_le nonzero
  have high := Nat.lt_log2_self (n := c)
  obtain ⟨L, hL⟩ : ∃ L, Nat.log2 c = L := ⟨_, rfl⟩
  rw [hL] at low high
  have len : L ≤ F.mBits := by
    refine Classical.byContradiction fun more => ?_
    have := Nat.pow_lt_pow_right (a := 2) (by decide) (show F.mBits < L by omega)
    omega
  obtain ⟨K, hK⟩ : ∃ K : Nat, F.bias - 1 + L = K := ⟨(F.bias - 1 + L).toNat, by rcases Fmt.wide_cases wide with rfl | rfl | rfl <;> simp [Fmt.bias] <;> omega⟩
  have bottom : 2 ^ F.mBits ≤ c * 2 ^ (F.mBits - L) := by
    calc 2 ^ F.mBits = 2 ^ L * 2 ^ (F.mBits - L) := by rw [← Nat.pow_add]; congr 1; omega
      _ ≤ _ := Nat.mul_le_mul_right _ low
  have top : c * 2 ^ (F.mBits - L) < 2 ^ (F.mBits + 1) := by
    calc c * 2 ^ (F.mBits - L) < 2 ^ (L + 1) * 2 ^ (F.mBits - L) := Nat.mul_lt_mul_of_pos_right high (Nat.two_pow_pos _)
      _ = _ := by rw [← Nat.pow_add]; congr 1; omega
  refine ⟨K * 2 ^ F.mBits + c * 2 ^ (F.mBits - L), ?_, ?_⟩
  · have limit : (K + 2) * 2 ^ F.mBits ≤ F.maxCode + 1 := by
      rcases Fmt.wide_cases wide with rfl | rfl | rfl <;> simp [Fmt.bias, Fmt.mBits, Fmt.maxCode, Fmt.hasInf, Fmt.infCode, Fmt.eBits] at * <;> omega
    rw [Nat.pow_succ] at top
    rw [Nat.add_mul] at limit
    omega
  · rw [magUnits_code (Nat.le_of_lt top) (.inr bottom), Nat.mul_assoc, ← Nat.pow_add]
    congr 2
    omega

/-- Rounding a code's value to an integer gives another code's value (R149). -/
theorem roundMultiple_code {F : Fmt} (r : Rnd) (wide : F ∈ [Fmt.f32, .f16, .bf16]) {n : Bool} {x a : Nat} {e : Int} (read : F.decode x = .fin n a e)
    (nonzero : (roundMultiple (Ex.ofFin n a e) 0 r).1 ≠ 0) : ∃ d, d ≤ F.maxCode ∧
      (roundMultiple (Ex.ofFin n a e) 0 r).1 * 2 ^ (0 - (1 - F.bias - F.mBits)).toNat = magUnits F.mBits d := by
  rw [roundMultiple_eq] at nonzero ⊢
  obtain ⟨small, above, -⟩ := Fmt.decode_range read
  rcases Int.lt_or_le e 0 with neg | nonneg
  · refine exists_code_of_int wide nonzero ?_
    have finer : ¬ (0 : Int) - (Ex.ofFin n a e).exp ≤ 0 := by change ¬ (0 : Int) - e ≤ 0; omega
    obtain ⟨k, hk⟩ : ∃ k, ((0 : Int) - e).toNat = k + 1 := ⟨((0 : Int) - e).toNat - 1, by omega⟩
    have up := (Ex.ofFin n a e).raise_le 0 r
    have whole : a / 2 ^ (k + 1) < 2 ^ F.mBits := by
      rw [Nat.div_lt_iff_lt_mul (Nat.two_pow_pos _), Nat.pow_succ, Nat.mul_comm (2 ^ k), ← Nat.mul_assoc, ← Nat.pow_succ]
      exact Nat.lt_of_lt_of_le small (Nat.le_mul_of_pos_right _ (Nat.two_pow_pos k))
    rw [Ex.split_of_pos finer]
    change a / 2 ^ ((0 : Int) - e).toNat + _ ≤ _
    rw [hk]
    omega
  · have coarse : (0 : Int) - (Ex.ofFin n a e).exp ≤ 0 := by change (0 : Int) - e ≤ 0; omega
    have place : ((Ex.ofFin n a e).split 0).2 = .exact := by simp only [Ex.split, coarse, if_true]; rfl
    have flat : (Ex.ofFin n a e).raise 0 r = 0 := by rw [Ex.raise, place]; cases r <;> rfl
    rcases Fmt.decodeAs_cases wide (x.testBit (F.eBits + F.mBits)) (Nat.mod_lt x (Nat.two_pow_pos _)) with ⟨lt, b, f, value, -, units⟩ | h | h
    · rw [← Fmt.decode_eq, read, Fp.fin.injEq] at value
      obtain ⟨-, rfl, rfl⟩ := value
      refine ⟨x % 2 ^ (F.eBits + F.mBits), by have := Fmt.infCode_of_wide wide; omega, ?_⟩
      rw [← units, flat, Ex.split_of_le coarse]
      change (a * 2 ^ (-((0 : Int) - e)).toNat + 0) * _ = _
      rw [Nat.add_zero, Nat.mul_assoc, ← Nat.pow_add]
      congr 2
      have low : 1 - F.bias - F.mBits ≤ 0 := by rcases Fmt.wide_cases wide with rfl | rfl | rfl <;> decide
      omega
    · rw [← Fmt.decode_eq, read] at h
      cases h.2
    · rw [← Fmt.decode_eq, read] at h
      cases h.2

theorem fpRound_fin {F : Fmt} (l exact_ : Bool) (r : Rnd) (wide : F ∈ [Fmt.f32, .f16, .bf16]) {n : Bool} {x a : Nat} {e : Int}
    (read : F.decode x = .fin n a e) : ∃ c inexact, Rounded r n id (ratCmp a 1 (e + 1)) c inexact ∧
      (fpRound F l r exact_ (.fin n a e)).2 = (if exact_ = true ∧ inexact = true then 1#6 else 0#6) ∧
      (c = 0 → (fpRound F l r exact_ (.fin n a e)).1 = if n then 2 ^ (F.eBits + F.mBits) else 0) ∧
      (c ≠ 0 → RoundsTo F .rz n (ratCmp c 1 (-halfExp F)) ((fpRound F l r exact_ (.fin n a e)).1, 0#6)) := by
  have rounded := roundMultiple_ofFin r n a e
  refine ⟨_, _, rounded, ?_⟩
  by_cases zero : a = 0
  · subst zero
    obtain ⟨none_, exact_zero⟩ := rounded_exact (d := 0) (fun c => Nat.lt_succ_self c : Rising id) (fun h => by
      rw [ratCmp, Nat.zero_mul, Nat.mul_zero]
      rcases Nat.eq_zero_or_pos h with rfl | pos
      · rw [Nat.zero_mul]
      · have some_ : 0 < h * 1 * 2 ^ (-(e + 1)).toNat := Nat.mul_pos (by omega) (Nat.two_pow_pos _)
        rw [Nat.compare_eq_lt.mpr some_, Nat.compare_eq_lt.mpr pos]) rounded
    rw [none_, exact_zero]
    simp [fpRound, Fmt.zero, Fmt.signed_eq]
  · have shape : fpRound F l r exact_ (.fin n a e) = ((roundFmt F .rz (Ex.ofFin n (roundMultiple (Ex.ofFin n a e) 0 r).1 0)).1,
        flagIf (exact_ && (roundMultiple (Ex.ofFin n a e) 0 r).2) flagNX) := by simp only [fpRound, zero, if_false]
    rw [shape]
    refine ⟨?_, fun none_ => ?_, fun some_ => ?_⟩
    · simp only [flagIf, Bool.and_eq_true]
      rfl
    · rw [none_, roundFmt_zero]
    · obtain ⟨d, finite, units⟩ := roundMultiple_code r wide read some_
      have low : 1 - F.bias - F.mBits ≤ 0 := by rcases Fmt.wide_cases wide with rfl | rfl | rfl <;> decide
      have code := roundFmt_units .rz n finite low units
      have rounds := roundFmt_ofFin F .rz n 0 some_
      rw [Int.zero_sub, code] at rounds
      rw [code]
      exact rounds

theorem fpExp_fin (n : Bool) {a : Nat} (e : Int) (nonzero : a ≠ 0) : ∃ k : Int, ratCmp a 1 (e - k) 1 ≠ .lt ∧ ratCmp a 1 (e - k) 2 = .lt ∧
    fpExp (.fin n a e) = ((k % 2 ^ 32).toNat, 0#6) := by
  refine ⟨(Ex.ofFin n a e).log, ?_, ?_, ?_⟩
  · have low := Nat.log2_self_le nonzero
    rw [show e - (Ex.ofFin n a e).log = -(Nat.log2 a : Int) by simp only [Ex.log, Ex.ofFin]; omega, ratCmp, ne_eq, Nat.compare_eq_lt,
      show (-(Nat.log2 a : Int)).toNat = 0 by omega, show (-(-(Nat.log2 a : Int))).toNat = Nat.log2 a by omega]
    omega
  · have high := Nat.lt_log2_self (n := a)
    rw [Nat.pow_succ] at high
    rw [show e - (Ex.ofFin n a e).log = -(Nat.log2 a : Int) by simp only [Ex.log, Ex.ofFin]; omega, ratCmp, Nat.compare_eq_lt,
      show (-(Nat.log2 a : Int)).toNat = 0 by omega, show (-(-(Nat.log2 a : Int))).toNat = Nat.log2 a by omega]
    omega
  · simp only [fpExp, nonzero, if_false]
    rfl

end Sys2Proof.Machine
end

section
/-!
PROOFS. The values of the floating-point functions (R28 to R42, R142 to R153).
-/
namespace Sys2Proof.Machine

theorem formats_table (F : Fmt) : (F.eBits, F.mBits, F.bias, F.hasInf, F.saturating, F.infCode, F.maxCode) = match F with
    | .f32 => (8, 23, 127, true, false, 0x7F800000, 0x7F7FFFFF)
    | .f16 => (5, 10, 15, true, false, 0x7C00, 0x7BFF)
    | .bf16 => (8, 7, 127, true, false, 0x7F80, 0x7F7F)
    | .f8e5 => (5, 2, 15, true, true, 0x7C, 0x7B)
    | .f8e4 => (4, 3, 7, false, true, 0x78, 0x7E)
    | .f6e2 => (2, 3, 1, false, true, 0x18, 0x1F)
    | .f6e3 => (3, 2, 3, false, true, 0x1C, 0x1F)
    | .f4e2 => (2, 1, 1, false, true, 6, 7) := by
  cases F <;> rfl

/-- The values of codes, and Src (R28, R143). -/
theorem codes_and_src (F : Fmt) {x : Nat} (_small : x < 2 ^ (1 + F.eBits + F.mBits)) :
    let neg := x.testBit (F.eBits + F.mBits)
    let mag := x % 2 ^ (F.eBits + F.mBits)
    (mag ≤ F.maxCode → ∃ a e, F.decode x = .fin neg a e ∧ 1 - F.bias - F.mBits ≤ e ∧
      a * 2 ^ (e - (1 - F.bias - F.mBits)).toNat = magUnits F.mBits mag) ∧
    (F.hasInf = true → mag = F.infCode → F.decode x = .inf neg) ∧
    (F.maxCode < mag → mag ≠ F.infCode → F.decode x = .nan neg (mag % 2 ^ F.mBits)) ∧
    ∀ l absB negB, srcFp F l absB negB x = F.decode
      ((if F = .f16 ∧ l = true ∧ mag < 2 ^ F.mBits then 0 else mag) +
        if ((neg && !absB) ^^ negB) = true then 2 ^ (F.eBits + F.mBits) else 0) := by
  intro neg mag
  refine ⟨Fmt.decode_value, fun infinities top => ?_, fun beyond other => ?_, fun l absB negB => srcFp_eq F l absB negB x⟩
  · have shape : x % 2 ^ (F.eBits + F.mBits) = F.infCode := top
    rw [Fmt.decode_eq, shape, Fmt.decodeAs_inf _ infinities]
  · rw [Fmt.decode_eq, Fmt.decodeAs_nan _ (Nat.mod_lt _ (Nat.two_pow_pos _)) beyond other]

/-- A dot product of numbers (R153). -/
theorem fpDot_sumsTo (fa fb : Fmt) (l : Bool) (r : Rnd) (ps : List ((Bool × Nat × Int) × (Bool × Nat × Int))) (c : Bool × Nat × Int) :
    SumsTo .f32 r (dotTerms ps c) (((dotTerms ps c).all fun t => t.1 && t.2.1 == 0) || r == .rm)
      (fpDot fa fb l r (ps.map fun p => numberOf p.1) (ps.map fun p => numberOf p.2) (numberOf c)) := by
  rw [fpDot_numbers]
  exact roundFmt_sumTerms .f32 r _ _

/-! The correctly rounded functions. -/

theorem fnRcp_roundsTo (l : Bool) (r : Rnd) (n : Bool) {a : Nat} (e : Int) (nonzero : a ≠ 0) :
    RoundsTo .f32 r n (ratCmp 1 a (-e - halfExp .f32)) (fnRcp l r (.fin n a e)) := by
  simp only [fnRcp, nonzero, if_false]
  exact roundFmt_exQuot .f32 r n (Nat.pos_of_ne_zero nonzero) (-e) Nat.one_ne_zero

theorem fnSqrt_roundsTo (l : Bool) (r : Rnd) {a : Nat} (e : Int) (nonzero : a ≠ 0) :
    RoundsTo .f32 r false (rootCmp a 1 (e - 2 * halfExp .f32)) (fnSqrt l r (.fin false a e)) := by
  simp only [fnSqrt, nonzero, if_false, Bool.false_eq_true]
  exact roundFmt_exSqrtQuot .f32 r Nat.one_pos e nonzero

theorem fnRsqrt_roundsTo (l : Bool) (r : Rnd) {a : Nat} (e : Int) (nonzero : a ≠ 0) :
    RoundsTo .f32 r false (rootCmp 1 a (-e - 2 * halfExp .f32)) (fnRsqrt l r (.fin false a e)) := by
  simp only [fnRsqrt, nonzero, if_false, Bool.false_eq_true]
  exact roundFmt_exSqrtQuot .f32 r (Nat.pos_of_ne_zero nonzero) (-e) Nat.one_ne_zero

theorem fnExp2_roundsTo {a : Nat} {e : Int} (l : Bool) (r : Rnd) (n : Bool) (raw : Nat) (nonzero : a ≠ 0) (whole : 2 ^ (-e).toNat ∣ a) :
    RoundsTo .f32 r false (ratCmp 1 1 (wholeValue n a e - halfExp .f32)) (fnExp2 l r (.fin n a e) raw) := by
  rw [fnExp2_whole l r n raw nonzero whole]
  exact roundFmt_ofFin .f32 r false _ Nat.one_ne_zero

/-- The correctly rounded functions of zero (R42, R150). -/
theorem functions_zero (l : Bool) (r : Rnd) (n : Bool) (e : Int) (raw : Nat) :
    let pos := (if n then 0x80000000 else 0 : Nat)
    fnRcp l r (.fin n 0 e) = (pos + 0x7F800000, 8#6) ∧ fnRsqrt l r (.fin n 0 e) = (pos + 0x7F800000, 8#6) ∧
      fnSqrt l r (.fin n 0 e) = (pos, 0#6) ∧ fnExp2 l r (.fin n 0 e) raw = (0x3F800000, 0#6) ∧ fnLog2 l r (.fin n 0 e) raw = (0xFF800000, 8#6) := by
  have infs : Fmt.f32.inf n = (if n then 0x80000000 else 0) + 0x7F800000 := by cases n <;> decide
  have zeros : Fmt.f32.zero n = if n then 0x80000000 else 0 := by cases n <;> decide
  have one : Fmt.f32.signed false 0x3F800000 = 0x3F800000 := by decide
  simp only [fnRcp, fnRsqrt, fnSqrt, fnExp2, fnLog2, if_true, infs, zeros, one, inf_f32]
  exact ⟨rfl, rfl, trivial, trivial, rfl⟩

theorem fnLog2_roundsTo (l : Bool) (r : Rnd) (raw j : Nat) (e : Int) : let v := (j : Int) + e
    (v = 0 → fnLog2 l r (.fin false (2 ^ j) e) raw = (0, 0#6)) ∧
    (v ≠ 0 → RoundsTo .f32 r (decide (v < 0)) (ratCmp v.natAbs 1 (-halfExp .f32)) (fnLog2 l r (.fin false (2 ^ j) e) raw)) := by
  refine ⟨fun none_ => ?_, fun some_ => ?_⟩
  · rw [fnLog2_two_pow, if_pos none_]
  · rw [fnLog2_two_pow, if_neg some_]
    exact roundFmt_ofInt .f32 r some_

/-- Settles O17: each clause is a lemma about its functions. Exact values meet the rounding of R33 through `roundFmt_roundsTo`, and codes
are ordered as their values are. -/
theorem floatingPointValues : Obligations.FloatingPointValues := by
  unfold Obligations.FloatingPointValues
  refine ⟨formats_table, fun F x small => codes_and_src F small, ?_, ?_, ?_, ?_, ?_, ?_, ?_, ?_, ?_, ?_⟩
  · intro F r l n m k a b c e f g x y
    exact ⟨roundFmt_ofFin F r n e, fpAdd_sumsTo F l r n m a b e f, fpSub_sumsTo F l r n m a b e f, fpMul_sumsTo F l r n m a b e f,
      fpFma_sumsTo F l r n m k a b c e f g⟩
  · intro x n l a e k r code
    refine ⟨fpScale_roundsTo l k r code, ?_⟩
    rintro rfl
    simp only [fpScale, if_true]
    cases n <;> rfl
  · intro fa fb l r ps c
    exact fpDot_sumsTo fa fb l r ps c
  · intro F l r x y z _wide small zeroInf times
    have first : ∀ n m, Fp.nan n m = x → m < 2 ^ F.mBits := fun n m h => small n m (.inl h)
    exact ⟨specials_fpAdd small l r, specials_fpSub small l r, specials_fpMul small l r, specials_fpFma small l r,
      specials_fpRound first l r false, specials_fpRound first l r true⟩
  · intro l r x raw k small
    exact ⟨specials_fpScale small l r k, specials_fnRcp small l r, specials_fnSqrt small l r, specials_fnRsqrt small l r,
      specials_fnLog2 small l r raw, specials_fnExp2 small l r raw, specials_fnSinpi small l r raw, specials_fnCospi small l r raw⟩
  · intro fa fb l r xs ys z _ hfa hfb small
    exact dot_specials l r hfa hfb small
  · intro l r n a e raw pos
    refine ⟨fnRcp_roundsTo l r n e, ?_, ?_, ?_, ?_, fun nonzero => ⟨fnSqrt_roundsTo l r e nonzero, fnRsqrt_roundsTo l r e nonzero⟩,
      fun nonzero whole => fnExp2_roundsTo l r n raw nonzero whole, fun j => fnLog2_roundsTo l r raw j e,
      fun h halves => ⟨fnSinpi_halves l r n raw halves, fnCospi_halves l r n raw halves⟩⟩
    · rintro rfl
      exact functions_zero l r n e raw
    · cases n <;> rfl
    · rfl
    · rfl
  · intro F l exact_ n r x a e wide read
    exact ⟨fpRound_fin l exact_ r wide read, fun _ nonzero => fpExp_fin n e nonzero⟩
  · intro n m e
    refine ⟨rfl, rfl, ?_⟩
    simp only [fpExp, snanFlag, List.any_cons, List.any_nil, Bool.or_false, Fp.isSnan, bit_eq_testBit, flagIf, Fmt.mBits]
    cases m.testBit 22 <;> rfl
  · intro F l nanp p q wide top hp hq quiet loud nan key val x y nv first
    refine ⟨fun isMax => ?_, fun cc => ?_, ?_⟩
    · exact fpMinMax_codes l isMax nanp wide hp hq
    · refine (fpCond_codes cc wide hp hq).trans ?_
      cases cc <;> rfl
    · exact fpClass_codes wide hp

end Sys2Proof.Machine
end

section
/-!
SUPPORT. Conversions between formats and to integers (R39, R40, R129 to R131).
-/
namespace Sys2Proof.Machine

/-! Between formats. -/

theorem fpConvert_fin (dst src : Fmt) (l : Bool) (r : Rnd) (n : Bool) {a : Nat} (e : Int) (nonzero : a ≠ 0) :
    RoundsTo dst r n (ratCmp a 1 (e - halfExp dst)) (fpConvert dst src l r (.fin n a e)) := roundFmt_ofFin dst r n e nonzero

theorem fpConvert_zero (dst src : Fmt) (l : Bool) (r : Rnd) (n : Bool) (e : Int) :
    fpConvert dst src l r (.fin n 0 e) = ((if n then 2 ^ (dst.eBits + dst.mBits) else 0), 0#6) := roundFmt_zero dst r n e

theorem fpConvert_inf (dst src : Fmt) (l : Bool) (r : Rnd) (n : Bool) : fpConvert dst src l r (.inf n) =
    if dst.hasInf then ((if n then 2 ^ (dst.eBits + dst.mBits) else 0) + dst.infCode, 0#6)
    else ((if n then 2 ^ (dst.eBits + dst.mBits) else 0) + dst.maxCode, 5#6) := by
  simp only [fpConvert, Fmt.inf, Fmt.signed_eq]
  rfl

/-- A NaN of another format, made quiet (R39). -/
theorem nanInto_eq (dst src : Fmt) (n : Bool) {m : Nat} (small : m < 2 ^ src.mBits) : nanInto dst src n m =
    (if n then 2 ^ (dst.eBits + dst.mBits) else 0) + dst.infCode + (m * 2 ^ dst.mBits / 2 ^ src.mBits ||| 2 ^ (dst.mBits - 1)) := by
  refine Fmt.quietNan_eq dst n ?_
  rw [Nat.div_lt_iff_lt_mul (Nat.two_pow_pos _), Nat.mul_comm]
  exact Nat.mul_lt_mul_of_pos_left small (Nat.two_pow_pos _)

theorem fpConvert_nan (dst src : Fmt) (l : Bool) (r : Rnd) (n : Bool) {m : Nat} (small : m < 2 ^ src.mBits) :
    let sign := (if n then 2 ^ (dst.eBits + dst.mBits) else 0 : Nat)
    fpConvert dst src l r (.nan n m) =
      ((match dst with
        | .f32 | .f16 | .bf16 => if l then dst.infCode + 2 ^ (dst.mBits - 1)
          else sign + dst.infCode + (m * 2 ^ dst.mBits / 2 ^ src.mBits ||| 2 ^ (dst.mBits - 1))
        | .f8e5 => if n then 0xFE else 0x7E
        | .f8e4 => if n then 0xFF else 0x7F
        | .f6e2 | .f6e3 => if n then 0x3F else 0x1F
        | .f4e2 => if n then 0xF else 7),
       if m.testBit (src.mBits - 1) = false ∨ dst = .f6e2 ∨ dst = .f6e3 ∨ dst = .f4e2 then 16#6 else 0#6) := by
  intro sign
  have loud : flagIf ((Fp.nan n m).isSnan src) flagNV = if m.testBit (src.mBits - 1) = false then 16#6 else 0#6 := by
    rw [Fp.isSnan, bit_eq_testBit]
    cases m.testBit (src.mBits - 1) <;> rfl
  cases dst
  case f32 | f16 | bf16 =>
    simp only [fpConvert, loud, nanInto_eq _ src n small, reduceCtorEq, or_false]
    rfl
  case f8e5 | f8e4 =>
    simp only [fpConvert, loud, reduceCtorEq, or_false]
    cases n <;> rfl
  all_goals
    simp only [fpConvert, reduceCtorEq, false_or, or_true, true_or, if_true]
    cases n <;> rfl

/-! The size of results. -/

theorem Fmt.signed_lt {F : Fmt} (n : Bool) {c : Nat} (small : c < 2 ^ (F.eBits + F.mBits)) : F.signed n c < 2 ^ F.width := by
  have two : 2 ^ F.width = 2 * 2 ^ (F.eBits + F.mBits) := by rw [Fmt.width, Nat.add_assoc, Nat.pow_add, Nat.pow_one]
  rw [Fmt.signed_eq]
  split <;> omega

theorem RoundsTo.lt {F : Fmt} {r : Rnd} {n : Bool} {cmp : Nat → Ordering} {y : Nat × FlagSet} (rounds : RoundsTo F r n cmp y) : y.1 < 2 ^ F.width := by
  obtain ⟨c, inexact, -, rfl⟩ := rounds
  have finite := F.maxCode_lt
  have next : F.saturating = false → F.maxCode + 1 < 2 ^ (F.eBits + F.mBits) := by cases F <;> decide
  have signed : ∀ {c : Nat}, c < 2 ^ (F.eBits + F.mBits) → (if n then 2 ^ (F.eBits + F.mBits) else 0) + c < 2 ^ F.width := fun h => by
    rw [← Fmt.signed_eq]
    exact Fmt.signed_lt n h
  split
  · refine signed ?_
    split
    · exact finite
    · next kept => exact next (Bool.eq_false_iff.mpr fun h => kept (.inl h))
  · exact signed (by omega)

theorem fpConvert_lt (dst src : Fmt) (l : Bool) (r : Rnd) {x : Fp} (small : ∀ n m, x = .nan n m → m < 2 ^ src.mBits) :
    (fpConvert dst src l r x).1 < 2 ^ dst.width := by
  cases x with
  | nan n m =>
    have mant : m * 2 ^ dst.mBits / 2 ^ src.mBits < 2 ^ dst.mBits := by
      rw [Nat.div_lt_iff_lt_mul (Nat.two_pow_pos _), Nat.mul_comm]
      exact Nat.mul_lt_mul_of_pos_left (small n m rfl) (Nat.two_pow_pos _)
    have quiet : m * 2 ^ dst.mBits / 2 ^ src.mBits ||| 2 ^ (dst.mBits - 1) < 2 ^ dst.mBits :=
      Nat.or_lt_two_pow mant (Nat.pow_lt_pow_right (by decide) (by have := dst.mBits_pos; omega))
    rw [fpConvert_nan dst src l r n (small n m rfl)]
    generalize m * 2 ^ dst.mBits / 2 ^ src.mBits ||| 2 ^ (dst.mBits - 1) = q at quiet
    cases dst
    case f32 | f16 | bf16 => cases l <;> cases n <;> simp [Fmt.width, Fmt.eBits, Fmt.mBits, Fmt.infCode] at * <;> omega
    all_goals cases n <;> simp [Fmt.width, Fmt.eBits, Fmt.mBits]
  | inf n =>
    simp only [fpConvert]
    split
    · exact Fmt.signed_lt n (by cases dst <;> decide)
    · exact Fmt.signed_lt n dst.maxCode_lt
  | fin n a e =>
    by_cases zero : a = 0
    · rw [zero, fpConvert_zero, ← Nat.add_zero (if n then _ else _), ← Fmt.signed_eq]
      exact Fmt.signed_lt n (Nat.two_pow_pos _)
    · exact (fpConvert_fin dst src l r n e zero).lt

theorem Fmt.decode_nan_lt {F : Fmt} {x : Nat} {n : Bool} {m : Nat} (nan : F.decode x = .nan n m) : m < 2 ^ F.mBits := by
  have mant := Nat.mod_lt x (Nat.two_pow_pos F.mBits)
  unfold Fmt.decode at nan
  dsimp only at nan
  split at nan
  · split at nan
    · cases nan
    · cases nan
      exact mant
  · split at nan
    · cases nan
      exact mant
    · split at nan <;> cases nan

theorem srcFp_nan_lt {F : Fmt} {l absB negB : Bool} {x : Nat} {n : Bool} {m : Nat} (nan : srcFp F l absB negB x = .nan n m) : m < 2 ^ F.mBits := by
  rw [srcFp_eq] at nan
  exact Fmt.decode_nan_lt nan

/-! To an integer. -/

theorem fpToInt_fin (w : Nat) (sg n : Bool) (r : Rnd) (a : Nat) (e : Int) :
    let lo : Int := if sg then -(2 ^ (w - 1)) else 0
    let hi : Int := if sg then 2 ^ (w - 1) - 1 else 2 ^ w - 1
    ∃ c inexact, Rounded r n id (ratCmp a 1 (e + 1)) c inexact ∧ let y : Int := if n then -(c : Int) else c
      fpToInt (.fin n a e) w sg r = (if y < lo then (lo, 16#6) else if hi < y then (hi, 16#6) else (y, if inexact then 1#6 else 0#6)) :=
  ⟨_, _, roundMultiple_ofFin r n a e, rfl⟩

/-! The elements of `cvt`, `pack` and `unpack`. -/

/-- The value that an integer element reads as. -/
def readInt (sg : Bool) (w x : Nat) : Int := if sg = true ∧ 2 ^ (w - 1) ≤ x then (x : Int) - 2 ^ w else x

theorem readInt_eq {w x : Nat} (sg : Bool) (pos : 0 < w) (small : x < 2 ^ w) : (if sg then signExt x w else x : Int) = readInt sg w x := by
  cases sg <;> simp [readInt, signExt_eq pos, Nat.mod_eq_of_lt small]

theorem satFlag_eq (w : Nat) (sg : Bool) (v : Int) :
    let lo : Int := if sg then -(2 ^ (w - 1)) else 0
    let hi : Int := if sg then 2 ^ (w - 1) - 1 else 2 ^ w - 1
    satFlag sg v w = (min hi (max lo v), if v < lo ∨ hi < v then 32#6 else 0#6) := by
  intro lo hi
  have order : lo ≤ hi := by
    have one : (0 : Int) < 2 ^ (w - 1) := int_two_pow_pos _
    have one' : (0 : Int) < 2 ^ w := int_two_pow_pos _
    cases sg <;> simp only [lo, hi, if_true, Bool.false_eq_true, if_false] <;> omega
  have value : (satFlag sg v w).1 = min hi (max lo v) := satFlag_value w sg v
  refine Prod.ext value ?_
  rw [satFlag_flag, value, flagIf]
  have clipped : (min hi (max lo v) != v) = true ↔ v < lo ∨ hi < v := by
    rw [bne_iff_ne]
    omega
  simp only [clipped]
  rfl

theorem wrap_eq (y : Int) (w : Nat) : wrap y w = (y % 2 ^ w).toNat := by
  rw [wrap, int_two_pow]

theorem CvtTy.w_pos (t : CvtTy) : 0 < CvtTy.w t := by cases t <;> decide

theorem wrap_signExt_word {w y : Nat} (pos : 0 < w) (short : w ≤ 32) (small : y < 2 ^ w) :
    wrap (signExt y w) 32 = if true = true ∧ w < 32 ∧ 2 ^ (w - 1) ≤ y then y + 2 ^ 32 - 2 ^ w else y := by
  have size : 2 ^ w ≤ 2 ^ 32 := Nat.pow_le_pow_right Nat.two_pos short
  have cast : ((2 : Int) ^ w) = (2 ^ w : Nat) := (int_two_pow w).symm
  have full : w = 32 → 2 ^ w = 2 ^ 32 := fun h => by rw [h]
  rw [wrap_eq, signExt_eq pos, Nat.mod_eq_of_lt small, cast]
  generalize 2 ^ (w - 1) = half
  simp only [true_and]
  split <;> split <;> omega

/-- An integer result in its register or pair (R129). -/
theorem placeInt_wrap (t : CvtTy) (z : Int) : placeInt t (wrap z (CvtTy.w t)) =
    let y := (z % 2 ^ CvtTy.w t).toNat
    if CvtTy.sg t = true ∧ CvtTy.w t < 32 ∧ 2 ^ (CvtTy.w t - 1) ≤ y then y + 2 ^ 32 - 2 ^ CvtTy.w t else y := by
  have small := wrap_lt z (CvtTy.w t)
  rw [← wrap_eq]
  generalize wrap z (CvtTy.w t) = y at small
  cases t
  case i32 | i16 | i8 => exact (if_pos rfl).trans (wrap_signExt_word (by decide) (by decide) small)
  all_goals simp [placeInt, CvtTy.sg, CvtTy.wide, CvtTy.w]

end Sys2Proof.Machine
end

section
/-!
SUPPORT. `cvt`, `pack` and `unpack` (R129 to R134).
-/
namespace Sys2Proof.Machine

/-! cvt. -/

/-- The integer that a source element stands for. -/
def cvtInt (t : CvtTy) (i x : Nat) : Int := readInt (CvtTy.sg t) (CvtTy.w t) (cvtElem t i x)

def CvtTy.lo (t : CvtTy) : Int := if CvtTy.sg t then -(2 ^ (CvtTy.w t - 1)) else 0

def CvtTy.hi (t : CvtTy) : Int := if CvtTy.sg t then 2 ^ (CvtTy.w t - 1) - 1 else 2 ^ CvtTy.w t - 1

/-- An integer in the register or pair of its type. -/
def CvtTy.placed (t : CvtTy) (z : Int) : Nat :=
  let y := (z % 2 ^ CvtTy.w t).toNat
  if CvtTy.sg t = true ∧ CvtTy.w t < 32 ∧ 2 ^ (CvtTy.w t - 1) ≤ y then y + 2 ^ 32 - 2 ^ CvtTy.w t else y

theorem cvtElem_lt (t : CvtTy) (i x : Nat) : cvtElem t i x < 2 ^ CvtTy.w t := Nat.mod_lt _ (Nat.two_pow_pos _)

theorem cvtInt_eq (t : CvtTy) (i x : Nat) :
    (if CvtTy.sg t then signExt (cvtElem t i x) (CvtTy.w t) else cvtElem t i x : Int) = cvtInt t i x :=
  readInt_eq (CvtTy.sg t) (CvtTy.w_pos t) (cvtElem_lt t i x)

section
variable {dst src : CvtTy} (i : Nat) (sat dflt l : Bool) (r : Rnd) (x : Nat)

theorem cvtValue_int_int (hs : src.isInt = true) (hd : dst.isInt = true) : cvtValue dst src i sat dflt l r x =
    (CvtTy.placed dst (if sat then min (CvtTy.hi dst) (max (CvtTy.lo dst) (cvtInt src i x)) else cvtInt src i x),
      if sat = true ∧ (cvtInt src i x < CvtTy.lo dst ∨ CvtTy.hi dst < cvtInt src i x) then 32#6 else 0#6) := by
  unfold cvtValue
  dsimp only
  rw [if_pos hs, if_pos hd, cvtInt_eq, satFlag_eq]
  cases sat
  · simp only [Bool.false_eq_true, if_false, placeInt_wrap, false_and]
    rfl
  · simp only [if_true, placeInt_wrap, true_and]
    rfl

theorem cvtValue_int_float (hs : src.isInt = true) (hd : dst.isInt = false) :
    cvtValue dst src i sat dflt l r x = roundFmt (CvtTy.fmt dst) r (Ex.ofInt (cvtInt src i x)) := by
  unfold cvtValue
  dsimp only
  rw [if_pos hs, if_neg (Bool.eq_false_iff.mp hd), cvtInt_eq]

theorem cvtValue_float_int (hs : src.isInt = false) (hd : dst.isInt = true) :
    let z := fpToInt (srcFp (CvtTy.fmt src) l false false (cvtElem src i x)) (CvtTy.w dst) (CvtTy.sg dst)
      (if dflt then (if l then Rnd.rz else Rnd.rn) else r)
    cvtValue dst src i sat dflt l r x = (CvtTy.placed dst z.1, z.2) := by
  unfold cvtValue
  dsimp only
  rw [if_neg (Bool.eq_false_iff.mp hs), if_pos hd, placeInt_wrap]
  rfl

theorem cvtValue_float_float (hs : src.isInt = false) (hd : dst.isInt = false) : cvtValue dst src i sat dflt l r x =
    fpConvert (CvtTy.fmt dst) (CvtTy.fmt src) l r (srcFp (CvtTy.fmt src) l false false (cvtElem src i x)) := by
  unfold cvtValue
  dsimp only
  rw [if_neg (Bool.eq_false_iff.mp hs), if_neg (Bool.eq_false_iff.mp hd)]
  rfl

/-- What `cvt` gives, for integers and numbers on either side. -/
theorem cvtValue_spec (dst src : CvtTy) :
    let v := cvtInt src i x
    let mode := if dflt then (if l then Rnd.rz else Rnd.rn) else r
    let z := fpToInt (srcFp (CvtTy.fmt src) l false false (cvtElem src i x)) (CvtTy.w dst) (CvtTy.sg dst) mode
    let y := cvtValue dst src i sat dflt l r x
    (src.isInt = true → dst.isInt = true → y = (CvtTy.placed dst (if sat then min (CvtTy.hi dst) (max (CvtTy.lo dst) v) else v),
      if sat = true ∧ (v < CvtTy.lo dst ∨ CvtTy.hi dst < v) then 32#6 else 0#6)) ∧
    (src.isInt = true → dst.isInt = false → (v = 0 → y = (0, 0#6)) ∧
      (v ≠ 0 → RoundsTo (CvtTy.fmt dst) r (decide (v < 0)) (ratCmp v.natAbs 1 (-halfExp (CvtTy.fmt dst))) y)) ∧
    (src.isInt = false → dst.isInt = true → y = (CvtTy.placed dst z.1, z.2)) ∧
    (src.isInt = false → dst.isInt = false → y = fpConvert (CvtTy.fmt dst) (CvtTy.fmt src) l r
      (srcFp (CvtTy.fmt src) l false false (cvtElem src i x))) := by
  intro v mode z y
  refine ⟨cvtValue_int_int i sat dflt l r x, fun hs hd => ?_, cvtValue_float_int i sat dflt l r x, cvtValue_float_float i sat dflt l r x⟩
  dsimp only [y]
  rw [cvtValue_int_float i sat dflt l r x hs hd]
  refine ⟨fun none_ => ?_, roundFmt_ofInt _ r⟩
  have zero : Ex.ofInt (cvtInt src i x) = Ex.ofFin false 0 0 := by rw [show cvtInt src i x = 0 from none_]; rfl
  rw [zero, roundFmt_zero]
  rfl
end

/-! pack and unpack. -/

/-- The number of wide elements in a register. -/
def PackTy.count (t : PackTy) : Nat := 32 / CvtTy.w (PackTy.wideTy t)

/-- A narrowed element, and a widened one. -/
def PackTy.narrowed (t : PackTy) (l : Bool) (r : Rnd) (y : Nat) : Nat × FlagSet :=
  if (PackTy.narrowTy t).isInt then
    let v := readInt (CvtTy.sg (PackTy.narrowTy t)) (CvtTy.w (PackTy.wideTy t)) y
    ((min (CvtTy.hi (PackTy.narrowTy t)) (max (CvtTy.lo (PackTy.narrowTy t)) v) % 2 ^ CvtTy.w (PackTy.narrowTy t)).toNat,
      if v < CvtTy.lo (PackTy.narrowTy t) ∨ CvtTy.hi (PackTy.narrowTy t) < v then 32#6 else 0#6)
  else fpConvert (CvtTy.fmt (PackTy.narrowTy t)) (CvtTy.fmt (PackTy.wideTy t)) l r (srcFp (CvtTy.fmt (PackTy.wideTy t)) l false false y)

def PackTy.widened (t : PackTy) (l : Bool) (y : Nat) : Nat × FlagSet :=
  if (PackTy.narrowTy t).isInt then
    ((readInt (CvtTy.sg (PackTy.narrowTy t)) (CvtTy.w (PackTy.narrowTy t)) y % 2 ^ CvtTy.w (PackTy.wideTy t)).toNat, 0#6)
  else fpConvert (CvtTy.fmt (PackTy.wideTy t)) (CvtTy.fmt (PackTy.narrowTy t)) l .rn (srcFp (CvtTy.fmt (PackTy.narrowTy t)) l false false y)

/-- The wide element of `pack` at a place. -/
def PackTy.wideElem (t : PackTy) (a b i : Nat) : Nat :=
  (if i < PackTy.count t then a / 2 ^ (CvtTy.w (PackTy.wideTy t) * i) else b / 2 ^ (CvtTy.w (PackTy.wideTy t) * (i - PackTy.count t))) %
    2 ^ CvtTy.w (PackTy.wideTy t)

theorem PackTy.wide_isInt (t : PackTy) : (PackTy.wideTy t).isInt = (PackTy.narrowTy t).isInt := by cases t <;> rfl

theorem PackTy.wide_sg (t : PackTy) : CvtTy.sg (PackTy.wideTy t) = CvtTy.sg (PackTy.narrowTy t) := by cases t <;> rfl

theorem PackTy.wideElem_lt (t : PackTy) (a b i : Nat) : PackTy.wideElem t a b i < 2 ^ CvtTy.w (PackTy.wideTy t) := by
  exact Nat.mod_lt _ (Nat.two_pow_pos _)

theorem PackTy.cvtElem_wide (t : PackTy) (a b i : Nat) :
    (if i < PackTy.count t then cvtElem (PackTy.wideTy t) i a else cvtElem (PackTy.wideTy t) (i - PackTy.count t) b) = PackTy.wideElem t a b i := by
  have pitch : CvtTy.pitch (PackTy.wideTy t) = CvtTy.w (PackTy.wideTy t) := by cases t <;> rfl
  unfold PackTy.wideElem cvtElem
  rw [pitch]
  split <;> rfl

theorem packElem_eq (t : PackTy) (l : Bool) (r : Rnd) {y : Nat} (small : y < 2 ^ CvtTy.w (PackTy.wideTy t)) :
    packElem t l r y = PackTy.narrowed t l r y := by
  unfold packElem PackTy.narrowed
  dsimp only
  rw [PackTy.wide_isInt t, readInt_eq _ (CvtTy.w_pos _) small, PackTy.wide_sg t]
  split
  · rw [satFlag_eq]
    dsimp only
    rw [wrap_eq]
    rfl
  · rfl

/-- Results fit their elements. -/
theorem PackTy.narrowed_lt (t : PackTy) (l : Bool) (r : Rnd) (y : Nat) : (PackTy.narrowed t l r y).1 < 2 ^ CvtTy.pitch (PackTy.narrowTy t) := by
  by_cases int : (PackTy.narrowTy t).isInt = true
  · have same : CvtTy.pitch (PackTy.narrowTy t) = CvtTy.w (PackTy.narrowTy t) := by
      cases t
      case i32i16 | n32n16 | i16i8 | n16n8 => rfl
      all_goals cases int
    rw [PackTy.narrowed, if_pos int, same]
    dsimp only
    rw [← wrap_eq]
    exact wrap_lt ..
  · rw [PackTy.narrowed, if_neg int]
    refine Nat.lt_of_lt_of_le (fpConvert_lt _ _ l r fun n m => srcFp_nan_lt) (Nat.pow_le_pow_right Nat.two_pos ?_)
    cases t
    case i32i16 | n32n16 | i16i8 | n16n8 => exact absurd rfl int
    all_goals decide

theorem PackTy.widened_lt (t : PackTy) (l : Bool) (y : Nat) : (PackTy.widened t l y).1 < 2 ^ CvtTy.w (PackTy.wideTy t) := by
  by_cases int : (PackTy.narrowTy t).isInt = true
  · rw [PackTy.widened, if_pos int]
    dsimp only
    rw [← wrap_eq]
    exact wrap_lt ..
  · rw [PackTy.widened, if_neg int]
    refine Nat.lt_of_lt_of_le (fpConvert_lt _ _ l .rn fun n m => srcFp_nan_lt) (Nat.pow_le_pow_right Nat.two_pos ?_)
    cases t
    case i32i16 | n32n16 | i16i8 | n16n8 => exact absurd rfl int
    all_goals decide

/-- Elements packed one after another, with the flags of all. -/
theorem packEls_range {w n : Nat} (f : Nat → Nat × FlagSet) (small : ∀ i, (f i).1 < 2 ^ w) :
    (∀ i, i < n → packEls w (((List.range n).map f).map fun y => (y.1 : Int)) / 2 ^ (w * i) % 2 ^ w = (f i).1) ∧
    packEls w (((List.range n).map f).map fun y => (y.1 : Int)) < 2 ^ (w * n) ∧
    (((List.range n).map f).map Prod.snd).foldl (· ||| ·) 0#6 = (List.range n).foldl (fun acc i => acc ||| (f i).2) 0#6 := by
  refine ⟨fun i hi => ?_, ?_, ?_⟩
  · rw [packEls_element _ _ i (by simpa using hi)]
    simp only [List.getElem_map, List.getElem_range, wrap_natCast]
    exact Nat.mod_eq_of_lt (small i)
  · have bound := packEls_lt w (((List.range n).map f).map fun y => (y.1 : Int))
    rwa [List.length_map, List.length_map, List.length_range] at bound
  · rw [List.foldl_map, List.foldl_map]

theorem packValue_eq (t : PackTy) (l : Bool) (r : Rnd) (a b : Nat) :
    let rs := (List.range (2 * PackTy.count t)).map fun i => PackTy.narrowed t l r (PackTy.wideElem t a b i)
    packValue t l r a b = (packEls (CvtTy.pitch (PackTy.narrowTy t)) (rs.map fun y => (y.1 : Int)), (rs.map Prod.snd).foldl (· ||| ·) 0#6) := by
  intro rs
  have each : ((List.range (2 * PackTy.count t)).map fun i => packElem t l r
      (if i < PackTy.count t then cvtElem (PackTy.wideTy t) i a else cvtElem (PackTy.wideTy t) (i - PackTy.count t) b)) = rs :=
    List.map_congr_left fun i _ => by rw [PackTy.cvtElem_wide, packElem_eq t l r (PackTy.wideElem_lt t a b i)]
  rw [← each]
  rfl

theorem unpackValue_eq (t : PackTy) (l : Bool) (part a : Nat) :
    let rs := (List.range (PackTy.count t)).map fun i => PackTy.widened t l (cvtElem (PackTy.narrowTy t) (PackTy.count t * part + i) a)
    unpackValue t l part a = (packEls (CvtTy.w (PackTy.wideTy t)) (rs.map fun y => (y.1 : Int)), (rs.map Prod.snd).foldl (· ||| ·) 0#6) := by
  intro rs
  have each : ((List.range (PackTy.count t)).map fun i =>
      if (PackTy.narrowTy t).isInt then
        (wrap (if CvtTy.sg (PackTy.narrowTy t) then signExt (cvtElem (PackTy.narrowTy t) (PackTy.count t * part + i) a) (CvtTy.w (PackTy.narrowTy t))
          else cvtElem (PackTy.narrowTy t) (PackTy.count t * part + i) a) (CvtTy.w (PackTy.wideTy t)), 0#6)
      else fpConvert (CvtTy.fmt (PackTy.wideTy t)) (CvtTy.fmt (PackTy.narrowTy t)) l .rn
        (cvtSrc (PackTy.narrowTy t) l (cvtElem (PackTy.narrowTy t) (PackTy.count t * part + i) a))) = rs := by
    refine List.map_congr_left fun i _ => ?_
    rw [readInt_eq _ (CvtTy.w_pos _) (cvtElem_lt ..), wrap_eq]
    rfl
  rw [← each]
  rfl

theorem packValue_spec (t : PackTy) (l : Bool) (r : Rnd) (a b : Nat) :
    (∀ i, i < 2 * (PackTy.count t) →
      (packValue t l r a b).1 / 2 ^ (CvtTy.pitch (PackTy.narrowTy t) * i) % 2 ^ CvtTy.pitch (PackTy.narrowTy t) =
        (PackTy.narrowed t l r (PackTy.wideElem t a b i)).1) ∧
    (packValue t l r a b).1 < 2 ^ (CvtTy.pitch (PackTy.narrowTy t) * (2 * PackTy.count t)) ∧
    (packValue t l r a b).2 =
      (List.range (2 * PackTy.count t)).foldl (fun f i => f ||| (PackTy.narrowed t l r (PackTy.wideElem t a b i)).2) 0#6 := by
  rw [packValue_eq]
  exact packEls_range (fun i => PackTy.narrowed t l r (PackTy.wideElem t a b i)) fun i => PackTy.narrowed_lt t l r _

theorem unpackValue_spec (t : PackTy) (l : Bool) (part a : Nat) :
    let elem := fun i => cvtElem (PackTy.narrowTy t) (PackTy.count t * part + i) a
    (∀ i, i < PackTy.count t →
      (unpackValue t l part a).1 / 2 ^ (CvtTy.w (PackTy.wideTy t) * i) % 2 ^ CvtTy.w (PackTy.wideTy t) = (PackTy.widened t l (elem i)).1) ∧
    (unpackValue t l part a).1 < 2 ^ 32 ∧
    (unpackValue t l part a).2 = (List.range (PackTy.count t)).foldl (fun f i => f ||| (PackTy.widened t l (elem i)).2) 0#6 := by
  intro elem
  have word : CvtTy.w (PackTy.wideTy t) * (PackTy.count t) = 32 := by cases t <;> rfl
  obtain ⟨each, size, flags⟩ := packEls_range (w := CvtTy.w (PackTy.wideTy t)) (n := PackTy.count t) (fun i => PackTy.widened t l (elem i))
    fun i => PackTy.widened_lt t l _
  rw [word] at size
  rw [unpackValue_eq]
  exact ⟨each, size, flags⟩

end Sys2Proof.Machine
end

section
/-!
SUPPORT. `prmt`, `quant`, `dequant` and the bit planes (R135 to R139).
-/
namespace Sys2Proof.Machine

/-! prmt. -/

/-- The byte of a pair of words that a field selects. -/
def prmtByte (a b f : Nat) : Nat := (if f % 8 < 4 then a / 2 ^ (8 * (f % 8)) else b / 2 ^ (8 * (f % 8 - 4))) % 256

theorem prmtByte_lt (a b f : Nat) : prmtByte a b f < 256 := Nat.mod_lt _ (by decide)

theorem prmtByte_eq (a b f : Nat) : (a % 2 ^ 32 + 2 ^ 32 * (b % 2 ^ 32)) / 2 ^ (8 * (f % 8)) % 256 = prmtByte a b f := by
  have cases_ : f % 8 = 0 ∨ f % 8 = 1 ∨ f % 8 = 2 ∨ f % 8 = 3 ∨ f % 8 = 4 ∨ f % 8 = 5 ∨ f % 8 = 6 ∨ f % 8 = 7 := by omega
  unfold prmtByte
  rcases cases_ with q | q | q | q | q | q | q | q <;> rw [q] <;> simp <;> omega

/-- What a field makes of its byte. -/
def prmtMode (f y : Nat) : Nat :=
  match f / 8 with
  | 0 => y
  | 1 => if bit y 7 then 255 else 0
  | 2 => 0
  | _ => bitRev8 y

theorem prmtMode_testBit (f : Nat) {y j : Nat} (hj : j < 8) : (prmtMode f y).testBit j =
    match f / 8 with
    | 0 => y.testBit j
    | 1 => y.testBit 7
    | 2 => false
    | _ => y.testBit (7 - j) := by
  unfold prmtMode
  split
  · rfl
  · rw [bit_eq_testBit]
    cases y.testBit 7
    · simp
    · rw [if_pos rfl, show 255 = 2 ^ 8 - 1 from rfl, Nat.testBit_two_pow_sub_one, decide_eq_true hj]
  · exact Nat.zero_testBit j
  · rw [bitRev8, testBit_bitsFrom 8 _ j hj, bit_eq_testBit]

theorem prmtMode_lt (f : Nat) {y : Nat} (small : y < 256) : prmtMode f y < 2 ^ 8 := by
  unfold prmtMode
  split
  · exact small
  · split <;> decide
  · decide
  · exact bitsFrom_lt 8 _

theorem prmtValue_eq (a b ctl : Nat) : prmtValue a b ctl =
    packEls 8 ((List.range 4).map fun i => ((prmtMode (ctl / 2 ^ (5 * i) % 32) (prmtByte a b (ctl / 2 ^ (5 * i) % 32)) : Nat) : Int)) := by
  unfold prmtValue
  dsimp only
  congr 1
  refine List.map_congr_left fun i _ => ?_
  have field : bits ctl (5 * i + 4) (5 * i) = ctl / 2 ^ (5 * i) % 32 := by
    have width : 5 * i + 4 + 1 - 5 * i = 5 := by omega
    exact congrArg (fun w => ctl / 2 ^ (5 * i) % 2 ^ w) width
  rw [field, prmtByte_eq]
  rfl

theorem prmtValue_spec (a b ctl : Nat) {i j : Nat} (hi : i < 4) (hj : j < 8) :
    prmtValue a b ctl < 2 ^ 32 ∧
    (prmtValue a b ctl).testBit (8 * i + j) = (prmtMode (ctl / 2 ^ (5 * i) % 32) (prmtByte a b (ctl / 2 ^ (5 * i) % 32))).testBit j := by
  rw [prmtValue_eq]
  refine ⟨packEls_lt 8 _, ?_⟩
  have byte := packEls_element 8 ((List.range 4).map fun i =>
    ((prmtMode (ctl / 2 ^ (5 * i) % 32) (prmtByte a b (ctl / 2 ^ (5 * i) % 32)) : Nat) : Int)) i (by simpa using hi)
  rw [List.getElem_map, List.getElem_range, wrap_natCast, Nat.mod_eq_of_lt (prmtMode_lt _ (prmtByte_lt a b _))] at byte
  rw [← byte, Nat.testBit_mod_two_pow, decide_eq_true hj, Bool.true_and, Nat.testBit_div_two_pow, Nat.add_comm]

/-! dequant. -/

/-- A byte as the integer that `dequant` reads. -/
def byteInt (nat : Bool) (x : Nat) : Int := if nat = false ∧ 128 ≤ x then (x : Int) - 256 else x

theorem dequantValue_eq (nat l : Bool) (r : Rnd) (e a b : Nat) : dequantValue nat l r e a b =
    fpMul .f32 l r (.fin (decide (byteInt nat (a / 2 ^ (8 * e) % 256) < 0)) (byteInt nat (a / 2 ^ (8 * e) % 256)).natAbs 0) (Fmt.f32.decode b) := by
  have read : (if nat then (a / 2 ^ (8 * e) % 256 : Nat) else signExt (a / 2 ^ (8 * e) % 256) 8 : Int) = byteInt nat (a / 2 ^ (8 * e) % 256) := by
    have small : a / 2 ^ (8 * e) % 256 < 2 ^ 8 := Nat.mod_lt _ (by decide)
    rw [signExt_eq (by decide), Nat.mod_eq_of_lt small]
    cases nat <;> simp [byteInt]
  unfold dequantValue
  dsimp only
  rw [read]

section
variable (l : Bool) (r : Rnd) (n m : Bool) (a : Nat) (e : Int)

theorem fpMul_fin_inf : fpMul .f32 l r (.fin n a e) (.inf m) =
    if a = 0 then (0x7FC00000, 16#6) else ((if (n != m) = true then 0xFF800000 else 0x7F800000), 0#6) := by
  have quiet : snanFlag .f32 [.fin n a e, .inf m] = 0#6 := snanFlag_of_numbers (by simp [Fp.isNan])
  by_cases zero : a = 0
  · simp only [fpMul, zeroTimesInf, Fp.isZero_fin, zero, decide_true, Fp.isInf, Bool.and_self, Bool.true_or, if_true, genNan_f32, snanFlag_or_nv]
  · simp only [fpMul, quiet, zeroTimesInf, Fp.isZero_fin, zero, decide_false, Fp.isInf, Bool.false_and, Fp.isNan, Bool.or_self,
      Bool.false_eq_true, if_false, mulTerm, inf_f32]

theorem fpMul_fin_nan (k : Nat) : fpMul .f32 l r (.fin n a e) (.nan m k) =
    ((if l then Fmt.f32.genNan else Fmt.f32.quietNan m k), if k.testBit 22 then 0#6 else 16#6) := by
  have loud : snanFlag .f32 [.fin n a e, .nan m k] = if k.testBit 22 then 0#6 else 16#6 := by
    simp only [snanFlag, List.any_cons, List.any_nil, Fp.isSnan, Bool.false_or, Bool.or_false, bit_eq_testBit, flagIf, Fmt.mBits]
    cases k.testBit 22 <;> rfl
  simp only [fpMul, loud, zeroTimesInf, Fp.isInf, Bool.and_false, Bool.false_and, Bool.or_self, Bool.false_eq_true, if_false, Fp.isNan, Bool.or_true,
    if_true]
  cases l <;> rfl
end

theorem dequantValue_spec (nat l m : Bool) (r : Rnd) (e a b p : Nat) (f : Int) :
    let v := byteInt nat (a / 2 ^ (8 * e) % 256)
    (Fmt.f32.decode b = .fin m p f → SumsTo .f32 r [(decide (v < 0) != m, v.natAbs * p, f)] (decide (v < 0) != m) (dequantValue nat l r e a b)) ∧
    (Fmt.f32.decode b = .inf m → dequantValue nat l r e a b =
      if v = 0 then (0x7FC00000, 16#6) else ((if (decide (v < 0) != m) = true then 0xFF800000 else 0x7F800000), 0#6)) ∧
    (∀ k, Fmt.f32.decode b = .nan m k → dequantValue nat l r e a b =
      ((if l then 0x7FC00000 else b % 2 ^ 32 ||| 0x400000), if k.testBit 22 then 0#6 else 16#6)) := by
  intro v
  rw [dequantValue_eq]
  refine ⟨fun read => ?_, fun read => ?_, fun k read => ?_⟩
  · have sums := fpMul_sumsTo .f32 l r (decide (v < 0)) m v.natAbs p 0 f
    rw [Int.zero_add] at sums
    rw [read]
    exact sums
  · rw [read, fpMul_fin_inf]
    simp only [Int.natAbs_eq_zero]
    rfl
  · have wide : Fmt.f32 ∈ [Fmt.f32, .f16, .bf16] := by decide
    have small : b % 2 ^ 31 < 2 ^ (Fmt.f32.eBits + Fmt.f32.mBits) := Nat.mod_lt _ (Nat.two_pow_pos 31)
    have code : Fmt.f32.signed (b.testBit 31) (b % 2 ^ 31) = b % 2 ^ 32 := by
      have top : (if b.testBit 31 then 2 ^ 31 else 0) = b / 2 ^ 31 % 2 * 2 ^ 31 := by
        rw [Nat.testBit_eq_decide_div_mod_eq]
        rcases Nat.mod_two_eq_zero_or_one (b / 2 ^ 31) with h | h <;> rw [h] <;> rfl
      rw [Fmt.signed_eq]
      change (if b.testBit 31 then 2 ^ 31 else 0) + b % 2 ^ 31 = b % 2 ^ 32
      rw [top]
      omega
    have shape : Fmt.f32.decode b = Fmt.f32.decodeAs (b.testBit 31) (b % 2 ^ 31) := Fmt.decode_eq .f32 b
    have nan : Fmt.f32.infCode < b % 2 ^ 31 := by
      have is := Fmt.isNan_decodeAs (b.testBit 31) small wide
      rw [← shape, read] at is
      exact of_decide_eq_true is.symm
    have quiet := Fmt.quietNan_code (b.testBit 31) small wide nan
    rcases Fmt.decodeAs_cases wide (b.testBit 31) small with h | h | ⟨-, value⟩
    · omega
    · omega
    · rw [← shape, read, Fp.nan.injEq] at value
      rw [read, fpMul_fin_nan, genNan_f32, value.1, value.2, quiet, code]
      rfl

/-! quant. -/

theorem int_two_pow_le {m n : Nat} (le : m ≤ n) : (2 : Int) ^ m ≤ 2 ^ n := by
  rw [← int_two_pow, ← int_two_pow]
  exact Int.ofNat_le.mpr (Nat.pow_le_pow_right Nat.two_pos le)

/-- The byte that `quant` replaces. -/
def quantPut (c e : Nat) (q : Int) : Nat := c - c / 2 ^ (8 * e) % 256 * 2 ^ (8 * e) + (q % 256).toNat * 2 ^ (8 * e)

def quantLo (nat : Bool) (w : Nat) : Int := if nat then 0 else -(2 ^ (w - 1))

def quantHi (nat : Bool) (w : Nat) : Int := if nat then 2 ^ w - 1 else 2 ^ (w - 1) - 1

/-- An odd number divides a multiple by a power of two only where it divides the number. -/
theorem odd_dvd_of_dvd_mul_two_pow {b a D : Nat} (odd : b % 2 = 1) (divides : b ∣ a * 2 ^ D) : b ∣ a := by
  have coprime : Nat.Coprime b 2 := by
    rw [Nat.coprime_iff_gcd_eq_one, Nat.gcd_comm, Nat.gcd_rec, odd]
    rfl
  exact (coprime.pow_right D).dvd_of_dvd_mul_right divides

/-- Of a divisor of a multiple by a power of two, only as many factors two are needed as it can hold. -/
theorem dvd_mul_two_pow {a k : Nat} : ∀ {b D : Nat}, 0 < b → Nat.log2 b ≤ k → b ∣ a * 2 ^ D → b ∣ a * 2 ^ k := by
  induction k with
  | zero =>
    intro b D pos short divides
    have one : b = 1 := by
      have := (Nat.log2_lt (Nat.ne_of_gt pos)).mp (Nat.lt_succ_of_le short)
      omega
    rw [one]
    exact Nat.one_dvd _
  | succ k ih =>
    intro b D pos short divides
    rcases Nat.mod_two_eq_zero_or_one b with even | odd
    · obtain ⟨c, rfl⟩ := Nat.dvd_of_mod_eq_zero even
      have some_ : c ≠ 0 := fun none_ => by omega
      rw [Nat.log2_two_mul some_] at short
      cases D with
      | zero =>
        rw [Nat.pow_zero, Nat.mul_one] at divides
        exact Nat.dvd_mul_right_of_dvd divides _
      | succ D =>
        rw [Nat.pow_succ, ← Nat.mul_assoc, Nat.mul_comm 2 c] at divides
        have half := ih (by omega) (by omega) (Nat.dvd_of_mul_dvd_mul_right Nat.two_pos divides)
        rw [Nat.pow_succ, ← Nat.mul_assoc, Nat.mul_comm 2 c]
        exact Nat.mul_dvd_mul_right half 2
    · exact Nat.dvd_mul_right_of_dvd (odd_dvd_of_dvd_mul_two_pow odd divides) _

theorem Rounded.le {r : Rnd} {neg inexact : Bool} {cmp : Nat → Ordering} {c : Nat} (rounded : Rounded r neg id cmp c inexact) :
    ∃ n, n ≤ c ∧ cmp (2 * n) ≠ .lt ∧ cmp (2 * (n + 1)) = .lt ∧ (inexact = true ↔ cmp (2 * n) = .gt) := by
  obtain ⟨n, low, high, flag, rfl⟩ := rounded
  refine ⟨n, ?_, low, high, flag⟩
  cases inexact with
  | false => exact Nat.le_refl n
  | true =>
    rw [if_neg (by decide)]
    cases r with
    | rz => exact Nat.le_refl n
    | rn | rp | rm | ra =>
      dsimp only
      split <;> omega

/-- A quotient rounded to an integer (R136); a large one is another, but it is clipped alike. -/
theorem roundInt_exQuot (r : Rnd) (neg : Bool) (a : Nat) {b : Nat} (pos : 0 < b) (D : Int) : ∃ q inexact,
    Rounded r neg id (ratCmp a b (D + 1)) q inexact ∧ (roundMultiple (exQuot neg a b D) 0 r).2 = inexact ∧
      ((roundMultiple (exQuot neg a b D) 0 r).1 = q ∨ 2 ^ 65 ≤ (roundMultiple (exQuot neg a b D) 0 r).1 ∧ 2 ^ 65 ≤ q) := by
  have reads : (exQuot neg a b D).Reads (-1) (ratCmp a b (D + 1)) := by
    have := exQuot_reads neg a pos D (-1)
    rwa [Int.sub_neg] at this
  by_cases fine : (exQuot neg a b D).sticky = true → (exQuot neg a b D).exp < 0
  · exact ⟨_, _, roundMultiple_rounded r fine reads, rfl, .inl rfl⟩
  · obtain ⟨inexact, large⟩ := Classical.not_imp.mp fine
    have some_ : a * 2 ^ (66 + Nat.log2 b) % b ≠ 0 := bne_iff_ne.mp inexact
    have nonzero : a ≠ 0 := by
      rintro rfl
      exact some_ (by rw [Nat.zero_mul, Nat.zero_mod])
    obtain ⟨d, hd⟩ : ∃ d : Nat, D = d := ⟨D.toNat, by change ¬ D - (66 + Nat.log2 b : Nat) < 0 at large; omega⟩
    have far : 66 + Nat.log2 b ≤ d := by
      change ¬ D - (66 + Nat.log2 b : Nat) < 0 at large
      omega
    have coarse : 0 - (exQuot neg a b D).exp ≤ 0 := by omega
    have place : ((exQuot neg a b D).split 0).2 = .below := by
      simp only [Ex.split, coarse, if_true, inexact]
    have clipped : 2 ^ 65 ≤ (roundMultiple (exQuot neg a b D) 0 r).1 := by
      rw [roundMultiple_eq, Ex.split_of_le coarse]
      exact Nat.le_trans (Nat.le_trans (exQuot_big neg pos D nonzero) (Nat.le_mul_of_pos_right _ (Nat.two_pow_pos _))) (Nat.le_add_right _ _)
    have finer : (exQuot neg (a * 2 ^ d) b 0).Reads (-1) (ratCmp a b (D + 1)) := by
      have := exQuot_reads neg (a * 2 ^ d) pos 0 (-1)
      have scale : ratCmp (a * 2 ^ d) b (0 - -1) = ratCmp a b (D + 1) := funext fun h => by
        rw [ratCmp_scaled]
        congr 1
        omega
      rwa [scale] at this
    have rounded := roundMultiple_rounded (x := exQuot neg (a * 2 ^ d) b 0) r (fun _ => by
      change (0 : Int) - (66 + Nat.log2 b : Nat) < 0
      omega) finer
    obtain ⟨n, le, low, high, flag⟩ := rounded.le
    have up : (D + 1).toNat = d + 1 := by omega
    have down : (-(D + 1)).toNat = 0 := by omega
    simp only [ratCmp, up, down, Nat.pow_zero, Nat.mul_one, ne_eq, Nat.compare_eq_lt, Nat.compare_eq_gt, Nat.pow_succ] at low high flag
    refine ⟨_, _, rounded, ?_, .inr ⟨clipped, ?_⟩⟩
    · rw [roundMultiple_eq (exQuot neg a b D), place]
      refine (flag.mpr ?_).symm
      refine Classical.byContradiction fun exact_ => ?_
      have equal : a * 2 ^ d = n * b := by
        have two : a * (2 ^ d * 2) = 2 * (a * 2 ^ d) := by ac_rfl
        have two' : 2 * n * b = 2 * (n * b) := Nat.mul_assoc _ _ _
        omega
      exact some_ (Nat.mod_eq_zero_of_dvd (dvd_mul_two_pow pos (by omega) (equal ▸ Nat.dvd_mul_left b n)))
    · have bound : 2 ^ 65 * b < a * 2 ^ d := by
        calc 2 ^ 65 * b < 2 ^ 65 * 2 ^ (Nat.log2 b + 1) := Nat.mul_lt_mul_of_pos_left Nat.lt_log2_self (Nat.two_pow_pos _)
          _ = 1 * 2 ^ (66 + Nat.log2 b) := by rw [← Nat.pow_add, Nat.one_mul]; congr 1; omega
          _ ≤ a * 2 ^ d := Nat.mul_le_mul (Nat.pos_of_ne_zero nonzero) (Nat.pow_le_pow_right Nat.two_pos far)
      have above : a * 2 ^ d < (n + 1) * b := by
        have two : a * (2 ^ d * 2) = 2 * (a * 2 ^ d) := by ac_rfl
        have two' : 2 * (n + 1) * b = 2 * ((n + 1) * b) := Nat.mul_assoc _ _ _
        omega
      have := Nat.lt_of_mul_lt_mul_right (Nat.lt_trans bound above)
      omega

/-- The clipped result of `quant` with its flags. -/
def quantClip (lo hi v : Int) (inexact : Bool) : Int × FlagSet :=
  (min hi (max lo v), (if v < lo ∨ hi < v then 32#6 else 0#6) ||| if inexact then 1#6 else 0#6)

theorem quantClip_low {lo hi v : Int} (order : lo ≤ hi) (low : v < lo) (inexact : Bool) :
    quantClip lo hi v inexact = (lo, 32#6 ||| if inexact then 1#6 else 0#6) := by
  have below : v < lo ∨ hi < v := .inl low
  rw [quantClip, show min hi (max lo v) = lo by omega]
  simp only [below, if_true]

theorem quantClip_high {lo hi v : Int} (high : hi < v) (inexact : Bool) :
    quantClip lo hi v inexact = (hi, 32#6 ||| if inexact then 1#6 else 0#6) := by
  have above : v < lo ∨ hi < v := .inr high
  rw [quantClip, show min hi (max lo v) = hi by omega]
  simp only [above, if_true]

theorem quantClip_eq {lo hi : Int} (order : lo ≤ hi) (v : Int) (inexact : Bool) :
    (if v < lo then (lo, flagSI ||| flagIf inexact flagNX) else if v > hi then (hi, flagSI ||| flagIf inexact flagNX)
      else (v, flagIf inexact flagNX)) = quantClip lo hi v inexact := by
  have flags : flagIf inexact flagNX = if inexact then 1#6 else 0#6 := rfl
  rw [flags]
  by_cases low : v < lo
  · rw [if_pos low, quantClip_low order low]
    rfl
  · by_cases high : hi < v
    · rw [if_neg low, if_pos high, quantClip_high high]
      rfl
    · have inside : ¬ (v < lo ∨ hi < v) := not_or.mpr ⟨low, high⟩
      rw [if_neg low, if_neg high, quantClip, show min hi (max lo v) = v by omega]
      simp only [inside, if_false, BitVec.zero_or]

/-- Values far out are clipped alike. -/
theorem quantClip_far {lo hi : Int} (order : lo ≤ hi) (low : -(2 ^ 65) < lo) (high : hi < 2 ^ 65) (neg inexact : Bool) {p q : Nat}
    (far : p = q ∨ 2 ^ 65 ≤ p ∧ 2 ^ 65 ≤ q) :
    quantClip lo hi (if neg then -(p : Int) else p) inexact = quantClip lo hi (if neg then -(q : Int) else q) inexact := by
  rcases far with rfl | ⟨hp, hq⟩
  · rfl
  · have bigp : (2 : Int) ^ 65 ≤ p := by exact_mod_cast hp
    have bigq : (2 : Int) ^ 65 ≤ q := by exact_mod_cast hq
    cases neg
    · simp only [Bool.false_eq_true, if_false]
      rw [quantClip_high (by omega), quantClip_high (by omega)]
    · simp only [if_true]
      rw [quantClip_low order (by omega), quantClip_low order (by omega)]

section
variable (nat : Bool) (r : Rnd) {w : Nat} (e a b c : Nat)

theorem quantValue_eq : ∃ q : Int × FlagSet, quantValue nat r w e a b c = (quantPut c e q.1, q.2) ∧
    q = if ((Fmt.f32.decode a).isNan || (Fmt.f32.decode b).isNan || (Fmt.f32.decode b).isZero ||
        ((Fmt.f32.decode a).isInf && (Fmt.f32.decode b).isInf)) = true then (0, flagNV)
      else match Fmt.f32.decode a, Fmt.f32.decode b with
        | .inf m, _ => (if (m != (Fmt.f32.decode b).neg) = true then quantLo nat w else quantHi nat w, flagSI)
        | .fin _ _ _, .inf _ => (0, 0#6)
        | .fin m p f, .fin m' p' f' =>
          if (roundInt (exQuot (m != m') p p' (f - f')) r).1 < quantLo nat w then
            (quantLo nat w, flagSI ||| flagIf (roundInt (exQuot (m != m') p p' (f - f')) r).2 flagNX)
          else if (roundInt (exQuot (m != m') p p' (f - f')) r).1 > quantHi nat w then
            (quantHi nat w, flagSI ||| flagIf (roundInt (exQuot (m != m') p p' (f - f')) r).2 flagNX)
          else ((roundInt (exQuot (m != m') p p' (f - f')) r).1, flagIf (roundInt (exQuot (m != m') p p' (f - f')) r).2 flagNX)
        | _, _ => (0, flagNV) := by
  have lo : (if nat then 0 else -(2 ^ (w - 1) : Nat) : Int) = quantLo nat w := by
    rw [quantLo, int_two_pow]
  have hi : (if nat then (2 ^ w : Nat) - 1 else (2 ^ (w - 1) : Nat) - 1 : Int) = quantHi nat w := by
    rw [quantHi, int_two_pow, int_two_pow]
  refine ⟨_, ?_, rfl⟩
  unfold quantValue
  dsimp only
  rw [lo, hi, wrap_eq, show (2 : Int) ^ 8 = 256 by decide]
  rfl

theorem quantValue_invalid (bad : (Fmt.f32.decode a).isNan = true ∨ (Fmt.f32.decode b).isNan = true ∨ (Fmt.f32.decode b).isZero = true ∨
    ((Fmt.f32.decode a).isInf = true ∧ (Fmt.f32.decode b).isInf = true)) : quantValue nat r w e a b c = (quantPut c e 0, 16#6) := by
  obtain ⟨q, result, shape⟩ := quantValue_eq nat r (w := w) e a b c
  rw [if_pos (by simpa [or_assoc] using bad)] at shape
  rw [result, shape]
  rfl

theorem quantValue_inf_fin {n n' : Bool} {p' : Nat} {f' : Int} (ha : Fmt.f32.decode a = .inf n) (hb : Fmt.f32.decode b = .fin n' p' f')
    (nonzero : p' ≠ 0) : quantValue nat r w e a b c = (quantPut c e (if n = n' then quantHi nat w else quantLo nat w), 32#6) := by
  obtain ⟨q, result, shape⟩ := quantValue_eq nat r (w := w) e a b c
  rw [ha, hb, Fp.isZero_fin, decide_eq_false nonzero] at shape
  rw [result, shape]
  cases n <;> cases n' <;> rfl

theorem quantValue_fin_inf {n n' : Bool} {p : Nat} {f : Int} (ha : Fmt.f32.decode a = .fin n p f) (hb : Fmt.f32.decode b = .inf n') :
    quantValue nat r w e a b c = (quantPut c e 0, 0#6) := by
  obtain ⟨q, result, shape⟩ := quantValue_eq nat r (w := w) e a b c
  rw [ha, hb] at shape
  rw [result, shape]
  rfl

theorem quantValue_fin_fin {n n' : Bool} {p p' : Nat} {f f' : Int} (pos : 0 < w) (short : w ≤ 8) (ha : Fmt.f32.decode a = .fin n p f)
    (hb : Fmt.f32.decode b = .fin n' p' f') (nonzero : p' ≠ 0) : ∃ q inexact,
    Rounded r (n != n') id (ratCmp p p' (f - f' + 1)) q inexact ∧
      let v : Int := if n = n' then (q : Int) else -q
      quantValue nat r w e a b c = (quantPut c e (quantClip (quantLo nat w) (quantHi nat w) v inexact).1,
        (quantClip (quantLo nat w) (quantHi nat w) v inexact).2) := by
  obtain ⟨y, result, shape⟩ := quantValue_eq nat r (w := w) e a b c
  obtain ⟨q, inexact, rounded, same, far⟩ := roundInt_exQuot r (n != n') p (Nat.pos_of_ne_zero nonzero) (f - f')
  have limits : quantLo nat w ≤ quantHi nat w ∧ -(2 ^ 65) < quantLo nat w ∧ quantHi nat w < 2 ^ 65 := by
    have size : (2 : Int) ^ w ≤ 2 ^ 8 := int_two_pow_le short
    have half : (2 : Int) ^ (w - 1) ≤ 2 ^ 8 := int_two_pow_le (by omega)
    have one : (0 : Int) < 2 ^ w := int_two_pow_pos _
    have one' : (0 : Int) < 2 ^ (w - 1) := int_two_pow_pos _
    cases nat <;> simp only [quantLo, quantHi, if_true, if_false, Bool.false_eq_true] <;> omega
  obtain ⟨order, low, high⟩ := limits
  refine ⟨q, inexact, rounded, ?_⟩
  rw [ha, hb, Fp.isZero_fin, decide_eq_false nonzero] at shape
  have value : y = quantClip (quantLo nat w) (quantHi nat w) (if (n != n') = true then -(q : Int) else q) inexact := by
    rw [← quantClip_far order low high (n != n') inexact far, ← same, ← quantClip_eq order]
    exact shape
  have sign : (if (n != n') = true then -(q : Int) else q) = if n = n' then (q : Int) else -q := by cases n <;> cases n' <;> rfl
  rw [result, value, sign]
end

/-! Bit planes. -/

/-- A byte of a list of registers, and the integer it stands for. -/
def regByte (regs : List Nat) (j : Nat) : Nat := regs.getD (j / 4) 0 / 2 ^ (8 * (j % 4)) % 256

def regInt (regs : List Nat) (j : Nat) : Int := if 128 ≤ regByte regs j then (regByte regs j : Int) - 256 else regByte regs j

theorem signExt_regByte (regs : List Nat) (j : Nat) : signExt (regByte regs j) 8 = regInt regs j := by
  have small : regByte regs j < 2 ^ 8 := Nat.mod_lt _ (by decide)
  rw [signExt_eq (by decide), Nat.mod_eq_of_lt small]
  rfl

section
variable (n p : Nat) (regs : List Nat)

theorem plsplitValue_eq : plsplitValue n p regs =
    (bitsFrom 32 fun j => ((if j < 32 then satFlag true (regInt regs j) n else (0, 0#6)).1 + (2 ^ (n - 1) : Nat)).toNat.testBit (n - 1 - p),
      ((List.range 32).map fun j => flagIf ((satFlag true (regInt regs j) n).1 != regInt regs j) flagSI).foldl (· ||| ·) 0#6) := by
  have values : ((List.range 32).map fun j => satFlag true (signExt (nth0 regs (j / 4) / 2 ^ (8 * (j % 4)) % 256) 8) n) =
      (List.range 32).map fun j => satFlag true (regInt regs j) n :=
    List.map_congr_left fun j _ => congrArg (satFlag true · n) (signExt_regByte regs j)
  have elem : ∀ j, ((List.range 32).map fun j => satFlag true (regInt regs j) n).getD j (0, 0#6) =
      if j < 32 then satFlag true (regInt regs j) n else (0, 0#6) := fun j => by
    rw [List.getD_eq_getElem?_getD, List.getElem?_map]
    by_cases hj : j < 32
    · rw [List.getElem?_range hj, if_pos hj]
      rfl
    · rw [List.getElem?_eq_none (by rw [List.length_range]; omega), if_neg hj]
      rfl
  unfold plsplitValue
  dsimp only
  simp only [values, elem, bit_eq_testBit, List.map_map]
  rfl

theorem plsplitValue_spec {j : Nat} (hj : j < 32) :
    let lo : Int := -(2 ^ (n - 1))
    let hi : Int := 2 ^ (n - 1) - 1
    (plsplitValue n p regs).1 < 2 ^ 32 ∧
    (plsplitValue n p regs).1.testBit j = (min hi (max lo (regInt regs j)) + 2 ^ (n - 1)).toNat.testBit (n - 1 - p) ∧
    ((plsplitValue n p regs).2 = 32#6 ∨ (plsplitValue n p regs).2 = 0#6) ∧
    ((plsplitValue n p regs).2 = 32#6 ↔ ∃ j, j < 32 ∧ (regInt regs j < lo ∨ hi < regInt regs j)) := by
  intro lo hi
  have order : lo ≤ hi := by
    have one : (0 : Int) < 2 ^ (n - 1) := int_two_pow_pos _
    dsimp only [lo, hi]
    omega
  have value : ∀ i, (satFlag true (regInt regs i) n).1 = min hi (max lo (regInt regs i)) := fun i => satFlag_value n true _
  rw [plsplitValue_eq]
  dsimp only
  rw [foldl_flagIf, testBit_bitsFrom 32 _ j hj, if_pos hj, value]
  refine ⟨bitsFrom_lt 32 _, by rw [int_two_pow], ?_, ?_⟩
  · unfold flagIf
    split
    · exact .inl rfl
    · exact .inr rfl
  · have clipped : ((List.range 32).any fun i => (satFlag true (regInt regs i) n).1 != regInt regs i) = true ↔
        ∃ i, i < 32 ∧ (regInt regs i < lo ∨ hi < regInt regs i) := by
      simp only [List.any_eq_true, List.mem_range, bne_iff_ne, value]
      refine exists_congr fun i => and_congr_right fun _ => ?_
      omega
    rw [← clipped]
    unfold flagIf
    split
    · next yes => exact ⟨fun _ => yes, fun _ => rfl⟩
    · next no => exact ⟨fun h => absurd h (by decide), fun h => absurd h no⟩
end

/-- The integer that the first planes of an element keep (R139). -/
def planeValue (n k : Nat) (planes : List Nat) (j : Nat) : Int :=
  ((List.range k).map fun p => if (planes.getD p 0).testBit j then (2 : Int) ^ (n - 1 - p) else 0).sum +
    (if k = n then 0 else 2 ^ (n - k - 1)) - 2 ^ (n - 1)

theorem sum_map_scaled {f : Nat → Nat} {g : Nat → Int} {c : Nat} (ps : List Nat) (scaled : ∀ p ∈ ps, ((f p * c : Nat) : Int) = g p) :
    (((ps.map f).sum * c : Nat) : Int) = (ps.map g).sum := by
  induction ps with
  | nil => simp
  | cons p ps ih =>
    rw [List.map_cons, List.map_cons, List.sum_cons, List.sum_cons, Nat.add_mul, Int.natCast_add, scaled p List.mem_cons_self,
      ih fun q hq => scaled q (List.mem_cons_of_mem p hq)]

theorem planes_kept {n k : Nat} (planes : List Nat) (j : Nat) (le : k ≤ n) :
    ((((List.range k).map fun p => (bit (nth0 planes p) j).toNat * 2 ^ (k - 1 - p)).foldl (· + ·) 0 * 2 ^ (n - k) : Nat) : Int) =
      ((List.range k).map fun p => if (planes.getD p 0).testBit j then (2 : Int) ^ (n - 1 - p) else 0).sum := by
  rw [foldl_add_sum]
  refine sum_map_scaled _ fun p hp => ?_
  have lt := List.mem_range.mp hp
  rw [Nat.mul_assoc, ← Nat.pow_add, show k - 1 - p + (n - k) = n - 1 - p by omega, bit_eq_testBit, nth0]
  cases (planes.getD p 0).testBit j <;> simp

theorem reconBP_planes {n k : Nat} (planes : List Nat) (j : Nat) (le : k ≤ n) :
    reconBP (((List.range k).map fun p => (bit (nth0 planes p) j).toNat * 2 ^ (k - 1 - p)).foldl (· + ·) 0 * 2 ^ (n - k)) n k =
      planeValue n k planes j := by
  rw [reconBP, planeValue, ← planes_kept planes j le, Nat.mul_div_cancel _ (Nat.two_pow_pos _)]
  split
  · rw [Int.add_zero]
  · rw [Int.natCast_add, int_two_pow]

theorem plmergeValue_spec {n k i j : Nat} (planes : List Nat) (le : k ≤ n) (hi : i < 8) (hj : j < 32) :
    (plmergeValue n k planes).length = 8 ∧ (plmergeValue n k planes).getD i 0 < 2 ^ 32 ∧
    ((((plmergeValue n k planes).getD (j / 4) 0 / 2 ^ (8 * (j % 4)) % 256 : Nat)) : Int) = planeValue n k planes j % 256 := by
  have shape : plmergeValue n k planes = (List.range 8).map fun r => packEls 8 ((List.range 4).map fun i => planeValue n k planes (4 * r + i)) := by
    unfold plmergeValue
    dsimp only
    refine List.map_congr_left fun r _ => congrArg (packEls 8) (List.map_congr_left fun i _ => ?_)
    exact reconBP_planes planes (4 * r + i) le
  have register : ∀ r, r < 8 → (plmergeValue n k planes).getD r 0 = packEls 8 ((List.range 4).map fun i => planeValue n k planes (4 * r + i)) :=
    fun r hr => by rw [shape, List.getD_eq_getElem?_getD, List.getElem?_map, List.getElem?_range hr]; rfl
  refine ⟨by rw [shape, List.length_map, List.length_range], ?_, ?_⟩
  · rw [register i hi]
    exact packEls_lt 8 _
  · have byte := packEls_element 8 ((List.range 4).map fun i => planeValue n k planes (4 * (j / 4) + i)) (j % 4)
      (by rw [List.length_map, List.length_range]; omega)
    rw [List.getElem_map, List.getElem_range, show 4 * (j / 4) + j % 4 = j by omega] at byte
    rw [register (j / 4) (by omega)]
    have cast := congrArg (fun x : Nat => (x : Int)) byte
    exact cast.trans (wrap_cast _ 8)

end Sys2Proof.Machine
end

section
/-!
PROOFS. The values of the conversions (R38 to R41, R129 to R139).
-/
namespace Sys2Proof.Machine

/-- The row of a type of `cvt` (R129): bits, distance, sign, and whether it is an integer. -/
def cvtRow : CvtTy → Nat × Nat × Bool × Bool
  | .i32 => (32, 32, true, true) | .n32 => (32, 32, false, true) | .i64 => (64, 64, true, true) | .n64 => (64, 64, false, true)
  | .i16 => (16, 16, true, true) | .n16 => (16, 16, false, true) | .i8 => (8, 8, true, true) | .n8 => (8, 8, false, true)
  | .f32 => (32, 32, false, false) | .f16 | .bf16 => (16, 16, false, false) | .f8e4 | .f8e5 => (8, 8, false, false)
  | .f6e2 | .f6e3 => (6, 8, false, false) | .f4e2 => (4, 4, false, false)

theorem cvtRow_eq (t : CvtTy) : cvtRow t = (CvtTy.w t, CvtTy.pitch t, CvtTy.sg t, t.isInt) := by cases t <;> rfl

/-- The row of a code of `pack` and `unpack` (R132): elements of the wide side, its bits, the distance of narrow elements, their bits, and
whether integers and signed. -/
def packRow : PackTy → Nat × Nat × Nat × Nat × Bool × Bool
  | .i32i16 => (1, 32, 16, 16, true, true) | .n32n16 => (1, 32, 16, 16, true, false)
  | .i16i8 => (2, 16, 8, 8, true, true) | .n16n8 => (2, 16, 8, 8, true, false)
  | .f32f16 | .f32bf16 => (1, 32, 16, 16, false, false)
  | .f16e4 | .f16e5 | .bf16e4 | .bf16e5 => (2, 16, 8, 8, false, false)
  | .f16f6e2 | .f16f6e3 => (2, 16, 8, 6, false, false) | .f16f4e2 => (2, 16, 4, 4, false, false)

theorem packRow_eq (t : PackTy) : packRow t = (PackTy.count t, CvtTy.w (PackTy.wideTy t), CvtTy.pitch (PackTy.narrowTy t),
    CvtTy.w (PackTy.narrowTy t), (PackTy.narrowTy t).isInt, CvtTy.sg (PackTy.narrowTy t)) := by
  cases t <;> rfl

/-- Settles O8: values that are rounded meet R33 through `roundFmt_roundsTo`, those to an integer through `roundMultiple_rounded`; the others
are read element by element. -/
theorem conversionValues : Obligations.ConversionValues := by
  unfold Obligations.ConversionValues
  refine ⟨?_, ?_, ?_, ?_, ?_, ?_, ?_, ?_⟩
  · intro dst src l n r a m e sign
    exact ⟨fpConvert_fin dst src l r n e, fpConvert_zero dst src l r n e, fpConvert_inf dst src l r n,
      fun _ small => fpConvert_nan dst src l r n small⟩
  · intro w sg n r a m e _pos lo hi
    exact ⟨rfl, rfl, fpToInt_fin w sg n r a e⟩
  · intro dst src i sat dflt l r x row
    have rows : ∀ t, row t = (CvtTy.w t, CvtTy.pitch t, CvtTy.sg t, t.isInt) := fun t => (by cases t <;> rfl : row t = cvtRow t).trans (cvtRow_eq t)
    rw [rows src, rows dst]
    exact cvtValue_spec i sat dflt l r x dst src
  · intro t l r a b i part row
    have rowEq : row = packRow t := by cases t <;> rfl
    rw [rowEq, packRow_eq]
    dsimp -zeta only
    intro fmts read wide lo hi narrowed code widened
    have formats : (PackTy.narrowTy t).isInt = false → fmts = (CvtTy.fmt (PackTy.wideTy t), CvtTy.fmt (PackTy.narrowTy t)) := by
      intro float
      cases t
      case i32i16 | n32n16 | i16i8 | n16n8 => cases float
      all_goals rfl
    have narrow : narrowed = fun i => PackTy.narrowed t l r (PackTy.wideElem t a b i) := funext fun i => by
      cases int : (PackTy.narrowTy t).isInt
      · simp only [narrowed, PackTy.narrowed, int, formats int, Bool.false_eq_true, if_false]
        rfl
      · simp only [narrowed, PackTy.narrowed, int, if_true]
        rfl
    have widen : widened = fun i => PackTy.widened t l (cvtElem (PackTy.narrowTy t) (PackTy.count t * part + i) a) := funext fun i => by
      cases int : (PackTy.narrowTy t).isInt
      · simp only [widened, PackTy.widened, int, formats int, Bool.false_eq_true, if_false]
        rfl
      · simp only [widened, PackTy.widened, int, if_true]
        rfl
    obtain ⟨each, size, flags⟩ := packValue_spec t l r a b
    obtain ⟨each', size', flags'⟩ := unpackValue_spec t l part a
    rw [narrow, widen]
    exact ⟨each i, size, flags, each' i, size', flags'⟩
  · intro a b ctl i j hi hj f y
    obtain ⟨size, bits_⟩ := prmtValue_spec a b ctl hi hj
    exact ⟨size, bits_.trans (prmtMode_testBit _ hj)⟩
  · intro nat n n' r w e a b c p p' f f' pos short _ _ lo hi put y x z
    refine ⟨fun bad => quantValue_invalid nat r e a b c bad, fun ha hb nonzero => quantValue_inf_fin nat r e a b c ha hb nonzero,
      fun ha hb => quantValue_fin_inf nat r e a b c ha hb, fun ha hb nonzero => quantValue_fin_fin nat r e a b c pos short ha hb nonzero⟩
  · intro nat l m r e a b p f _ byte v
    exact dequantValue_spec nat l m r e a b p f
  · intro n p k i j regs planes _ _ _ _ le hj hi byte v lo hi' kept value
    obtain ⟨size, each, flag, clipped⟩ := plsplitValue_spec n p regs hj
    refine ⟨size, each, flag, clipped, ?_⟩
    exact plmergeValue_spec planes le hi hj

end Sys2Proof.Machine
end
